-- ==== Sys2Proof/Word.lean ====
section
/-! DEFINITION. The machine's words: a byte, a general register, a vector register, an instruction word. -/

namespace Sys2Proof

/-- One byte of memory. -/
abbrev Byte := BitVec 8
/-- A general register, an address operand, a doubleword (01, R95). -/
abbrev Word := BitVec 64
/-- A vector register, a 32-byte sector (R95). -/
abbrev Wide := BitVec 256
/-- An instruction word (R65). -/
abbrev Code := BitVec 96
/-- A 9-bit format tag: [5:0] the format code, [8:6] the xv index (R101). -/
abbrev FTag := BitVec 9
/-- A program counter: a 56-bit virtual address whose bits [2:0] are the slot (R66). -/
abbrev Pc := BitVec 56

end Sys2Proof
end

