-- ==== Sys2Proof/Syntax.lean ====
section
/-! DEFINITION. The instructions: one constructor for each row of the opcode table. Rows 1 to 176 of the table and
UNASSIGNED_OPCODE have a 96-bit word; the other rows are the machine's own steps and carry the step's data. -/

namespace Sys2Proof

/-- The format codes of R102; `none` is code 0x00, which no type subfield may carry. -/
inductive Fmt where
  | none | i8 | i16 | i32 | i64 | n8 | n16 | n32 | n64 | b32 | b64
  | f64 | f32 | f16 | bf16 | f8e4 | f8e5 | f6e3 | f4 | f4x
  | f4bs | f8e4bs | f8e5bs
  | q4g32 | q4g64 | q4g128 | q8g32 | q8g64 | q8g128
  deriving DecidableEq, Repr

/-- Rounding modes (R84, R106). -/
inductive Rnd where
  | rne | rz | rd | ru | rs
  deriving DecidableEq, Repr

/-- Memory orders (R43, R84). -/
inductive Order where
  | rlx | acq | rel | ar
  deriving DecidableEq, Repr

/-- Memory scopes (R22, R84). -/
inductive Scope where
  | core | quad | die | pkg | pod | sys
  deriving DecidableEq, Repr

/-- Address spaces (R24). -/
inductive Space where
  | global | carrel | rcarrel | accum | host | stacks | folio
  deriving DecidableEq, Repr

/-- The registers of the operand space (R67). -/
inductive Reg where
  | g (n : BitVec 7) | v (n : BitVec 5) | t (n : BitVec 4) | a (n : BitVec 3) | xv (n : BitVec 3)
  deriving DecidableEq, Repr

/-- A source operand: a register or a bypass latch (R68). -/
inductive Src where
  | reg (r : Reg) | latch (k : BitVec 2)
  deriving DecidableEq, Repr

/-- A destination: a register, or write-back suppress, which leaves the result in the latch only (R67, R74). -/
inductive Dst where
  | reg (r : Reg) | latchOnly
  deriving DecidableEq, Repr

/-- The guard fields (R12, R65). -/
structure Guard where
  reg : BitVec 7
  bit : BitVec 6
  neg : Bool
  deriving DecidableEq, Repr

/-- The operand fields every instruction word has (R65). -/
structure Ops where
  gd : Guard
  d : Dst
  a : Src
  b : Src
  c : Src
  deriving DecidableEq, Repr

/-- Class 0x0 modifiers (R85): type, condition, .sat, and imm23 when I is set. -/
structure M0 where
  ty : Fmt
  cond : BitVec 5
  sat : Bool
  imm : Option (BitVec 23)
  deriving DecidableEq, Repr

/-- Class 0x1 modifiers (R85). -/
structure M1 where
  ty : Fmt
  rnd : Rnd
  sat : Bool
  cond : BitVec 5
  var : BitVec 21
  deriving DecidableEq, Repr

/-- Class 0x2 modifiers (R85). -/
structure M2 where
  dt : Fmt
  st : Fmt
  rnd : Rnd
  sat : Bool
  xv : BitVec 3
  var : BitVec 17
  deriving DecidableEq, Repr

/-- Class 0x3 modifiers (R85). -/
structure M3 where
  var : BitVec 6
  ord : Order
  scope : Scope
  target : BitVec 24
  deriving DecidableEq, Repr

/-- Class 0x4 modifiers (R85). -/
structure M4 where
  ty : Fmt
  ord : Order
  scope : Scope
  space : Space
  off : BitVec 22
  deriving DecidableEq, Repr

/-- Class 0x5 modifiers (R85). -/
structure M5 where
  ty : Fmt
  ord : Order
  scope : Scope
  space : Space
  op : BitVec 5
  off : BitVec 17
  deriving DecidableEq, Repr

/-- Class 0x6 modifiers (R85). -/
structure M6 where
  ta : Fmt
  tb : Fmt
  ovw : Bool
  var : BitVec 23
  deriving DecidableEq, Repr

/-- Modifiers of classes 0x7 to 0xB (R85). -/
structure M7 where
  var : BitVec 6
  ord : Order
  scope : Scope
  low : BitVec 24
  deriving DecidableEq, Repr

/-- One fabric packet: the header flit of R440, the second header flit of a collective packet, the payload flits, and
whether a reserved field of the header was nonzero. `operands` are the operands that R440 puts in AUX beside the
operation, and whose packing it does not give (log entry 27). -/
structure Packet where
  dmod : BitVec 10
  ddie : BitVec 2
  smod : BitVec 10
  sport : BitVec 4
  cls : BitVec 3
  ord : Bool
  trimmed : Bool
  len : BitVec 4
  trims : BitVec 4
  type : BitVec 5
  tag : BitVec 16
  addr : BitVec 52
  lmask : BitVec 32
  fmask : BitVec 32
  seq : BitVec 16
  flow : BitVec 8
  aux : BitVec 40
  operands : List (BitVec 64)
  route : BitVec 256
  payload : List (BitVec 256)
  poisoned : Bool
  rzBad : Bool
  deriving DecidableEq, Repr

/-- What a soft error meets (R258, R289). `correctable` is corrected in place. -/
inductive EccTarget where
  | correctable
  | sector (loc : Nat)
  | reg (tid : Nat) (r : Reg)
  | latch (tid : Nat) (k : BitVec 2)
  | tile (core : Nat) (r : Reg)
  deriving DecidableEq, Repr

/-- The CXL.cache messages of R489, and any other message. -/
inductive GuestMsg where
  | rdShared | rdCurr | rdOwn | rdOwnNoData | itoMWr | wrInv
  | dirtyEvict | cleanEvict | cleanEvictNoData | clFlush | other
  deriving DecidableEq, Repr

/-- The party of a host-side access to device memory (R259, R341, R435). -/
inductive HostParty where
  | host
  | ssd (die : Nat) (cid : Nat)
  deriving DecidableEq, Repr

/-- A rail of R513, in power-up order (R515). -/
inductive Rail where
  | vaux | vio | vsram | vcore | vddq
  deriving DecidableEq, Repr

/-- Who issues a mailbox command (R523, R526): the host, or a thread of a context. -/
inductive Issuer where
  | host
  | thread (context : Nat)
  deriving DecidableEq, Repr

/-- What the boot chain meets outside the module (R517, R520, R522, R485): the image on the SPI flash, how the memory
test ended, which links trained, the ports whose neighbour has the same MODULE. -/
structure BootInput where
  image : List Byte
  memoryOk : Bool
  memoryDetail : BitVec 8
  pcie0Ok : Bool
  pcie2Ok : Bool
  cxl31 : Bool
  dupPorts : List Nat
  deriving DecidableEq, Repr

/-- A bind record as written (R122): its eight doublewords. -/
abbrev BindWords := List Word

/-- The instruction set. -/
inductive Instr where
  -- class 0x0
  | iadd (o : Ops) (m : M0) | isub (o : Ops) (m : M0) | imul (o : Ops) (m : M0) | imulhi (o : Ops) (m : M0)
  | imad (o : Ops) (m : M0) | idiv (o : Ops) (m : M0) | irem (o : Ops) (m : M0) | ineg (o : Ops) (m : M0)
  | iabs (o : Ops) (m : M0) | imin (o : Ops) (m : M0) | imax (o : Ops) (m : M0) | icmp (o : Ops) (m : M0)
  | isel (o : Ops) (m : M0) | and (o : Ops) (m : M0) | or (o : Ops) (m : M0) | xor (o : Ops) (m : M0)
  | andn (o : Ops) (m : M0) | not (o : Ops) (m : M0) | shl (o : Ops) (m : M0) | shr (o : Ops) (m : M0)
  | sar (o : Ops) (m : M0) | rotl (o : Ops) (m : M0) | bfx (o : Ops) (m : M0) | bfi (o : Ops) (m : M0)
  | popc (o : Ops) (m : M0) | clz (o : Ops) (m : M0) | ctz (o : Ops) (m : M0) | brev (o : Ops) (m : M0)
  | perm (o : Ops) (m : M0) | bset (o : Ops) (m : M0) | bclr (o : Ops) (m : M0) | btst (o : Ops) (m : M0)
  | lea (o : Ops) (m : M0) | mov (o : Ops) (m : M0) | movi (o : Ops) (imm : BitVec 36)
  | hash (o : Ops) (m : M0) | crc (o : Ops) (m : M0)
  -- class 0x1
  | fadd (o : Ops) (m : M1) | fsub (o : Ops) (m : M1) | fmul (o : Ops) (m : M1) | ffma (o : Ops) (m : M1)
  | fmin (o : Ops) (m : M1) | fmax (o : Ops) (m : M1) | fabs (o : Ops) (m : M1) | fneg (o : Ops) (m : M1)
  | fcmp (o : Ops) (m : M1) | fclass (o : Ops) (m : M1) | frcp (o : Ops) (m : M1) | frsq (o : Ops) (m : M1)
  | fsqrt (o : Ops) (m : M1) | fdiv (o : Ops) (m : M1) | fexp2 (o : Ops) (m : M1) | flog2 (o : Ops) (m : M1)
  | fsin (o : Ops) (m : M1) | fcos (o : Ops) (m : M1)
  | vadd (o : Ops) (m : M1) | vsub (o : Ops) (m : M1) | vmul (o : Ops) (m : M1) | vfma (o : Ops) (m : M1)
  | vmin (o : Ops) (m : M1) | vmax (o : Ops) (m : M1) | vdot (o : Ops) (m : M1) | vsum (o : Ops) (m : M1)
  | vcmp (o : Ops) (m : M1) | vsel (o : Ops) (m : M1) | xshf (o : Ops) (m : M1) | vbcast (o : Ops) (m : M1)
  -- class 0x2
  | cvt (o : Ops) (m : M2) | vcvt (o : Ops) (m : M2) | quantScale (o : Ops) (m : M2) | quantCodes (o : Ops) (m : M2)
  | deq (o : Ops) (m : M2) | pack (o : Ops) (m : M2) | unpack (o : Ops) (m : M2) | tag (o : Ops) (m : M2)
  | tagq (o : Ops) (m : M2) | xvset (o : Ops) (m : M2)
  -- class 0x3
  | bra (o : Ops) (m : M3) | brx (o : Ops) (m : M3) | call (o : Ops) (m : M3) | callx (o : Ops) (m : M3)
  | ret (o : Ops) (m : M3) | loop (o : Ops) (m : M3) | lexit (o : Ops) (m : M3) | lcnt (o : Ops) (m : M3)
  | lcntSet (o : Ops) (m : M3) | exit (o : Ops) (m : M3) | waitAcc (o : Ops) (m : M3) | waitDep (o : Ops) (m : M3)
  | waitNbar (o : Ops) (m : M3) | yield (o : Ops) (m : M3) | ppoint (o : Ops) (m : M3) | nop (o : Ops) (m : M3)
  | trap (o : Ops) (m : M3) | bkpt (o : Ops) (m : M3)
  -- class 0x4
  | ld (o : Ops) (m : M4) | st (o : Ops) (m : M4) | stWide (o : Ops) (m : M4) | ldv (o : Ops) (m : M4)
  | stv (o : Ops) (m : M4) | ldx (o : Ops) (m : M4) | stx (o : Ops) (m : M4) | ldk (o : Ops) (m : M4)
  | pfetch (o : Ops) (m : M4) | fence (o : Ops) (m : M4) | promo (o : Ops) (m : M4) | cflush (o : Ops) (m : M4)
  -- class 0x5
  | atom (o : Ops) (m : M5) | red (o : Ops) (m : M5) | cas (o : Ops) (m : M5) | bari (o : Ops) (m : M5)
  | bara (o : Ops) (m : M5) | barw (o : Ops) (m : M5) | nbar (o : Ops) (m : M5) | vote (o : Ops) (m : M5)
  | elect (o : Ops) (m : M5) | txbeg (o : Ops) (m : M5) | txend (o : Ops) (m : M5) | txabt (o : Ops) (m : M5)
  | txst (o : Ops) (m : M5)
  -- class 0xB
  | mfs (o : Ops) (m : M7) | mts (o : Ops) (m : M7) | tret (o : Ops) (m : M7) | tlbgen (o : Ops) (m : M7)
  | rdcnt (o : Ops) (m : M7) | detm (o : Ops) (m : M7) | halt (o : Ops) (m : M7) | ctxsv (o : Ops) (m : M7)
  | ctxld (o : Ops) (m : M7)
  -- class 0x6
  | mma (o : Ops) (m : M6) | mfolio (o : Ops) (m : M6) | mldt (o : Ops) (m : M6) | mstt (o : Ops) (m : M6)
  | mzero (o : Ops) (m : M6) | mdrainSt (o : Ops) (m : M6) | mdrainAdd (o : Ops) (m : M6)
  | mdrainRoute (o : Ops) (m : M6) | mdrainCat (o : Ops) (m : M6) | mdrainFree (o : Ops) (m : M6)
  | mepi (o : Ops) (m : M6) | mroute (o : Ops) (m : M6) | mslip (o : Ops) (m : M6) | catq (o : Ops) (m : M6)
  | catw (o : Ops) (m : M6) | catsetDef (o : Ops) (m : M6) | catsetPub (o : Ops) (m : M6)
  -- class 0x7
  | cqpub (o : Ops) (m : M7) | depset (o : Ops) (m : M7) | depq (o : Ops) (m : M7) | nvsub (o : Ops) (m : M7)
  | nvreapReq (o : Ops) (m : M7) | nvreapCard (o : Ops) (m : M7) | jcard (o : Ops) (m : M7) | accq (o : Ops) (m : M7)
  -- class 0x8
  | bop (o : Ops) (m : M7) | bred (o : Ops) (m : M7) | bsort (o : Ops) (m : M7) | btopk (o : Ops) (m : M7)
  | skdef (o : Ops) (m : M7) | skdel (o : Ops) (m : M7) | skstat (o : Ops) (m : M7) | skfold (o : Ops) (m : M7)
  | skseal (o : Ops) (m : M7) | sksealOpen (o : Ops) (m : M7) | skclr (o : Ops) (m : M7) | skclrFree (o : Ops) (m : M7)
  | collate (o : Ops) (m : M7)
  -- class 0x9
  | flushp (o : Ops) (m : M7) | trimq (o : Ops) (m : M7) | clplan (o : Ops) (m : M7) | clsend (o : Ops) (m : M7)
  | bwset (o : Ops) (m : M7) | rcpace (o : Ops) (m : M7)
  -- class 0xA
  | axpush (o : Ops) (m : M7) | axreap (o : Ops) (m : M7) | axfence (o : Ops) (m : M7)
  -- an opcode point that R88 does not list
  | unassignedOpcode (w : Code)
  -- steps of the lane engine
  | lineFetch (core : Nat) (pc : Pc) | gatheringSelect (core : Nat) | latchResultArrival (tid : Nat) (k : BitVec 2)
  | threadWake (tid : Nat) | coreUngate (core : Nat) | watchdogExpiry (wg : Nat) | txCommit (wg : Nat) (quire : Nat)
  -- steps of the dispatch engine
  | launchQueuePoll (die : Nat) (queue : Nat) | launchQueueResume (die : Nat) (queue : Nat)
  | bindRecordWrite (die : Nat) (slot : Nat) (rec : BindWords) | workgroupPlace (core : Nat)
  | stealReq (thief : Nat) (slot : Nat) (victim : Nat) | stealGive (thief : Nat) (slot : Nat)
  | stealNone (thief : Nat) (slot : Nat) | bindingComplete (die : Nat) (slot : Nat)
  | preemptionRequest (die : Nat) (slot : Nat) (core : Nat) | forcedSave (wg : Nat)
  | workgroupSave (wg : Nat) (area : BitVec 52) | workgroupRestore (wg : Nat) (core : Nat)
  | eccError (t : EccTarget)
  -- steps of the copy engine
  | copyRingRead (quad : Nat) | copyChannelStart (quad : Nat) (ch : Nat) | copyChunk (quad : Nat) (ch : Nat)
  | copyEntryComplete (quad : Nat) (ch : Nat)
  -- steps of the matrix engine and the task scheduler
  | matrixAccept (core : Nat) | matrixExecute (core : Nat) | slipRead (quad : Nat) | slipDispatch (quad : Nat)
  | slipKstep (core : Nat) | slipComplete (core : Nat) | depDecrement (quad : Nat) | depsetApply (quad : Nat)
  -- steps of the storage engine
  | nvmeRequestSubmit (die : Nat) (pair : Nat) | nvmeCompletion (die : Nat) (cid : Nat) (status : BitVec 15) (dw0 : BitVec 32)
  | nvmeTimeout (die : Nat) (cid : Nat) | jobCardStart (die : Nat) (ring : Nat) | jobCardComplete (die : Nat) (ring : Nat)
  -- steps of the concordance controllers
  | coherenceEv (holder : Nat) (line : Nat) | coherencePr (holder : Nat) (line : Nat) | coherencePw (holder : Nat) (line : Nat)
  | coherenceUp (holder : Nat) (line : Nat) | coherenceFl (holder : Nat) (line : Nat) | coherenceBi (line : Nat) (hostBusy : Bool)
  -- steps of the fabric
  | switchPacketArrival (port : Nat) (p : Packet) | stubArrival (port : Nat) (p : Packet) | recallSend (port : Nat)
  | recallArrival (port : Nat) (p : Packet) | postedWriteApply (port : Nat) (p : Packet) | ackArrival (port : Nat) (p : Packet)
  | resendTimeout (port : Nat) (tag : BitVec 16) | orderedPacketArrival (port : Nat) (p : Packet)
  | readRequestArrival (port : Nat) (p : Packet) | readResponseArrival (port : Nat) (p : Packet)
  -- steps of the collective unit
  | sendStart (die : Nat) (send : Nat) | collectivePacketArrival (port : Nat) (p : Packet) | sendComplete (die : Nat) (send : Nat)
  -- steps of the annex port
  | annexRingRead (queue : Nat) | translate (asid : BitVec 16) (gen : BitVec 16) (va : Word)
  | invalAck (asid : BitVec 16) | complete (queue : Nat) (entry : BitVec 48) (status : BitVec 8) (cause : BitVec 8) (gsub : BitVec 16) (gdw : BitVec 32) (rzBad : Bool)
  | preemptReply (context : Nat) (resumable : Bool) | guestCacheMessage (m : GuestMsg) (pa : BitVec 52) (data : List Byte) (poisoned : Bool)
  | annexBoundExpiry | annexTraining (modules : BitVec 8) (flit256 : Bool)
  | guestAttest (identity : List Byte) (measurement : List Byte) (signature : List Byte)
  -- the host side, the module and the management cores
  | hostAccess (who : HostParty) (write : Bool) (pa : BitVec 52) (size : Nat) (data : List Byte) (poisoned : Bool)
  | powerUp (fail : Option Rail) | railFault (overheat : Bool) | throttle (on : Bool) | bootChain (b : BootInput)
  | firmwareReplacement (image : List Byte) | modidWrite (die : Nat) (value : Word) | registerWrite (die : Nat) (off : Nat) (value : Word)
  | ctxnew (die : Nat) (seq : BitVec 16) (by_ : Issuer) | ctxend (die : Nat) (seq : BitVec 16) (by_ : Issuer)
  | asset (die : Nat) (seq : BitVec 16) (by_ : Issuer) | lqreg (die : Nat) (seq : BitVec 16) (by_ : Issuer)
  | lqfree (die : Nat) (seq : BitVec 16) (by_ : Issuer) | freply (die : Nat) (seq : BitVec 16) (by_ : Issuer)
  | qpbind (die : Nat) (seq : BitVec 16) (by_ : Issuer) | cardbind (die : Nat) (seq : BitVec 16) (by_ : Issuer)
  | axbind (die : Nat) (seq : BitVec 16) (by_ : Issuer) | unbind (die : Nat) (seq : BitVec 16) (by_ : Issuer)
  | rbind (die : Nat) (seq : BitVec 16) (by_ : Issuer) | tload (die : Nat) (seq : BitVec 16) (by_ : Issuer)
  | attest (die : Nat) (seq : BitVec 16) (by_ : Issuer) | greset (die : Nat) (seq : BitVec 16) (by_ : Issuer)
  | guestPacketFetch (queue : Nat) | powerDown | noticeAcknowledge (die : Nat)
  | unknownMailboxCommand (die : Nat) (seq : BitVec 16) (by_ : Issuer)
  deriving DecidableEq, Repr

end Sys2Proof
end

