-- ==== Sys2Proof/Machine/Accept.lean ====
section
/-! DEFINITION. Which fields each instruction accepts: everything else traps ILLEGAL_FIELD at decode (R67, R68, R69,
R74, R84 and each instruction's rules). One definition for each instruction, over the shapes at the top. -/

namespace Sys2Proof.Machine

/-! ### Kinds of types (R102) -/

/-- The .i types. -/
def isI : Fmt → Bool
  | .i8 | .i16 | .i32 | .i64 => true
  | _ => false

/-- The .n types. -/
def isN : Fmt → Bool
  | .n8 | .n16 | .n32 | .n64 => true
  | _ => false

/-- The .i and .n types. -/
def isIN (t : Fmt) : Bool := isI t || isN t

/-- The .b types. -/
def isB : Fmt → Bool
  | .b32 | .b64 => true
  | _ => false

/-- Every type of class 0x0 (R171). -/
def isAll0 (t : Fmt) : Bool := isIN t || isB t

/-- The scalar float types (R177). -/
def isF : Fmt → Bool
  | .f64 | .f32 | .f16 | .bf16 => true
  | _ => false

/-- Block-scaled types (R98). -/
def isBs : Fmt → Bool
  | .f4bs | .f8e4bs | .f8e5bs => true
  | _ => false

/-- The q4 types (R99). -/
def isQ4 : Fmt → Bool
  | .q4g32 | .q4g64 | .q4g128 => true
  | _ => false

/-- The q8 types (R99). -/
def isQ8 : Fmt → Bool
  | .q8g32 | .q8g64 | .q8g128 => true
  | _ => false

/-- Asymmetric integer types (R99). -/
def isQ (t : Fmt) : Bool := isQ4 t || isQ8 t

/-- The types a vector register may carry (R103): codes 0x01 to 0x18. -/
def isVec (t : Fmt) : Bool := t != .none && !isBs t && !isQ t

/-- The types a t-tile may carry (R103). -/
def isTile (t : Fmt) : Bool := t != .none && !isQ t

/-- The types of CVT and VCVT (R185): a vector's types but .b32 and .b64. -/
def isCvt (t : Fmt) : Bool := isVec t && !isB t

/-- The 64-bit integer and bit types. -/
def isWide (t : Fmt) : Bool := t == .i64 || t == .n64 || t == .b64

/-- The 32- and 64-bit integer types (R219). -/
def isI3264 (t : Fmt) : Bool := t == .i32 || t == .i64 || t == .n32 || t == .n64

/-- The width of an element in bits (R92, R95, R98, R99). -/
def fmtWidth : Fmt → Nat
  | .none => 64
  | .i8 | .n8 | .f8e4 | .f8e5 | .f8e4bs | .f8e5bs | .q8g32 | .q8g64 | .q8g128 => 8
  | .i16 | .n16 | .f16 | .bf16 => 16
  | .i32 | .n32 | .b32 | .f32 => 32
  | .i64 | .n64 | .b64 | .f64 => 64
  | .f6e3 => 6
  | .f4 | .f4x | .f4bs | .q4g32 | .q4g64 | .q4g128 => 4

/-- How many elements a vector register holds (R95). -/
def elemCount (t : Fmt) : Nat := 256 / fmtWidth t

/-! ### Operand shapes -/

/-- An unused source field is zero (R69). -/
def noSrc (s : Src) : Bool := s == .reg (.g 0)

/-- A general register or a latch. -/
def srcG : Src → Bool
  | .reg (.g _) | .latch _ => true
  | _ => false

/-- A vector register or a latch. -/
def srcV : Src → Bool
  | .reg (.v _) | .latch _ => true
  | _ => false

/-- A general register alone. -/
def srcRegG : Src → Bool
  | .reg (.g _) => true
  | _ => false

/-- A t-tile. -/
def srcT : Src → Bool
  | .reg (.t _) => true
  | _ => false

/-- An a-tile. -/
def srcA : Src → Bool
  | .reg (.a _) => true
  | _ => false

/-- The destination field is zero. -/
def noDst (d : Dst) : Bool := d == .reg (.g 0)

/-- A general register, or write-back suppress. -/
def dstG : Dst → Bool
  | .reg (.g _) | .latchOnly => true
  | _ => false

/-- A vector register, or write-back suppress. -/
def dstV : Dst → Bool
  | .reg (.v _) | .latchOnly => true
  | _ => false

/-- A general register of an instruction that writes no latch (R74). -/
def dstRegG : Dst → Bool
  | .reg (.g _) => true
  | _ => false

/-- A vector register of an instruction that writes no latch (R74). -/
def dstRegV : Dst → Bool
  | .reg (.v _) => true
  | _ => false

/-- No operand at all. -/
def noOps (o : Ops) : Bool := noDst o.d && noSrc o.a && noSrc o.b && noSrc o.c

/-! ### Class 0x0 (R171, R172) -/

/-- Operand B of class 0x0: with I set the B field is zero (R86). -/
def srcB0 (o : Ops) (m : M0) : Bool :=
  match m.imm with
  | none => srcG o.b
  | some _ => noSrc o.b

/-- gD, gA, B with a zero condition. -/
def shape2 (tys : Fmt → Bool) (sat : Bool) (o : Ops) (m : M0) : Bool :=
  dstG o.d && srcG o.a && srcB0 o m && noSrc o.c && tys m.ty && m.cond == 0 && (sat || !m.sat)

/-- gD, gA, B, gC with a zero condition. -/
def shape3 (tys : Fmt → Bool) (sat : Bool) (o : Ops) (m : M0) : Bool :=
  dstG o.d && srcG o.a && srcB0 o m && srcG o.c && tys m.ty && m.cond == 0 && (sat || !m.sat)

/-- gD, gA with a zero condition and no immediate. -/
def shape1 (tys : Fmt → Bool) (sat : Bool) (o : Ops) (m : M0) : Bool :=
  dstG o.d && srcG o.a && noSrc o.b && noSrc o.c && m.imm == none && tys m.ty && m.cond == 0 && (sat || !m.sat)

def okIadd (o : Ops) (m : M0) : Bool := shape2 isIN true o m
def okIsub (o : Ops) (m : M0) : Bool := shape2 isIN true o m
def okImul (o : Ops) (m : M0) : Bool := shape2 isIN true o m
def okImulhi (o : Ops) (m : M0) : Bool := shape2 isIN false o m
def okImad (o : Ops) (m : M0) : Bool := shape3 isIN true o m
def okIdiv (o : Ops) (m : M0) : Bool := shape2 isIN true o m
def okIrem (o : Ops) (m : M0) : Bool := shape2 isIN false o m
def okIneg (o : Ops) (m : M0) : Bool := shape1 isI true o m
def okIabs (o : Ops) (m : M0) : Bool := shape1 isI true o m
def okImin (o : Ops) (m : M0) : Bool := shape2 isIN false o m
def okImax (o : Ops) (m : M0) : Bool := shape2 isIN false o m

/-- R170: .un and .or are float codes; under .b types only .eq and .ne. -/
def okIcmp (o : Ops) (m : M0) : Bool :=
  dstG o.d && srcG o.a && srcB0 o m && noSrc o.c && isAll0 m.ty && !m.sat &&
  (if isB m.ty then m.cond.toNat ≤ 1 else m.cond.toNat ≤ 5)

def okIsel (o : Ops) (m : M0) : Bool := shape3 isAll0 false o m
def okAnd (o : Ops) (m : M0) : Bool := shape2 isAll0 false o m
def okOr (o : Ops) (m : M0) : Bool := shape2 isAll0 false o m
def okXor (o : Ops) (m : M0) : Bool := shape2 isAll0 false o m
def okAndn (o : Ops) (m : M0) : Bool := shape2 isAll0 false o m
def okNot (o : Ops) (m : M0) : Bool := shape1 isAll0 false o m
def okShl (o : Ops) (m : M0) : Bool := shape2 isAll0 false o m
def okShr (o : Ops) (m : M0) : Bool := shape2 isAll0 false o m
def okSar (o : Ops) (m : M0) : Bool := shape2 isAll0 false o m
def okRotl (o : Ops) (m : M0) : Bool := shape2 isAll0 false o m
def okBfx (o : Ops) (m : M0) : Bool := shape2 isAll0 false o m
def okBfi (o : Ops) (m : M0) : Bool := shape3 isAll0 false o m
def okPopc (o : Ops) (m : M0) : Bool := shape1 isAll0 false o m
def okClz (o : Ops) (m : M0) : Bool := shape1 isAll0 false o m
def okCtz (o : Ops) (m : M0) : Bool := shape1 isAll0 false o m
def okBrev (o : Ops) (m : M0) : Bool := shape1 isAll0 false o m
def okPerm (o : Ops) (m : M0) : Bool := shape3 (· == .b64) false o m
def okBset (o : Ops) (m : M0) : Bool := shape2 isAll0 false o m
def okBclr (o : Ops) (m : M0) : Bool := shape2 isAll0 false o m
def okBtst (o : Ops) (m : M0) : Bool := shape2 isAll0 false o m

/-- LEA: k is condition [2:0]; condition [4:3] is zero (R172). -/
def okLea (o : Ops) (m : M0) : Bool :=
  dstG o.d && srcG o.a && srcB0 o m && noSrc o.c && (m.ty == .n64 || m.ty == .b64) && m.cond.toNat < 8 && !m.sat

/-- MOV: all general, or all vector with .b64 (R174). -/
def okMov (o : Ops) (m : M0) : Bool :=
  noSrc o.b && noSrc o.c && m.imm == none && m.cond == 0 && !m.sat && isAll0 m.ty &&
  ((dstG o.d && srcG o.a) || (dstV o.d && srcV o.a && m.ty == .b64))

/-- MOVI: source fields zero (R86). -/
def okMovi (o : Ops) : Bool := dstG o.d && noSrc o.a && noSrc o.b && noSrc o.c

/-- HASH: I clear, .n32 or .n64 (R175). -/
def okHash (o : Ops) (m : M0) : Bool :=
  dstG o.d && srcG o.a && srcG o.b && srcG o.c && m.imm == none && m.cond == 0 && !m.sat &&
  (m.ty == .n32 || m.ty == .n64)

/-- CRC: the condition selects the polynomial (R176). -/
def okCrc (o : Ops) (m : M0) : Bool :=
  dstG o.d && srcG o.a && srcG o.b && noSrc o.c && m.imm == none && m.cond.toNat ≤ 2 && !m.sat && isN m.ty

/-! ### Class 0x1 (R177 to R184) -/

/-- The scalar float shape: whether B and C are used, whether rounding and .sat are. -/
def shapeF (b c rs : Bool) (o : Ops) (m : M1) : Bool :=
  dstG o.d && srcG o.a && (if b then srcG o.b else noSrc o.b) && (if c then srcG o.c else noSrc o.c) &&
  isF m.ty && m.cond == 0 && m.var == 0 && (rs || (m.rnd == .rne && !m.sat))

def okFadd (o : Ops) (m : M1) : Bool := shapeF true false true o m
def okFsub (o : Ops) (m : M1) : Bool := shapeF true false true o m
def okFmul (o : Ops) (m : M1) : Bool := shapeF true false true o m
def okFfma (o : Ops) (m : M1) : Bool := shapeF true true true o m
def okFmin (o : Ops) (m : M1) : Bool := shapeF true false false o m
def okFmax (o : Ops) (m : M1) : Bool := shapeF true false false o m
def okFabs (o : Ops) (m : M1) : Bool := shapeF false false false o m
def okFneg (o : Ops) (m : M1) : Bool := shapeF false false false o m

/-- FCMP: conditions 0 to 7 (R170). -/
def okFcmp (o : Ops) (m : M1) : Bool :=
  dstG o.d && srcG o.a && srcG o.b && noSrc o.c && isF m.ty && m.cond.toNat ≤ 7 && m.var == 0 && m.rnd == .rne &&
  !m.sat

def okFclass (o : Ops) (m : M1) : Bool := shapeF false false false o m
def okFrcp (o : Ops) (m : M1) : Bool := shapeF false false true o m
def okFrsq (o : Ops) (m : M1) : Bool := shapeF false false true o m
def okFsqrt (o : Ops) (m : M1) : Bool := shapeF false false true o m
def okFdiv (o : Ops) (m : M1) : Bool := shapeF true false true o m
def okFexp2 (o : Ops) (m : M1) : Bool := shapeF false false true o m
def okFlog2 (o : Ops) (m : M1) : Bool := shapeF false false true o m
def okFsin (o : Ops) (m : M1) : Bool := shapeF false false true o m
def okFcos (o : Ops) (m : M1) : Bool := shapeF false false true o m

/-- Operand B of the vector forms: general or a 64-bit latch with BS, vector or a 256-bit latch without (R181). -/
def srcBs (s : Src) (var : BitVec 21) : Bool := if var.getLsbD 0 then srcG s else srcV s

/-- VADD to VMAX (R178, R181): rounding belongs to the float types, .sat to every type. -/
def shapeV (c : Bool) (o : Ops) (m : M1) : Bool :=
  dstV o.d && srcV o.a && srcBs o.b m.var && (if c then srcV o.c else noSrc o.c) && (isF m.ty || isIN m.ty) &&
  m.cond == 0 && m.var.toNat ≤ 1 && (isF m.ty || m.rnd == .rne)

def okVadd (o : Ops) (m : M1) : Bool := shapeV false o m
def okVsub (o : Ops) (m : M1) : Bool := shapeV false o m
def okVmul (o : Ops) (m : M1) : Bool := shapeV false o m
def okVfma (o : Ops) (m : M1) : Bool := shapeV true o m
def okVmin (o : Ops) (m : M1) : Bool := shapeV false o m
def okVmax (o : Ops) (m : M1) : Bool := shapeV false o m

/-- The source types of VDOT and VSUM (R182). -/
def isDot (t : Fmt) : Bool := isF t || t == .f8e4 || t == .f8e5 || t == .i8 || t == .n8

def okVdot (o : Ops) (m : M1) : Bool :=
  dstG o.d && srcV o.a && srcV o.b && srcG o.c && isDot m.ty && m.cond == 0 && m.var == 0
def okVsum (o : Ops) (m : M1) : Bool :=
  dstG o.d && srcV o.a && noSrc o.b && noSrc o.c && isDot m.ty && m.cond == 0 && m.var == 0

/-- VCMP (R170, R183). -/
def okVcmp (o : Ops) (m : M1) : Bool :=
  dstG o.d && srcV o.a && srcBs o.b m.var && noSrc o.c && m.var.toNat ≤ 1 && m.rnd == .rne && !m.sat &&
  ((isF m.ty && m.cond.toNat ≤ 7) || (isIN m.ty && m.cond.toNat ≤ 5) || (isB m.ty && m.cond.toNat ≤ 1))

def okVsel (o : Ops) (m : M1) : Bool :=
  dstV o.d && srcV o.a && srcV o.b && srcG o.c && isVec m.ty && m.cond == 0 && m.var == 0 && m.rnd == .rne && !m.sat

/-- XSHF (R184): D and A both general or both vector; with an immediate lane value B is zero. -/
def okXshf (o : Ops) (m : M1) : Bool :=
  ((dstG o.d && srcG o.a) || (dstV o.d && srcV o.a)) &&
  (if m.var.getLsbD 2 then noSrc o.b else srcG o.b && m.var.toNat < 8) &&
  noSrc o.c && isB m.ty && m.cond == 0 && m.var.toNat < 256 && m.rnd == .rne && !m.sat

def okVbcast (o : Ops) (m : M1) : Bool :=
  dstV o.d && srcG o.a && noSrc o.b && noSrc o.c && isVec m.ty && m.cond == 0 && m.var == 0 && m.rnd == .rne && !m.sat

/-! ### Class 0x2 (R185 to R190) -/

/-- The xv subfield is zero unless a side is f4x (R185). -/
def xvOk (m : M2) : Bool := m.xv == 0 || m.dt == .f4x || m.st == .f4x

/-- CVT: A may be an xv register with St .f8e4. -/
def okCvt (o : Ops) (m : M2) : Bool :=
  dstG o.d && noSrc o.b && noSrc o.c && isCvt m.dt && isCvt m.st && xvOk m && m.var == 0 &&
  (match o.a with
   | .reg (.g _) | .latch _ => true
   | .reg (.xv _) => m.st == .f8e4
   | _ => false)

/-- The window P of VCVT lies within the larger count (R186). -/
def vcvtWindow (m : M2) : Bool :=
  let ns := elemCount m.st
  let nd := elemCount m.dt
  let p := m.var.toNat
  if ns == nd then p == 0 else p * min ns nd + min ns nd ≤ max ns nd

def okVcvt (o : Ops) (m : M2) : Bool :=
  dstV o.d && srcV o.a && noSrc o.b && noSrc o.c && isCvt m.dt && isCvt m.st && xvOk m && m.var.toNat < 8 &&
  vcvtWindow m

/-- The destination formats of QUANT (R187). -/
def isQuant (t : Fmt) : Bool := t == .f8e4 || t == .f8e5 || t == .f6e3 || t == .f4

def okQuantScale (o : Ops) (m : M2) : Bool :=
  dstG o.d && srcV o.a && noSrc o.b && noSrc o.c && isQuant m.dt && m.st == .f32 && m.rnd == .rne && !m.sat &&
  m.xv == 0 && m.var == 0

def okQuantCodes (o : Ops) (m : M2) : Bool :=
  dstV o.d && srcV o.a && srcG o.b && (noSrc o.c || srcV o.c) && isQuant m.dt && m.st == .f32 && !m.sat &&
  m.xv == 0 && m.var.getLsbD 0 && m.var.toNat < 16 && m.var.toNat / 2 * 8 + 7 < elemCount m.dt

/-- DEQ (R188): block-scaled or q codes to f32, f16 or bf16, the window within St's count. -/
def okDeq (o : Ops) (m : M2) : Bool :=
  dstV o.d && srcV o.a && srcG o.b && noSrc o.c && (m.dt == .f32 || m.dt == .f16 || m.dt == .bf16) &&
  (isBs m.st || isQ m.st) && !m.sat && m.xv == 0 && m.var.toNat < 8 &&
  m.var.toNat * elemCount m.dt + elemCount m.dt ≤ elemCount m.st

def okPack (o : Ops) (m : M2) : Bool :=
  dstV o.d && srcV o.a && srcV o.b && noSrc o.c && isVec m.dt && m.st == m.dt && m.rnd == .rne && !m.sat &&
  m.xv == 0 && m.var == 0

def okUnpack (o : Ops) (m : M2) : Bool :=
  dstV o.d && srcV o.a && noSrc o.b && noSrc o.c && isVec m.dt && m.st == m.dt && m.rnd == .rne && !m.sat &&
  m.xv == 0 && m.var.toNat ≤ 1

/-- TAG (R190): a vector form, or a t-tile retagged in place. -/
def okTag (o : Ops) (m : M2) : Bool :=
  noSrc o.b && noSrc o.c && m.st == .b64 && m.rnd == .rne && !m.sat && (m.xv == 0 || m.dt == .f4x) && m.var == 0 &&
  ((dstV o.d && srcV o.a && isVec m.dt) ||
   (match o.d, o.a with
    | .reg (.t n), .reg (.t k) => n == k && isTile m.dt
    | _, _ => false))

def okTagq (o : Ops) (m : M2) : Bool :=
  dstG o.d && (srcV o.a || srcT o.a || srcA o.a) && noSrc o.b && noSrc o.c && m.dt == .b64 && m.st == .b64 &&
  m.rnd == .rne && !m.sat && m.xv == 0 && m.var == 0

/-- XVSET: the destination is an xv register (R67, R190). -/
def okXvset (o : Ops) (m : M2) : Bool :=
  (match o.d with
   | .reg (.xv _) | .latchOnly => true
   | _ => false) &&
  srcG o.a && noSrc o.b && noSrc o.c && m.dt == .f8e4 && m.st == .b64 && m.rnd == .rne && !m.sat && m.xv == 0 &&
  m.var == 0

/-! ### Class 0x3 (R191 to R201) -/

/-- Variant, order and scope zero. -/
def plain3 (m : M3) : Bool := m.var == 0 && m.ord == .rlx && m.scope == .core

/-- A slot number of 0 to 4 (R87). -/
def slotOk (t : BitVec 24) : Bool := (t.extractLsb' 0 3).toNat ≤ 4

def okBra (o : Ops) (m : M3) : Bool := noOps o && plain3 m && slotOk m.target
def okBrx (o : Ops) (m : M3) : Bool := noDst o.d && srcG o.a && noSrc o.b && noSrc o.c && plain3 m && m.target == 0
def okCall (o : Ops) (m : M3) : Bool := noOps o && plain3 m && slotOk m.target
def okCallx (o : Ops) (m : M3) : Bool := noDst o.d && srcG o.a && noSrc o.b && noSrc o.c && plain3 m && m.target == 0
def okRet (o : Ops) (m : M3) : Bool := noOps o && plain3 m && m.target == 0
def okLoop (o : Ops) (m : M3) : Bool := noDst o.d && srcG o.a && noSrc o.b && noSrc o.c && plain3 m && slotOk m.target
def okLexit (o : Ops) (m : M3) : Bool := noOps o && plain3 m && m.target == 0

def okLcnt (o : Ops) (m : M3) : Bool :=
  dstRegG o.d && noSrc o.a && noSrc o.b && noSrc o.c && m.var.toNat < 4 && m.ord == .rlx && m.scope == .core &&
  m.target == 0
def okLcntSet (o : Ops) (m : M3) : Bool :=
  noDst o.d && srcG o.a && noSrc o.b && noSrc o.c && m.var.toNat / 4 == 1 && m.ord == .rlx && m.scope == .core &&
  m.target == 0

def okExit (o : Ops) (m : M3) : Bool := noOps o && plain3 m && m.target == 0

/-- Order and scope under R43 and R84: one of the orders allowed, and scope zero with .rlx. -/
def ordOk (allowed : List Order) (ord : Order) (scope : Scope) : Bool :=
  allowed.contains ord && (ord != .rlx || scope == .core)

def okWaitAcc (o : Ops) (m : M3) : Bool :=
  noDst o.d && srcG o.a && srcG o.b && noSrc o.c && m.var == 0 && ordOk [.rlx, .acq] m.ord m.scope && m.target == 0
/-- WAIT .dep uses no B (R69, R198). -/
def okWaitDep (o : Ops) (m : M3) : Bool :=
  noDst o.d && srcG o.a && noSrc o.b && noSrc o.c && m.var == 1 && ordOk [.rlx, .acq] m.ord m.scope && m.target == 0
def okWaitNbar (o : Ops) (m : M3) : Bool :=
  noDst o.d && srcG o.a && srcG o.b && noSrc o.c && m.var == 2 && ordOk [.rlx, .acq] m.ord m.scope && m.target == 0

def okYield (o : Ops) (m : M3) : Bool := noOps o && plain3 m && m.target == 0
def okPpoint (o : Ops) (m : M3) : Bool := noOps o && plain3 m
def okNop (o : Ops) (m : M3) : Bool := noOps o && plain3 m && m.target == 0
def okTrap (o : Ops) (m : M3) : Bool := noOps o && plain3 m
def okBkpt (o : Ops) (m : M3) : Bool := noOps o && plain3 m

/-! ### Class 0x4 (R203, R209 to R218) -/

/-- The spaces of R209. -/
def space5 : Space → Bool
  | .global | .carrel | .rcarrel | .host | .stacks => true
  | _ => false

/-- The types of LD and ST (R209). -/
def isLd (t : Fmt) : Bool := isIN t || isB t || isF t

/-- The types of LDX and STX (R212). -/
def isLdx (t : Fmt) : Bool := isLd t || t == .f8e4 || t == .f8e5

def okLd (o : Ops) (m : M4) : Bool :=
  dstG o.d && srcG o.a && noSrc o.b && noSrc o.c && isLd m.ty && ordOk [.rlx, .acq] m.ord m.scope && space5 m.space
def okSt (o : Ops) (m : M4) : Bool :=
  noDst o.d && srcG o.a && srcG o.b && noSrc o.c && isLd m.ty && ordOk [.rlx, .rel] m.ord m.scope && space5 m.space
/-- ST is wide when its source C field is nonzero (R209). -/
def okStWide (o : Ops) (m : M4) : Bool :=
  noDst o.d && srcG o.a && srcG o.b && srcG o.c && !noSrc o.c && isWide m.ty && ordOk [.rlx, .rel] m.ord m.scope &&
  space5 m.space
def okLdv (o : Ops) (m : M4) : Bool :=
  dstV o.d && srcG o.a && noSrc o.b && noSrc o.c && isVec m.ty && ordOk [.rlx, .acq] m.ord m.scope && space5 m.space
def okStv (o : Ops) (m : M4) : Bool :=
  noDst o.d && srcG o.a && srcV o.b && noSrc o.c && isVec m.ty && ordOk [.rlx, .rel] m.ord m.scope && space5 m.space
def okLdx (o : Ops) (m : M4) : Bool :=
  dstV o.d && srcG o.a && srcV o.b && noSrc o.c && isLdx m.ty && ordOk [.rlx, .acq] m.ord m.scope && space5 m.space
def okStx (o : Ops) (m : M4) : Bool :=
  noDst o.d && srcG o.a && srcV o.b && srcV o.c && isLdx m.ty && ordOk [.rlx, .rel] m.ord m.scope && space5 m.space

/-- LDK (R214): the scope is the query scope, the flag register is a general register. -/
def okLdk (o : Ops) (m : M4) : Bool :=
  dstG o.d && srcG o.a && srcG o.b && srcRegG o.c && isWide m.ty && m.ord == .rlx &&
  (m.scope == .die || m.scope == .pkg || m.scope == .pod) && m.space == .global

/-- PFETCH (R215): the scope is the level. -/
def okPfetch (o : Ops) (m : M4) : Bool :=
  noDst o.d && srcG o.a && noSrc o.b && noSrc o.c && m.ty == .none && m.ord == .rlx &&
  (m.scope == .core || m.scope == .die) && space5 m.space

def okFence (o : Ops) (m : M4) : Bool :=
  noOps o && m.ty == .none && m.ord != .rlx && m.space == .global && m.off == 0
def okPromo (o : Ops) (m : M4) : Bool :=
  noDst o.d && srcG o.a && noSrc o.b && noSrc o.c && m.ty == .none && m.ord == .acq && m.space == .global && m.off == 0
/-- CFLUSH (R218): order .rlx, the scope is S. -/
def okCflush (o : Ops) (m : M4) : Bool :=
  noDst o.d && srcG o.a && noSrc o.b && noSrc o.c && m.ty == .none && m.ord == .rlx && space5 m.space

/-! ### Class 0x5 (R219 to R230) -/

/-- Every order. -/
def anyOrd : List Order := [.rlx, .acq, .rel, .ar]

/-- The spaces of the atomics (R219). -/
def space4 : Space → Bool
  | .global | .carrel | .rcarrel | .stacks => true
  | _ => false

/-- The types each atomic operation takes (R219). -/
def atomTypes (op : Nat) (t : Fmt) : Bool :=
  if op ≤ 2 then isI3264 t || isF t
  else if op ≤ 5 then isI3264 t || isB t
  else if op == 6 then isI3264 t || isB t || isF t
  else if op ≤ 8 then t == .n32 || t == .n64
  else false

def okAtom (o : Ops) (m : M5) : Bool :=
  dstG o.d && srcG o.a && srcG o.b && noSrc o.c && atomTypes m.op.toNat m.ty && ordOk anyOrd m.ord m.scope &&
  space4 m.space
def okRed (o : Ops) (m : M5) : Bool :=
  noDst o.d && srcG o.a && srcG o.b && noSrc o.c && atomTypes m.op.toNat m.ty && ordOk anyOrd m.ord m.scope &&
  space4 m.space
def okCas (o : Ops) (m : M5) : Bool :=
  dstG o.d && srcG o.a && srcG o.b && srcG o.c && (isI3264 m.ty || isB m.ty) && m.op == 0 &&
  ordOk anyOrd m.ord m.scope && space4 m.space

/-- The spaces of barrier objects (R159, R222). -/
def space2 : Space → Bool
  | .global | .carrel => true
  | _ => false

def okBari (o : Ops) (m : M5) : Bool :=
  noDst o.d && srcG o.a && srcG o.b && srcG o.c && m.ty == .none && m.op == 0 && ordOk [.rlx, .rel] m.ord m.scope &&
  space2 m.space
def okBara (o : Ops) (m : M5) : Bool :=
  dstRegG o.d && srcG o.a && noSrc o.b && noSrc o.c && m.ty == .none && m.op == 0 && ordOk anyOrd m.ord m.scope &&
  space2 m.space
def okBarw (o : Ops) (m : M5) : Bool :=
  noDst o.d && srcG o.a && srcG o.b && noSrc o.c && m.ty == .none && m.op == 0 && ordOk [.rlx, .acq] m.ord m.scope &&
  space2 m.space

/-- Type, order, scope and space zero. -/
def plain5 (m : M5) : Bool := m.ty == .none && m.ord == .rlx && m.scope == .core && m.space == .global

def okNbar (o : Ops) (m : M5) : Bool :=
  dstRegG o.d && srcG o.a && srcG o.b && noSrc o.c && plain5 m && m.op == 0 && m.off == 0
/-- VOTE (R227): f in offset [5:0], zero under .eq. -/
def okVote (o : Ops) (m : M5) : Bool :=
  dstRegG o.d && srcG o.a && noSrc o.b && noSrc o.c && plain5 m && m.op.toNat ≤ 3 && m.off.toNat < 64 &&
  (m.op.toNat != 3 || m.off == 0)
def okElect (o : Ops) (m : M5) : Bool :=
  dstRegG o.d && noSrc o.a && noSrc o.b && noSrc o.c && plain5 m && m.op == 0 && m.off == 0
def okTxbeg (o : Ops) (m : M5) : Bool :=
  dstRegG o.d && srcG o.a && noSrc o.b && noSrc o.c && plain5 m && m.op == 0 && m.off == 0
def okTxend (o : Ops) (m : M5) : Bool :=
  dstRegG o.d && noSrc o.a && noSrc o.b && noSrc o.c && plain5 m && m.op == 0 && m.off == 0
def okTxabt (o : Ops) (m : M5) : Bool := noOps o && plain5 m && m.op == 0 && m.off.toNat < 256
def okTxst (o : Ops) (m : M5) : Bool :=
  dstG o.d && noSrc o.a && noSrc o.b && noSrc o.c && plain5 m && m.op == 0 && m.off == 0

/-! ### Class 0xB (R231 to R241) -/

/-- Order, scope, variant [35:30] zero. -/
def plain7 (m : M7) : Bool := m.var == 0 && m.ord == .rlx && m.scope == .core

/-- The selectors the chapters assign (R231, R243, R314, R316). -/
def selAssigned (s : Nat) : Bool :=
  [0x001, 0x002, 0x003, 0x010, 0x011, 0x012, 0x013, 0x014, 0x020, 0x021, 0x022, 0x030, 0x031, 0x040, 0x041,
   0x042].contains s

/-- The selectors whose register has no RW or WC field (R232). -/
def selReadOnly (s : Nat) : Bool := [0x010, 0x011, 0x012, 0x013, 0x014].contains s

/-- The selector [23:12]. -/
def selector (m : M7) : Nat := m.low.toNat / 4096

def okMfs (o : Ops) (m : M7) : Bool :=
  dstRegG o.d && noSrc o.a && noSrc o.b && noSrc o.c && plain7 m && m.low.toNat % 4096 == 0 && selAssigned (selector m)
def okMts (o : Ops) (m : M7) : Bool :=
  noDst o.d && srcG o.a && noSrc o.b && noSrc o.c && plain7 m && m.low.toNat % 4096 == 0 &&
  selAssigned (selector m) && !selReadOnly (selector m)
def okTret (o : Ops) (m : M7) : Bool := noOps o && plain7 m && m.low == 0
def okTlbgen (o : Ops) (m : M7) : Bool :=
  dstRegG o.d && srcG o.a && noSrc o.b && noSrc o.c && plain7 m && m.low == 0
def okRdcnt (o : Ops) (m : M7) : Bool :=
  dstRegG o.d && noSrc o.a && noSrc o.b && noSrc o.c && m.var.toNat ≤ 2 && m.ord == .rlx && m.scope == .core &&
  m.low == 0
def okDetm (o : Ops) (m : M7) : Bool :=
  dstRegG o.d && noSrc o.a && noSrc o.b && noSrc o.c && plain7 m && m.low == 0
def okHalt (o : Ops) (m : M7) : Bool := noOps o && plain7 m && m.low == 0

/-- CTXSV (R240): B is g, v or xv, never a latch. -/
def okCtxsv (o : Ops) (m : M7) : Bool :=
  noDst o.d && srcG o.a && noSrc o.c && plain7 m && m.low == 0 &&
  (match o.b with
   | .reg (.g _) | .reg (.v _) | .reg (.xv _) => true
   | _ => false)
/-- CTXLD (R240): D is g, v or xv. -/
def okCtxld (o : Ops) (m : M7) : Bool :=
  srcG o.a && noSrc o.b && noSrc o.c && plain7 m && m.low == 0 &&
  (match o.d with
   | .reg (.g _) | .reg (.v _) | .reg (.xv _) => true
   | _ => false)

/-! ### Class 0x6 (R292) -/

/-- Bits [hi:lo] of the variant as a number. -/
def varBits (v : BitVec 23) (lo len : Nat) : Nat := v.toNat / 2 ^ lo % 2 ^ len

/-- The space code in variant [4:2] (R292, R24). -/
def varSpace (v : BitVec 23) : Option Space :=
  match varBits v 2 3 with
  | 0 => some .global
  | 1 => some .carrel
  | 2 => some .rcarrel
  | 3 => some .accum
  | 4 => some .host
  | 5 => some .stacks
  | 6 => some .folio
  | _ => none

/-- The space code is one of these. -/
def varSpaceIn (v : BitVec 23) (ss : List Space) : Bool :=
  match varSpace v with
  | some s => ss.contains s
  | none => false

/-- The legal MMA pairings (R296). -/
def mmaPair (a b : Fmt) : Bool :=
  match a with
  | .f16 => b == .f16
  | .bf16 => b == .bf16
  | .f8e4 | .f8e5 => b == .f8e4 || b == .f8e5 || isQ b
  | .f8e4bs | .f8e5bs => b == .f8e4bs || b == .f8e5bs
  | .f4 | .f4x => b == .f4 || b == .f4x
  | .f4bs => b == .f4bs
  | _ => false

/-- An a-tile as destination. -/
def dstA : Dst → Bool
  | .reg (.a _) => true
  | _ => false
/-- A t-tile as destination. -/
def dstT : Dst → Bool
  | .reg (.t _) => true
  | _ => false

/-- MMA: A is a t-tile, or a catalog entry number when CAT is set; H only for q4 (R297, R298). -/
def okMma (o : Ops) (m : M6) : Bool :=
  dstA o.d && (if m.var.getLsbD 13 then srcG o.a else srcT o.a) && srcG o.b && noSrc o.c && mmaPair m.ta m.tb &&
  m.var.toNat % 4096 == 0 && (!m.var.getLsbD 12 || isQ4 m.tb)

def okMfolio (o : Ops) (m : M6) : Bool :=
  noDst o.d && srcG o.a && srcG o.b && srcG o.c && m.ta == .none && (isTile m.tb || isQ m.tb) && !m.ovw &&
  m.var.toNat % 4 == 0 && varSpaceIn m.var [.global, .carrel, .stacks]
def okMldt (o : Ops) (m : M6) : Bool :=
  dstT o.d && srcG o.a && srcG o.b && noSrc o.c && isTile m.ta && m.tb == .none && !m.ovw &&
  m.var.toNat % 4 == 0 && m.var.toNat < 32 && varSpaceIn m.var [.global, .carrel, .rcarrel, .stacks]
/-- MSTT: of an a-tile the type is .f32 (R302). -/
def okMstt (o : Ops) (m : M6) : Bool :=
  noDst o.d && srcG o.a && ((srcT o.b && isTile m.ta) || (srcA o.b && m.ta == .f32)) && srcG o.c && m.tb == .none &&
  !m.ovw && m.var.toNat % 4 == 0 && m.var.toNat < 32 && varSpaceIn m.var [.global, .carrel, .rcarrel, .stacks]
def okMzero (o : Ops) (m : M6) : Bool :=
  (dstT o.d || dstA o.d) && noSrc o.a && noSrc o.b && noSrc o.c && m.ta == .none && m.tb == .none && !m.ovw &&
  m.var == 0

/-- The drain output types of .st and .cat, and of .add and .route (R306). -/
def isOut (t : Fmt) : Bool := t == .f32 || t == .f16 || t == .bf16 || t == .f8e4 || t == .f8e5 || t == .f4
def isOut3 (t : Fmt) : Bool := t == .f32 || t == .f16 || t == .bf16

/-- The bits of a drain's variant outside MODE and space are zero, and MODE is k. -/
def drainVar (m : M6) (k : Nat) : Bool :=
  !m.ovw && m.var.toNat / 2 ^ 20 == k && m.var.toNat % 2 ^ 20 / 32 == 0 && m.var.toNat % 4 == 0

def okMdrainSt (o : Ops) (m : M6) : Bool :=
  noDst o.d && srcA o.a && srcG o.b && srcG o.c && m.ta == .f32 && isOut m.tb && drainVar m 0 &&
  varSpaceIn m.var [.global, .carrel, .rcarrel, .stacks]
def okMdrainAdd (o : Ops) (m : M6) : Bool :=
  noDst o.d && srcA o.a && srcG o.b && srcG o.c && m.ta == .f32 && isOut3 m.tb && drainVar m 1 &&
  varSpaceIn m.var [.global, .carrel]
def okMdrainRoute (o : Ops) (m : M6) : Bool :=
  noDst o.d && srcA o.a && noSrc o.b && noSrc o.c && m.ta == .f32 && isOut3 m.tb && drainVar m 2 &&
  varSpaceIn m.var [.global]
def okMdrainCat (o : Ops) (m : M6) : Bool :=
  noDst o.d && srcA o.a && srcG o.b && noSrc o.c && m.ta == .f32 && isOut m.tb && drainVar m 3 &&
  varSpaceIn m.var [.global]
def okMdrainFree (o : Ops) (m : M6) : Bool :=
  noDst o.d && srcG o.a && noSrc o.b && noSrc o.c && m.ta == .none && m.tb == .none && drainVar m 4 &&
  varSpaceIn m.var [.global]

/-- MEPI and MROUTE read the global or the carrel space (R304, R307). -/
def okConfig (o : Ops) (m : M6) : Bool :=
  noDst o.d && srcG o.a && noSrc o.b && noSrc o.c && m.ta == .none && m.tb == .none && !m.ovw &&
  m.var.toNat % 4 == 0 && m.var.toNat < 32 && varSpaceIn m.var [.global, .carrel]
def okMepi (o : Ops) (m : M6) : Bool := okConfig o m
def okMroute (o : Ops) (m : M6) : Bool := okConfig o m

/-- Types and .ovw zero. -/
def plain6 (m : M6) : Bool := m.ta == .none && m.tb == .none && !m.ovw

def okMslip (o : Ops) (m : M6) : Bool :=
  dstRegG o.d && srcV o.a && srcG o.b && noSrc o.c && plain6 m && m.var == 0
def okCatq (o : Ops) (m : M6) : Bool :=
  dstRegG o.d && srcG o.a && noSrc o.b && noSrc o.c && plain6 m && m.var == 0
/-- CATW: WHICH 0 or 1 in [22:21], ACQ in [20] (R313). -/
def okCatw (o : Ops) (m : M6) : Bool :=
  dstRegG o.d && srcG o.a && noSrc o.b && noSrc o.c && plain6 m && m.var.toNat % 2 ^ 20 == 0 &&
  m.var.toNat / 2 ^ 21 ≤ 1
def okCatsetDef (o : Ops) (m : M6) : Bool :=
  noDst o.d && srcG o.a && srcG o.b && noSrc o.c && plain6 m && m.var == 0
def okCatsetPub (o : Ops) (m : M6) : Bool :=
  noDst o.d && srcG o.a && noSrc o.b && noSrc o.c && plain6 m && m.var.toNat == 2 ^ 22

/-! ### Class 0x7 (R347) -/

def okCqpub (o : Ops) (m : M7) : Bool :=
  dstRegG o.d && srcV o.a && noSrc o.b && noSrc o.c && m.var == 0 && m.ord == .rlx && m.scope == .quad && m.low == 0
def okDepset (o : Ops) (m : M7) : Bool :=
  noDst o.d && srcG o.a && srcG o.b && noSrc o.c && m.var == 0 && ordOk [.rlx, .rel] m.ord m.scope && m.low == 0
def okDepq (o : Ops) (m : M7) : Bool :=
  dstRegG o.d && srcG o.a && noSrc o.b && noSrc o.c && plain7 m && m.low == 0
def okNvsub (o : Ops) (m : M7) : Bool :=
  dstRegG o.d && srcV o.a && srcG o.b && srcV o.c && m.var == 0 && m.ord == .rlx && m.scope == .pkg && m.low == 0
def okNvreapReq (o : Ops) (m : M7) : Bool :=
  dstRegV o.d && srcG o.a && srcG o.b && noSrc o.c && m.var == 0 && m.ord == .acq && m.scope == .sys && m.low == 0
def okNvreapCard (o : Ops) (m : M7) : Bool :=
  dstRegV o.d && srcG o.a && srcG o.b && noSrc o.c && m.var == 1 && m.ord == .acq && m.scope == .sys && m.low == 0
def okJcard (o : Ops) (m : M7) : Bool :=
  dstRegG o.d && srcV o.a && srcG o.b && srcV o.c && m.var == 0 && m.ord == .rlx && m.scope == .pkg && m.low == 0
def okAccq (o : Ops) (m : M7) : Bool :=
  dstRegG o.d && srcG o.a && noSrc o.b && noSrc o.c && m.var == 0 && ordOk [.rlx, .acq] m.ord m.scope && m.low == 0

/-! ### Class 0x8 (R393, R396) -/

/-- The type of a bank instruction, from the code in variant [35:30] (R393). -/
def bankFmt : Nat → Fmt
  | 0x03 => .i32
  | 0x04 => .i64
  | 0x07 => .n32
  | 0x08 => .n64
  | 0x09 => .b32
  | 0x0A => .b64
  | 0x10 => .f64
  | 0x11 => .f32
  | 0x12 => .f16
  | 0x13 => .bf16
  | _ => .none

/-- Integer and float bank types. -/
def isBankIF (t : Fmt) : Bool := isI3264 t || isF t

/-- The types of BOP and BRED for an operation (R396). -/
def bankTypes (op : Nat) (t : Fmt) : Bool := if op ≤ 2 then isBankIF t else op ≤ 5 && isB t

def okBop (o : Ops) (m : M7) : Bool :=
  noDst o.d && srcG o.a && srcG o.b && srcG o.c && bankTypes (m.low.toNat / 2 ^ 20) (bankFmt m.var.toNat) &&
  ordOk anyOrd m.ord m.scope && m.low.toNat % 2 ^ 19 == 0
def okBred (o : Ops) (m : M7) : Bool :=
  dstRegG o.d && srcG o.a && noSrc o.b && srcG o.c && bankTypes (m.low.toNat / 2 ^ 20) (bankFmt m.var.toNat) &&
  ordOk anyOrd m.ord m.scope && m.low.toNat % 2 ^ 20 == 0
def okBsort (o : Ops) (m : M7) : Bool :=
  dstRegG o.d && srcG o.a && srcG o.b && srcG o.c && isBankIF (bankFmt m.var.toNat) && ordOk anyOrd m.ord m.scope &&
  m.low.toNat % 2 ^ 20 == 0 && m.low.toNat / 2 ^ 20 ≤ 1
def okBtopk (o : Ops) (m : M7) : Bool :=
  dstRegG o.d && srcG o.a && srcG o.b && srcG o.c && isBankIF (bankFmt m.var.toNat) && ordOk anyOrd m.ord m.scope &&
  m.low.toNat % 2 ^ 20 == 0 && m.low.toNat / 2 ^ 20 ≤ 1

def okSkdef (o : Ops) (m : M7) : Bool :=
  noDst o.d && srcG o.a && srcG o.b && noSrc o.c && plain7 m && m.low == 0
def okSkdel (o : Ops) (m : M7) : Bool :=
  noDst o.d && srcG o.a && srcG o.b && noSrc o.c && m.var == 0 && ordOk [.rlx, .rel] m.ord m.scope && m.low == 0
/-- SKSTAT (R405): W 0 to 7 in [2:0]; the scope is the query scope. -/
def okSkstat (o : Ops) (m : M7) : Bool :=
  dstRegG o.d && srcG o.a && noSrc o.b && noSrc o.c && m.var == 0 && m.ord == .rlx &&
  (m.scope == .die || m.scope == .pkg || m.scope == .pod) && m.low.toNat < 8
def okSkfold (o : Ops) (m : M7) : Bool :=
  noDst o.d && srcG o.a && noSrc o.b && noSrc o.c && plain7 m && m.low == 0
def okSkseal (o : Ops) (m : M7) : Bool :=
  noDst o.d && srcG o.a && noSrc o.b && noSrc o.c && plain7 m && m.low == 0
def okSksealOpen (o : Ops) (m : M7) : Bool :=
  noDst o.d && srcG o.a && noSrc o.b && noSrc o.c && plain7 m && m.low == 1
def okSkclr (o : Ops) (m : M7) : Bool :=
  noDst o.d && srcG o.a && noSrc o.b && noSrc o.c && plain7 m && m.low == 0
def okSkclrFree (o : Ops) (m : M7) : Bool :=
  noDst o.d && srcG o.a && noSrc o.b && noSrc o.c && plain7 m && m.low == 1
def okCollate (o : Ops) (m : M7) : Bool :=
  noDst o.d && srcG o.a && srcG o.b && noSrc o.c && plain7 m && m.low == 0

/-! ### Classes 0x9 and 0xA (R457, R471, R496) -/

def okFlushp (o : Ops) (m : M7) : Bool := noOps o && plain7 m && m.low == 0
def okTrimq (o : Ops) (m : M7) : Bool :=
  dstRegG o.d && srcG o.a && noSrc o.b && noSrc o.c && plain7 m && m.low == 0
def okClplan (o : Ops) (m : M7) : Bool :=
  noDst o.d && srcG o.a && srcG o.b && noSrc o.c && plain7 m && m.low == 0
def okClsend (o : Ops) (m : M7) : Bool :=
  noDst o.d && srcG o.a && srcG o.b && srcG o.c && m.var == 0 && m.ord == .rel &&
  (m.scope == .die || m.scope == .pkg || m.scope == .pod || m.scope == .sys) && m.low == 0
def okBwset (o : Ops) (m : M7) : Bool :=
  noDst o.d && srcG o.a && srcG o.b && noSrc o.c && plain7 m && m.low == 0
def okRcpace (o : Ops) (m : M7) : Bool :=
  noDst o.d && srcG o.a && noSrc o.b && noSrc o.c && plain7 m && m.low == 0
def okAxpush (o : Ops) (m : M7) : Bool :=
  dstRegG o.d && srcV o.a && srcG o.b && srcV o.c && m.var == 0 && m.ord == .rlx && m.scope == .pkg && m.low == 0
def okAxreap (o : Ops) (m : M7) : Bool :=
  dstRegV o.d && srcG o.a && srcG o.b && noSrc o.c && m.var == 0 && m.ord == .acq && m.scope == .pkg && m.low == 0
def okAxfence (o : Ops) (m : M7) : Bool :=
  noOps o && m.var == 0 && m.ord == .ar && m.scope == .pkg && m.low == 0

/-! ### The opcode map (R88) -/

/-- The opcode points that R88 assigns: class · 64 + operation. -/
def opAssigned (n : Nat) : Bool :=
  let op := n % 64
  match n / 64 with
  | 0 => op ≤ 0x24
  | 1 => op ≤ 0x11 || (0x20 ≤ op && op ≤ 0x2B)
  | 2 => op ≤ 0x08
  | 3 => op ≤ 0x0E
  | 4 => op ≤ 0x0A
  | 5 => op ≤ 0x0C
  | 6 => op ≤ 0x0B
  | 7 => op ≤ 0x06
  | 8 => op ≤ 0x0A
  | 9 => op ≤ 0x05
  | 10 => op ≤ 0x02
  | 11 => op ≤ 0x08
  | _ => false

end Sys2Proof.Machine
end

