-- ==== Sys2Proof/WellFormed.lean ====
section
/-! DEFINITION. Well-formed instructions: those whose fields R67 to R69, R74, R84 and the instruction's own rules
accept. A word that decodes to an ill-formed one traps ILLEGAL_FIELD at decode (R91). A step of the machine itself has
no word and is well-formed. -/

namespace Sys2Proof

open Sys2Proof.Machine

/-- The fields of an instruction are legal. -/
def wf (i : Instr) : Bool :=
  match i with
  | .iadd o m => okIadd o m
  | .isub o m => okIsub o m
  | .imul o m => okImul o m
  | .imulhi o m => okImulhi o m
  | .imad o m => okImad o m
  | .idiv o m => okIdiv o m
  | .irem o m => okIrem o m
  | .ineg o m => okIneg o m
  | .iabs o m => okIabs o m
  | .imin o m => okImin o m
  | .imax o m => okImax o m
  | .icmp o m => okIcmp o m
  | .isel o m => okIsel o m
  | .and o m => okAnd o m
  | .or o m => okOr o m
  | .xor o m => okXor o m
  | .andn o m => okAndn o m
  | .not o m => okNot o m
  | .shl o m => okShl o m
  | .shr o m => okShr o m
  | .sar o m => okSar o m
  | .rotl o m => okRotl o m
  | .bfx o m => okBfx o m
  | .bfi o m => okBfi o m
  | .popc o m => okPopc o m
  | .clz o m => okClz o m
  | .ctz o m => okCtz o m
  | .brev o m => okBrev o m
  | .perm o m => okPerm o m
  | .bset o m => okBset o m
  | .bclr o m => okBclr o m
  | .btst o m => okBtst o m
  | .lea o m => okLea o m
  | .mov o m => okMov o m
  | .movi o _ => okMovi o
  | .hash o m => okHash o m
  | .crc o m => okCrc o m
  | .fadd o m => okFadd o m
  | .fsub o m => okFsub o m
  | .fmul o m => okFmul o m
  | .ffma o m => okFfma o m
  | .fmin o m => okFmin o m
  | .fmax o m => okFmax o m
  | .fabs o m => okFabs o m
  | .fneg o m => okFneg o m
  | .fcmp o m => okFcmp o m
  | .fclass o m => okFclass o m
  | .frcp o m => okFrcp o m
  | .frsq o m => okFrsq o m
  | .fsqrt o m => okFsqrt o m
  | .fdiv o m => okFdiv o m
  | .fexp2 o m => okFexp2 o m
  | .flog2 o m => okFlog2 o m
  | .fsin o m => okFsin o m
  | .fcos o m => okFcos o m
  | .vadd o m => okVadd o m
  | .vsub o m => okVsub o m
  | .vmul o m => okVmul o m
  | .vfma o m => okVfma o m
  | .vmin o m => okVmin o m
  | .vmax o m => okVmax o m
  | .vdot o m => okVdot o m
  | .vsum o m => okVsum o m
  | .vcmp o m => okVcmp o m
  | .vsel o m => okVsel o m
  | .xshf o m => okXshf o m
  | .vbcast o m => okVbcast o m
  | .cvt o m => okCvt o m
  | .vcvt o m => okVcvt o m
  | .quantScale o m => okQuantScale o m
  | .quantCodes o m => okQuantCodes o m
  | .deq o m => okDeq o m
  | .pack o m => okPack o m
  | .unpack o m => okUnpack o m
  | .tag o m => okTag o m
  | .tagq o m => okTagq o m
  | .xvset o m => okXvset o m
  | .bra o m => okBra o m
  | .brx o m => okBrx o m
  | .call o m => okCall o m
  | .callx o m => okCallx o m
  | .ret o m => okRet o m
  | .loop o m => okLoop o m
  | .lexit o m => okLexit o m
  | .lcnt o m => okLcnt o m
  | .lcntSet o m => okLcntSet o m
  | .exit o m => okExit o m
  | .waitAcc o m => okWaitAcc o m
  | .waitDep o m => okWaitDep o m
  | .waitNbar o m => okWaitNbar o m
  | .yield o m => okYield o m
  | .ppoint o m => okPpoint o m
  | .nop o m => okNop o m
  | .trap o m => okTrap o m
  | .bkpt o m => okBkpt o m
  | .ld o m => okLd o m
  | .st o m => okSt o m
  | .stWide o m => okStWide o m
  | .ldv o m => okLdv o m
  | .stv o m => okStv o m
  | .ldx o m => okLdx o m
  | .stx o m => okStx o m
  | .ldk o m => okLdk o m
  | .pfetch o m => okPfetch o m
  | .fence o m => okFence o m
  | .promo o m => okPromo o m
  | .cflush o m => okCflush o m
  | .atom o m => okAtom o m
  | .red o m => okRed o m
  | .cas o m => okCas o m
  | .bari o m => okBari o m
  | .bara o m => okBara o m
  | .barw o m => okBarw o m
  | .nbar o m => okNbar o m
  | .vote o m => okVote o m
  | .elect o m => okElect o m
  | .txbeg o m => okTxbeg o m
  | .txend o m => okTxend o m
  | .txabt o m => okTxabt o m
  | .txst o m => okTxst o m
  | .mfs o m => okMfs o m
  | .mts o m => okMts o m
  | .tret o m => okTret o m
  | .tlbgen o m => okTlbgen o m
  | .rdcnt o m => okRdcnt o m
  | .detm o m => okDetm o m
  | .halt o m => okHalt o m
  | .ctxsv o m => okCtxsv o m
  | .ctxld o m => okCtxld o m
  | .mma o m => okMma o m
  | .mfolio o m => okMfolio o m
  | .mldt o m => okMldt o m
  | .mstt o m => okMstt o m
  | .mzero o m => okMzero o m
  | .mdrainSt o m => okMdrainSt o m
  | .mdrainAdd o m => okMdrainAdd o m
  | .mdrainRoute o m => okMdrainRoute o m
  | .mdrainCat o m => okMdrainCat o m
  | .mdrainFree o m => okMdrainFree o m
  | .mepi o m => okMepi o m
  | .mroute o m => okMroute o m
  | .mslip o m => okMslip o m
  | .catq o m => okCatq o m
  | .catw o m => okCatw o m
  | .catsetDef o m => okCatsetDef o m
  | .catsetPub o m => okCatsetPub o m
  | .cqpub o m => okCqpub o m
  | .depset o m => okDepset o m
  | .depq o m => okDepq o m
  | .nvsub o m => okNvsub o m
  | .nvreapReq o m => okNvreapReq o m
  | .nvreapCard o m => okNvreapCard o m
  | .jcard o m => okJcard o m
  | .accq o m => okAccq o m
  | .bop o m => okBop o m
  | .bred o m => okBred o m
  | .bsort o m => okBsort o m
  | .btopk o m => okBtopk o m
  | .skdef o m => okSkdef o m
  | .skdel o m => okSkdel o m
  | .skstat o m => okSkstat o m
  | .skfold o m => okSkfold o m
  | .skseal o m => okSkseal o m
  | .sksealOpen o m => okSksealOpen o m
  | .skclr o m => okSkclr o m
  | .skclrFree o m => okSkclrFree o m
  | .collate o m => okCollate o m
  | .flushp o m => okFlushp o m
  | .trimq o m => okTrimq o m
  | .clplan o m => okClplan o m
  | .clsend o m => okClsend o m
  | .bwset o m => okBwset o m
  | .rcpace o m => okRcpace o m
  | .axpush o m => okAxpush o m
  | .axreap o m => okAxreap o m
  | .axfence o m => okAxfence o m
  | .unassignedOpcode w => !opAssigned (w.extractLsb' 86 10).toNat
  | .lineFetch _ _ => true
  | .gatheringSelect _ => true
  | .latchResultArrival _ _ => true
  | .threadWake _ => true
  | .coreUngate _ => true
  | .watchdogExpiry _ => true
  | .txCommit _ _ => true
  | .launchQueuePoll _ _ => true
  | .launchQueueResume _ _ => true
  | .bindRecordWrite _ _ _ => true
  | .workgroupPlace _ => true
  | .stealReq _ _ _ => true
  | .stealGive _ _ => true
  | .stealNone _ _ => true
  | .bindingComplete _ _ => true
  | .preemptionRequest _ _ _ => true
  | .forcedSave _ => true
  | .workgroupSave _ _ => true
  | .workgroupRestore _ _ => true
  | .eccError _ => true
  | .copyRingRead _ => true
  | .copyChannelStart _ _ => true
  | .copyChunk _ _ => true
  | .copyEntryComplete _ _ => true
  | .matrixAccept _ => true
  | .matrixExecute _ => true
  | .slipRead _ => true
  | .slipDispatch _ => true
  | .slipKstep _ => true
  | .slipComplete _ => true
  | .depDecrement _ => true
  | .depsetApply _ => true
  | .nvmeRequestSubmit _ _ => true
  | .nvmeCompletion _ _ _ _ => true
  | .nvmeTimeout _ _ => true
  | .jobCardStart _ _ => true
  | .jobCardComplete _ _ => true
  | .coherenceEv _ _ => true
  | .coherencePr _ _ => true
  | .coherencePw _ _ => true
  | .coherenceUp _ _ => true
  | .coherenceFl _ _ => true
  | .coherenceBi _ _ => true
  | .switchPacketArrival _ _ => true
  | .stubArrival _ _ => true
  | .recallSend _ => true
  | .recallArrival _ _ => true
  | .postedWriteApply _ _ => true
  | .ackArrival _ _ => true
  | .resendTimeout _ _ => true
  | .orderedPacketArrival _ _ => true
  | .readRequestArrival _ _ => true
  | .readResponseArrival _ _ => true
  | .sendStart _ _ => true
  | .collectivePacketArrival _ _ => true
  | .sendComplete _ _ => true
  | .annexRingRead _ => true
  | .translate _ _ _ => true
  | .invalAck _ => true
  | .complete _ _ _ _ _ _ _ => true
  | .preemptReply _ _ => true
  | .guestCacheMessage _ _ _ _ => true
  | .annexBoundExpiry  => true
  | .annexTraining _ _ => true
  | .guestAttest _ _ _ => true
  | .hostAccess _ _ _ _ _ _ => true
  | .powerUp _ => true
  | .railFault _ => true
  | .throttle _ => true
  | .bootChain _ => true
  | .firmwareReplacement _ => true
  | .modidWrite _ _ => true
  | .registerWrite _ _ _ => true
  | .ctxnew _ _ _ => true
  | .ctxend _ _ _ => true
  | .asset _ _ _ => true
  | .lqreg _ _ _ => true
  | .lqfree _ _ _ => true
  | .freply _ _ _ => true
  | .qpbind _ _ _ => true
  | .cardbind _ _ _ => true
  | .axbind _ _ _ => true
  | .unbind _ _ _ => true
  | .rbind _ _ _ => true
  | .tload _ _ _ => true
  | .attest _ _ _ => true
  | .greset _ _ _ => true
  | .guestPacketFetch _ => true
  | .powerDown  => true
  | .noticeAcknowledge _ => true
  | .unknownMailboxCommand _ _ _ => true

end Sys2Proof
end

