-- ==== Sys2Proof/Decode.lean ====
section
/-! DEFINITION. From a 96-bit word to an instruction and back (R65 to R69, R84 to R88). -/

namespace Sys2Proof

open Sys2Proof.Machine

/-! ### Codes of the subfields (R24, R84, R102) -/

/-- The 6-bit format code (R102); `none` is 0x00. -/
def fmtCode : Fmt → BitVec 6
  | .none => 0x00 | .i8 => 0x01 | .i16 => 0x02 | .i32 => 0x03 | .i64 => 0x04
  | .n8 => 0x05 | .n16 => 0x06 | .n32 => 0x07 | .n64 => 0x08 | .b32 => 0x09 | .b64 => 0x0A
  | .f64 => 0x10 | .f32 => 0x11 | .f16 => 0x12 | .bf16 => 0x13 | .f8e4 => 0x14 | .f8e5 => 0x15
  | .f6e3 => 0x16 | .f4 => 0x17 | .f4x => 0x18
  | .f4bs => 0x20 | .f8e4bs => 0x21 | .f8e5bs => 0x22
  | .q4g32 => 0x28 | .q4g64 => 0x29 | .q4g128 => 0x2A | .q8g32 => 0x2C | .q8g64 => 0x2D | .q8g128 => 0x2E

/-- The format of a code; an unassigned code has none (R102). -/
def fmtOf (c : BitVec 6) : Option Fmt :=
  match c.toNat with
  | 0x00 => some .none | 0x01 => some .i8 | 0x02 => some .i16 | 0x03 => some .i32 | 0x04 => some .i64
  | 0x05 => some .n8 | 0x06 => some .n16 | 0x07 => some .n32 | 0x08 => some .n64
  | 0x09 => some .b32 | 0x0A => some .b64
  | 0x10 => some .f64 | 0x11 => some .f32 | 0x12 => some .f16 | 0x13 => some .bf16
  | 0x14 => some .f8e4 | 0x15 => some .f8e5 | 0x16 => some .f6e3 | 0x17 => some .f4 | 0x18 => some .f4x
  | 0x20 => some .f4bs | 0x21 => some .f8e4bs | 0x22 => some .f8e5bs
  | 0x28 => some .q4g32 | 0x29 => some .q4g64 | 0x2A => some .q4g128
  | 0x2C => some .q8g32 | 0x2D => some .q8g64 | 0x2E => some .q8g128
  | _ => none

/-- Rounding codes (R84). -/
def rndCode : Rnd → BitVec 3
  | .rne => 0 | .rz => 1 | .rd => 2 | .ru => 3 | .rs => 4

/-- Rounding codes 5 to 7 are reserved (R84). -/
def rndOf (c : BitVec 3) : Option Rnd :=
  match c.toNat with
  | 0 => some .rne | 1 => some .rz | 2 => some .rd | 3 => some .ru | 4 => some .rs
  | _ => none

/-- Order codes (R84). -/
def ordCode : Order → BitVec 2
  | .rlx => 0 | .acq => 1 | .rel => 2 | .ar => 3

/-- Every order code is assigned (R84). -/
def ordOf (c : BitVec 2) : Order :=
  match c.toNat with
  | 0 => .rlx | 1 => .acq | 2 => .rel | _ => .ar

/-- Scope codes (R84). -/
def scopeCode : Scope → BitVec 3
  | .core => 0 | .quad => 1 | .die => 2 | .pkg => 3 | .pod => 4 | .sys => 5

/-- Scope codes 6 and 7 are reserved (R84). -/
def scopeOf (c : BitVec 3) : Option Scope :=
  match c.toNat with
  | 0 => some .core | 1 => some .quad | 2 => some .die | 3 => some .pkg | 4 => some .pod | 5 => some .sys
  | _ => none

/-- Space codes (R24). -/
def spaceCode : Space → BitVec 3
  | .global => 0 | .carrel => 1 | .rcarrel => 2 | .accum => 3 | .host => 4 | .stacks => 5 | .folio => 6

/-- Space code 7 is reserved (R24). -/
def spaceOf (c : BitVec 3) : Option Space :=
  match c.toNat with
  | 0 => some .global | 1 => some .carrel | 2 => some .rcarrel | 3 => some .accum | 4 => some .host
  | 5 => some .stacks | 6 => some .folio
  | _ => none

/-- One bit. -/
def bitOf (b : Bool) : BitVec 1 := if b then 1 else 0

/-! ### Operand fields (R65, R67, R68) -/

/-- A register's number in the operand space (R67). -/
def regCode : Reg → BitVec 8
  | .g n => BitVec.ofNat 8 n.toNat
  | .v n => BitVec.ofNat 8 (128 + n.toNat)
  | .t n => BitVec.ofNat 8 (160 + n.toNat)
  | .a n => BitVec.ofNat 8 (176 + n.toNat)
  | .xv n => BitVec.ofNat 8 (184 + n.toNat)

/-- The register of a number; 192 to 255 name none (R67). -/
def regOf (c : BitVec 8) : Option Reg :=
  let k := c.toNat
  if k < 128 then some (.g (BitVec.ofNat 7 k))
  else if k < 160 then some (.v (BitVec.ofNat 5 (k - 128)))
  else if k < 176 then some (.t (BitVec.ofNat 4 (k - 160)))
  else if k < 184 then some (.a (BitVec.ofNat 3 (k - 176)))
  else if k < 192 then some (.xv (BitVec.ofNat 3 (k - 184)))
  else none

/-- A source field (R68). -/
def srcCode : Src → BitVec 9
  | .reg r => (0 : BitVec 1) ++ regCode r
  | .latch k => (0x40 : BitVec 7) ++ k

/-- The source of a field: bit 8 names a latch, whose bits [7:2] are zero (R68). -/
def srcOf (c : BitVec 9) : Option Src :=
  if c.getLsbD 8 then
    if c.extractLsb' 2 6 == 0 then some (.latch (c.extractLsb' 0 2)) else none
  else (regOf (c.extractLsb' 0 8)).map .reg

/-- The destination of a field; write-back suppress needs a zero field (R67). -/
def dstOf (wbs : Bool) (c : BitVec 8) : Option Dst :=
  if wbs then if c == 0 then some .latchOnly else none
  else (regOf c).map .reg

/-- The destination field and the write-back suppress bit below it, as bits [71:63]. -/
def dstCode : Dst → BitVec 9
  | .reg r => regCode r ++ (0 : BitVec 1)
  | .latchOnly => 1

/-- Opcode, guard and operand fields of a word (R65). -/
def opsOf (w : Code) : Option Ops :=
  match dstOf (w.getLsbD 63) (w.extractLsb' 64 8), srcOf (w.extractLsb' 54 9), srcOf (w.extractLsb' 45 9),
      srcOf (w.extractLsb' 36 9) with
  | some d, some a, some b, some c =>
    some { gd := { reg := w.extractLsb' 79 7, bit := w.extractLsb' 73 6, neg := w.getLsbD 72 }, d, a, b, c }
  | _, _, _, _ => none

/-- The word of an opcode, operands and modifiers (R65). -/
def wordOf (opc : BitVec 10) (o : Ops) (m : BitVec 36) : Code :=
  opc ++ o.gd.reg ++ o.gd.bit ++ bitOf o.gd.neg ++ dstCode o.d ++ srcCode o.a ++ srcCode o.b ++ srcCode o.c ++ m

/-! ### Modifier fields (R85, R86) -/

/-- Class 0x0; with I clear [22:0] must be zero (R86). -/
def fields0 (w : Code) : Option M0 :=
  match fmtOf (w.extractLsb' 30 6) with
  | some ty =>
    if !w.getLsbD 23 && w.extractLsb' 0 23 != 0 then none
    else some { ty, cond := w.extractLsb' 25 5, sat := w.getLsbD 24,
                imm := if w.getLsbD 23 then some (w.extractLsb' 0 23) else none }
  | none => none

def mods0 (m : M0) : BitVec 36 :=
  fmtCode m.ty ++ m.cond ++ bitOf m.sat ++
  (match m.imm with
   | none => (0 : BitVec 24)
   | some v => (1 : BitVec 1) ++ v)

/-- Class 0x1. -/
def fields1 (w : Code) : Option M1 :=
  match fmtOf (w.extractLsb' 30 6), rndOf (w.extractLsb' 27 3) with
  | some ty, some rnd => some { ty, rnd, sat := w.getLsbD 26, cond := w.extractLsb' 21 5, var := w.extractLsb' 0 21 }
  | _, _ => none

def mods1 (m : M1) : BitVec 36 := fmtCode m.ty ++ rndCode m.rnd ++ bitOf m.sat ++ m.cond ++ m.var

/-- Class 0x2. -/
def fields2 (w : Code) : Option M2 :=
  match fmtOf (w.extractLsb' 30 6), fmtOf (w.extractLsb' 24 6), rndOf (w.extractLsb' 21 3) with
  | some dt, some st, some rnd =>
    some { dt, st, rnd, sat := w.getLsbD 20, xv := w.extractLsb' 17 3, var := w.extractLsb' 0 17 }
  | _, _, _ => none

def mods2 (m : M2) : BitVec 36 := fmtCode m.dt ++ fmtCode m.st ++ rndCode m.rnd ++ bitOf m.sat ++ m.xv ++ m.var

/-- Class 0x3; bit 24 is reserved. -/
def fields3 (w : Code) : Option M3 :=
  match scopeOf (w.extractLsb' 25 3) with
  | some scope =>
    if w.getLsbD 24 then none
    else some { var := w.extractLsb' 30 6, ord := ordOf (w.extractLsb' 28 2), scope, target := w.extractLsb' 0 24 }
  | none => none

def mods3 (m : M3) : BitVec 36 := m.var ++ ordCode m.ord ++ scopeCode m.scope ++ (0 : BitVec 1) ++ m.target

/-- Class 0x4. -/
def fields4 (w : Code) : Option M4 :=
  match fmtOf (w.extractLsb' 30 6), scopeOf (w.extractLsb' 25 3), spaceOf (w.extractLsb' 22 3) with
  | some ty, some scope, some space =>
    some { ty, ord := ordOf (w.extractLsb' 28 2), scope, space, off := w.extractLsb' 0 22 }
  | _, _, _ => none

def mods4 (m : M4) : BitVec 36 := fmtCode m.ty ++ ordCode m.ord ++ scopeCode m.scope ++ spaceCode m.space ++ m.off

/-- Class 0x5. -/
def fields5 (w : Code) : Option M5 :=
  match fmtOf (w.extractLsb' 30 6), scopeOf (w.extractLsb' 25 3), spaceOf (w.extractLsb' 22 3) with
  | some ty, some scope, some space =>
    some { ty, ord := ordOf (w.extractLsb' 28 2), scope, space, op := w.extractLsb' 17 5, off := w.extractLsb' 0 17 }
  | _, _, _ => none

def mods5 (m : M5) : BitVec 36 :=
  fmtCode m.ty ++ ordCode m.ord ++ scopeCode m.scope ++ spaceCode m.space ++ m.op ++ m.off

/-- Class 0x6. -/
def fields6 (w : Code) : Option M6 :=
  match fmtOf (w.extractLsb' 30 6), fmtOf (w.extractLsb' 24 6) with
  | some ta, some tb => some { ta, tb, ovw := w.getLsbD 23, var := w.extractLsb' 0 23 }
  | _, _ => none

def mods6 (m : M6) : BitVec 36 := fmtCode m.ta ++ fmtCode m.tb ++ bitOf m.ovw ++ m.var

/-- Classes 0x7 to 0xB; bit 24 is reserved. -/
def fields7 (w : Code) : Option M7 :=
  match scopeOf (w.extractLsb' 25 3) with
  | some scope =>
    if w.getLsbD 24 then none
    else some { var := w.extractLsb' 30 6, ord := ordOf (w.extractLsb' 28 2), scope, low := w.extractLsb' 0 24 }
  | none => none

def mods7 (m : M7) : BitVec 36 := m.var ++ ordCode m.ord ++ scopeCode m.scope ++ (0 : BitVec 1) ++ m.low

/-! ### Decoding -/

/-- Class 0x0 (R88). -/
def decodeClass0 (op : Nat) (o : Ops) (w : Code) : Option Instr :=
  match op with
  | 0x00 => (fields0 w).map fun m => .iadd o m
  | 0x01 => (fields0 w).map fun m => .isub o m
  | 0x02 => (fields0 w).map fun m => .imul o m
  | 0x03 => (fields0 w).map fun m => .imulhi o m
  | 0x04 => (fields0 w).map fun m => .imad o m
  | 0x05 => (fields0 w).map fun m => .idiv o m
  | 0x06 => (fields0 w).map fun m => .irem o m
  | 0x07 => (fields0 w).map fun m => .ineg o m
  | 0x08 => (fields0 w).map fun m => .iabs o m
  | 0x09 => (fields0 w).map fun m => .imin o m
  | 0x0A => (fields0 w).map fun m => .imax o m
  | 0x0B => (fields0 w).map fun m => .icmp o m
  | 0x0C => (fields0 w).map fun m => .isel o m
  | 0x0D => (fields0 w).map fun m => .and o m
  | 0x0E => (fields0 w).map fun m => .or o m
  | 0x0F => (fields0 w).map fun m => .xor o m
  | 0x10 => (fields0 w).map fun m => .andn o m
  | 0x11 => (fields0 w).map fun m => .not o m
  | 0x12 => (fields0 w).map fun m => .shl o m
  | 0x13 => (fields0 w).map fun m => .shr o m
  | 0x14 => (fields0 w).map fun m => .sar o m
  | 0x15 => (fields0 w).map fun m => .rotl o m
  | 0x16 => (fields0 w).map fun m => .bfx o m
  | 0x17 => (fields0 w).map fun m => .bfi o m
  | 0x18 => (fields0 w).map fun m => .popc o m
  | 0x19 => (fields0 w).map fun m => .clz o m
  | 0x1A => (fields0 w).map fun m => .ctz o m
  | 0x1B => (fields0 w).map fun m => .brev o m
  | 0x1C => (fields0 w).map fun m => .perm o m
  | 0x1D => (fields0 w).map fun m => .bset o m
  | 0x1E => (fields0 w).map fun m => .bclr o m
  | 0x1F => (fields0 w).map fun m => .btst o m
  | 0x20 => (fields0 w).map fun m => .lea o m
  | 0x21 => (fields0 w).map fun m => .mov o m
  | 0x22 => some (.movi o (w.extractLsb' 0 36))
  | 0x23 => (fields0 w).map fun m => .hash o m
  | 0x24 => (fields0 w).map fun m => .crc o m
  | _ => none

/-- Class 0x1 (R88). -/
def decodeClass1 (op : Nat) (o : Ops) (w : Code) : Option Instr :=
  match op with
  | 0x00 => (fields1 w).map fun m => .fadd o m
  | 0x01 => (fields1 w).map fun m => .fsub o m
  | 0x02 => (fields1 w).map fun m => .fmul o m
  | 0x03 => (fields1 w).map fun m => .ffma o m
  | 0x04 => (fields1 w).map fun m => .fmin o m
  | 0x05 => (fields1 w).map fun m => .fmax o m
  | 0x06 => (fields1 w).map fun m => .fabs o m
  | 0x07 => (fields1 w).map fun m => .fneg o m
  | 0x08 => (fields1 w).map fun m => .fcmp o m
  | 0x09 => (fields1 w).map fun m => .fclass o m
  | 0x0A => (fields1 w).map fun m => .frcp o m
  | 0x0B => (fields1 w).map fun m => .frsq o m
  | 0x0C => (fields1 w).map fun m => .fsqrt o m
  | 0x0D => (fields1 w).map fun m => .fdiv o m
  | 0x0E => (fields1 w).map fun m => .fexp2 o m
  | 0x0F => (fields1 w).map fun m => .flog2 o m
  | 0x10 => (fields1 w).map fun m => .fsin o m
  | 0x11 => (fields1 w).map fun m => .fcos o m
  | 0x20 => (fields1 w).map fun m => .vadd o m
  | 0x21 => (fields1 w).map fun m => .vsub o m
  | 0x22 => (fields1 w).map fun m => .vmul o m
  | 0x23 => (fields1 w).map fun m => .vfma o m
  | 0x24 => (fields1 w).map fun m => .vmin o m
  | 0x25 => (fields1 w).map fun m => .vmax o m
  | 0x26 => (fields1 w).map fun m => .vdot o m
  | 0x27 => (fields1 w).map fun m => .vsum o m
  | 0x28 => (fields1 w).map fun m => .vcmp o m
  | 0x29 => (fields1 w).map fun m => .vsel o m
  | 0x2A => (fields1 w).map fun m => .xshf o m
  | 0x2B => (fields1 w).map fun m => .vbcast o m
  | _ => none

/-- Class 0x2 (R88). -/
def decodeClass2 (op : Nat) (o : Ops) (w : Code) : Option Instr :=
  match op with
  | 0x00 => (fields2 w).map fun m => .cvt o m
  | 0x01 => (fields2 w).map fun m => .vcvt o m
  | 0x02 => (fields2 w).map fun m => if m.var.getLsbD 0 then .quantCodes o m else .quantScale o m
  | 0x03 => (fields2 w).map fun m => .deq o m
  | 0x04 => (fields2 w).map fun m => .pack o m
  | 0x05 => (fields2 w).map fun m => .unpack o m
  | 0x06 => (fields2 w).map fun m => .tag o m
  | 0x07 => (fields2 w).map fun m => .tagq o m
  | 0x08 => (fields2 w).map fun m => .xvset o m
  | _ => none

/-- Class 0x3 (R88). -/
def decodeClass3 (op : Nat) (o : Ops) (w : Code) : Option Instr :=
  match op with
  | 0x00 => (fields3 w).map fun m => .bra o m
  | 0x01 => (fields3 w).map fun m => .brx o m
  | 0x02 => (fields3 w).map fun m => .call o m
  | 0x03 => (fields3 w).map fun m => .callx o m
  | 0x04 => (fields3 w).map fun m => .ret o m
  | 0x05 => (fields3 w).map fun m => .loop o m
  | 0x06 => (fields3 w).map fun m => .lexit o m
  | 0x07 => (fields3 w).map fun m => if m.var.getLsbD 2 then .lcntSet o m else .lcnt o m
  | 0x08 => (fields3 w).map fun m => .exit o m
  | 0x09 => (fields3 w).map fun m => if m.var == 1 then .waitDep o m else if m.var == 2 then .waitNbar o m else .waitAcc o m
  | 0x0A => (fields3 w).map fun m => .yield o m
  | 0x0B => (fields3 w).map fun m => .ppoint o m
  | 0x0C => (fields3 w).map fun m => .nop o m
  | 0x0D => (fields3 w).map fun m => .trap o m
  | 0x0E => (fields3 w).map fun m => .bkpt o m
  | _ => none

/-- Class 0x4 (R88). -/
def decodeClass4 (op : Nat) (o : Ops) (w : Code) : Option Instr :=
  match op with
  | 0x00 => (fields4 w).map fun m => .ld o m
  | 0x01 => (fields4 w).map fun m => if noSrc o.c then .st o m else .stWide o m
  | 0x02 => (fields4 w).map fun m => .ldv o m
  | 0x03 => (fields4 w).map fun m => .stv o m
  | 0x04 => (fields4 w).map fun m => .ldx o m
  | 0x05 => (fields4 w).map fun m => .stx o m
  | 0x06 => (fields4 w).map fun m => .ldk o m
  | 0x07 => (fields4 w).map fun m => .pfetch o m
  | 0x08 => (fields4 w).map fun m => .fence o m
  | 0x09 => (fields4 w).map fun m => .promo o m
  | 0x0A => (fields4 w).map fun m => .cflush o m
  | _ => none

/-- Class 0x5 (R88). -/
def decodeClass5 (op : Nat) (o : Ops) (w : Code) : Option Instr :=
  match op with
  | 0x00 => (fields5 w).map fun m => .atom o m
  | 0x01 => (fields5 w).map fun m => .red o m
  | 0x02 => (fields5 w).map fun m => .cas o m
  | 0x03 => (fields5 w).map fun m => .bari o m
  | 0x04 => (fields5 w).map fun m => .bara o m
  | 0x05 => (fields5 w).map fun m => .barw o m
  | 0x06 => (fields5 w).map fun m => .nbar o m
  | 0x07 => (fields5 w).map fun m => .vote o m
  | 0x08 => (fields5 w).map fun m => .elect o m
  | 0x09 => (fields5 w).map fun m => .txbeg o m
  | 0x0A => (fields5 w).map fun m => .txend o m
  | 0x0B => (fields5 w).map fun m => .txabt o m
  | 0x0C => (fields5 w).map fun m => .txst o m
  | _ => none

/-- Class 0x6 (R88). -/
def decodeClass6 (op : Nat) (o : Ops) (w : Code) : Option Instr :=
  match op with
  | 0x00 => (fields6 w).map fun m => .mma o m
  | 0x01 => (fields6 w).map fun m => .mfolio o m
  | 0x02 => (fields6 w).map fun m => .mldt o m
  | 0x03 => (fields6 w).map fun m => .mstt o m
  | 0x04 => (fields6 w).map fun m => .mzero o m
  | 0x05 => (fields6 w).map fun m => if m.var.toNat / 2 ^ 20 == 1 then .mdrainAdd o m else if m.var.toNat / 2 ^ 20 == 2 then .mdrainRoute o m
      else if m.var.toNat / 2 ^ 20 == 3 then .mdrainCat o m else if m.var.toNat / 2 ^ 20 == 4 then .mdrainFree o m
      else .mdrainSt o m
  | 0x06 => (fields6 w).map fun m => .mepi o m
  | 0x07 => (fields6 w).map fun m => .mroute o m
  | 0x08 => (fields6 w).map fun m => .mslip o m
  | 0x09 => (fields6 w).map fun m => .catq o m
  | 0x0A => (fields6 w).map fun m => .catw o m
  | 0x0B => (fields6 w).map fun m => if m.var.getLsbD 22 then .catsetPub o m else .catsetDef o m
  | _ => none

/-- Class 0x7 (R88). -/
def decodeClass7 (op : Nat) (o : Ops) (w : Code) : Option Instr :=
  match op with
  | 0x00 => (fields7 w).map fun m => .cqpub o m
  | 0x01 => (fields7 w).map fun m => .depset o m
  | 0x02 => (fields7 w).map fun m => .depq o m
  | 0x03 => (fields7 w).map fun m => .nvsub o m
  | 0x04 => (fields7 w).map fun m => if m.var.getLsbD 0 then .nvreapCard o m else .nvreapReq o m
  | 0x05 => (fields7 w).map fun m => .jcard o m
  | 0x06 => (fields7 w).map fun m => .accq o m
  | _ => none

/-- Class 0x8 (R88). -/
def decodeClass8 (op : Nat) (o : Ops) (w : Code) : Option Instr :=
  match op with
  | 0x00 => (fields7 w).map fun m => .bop o m
  | 0x01 => (fields7 w).map fun m => .bred o m
  | 0x02 => (fields7 w).map fun m => .bsort o m
  | 0x03 => (fields7 w).map fun m => .btopk o m
  | 0x04 => (fields7 w).map fun m => .skdef o m
  | 0x05 => (fields7 w).map fun m => .skdel o m
  | 0x06 => (fields7 w).map fun m => .skstat o m
  | 0x07 => (fields7 w).map fun m => .skfold o m
  | 0x08 => (fields7 w).map fun m => if m.low.getLsbD 0 then .sksealOpen o m else .skseal o m
  | 0x0A => (fields7 w).map fun m => if m.low.getLsbD 0 then .skclrFree o m else .skclr o m
  | 0x09 => (fields7 w).map fun m => .collate o m
  | _ => none

/-- Class 0x9 (R88). -/
def decodeClass9 (op : Nat) (o : Ops) (w : Code) : Option Instr :=
  match op with
  | 0x00 => (fields7 w).map fun m => .flushp o m
  | 0x01 => (fields7 w).map fun m => .trimq o m
  | 0x02 => (fields7 w).map fun m => .clplan o m
  | 0x03 => (fields7 w).map fun m => .clsend o m
  | 0x04 => (fields7 w).map fun m => .bwset o m
  | 0x05 => (fields7 w).map fun m => .rcpace o m
  | _ => none

/-- Class 0xA (R88). -/
def decodeClassA (op : Nat) (o : Ops) (w : Code) : Option Instr :=
  match op with
  | 0x00 => (fields7 w).map fun m => .axpush o m
  | 0x01 => (fields7 w).map fun m => .axreap o m
  | 0x02 => (fields7 w).map fun m => .axfence o m
  | _ => none

/-- Class 0xB (R88). -/
def decodeClassB (op : Nat) (o : Ops) (w : Code) : Option Instr :=
  match op with
  | 0x00 => (fields7 w).map fun m => .mfs o m
  | 0x01 => (fields7 w).map fun m => .mts o m
  | 0x02 => (fields7 w).map fun m => .tret o m
  | 0x03 => (fields7 w).map fun m => .tlbgen o m
  | 0x04 => (fields7 w).map fun m => .rdcnt o m
  | 0x05 => (fields7 w).map fun m => .detm o m
  | 0x06 => (fields7 w).map fun m => .halt o m
  | 0x07 => (fields7 w).map fun m => .ctxsv o m
  | 0x08 => (fields7 w).map fun m => .ctxld o m
  | _ => none

/-- Why a word is no instruction: ILLEGAL_FIELD (R91 item 5). ILLEGAL_OP is the instruction `unassignedOpcode`. -/
inductive DecodeError where
  | illegalField
  deriving DecidableEq, Repr

/-- The instruction whose fields a word of an assigned opcode holds; none when a field holds a reserved code. -/
def instrOf (w : Code) : Option Instr :=
  let op := (w.extractLsb' 86 6).toNat
  match opsOf w with
  | none => none
  | some o =>
    match (w.extractLsb' 92 4).toNat with
    | 0 => decodeClass0 op o w
    | 1 => decodeClass1 op o w
    | 2 => decodeClass2 op o w
    | 3 => decodeClass3 op o w
    | 4 => decodeClass4 op o w
    | 5 => decodeClass5 op o w
    | 6 => decodeClass6 op o w
    | 7 => decodeClass7 op o w
    | 8 => decodeClass8 op o w
    | 9 => decodeClass9 op o w
    | 10 => decodeClassA op o w
    | 11 => decodeClassB op o w
    | _ => none

/-- The decoder, total on 96-bit words (R88, R91 items 4 and 5). -/
def decode (w : Code) : Except DecodeError Instr :=
  if !opAssigned (w.extractLsb' 86 10).toNat then .ok (.unassignedOpcode w)
  else match instrOf w with
    | some i => if wf i then .ok i else .error .illegalField
    | none => .error .illegalField

/-- A word from its twelve bytes, little-endian (R65); missing bytes read as zero. -/
def wordOfBytes (bs : List Byte) : Code :=
  (List.range 12).foldr (fun k (acc : Code) => (acc <<< 8) ||| (bs.getD k 0).setWidth 96) 0

/-- The twelve bytes of a word, little-endian (R65). -/
def bytesOfWord (w : Code) : List Byte := (List.range 12).map fun k => w.extractLsb' (8 * k) 8

/-- Decoding the bytes of a slot. -/
def decodeBytes (bs : List Byte) : Except DecodeError Instr := decode (wordOfBytes bs)

/-- The word of an instruction; a step of the machine itself has none. -/
def encode (i : Instr) : Option Code :=
  match i with
  | .iadd o m => some (wordOf 0x000 o (mods0 m))
  | .isub o m => some (wordOf 0x001 o (mods0 m))
  | .imul o m => some (wordOf 0x002 o (mods0 m))
  | .imulhi o m => some (wordOf 0x003 o (mods0 m))
  | .imad o m => some (wordOf 0x004 o (mods0 m))
  | .idiv o m => some (wordOf 0x005 o (mods0 m))
  | .irem o m => some (wordOf 0x006 o (mods0 m))
  | .ineg o m => some (wordOf 0x007 o (mods0 m))
  | .iabs o m => some (wordOf 0x008 o (mods0 m))
  | .imin o m => some (wordOf 0x009 o (mods0 m))
  | .imax o m => some (wordOf 0x00A o (mods0 m))
  | .icmp o m => some (wordOf 0x00B o (mods0 m))
  | .isel o m => some (wordOf 0x00C o (mods0 m))
  | .and o m => some (wordOf 0x00D o (mods0 m))
  | .or o m => some (wordOf 0x00E o (mods0 m))
  | .xor o m => some (wordOf 0x00F o (mods0 m))
  | .andn o m => some (wordOf 0x010 o (mods0 m))
  | .not o m => some (wordOf 0x011 o (mods0 m))
  | .shl o m => some (wordOf 0x012 o (mods0 m))
  | .shr o m => some (wordOf 0x013 o (mods0 m))
  | .sar o m => some (wordOf 0x014 o (mods0 m))
  | .rotl o m => some (wordOf 0x015 o (mods0 m))
  | .bfx o m => some (wordOf 0x016 o (mods0 m))
  | .bfi o m => some (wordOf 0x017 o (mods0 m))
  | .popc o m => some (wordOf 0x018 o (mods0 m))
  | .clz o m => some (wordOf 0x019 o (mods0 m))
  | .ctz o m => some (wordOf 0x01A o (mods0 m))
  | .brev o m => some (wordOf 0x01B o (mods0 m))
  | .perm o m => some (wordOf 0x01C o (mods0 m))
  | .bset o m => some (wordOf 0x01D o (mods0 m))
  | .bclr o m => some (wordOf 0x01E o (mods0 m))
  | .btst o m => some (wordOf 0x01F o (mods0 m))
  | .lea o m => some (wordOf 0x020 o (mods0 m))
  | .mov o m => some (wordOf 0x021 o (mods0 m))
  | .movi o imm => some (wordOf 0x022 o imm)
  | .hash o m => some (wordOf 0x023 o (mods0 m))
  | .crc o m => some (wordOf 0x024 o (mods0 m))
  | .fadd o m => some (wordOf 0x040 o (mods1 m))
  | .fsub o m => some (wordOf 0x041 o (mods1 m))
  | .fmul o m => some (wordOf 0x042 o (mods1 m))
  | .ffma o m => some (wordOf 0x043 o (mods1 m))
  | .fmin o m => some (wordOf 0x044 o (mods1 m))
  | .fmax o m => some (wordOf 0x045 o (mods1 m))
  | .fabs o m => some (wordOf 0x046 o (mods1 m))
  | .fneg o m => some (wordOf 0x047 o (mods1 m))
  | .fcmp o m => some (wordOf 0x048 o (mods1 m))
  | .fclass o m => some (wordOf 0x049 o (mods1 m))
  | .frcp o m => some (wordOf 0x04A o (mods1 m))
  | .frsq o m => some (wordOf 0x04B o (mods1 m))
  | .fsqrt o m => some (wordOf 0x04C o (mods1 m))
  | .fdiv o m => some (wordOf 0x04D o (mods1 m))
  | .fexp2 o m => some (wordOf 0x04E o (mods1 m))
  | .flog2 o m => some (wordOf 0x04F o (mods1 m))
  | .fsin o m => some (wordOf 0x050 o (mods1 m))
  | .fcos o m => some (wordOf 0x051 o (mods1 m))
  | .vadd o m => some (wordOf 0x060 o (mods1 m))
  | .vsub o m => some (wordOf 0x061 o (mods1 m))
  | .vmul o m => some (wordOf 0x062 o (mods1 m))
  | .vfma o m => some (wordOf 0x063 o (mods1 m))
  | .vmin o m => some (wordOf 0x064 o (mods1 m))
  | .vmax o m => some (wordOf 0x065 o (mods1 m))
  | .vdot o m => some (wordOf 0x066 o (mods1 m))
  | .vsum o m => some (wordOf 0x067 o (mods1 m))
  | .vcmp o m => some (wordOf 0x068 o (mods1 m))
  | .vsel o m => some (wordOf 0x069 o (mods1 m))
  | .xshf o m => some (wordOf 0x06A o (mods1 m))
  | .vbcast o m => some (wordOf 0x06B o (mods1 m))
  | .cvt o m => some (wordOf 0x080 o (mods2 m))
  | .vcvt o m => some (wordOf 0x081 o (mods2 m))
  | .quantScale o m => some (wordOf 0x082 o (mods2 m))
  | .quantCodes o m => some (wordOf 0x082 o (mods2 m))
  | .deq o m => some (wordOf 0x083 o (mods2 m))
  | .pack o m => some (wordOf 0x084 o (mods2 m))
  | .unpack o m => some (wordOf 0x085 o (mods2 m))
  | .tag o m => some (wordOf 0x086 o (mods2 m))
  | .tagq o m => some (wordOf 0x087 o (mods2 m))
  | .xvset o m => some (wordOf 0x088 o (mods2 m))
  | .bra o m => some (wordOf 0x0C0 o (mods3 m))
  | .brx o m => some (wordOf 0x0C1 o (mods3 m))
  | .call o m => some (wordOf 0x0C2 o (mods3 m))
  | .callx o m => some (wordOf 0x0C3 o (mods3 m))
  | .ret o m => some (wordOf 0x0C4 o (mods3 m))
  | .loop o m => some (wordOf 0x0C5 o (mods3 m))
  | .lexit o m => some (wordOf 0x0C6 o (mods3 m))
  | .lcnt o m => some (wordOf 0x0C7 o (mods3 m))
  | .lcntSet o m => some (wordOf 0x0C7 o (mods3 m))
  | .exit o m => some (wordOf 0x0C8 o (mods3 m))
  | .waitAcc o m => some (wordOf 0x0C9 o (mods3 m))
  | .waitDep o m => some (wordOf 0x0C9 o (mods3 m))
  | .waitNbar o m => some (wordOf 0x0C9 o (mods3 m))
  | .yield o m => some (wordOf 0x0CA o (mods3 m))
  | .ppoint o m => some (wordOf 0x0CB o (mods3 m))
  | .nop o m => some (wordOf 0x0CC o (mods3 m))
  | .trap o m => some (wordOf 0x0CD o (mods3 m))
  | .bkpt o m => some (wordOf 0x0CE o (mods3 m))
  | .ld o m => some (wordOf 0x100 o (mods4 m))
  | .st o m => some (wordOf 0x101 o (mods4 m))
  | .stWide o m => some (wordOf 0x101 o (mods4 m))
  | .ldv o m => some (wordOf 0x102 o (mods4 m))
  | .stv o m => some (wordOf 0x103 o (mods4 m))
  | .ldx o m => some (wordOf 0x104 o (mods4 m))
  | .stx o m => some (wordOf 0x105 o (mods4 m))
  | .ldk o m => some (wordOf 0x106 o (mods4 m))
  | .pfetch o m => some (wordOf 0x107 o (mods4 m))
  | .fence o m => some (wordOf 0x108 o (mods4 m))
  | .promo o m => some (wordOf 0x109 o (mods4 m))
  | .cflush o m => some (wordOf 0x10A o (mods4 m))
  | .atom o m => some (wordOf 0x140 o (mods5 m))
  | .red o m => some (wordOf 0x141 o (mods5 m))
  | .cas o m => some (wordOf 0x142 o (mods5 m))
  | .bari o m => some (wordOf 0x143 o (mods5 m))
  | .bara o m => some (wordOf 0x144 o (mods5 m))
  | .barw o m => some (wordOf 0x145 o (mods5 m))
  | .nbar o m => some (wordOf 0x146 o (mods5 m))
  | .vote o m => some (wordOf 0x147 o (mods5 m))
  | .elect o m => some (wordOf 0x148 o (mods5 m))
  | .txbeg o m => some (wordOf 0x149 o (mods5 m))
  | .txend o m => some (wordOf 0x14A o (mods5 m))
  | .txabt o m => some (wordOf 0x14B o (mods5 m))
  | .txst o m => some (wordOf 0x14C o (mods5 m))
  | .mfs o m => some (wordOf 0x2C0 o (mods7 m))
  | .mts o m => some (wordOf 0x2C1 o (mods7 m))
  | .tret o m => some (wordOf 0x2C2 o (mods7 m))
  | .tlbgen o m => some (wordOf 0x2C3 o (mods7 m))
  | .rdcnt o m => some (wordOf 0x2C4 o (mods7 m))
  | .detm o m => some (wordOf 0x2C5 o (mods7 m))
  | .halt o m => some (wordOf 0x2C6 o (mods7 m))
  | .ctxsv o m => some (wordOf 0x2C7 o (mods7 m))
  | .ctxld o m => some (wordOf 0x2C8 o (mods7 m))
  | .mma o m => some (wordOf 0x180 o (mods6 m))
  | .mfolio o m => some (wordOf 0x181 o (mods6 m))
  | .mldt o m => some (wordOf 0x182 o (mods6 m))
  | .mstt o m => some (wordOf 0x183 o (mods6 m))
  | .mzero o m => some (wordOf 0x184 o (mods6 m))
  | .mdrainSt o m => some (wordOf 0x185 o (mods6 m))
  | .mdrainAdd o m => some (wordOf 0x185 o (mods6 m))
  | .mdrainRoute o m => some (wordOf 0x185 o (mods6 m))
  | .mdrainCat o m => some (wordOf 0x185 o (mods6 m))
  | .mdrainFree o m => some (wordOf 0x185 o (mods6 m))
  | .mepi o m => some (wordOf 0x186 o (mods6 m))
  | .mroute o m => some (wordOf 0x187 o (mods6 m))
  | .mslip o m => some (wordOf 0x188 o (mods6 m))
  | .catq o m => some (wordOf 0x189 o (mods6 m))
  | .catw o m => some (wordOf 0x18A o (mods6 m))
  | .catsetDef o m => some (wordOf 0x18B o (mods6 m))
  | .catsetPub o m => some (wordOf 0x18B o (mods6 m))
  | .cqpub o m => some (wordOf 0x1C0 o (mods7 m))
  | .depset o m => some (wordOf 0x1C1 o (mods7 m))
  | .depq o m => some (wordOf 0x1C2 o (mods7 m))
  | .nvsub o m => some (wordOf 0x1C3 o (mods7 m))
  | .nvreapReq o m => some (wordOf 0x1C4 o (mods7 m))
  | .nvreapCard o m => some (wordOf 0x1C4 o (mods7 m))
  | .jcard o m => some (wordOf 0x1C5 o (mods7 m))
  | .accq o m => some (wordOf 0x1C6 o (mods7 m))
  | .bop o m => some (wordOf 0x200 o (mods7 m))
  | .bred o m => some (wordOf 0x201 o (mods7 m))
  | .bsort o m => some (wordOf 0x202 o (mods7 m))
  | .btopk o m => some (wordOf 0x203 o (mods7 m))
  | .skdef o m => some (wordOf 0x204 o (mods7 m))
  | .skdel o m => some (wordOf 0x205 o (mods7 m))
  | .skstat o m => some (wordOf 0x206 o (mods7 m))
  | .skfold o m => some (wordOf 0x207 o (mods7 m))
  | .skseal o m => some (wordOf 0x208 o (mods7 m))
  | .sksealOpen o m => some (wordOf 0x208 o (mods7 m))
  | .skclr o m => some (wordOf 0x20A o (mods7 m))
  | .skclrFree o m => some (wordOf 0x20A o (mods7 m))
  | .collate o m => some (wordOf 0x209 o (mods7 m))
  | .flushp o m => some (wordOf 0x240 o (mods7 m))
  | .trimq o m => some (wordOf 0x241 o (mods7 m))
  | .clplan o m => some (wordOf 0x242 o (mods7 m))
  | .clsend o m => some (wordOf 0x243 o (mods7 m))
  | .bwset o m => some (wordOf 0x244 o (mods7 m))
  | .rcpace o m => some (wordOf 0x245 o (mods7 m))
  | .axpush o m => some (wordOf 0x280 o (mods7 m))
  | .axreap o m => some (wordOf 0x281 o (mods7 m))
  | .axfence o m => some (wordOf 0x282 o (mods7 m))
  | .unassignedOpcode w => some w
  | .lineFetch _ _ => none
  | .gatheringSelect _ => none
  | .latchResultArrival _ _ => none
  | .threadWake _ => none
  | .coreUngate _ => none
  | .watchdogExpiry _ => none
  | .txCommit _ _ => none
  | .launchQueuePoll _ _ => none
  | .launchQueueResume _ _ => none
  | .bindRecordWrite _ _ _ => none
  | .workgroupPlace _ => none
  | .stealReq _ _ _ => none
  | .stealGive _ _ => none
  | .stealNone _ _ => none
  | .bindingComplete _ _ => none
  | .preemptionRequest _ _ _ => none
  | .forcedSave _ => none
  | .workgroupSave _ _ => none
  | .workgroupRestore _ _ => none
  | .eccError _ => none
  | .copyRingRead _ => none
  | .copyChannelStart _ _ => none
  | .copyChunk _ _ => none
  | .copyEntryComplete _ _ => none
  | .matrixAccept _ => none
  | .matrixExecute _ => none
  | .slipRead _ => none
  | .slipDispatch _ => none
  | .slipKstep _ => none
  | .slipComplete _ => none
  | .depDecrement _ => none
  | .depsetApply _ => none
  | .nvmeRequestSubmit _ _ => none
  | .nvmeCompletion _ _ _ _ => none
  | .nvmeTimeout _ _ => none
  | .jobCardStart _ _ => none
  | .jobCardComplete _ _ => none
  | .coherenceEv _ _ => none
  | .coherencePr _ _ => none
  | .coherencePw _ _ => none
  | .coherenceUp _ _ => none
  | .coherenceFl _ _ => none
  | .coherenceBi _ _ => none
  | .switchPacketArrival _ _ => none
  | .stubArrival _ _ => none
  | .recallSend _ => none
  | .recallArrival _ _ => none
  | .postedWriteApply _ _ => none
  | .ackArrival _ _ => none
  | .resendTimeout _ _ => none
  | .orderedPacketArrival _ _ => none
  | .readRequestArrival _ _ => none
  | .readResponseArrival _ _ => none
  | .sendStart _ _ => none
  | .collectivePacketArrival _ _ => none
  | .sendComplete _ _ => none
  | .annexRingRead _ => none
  | .translate _ _ _ => none
  | .invalAck _ => none
  | .complete _ _ _ _ _ _ _ => none
  | .preemptReply _ _ => none
  | .guestCacheMessage _ _ _ _ => none
  | .annexBoundExpiry  => none
  | .annexTraining _ _ => none
  | .guestAttest _ _ _ => none
  | .hostAccess _ _ _ _ _ _ => none
  | .powerUp _ => none
  | .railFault _ => none
  | .throttle _ => none
  | .bootChain _ => none
  | .firmwareReplacement _ => none
  | .modidWrite _ _ => none
  | .registerWrite _ _ _ => none
  | .ctxnew _ _ _ => none
  | .ctxend _ _ _ => none
  | .asset _ _ _ => none
  | .lqreg _ _ _ => none
  | .lqfree _ _ _ => none
  | .freply _ _ _ => none
  | .qpbind _ _ _ => none
  | .cardbind _ _ _ => none
  | .axbind _ _ _ => none
  | .unbind _ _ _ => none
  | .rbind _ _ _ => none
  | .tload _ _ _ => none
  | .attest _ _ _ => none
  | .greset _ _ _ => none
  | .guestPacketFetch _ => none
  | .powerDown  => none
  | .noticeAcknowledge _ => none
  | .unknownMailboxCommand _ _ _ => none

/-- The opcode table's word, numbered from its first byte's least significant bit, through the decoder. -/
def decodeTableWord (nbits w : Nat) : Option Instr :=
  match decodeBytes (bytesOfWord (BitVec.ofNat 96 (w % 2 ^ min nbits 96))) with
  | .ok i => some i
  | .error _ => none

end Sys2Proof
end

