-- ==== Sys2Proof/Config.lean ====
section
/-! DEFINITION. What the manual leaves open, as constants without a body: nothing can be proved of their values
beyond their types. -/

namespace Sys2Proof.Config

/-- Whether a firmware image carries a valid ML-DSA-65 signature by the vendor key whose hash is fused (R135, R517).
The key is the vendor's; log entry 20. -/
opaque imageSigned : List Byte → Bool
/-- The signed firmware manifest's list of SHAKE256 hashes (64 bytes each) of table images, taken from the image
(R420); its place in the image is not given, log entry 20. -/
opaque manifestHashes : List Byte → List (List Byte)
/-- POOLBANKS as the signed image states it (R518); log entry 20. -/
opaque imagePoolBanks : List Byte → Nat
/-- Whether the signed manifest lists the identity of a guest that presents this identity and measurement (R485). -/
opaque guestListed : List Byte → List Byte → List Byte → Bool
/-- Whether a guest's identity and measurement carry its valid ML-DSA-65 signature (R485); log entry 20. -/
opaque guestSigned : List Byte → List Byte → List Byte → Bool
/-- The module's ML-DSA-65 signature over an attestation report (R519): 3,309 bytes, by a key derived from fused
secrets; log entry 20. -/
opaque attestSign : List Byte → List Byte
/-- The fixed hash H of FLOW and DMOD that chooses an ordered flow's port (R437); log entry 21. -/
opaque flowHash : Nat → Nat → Nat
/-- The LBA size in bytes of an SSD namespace (R354), by namespace ID; the SSD's, log entry 34. -/
opaque lbaSize : Nat → Nat
/-- The largest transfer in bytes that an SSD takes (MDTS, R333), by PCIe requester ID; log entry 34. -/
opaque mdts : Nat → Nat
/-- A value the manual leaves open, one for each number drawn from `State.draws` (log entry 23). -/
opaque freeWord : Nat → BitVec 64
/-- What a die's L2 holds at a clock, by clock and die: logical pages above physical ones (R329, R521); which lines an L2 keeps
is not given, log entry 92. -/
opaque l2Held : Nat → Nat → Nat × Nat
/-- Whether the TARGET bit of a slot on another module is clear while its line is not here, by clock and target PC (R81): the
check is not awaited, log entry 93. -/
opaque farTarget : Nat → Nat → Bool
/-- Bytes of a job card's output area past OUTCNT after a failed stream (R337): old or stream bytes (log entry 24). -/
opaque tornByte : Nat → Byte → Byte

end Sys2Proof.Config
end

