-- ==== Sys2Proof/Machine/State.lean ====
section
/-! DEFINITION. The machine's state as plain data: everything the manual gives one module, the reasons a step can
stop, and the state right after reset. -/

namespace Sys2Proof.Machine

/-- A sparse table: keys strictly rising, one entry a key. -/
abbrev FMap (α : Type) := List (Nat × α)

/-- Memory: (location, byte) pairs, locations strictly rising, no entry 0 (an unlisted byte reads 0; log entry 2).
Every byte-addressed store of the module has its locations in this one list (`Machine/Mem.lean`). -/
abbrev Memory := List Host.Cell

/-- The reasons a step stops with a fault. -/
inductive Fault where
  /-- Raised by `exec` for an event row that names a core, quad, die or port the device does not have (R21): no such
  unit exists to take the step. Safe: the machine stops where no hardware step exists. -/
  | noSuchUnit
  deriving DecidableEq, Repr

/-- The reasons an instruction is refused. -/
inductive Refusal where
  /-- Raised by an arm of `exec` whose instruction has no meaning yet. Safe: nothing follows from it. -/
  | notModelled (mnemonic : String)
  deriving DecidableEq, Repr

/-! ### The lane engine -/

/-- The three states of a latch (R73). -/
inductive LatchState where
  | cleared | pending | valid
  deriving DecidableEq, Repr

/-- A bypass latch: its state, whether it holds 256 bits, its value and tag (R72, R73, R101). -/
structure Latch where
  st : LatchState
  wide : Bool
  val : Wide
  tag : FTag
  deriving DecidableEq, Repr

/-- A vector register with its tag (R95, R101). -/
structure VReg where
  val : Wide
  tag : FTag
  deriving DecidableEq, Repr

/-- A level of the loop nest (R147). -/
structure LoopLevel where
  start : Pc
  stop : Pc
  count : BitVec 32
  deriving DecidableEq, Repr

/-- A suspension: its code of R249, the saved operands A and B, the destination its completion writes, the kind (codes 0
and 3: 1 when the address is a carrel offset; code 5: 1 for a card; code 63: what the hold waits for), and whether its
instruction is the second of a pair, whose first slot the PC names. A hold (code 63) issues its instruction again.
`unit` and `count` name the issue and what it added to RETIRED, which a trap at a later test takes back (R234). -/
structure Wait where
  code : Nat
  a : Word
  b : Word
  dst : Dst
  var : Nat
  paired : Bool := false
  unit : Nat := 0
  count : Nat := 0
  deriving DecidableEq, Repr

/-- One piece of a load or RMW of another module (R452): the port and tag of its request, which element it fills, its
size in bytes, and the answer once it has come: its payload as a number, and the cause it carries (0: none). -/
structure PendPiece where
  port : Nat
  tag : BitVec 16
  idx : Nat
  size : Nat
  val : Option Nat
  fault : BitVec 8
  deriving DecidableEq, Repr

/-- A result that has not arrived (R73): its destination, latch, shape and pieces; `live` while its latch has not been
cleared since issue; `flag` the register bit that an LDK's saturation flag goes to (R214). -/
structure Pend where
  dst : Dst
  k : Nat
  live : Bool
  wide : Bool
  tag : FTag
  flag : Option (Reg × Nat)
  pieces : List PendPiece
  deriving DecidableEq, Repr

/-- An unacknowledged posted write of a thread (R452, R453): port, tag and 64-byte line; `lost` once it has been
declared lost (R449, R455). -/
structure Posted where
  port : Nat
  tag : BitVec 16
  line : Nat
  lost : Bool
  deriving DecidableEq, Repr

/-- The registers of a thread as they stood before a pair whose second member suspends it: a trap of that member at a later
test puts them back (R79). -/
structure Undo where
  g : FMap Word
  v : FMap VReg
  xv : Word
  fstat : BitVec 3
  eccRegs : List Reg
  deriving DecidableEq, Repr

/-- A thread (R136). `moved`: an abort has redirected it (R164); `latchKeep`: its latches were put back by TRET or a
restore and stand until its next issue (R75). -/
structure Thread where
  core : Nat
  wg : Nat
  quire : Nat
  lane : Nat
  pc : Pc
  g : FMap Word
  v : FMap VReg
  l0 : Latch
  l1 : Latch
  l2 : Latch
  l3 : Latch
  nest : List LoopLevel
  xv : Word
  srSeed : BitVec 32
  fstat : BitVec 3
  cfp : BitVec 13
  cqhdr : BitVec 14
  trapCause : BitVec 18
  trapPc : Pc
  trapAddr : Word
  trapVecPc : Pc
  trapVecEn : Bool
  trapFrame : BitVec 12
  hmode : Bool
  wait : Option Wait
  exited : Bool
  moved : Bool
  latchKeep : Bool
  pend : List Pend
  posted : List Posted
  eccRegs : List Reg
  eccLatches : List Nat
  undo : Option Undo
  deriving DecidableEq, Repr

/-- A participant of a transaction: its lane, nesting depth, the loop nest at its outermost TXBEG, whether it waits in
the outermost TXEND, and that TXEND's destination (R161, R163, R164). -/
structure TxPart where
  lane : Nat
  depth : Nat
  nest : List LoopLevel
  atEnd : Bool
  endDst : Dst
  deriving DecidableEq, Repr

/-- A transaction of a quire (R161 to R166), keyed by quire · 32 + its lowest lane: its log area, the outermost TXBEG's PC and destination, its participants,
the written bytes by location, the written lines with their ranges and the recorded read lines with their values. -/
structure Tx where
  logBase : Nat
  beg : Pc
  dst : Dst
  parts : List TxPart
  log : FMap Byte
  lines : FMap Nat
  reads : FMap (List Byte)
  deriving DecidableEq, Repr

/-- A named barrier (R158); `expected` 0 is unset. -/
structure NBar where
  phase : BitVec 16
  arrived : Nat
  expected : Nat
  deriving DecidableEq, Repr

/-- The roles of quires (R118). -/
inductive Role where
  | general | copy | matrix | epilogue
  deriving DecidableEq, Repr

/-- Where a workgroup stands. -/
inductive WgState where
  | running | stopped | saved | ended
  deriving DecidableEq, Repr

/-- A workgroup: its binding (die and slot), its linear index and coordinates, its core, its carrel region in units of
4 KiB, the gathering and the last path of each quire in deterministic mode, its roles and register budgets, watchdog, named barriers, transactions, deterministic-mode counts, and what
pre-emption keeps of it (R122 to R134, R156 to R161, R247, R248). -/
structure Workgroup where
  die : Nat
  slot : Nat
  w : Nat
  x : Nat
  y : Nat
  z : Nat
  core : Nat
  base : Nat
  units : Nat
  roles : List Role
  gcount : List Nat
  vcount : List Nat
  context : Nat
  asid : BitVec 16
  priv : Bool
  prio : Nat
  det : Bool
  turn : Nat
  detGath : FMap (List Nat)
  detPath : FMap Nat
  retired : Word
  wdogLimit : Nat
  wdog : Nat
  pbound : Nat
  nbars : FMap NBar
  txs : FMap Tx
  owner : Bool
  st : WgState
  cause : BitVec 8
  preempt : Bool
  preemptAt : Nat
  forced : Bool
  live : BitVec 24
  atPoint : List Nat
  area : BitVec 52
  leftCore : Nat
  order : Nat
  deriving DecidableEq, Repr

/-! ### The matrix engine and the catalog -/

/-- The row and column marks of an a-tile or a slip accumulator (R271, R287). -/
structure Marks where
  row : BitVec 128
  col : BitVec 128
  deriving DecidableEq, Repr

/-- What a place in a matrix engine's queue is for: an instruction, or a copy entry's accum access (R266, R325). -/
inductive MWork where
  | ins (i : Instr)
  | accum (quad : Nat) (ch : Nat) (hdr : Nat) (k : Nat)
  deriving DecidableEq, Repr

/-- An accepted matrix instruction (R293): the threads that issued it with a true guard, its operand values, the
issuing thread's xv registers, the pages translated at acceptance (virtual page, physical page, range), the words that
MEPI or MROUTE has read, the generation of the translations (R256), the tags of an MMA's operands (R298), and the cells it
will touch: first cell, number, and whether it writes them (R269). -/
structure MItem where
  work : MWork
  tids : List Nat
  a : Word
  b : Word
  c : Word
  xv : Word
  pages : List (Nat × Nat × Nat)
  words : List Word
  gen : BitVec 16 := 0
  tagA : FTag := 0
  tagB : FTag := 0
  touch : List (Nat × Nat × Bool) := []
  deriving DecidableEq, Repr

/-- A class 0x6 instruction that waits for acceptance (R293), with the operand values it read at issue. -/
structure MHeld where
  ins : Instr
  tids : List Nat
  a : Word
  b : Word
  c : Word
  deriving DecidableEq, Repr

/-- The states of a call slip (R282), drained with the flags of its conversion while its writes await their
acknowledgements (R284, R285, R456), and parked on a fault (R250); a slip that is done is no longer kept, and one whose
workgroup is saved stands still. `idx` is the replay record index of its fault record, a free value (log entry 23). -/
inductive SlipState where
  | waiting | queued | running (core : Nat) | drained (core : Nat) (flags : BitVec 3)
  | parked (cause : BitVec 8) (addr : Word) (idx : Word)
  deriving DecidableEq, Repr

/-- The place of a ring's header: in a core's carrel, or global memory of a context (R29). -/
inductive RingLoc where
  | carrel (core : Nat) (off : Nat)
  | global (context : Nat) (va : Word)
  deriving DecidableEq, Repr

/-- What an engine keeps of a ring it serves (R29 to R32): its place, the workgroup (copy rings and chains), the
entries completed but not yet passed by ACC, and whether the ring is faulted. -/
structure Ring where
  loc : RingLoc
  wg : Nat
  done : List Nat
  faulted : Bool
  deriving DecidableEq, Repr

/-- A call slip that a scheduler has read in (R281, R308). -/
structure Slip where
  ring : RingLoc
  k : Nat
  words : List Word
  wg : Nat
  st : SlipState
  step : Nat
  deriving DecidableEq, Repr

/-- A matrix engine (R265 to R291, R304, R307): its queue, the held instructions, t-tile tags, error flags (tile 0 to 15
t, 16 to 23 a), a-tile marks (8: the slip accumulator), the epilogue configuration and the routing register as loaded,
the fill-source records, the folio's row tags and the rows that are not poisoned, the engine's catalog, and for each
DRAINING entry the slips published before its MDRAIN.free that name it and have not completed (R278). -/
structure Matrix where
  queue : List MItem
  held : List MHeld
  ttag : FMap FTag
  err : List Nat
  marks : FMap Marks
  epi : List Word
  route : List Word
  fills : FMap (List Word)
  rowTag : FMap FTag
  rowGood : List Nat
  catalog : FMap Word
  drains : FMap (List (RingLoc × Nat))
  deriving DecidableEq, Repr

/-- A core: the current gathering, the round-robin pointers of R140, the fused pairs of quires with their program counter
(R143), the clock gate and the events that reached it
while gated (event, quire, detail; R153 to R155), WAKE_WHY, RETIRED (R234), its instruction cache by line,
its matrix engine, and the bind slot whose request for a pre-emption an exit may still meet (R132). -/
structure Core where
  gath : List Nat
  rrQuire : Nat
  rrPath : FMap Nat
  fused : List (Nat × Nat × Pc)
  gated : Bool
  events : List (Nat × Nat × Word)
  wakeWhy : Word
  retired : Word
  icache : FMap (List Byte)
  mx : Matrix
  requester : Option Nat := none
  deriving DecidableEq, Repr

/-! ### The quad's task scheduler and copy engine -/

/-- A named task: its dependence counter and UNDERRUN (R35). -/
structure Task where
  count : BitVec 16
  under : Bool
  deriving DecidableEq, Repr

/-- An operation on its way to a task scheduler, in arrival order (R35, R350). -/
inductive TaskMsg where
  | dec (task : Nat)
  | set (task : Nat) (value : BitVec 16) (tid : Nat)
  deriving DecidableEq, Repr

/-- The states of a copy entry in a channel (R250, R321); one whose workgroup is saved stands still. -/
inductive RunState where
  | queued | running | parked (cause : BitVec 8) (sub : BitVec 8) (addr : Word) (idx : Word)
  | finished (cause : BitVec 8) (sub : BitVec 8)
  deriving DecidableEq, Repr

/-- A copy entry that the engine has read in (R321, R344): its ring, number and words, the publishing core and
workgroup, the first chunk not yet complete and the bytes before it, the cores whose catalog tile it has bound, whether
it wrote poison to the host, and the a-tiles or folio rows that received poison. -/
structure CopyRun where
  hdr : Nat
  core : Nat
  wg : Nat
  k : Nat
  words : List Word
  chunk : Nat
  pos : Nat
  st : RunState
  bound : List Nat
  poison : Bool
  sour : List Nat
  deriving DecidableEq, Repr

/-- A quad's task scheduler and copy engine (R28). `flags`: the conversion flags that the last slip to complete has reported
(R285; the manual gives them no register, and nothing reads them). -/
structure Quad where
  tasks : FMap Task
  msgs : List TaskMsg
  chains : List Ring
  rrChain : Nat
  slips : List Slip
  rings : List Ring
  rrRing : Nat
  chans : FMap (List CopyRun)
  flags : BitVec 3 := 0
  deriving DecidableEq, Repr

/-! ### The die's engines -/

/-- A registered launch queue: its header's physical address and whether the dispatcher has halted it (R114, R117). -/
structure LaunchQueue where
  hdr : Nat
  halted : Bool
  deriving DecidableEq, Repr

/-- A consumed launch record that the management core has not bound yet: its address, queue and words. -/
structure LaunchRec where
  pa : Nat
  queue : Nat
  words : List Word
  deriving DecidableEq, Repr

/-- A bind slot (R122): the record's words, the launch record, whether a queue of this die gave it, AGE, the die's remaining
share, whether the binding has completed, whether its launch was refused at placement (R510), the dies that have
answered STEAL_NONE, the tag of an outstanding request, the waiting workgroups that have triggered a pre-emption
(R129), the addresses of other modules' sketch regions that its threads have inserted into (R385), and whether the completion
word has been written (R121). -/
structure BindSlot where
  words : List Word
  launch : List Word
  homeQueue : Bool
  age : Nat
  share : List Nat
  completed : Bool
  refused : Bool
  noneFrom : List Nat
  stealTag : Option Nat
  preemptsFor : List Nat
  farUses : List Nat := []
  worded : Bool := false
  deriving DecidableEq, Repr

/-- A message of work stealing that is on its way (R126). -/
inductive StealMsg where
  | give (slot : Nat) (tag : Nat) (ws : List Nat)
  | none (slot : Nat) (tag : Nat) (victim : Nat)
  deriving DecidableEq, Repr

/-- An NVMe I/O queue pair (R331, R525); `past`: the number, ESTAT and words of completed requests that a chained card can still
name (R358). -/
structure QueuePair where
  context : Nat
  nsid : BitVec 32
  depth : Nat
  timeout : Nat
  requester : BitVec 16
  ring : Ring
  past : List (Nat × Nat × List Word)
  deriving DecidableEq, Repr

/-- The states of a request or a card; `running`: its wait is over and it has not been submitted or finished; `ending`: its
outcome is known, `sent` once its completion record has been written, and what it has written to other modules awaits its
acknowledgements (R356, R456). -/
inductive JobState where
  | waiting | submitted | running | ending (sent : Bool) (record : List Word) | parked (cause : BitVec 8) (addr : Word) (idx : Word)
  deriving DecidableEq, Repr

/-- A request the storage engine has read in (R353): its pair, number, words, the command identifier, the submission
queue entry's 16 doublewords as composed (R354), whether poison was served to the SSD (R259), and the PRP list: the pages of
its buffer after the first (R332). -/
structure NvReq where
  pair : Nat
  k : Nat
  words : List Word
  cid : Nat
  sqe : List (BitVec 32)
  st : JobState
  poison : Bool
  prp : List Nat := []
  deriving DecidableEq, Repr

/-- A job card ring bound to the die (R525). -/
structure CardRing where
  context : Nat
  ring : Ring
  deriving DecidableEq, Repr

/-- A job card the storage engine has read in (R357). `input`: its input's address and length and whether it is good, none
while a chained Read has not completed (R339). -/
structure Card where
  ring : Nat
  k : Nat
  words : List Word
  st : JobState
  input : Option (Nat × Nat × Bool)
  deriving DecidableEq, Repr

/-- A collective plan slot (R462, R463): its context, the header's words, rank table (module, die) and signal table
(address, its home location, task), the kept descriptor of a COLLATE plan, PCHK, the pages of the pinned result region
(virtual page, physical page, range), and the chunks whose result was written before a send of this rank named them. -/
structure Plan where
  context : Nat
  asid : BitVec 16
  words : List Word
  ranks : List (Nat × Nat)
  sigs : List (Word × Nat × BitVec 14)
  desc : List Word
  pchk : BitVec 16
  pages : List (Nat × Nat × Nat)
  early : List Nat
  deriving DecidableEq, Repr

/-- Where a contribution comes from: CLSEND's source with its pages, a routed tile's chunks as copied at acceptance, a region
slot, or nothing (COPY away from ROOT). -/
inductive SendSrc where
  | memory (va : Word) (pages : List (Nat × Nat × Nat))
  | tile (chunks : List (List (BitVec 32)))
  | region (slot : Nat)
  | none
  deriving DecidableEq, Repr

/-- A send of a collective unit (R473 to R477): the plan, its context, ID and the ID's generation (R256), first chunk, count, its tasks, whether it has started, the chunks
not yet contributed, the chunks whose completion it waits for, whether it can never complete (R469, R479), and the
result chunks of a COLLATE gathered at ROOT. -/
structure Send where
  id : Nat
  plan : Nat
  context : Nat
  asid : BitVec 16
  gen : BitVec 16
  first : Nat
  count : Nat
  src : SendSrc
  wait : Option (BitVec 14)
  task : Option (BitVec 14)
  started : Bool
  todo : List Nat
  left : List Nat
  dead : Bool
  got : FMap (List Wide)
  deriving DecidableEq, Repr

/-- An operand that waits at a node of the tree for its other side (R464, R467): plan, chunk, the node's split, its side,
payload and remaining route, oldest first. -/
structure Operand where
  plan : Nat
  chunk : Nat
  split : Nat
  left : Bool
  payload : List Wide
  route : List Nat
  deriving DecidableEq, Repr

/-- A die's collective unit (R462 to R479): plans, sends, held operands, the nodes (plan, split) at which a saturating cell
has set CLIPPED for the closing chunk, and the packets that units of the module have sent it. -/
structure Collective where
  plans : FMap Plan
  sends : List Send
  nextSend : Nat
  operands : List Operand
  clips : List (Nat × Nat)
  inbox : List (Packet × Nat × Nat)
  deriving DecidableEq, Repr

/-- A management mailbox (R523, R524): MBCMD0 to MBCMD7, MBDOOR's SEQ, MBSTAT, and the command whose doorbell has been
taken and which has not completed, with its issuer. -/
structure Mailbox where
  cmd : List Word
  door : BitVec 16
  stat : Word
  pending : Option (BitVec 16 × Issuer)
  deriving DecidableEq, Repr

/-- A die (R28). `bindCause`: what the mailbox returned for the last bind record, 0 for none (R123). -/
structure Die where
  queues : FMap LaunchQueue
  consumed : List LaunchRec
  slots : FMap BindSlot
  rr : FMap Nat
  steal : List StealMsg
  nextTag : Nat
  pairs : FMap QueuePair
  reqs : List NvReq
  nextCid : Nat
  cardRings : FMap CardRing
  cards : List Card
  coll : Collective
  trimBase : Word
  mbox : Mailbox
  modid : BitVec 11
  bootstat : BitVec 16
  l2cap : Word
  predictor : FMap Nat
  notices : List (Nat × Nat × Nat)
  bindCause : BitVec 8 := 0
  deriving DecidableEq, Repr

/-! ### Package-wide state -/

/-- An address space: its root table (none until ASSET writes it) and its generation (R253). -/
structure AddrSpace where
  root : Option Nat
  gen : BitVec 16
  deriving DecidableEq, Repr

/-- A translation cache entry (R256): ID, generation, page base, level of the leaf and the leaf. -/
structure TlbEntry where
  asid : BitVec 16
  gen : BitVec 16
  base : Nat
  level : Nat
  leaf : Word
  deriving DecidableEq, Repr

/-- A loaded protocol table (R417): states minus 1, permissions, the 128 entries, and the image's SHAKE256 hash. -/
structure Table where
  nsm1 : Nat
  perm : BitVec 16
  entries : List (BitVec 32)
  hash : List Byte
  deriving DecidableEq, Repr

/-- The concordance controllers (R414 to R436): range descriptors, table slots, the state of each line at each holder
(key: holder · 2^46 + line), the frozen lines, the directories' entries (key: the region's number, which fixes its home die;
value: the 66-bit sharer vector) and the sharer filters' (key: quad · 2^46 + line; value: the mask of the quad's cores).
Holders: cores 0 to 255, 256 the guest (G), 257 the host (H), 258 to 261 the partials of dies 0 to 3. -/
structure Coherence where
  ranges : FMap Word
  tables : FMap Table
  lines : FMap Nat
  frozen : List Nat
  dir : FMap (BitVec 66) := []
  filters : FMap (BitVec 4) := []
  deriving DecidableEq, Repr

/-- The state of one partial, of a collated state or of a sealed image (R371, R379, R387), and the counters that a sum past
their maximum has made stick (R376, R378). -/
structure SkState where
  cells : FMap Nat
  n : Word
  fill : Word
  under : Bool
  clipped : Bool
  sat : Bool
  stuck : FMap Bool := []
  deriving DecidableEq, Repr

/-- A sketch region (R369 to R372): its owner, base, address range, descriptor fields, the pages it lies on, its partials by
die, whether a collated state of it has been saturated since it was cleared (R379), the image while sealed, and the
bindings that inserted into it (R385). -/
structure Region where
  context : Nat
  asid : BitVec 16
  base : Word
  home : Nat
  range : Nat
  pages : List (Nat × Nat)
  kind : Nat
  cnt : Bool
  l0 : Nat
  lcur : Nat
  km1 : Nat
  stv : Bool
  stask : BitVec 14
  thresh : BitVec 32
  seed0 : Word
  seed1 : Word
  isSealed : Bool
  csat : Bool
  parts : FMap SkState
  image : SkState
  users : List (Nat × Nat)
  deriving DecidableEq, Repr

/-- Who sent a packet that a port keeps (R446, R449): a thread, a copy entry of a quad (the ring of core · 2^20 + header, and
its number), a slip (its chain and number), a request or a card of a die (pair or ring, and number), an engine's reading of
a ring header or of a launch record, a collective send of a die, the response to a request, the annex guest, or a
service message. -/
inductive Owner where
  | thread (tid : Nat)
  | copy (quad : Nat) (hdr : Nat) (k : Nat)
  | slip (ring : RingLoc) (k : Nat)
  | request (die : Nat) (pair : Nat) (k : Nat)
  | card (die : Nat) (ring : Nat) (k : Nat)
  | header (unit : Nat) (ring : RingLoc)
  | send (die : Nat) (id : Nat)
  | packet (queue : Nat) (k : Nat)
  | response
  | guest (n : Nat)
  | service
  deriving DecidableEq, Repr

/-- A packet in a retransmit buffer, or a request without payload that awaits its answer, with its context, the generation
of the context's ID as it left (R256), and the clock of its last departure (R446, R449). -/
structure Kept where
  pkt : Packet
  owner : Owner
  context : Nat
  gen : BitVec 16
  resends : Nat
  since : Nat
  deriving DecidableEq, Repr

/-- A stub whose recall is due (R447): the packet's header, the due time in fabric cycles, and PAIRGAP as it stood when the
stub arrived (R461). -/
structure Stub where
  pkt : Packet
  due : Nat
  gap : Nat
  deriving DecidableEq, Repr

/-- An ordered flow at its destination (R451), keyed by source module, port and FLOW: the next expected SEQ, and the held
packets by SEQ. -/
structure Flow where
  key : Nat
  expect : BitVec 16
  window : FMap Packet
  deriving DecidableEq, Repr

/-- A Galius Link port (R437 to R461): whether it trained, its retransmit buffer, the data queue, trim counters by class,
class weights, due recalls, the last recall time by source port, the next TAG and SEQ of each flow it sends, and where its
deficit round-robin stands: the class whose turn it is, and what each class has left (R460). -/
structure Port where
  up : Bool
  kept : List Kept
  dataQ : List Packet
  trims : FMap (BitVec 48)
  weights : List Nat
  stubs : List Stub
  lastRecall : FMap Nat
  nextTag : BitVec 16
  nextSeq : FMap (BitVec 16)
  linkErrors : Nat
  turn : Nat := 0
  deficits : List Nat := [0, 0, 0, 0, 0, 0, 0, 0]
  deriving DecidableEq, Repr

/-- A read that an engine has sent to another module (R438, R439): who needs it, its first sector and their number, the
port and tag of the request, and the answer once it has come: its flits, whether they are poisoned, and the cause it
carries (0: none). -/
structure Ask where
  owner : Owner
  pa : Nat
  sectors : Nat
  port : Nat
  tag : BitVec 16
  val : Option (List Wide)
  poisoned : Bool
  fault : BitVec 8
  deriving DecidableEq, Repr

/-- The fabric engine of the module: its ports, recall pacing (R461), the ordered flows it receives (R451), the TAGs of the
last 4,096 writes applied from each source port (R449), the engines' reads of other modules, and the packets that have
left the module. -/
structure Fabric where
  ports : FMap Port
  pairGap : Nat
  base : Nat
  cap : Nat
  flows : List Flow
  applied : FMap (List (BitVec 16))
  asks : List Ask
  out : List Packet
  deriving DecidableEq, Repr

/-- The annex port's condition (R484, R485, R494). -/
inductive AnnexState where
  | untrained | closed | opened | fenced
  deriving DecidableEq, Repr

/-- A packet that the guest has fetched, or that the port completes, until it is over (R487, R488, R493), with the clock of
the fetch; `st` is `running` until its outcome is known, and `behind` counts the guest's posted writes that its completion
waits for (R492). -/
structure AxPacket where
  queue : Nat
  k : Nat
  words : List Word
  parked : Bool
  since : Nat
  st : JobState := .running
  behind : Nat := 0
  deriving DecidableEq, Repr

/-- A translation that the guest holds (R489, R491): ID, generation, page, size, address range, and whether it may write. -/
structure AxGrant where
  asid : BitVec 16
  gen : BitVec 16
  pa : Nat
  size : Nat
  range : Nat
  w : Bool
  deriving DecidableEq, Repr

/-- An annex queue (R486, R525): its context, ring, windows (base, length, writes allowed), and the last entry that the guest
has been told of. -/
structure AxQueue where
  context : Nat
  ring : Ring
  windows : List (Nat × Nat × Bool)
  known : BitVec 48
  deriving DecidableEq, Repr

/-- A control message that the port sends to the guest (R490). -/
inductive GuestOut where
  | doorbell (queue : Nat) (pub : BitVec 48)
  | translation (asid gen : BitVec 16) (va : Word) (pa : BitVec 52) (page : Nat) (rd w : Bool)
  | refusal (asid gen : BitVec 16) (va : Word) (cause : BitVec 8)
  | inval (asid gen : BitVec 16)
  | resume (context : Nat)
  | packet (queue : Nat) (k : Nat) (words : List Word)
  | data (pa : BitVec 52) (bytes : List Byte) (poisoned : Bool)
  deriving DecidableEq, Repr

/-- The annex port (R484 to R499). `inval` holds each INVAL not yet acknowledged, with the clock of its departure; `sent`
numbers the guest's writes to other modules; `reads` holds the addresses and ranges of the guest's reads of other modules
that await their data. -/
structure Annex where
  st : AnnexState
  modules : BitVec 8
  identity : List Byte
  measurement : List Byte
  queues : FMap AxQueue
  packets : List AxPacket
  inval : List (BitVec 16 × BitVec 16 × Nat)
  granted : List AxGrant
  out : List GuestOut
  sent : Nat := 0
  reads : List (Nat × Nat) := []
  deriving DecidableEq, Repr

/-- A context (R525): its ID, grants and fault ring (base, log size, control pair; R252). -/
structure Context where
  asid : BitVec 16
  priv : Bool
  det : Bool
  ringBase : Nat
  logn : Nat
  ctl : Nat
  deriving DecidableEq, Repr

/-- The module (R512 to R522): the rails that are up, dies held in reset, the firmware image that runs and the one to
take effect at the next reset, recovery, POOLBANKS, host link facts, throttling, the interrupts raised to the host, where the
module's physical memory map places stacks die 0 (log entry 7), and the data that has left for the host side: who asked, the
address, the bytes, and whether they are marked poisoned (R259). -/
structure Module where
  rails : List Rail
  held : Bool
  booted : Bool
  image : List Byte
  nextImage : List Byte
  recovery : Bool
  poolBanks : Nat
  cxl31 : Bool
  die2Pcie : Bool
  throttled : Bool
  msi : List Nat
  hostError : Bool
  stacksPa : Nat
  replies : List (HostParty × Nat × List Byte × Bool) := []
  deriving DecidableEq, Repr

/-! ### The step's own data -/

/-- One turn of the schedule: an event row's step, or an issue by a core. -/
inductive Turn where
  | event (i : Instr)
  | issue (core : Nat)
  deriving DecidableEq, Repr

/-- What a trap reports (R243); SUB and ADDR are none where the manual states none (log entry 10). -/
structure TrapInfo where
  cause : BitVec 8
  sub : Option (BitVec 8)
  addr : Option Word
  decode : Bool
  second : Bool
  pc : Option Pc
  resume : Option Pc
  deriving DecidableEq, Repr

/-- The place of an instruction in its issue unit: alone, or the first or second member of a pair (R78, R79). -/
inductive Member where
  | single | first | second
  deriving DecidableEq, Repr

/-- The issue in progress: the member, the traps the unit's threads have met, whether it stalls on a pending result
(R73), the hold that suspends its gathering (R249), the threads that the first member suspends, and the gathering as the
unit's issue began, which an abort of its first member does not change (R146). A stalled or held unit has no effect and
issues again. -/
structure Issue where
  member : Member
  traps : List (Nat × TrapInfo)
  stall : Bool
  hold : Option Wait
  waits : List (Nat × Wait) := []
  group : List Nat := []
  deriving DecidableEq, Repr

/-- The state of the module. Under `quads`, the numbers 0 to 63 are the quads, and 64 + k is what the engines of a quad hold
of the saved workgroup k (R131, R251). -/
structure State where
  schedule : List Turn
  delays : List Nat
  clock : Nat
  cur : Nat
  issue : Issue
  draws : Nat
  mem : Memory
  poison : List Nat
  threads : FMap Thread
  wgs : FMap Workgroup
  nextWg : Nat
  cores : FMap Core
  quads : FMap Quad
  dies : FMap Die
  spaces : FMap AddrSpace
  tlb : List TlbEntry
  coh : Coherence
  regions : FMap Region
  fabric : Fabric
  annex : Annex
  contexts : FMap Context
  module : Module
  deriving DecidableEq, Repr

/-! ### Reset -/

/-- A cleared latch (R73). -/
def Latch.reset : Latch := ⟨.cleared, false, 0, 0⟩

/-- A matrix engine as an owner finds it (R270). -/
def Matrix.reset : Matrix :=
  { queue := [], held := [], ttag := [], err := [], marks := [], epi := List.replicate 8 0,
    route := List.replicate 8 0, fills := [], rowTag := [], rowGood := [], catalog := [], drains := [] }

/-- A core that holds no workgroup (R153: it is clock-gated). -/
def Core.reset : Core :=
  { gath := [], rrQuire := 0, rrPath := [], fused := [], gated := true, events := [], wakeWhy := 0, retired := 0,
    icache := [], mx := Matrix.reset }

/-- A quad's engines at reset. -/
def Quad.reset : Quad :=
  { tasks := [], msgs := [], chains := [], rrChain := 0, slips := [], rings := [], rrRing := 0, chans := [] }

/-- A mailbox at reset (R523). -/
def Mailbox.reset : Mailbox := { cmd := List.replicate 8 0, door := 0, stat := 0, pending := none }

/-- A die at reset: TRIM_BASE as R444 gives it, everything else zero or empty. -/
def Die.reset : Die :=
  { queues := [], consumed := [], slots := [], rr := [], steal := [], nextTag := 0, pairs := [], reqs := [],
    nextCid := 0, cardRings := [], cards := [],
    coll := { plans := [], sends := [], nextSend := 0, operands := [], clips := [], inbox := [] },
    trimBase := 0x6060606060606060, mbox := Mailbox.reset, modid := 0, bootstat := 0, l2cap := 0,
    predictor := [], notices := [] }

/-- A port at reset: the weights of R460 for classes 0 to 7. -/
def Port.reset : Port :=
  { up := false, kept := [], dataQ := [], trims := [], weights := [8, 16, 16, 0, 0, 8, 8, 8], stubs := [],
    lastRecall := [], nextTag := 0, nextSeq := [], linkErrors := 0 }

/-- A task at reset (log entry 5). -/
def Task.reset : Task := ⟨0, false⟩

/-- An address space that ASSET has never written (R253). -/
def AddrSpace.reset : AddrSpace := ⟨none, 0⟩

/-- An empty sketch state. -/
def SkState.reset : SkState := ⟨[], 0, 0, false, false, false, []⟩

/-- The module right after reset: rails up and no boot step done, no context, no workgroup, range 0 bound to slot 0
(R414), recall pacing of R461. -/
def State.reset : State :=
  { schedule := [], delays := [], clock := 0, cur := 0,
    issue := { member := .single, traps := [], stall := false, hold := none }, draws := 0,
    mem := [], poison := [], threads := [], wgs := [], nextWg := 0, cores := [], quads := [], dies := [],
    spaces := [], tlb := [],
    coh := { ranges := [(0, 0x80)], tables := [], lines := [], frozen := [] },
    regions := [],
    fabric := { ports := [], pairGap := 32, base := 8, cap := 16, flows := [], applied := [], asks := [], out := [] },
    annex := { st := .untrained, modules := 0, identity := [], measurement := [], queues := [], packets := [],
               inval := [], granted := [], out := [] },
    contexts := [],
    module := { rails := [.vaux, .vio, .vsram, .vcore, .vddq], held := false, booted := false, image := [],
                nextImage := [], recovery := false, poolBanks := 0, cxl31 := false, die2Pcie := false,
                throttled := false, msi := [], hostError := false, stacksPa := 0x3F000000000 } }

end Sys2Proof.Machine
end

