-- ==== Sys2Proof/Machine/Mem.lean ====
section
/-! DEFINITION. Sparse tables, memory as bytes, and where each byte-addressed store of the module lies in it. -/

namespace Sys2Proof.Machine

/-! ### Sparse tables -/

/-- The entry of a key. -/
def tget {α : Type} (m : FMap α) (k : Nat) : Option α :=
  match m with
  | [] => none
  | (j, a) :: rest => if j == k then some a else tget rest k

/-- The entry of a key, or the value an absent entry stands for. -/
def tgetD {α : Type} (m : FMap α) (k : Nat) (d : α) : α :=
  match tget m k with
  | some a => a
  | none => d

/-- Sets an entry, keeping the keys in rising order. -/
def tset {α : Type} (m : FMap α) (k : Nat) (a : α) : FMap α :=
  match m with
  | [] => [(k, a)]
  | (j, b) :: rest => if j == k then (k, a) :: rest else if k < j then (k, a) :: (j, b) :: rest else (j, b) :: tset rest k a

/-- Removes an entry. -/
def tdel {α : Type} (m : FMap α) (k : Nat) : FMap α :=
  match m with
  | [] => []
  | (j, b) :: rest => if j == k then rest else (j, b) :: tdel rest k

/-- The keys of a table. -/
def tkeys {α : Type} (m : FMap α) : List Nat := m.map Prod.fst

/-! ### Memory -/

/-- What an unlisted byte reads as (log entry 2: DESIGN CHOICE, the manual gives no contents after power-up). -/
def Memory.blank : Byte := 0

/-- One byte. -/
def Memory.get (m : Memory) (a : Nat) : Byte :=
  match m with
  | [] => Memory.blank
  | (j, b) :: rest => if j == a then b else Memory.get rest a

/-- Writes one byte, keeping the canonical form. -/
def Memory.set (m : Memory) (a : Nat) (v : Byte) : Memory :=
  match m with
  | [] => if v == Memory.blank then [] else [(a, v)]
  | (j, b) :: rest =>
    if j == a then (if v == Memory.blank then rest else (a, v) :: rest)
    else if a < j then (if v == Memory.blank then (j, b) :: rest else (a, v) :: (j, b) :: rest)
    else (j, b) :: Memory.set rest a v

/-- Every location is above k, the locations rise, and no entry is blank. -/
def Memory.wfFrom (m : Memory) (k : Nat) : Bool :=
  match m with
  | [] => true
  | (a, b) :: rest => k ≤ a && b != Memory.blank && Memory.wfFrom rest (a + 1)

/-- The canonical form: locations strictly rising, no entry equal to what an unlisted location reads as. -/
def Memory.wf (m : Memory) : Bool := Memory.wfFrom m 0

/-- Writes bytes at rising locations. -/
def Memory.setList (m : Memory) (a : Nat) (bs : List Byte) : Memory :=
  match bs with
  | [] => m
  | b :: rest => Memory.setList (Memory.set m a b) (a + 1) rest

/-- Reads n bytes at rising locations. -/
def Memory.getList (m : Memory) (a n : Nat) : List Byte := (List.range n).map fun i => Memory.get m (a + i)

/-! ### Little-endian values (R3) -/

/-- The value of bytes, the first least significant. -/
def leNat (bs : List Byte) : Nat :=
  match bs with
  | [] => 0
  | b :: rest => b.toNat + 256 * leNat rest

/-- The n low bytes of a value, least significant first. -/
def leBytes (n v : Nat) : List Byte := (List.range n).map fun i => BitVec.ofNat 8 (v / 2 ^ (8 * i))

/-! ### Where each store lies (R24 to R28)

Physical addresses stand for themselves, below 2^52. -/

/-- Byte `off` of core c's carrel. -/
def carrelLoc (c off : Nat) : Nat := 2 ^ 60 + c * 2 ^ 20 + off

/-- Byte `off` of the accum space of core c: a-tile [18:16], byte [15:0]. -/
def accumLoc (c off : Nat) : Nat := 2 * 2 ^ 60 + c * 2 ^ 20 + off

/-- Byte `off` of t-tile n of core c: 8 KiB of rows, then the 2 KiB side array (R98). -/
def ttileLoc (c n off : Nat) : Nat := 3 * 2 ^ 60 + c * 2 ^ 20 + n * 10240 + off

/-- Byte `off` of core c's folio slice. -/
def folioLoc (c off : Nat) : Nat := 4 * 2 ^ 60 + c * 2 ^ 22 + off

/-- Byte `off` of the slip accumulator of core c (R282). -/
def slipLoc (c off : Nat) : Nat := 5 * 2 ^ 60 + c * 2 ^ 20 + off

/-- Byte `off` of die d's stacks. -/
def stacksLoc (d off : Nat) : Nat := 6 * 2 ^ 60 + d * 2 ^ 31 + off

/-- Byte `a` of the host bus space. -/
def hostLoc (a : Nat) : Nat := 7 * 2 ^ 60 + a

/-- Byte `off` of die d's MBDATA (R523). -/
def mbdataLoc (d off : Nat) : Nat := 8 * 2 ^ 60 + d * 2 ^ 13 + off

/-- Where the module's engine keeps what it knows of a ring header of another module (R29): the header's bytes as it last
read them, with the TAKEN and ACC that it has written since. -/
def shadowLoc (pa : Nat) : Nat := 16 * 2 ^ 60 + pa

/-- Bytes of a die's stacks (R25). -/
def stacksBytes : Nat := 0x60000000

/-- Bytes of a carrel (R25). -/
def carrelBytes : Nat := 0xC0000

/-- Bytes of a core's folio slice (R25). -/
def folioBytes : Nat := 0x300000

/-- The cell of a physical address: the stacks where the page is backed by them (R27), else itself. -/
def paLoc (s : State) (pa : Nat) : Nat :=
  let off := pa % 2 ^ 42
  if s.module.stacksPa ≤ off && off < s.module.stacksPa + 4 * 2 ^ 31 then
    stacksLoc ((off - s.module.stacksPa) / 2 ^ 31) ((off - s.module.stacksPa) % 2 ^ 31)
  else pa

/-! ### Reading and writing cells -/

/-- The sector of a location. -/
def sectorOf (l : Nat) : Nat := l / 32

/-- The sectors that n bytes from a location touch. -/
def sectorsOf (l n : Nat) : List Nat :=
  if n == 0 then [] else (List.range ((l + n - 1) / 32 - l / 32 + 1)).map fun i => l / 32 + i

/-- Whether one of n bytes lies in a poisoned sector (R207). -/
def poisoned (s : State) (l n : Nat) : Bool := (sectorsOf l n).any s.poison.contains

/-- Marks a sector. -/
def addPoison (s : State) (sec : Nat) : State :=
  if s.poison.contains sec then s else { s with poison := sec :: s.poison }

/-- Reads n bytes. -/
def readBytes (s : State) (l n : Nat) : List Byte := Memory.getList s.mem l n

/-- Reads an n-byte little-endian value. -/
def readNat (s : State) (l n : Nat) : Nat := leNat (readBytes s l n)

/-- Writes bytes; a sector written whole loses its poison, one written in part keeps it (R207). -/
def writeBytes (s : State) (l : Nat) (bs : List Byte) : State :=
  { s with
    mem := Memory.setList s.mem l bs
    poison := s.poison.filter fun sec => !(l ≤ 32 * sec && 32 * sec + 32 ≤ l + bs.length) }

/-- Writes the low n bytes of a value. -/
def writeNat (s : State) (l n v : Nat) : State := writeBytes s l (leBytes n v)

/-- Writes a doubleword. -/
def writeWord (s : State) (l : Nat) (v : Nat) : State := writeNat s l 8 v

/-- Reads a doubleword. -/
def readWord (s : State) (l : Nat) : Nat := readNat s l 8

/-! ### Bit fields -/

/-- Bits [hi:lo] of a number. -/
def bits (v hi lo : Nat) : Nat := v / 2 ^ lo % 2 ^ (hi + 1 - lo)

/-- One bit of a number. -/
def bit (v n : Nat) : Bool := v / 2 ^ n % 2 == 1

/-- The signed value of the low w bits. -/
def toSigned (w v : Nat) : Int := if v % 2 ^ w < 2 ^ (w - 1) then (v % 2 ^ w : Int) else (v % 2 ^ w : Int) - 2 ^ w

/-- A count is at or after another: their difference, as a signed w-bit value, is not negative (R33, R160). -/
def atOrAfter (w a b : Nat) : Bool := (a + 2 ^ w - b % 2 ^ w) % 2 ^ w < 2 ^ (w - 1)

end Sys2Proof.Machine
end

