-- ==== Sys2Proof/Machine/Numbers.lean ====
section
/-! DEFINITION. Number formats: exact values, decoding, rounding and encoding (R92 to R113), and the exact arithmetic
of class 0x1. -/

namespace Sys2Proof.Machine

/-- An exact value: NaN (signalling or not), an infinity, or ±m·2^e; m = 0 is a signed zero. -/
inductive Num where
  | nan (signalling : Bool)
  | inf (neg : Bool)
  | fin (neg : Bool) (m : Nat) (e : Int)
  deriving DecidableEq, Repr

/-- The bits of the fields of FSTAT (R110). -/
def flagNanLost : BitVec 3 := 1
def flagCvtSat : BitVec 3 := 2
def flagInvalid : BitVec 3 := 4

/-! ### The elementary float formats (R92) -/

/-- Mantissa bits, exponent bits and bias. -/
structure FloatShape where
  man : Nat
  exp : Nat
  bias : Nat
  deriving DecidableEq, Repr

/-- The layout of a float format (R92); block-scaled formats give their element's. -/
def floatShape : Fmt → FloatShape
  | .f64 => ⟨52, 11, 1023⟩
  | .f32 => ⟨23, 8, 127⟩
  | .f16 => ⟨10, 5, 15⟩
  | .bf16 => ⟨7, 8, 127⟩
  | .f8e4 | .f8e4bs => ⟨3, 4, 7⟩
  | .f8e5 | .f8e5bs => ⟨2, 5, 15⟩
  | .f6e3 => ⟨2, 3, 3⟩
  | _ => ⟨1, 2, 1⟩

/-- A float format of R92, f4x included. -/
def isFloat : Fmt → Bool
  | .f64 | .f32 | .f16 | .bf16 | .f8e4 | .f8e5 | .f6e3 | .f4 | .f4x | .f4bs | .f8e4bs | .f8e5bs => true
  | _ => false

/-- The formats that have infinities (R93). -/
def hasInf (t : Fmt) : Bool := isF t

/-- The formats that have NaN codes (R92). -/
def hasNan : Fmt → Bool
  | .f64 | .f32 | .f16 | .bf16 | .f8e4 | .f8e5 | .f8e4bs | .f8e5bs => true
  | _ => false

/-- The canonical NaN (R92). -/
def canonNan : Fmt → Nat
  | .f64 => 0x7FF8000000000000
  | .f32 => 0x7FC00000
  | .f16 => 0x7E00
  | .bf16 => 0x7FC0
  | _ => 0x7F

/-- The code of the largest finite value (R92). -/
def maxCode : Fmt → Nat
  | .f64 => 0x7FEFFFFFFFFFFFFF
  | .f32 => 0x7F7FFFFF
  | .f16 => 0x7BFF
  | .bf16 => 0x7F7F
  | .f8e4 | .f8e4bs => 0x7E
  | .f8e5 | .f8e5bs => 0x7B
  | .f6e3 => 0x1F
  | _ => 0x7

/-- The place of the sign bit. -/
def signBit (t : Fmt) : Nat := (floatShape t).man + (floatShape t).exp

/-- The magnitude of a code without its sign: subnormal when the exponent field is zero (R92). -/
def decodeMag (sh : FloatShape) (c : Nat) : Nat × Int :=
  let e := c / 2 ^ sh.man
  let f := c % 2 ^ sh.man
  if e == 0 then (f, 1 - (sh.bias : Int) - (sh.man : Int))
  else (2 ^ sh.man + f, (e : Int) - (sh.bias : Int) - (sh.man : Int))

/-- Decode for f64, f32, f16, bf16, f8e4, f8e5, f6e3 and f4 (R92, R93). -/
def decodeFloat (t : Fmt) (raw : Nat) : Num :=
  let sh := floatShape t
  let neg := bit raw (signBit t)
  let c := raw % 2 ^ signBit t
  if hasInf t && c / 2 ^ sh.man == 2 ^ sh.exp - 1 then
    if c % 2 ^ sh.man == 0 then .inf neg else .nan (!bit c (sh.man - 1))
  else if (t == .f8e4 || t == .f8e4bs) && c == 0x7F then .nan false
  else if (t == .f8e5 || t == .f8e5bs) && c ≥ 0x7D then .nan false
  else
    let c' := if (t == .f8e5 || t == .f8e5bs) && c == 0x7C then 0x7B else c
    let (m, e) := decodeMag sh c'
    .fin neg m e

/-- Decode of an elementary type (R92, R96, R111): f4x code 0x8 has the f8e4 value xv; integers are exact. -/
def decodeNum (t : Fmt) (xv : Nat) (raw : Nat) : Num :=
  if t == .f4x && raw % 16 == 8 then decodeFloat .f8e4 (xv % 256)
  else if isFloat t then decodeFloat t raw
  else
    let w := fmtWidth t
    if isI t then
      let v := toSigned w raw
      .fin (v < 0) v.natAbs 0
    else .fin false (raw % 2 ^ w) 0

/-! ### Rounding (R106, R107) -/

/-- A draw of the generator of R107: xorshift on 32 bits. -/
def nextDraw (s : Nat) : Nat :=
  let s1 := s ^^^ (s * 2 ^ 13 % 2 ^ 32)
  let s2 := s1 ^^^ (s1 / 2 ^ 17)
  s2 ^^^ (s2 * 2 ^ 5 % 2 ^ 32)

/-- Rounds the magnitude m·2^e, plus something below its last place when `sticky`, to a multiple of 2^q; the draw
serves .rs. -/
def roundMag (mode : Rnd) (draw : Nat) (neg : Bool) (m : Nat) (e q : Int) (sticky : Bool) : Nat :=
  if q ≤ e then m * 2 ^ (e - q).toNat
  else
    let sh := (q - e).toNat
    let n := m / 2 ^ sh
    let rem := m % 2 ^ sh
    let half := 2 ^ (sh - 1)
    let inexact := rem != 0 || sticky
    let up := match mode with
      | .rne => half < rem || (rem == half && (sticky || n % 2 == 1))
      | .rz => false
      | .rd => neg && inexact
      | .ru => !neg && inexact
      | .rs => draw ≤ rem * 2 ^ 32 / 2 ^ sh
    if up then n + 1 else n

/-- How an overflow ends: an infinity under the mode (R109), or the largest finite value. -/
def overflowCode (t : Fmt) (mode : Rnd) (neg : Bool) : Nat :=
  let toInf := match mode with
    | .rne | .rs => true
    | .rz => false
    | .rd => neg
    | .ru => !neg
  if toInf then maxCode t + 1 else maxCode t

/-- A code with its sign. -/
def withSign (t : Fmt) (neg : Bool) (c : Nat) : Nat := if neg then c + 2 ^ signBit t else c

/-- Whether the magnitude m·2^e (with something below when sticky) exceeds the largest finite value. -/
def beyondMax (t : Fmt) (m : Nat) (e : Int) (sticky : Bool) : Bool :=
  let (mm, me) := decodeMag (floatShape t) (maxCode t)
  let lo := min e me
  let a := m * 2 ^ (e - lo).toNat
  let b := mm * 2 ^ (me - lo).toNat
  b < a || (a == b && sticky)

/-- Encode of a finite nonzero magnitude in a float format other than f4x (R106, R107, R109). `exactSat`: a
saturation is judged on the exact result, as float arithmetic with .sat does (R177). -/
def encodeMag (t : Fmt) (mode : Rnd) (sat exactSat : Bool) (draw : Nat) (neg : Bool) (m : Nat) (e : Int)
    (sticky : Bool) : Nat × BitVec 3 :=
  let sh := floatShape t
  let emin := 1 - (sh.bias : Int) - (sh.man : Int)
  let q := max ((Nat.log2 m : Int) + e - (sh.man : Int)) emin
  let n := roundMag mode draw neg m e q sticky
  let c := ((q - emin).toNat) * 2 ^ sh.man + n
  let saturating := sat || !hasInf t
  let tooBig := if saturating && (exactSat || mode == .rs) then beyondMax t m e sticky else maxCode t < c
  if tooBig then
    if saturating then (withSign t neg (maxCode t), flagCvtSat) else (withSign t neg (overflowCode t mode neg), 0)
  else (withSign t neg c, 0)

/-- A finite value as an integer multiple of 2^lo. -/
def scaledInt (neg : Bool) (m : Nat) (e lo : Int) : Int :=
  let a : Int := ((m * 2 ^ (e - lo).toNat : Nat) : Int)
  if neg then -a else a

/-- Step 2 of R97: the xv value v is strictly nearer to x than every ordinary f4 value. -/
def f4xNearer (xv : Nat) (neg : Bool) (m : Nat) (e : Int) : Bool :=
  match decodeFloat .f8e4 (xv % 256) with
  | .fin vn vm ve =>
    let lo := min (min e ve) (-1)
    let x := scaledInt neg m e lo
    let dv := (x - scaledInt vn vm ve lo).natAbs
    (List.range 16).all fun c =>
      if c == 8 then true
      else match decodeFloat .f4 c with
        | .fin n k ke => dv < (x - scaledInt n k ke lo).natAbs
        | _ => true
  | _ => false

/-- Encode to a float format (R97, R109, R111): the code and the flags of R110 it sets. A value is ±(m·2^e plus
something below when sticky). With `exactSat`, float arithmetic, .sat bounds finite results alone (R177). -/
def encodeFloat (t : Fmt) (xv : Nat) (mode : Rnd) (sat exactSat : Bool) (draw : Nat) (x : Num) (sticky : Bool) :
    Nat × BitVec 3 :=
  match x with
  | .nan _ => if hasNan t then (canonNan t, 0) else (maxCode t, flagNanLost)
  | .inf neg =>
    if hasInf t && (exactSat || !sat) then (withSign t neg (maxCode t + 1), 0) else (withSign t neg (maxCode t), 0)
  | .fin neg 0 _ => if t == .f4x then (0, 0) else (withSign t neg 0, 0)
  | .fin neg m e =>
    if t == .f4x then
      if f4xNearer xv neg m e then (8, 0)
      else
        let (c, f) := encodeMag .f4 mode sat exactSat draw neg m e sticky
        (if c == 8 then 0 else c, f)
    else encodeMag t mode sat exactSat draw neg m e sticky

/-- The bounds of an integer type. -/
def intMin (t : Fmt) : Int := if isI t then -(2 ^ (fmtWidth t - 1) : Nat) else 0
def intMax (t : Fmt) : Int := if isI t then (2 ^ (fmtWidth t - 1) : Nat) - 1 else (2 ^ fmtWidth t : Nat) - 1

/-- The low w bits of an integer. -/
def intCode (w : Nat) (v : Int) : Nat := (v % ((2 ^ w : Nat) : Int)).toNat

/-- Clamps to the type's range (R172). -/
def clampInt (t : Fmt) (v : Int) : Int := if v < intMin t then intMin t else if intMax t < v then intMax t else v

/-- Encode to an integer type (R109). `fromInt`: the source is an integer, which wraps without .sat. -/
def encodeInt (t : Fmt) (mode : Rnd) (sat fromInt : Bool) (draw : Nat) (x : Num) : Nat × BitVec 3 :=
  let w := fmtWidth t
  match x with
  | .nan _ => (intCode w (intMax t), flagNanLost)
  | .inf neg => (intCode w (if neg then intMin t else intMax t), flagCvtSat)
  | .fin neg m e =>
    let n := roundMag mode draw neg m e 0 false
    let v : Int := if neg then -(n : Int) else (n : Int)
    if fromInt && !sat then (intCode w v, 0)
    else if clampInt t v == v then (intCode w v, 0)
    else (intCode w (clampInt t v), flagCvtSat)

/-- Encode(fmt, x, mode) for any elementary type of a conversion (R109, R111). -/
def encodeNum (t : Fmt) (xv : Nat) (mode : Rnd) (sat : Bool) (fromInt : Bool) (draw : Nat) (x : Num) :
    Nat × BitVec 3 :=
  if isFloat t then encodeFloat t xv mode sat false draw x false else encodeInt t mode sat fromInt draw x

/-! ### Exact arithmetic (R177, R179, R182) -/

/-- The sign of an exact zero sum that is not of zeros of one sign: −0 under .rd, else +0 (R179). -/
def zeroSign (mode : Rnd) : Bool := mode == .rd

/-- An integer multiple of 2^e as a value; zero takes the sign given. -/
def ofScaled (v : Int) (e : Int) (zneg : Bool) : Num := if v == 0 then .fin zneg 0 e else .fin (v < 0) v.natAbs e

/-- The sum of two finite values. -/
def addFin (mode : Rnd) (an : Bool) (am : Nat) (ae : Int) (bn : Bool) (bm : Nat) (be : Int) : Num :=
  let lo := min ae be
  let zs := if am == 0 && bm == 0 && an == bn then an else zeroSign mode
  ofScaled (scaledInt an am ae lo + scaledInt bn bm be lo) lo zs

/-- Whether a value is a signalling NaN. -/
def isSig : Num → Bool
  | .nan s => s
  | _ => false

/-- Whether a value is a NaN. -/
def isNan : Num → Bool
  | .nan _ => true
  | _ => false

/-- The exact sum and whether it is an invalid operation (R179). -/
def addNum (mode : Rnd) (a b : Num) : Num × Bool :=
  match a, b with
  | .nan s, y => (.nan false, s || isSig y)
  | _, .nan s => (.nan false, s)
  | .inf n, .inf k => if n == k then (.inf n, false) else (.nan false, true)
  | .inf n, _ => (.inf n, false)
  | _, .inf n => (.inf n, false)
  | .fin an am ae, .fin bn bm be => (addFin mode an am ae bn bm be, false)

/-- The value with its sign inverted; a NaN stays one. -/
def negNum : Num → Num
  | .nan s => .nan s
  | .inf n => .inf (!n)
  | .fin n m e => .fin (!n) m e

/-- The exact product and whether it is an invalid operation (R179). -/
def mulNum (a b : Num) : Num × Bool :=
  match a, b with
  | .nan s, y => (.nan false, s || isSig y)
  | _, .nan s => (.nan false, s)
  | .inf n, .inf k => (.inf (n != k), false)
  | .inf n, .fin k m _ => if m == 0 then (.nan false, true) else (.inf (n != k), false)
  | .fin n m _, .inf k => if m == 0 then (.nan false, true) else (.inf (n != k), false)
  | .fin an am ae, .fin bn bm be => (.fin (an != bn) (am * bm) (ae + be), false)

/-- a·b + c exactly (R177, R179). -/
def fmaNum (mode : Rnd) (a b c : Num) : Num × Bool :=
  let (p, i) := mulNum a b
  if i then (.nan false, true)
  else
    let (s, j) := addNum mode p c
    (s, j || isSig a || isSig b || isSig c)

/-- Compares two finite or infinite values: less, equal, greater as -1, 0, 1; −0 equals +0. -/
def cmpNum (a b : Num) : Int :=
  let sgn (n : Bool) : Int := if n then -1 else 1
  match a, b with
  | .inf n, .inf k => if n == k then 0 else sgn n
  | .inf n, _ => sgn n
  | _, .inf k => -(sgn k)
  | .fin an am ae, .fin bn bm be =>
    let lo := min ae be
    let d := scaledInt an am ae lo - scaledInt bn bm be lo
    if d < 0 then -1 else if 0 < d then 1 else 0
  | _, _ => 0

/-- The sign of a value. -/
def negOf : Num → Bool
  | .nan _ => false
  | .inf n => n
  | .fin n _ _ => n

/-- minimumNumber and maximumNumber (R177): −0 below +0, NaN only of two NaNs; and whether INVALID is set. -/
def minNum (a b : Num) : Num × Bool :=
  let inv := isSig a || isSig b
  if isNan a && isNan b then (.nan false, inv)
  else if isNan a then (b, inv)
  else if isNan b then (a, inv)
  else
    let c := cmpNum a b
    (if c < 0 then a else if 0 < c then b else if negOf a then a else b, inv)

def maxNum (a b : Num) : Num × Bool :=
  let inv := isSig a || isSig b
  if isNan a && isNan b then (.nan false, inv)
  else if isNan a then (b, inv)
  else if isNan b then (a, inv)
  else
    let c := cmpNum a b
    (if c < 0 then b else if 0 < c then a else if negOf a then b else a, inv)

/-- An exact or nearly exact result: the value, something below its last place when sticky, and invalid. -/
structure Exact where
  num : Num
  sticky : Bool
  invalid : Bool
  deriving DecidableEq, Repr

/-- A quotient of two finite nonzero values to 192 bits and more, with the remainder as sticky. -/
def divFin (an : Bool) (am : Nat) (ae : Int) (bn : Bool) (bm : Nat) (be : Int) : Exact :=
  let sh := 192 + Nat.log2 bm
  let n := am * 2 ^ sh
  ⟨.fin (an != bn) (n / bm) (ae - be - (sh : Int)), n % bm != 0, false⟩

/-- a / b (R177, R179). -/
def divNum (a b : Num) : Exact :=
  match a, b with
  | .nan s, y => ⟨.nan false, false, s || isSig y⟩
  | _, .nan s => ⟨.nan false, false, s⟩
  | .inf _, .inf _ => ⟨.nan false, false, true⟩
  | .inf n, .fin k _ _ => ⟨.inf (n != k), false, false⟩
  | .fin n _ _, .inf k => ⟨.fin (n != k) 0 0, false, false⟩
  | .fin an am ae, .fin bn bm be =>
    if bm == 0 then if am == 0 then ⟨.nan false, false, true⟩ else ⟨.inf (an != bn), false, false⟩
    else if am == 0 then ⟨.fin (an != bn) 0 0, false, false⟩
    else divFin an am ae bn bm be

/-- 1 / a. -/
def rcpNum (a : Num) : Exact := divNum (.fin false 1 0) a

/-- The integer square root, bit by bit from the top: the largest r with r² ≤ n. -/
def isqrt (n : Nat) : Nat :=
  (List.range (Nat.log2 n / 2 + 1)).foldr (fun k r => if (r + 2 ^ k) * (r + 2 ^ k) ≤ n then r + 2 ^ k else r) 0

/-- √a (R177, R179): 192 bits and more of the root, the rest as sticky. -/
def sqrtNum (a : Num) : Exact :=
  match a with
  | .nan s => ⟨.nan false, false, s⟩
  | .inf n => if n then ⟨.nan false, false, true⟩ else ⟨.inf false, false, false⟩
  | .fin n m e =>
    if m == 0 then ⟨.fin n 0 0, false, false⟩
    else if n then ⟨.nan false, false, true⟩
    else
      let sh := 400 + (e % 2).toNat
      let r := isqrt (m * 2 ^ sh)
      ⟨.fin false r ((e - (sh : Int)) / 2), r * r != m * 2 ^ sh, false⟩

/-- 1/√a (R177, R179): the root of 1/a, to 192 bits and more. -/
def rsqNum (a : Num) : Exact :=
  match a with
  | .nan s => ⟨.nan false, false, s⟩
  | .inf n => if n then ⟨.nan false, false, true⟩ else ⟨.fin false 0 0, false, false⟩
  | .fin n m e =>
    if m == 0 then ⟨.inf n, false, false⟩
    else if n then ⟨.nan false, false, true⟩
    else
      let sh := 600 + (e % 2).toNat
      let r := isqrt (2 ^ sh / m)
      ⟨.fin false r ((-e - (sh : Int)) / 2), r * r * m != 2 ^ sh, false⟩

/-! ### FEXP2, FLOG2, FSIN, FCOS: 640 to 2,400 bits, rounded once (log entry 8) -/

/-- Fixed-point ln 2 with p fractional bits: Σ 1/(k·2^k). -/
def fxLn2 (p : Nat) : Nat :=
  (List.range (p + 8)).foldl (fun acc k => acc + 2 ^ (p + 8) / ((k + 1) * 2 ^ (k + 1))) 0 / 2 ^ 8

/-- Fixed-point e^x for 0 ≤ x < 2 with p fractional bits (Taylor). -/
def fxExp (p x : Nat) : Nat :=
  ((List.range p).foldl (fun (st : Nat × Nat) k =>
    let t := st.2 * x / 2 ^ p / (k + 1)
    (st.1 + t, t)) (2 ^ p, 2 ^ p)).1

/-- Fixed-point 2·artanh(num/den) with p fractional bits. -/
def fxAtanh2 (p num den : Nat) : Nat :=
  let z := num * 2 ^ p / den
  let z2 := z * z / 2 ^ p
  2 * ((List.range p).foldl (fun (st : Nat × Nat) k => (st.1 + st.2 / (2 * k + 1), st.2 * z2 / 2 ^ p)) (0, z)).1

/-- Fixed-point arctan(1/n) with p fractional bits. -/
def fxAtanInv (p n : Nat) : Int :=
  ((List.range p).foldl (fun (st : Int × Nat) k =>
    ((if k % 2 == 0 then st.1 + ((st.2 / (2 * k + 1) : Nat) : Int) else st.1 - ((st.2 / (2 * k + 1) : Nat) : Int)),
     st.2 / (n * n)))
    ((0 : Int), 2 ^ p / n)).1

/-- Fixed-point π with p fractional bits (Machin's formula). -/
def fxPi (p : Nat) : Nat := ((16 * fxAtanInv (p + 16) 5 - 4 * fxAtanInv (p + 16) 239) / 2 ^ 16).toNat

/-- Fixed-point sine and cosine of r, 0 ≤ r < 2, with p fractional bits. -/
def fxSin (p r : Nat) : Int :=
  ((List.range (p / 4)).foldl (fun (st : Int × Nat) k =>
    ((if k % 2 == 0 then st.1 + (st.2 : Int) else st.1 - (st.2 : Int)),
     st.2 * r / 2 ^ p * r / 2 ^ p / ((2 * k + 2) * (2 * k + 3)))) ((0 : Int), r)).1
def fxCos (p r : Nat) : Int :=
  ((List.range (p / 4)).foldl (fun (st : Int × Nat) k =>
    ((if k % 2 == 0 then st.1 + (st.2 : Int) else st.1 - (st.2 : Int)),
     st.2 * r / 2 ^ p * r / 2 ^ p / ((2 * k + 1) * (2 * k + 2)))) ((0 : Int), 2 ^ p)).1

/-- 2^a (R177, R179). -/
def exp2Num (a : Num) : Exact :=
  match a with
  | .nan s => ⟨.nan false, false, s⟩
  | .inf n => if n then ⟨.fin false 0 0, false, false⟩ else ⟨.inf false, false, false⟩
  | .fin n m e =>
    if m == 0 then ⟨.fin false 1 0, false, false⟩
    else if 20 < (Nat.log2 m : Int) + e then
      if n then ⟨.fin false 1 (-100000), true, false⟩ else ⟨.fin false 1 100000, true, false⟩
    else if (Nat.log2 m : Int) + e < -200 then
      if n then ⟨.fin false (2 ^ 200 - 1) (-200), true, false⟩ else ⟨.fin false (2 ^ 200) (-200), true, false⟩
    else
      let p := 640
      -- a as a multiple of 2^-p: e is above -p - 200 here, so no bit is lost for any format
      let v := scaledInt n m (e + 1200) 0
      let ip := v / ((2 ^ 1200 : Nat) : Int)
      let fr := (v % ((2 ^ 1200 : Nat) : Int)).toNat
      if fr == 0 then ⟨.fin false 1 ip, false, false⟩
      else ⟨.fin false (fxExp p (fr * fxLn2 p / 2 ^ 1200)) (ip - (p : Int)), true, false⟩

/-- log₂ a (R177, R179). -/
def log2Num (a : Num) : Exact :=
  match a with
  | .nan s => ⟨.nan false, false, s⟩
  | .inf n => if n then ⟨.nan false, false, true⟩ else ⟨.inf false, false, false⟩
  | .fin n m e =>
    if m == 0 then ⟨.inf true, false, false⟩
    else if n then ⟨.nan false, false, true⟩
    else
      let l := Nat.log2 m
      let ip := (l : Int) + e
      if m == 2 ^ l then ⟨ofScaled ip 0 false, false, false⟩
      else
        let p := 640
        let frac := fxAtanh2 p (m - 2 ^ l) (m + 2 ^ l) * 2 ^ p / fxLn2 p
        ⟨ofScaled (ip * ((2 ^ p : Nat) : Int) + (frac : Int)) (-(p : Int)) false, true, false⟩

/-- The quadrant of |x| and its remainder below π/2, with p fractional bits, from 2^1100·|x|·2^-1100. -/
def trigReduce (p m : Nat) (e : Int) : Nat × Nat :=
  let pp := p + 1200
  let halfPi := fxPi pp / 2
  let x := if 0 ≤ e + (pp : Int) then m * 2 ^ (e + (pp : Int)).toNat else m / 2 ^ (-(e + (pp : Int))).toNat
  (x / halfPi % 4, x % halfPi / 2 ^ 1200)

/-- sin a and cos a, a in radians (R177, R179). -/
def sinNum (a : Num) : Exact :=
  match a with
  | .nan s => ⟨.nan false, false, s⟩
  | .inf _ => ⟨.nan false, false, true⟩
  | .fin n m e =>
    if m == 0 then ⟨.fin n 0 0, false, false⟩
    else if (Nat.log2 m : Int) + e < -200 then ⟨.fin n (m * 2 ^ 400 - 1) (e - 400), true, false⟩
    else
      let p := 1200
      let (q, r) := trigReduce p m e
      let v := match q with
        | 0 => fxSin p r
        | 1 => fxCos p r
        | 2 => -fxSin p r
        | _ => -fxCos p r
      ⟨ofScaled (if n then -v else v) (-(p : Int)) n, true, false⟩
def cosNum (a : Num) : Exact :=
  match a with
  | .nan s => ⟨.nan false, false, s⟩
  | .inf _ => ⟨.nan false, false, true⟩
  | .fin _ m e =>
    if m == 0 then ⟨.fin false 1 0, false, false⟩
    else if (Nat.log2 m : Int) + e < -200 then ⟨.fin false (2 ^ 300 - 1) (-300), true, false⟩
    else
      let p := 1200
      let (q, r) := trigReduce p m e
      let v := match q with
        | 0 => fxCos p r
        | 1 => -fxSin p r
        | 2 => -fxCos p r
        | _ => fxSin p r
      ⟨ofScaled v (-(p : Int)) false, true, false⟩

/-- The natural logarithm of a positive rational num/den, as a fixed-point integer with p fractional bits (R377). -/
def fxLn (p num den : Nat) : Int :=
  let v := num * 2 ^ p / den
  let l := Nat.log2 v
  ((l : Int) - (p : Int)) * (fxLn2 p : Int) + (fxAtanh2 p (v - 2 ^ l) (v + 2 ^ l) : Int)

/-! ### Sums (R112, R113, R182) -/

/-- The exact sum of a list of values: an infinity or NaN as R182 gives it; the sign of a zero sum is −0 when every
term is −0, else −0 under .rd and +0 otherwise. -/
def sumNums (mode : Rnd) (ts : List Num) : Num × Bool :=
  if ts.any isNan then (.nan false, ts.any isSig)
  else
    let pinf := ts.any fun t => t == .inf false
    let ninf := ts.any fun t => t == .inf true
    if pinf && ninf then (.nan false, true)
    else if pinf then (.inf false, false)
    else if ninf then (.inf true, false)
    else
      let lo := ts.foldl (fun (acc : Int) t =>
        match t with
        | .fin _ _ e => min acc e
        | _ => acc) 0
      let v := ts.foldl (fun (acc : Int) t =>
        match t with
        | .fin n m e => acc + scaledInt n m e lo
        | _ => acc) 0
      let allNeg := !ts.isEmpty && ts.all fun t =>
        match t with
        | .fin n m _ => n && m == 0
        | _ => false
      (ofScaled v lo (allNeg || zeroSign mode), false)

/-- The sum rule of the matrix engine (R112): finite terms, each truncated to a multiple of 2^(E−50), rounded once to
f32 with .rne; a zero sum is +0. -/
def sumRule (ts : List Num) : Nat :=
  let top := ts.foldl (fun (acc : Option Int) t =>
    match t with
    | .fin _ m e =>
      if m == 0 then acc
      else
        let l := (Nat.log2 m : Int) + e
        match acc with
        | some a => some (max a l)
        | none => some l
    | _ => acc) none
  match top with
  | none => 0
  | some E =>
    let q := E - 50
    let v := ts.foldl (fun (acc : Int) t =>
      match t with
      | .fin n m e =>
        let k := if q ≤ e then m * 2 ^ (e - q).toNat else m / 2 ^ (q - e).toNat
        if n then acc - (k : Int) else acc + (k : Int)
      | _ => acc) 0
    if v == 0 then 0
    else (encodeFloat .f32 0 .rne false false 0 (ofScaled v q false) false).1

/-- One output element of an MMA (R112, R113): an infinite accumulator stays, a NaN one is canonical. -/
def mmaElement (acc : Option Nat) (products : List Num) : Nat :=
  match acc with
  | none => sumRule products
  | some c =>
    match decodeFloat .f32 c with
    | .nan _ => canonNan .f32
    | .inf n => withSign .f32 n (maxCode .f32 + 1)
    | x => sumRule (x :: products)

/-- RoundF32(x, mode) as a code (R111). -/
def roundF32 (mode : Rnd) (x : Num) : Nat := (encodeFloat .f32 0 mode false false 0 x false).1

/-! ### Elements of vectors (R95) -/

/-- Element i of a format in a register's bits. -/
def elemAt (t : Fmt) (v : Nat) (i : Nat) : Nat := v / 2 ^ (fmtWidth t * i) % 2 ^ fmtWidth t

/-- A register from its elements, element 0 first. -/
def packElems (t : Fmt) (es : List Nat) : Nat :=
  es.foldr (fun e acc => acc * 2 ^ fmtWidth t + e % 2 ^ fmtWidth t) 0

/-- The value of an e8m0 scale (R98): none is NaN. -/
def e8m0 (c : Nat) : Option Int := if c == 0xFF then none else some ((c : Int) - 127)

/-- A value times a power of two. -/
def scale2 (x : Num) (k : Int) : Num :=
  match x with
  | .fin n m e => .fin n m (e + k)
  | y => y

/-- A block-scaled element (R98): NaN under a NaN scale. -/
def decodeBs (t : Fmt) (code scale : Nat) : Num :=
  match e8m0 scale with
  | none => .nan false
  | some k => scale2 (decodeFloat t code) k

/-- A q element (R99): σ·(q − z), a NaN or infinite scale makes it NaN. -/
def decodeQ (q sigma z : Nat) : Num :=
  match decodeFloat .f16 sigma with
  | .fin n m e =>
    let d : Int := (q : Int) - (z : Int)
    .fin (if d < 0 then !n else n) (m * d.natAbs) e
  | _ => .nan false

end Sys2Proof.Machine
end

