-- ==== Sys2Proof/Machine/Units.lean ====
section
/-! DEFINITION. Reaching the units of the module, numbering (R21), homes (R39, R438), cause codes (R242) and fault
records (R252). -/

namespace Sys2Proof.Machine

/-! ### Cause codes (R242) -/

def cIllegalOp : BitVec 8 := 0x01
def cIllegalField : BitVec 8 := 0x02
def cBadTarget : BitVec 8 := 0x03
def cBadPair : BitVec 8 := 0x04
def cLineParity : BitVec 8 := 0x05
def cIllegalLatch : BitVec 8 := 0x06
def cLoopDepth : BitVec 8 := 0x07
def cFormatMismatch : BitVec 8 := 0x10
def cMisaligned : BitVec 8 := 0x11
def cPageFault : BitVec 8 := 0x20
def cProtection : BitVec 8 := 0x21
def cTlbGen : BitVec 8 := 0x22
def cBarCount : BitVec 8 := 0x30
def cWatchdog : BitVec 8 := 0x31
def cSkNodel : BitVec 8 := 0x40
def cSkMismatch : BitVec 8 := 0x41
def cRowTooLong : BitVec 8 := 0x42
def cWriteOnce : BitVec 8 := 0x50
def cTableReject : BitVec 8 := 0x51
def cQueueOverrun : BitVec 8 := 0x60
def cFabricLost : BitVec 8 := 0x61
def cAnnexFenced : BitVec 8 := 0x62
def cEccUncorrected : BitVec 8 := 0x70
def cPoison : BitVec 8 := 0x71
def cSoftware : BitVec 8 := 0x80
def cBreakpoint : BitVec 8 := 0x81
def cHalted : BitVec 8 := 0x82
def cDouble : BitVec 8 := 0x83

/-! ### Units -/

/-- A thread identifier: workgroup key, quire and lane. -/
def tidOf (wg quire lane : Nat) : Nat := wg * 256 + quire * 32 + lane
def tidWg (tid : Nat) : Nat := tid / 256
def tidQuire (tid : Nat) : Nat := tid % 256 / 32
def tidLane (tid : Nat) : Nat := tid % 32

/-- What an identifier that names no thread reads as. -/
def blankThread : Thread :=
  { core := 0, wg := 0, quire := 0, lane := 0, pc := 0, g := [], v := [], l0 := Latch.reset, l1 := Latch.reset,
    l2 := Latch.reset, l3 := Latch.reset, nest := [], xv := 0, srSeed := 0, fstat := 0, cfp := 0, cqhdr := 0,
    trapCause := 0, trapPc := 0, trapAddr := 0, trapVecPc := 0, trapVecEn := false, trapFrame := 0, hmode := false,
    wait := none, exited := true, moved := false, latchKeep := false, pend := [], posted := [], eccRegs := [], eccLatches := [],
    undo := none }

/-- What a key that names no workgroup reads as. -/
def blankWg : Workgroup :=
  { die := 0, slot := 0, w := 0, x := 0, y := 0, z := 0, core := 0, base := 0, units := 0, roles := [], gcount := [],
    vcount := [], context := 0, asid := 0, priv := false, prio := 0, det := false, turn := 0, detGath := [], detPath := [],
    retired := 0, wdogLimit := 0, wdog := 0, pbound := 0, nbars := [], txs := [], owner := false, st := .ended,
    cause := 0, preempt := false, preemptAt := 0, forced := false, live := 0, atPoint := [], area := 0, leftCore := 0, order := 0 }

def thr (s : State) (tid : Nat) : Thread := tgetD s.threads tid blankThread
def setThr (s : State) (tid : Nat) (t : Thread) : State := { s with threads := tset s.threads tid t }
def modThr (s : State) (tid : Nat) (f : Thread → Thread) : State := setThr s tid (f (thr s tid))

def wgOf (s : State) (k : Nat) : Workgroup := tgetD s.wgs k blankWg
def setWg (s : State) (k : Nat) (w : Workgroup) : State := { s with wgs := tset s.wgs k w }
def modWg (s : State) (k : Nat) (f : Workgroup → Workgroup) : State := setWg s k (f (wgOf s k))

def coreOf (s : State) (c : Nat) : Core := tgetD s.cores c Core.reset
def setCore (s : State) (c : Nat) (x : Core) : State := { s with cores := tset s.cores c x }
def modCore (s : State) (c : Nat) (f : Core → Core) : State := setCore s c (f (coreOf s c))
def modMx (s : State) (c : Nat) (f : Matrix → Matrix) : State := modCore s c fun x => { x with mx := f x.mx }

def quadOf (s : State) (q : Nat) : Quad := tgetD s.quads q Quad.reset
def setQuad (s : State) (q : Nat) (x : Quad) : State := { s with quads := tset s.quads q x }
def modQuad (s : State) (q : Nat) (f : Quad → Quad) : State := setQuad s q (f (quadOf s q))

def dieOf (s : State) (d : Nat) : Die := tgetD s.dies d Die.reset
def setDie (s : State) (d : Nat) (x : Die) : State := { s with dies := tset s.dies d x }
def modDie (s : State) (d : Nat) (f : Die → Die) : State := setDie s d (f (dieOf s d))
def modColl (s : State) (d : Nat) (f : Collective → Collective) : State :=
  modDie s d fun x => { x with coll := f x.coll }

def portOf (s : State) (p : Nat) : Port := tgetD s.fabric.ports p Port.reset
def setPort (s : State) (p : Nat) (x : Port) : State :=
  { s with fabric := { s.fabric with ports := tset s.fabric.ports p x } }
def modPort (s : State) (p : Nat) (f : Port → Port) : State := setPort s p (f (portOf s p))

def modAnnex (s : State) (f : Annex → Annex) : State := { s with annex := f s.annex }
def modModule (s : State) (f : Module → Module) : State := { s with module := f s.module }
def modCoh (s : State) (f : Coherence → Coherence) : State := { s with coh := f s.coh }

/-- An address space (R253). -/
def spaceEntry (s : State) (asid : Nat) : AddrSpace := tgetD s.spaces asid AddrSpace.reset

/-! ### Numbering (R21) and homes (R39, R438) -/

def dieOfCore (c : Nat) : Nat := c / 64
def quadOfCore (c : Nat) : Nat := c / 4

/-- The module number (R521, R522). -/
def moduleNumber (s : State) : Nat := (dieOf s 0).modid.toNat % 1024

/-- The home module of a physical address (R438). -/
def homeModule (pa : Nat) : Nat := pa / 2 ^ 42 % 1024

/-- The home slice index s of a physical address (R39). -/
def homeSlice (pa : Nat) : Nat := pa / 2048 % 2 ^ 41 % 48

/-- The home die of a physical address (R39). -/
def homeDie (pa : Nat) : Nat := homeSlice pa / 12

/-- The home channel on that die (R39). -/
def homeChannel (pa : Nat) : Nat := homeSlice pa % 12

/-- Whether a physical address has its home on another module (R438). -/
def isRemote (s : State) (pa : Nat) : Bool := homeModule pa != moduleNumber s

/-! ### Free values -/

/-- Takes the next value the manual leaves open (log entry 23). -/
def drawFree (s : State) : Word × State := (Config.freeWord s.draws, { s with draws := s.draws + 1 })

/-! ### Fault records (R252) -/

/-- The parts of a fault record besides its context. -/
structure FaultRec where
  cause : Nat
  sub : Nat
  source : Nat
  core : Nat
  lane : Nat
  quire : Nat
  word1 : Nat
  addr : Nat
  w : Nat
  deriving DecidableEq, Repr

/-- The first doubleword of a record. -/
def FaultRec.word0 (r : FaultRec) (ctx : Nat) : Nat :=
  r.cause % 256 + r.sub % 256 * 2 ^ 8 + ctx % 4096 * 2 ^ 16 + r.source % 16 * 2 ^ 28 + r.core % 256 * 2 ^ 32 +
    r.lane % 32 * 2 ^ 40 + r.quire % 8 * 2 ^ 45

/-- Writes a record to the context's fault ring, or drops it and sets bit 63 of the count when the ring is full; the
record carries the physical places the context gave to CTXNEW (R252). -/
def report (s : State) (ctx : Nat) (r : FaultRec) : State :=
  match tget s.contexts ctx with
  | none => s
  | some c =>
    let cnt := paLoc s c.ctl
    let word := readWord s cnt
    let written := word % 2 ^ 63
    let read := readWord s (cnt + 8)
    if (written + 2 ^ 63 - read % 2 ^ 63) % 2 ^ 63 == 2 ^ c.logn then writeWord s cnt (2 ^ 63 + written)
    else
      let slot := paLoc s (c.ringBase + 32 * (written % 2 ^ c.logn))
      let s1 := writeWord (writeWord (writeWord (writeWord s slot (r.word0 ctx)) (slot + 8) r.word1) (slot + 16) r.addr)
        (slot + 24) r.w
      writeWord s1 cnt (word / 2 ^ 63 * 2 ^ 63 + (written + 1) % 2 ^ 63)

/-- A lane's record (SOURCE 0): the PC, the address and W of the thread's workgroup. -/
def laneRec (s : State) (tid : Nat) (cause sub pc addr : Nat) : FaultRec :=
  { cause, sub, source := 0, core := (thr s tid).core, lane := (thr s tid).lane, quire := (thr s tid).quire,
    word1 := pc, addr, w := (wgOf s (thr s tid).wg).w }

/-- What a record of a party other than a lane states; the parts that the manual states nothing for are free values
(log entry 23). -/
structure EngineNote where
  cause : Nat
  sub : Option Nat
  source : Nat
  core : Option Nat
  word1 : Option Nat
  addr : Option Nat
  w : Option Nat
  deriving DecidableEq, Repr

/-- Reports for an engine, the fabric, the annex or the dispatcher (R252). -/
def reportNote (s : State) (ctx : Nat) (n : EngineNote) : State :=
  let (x, s1) := drawFree s
  let (i, s2) := drawFree s1
  let (a, s3) := drawFree s2
  let (w, s4) := drawFree s3
  let v := x.toNat
  report s4 ctx
    { cause := n.cause, sub := n.sub.getD (v % 256), source := n.source, core := n.core.getD (v / 2 ^ 8 % 256),
      lane := v / 2 ^ 16 % 32, quire := v / 2 ^ 24 % 8, word1 := n.word1.getD i.toNat, addr := n.addr.getD a.toNat,
      w := n.w.getD w.toNat }

/-- Raises an MSI-X vector to the host. -/
def raiseMsi (s : State) (vec : Nat) : State := modModule s fun m => { m with msi := m.msi ++ [vec] }

/-! ### Stacks reservations (R399, R518) -/

/-- The stacks bank of a cell, when it is one: the die and the bank (R27). -/
def bankOfLoc (l : Nat) : Option (Nat × Nat) :=
  if 6 * 2 ^ 60 ≤ l && l < 7 * 2 ^ 60 then some ((l - 6 * 2 ^ 60) / 2 ^ 31, (l - 6 * 2 ^ 60) % 2 ^ 31 / 0x200000) else none

/-- A bank that firmware has reserved: the sketch pool and the reduction buffer below it, once the boot chain has made
the reservations (R518). -/
def bankReserved (s : State) (b : Nat) : Bool := s.module.booted && 768 ≤ b + s.module.poolBanks + 8

/-- Whether one of n cells lies in a reserved bank or past the last bank. -/
def reservedCells (s : State) (l n : Nat) : Bool :=
  let bad (x : Nat) : Bool := match bankOfLoc x with
    | some (_, b) => bankReserved s b || 768 ≤ b
    | none => false
  n != 0 && (bad l || bad (l + n - 1))

end Sys2Proof.Machine
end

