-- ==== Sys2Proof/Machine/Coherence.lean ====
section
/-! DEFINITION. Concordance tables, holders' line states and the events of R419 (R414 to R436). Data never moves in
this model: every cell has one value (log entry 1), so a table decides states, messages and faults. -/

namespace Sys2Proof.Machine

/-! ### Transition entries (R418) -/

/-- NEXT, DATA, MSG of an entry. -/
structure Trans where
  next : Nat
  data : Nat
  msg : Nat
  deriving DecidableEq, Repr

/-- A defined entry's word (R418). -/
def transWord (t : Trans) : BitVec 32 := BitVec.ofNat 32 (t.next * 2 ^ 29 + t.data * 2 ^ 26 + t.msg * 2 ^ 18 + 1)

/-- The entry of a word (R418). -/
def transOf (w : BitVec 32) : Trans := ⟨bits w.toNat 31 29, bits w.toNat 28 26, bits w.toNat 23 18⟩

/-- The rows of the vendor tables, a state's events 0 to 12 in order; entries 13 to 15 stay in the state (R424 to
R428). A query's entry under merge carries c (log entry 9). -/
def vendorRows (slot : Nat) : List (List Trans) :=
  let q0 : Trans := ⟨0, 0, 32⟩
  let st (n : Nat) : Trans := ⟨n, 0, 0⟩
  match slot with
  | 0 => [[⟨1, 1, 4⟩, ⟨2, 1, 5⟩, st 0, st 0, st 0, st 0, st 0, st 0, q0, q0, q0, st 0, st 0],
          [st 1, ⟨2, 0, 5⟩, st 0, st 1, st 0, st 1, st 0, st 0, q0, q0, q0, st 1, st 1],
          [st 2, st 2, ⟨0, 3, 0⟩, ⟨1, 3, 0⟩, ⟨0, 3, 0⟩, st 2, ⟨0, 3, 0⟩, ⟨0, 3, 0⟩, q0, q0, q0, st 2, st 2]]
  | 1 => [[⟨1, 1, 4⟩, ⟨0, 4, 4⟩, st 0, st 0, st 0, st 0, st 0, st 0, q0, q0, q0, st 0, st 0],
          [st 1, ⟨1, 4, 4⟩, st 0, st 1, st 1, ⟨1, 5, 0⟩, st 0, st 0, q0, q0, q0, st 1, st 1]]
  | 2 => [[⟨1, 1, 6⟩, ⟨1, 1, 6⟩, st 0, st 0, st 0, st 0, st 0, st 0, q0, q0, q0, st 0, st 0],
          [st 1, st 1, ⟨0, 3, 0⟩, ⟨0, 2, 0⟩, ⟨0, 2, 0⟩, st 1, ⟨0, 3, 0⟩, ⟨0, 3, 0⟩, q0, q0, q0, st 1, st 1]]
  | 3 => [[⟨1, 1, 4⟩, ⟨0, 6, 5⟩, st 0, st 0, st 0, st 0, st 0, st 0, q0, q0, q0, ⟨0, 0, 8⟩, st 0],
          [st 1, ⟨0, 6, 5⟩, st 0, st 1, st 0, st 1, st 0, st 0, ⟨1, 0, 32⟩, ⟨1, 0, 32⟩, ⟨1, 0, 32⟩, ⟨1, 0, 8⟩, st 1]]
  | _ => [[q0, q0, st 0, st 0, st 0, st 0, st 0, st 0, ⟨1, 7, 0⟩, ⟨0, 0, 16⟩, ⟨0, 0, 16⟩, st 0, st 0],
          [⟨1, 0, 32⟩, ⟨1, 0, 32⟩, st 1, st 1, st 1, st 1, st 1, st 1, ⟨1, 7, 0⟩, ⟨1, 0, 16⟩, ⟨1, 3, 16⟩, st 1, st 0]]

/-- PERM of the vendor tables (R417, R424 to R428). -/
def vendorPerm (slot : Nat) : BitVec 16 :=
  match slot with
  | 0 => 0x24
  | 1 => 0x04
  | 2 => 0x08
  | 3 => 0x04
  | _ => 0x0C

/-- A vendor table as loaded in slots 0 to 4 (R416). -/
def vendorTable (slot : Nat) : Table :=
  let rows := vendorRows slot
  { nsm1 := rows.length - 1, perm := vendorPerm slot,
    entries := (List.range 128).map fun i =>
      if rows.length ≤ i / 16 then 0
      else transWord ((rows.getD (i / 16) []).getD (i % 16) ⟨i / 16, 0, 0⟩)
    hash := [] }

/-- The table of a slot: slots 0 to 4 always hold the vendor tables (R416). -/
def tableOf (s : State) (slot : Nat) : Option Table := if slot < 5 then some (vendorTable slot) else tget s.coh.tables slot

/-- A range descriptor (R414). -/
def rangeDesc (s : State) (r : Nat) : Nat := (tgetD s.coh.ranges r 0).toNat
def rangeValid (s : State) (r : Nat) : Bool := bit (rangeDesc s r) 7
def rangeProp (s : State) (r : Nat) : Bool := bit (rangeDesc s r) 6
def rangeSlot (s : State) (r : Nat) : Nat := rangeDesc s r % 16

/-- The table a range selects. -/
def rangeTable (s : State) (r : Nat) : Table :=
  match tableOf s (rangeSlot s r) with
  | some t => t
  | none => vendorTable 0

/-- The entry for a state and an event. -/
def entryOf (t : Table) (st ev : Nat) : Trans := transOf (t.entries.getD (16 * st + ev) 0)

/-- The permission of a state: 0 none, 1 read, 2 write, 3 insert (R417). -/
def permOf (t : Table) (st : Nat) : Nat := t.perm.toNat / 4 ^ st % 4

/-- A write-once range: its table freezes lines or raises WRITE_ONCE (R429). -/
def writeOnceRange (s : State) (r : Nat) : Bool :=
  (rangeTable s r).entries.any fun w => (transOf w).data == 6 || bit (transOf w).msg 3

/-! ### Holders and lines

A line's entry holds its range above its state: range · 8 + state. -/

/-- The key of a line at a holder. -/
def lineKey (holder line : Nat) : Nat := holder * 2 ^ 46 + line % 2 ^ 46

def holderG : Nat := 256
def holderH : Nat := 257
/-- The partial of die d as a holder (R428). -/
def holderPartial (d : Nat) : Nat := 258 + d

def lineState (s : State) (holder line : Nat) : Nat := tgetD s.coh.lines (lineKey holder line) 0 % 8
def lineRange (s : State) (holder line : Nat) : Nat := tgetD s.coh.lines (lineKey holder line) 0 / 8

/-! ### Directories and sharer filters (R431, R432) -/

/-- A holder's place in a sharer vector: quads 0 to 63, the guest 64, the host 65; a partial has none (R431). -/
def sharerBit (holder : Nat) : Option Nat :=
  if holder < 256 then some (holder / 4)
  else if holder == holderG then some 64
  else if holder == holderH then some 65
  else none

/-- A region's entry with a holder's place set. -/
def addSharer (c : Coherence) (holder line : Nat) : Coherence :=
  match sharerBit holder with
  | some b => { c with dir := tset c.dir (line / 8) (tgetD c.dir (line / 8) 0 ||| BitVec.ofNat 66 (2 ^ b)) }
  | none => c

/-- Whether a place of a sharer vector holds a line of a region. -/
def placeHolds (c : Coherence) (b region : Nat) : Bool :=
  c.lines.any fun e => sharerBit (e.1 / 2 ^ 46) == some b && e.1 % 2 ^ 46 / 8 == region

/-- A region's entry without the place of a holder that has dropped its last line of it; an entry without holders goes. -/
def dropSharer (c : Coherence) (holder line : Nat) : Coherence :=
  match sharerBit holder with
  | none => c
  | some b =>
    if placeHolds c b (line / 8) then c
    else
      let v := tgetD c.dir (line / 8) 0 &&& ~~~(BitVec.ofNat 66 (2 ^ b))
      { c with dir := if v == 0 then tdel c.dir (line / 8) else tset c.dir (line / 8) v }

/-- The mask of a line in the filter of a core's quad. -/
def filterKey (core line : Nat) : Nat := core / 4 * 2 ^ 46 + line % 2 ^ 46

/-- The filter of a core's quad after the core has taken or dropped a line. -/
def noteFilter (c : Coherence) (core line : Nat) (held : Bool) : Coherence :=
  if 256 ≤ core then c
  else
    let b := BitVec.ofNat 4 (2 ^ (core % 4))
    let m := tgetD c.filters (filterKey core line) 0
    let v := if held then m ||| b else m &&& ~~~b
    { c with filters := if v == 0 then tdel c.filters (filterKey core line) else tset c.filters (filterKey core line) v }

/-- A holder's state for a line, and the filter; state 0 needs no entry, and leaves the directory's when it was the last. -/
def putLine (c : Coherence) (holder line range st : Nat) : Coherence :=
  let key := lineKey holder line
  if st == 0 then noteFilter (dropSharer { c with lines := tdel c.lines key } holder line) holder line false
  else noteFilter { c with lines := tset c.lines key (range * 8 + st) } holder line true

/-- Sets a holder's state for a line, which the directory's entry of its region then names (R431). -/
def setLine (s : State) (holder line range st : Nat) : State :=
  modCoh s fun c =>
    let c1 := putLine c holder line range st
    if st == 0 then c1 else addSharer c1 holder line

/-- The holders that hold a line in a state other than Invalid. -/
def holdersOf (s : State) (line : Nat) : List Nat :=
  (s.coh.lines.filter fun e => e.1 % 2 ^ 46 == line % 2 ^ 46).map fun e => e.1 / 2 ^ 46

/-- The frozen bit that DATA 6 sets on a line (R418, R429). -/
def freeze (s : State) (t : Trans) (line : Nat) : State :=
  if t.data == 6 then modCoh s fun c => { c with frozen := if c.frozen.contains line then c.frozen else line :: c.frozen } else s

/-- The entry that an event meets at a holder of a line. -/
def heldEntry (s : State) (holder line ev : Nat) : Option Trans :=
  (tget s.coh.lines (lineKey holder line)).map fun v => entryOf (rangeTable s (v / 8)) (v % 8) ev

/-- The cause that z or q of an entry returns to the requester (R418). -/
def entryFault (t : Trans) : Option Nat :=
  if bit t.msg 3 then some cWriteOnce.toNat else if bit t.msg 5 then some cProtection.toNat else none

/-- An event at a holder that a message, an eviction, a flush or a release raises: it moves the holder's state, and may
freeze the line. DESIGN CHOICE: such an entry sends no messages of its own (log entry 85). -/
def lineEvent (s : State) (holder line ev : Nat) : State :=
  match tget s.coh.lines (lineKey holder line), heldEntry s holder line ev with
  | some v, some t => freeze (setLine s holder line (v / 8) t.next) t line
  | _, _ => s

/-- The events that an entry's messages raise at other holders. -/
def reached (s : State) (self : Option Nat) (line range ev : Nat) (t : Trans) : List (Nat × Nat) :=
  let others := (holdersOf s line).filter fun h => some h != self
  (if bit t.msg 0 then others.map fun h => (h, 4) else []) ++
  (if bit t.msg 1 && !bit t.msg 0 then
    (others.filter fun h => permOf (rangeTable s range) (lineState s h line) == 2).map fun h => (h, if ev == 0 then 3 else 4)
   else []) ++
  if t.data == 4 then others.map fun h => (h, 5) else []

/-- The fault that an event returns to its requester: of its own entry, or of an entry that its messages meet (R418). -/
def eventFault (s : State) (self : Option Nat) (line range ev : Nat) (t : Trans) : Option Nat :=
  match entryFault t with
  | some c => some c
  | none => (reached s self line range ev t).findSome? fun x => (heldEntry s x.1 line x.2).bind entryFault

/-- The messages of an entry: i reaches each other holder as PW, f the holder with write permission as PR or PW, and U
pushes UP to the sharers (R418, R419). -/
def lineMessages (s : State) (self : Option Nat) (line range ev : Nat) (t : Trans) : State :=
  let others := (holdersOf s line).filter fun h => some h != self
  let s1 := if bit t.msg 0 then others.foldl (fun st h => lineEvent st h line 4) s else s
  let s2 :=
    if bit t.msg 1 then
      others.foldl (fun st h =>
        if permOf (rangeTable s range) (lineState s h line) == 2 then lineEvent st h line (if ev == 0 then 3 else 4)
        else st) s1
    else s1
  if t.data == 4 then others.foldl (fun st h => lineEvent st h line 5) s2 else s2

/-! ### The predictor (R433) -/

/-- The quad that a core's predictor names for a region; 256 entries, placed by the region's low bits (log entry 16). -/
def predicted (s : State) (core line : Nat) : Option Nat :=
  match tget (dieOf s (dieOfCore core)).predictor (core * 256 + line / 8 % 256) with
  | some v => if v / 64 == line / 8 then some (v % 64) else none
  | none => none

/-- A quad noted as the last that supplied a region. -/
def notePredictor (s : State) (core line quad : Nat) : State :=
  modDie s (dieOfCore core) fun d =>
    { d with predictor := tset d.predictor (core * 256 + line / 8 % 256) (line / 8 * 64 + quad) }

/-- The quad that answers a core's read miss before its home does: the predicted one, when a core of it holds the line with
read permission. -/
def probedQuad (s : State) (core line range : Nat) : Option Nat :=
  match predicted s core line with
  | some q =>
    if (holdersOf s line).any fun h => h < 256 && h / 4 == q && permOf (rangeTable s range) (lineState s h line) == 1 then some q
    else none
  | none => none

/-! ### Evictions (R431, R432) -/

/-- The entries of a quad's sharer filter. -/
def filterSize : Nat := 8192

/-- A quad's filter makes room for a line that it does not hold: another line's entry goes, with EV in each L1 it names.
DESIGN CHOICE: the lowest line goes (log entry 86). -/
def filterRoom (s : State) (holder line : Nat) : State :=
  if 256 ≤ holder || (tget s.coh.filters (filterKey holder line)).isSome then s
  else
    let mine := s.coh.filters.filter fun e => e.1 / 2 ^ 46 == holder / 4
    match mine with
    | [] => s
    | e :: _ =>
      if mine.length < filterSize then s
      else (List.range 4).foldl (fun st i =>
        if e.2.getLsbD i then lineEvent st (holder / 4 * 4 + i) (e.1 % 2 ^ 46) 2 else st) s

/-- Lines of the 128 KiB L1 of a core (R1). -/
def l1Lines : Nat := 2048

/-- A core's L1 makes room for a line that it does not hold: another line goes, with EV. DESIGN CHOICE: the lowest line goes
(log entry 86). -/
def l1Room (s : State) (holder line : Nat) : State :=
  if 256 ≤ holder || (tget s.coh.lines (lineKey holder line)).isSome then s
  else
    let mine := s.coh.lines.filter fun e => e.1 / 2 ^ 46 == holder
    match mine with
    | [] => s
    | e :: _ => if mine.length < l1Lines then s else lineEvent s holder (e.1 % 2 ^ 46) 2

/-- The set of a region in its home die's directory: 2^20 entries, 16 to a set (R431; log entry 86). -/
def dirSet (region : Nat) : Nat × Nat := (homeDie (region * 512), region % 2 ^ 16)

/-- A directory makes room for a region: another of its set goes, and every holder of each of its lines sees FL. DESIGN
CHOICE: the lowest region of the set goes (log entry 86). -/
def dirRoom (s : State) (holder line : Nat) : State :=
  if (sharerBit holder).isNone || (tget s.coh.dir (line / 8)).isSome then s
  else
    let mine := s.coh.dir.filter fun e => dirSet e.1 == dirSet (line / 8)
    match mine with
    | [] => s
    | e :: _ =>
      if mine.length < 16 then s
      else
        let s1 := (List.range 8).foldl (fun st i =>
          (holdersOf st (8 * e.1 + i)).foldl (fun st' h => lineEvent st' h (8 * e.1 + i) 6) st) s
        modCoh s1 fun c => { c with dir := tdel c.dir e.1 }

/-- A holder takes a line in a state other than Invalid. -/
def takeLine (s : State) (holder line range st : Nat) : State :=
  if st == 0 then setLine s holder line range 0
  else setLine (dirRoom (filterRoom (l1Room s holder line) holder line) holder line) holder line range st

/-- A read miss that the predicted quad answers: the supplier's state stands, and its quad tells the home's directory, which
names the requester's quad once it has the notice. -/
def forwardRead (s : State) (core pa range next quad : Nat) : State :=
  let line := pa / 64
  let s0 := filterRoom (l1Room s core line) core line
  let s1 := notePredictor (modCoh s0 fun c => putLine c core line range next) core line quad
  modDie s1 (homeDie pa) fun d => { d with notices := d.notices ++ [(line, quad, core / 4)] }

/-- After a read miss at the home: a holder that f reached has supplied the line. -/
def supplied (s s1 : State) (core line range : Nat) (t : Trans) : State :=
  if bit t.msg 1 then
    match (holdersOf s line).find? fun h => h < 256 && permOf (rangeTable s range) (lineState s h line) == 2 with
    | some h => notePredictor s1 core line (h / 4)
    | none => s1
  else s1

/-- A read or write of a line under its range's table, by a holder or by a party that holds nothing (an engine, a
remote home access): LR, LW, or WF on a frozen line. The cause is WRITE_ONCE or PROTECTION when the entry faults. -/
def lineAccess (s : State) (self : Option Nat) (pa range : Nat) (write : Bool) : Except Nat State :=
  let line := pa / 64
  let st := match self with
    | some h => lineState s h line
    | none => 0
  let ev := if write then (if s.coh.frozen.contains line then 11 else 1) else 0
  let t := entryOf (rangeTable s range) st ev
  let miss := match self with
    | some h => !write && st == 0 && h < 256 && rangeSlot s range != 4
    | none => false
  match (if miss && (entryFault t).isNone then probedQuad s (self.getD 0) line range else none), eventFault s self line range ev t with
  | some q, _ => .ok (forwardRead s (self.getD 0) pa range t.next q)
  | none, some c => .error c
  | none, none =>
    let s0 := lineMessages s self line range ev t
    let s1 := if miss then supplied s s0 (self.getD 0) line range t else s0
    let s2 := match self with
      | some h => takeLine s1 h line range t.next
      | none => s1
    .ok (freeze s2 t line)

/-- The entry that an event of a partial (IN, QY, CL, FR) meets, under the table of the region's range: merge, unless RBIND
has since bound another (R423, R428). -/
def partialEntry (s : State) (d pa range ev : Nat) : Trans :=
  entryOf (rangeTable s range) (lineState s (holderPartial d) (pa / 64)) ev

/-- The event of a partial for the line of a region. -/
def partialEvent (s : State) (d pa range ev : Nat) : State :=
  let t := partialEntry s d pa range ev
  freeze (setLine (lineMessages s (some (holderPartial d)) (pa / 64) range ev t) (holderPartial d) (pa / 64) range t.next) t (pa / 64)

/-- FL at every line that a holder holds: PROMO (R217, R434). -/
def flushHolder (s : State) (holder : Nat) : State :=
  ((s.coh.lines.filter fun e => e.1 / 2 ^ 46 == holder).map fun e => e.1 % 2 ^ 46).foldl
    (fun st l => lineEvent st holder l 6) s

/-- FL at one line for every holder among these: CFLUSH (R218). -/
def flushLine (s : State) (line : Nat) (among : Nat → Bool) : State :=
  ((holdersOf s line).filter among).foldl (fun st h => lineEvent st h line 6) s

/-- FL under the old table for every line of a range that a holder holds: an RBIND that changes the table (R423). -/
def flushRange (s : State) (r : Nat) : State :=
  ((s.coh.lines.filter fun e => e.2 / 8 == r).map Prod.fst).foldl
    (fun st k => lineEvent st (k / 2 ^ 46) (k % 2 ^ 46) 6) s

/-- The zeroing of a page clears the frozen bits of its lines (R257, R429). -/
def thawLines (s : State) (pa size : Nat) : State :=
  modCoh s fun c => { c with frozen := c.frozen.filter fun l => !(pa / 64 ≤ l && l < (pa + size) / 64) }

end Sys2Proof.Machine
end

