-- ==== Sys2Proof/Machine/Translate.lean ====
section
/-! DEFINITION. Translation (R253 to R257, R415) and the place an address names in each space (R24 to R27, R203). -/

namespace Sys2Proof.Machine

/-- What an access asks of a leaf (R255, R218). -/
inductive Acc where
  | rd | wr | fetch | flush | look
  deriving DecidableEq, Repr

/-- A cause and its SUB, none where the manual states no subcode (log entry 10). -/
abbrev FaultCode := Nat × Option Nat

/-! ### Table entries (R254) -/

def leafRange (w : Nat) : Nat := bits w 57 52
def leafSketch (w : Nat) : Nat := bits w 13 11
def leafHostbus (w : Nat) : Bool := bit w 10
def leafZdone (w : Nat) : Bool := bit w 9
def leafZoa (w : Nat) : Bool := bit w 8
def leafProp (w : Nat) : Bool := bit w 6
def leafPriv (w : Nat) : Bool := bit w 5
def leafX (w : Nat) : Bool := bit w 4
def leafW (w : Nat) : Bool := bit w 3
def leafRd (w : Nat) : Bool := bit w 2

/-- Address bits below a page of level 1, 2 or 3 (R253). -/
def pageBits (level : Nat) : Nat := if level == 1 then 16 else if level == 2 then 21 else 30

/-- The physical base of a leaf's page. -/
def leafBase (w : Nat) : Nat := bits w 51 16 * 2 ^ 16

/-- TRAP_CAUSE.SUB of a translation fault: level in [1:0], reason in [7:2] (R255). -/
def walkSub (level reason : Nat) : Nat := level + 4 * reason

/-- The levels of a walk (R253): code, lowest VA bit indexed, index width, and the alignment of the next table. -/
def walkLevels : List (Nat × Nat × Nat × Nat) := [(0, 39, 17, 12), (3, 30, 9, 12), (2, 21, 9, 8), (1, 16, 5, 0)]

/-- Whether a leaf is malformed at its level (R255 item 2). -/
def leafMalformed (level w : Nat) : Bool :=
  level == 0 || bits w 63 58 != 0 || bits w 15 14 != 0 || leafBase w % 2 ^ pageBits level != 0 || 5 ≤ leafSketch w

/-- Whether a non-leaf entry is malformed at its level (R255 item 2). -/
def nodeMalformed (level align w : Nat) : Bool :=
  level == 1 || bits w 63 52 != 0 || bits w 7 2 != 0 || bits w 51 8 * 256 % 2 ^ align != 0

/-- The walk from a table (R253, R255 items 1 and 2): the place of the leaf entry, the leaf and its level. -/
def walkFrom (s : State) (va : Nat) (levels : List (Nat × Nat × Nat × Nat)) (table : Nat) :
    Except FaultCode (Nat × Nat × Nat) :=
  match levels with
  | [] => .error (cPageFault.toNat, some <| walkSub 1 1)
  | (level, lo, width, align) :: rest =>
    let at_ := paLoc s (table + 8 * bits va (lo + width - 1) lo)
    let w := readWord s at_
    if !bit w 0 then .error (cPageFault.toNat, some <| walkSub level 0)
    else if bit w 1 then
      if leafMalformed level w then .error (cPageFault.toNat, some <| walkSub level 1) else .ok (at_, w, level)
    else if nodeMalformed level align w then .error (cPageFault.toNat, some <| walkSub level 1)
    else walkFrom s va rest (bits w 51 8 * 256)

/-- What a leaf does not grant (R255 item 3), then the range checks of R415. -/
def leafFault (s : State) (level w : Nat) (acc : Acc) (priv host : Bool) : Option FaultCode :=
  let grants := match acc with
    | .rd => leafRd w
    | .wr => leafW w
    | .fetch => leafX w
    | .flush => leafRd w
    | .look => true
  if !grants || (leafPriv w && !priv) || leafHostbus w != host then some (cProtection.toNat, some <| walkSub level 2)
  else if !rangeValid s (leafRange w) || rangeProp s (leafRange w) != leafProp w then
    some (cProtection.toNat, some <| walkSub level 3)
  else none

/-- The zeroing of a page (R257): every byte zero, no poison, no frozen line; then ZDONE is set in the entry. -/
def zeroPage (s : State) (entry w level : Nat) : State :=
  let lo := paLoc s (leafBase w)
  let n := 2 ^ pageBits level
  let s1 := { s with
    mem := s.mem.filter fun c => !(lo ≤ c.1 && c.1 < lo + n)
    poison := s.poison.filter fun sec => !(lo / 32 ≤ sec && sec < (lo + n) / 32) }
  writeWord (thawLines s1 (leafBase w) n) entry (w + 2 ^ 9)

/-- A translation: the physical address and the leaf. -/
structure Xlat where
  pa : Nat
  leaf : Nat
  level : Nat
  deriving DecidableEq, Repr

/-- The physical address of a virtual address under a leaf. -/
def leafPa (w level va : Nat) : Nat := leafBase w + va % 2 ^ pageBits level

/-- The cached leaf that a virtual address hits: its ID and generation are current (R256). -/
def tlbHit (s : State) (asid va : Nat) : Option TlbEntry :=
  s.tlb.find? fun e =>
    e.asid.toNat == asid && e.gen == (spaceEntry s asid).gen &&
    e.base == va / 2 ^ pageBits e.level * 2 ^ pageBits e.level

/-- Translates an access: a cache hit, or a walk that zeroes the page when it must (R257) and fills the cache. The
error is a cause and SUB. -/
def translate (s : State) (asid : Nat) (priv : Bool) (va : Nat) (acc : Acc) (host : Bool) :
    Except FaultCode (State × Xlat) :=
  match tlbHit s asid va with
  | some e =>
    match leafFault s e.level e.leaf.toNat acc priv host with
    | some f => .error f
    | none => .ok (s, ⟨leafPa e.leaf.toNat e.level va, e.leaf.toNat, e.level⟩)
  | none =>
    match (spaceEntry s asid).root with
    | none => .error (cPageFault.toNat, some <| walkSub 0 0)
    | some root =>
      match walkFrom s va walkLevels root with
      | .error f => .error f
      | .ok (entry, w, level) =>
        match leafFault s level w acc priv host with
        | some f => .error f
        | none =>
          let zero := leafZoa w && !leafZdone w
          let s1 := if zero then zeroPage s entry w level else s
          let w' := if zero then w + 2 ^ 9 else w
          let e : TlbEntry :=
            { asid := BitVec.ofNat 16 asid, gen := (spaceEntry s asid).gen,
              base := va / 2 ^ pageBits level * 2 ^ pageBits level, level, leaf := BitVec.ofNat 64 w' }
          .ok ({ s1 with tlb := e :: s1.tlb }, ⟨leafPa w' level va, w', level⟩)

/-! ### Places -/

/-- The party of an access: its core when it is a lane, its die, ID and privilege (R23, R253). -/
structure Party where
  core : Option Nat
  die : Nat
  asid : Nat
  priv : Bool
  deriving DecidableEq, Repr

/-- What an address names: its cell; for a global one the physical address, range and sketch kind; whether its home is
another module, and whether it is a mailbox window (R523). -/
structure Place where
  loc : Nat
  global : Bool
  pa : Nat
  range : Nat
  sketch : Nat
  remote : Bool
  window : Bool
  deriving DecidableEq, Repr

/-- A place outside the global space. -/
def Place.plain (l : Nat) : Place :=
  { loc := l, global := false, pa := 0, range := 0, sketch := 0, remote := false, window := false }

/-- The die and offset of a physical address in a mailbox window of this module (R523). -/
def windowOf (s : State) (pa : Nat) : Option (Nat × Nat) :=
  let base := moduleNumber s * 2 ^ 42 + 0x3FFFF000000
  if base ≤ pa && pa < base + 4 * 0x10000 then some ((pa - base) / 0x10000, (pa - base) % 0x10000) else none

/-- A place reached through a leaf. -/
def globalPlace (s : State) (x : Xlat) : Place :=
  { loc := paLoc s x.pa, global := true, pa := x.pa, range := leafRange x.leaf, sketch := leafSketch x.leaf,
    remote := isRemote s x.pa, window := (windowOf s x.pa).isSome }

/-- Refuses a place whose cells firmware has reserved (R399, R518), and a window reached without PRIV (R523). -/
def guardPlace (s : State) (p : Place) (size leaf : Nat) : Except FaultCode (State × Place) :=
  if !p.remote && p.sketch == 0 && reservedCells s p.loc size then .error (cProtection.toNat, none)
  else if p.window && !leafPriv leaf then .error (cProtection.toNat, none)
  else .ok (s, p)

/-- The place of an address in a space a lane or an engine may name (R24, R25, R203), after the translation of the
global and host spaces. -/
def placeOf (s : State) (p : Party) (space : Space) (ea size : Nat) (acc : Acc) :
    Except FaultCode (State × Place) :=
  match space with
  | .global =>
    if 2 ^ 56 ≤ ea then .error (cProtection.toNat, none)
    else match translate s p.asid p.priv ea acc false with
      | .error f => .error f
      | .ok (s1, x) => guardPlace s1 (globalPlace s1 x) size x.leaf
  | .host =>
    if 2 ^ 56 ≤ ea then .error (cProtection.toNat, none)
    else match translate s p.asid p.priv ea acc true with
      | .error f => .error f
      | .ok (s1, x) => .ok (s1, Place.plain (hostLoc x.pa))
  | .carrel =>
    match p.core with
    | some c => if carrelBytes ≤ ea then .error (cProtection.toNat, none) else .ok (s, Place.plain (carrelLoc c ea))
    | none => .error (cProtection.toNat, none)
  | .rcarrel =>
    if 2 ^ 26 ≤ ea || carrelBytes ≤ ea % 2 ^ 20 then .error (cProtection.toNat, none)
    else .ok (s, Place.plain (carrelLoc (p.die * 64 + ea / 2 ^ 20) (ea % 2 ^ 20)))
  | .stacks =>
    if stacksBytes ≤ ea then .error (cProtection.toNat, none)
    else guardPlace s (Place.plain (stacksLoc p.die ea)) size 0
  | .accum | .folio => .error (cProtection.toNat, none)

/-! ### Generations (R237, R256) -/

/-- Raises an ID's generation; from 0xFFFF every entry of the ID is swept first. -/
def raiseGen (s : State) (asid : Nat) : State :=
  let e := spaceEntry s asid
  let s1 := if e.gen == 0xFFFF then { s with tlb := s.tlb.filter fun t => t.asid.toNat != asid } else s
  { s1 with spaces := tset s1.spaces asid { e with gen := e.gen + 1 } }

end Sys2Proof.Machine
end

