-- ==== Sys2Proof/Machine/Ops.lean ====
section
/-! DEFINITION. The operations every lane instruction is built from: registers and latches, fetching, transfers and
the loop nest, taking a trap and returning from one, aborting a transaction, and running one instruction over the
threads of a gathering. -/

namespace Sys2Proof.Machine

/-! ### Registers (R67, R70, R95, R104) -/

/-- A general register; g0 reads zero (R70). -/
def readG (t : Thread) (n : Nat) : Word := if n == 0 then 0 else tgetD t.g n 0

/-- A vector register with its tag. -/
def readV (t : Thread) (n : Nat) : VReg := tgetD t.v n ⟨0, 0⟩

/-- An xv register's f8e4 code (R96). -/
def readXv (t : Thread) (n : Nat) : Nat := t.xv.toNat / 2 ^ (8 * n) % 256

/-- An xv register written (R190). -/
def setXv (t : Thread) (n : Nat) (v : Nat) : Thread :=
  { t with xv := BitVec.ofNat 64 (t.xv.toNat - readXv t n * 2 ^ (8 * n) + v % 256 * 2 ^ (8 * n)) }

/-- The tag of a t-tile. -/
def tileTag (s : State) (c n : Nat) : FTag := tgetD (coreOf s c).mx.ttag n 0

/-- Writes a register of a thread: a write to g0 is discarded (R70), a written register holds no soft error (R258). -/
def writeReg (s : State) (tid : Nat) (r : Reg) (v : Wide) (tag : FTag) : State :=
  modThr s tid fun t =>
    let t1 := { t with eccRegs := t.eccRegs.filter (· != r) }
    match r with
    | .g n => if n == 0 then t1 else { t1 with g := tset t1.g n.toNat (v.setWidth 64) }
    | .v n => { t1 with v := tset t1.v n.toNat ⟨v, tag⟩ }
    | .xv n => setXv t1 n.toNat (v.toNat % 256)
    | _ => t1

/-- The latch lk of a thread. -/
def latchOf (t : Thread) (k : Nat) : Latch :=
  match k with
  | 0 => t.l0
  | 1 => t.l1
  | 2 => t.l2
  | _ => t.l3

/-- Sets the latch lk of a thread; a written latch holds no soft error, and an older result on its way to it no longer
reaches it. -/
def setLatch (t : Thread) (k : Nat) (l : Latch) : Thread :=
  let t1 : Thread := { t with
      eccLatches := t.eccLatches.filter (· != k)
      pend := t.pend.map fun (p : Pend) => if p.k == k then { p with live := false } else p }
  match k with
  | 0 => { t1 with l0 := l }
  | 1 => { t1 with l1 := l }
  | 2 => { t1 with l2 := l }
  | _ => { t1 with l3 := l }

/-- All four latches cleared (R73); a result on its way no longer reaches its latch. -/
def clearLatches (t : Thread) : Thread :=
  { t with l0 := Latch.reset, l1 := Latch.reset, l2 := Latch.reset, l3 := Latch.reset, eccLatches := [],
           pend := t.pend.map fun p => { p with live := false } }

/-- Result(x, tag) of R168: the pipe's latch, and the destination unless write-back is suppressed (R72). A 64-bit
result's latch carries tag 0x000 (R101). -/
def result (s : State) (tid k : Nat) (d : Dst) (wide : Bool) (v : Wide) (tag : FTag) : State :=
  let s1 := modThr s tid fun t => setLatch t k ⟨.valid, wide, v, if wide then tag else 0⟩
  match d with
  | .reg r => writeReg s1 tid r v tag
  | .latchOnly => s1

/-- A 64-bit result. -/
def resultG (s : State) (tid k : Nat) (d : Dst) (v : Nat) : State :=
  result s tid k d false ((BitVec.ofNat 64 v).setWidth 256) 0

/-- A 256-bit result. -/
def resultV (s : State) (tid k : Nat) (d : Dst) (v : Nat) (tag : FTag) : State :=
  result s tid k d true (BitVec.ofNat 256 v) tag

/-- A destination of an instruction that writes no latch. -/
def writeDst (s : State) (tid : Nat) (d : Dst) (v : Nat) : State :=
  match d with
  | .reg r => writeReg s tid r (BitVec.ofNat 256 v) 0
  | .latchOnly => s

/-- The tag of a type with an xv index; .b32 and .b64 are raw bits (R104). -/
def tagOf (t : Fmt) (xv : Nat) : FTag :=
  if isB t then 0 else (BitVec.ofNat 3 xv) ++ fmtCode t

/-! ### Source operands (R68) -/

/-- The 256 bits of a source. -/
def srcWide (t : Thread) (x : Src) : Wide :=
  match x with
  | .reg (.g n) => (readG t n.toNat).setWidth 256
  | .reg (.v n) => (readV t n.toNat).val
  | .reg (.xv n) => BitVec.ofNat 256 (readXv t n.toNat)
  | .reg _ => 0
  | .latch k => (latchOf t k.toNat).val

/-- The low 64 bits of a source. -/
def srcWord (t : Thread) (x : Src) : Word := (srcWide t x).setWidth 64

/-- The tag of a vector source or of a latch (R101). -/
def srcTag (t : Thread) (x : Src) : FTag :=
  match x with
  | .reg (.v n) => (readV t n.toNat).tag
  | .latch k => (latchOf t k.toNat).tag
  | _ => 0

/-- A source as a number: 64 bits, and 256 bits. -/
def srcN (t : Thread) (x : Src) : Nat := (srcWord t x).toNat
def srcW (t : Thread) (x : Src) : Nat := (srcWide t x).toNat

/-- Guard() of R168. -/
def guardTrue (t : Thread) (g : Guard) : Bool := ((readG t g.reg.toNat).getLsbD g.bit.toNat) != g.neg

/-! ### Program counters (R66, R87) -/

/-- The line address of a PC. -/
def lineOf (pc : Pc) : Nat := pc.toNat / 64 * 64

/-- The slot of a PC. -/
def slotOf (pc : Pc) : Nat := pc.toNat % 8

/-- The PC that a stored value names: PC[5:3] is always zero (R66). -/
def slotPc (v : Nat) : Pc := BitVec.ofNat 56 (v / 64 * 64 + v % 8)

/-- The slot after a PC (R66). -/
def nextSlot (pc : Pc) : Pc := if slotOf pc < 4 then pc + 1 else BitVec.ofNat 56 (lineOf pc + 64)

/-- The target of a class 0x3 target field (R87). -/
def targetPc (pc : Pc) (t : BitVec 24) : Pc :=
  let disp := (t.extractLsb' 3 21).toInt
  BitVec.ofInt 56 (((pc.toNat / 64 : Nat) : Int) + disp) * 64 + (t.extractLsb' 0 3).setWidth 56

/-! ### The fetch line (R76, R77) -/

/-- Whether a byte has an odd number of ones. -/
def oddOnes (b : Byte) : Bool := (List.range 8).foldl (fun acc i => acc != b.getLsbD i) false

/-- The parity byte that a line's bytes 0 to 62 call for (R77). -/
def parityOf (line : List Byte) : Nat :=
  (List.range 8).foldl (fun acc k =>
    let odd := (List.range 8).foldl (fun o i =>
      if 8 * k + i == 63 then o else o != oddOnes (line.getD (8 * k + i) 0)) false
    if odd then acc + 2 ^ k else acc) 0

/-- The colophon (R76). -/
def colophon (line : List Byte) : Nat := leNat ((line.drop 60).take 4)

/-- Check 1 of R91: the parity byte agrees. -/
def parityOk (line : List Byte) : Bool := parityOf line == bits (colophon line) 31 24

/-- Check 2 of R91: the colophon's reserved bits are zero (R83). -/
def colophonOk (line : List Byte) : Bool := bits (colophon line) 23 9 == 0

/-- PAIR bit j. -/
def pairBit (line : List Byte) (j : Nat) : Bool := j < 4 && bit (colophon line) (5 + j)

/-- TARGET bit i. -/
def targetBit (line : List Byte) (i : Nat) : Bool := bit (colophon line) i

/-- The twelve bytes of slot i (R65). -/
def slotBytes (line : List Byte) (i : Nat) : List Byte := (line.drop (12 * i)).take 12

/-- The key of a line in an instruction cache: address-space ID and line address. -/
def icacheKey (asid line : Nat) : Nat := asid * 2 ^ 56 + line

/-- The party of a thread (R23). -/
def partyOf (s : State) (tid : Nat) : Party :=
  let t := thr s tid
  let w := wgOf s t.wg
  { core := some t.core, die := dieOfCore t.core, asid := w.asid.toNat, priv := w.priv }

/-- The code of no cause: a line of another module whose answer has not come. -/
def lineAway : FaultCode := (0, none)

/-- Who needs a line of another module: the fetch unit of a core. -/
def fetchOwner (s : State) (tid line : Nat) : Owner :=
  .header (4096 + (thr s tid).core) (.global (wgOf s (thr s tid).wg).asid.toNat (BitVec.ofNat 64 line))

/-- A line of another module as its home has answered it (R438). -/
def farLine (s : State) (owner : Owner) : Except FaultCode (State × List Byte) :=
  let f := s.fabric
  match (f.asks.find? fun a => a.owner == owner).bind fun a => a.val.map fun v => (a, v) with
  | none => .error lineAway
  | some (a, v) =>
    if a.fault != 0 then .error (a.fault.toNat, none)
    else .ok ({ s with fabric := { f with asks := f.asks.filter fun a => a.owner != owner } },
      v.flatMap fun w => leBytes 32 w.toNat)

/-- A line read from memory: a translated fetch of 64 bytes (R255), from its home when that is another module. -/
def fetchMemory (s : State) (tid : Nat) (line : Nat) : Except FaultCode (State × List Byte) :=
  match placeOf s (partyOf s tid) .global line 64 .fetch with
  | .error f => .error f
  | .ok (s1, p) => if p.remote then farLine s1 (fetchOwner s tid line) else .ok (s1, readBytes s1 p.loc 64)

/-- Lines that a core's instruction cache of 64 KiB holds (R1). -/
def icacheLines : Nat := 1024

/-- A line put into an instruction cache; into a full one in place of the line of the lowest key (log entry 26). -/
def cacheLine (m : FMap (List Byte)) (key : Nat) (bs : List Byte) : FMap (List Byte) :=
  if m.length < icacheLines || (tget m key).isSome then tset m key bs else tset (m.drop 1) key bs

/-- A line as the fetch unit gives it: from the cache, and once more from memory when its parity fails (R77). -/
def fetchLine (s : State) (tid : Nat) (line : Nat) : Except FaultCode (State × List Byte) :=
  let c := (thr s tid).core
  let key := icacheKey (wgOf s (thr s tid).wg).asid.toNat line
  let fill : Except FaultCode (State × List Byte) :=
    match fetchMemory s tid line with
    | .error f => .error f
    | .ok (s1, bs) => .ok (modCore s1 c fun x => { x with icache := cacheLine x.icache key bs }, bs)
  match tget (coreOf s c).icache key with
  | some bs => if parityOk bs then .ok (s, bs) else fill
  | none => fill

/-- Whether a line is in the thread's instruction cache (R140). -/
def lineCached (s : State) (tid : Nat) : Bool :=
  let t := thr s tid
  (tget (coreOf s t.core).icache (icacheKey (wgOf s t.wg).asid.toNat (lineOf t.pc))).isSome

/-- Whether a transfer to a target would trap BAD_TARGET: the PC names no slot, or the target line passes checks 1 and
2 and its TARGET bit is clear (R81, R87, R91). Of a line of another module that is not here the bit is a free value (log
entry 93). -/
def targetClear (s : State) (tid : Nat) (target : Pc) : Bool :=
  if 4 < target.toNat % 64 then true
  else match fetchLine s tid (lineOf target) with
  | .error f => f == lineAway && Config.farTarget s.clock target.toNat
  | .ok (_, line) => parityOk line && colophonOk line && !targetBit line (slotOf target)

/-! ### Log areas (R161, R165) -/

/-- Two runs of cells meet. -/
def overlap (a n b m : Nat) : Bool := a < b + m && b < a + n && n != 0 && m != 0

/-- The running transactions whose log area meets some cells: workgroup and key (R161, R165). -/
def logsMet (s : State) (l n : Nat) : List (Nat × Nat) :=
  if l < 2 ^ 60 || 2 * 2 ^ 60 ≤ l then []
  else s.wgs.flatMap fun e =>
    (e.2.txs.filter fun x => overlap l n (carrelLoc e.2.core x.2.logBase) 16384).map fun x => (e.1, x.1)

/-- Loads bytes: a log area reads zero while its transaction runs (R165). -/
def loadBytes (s : State) (l n : Nat) : List Byte :=
  if (logsMet s l n).isEmpty then readBytes s l n
  else (List.range n).map fun i => if (logsMet s (l + i) 1).isEmpty then Memory.get s.mem (l + i) else 0

/-! ### Traps -/

/-- A trap with what its cause states. -/
def trapOf (cause : BitVec 8) (addr : Option Nat) : TrapInfo :=
  { cause, sub := none, addr := addr.map (BitVec.ofNat 64), decode := false, second := false, pc := none,
    resume := none }

/-- A trap of a fault code with its address. -/
def trapCode (f : FaultCode) (addr : Nat) : TrapInfo :=
  { trapOf (BitVec.ofNat 8 f.1) (some addr) with sub := f.2.map (BitVec.ofNat 8) }

/-- A decode trap (R91 items 1 to 5). -/
def decodeTrap (cause : BitVec 8) : TrapInfo := { trapOf cause none with decode := true }

/-- BAD_TARGET of a transfer (R81). -/
def badTarget (target : Pc) : TrapInfo := trapOf cBadTarget (some target.toNat)

/-! ### The loop nest (R147, R148, R151) -/

/-- A level as three doublewords. -/
def levelWords (l : LoopLevel) : List Nat := [l.start.toNat, l.stop.toNat, l.count.toNat]

/-- Four levels, outermost first, absent levels zero: 96 bytes (R151). The nest keeps its innermost level first. -/
def nestBytes (nest : List LoopLevel) : List Byte :=
  let out := nest.reverse
  (List.range 4).flatMap fun i =>
    match out[i]? with
    | some l => (levelWords l).flatMap (leBytes 8)
    | none => List.replicate 24 0

/-- The nest of four saved levels: none when a level's reserved bits are set, or a level at or above the depth is not
zero (R151). -/
def nestOf (depth : Nat) (bs : List Byte) : Option (List LoopLevel) :=
  let word (i k : Nat) : Nat := leNat ((bs.drop (24 * i + 8 * k)).take 8)
  let okLevel (i : Nat) : Bool :=
    if i < depth then word i 0 < 2 ^ 56 && word i 1 < 2 ^ 56 && word i 2 < 2 ^ 32
    else word i 0 == 0 && word i 1 == 0 && word i 2 == 0
  if depth ≤ 4 && (List.range 4).all okLevel then
    some ((List.range depth).map fun i =>
      (⟨slotPc (word i 0), slotPc (word i 1), BitVec.ofNat 32 (word i 2)⟩ : LoopLevel)).reverse
  else none

/-- A taken branch pops the levels whose body does not hold its target, innermost first (R148). -/
def popTo (nest : List LoopLevel) (target : Pc) : List LoopLevel :=
  match nest with
  | [] => []
  | l :: rest => if l.start ≤ target && target ≤ l.stop then l :: rest else popTo rest target

/-- Watchdog progress of a workgroup (R156). -/
def progress (s : State) (wg : Nat) : State := modWg s wg fun w => { w with wdog := 0 }

/-! ### Trap frames (R245, R246) -/

/-- The 256 bytes of a trap frame. -/
def frameBytes (t : Thread) (resume : Pc) (paired : Bool) : List Byte :=
  let ls := [t.l0, t.l1, t.l2, t.l3]
  let valid (l : Latch) : Bool := l.st == .valid
  let flag (f : Latch → Bool) (lo : Nat) : Nat :=
    (List.range 4).foldl (fun acc k => if f (ls.getD k Latch.reset) then acc + 2 ^ (lo + k) else acc) 0
  let tags := (List.range 4).foldl (fun acc k =>
    let l := ls.getD k Latch.reset
    if valid l then acc + l.tag.toNat * 2 ^ (16 * k) else acc) 0
  let flags := t.nest.length + (if paired then 32 else 0) + flag valid 6 + flag (fun l => valid l && l.wide) 10
  leBytes 8 resume.toNat ++ leBytes 8 flags ++ leBytes 8 tags ++ nestBytes t.nest ++ leBytes 8 0 ++
    ls.flatMap fun l => leBytes 32 (if valid l then l.val.toNat else 0)

/-- The resume state a frame holds: PC, nest and latches; none when R246 calls for ILLEGAL_FIELD. -/
def frameState (bs : List Byte) : Option (Pc × List LoopLevel × List Latch) :=
  let word (k : Nat) : Nat := leNat ((bs.drop (8 * k)).take 8)
  let flags := word 1
  let tags := word 2
  let rz := word 0 < 2 ^ 56 && bits flags 63 14 == 0 && bits flags 4 3 == 0 && word 15 == 0 &&
    (List.range 4).all fun k => bits tags (16 * k + 15) (16 * k + 9) == 0
  if !rz then none
  else match nestOf (flags % 8) ((bs.drop 24).take 96) with
    | none => none
    | some nest =>
      some (slotPc (word 0), nest, (List.range 4).map fun k =>
        if bit flags (6 + k) then
          (⟨.valid, bit flags (10 + k),
            BitVec.ofNat 256 (if bit flags (10 + k) then leNat ((bs.drop (128 + 32 * k)).take 32) else word (16 + 4 * k)),
            BitVec.ofNat 9 (bits tags (16 * k + 8) (16 * k))⟩ : Latch)
        else Latch.reset)

/-- A thread with the latches of a frame; they stand until its next issue (R75). -/
def restoreLatches (t : Thread) (ls : List Latch) : Thread :=
  { t with l0 := ls.getD 0 Latch.reset, l1 := ls.getD 1 Latch.reset, l2 := ls.getD 2 Latch.reset,
           l3 := ls.getD 3 Latch.reset, latchKeep := true }

/-! ### Clock gating (R153) and stopping a workgroup (R157) -/

/-- The threads of a workgroup. -/
def threadsOfWg (s : State) (wg : Nat) : List Nat := (s.threads.filter fun e => e.2.wg == wg).map Prod.fst

/-- The workgroups that run on a core. -/
def wgsOnCore (s : State) (c : Nat) : List Nat :=
  (s.wgs.filter fun e => e.2.core == c && e.2.st == .running).map Prod.fst

/-- The threads of a core that may issue once they wait for nothing: of running workgroups, not exited. -/
def liveThreads (s : State) (c : Nat) : List Nat :=
  let ws := wgsOnCore s c
  (s.threads.filter fun e => ws.contains e.2.wg && !e.2.exited).map Prod.fst

/-- A core gates its clock when every resident quire is wholly suspended, or it holds no workgroup (R153). -/
def regate (s : State) (c : Nat) : State :=
  if (liveThreads s c).all fun i => (thr s i).wait.isSome then
    if (coreOf s c).gated then s else modCore s c fun x => { x with gated := true, events := [] }
  else s

/-- Ends a workgroup's run at once; its slots are freed later (R157). -/
def haltNow (s : State) (wg : Nat) (cause : BitVec 8) : State :=
  let w := wgOf s wg
  let s1 := setWg s wg { w with st := .stopped, cause, txs := [] }
  regate (modCore s1 w.core fun x => { x with gath := x.gath.filter fun i => tidWg i != wg }) w.core

/-- Stops every quire of a workgroup at its next instruction boundary (R157). While a pre-emption of the workgroup is in
progress its save goes on first, and its matrix quires still run to their PPOINT (R132). -/
def stopWg (s : State) (wg : Nat) (cause : BitVec 8) : State :=
  let w := wgOf s wg
  if w.st == .running && w.preempt then
    let s1 := setWg s wg { w with cause := if w.cause == 0 then cause else w.cause }
    modCore s1 w.core fun x => { x with gath := x.gath.filter fun i => !(tidWg i == wg && w.atPoint.contains (tidQuire i)) }
  else if w.st == .running || w.st == .saved then haltNow s wg cause
  else s

/-- A quire whose own fault stops its workgroup issues nothing more, a pre-emption in progress or not (R132). -/
def holdQuire (s : State) (tid : Nat) : State :=
  let w := wgOf s (tidWg tid)
  if w.preempt && !w.atPoint.contains (tidQuire tid) then
    setWg s (tidWg tid) { w with atPoint := w.atPoint ++ [tidQuire tid] }
  else s

/-- A fault of a thread stops its workgroup. -/
def stopThread (s : State) (tid : Nat) (cause : BitVec 8) : State := stopWg (holdQuire s tid) (tidWg tid) cause

/-! ### Taking a trap (R244) and returning from one (R246) -/

/-- The value of a part that the manual may leave open (log entry 10). -/
def orFree (s : State) (v : Option Nat) : Nat × State :=
  match v with
  | some x => (x, s)
  | none => ((drawFree s).1.toNat, (drawFree s).2)

/-- TakeTrap of R244 for one thread, but for the transactions whose log area its frame meets. `paired`: the unit is a pair,
whose slot j the thread's PC names (R79). -/
def enterTrap (s : State) (tid : Nat) (i : TrapInfo) (paired : Bool) : State :=
  let t := thr s tid
  let (sub, s1) := orFree s (i.sub.map BitVec.toNat)
  let (addr, s2) := orFree s1 (i.addr.map BitVec.toNat)
  let pc := i.pc.getD t.pc
  let resume := i.resume.getD pc
  let f := t.trapFrame.toNat * 256
  if !t.trapVecEn || t.hmode then
    stopThread (report s2 (wgOf s t.wg).context
      (laneRec s2 tid (if t.hmode then cDouble else i.cause).toNat (sub % 256) pc.toNat addr))
      tid (if t.hmode then cDouble else i.cause)
  else if carrelBytes < f + 256 then
    stopThread (report s2 (wgOf s t.wg).context (laneRec s2 tid cDouble.toNat (sub % 256) pc.toNat addr)) tid cDouble
  else
    let s3 := writeBytes s2 (carrelLoc t.core f) (frameBytes t resume (paired && i.pc.isNone))
    modThr s3 tid fun t =>
      { clearLatches t with
        trapCause := BitVec.ofNat 18 (i.cause.toNat + sub % 256 * 2 ^ 8 + (if i.second then 2 ^ 16 else 0) +
          (if i.decode then 2 ^ 17 else 0))
        trapPc := pc
        trapAddr := BitVec.ofNat 64 addr
        hmode := true
        nest := []
        pc := slotPc t.trapVecPc.toNat
        pend := (clearLatches t).pend.filter fun p => p.k < 4
        latchKeep := false }

/-- What TRET finds (R246): a trap, or the resume state. Its frame is read as a load of the thread (log entry 94). -/
def trapReturn (s : State) (tid : Nat) : Except TrapInfo (Pc × List LoopLevel × List Latch) :=
  let t := thr s tid
  let f := t.trapFrame.toNat * 256
  if !t.hmode then .error (trapOf cProtection none)
  else if carrelBytes < f + 256 then .error (trapOf cProtection none)
  else if poisoned s (carrelLoc t.core f) 256 then .error (trapOf cPoison (some f))
  else match frameState (loadBytes s (carrelLoc t.core f) 256) with
    | none => .error (trapOf cIllegalField none)
    | some r => .ok r

/-! ### Transactions: membership and abort (R161, R164, R165, R166) -/

/-- The transaction that a thread takes part in, with its key in its workgroup: quire · 32 + lowest lane at TXBEG. -/
def txEntry (s : State) (tid : Nat) : Option (Nat × Tx) :=
  (wgOf s (tidWg tid)).txs.find? fun e => e.1 / 32 == tidQuire tid && e.2.parts.any fun p => p.lane == tidLane tid

/-- What a key that names no transaction reads as. -/
def blankTx : Tx := { logBase := 0, beg := 0, dst := .latchOnly, parts := [], log := [], lines := [], reads := [] }

/-- The transaction that a thread takes part in. -/
def txOf (s : State) (tid : Nat) : Option Tx := (txEntry s tid).map Prod.snd

/-- The participants of a transaction. -/
def txTids (wg key : Nat) (x : Tx) : List Nat := x.parts.map fun p => tidOf wg (key / 32) p.lane

/-- The WAKE_WHY event of a suspension that ends: its code, quire and DETAIL (R155, R249). -/
def wakeWord (tid : Nat) (w : Wait) : Nat × Nat × Word :=
  let q := tidQuire tid
  match w.code with
  | 0 => (3, q, w.a)
  | 1 => (4, q, w.a)
  | 2 => (1, q, w.a)
  | 3 => (2, q, BitVec.ofNat 64 (w.a.toNat % 2 ^ 56))
  | 4 => (5, q, w.a)
  | 5 => (3, q, BitVec.ofNat 64 (w.b.toNat % 2 ^ 63))
  | 6 => (3, q, w.b)
  | k => (8, q, BitVec.ofNat 64 k)

/-- An event that reaches a clock-gated core is kept for WAKE_WHY (R155). -/
def noteWake (s : State) (c : Nat) (e : Nat × Nat × Word) : State :=
  if (coreOf s c).gated then modCore s c fun x => { x with events := x.events ++ [e] } else s

/-- The end of a thread's suspension reaches its core (R154, R155). -/
def endWait (s : State) (tid : Nat) : State :=
  match (thr s tid).wait with
  | none => s
  | some w =>
    noteWake (modThr s tid fun t => { t with wait := none, undo := none, pend := t.pend.filter fun p => p.k < 4 })
      (thr s tid).core (wakeWord tid w)

/-- Aborts a transaction at once for every participant (R164): the log goes, each nest is restored, the code (R165) is
written, and each transfers to the slot after TXBEG under R81, leaving its gathering. Threads in `skip` take a trap of
their own instead of the check. -/
def abortTx (s : State) (wg key : Nat) (code operand : Nat) (skip : List Nat) : State :=
  match tget (wgOf s wg).txs key with
  | none => s
  | some x =>
    let after := nextSlot x.beg
    let value := code % 256 + (if code == 4 then operand % 256 * 256 else 0)
    let tids := txTids wg key x
    let s1 := modWg s wg fun w => { w with txs := tdel w.txs key }
    let s2 := modCore s1 (wgOf s wg).core fun c => { c with gath := c.gath.filter fun i => !tids.contains i }
    x.parts.foldl (fun st p =>
      let i := tidOf wg (key / 32) p.lane
      let st1 := writeDst (modThr (endWait st i) i fun t =>
        { clearLatches t with nest := p.nest, pc := after, moved := true, latchKeep := false }) i x.dst value
      if !skip.contains i && targetClear st1 i after then
        enterTrap st1 i { badTarget after with pc := some x.beg } false
      else st1) s2

/-- The frames that some threads have just stored, which they had not when `s0` stood: a frame in the log area of a running
transaction aborts it with code 9, and a trap that such an abort takes stores a frame in its turn (R165, R244). -/
def noteFrames (fuel : Nat) (s0 s : State) (tids : List Nat) : State :=
  match fuel with
  | 0 => s
  | n + 1 =>
    (tids.filter fun i => (thr s i).hmode && !(thr s0 i).hmode).foldl (fun st i =>
      (logsMet st (carrelLoc (thr st i).core ((thr st i).trapFrame.toNat * 256)) 256).foldl (fun st x =>
        noteFrames n st (abortTx st x.1 x.2 9 0 []) (txTids x.1 x.2 ((tget (wgOf st x.1).txs x.2).getD blankTx))) st) s

/-- Frames that can follow one another: each ends a transaction, and a core runs at most 256 threads. -/
def frameFuel : Nat := 257

/-- TakeTrap of R244 for one thread. -/
def takeTrap (s : State) (tid : Nat) (i : TrapInfo) (paired : Bool) : State :=
  noteFrames frameFuel s (enterTrap s tid i paired) [tid]

/-- Aborts a transaction at once for every participant (R164), with the frames of the traps that this takes. -/
def txAbort (s : State) (wg key : Nat) (code operand : Nat) (skip : List Nat) : State :=
  match tget (wgOf s wg).txs key with
  | none => s
  | some x => noteFrames frameFuel s (abortTx s wg key code operand skip) (txTids wg key x)

/-- An abort raised by a participant. -/
def txAbortBy (s : State) (tid : Nat) (code operand : Nat) : State :=
  match txEntry s tid with
  | none => s
  | some e => txAbort s (tidWg tid) e.1 code operand []

/-- A trap of a thread of an issue: inside a transaction the transaction aborts with code 5 first, and TRAP_PC is that
of the outermost TXBEG, RESUME the slot after it (R166). DESIGN CHOICE: where another participant of the same issue has
aborted the transaction with a code of its own before, in lane order, that code stands (log entry 75). -/
def trapThread (s : State) (tid : Nat) (i : TrapInfo) (paired : Bool) (all : List Nat) : State :=
  match txEntry s tid with
  | some (key, x) =>
    takeTrap (txAbort s (tidWg tid) key 5 0 all) tid
      { i with pc := some x.beg, resume := some (nextSlot x.beg) } false
  | none =>
    -- a trap of a thread whose transaction another trap of this issue has just aborted keeps its place
    if (thr s tid).moved then
      let after := (thr s tid).pc
      let beg : Pc := if slotOf after == 0 then BitVec.ofNat 56 (after.toNat - 64 + 4) else after - 1
      takeTrap s tid { i with pc := some beg, resume := some after } false
    else takeTrap s tid i paired

/-! ### Running one instruction over a gathering (R167) -/

/-- What an instruction does for one thread. -/
inductive LaneRes where
  /-- It completes, and the thread goes on to the next slot. -/
  | done (s : State)
  /-- It completes, and its gathering is switched (YIELD, R199). -/
  | yield (s : State)
  /-- It takes a transfer of control (R141), already checked under R81. -/
  | jump (s : State) (target : Pc)
  /-- It traps, with no effect. -/
  | trap (i : TrapInfo)
  /-- It suspends the thread until the wait is over. -/
  | wait (s : State) (w : Wait)
  /-- It holds the whole gathering's issue, with no effect (R30, R249 code 63). -/
  | hold (w : Wait)
  /-- It must issue again later, with no effect and no group switch (R73, R453). The state differs from the one at issue
  only in a request that has left (R452). -/
  | stall (s : State)

/-- How an operand must be held (R73, R105). -/
inductive Need where
  /-- 64 bits. -/
  | word
  /-- 256 bits whose tag a type checks. -/
  | typed (t : Fmt)
  /-- 256 bits, any tag. -/
  | raw
  /-- Any width. -/
  | either
  deriving DecidableEq, Repr

/-- Whether a latch source is cleared or of another width than the operand takes (R73). -/
def latchBad (t : Thread) (x : Src) (n : Need) : Bool :=
  match x with
  | .latch k =>
    let l := latchOf t k.toNat
    l.st != .valid || (match n with
      | .word => l.wide
      | .typed _ | .raw => !l.wide
      | .either => false)
  | _ => false

/-- A tag check (R105): .b32 and .b64 accept every tag. -/
def tagBad (tag : FTag) (t : Fmt) : Bool := !isB t && tag.extractLsb' 0 6 != fmtCode t

/-- The operand checks of R167: ILLEGAL_LATCH for any source first, then FORMAT_MISMATCH. -/
def operandTrap (t : Thread) (needs : List (Src × Need)) : Option (BitVec 8) :=
  if needs.any fun x => latchBad t x.1 x.2 then some cIllegalLatch
  else if needs.any fun x =>
      match x.2 with
      | .typed ty => tagBad (srcTag t x.1) ty
      | _ => false
    then some cFormatMismatch
  else none

/-- A source whose result has not arrived: a pending latch, or a register that a pending load will write, an LDK's flag
included (R14, R73, R214). -/
def srcPending (t : Thread) (x : Src) : Bool :=
  match x with
  | .latch k => (latchOf t k.toNat).st == .pending
  | .reg r => t.pend.any fun p => p.dst == .reg r || p.flag.any fun f => f.1 == r

/-- An uncorrectable error in a source (R258): the operand field's value. -/
def srcEcc (t : Thread) (x : Src) : Option Nat :=
  let hit := match x with
    | .latch k => t.eccLatches.contains k.toNat
    | .reg r => t.eccRegs.contains r
  if hit then some (srcCode x).toNat else none

/-- The first source with an uncorrectable error, the guard's register among them. -/
def eccHit (t : Thread) (o : Ops) : Option Nat :=
  [Src.reg (.g o.gd.reg), o.a, o.b, o.c].findSome? (srcEcc t)

/-- Whether a thread's issue must stall: a source, the guard or the destination waits for a result. -/
def mustStall (t : Thread) (o : Ops) : Bool :=
  !t.pend.isEmpty &&
    (srcPending t (.reg (.g o.gd.reg)) ||
      (guardTrue t o.gd && (srcPending t o.a || srcPending t o.b || srcPending t o.c ||
        match o.d with
        | .latchOnly => false
        | .reg r => srcPending t (.reg r))))

/-- A register at or beyond its role's budget (R138). -/
def beyondBudget (w : Workgroup) (quire : Nat) (r : Reg) : Bool :=
  let role := match w.roles.getD quire .general with
    | .general => 0
    | .copy => 1
    | .matrix => 2
    | .epilogue => 3
  match r with
  | .g n => w.gcount.getD role 128 ≤ n.toNat
  | .v n => w.vcount.getD role 32 ≤ n.toNat
  | _ => false

/-- Whether an operand field of the instruction names a register beyond the budget (R138). -/
def opsBeyond (w : Workgroup) (quire : Nat) (o : Ops) : Bool :=
  let src (x : Src) : Bool := match x with
    | .reg r => beyondBudget w quire r
    | .latch _ => false
  (match o.d with
   | .reg r => beyondBudget w quire r
   | .latchOnly => false) || src o.a || src o.b || src o.c

/-- The soft error that an implicit read of xv registers meets, once no operand has one (R258). -/
def withXv (t : Thread) (o : Ops) (ns : List Nat) (r : LaneRes) : LaneRes :=
  match ns.findSome? fun n => srcEcc t (.reg (.xv (BitVec.ofNat 3 n))) with
  | some f => if (eccHit t o).isNone then .trap (trapOf cEccUncorrected (some f)) else r
  | none => r

/-- The gathering of the core that issues, in ascending lane number. -/
def gathering (s : State) : List Nat := (coreOf s s.cur).gath

/-- The gathering as the unit's issue began: an abort of its first member leaves it (R146). -/
def unitGroup (s : State) : List Nat := if s.issue.group.isEmpty then gathering s else s.issue.group

/-- The PC of the instruction being executed: the second member of a pair stands one slot on. -/
def insPc (s : State) (tid : Nat) : Pc :=
  match s.issue.member with
  | .second => (thr s tid).pc + 1
  | _ => (thr s tid).pc

/-- The slots of the unit that ends with this instruction. -/
def unitPcs (s : State) (tid : Nat) : List Pc :=
  match s.issue.member with
  | .second => [(thr s tid).pc, (thr s tid).pc + 1]
  | _ => [(thr s tid).pc]

/-- The active threads of the issuing thread's own quire within the gathering: its operand set (R144). -/
def operandSet (s : State) (tid : Nat) (g : Guard) : List Nat :=
  (gathering s).filter fun i =>
    tidQuire i == tidQuire tid && guardTrue (thr s i) g && !(s.issue.traps.any fun x => x.1 == i)

/-- The end-of-body test of R15 for a thread that completes the slots `pcs`: where it goes, its nest and whether a
level popped; none when the return to START traps BAD_TARGET (R81). DESIGN CHOICE: a level whose COUNT is 0, which only
an edited frame brings in, counts down modulo 2^32 and returns to START; R15 speaks of counts of one and above (log
entry 73). -/
def loopEnd (s : State) (tid : Nat) (pcs : List Pc) (next : Pc) : Except Pc (Pc × List LoopLevel × Bool × Bool) :=
  let t := thr s tid
  match t.nest with
  | [] => .ok (next, [], false, false)
  | l :: rest =>
    if !pcs.contains l.stop then .ok (next, t.nest, false, false)
    else if l.count == 1 then .ok (next, rest, true, false)
    else if targetClear s tid l.start then .error l.start
    else .ok (l.start, { l with count := l.count - 1 } :: rest, false, true)

/-- Advances a thread past the unit: the loop nest acts (R15), and a pop is watchdog progress (R156). The flag says a
return was taken. -/
def advance (s : State) (tid : Nat) (pcs : List Pc) (next : Pc) : State × Bool :=
  match loopEnd s tid pcs next with
  | .error _ => (s, false)
  | .ok (pc, nest, popped, ret) =>
    let s1 := modThr s tid fun t => { t with pc, nest }
    (if popped then progress s1 (thr s tid).wg else s1, ret)

/-- The result of a whole issue as it builds up. -/
structure Issued where
  st : State
  traps : List (Nat × TrapInfo)
  jumps : List (Nat × Pc)
  waits : List (Nat × Wait)
  hold : Option Wait
  stall : Option State
  switch : Bool

/-- One thread's part of an instruction: guard, operand checks, the effect, soft errors last (R167, R171), and the
end-of-body check before anything stands (R81, R152). -/
def lanePart (s0 : State) (o : Ops) (needs : State → Nat → List (Src × Need))
    (body : State → State → Nat → LaneRes) (acc : Issued) (tid : Nat) : Issued :=
  let s := acc.st
  let t := thr s tid
  let second := s.issue.member == .second
  let mark (i : TrapInfo) : Issued := { acc with traps := acc.traps ++ [(tid, { i with second })] }
  let next := nextSlot (insPc s0 tid)
  let check (s' : State) (ok : Issued) : Issued :=
    if s.issue.member == .first || (thr s' tid).moved || (thr s' tid).exited then ok
    else match loopEnd s' tid (unitPcs s0 tid) next with
      | .error target => mark (badTarget target)
      | .ok _ => ok
  if acc.hold.isSome || acc.stall.isSome || t.moved then acc
  else if !guardTrue t o.gd then
    match srcEcc t (.reg (.g o.gd.reg)) with
    | some f => mark (trapOf cEccUncorrected (some f))
    | none => check s acc
  else match operandTrap t (needs s tid) with
    | some c => mark (trapOf c none)
    | none =>
      match body s0 s tid with
      | .trap i => mark i
      | .hold w => { acc with hold := some w }
      | .stall s' =>
        -- a request that the body has sent has left for good: the instruction's own traps come first (R246)
        match eccHit t o, s.issue.member == .first || (thr s tid).moved, loopEnd s tid (unitPcs s0 tid) next with
        | some f, _, _ => mark (trapOf cEccUncorrected (some f))
        | none, false, .error target => mark (badTarget target)
        | none, _, _ => { acc with stall := some s' }
      | r =>
        match eccHit t o with
        | some f => mark (trapOf cEccUncorrected (some f))
        | none =>
          match r with
          | .done s' => check s' { acc with st := s' }
          | .yield s' => check s' { acc with st := s', switch := true }
          | .jump s' target => { acc with st := s', jumps := acc.jumps ++ [(tid, target)] }
          | .wait s' w => check s' { acc with st := s', waits := acc.waits ++ [(tid, w)] }
          | _ => acc

/-- Clears the latches of the core's lanes at a group switch (R146); in deterministic mode those of the gathering
(R134). Latches put back by TRET or a restore stand (R75). -/
def switchLatches (s : State) (c : Nat) (g : List Nat) (det : Bool) : State :=
  { s with threads := s.threads.map fun e =>
      if e.2.core == c && (!det || g.contains e.1) && !e.2.latchKeep then (e.1, clearLatches e.2) else e }

/-- Whether the workgroup of a gathering runs in deterministic mode. -/
def detGathering (s : State) (g : List Nat) : Bool :=
  match g with
  | [] => false
  | i :: _ => (wgOf s (tidWg i)).det

/-- The pair of quires whose threads a unit leaves together at one program counter, none lost: it stays fused (R143). -/
def stillFused (s : State) (g rest : List Nat) : List (Nat × Nat × Pc) :=
  match g with
  | [] => []
  | i :: _ =>
    match g.find? fun j => j / 32 != i / 32 with
    | none => []
    | some j => if rest == g && g.all fun k => (thr s k).pc == (thr s i).pc then [(i / 32, j / 32, (thr s i).pc)] else []

/-- The gathering left after a unit, and the turn passed on in deterministic mode (R134, R260). -/
def settle (s : State) (c : Nat) (g rest : List Nat) (switch : Bool) : State :=
  let det := detGathering s g
  let s1 := if switch then switchLatches s c g det else s
  let keep := if switch then [] else rest
  if det then
    match g with
    | [] => s1
    | i :: _ =>
      let s2 := modWg s1 (tidWg i) fun w =>
        { w with detGath := tset w.detGath (tidQuire i) keep, turn := (tidQuire i + 1) % max 1 w.roles.length }
      regate (modCore s2 c fun x => { x with gath := [] }) c
  else regate (modCore s1 c fun x =>
    { x with gath := keep, fused := if switch then x.fused ++ stillFused s1 g rest else x.fused }) c

/-- RETIRED of the core and of the workgroup (R234). -/
def retire (s : State) (c : Nat) (g : List Nat) (n : Nat) : State :=
  let s1 := modCore s c fun x => { x with retired := x.retired + BitVec.ofNat 64 n }
  match g with
  | [] => s1
  | i :: _ => modWg s1 (tidWg i) fun w => { w with retired := w.retired + BitVec.ofNat 64 n }

/-- Holds a gathering: its threads suspend with code 63, the issue without effect (R249). DESIGN CHOICE: a hold is a suspension, so it clears the latches (R73), those that the held instruction itself
names included, and the instruction then traps ILLEGAL_LATCH when it issues again (log entry 36). -/
def holdGathering (s : State) (g : List Nat) (w : Wait) : State :=
  let s1 := g.foldl (fun st i => modThr st i fun t => { t with wait := some w }) s
  settle s1 s1.cur g [] true

/-- A suspension as the thread keeps it: whether its unit is a pair, and what the issue adds to RETIRED (R234). -/
def suspended (s : State) (n count : Nat) (w : Wait) : Wait :=
  { w with paired := n == 2, unit := s.clock * 256 + s.cur, count }

/-- Completes a unit of n members: transfers, suspensions, the loop nest, then the traps, RETIRED and the switch
(R15, R141, R234, R244). -/
def finishUnit (s0 : State) (r : Issued) (n : Nat) : State :=
  let g := unitGroup s0
  let c := s0.cur
  let traps := s0.issue.traps ++ r.traps
  let waits := s0.issue.waits ++ r.waits
  let stay := g.filter fun i => !(traps.any fun x => x.1 == i)
  let s1 := stay.foldl (fun (acc : State × Bool) i =>
    let t := thr acc.1 i
    if t.moved then (modThr acc.1 i fun t => { t with moved := false }, true)
    else if t.exited then acc
    else match r.jumps.find? fun x => x.1 == i with
      | some (_, target) => (modThr acc.1 i fun t => { t with pc := target }, true)
      | none =>
        match waits.find? fun x => x.1 == i with
        | some (_, w) =>
          (modThr acc.1 i fun t => { t with wait := some (suspended s0 n (if traps.isEmpty then n else 0) w) }, true)
        | none =>
          let (st, ret) := advance acc.1 i (unitPcs s0 i) (nextSlot (insPc s0 i))
          (st, acc.2 || ret)) (r.st, false)
  let s2 := traps.foldl (fun st x => trapThread st x.1 x.2 (n == 2) (traps.map Prod.fst)) s1.1
  let s3 := g.foldl (fun st i =>
    let t := thr st i
    if t.moved || t.pend.any (fun p => 4 ≤ p.k) then
      modThr st i fun t => { t with moved := false, pend := t.pend.filter fun p => p.k < 4 }
    else st) s2
  let s4 := if traps.isEmpty then retire s3 c g n else s3
  let lineEnd := match g with
    | [] => false
    | i :: _ => slotOf (insPc s0 i) == 4
  let keepNow := s1.2 || r.switch || !traps.isEmpty || !waits.isEmpty || lineEnd
  let rest := stay.filter fun i =>
    !(thr s4 i).exited && (thr s4 i).wait.isNone && (wgOf s4 (tidWg i)).st == .running
  settle { s4 with issue := { member := .single, traps := [], stall := false, hold := none } } c g rest
    (keepNow || rest.isEmpty)

/-- Threads whose trap must wait for their pending latches (R244). -/
def trapsPending (s : State) (traps : List (Nat × TrapInfo)) : Bool :=
  traps.any fun x => (thr s x.1).pend.any fun p => p.live

/-- Ends an instruction's part of a unit: alone it completes the unit, in a pair it hands its state and its traps on. -/
def endPart (s0 : State) (r : Issued) : Host.Outcome State Fault Refusal :=
  match r.stall with
  | some s' => .next { s' with issue := { s0.issue with stall := true } }
  | none =>
  match r.hold with
  | some w =>
    match s0.issue.member with
    | .single => .next (holdGathering s0 (gathering s0) w)
    | _ => .next { s0 with issue := { s0.issue with hold := some w } }
  | none =>
    if trapsPending s0 r.traps then .next { s0 with issue := { s0.issue with stall := true } }
    else
      match s0.issue.member with
      | .single => .next (finishUnit s0 r 1)
      | .first => .next { r.st with issue := { s0.issue with traps := s0.issue.traps ++ r.traps, waits := r.waits } }
      | .second =>
        if r.traps.isEmpty then .next (finishUnit s0 r 2)
        else .next { r.st with issue := { s0.issue with traps := s0.issue.traps ++ r.traps } }

/-- A trap taken by every thread of the gathering, whatever the guard (R11, R91). -/
def trapAll (s : State) (i : TrapInfo) : Host.Outcome State Fault Refusal :=
  let g := (gathering s).filter fun t => !(s.issue.traps.any fun x => x.1 == t)
  endPart s { st := s, traps := g.map fun t => (t, { i with second := s.issue.member == .second }),
              jumps := [], waits := [], hold := none, stall := none, switch := false }

/-- A thread that is to issue: its restored latches stand no longer than this. -/
def openIssue (s : State) : State :=
  (gathering s).foldl (fun st i => if (thr st i).latchKeep then modThr st i fun t => { t with latchKeep := false } else st) s

/-- An instruction of the lane engine: budgets (R138), a stall on pending results, then each thread of the gathering in
ascending lane number (R167). -/
def laneOpWith (decodeBad : State → Nat → Bool) (o : Ops) (needs : State → Nat → List (Src × Need))
    (body : State → State → Nat → LaneRes) (s : State) : Host.Outcome State Fault Refusal :=
  let s0 := openIssue s
  let g := (gathering s0).filter fun i => !(s0.issue.traps.any fun x => x.1 == i)
  if g.any fun i => opsBeyond (wgOf s0 (tidWg i)) (tidQuire i) o || decodeBad s0 i then
    trapAll s0 (decodeTrap cIllegalField)
  else if g.any fun i => mustStall (thr s0 i) o then .next { s with issue := { s.issue with stall := true } }
  else endPart s0 (g.foldl (lanePart s0 o needs body) { st := s0, traps := [], jumps := [], waits := [], hold := none, stall := none, switch := false })

/-- An instruction without decode checks of its own, with fixed operand needs. -/
def laneOp (o : Ops) (needs : List (Src × Need)) (body : State → State → Nat → LaneRes) (s : State) :
    Host.Outcome State Fault Refusal :=
  laneOpWith (fun _ _ => false) o (fun _ _ => needs) body s

/-- The privilege check of R89. -/
def privOf (s : State) (tid : Nat) : Bool := (wgOf s (thr s tid).wg).priv

/-! ### Pairs (R79) -/

/-- The issue state of a member of a pair whose threads `traps` are known to trap. -/
def memberIssue (s : State) (m : Member) (traps : List (Nat × TrapInfo)) : Issue :=
  { member := m, traps, stall := false, hold := none, group := gathering s }

/-- One attempt at a pair: both members, without the threads already known to trap. -/
def pairTry (first second : State → Host.Outcome State Fault Refusal) (s : State) (traps : List (Nat × TrapInfo)) :
    Host.Outcome State Fault Refusal :=
  match first { s with issue := memberIssue s .first traps } with
  | .next s1 =>
    if s1.issue.stall || s1.issue.hold.isSome then .next s1
    else second { s1 with issue := { s1.issue with member := .second } }
  | r => r

/-- What a stalled pair leaves behind: only requests that have left (R79, R452). -/
def keepSent (s r : State) : State :=
  { s with fabric := r.fabric, threads := s.threads.map fun e => (e.1, { e.2 with pend := (thr r e.1).pend }) }

/-- A trap of the second member of a pair, or that of the first for the same thread (R79). -/
def firstCause (first : State → Host.Outcome State Fault Refusal) (s : State) (x : Nat × TrapInfo) : Nat × TrapInfo :=
  let others := ((gathering s).filter (· != x.1)).map fun i => (i, x.2)
  match first { s with issue := memberIssue s .first others } with
  | .next q => (q.issue.traps.find? fun y => y.1 == x.1).getD x
  | _ => x

/-- What the second member of a pair says before the first's request leaves, which nothing takes back: the traps it meets, or
none when it must itself wait for a result (R79, R246). -/
def secondTraps (first second : State → Host.Outcome State Fault Refusal) (s : State) (traps : List (Nat × TrapInfo)) :
    Option (List (Nat × TrapInfo)) :=
  match second { s with issue := memberIssue s .second traps } with
  | .next q =>
    if q.issue.stall then if q.fabric == s.fabric then none else some []
    else if q.issue.member == .second && q.issue.hold.isNone then
      some ((q.issue.traps.drop traps.length).map (firstCause first s))
    else some []
  | _ => some []

/-- The registers that a later trap of a suspended pair puts back (R79). -/
def undoOf (t : Thread) : Undo := { g := t.g, v := t.v, xv := t.xv, fstat := t.fstat, eccRegs := t.eccRegs }

/-- The threads that a pair has suspended keep their registers as they stood before it (R79; log entry 74). -/
def keepUndo (s r : State) : State :=
  (gathering s).foldl (fun st i =>
    if (thr st i).wait.any Wait.paired then modThr st i fun t => { t with undo := some (undoOf (thr s i)) } else st) r

/-- Runs a pair: a thread for which either member traps sees no effect of either, and slot j's cause is taken when both
trap. Each attempt leaves out the threads found to trap before; `fuel` attempts suffice, one for each thread and one
more. -/
def runPair (fuel : Nat) (first second : State → Host.Outcome State Fault Refusal) (s : State)
    (traps : List (Nat × TrapInfo)) : Host.Outcome State Fault Refusal :=
  match fuel with
  | 0 => .next s
  | fuel + 1 =>
    match pairTry first second s traps with
    | .next r =>
      if r.issue.stall then
        match r.issue.member, secondTraps first second s traps with
        | .first, none => .next { s with issue := r.issue }
        | .first, some (x :: xs) => runPair fuel first second s (traps ++ x :: xs)
        | _, _ => .next (keepSent s r)
      else match r.issue.hold with
        | some w => .next (holdGathering s (gathering s) w)
        | none =>
          if r.issue.member == .single then .next (keepUndo s r)
          else runPair fuel first second s r.issue.traps
    | r => r

end Sys2Proof.Machine
end

