-- ==== Sys2Proof/Machine/Select.lean ====
section
/-! DEFINITION. The grouping stage: paths, the choice of the next gathering, fusion, the turns of deterministic mode
(R134, R139 to R143, R260), and the checks of an issue unit's line (R78, R91). -/

namespace Sys2Proof.Machine

/-! ### Paths (R139) -/

/-- The key of a thread's quire: workgroup and quire index, ascending in slot order (R137). DESIGN CHOICE: among quires of
different workgroups on one core, which R140 orders by quire index alone, the workgroup's number comes first (log
entry 76). -/
def quireKey (tid : Nat) : Nat := tid / 32

/-- A quire that a pre-emption has stopped at its boundary issues nothing more (R130). -/
def quireHeld (s : State) (tid : Nat) : Bool :=
  let w := wgOf s (tidWg tid)
  w.preempt && w.atPoint.contains (tidQuire tid)

/-- The threads of a core that are not suspended and may issue. -/
def issuable (s : State) (c : Nat) : List Nat :=
  (liveThreads s c).filter fun i => (thr s i).wait.isNone && !quireHeld s i

/-- The distinct elements of a list, first appearances in order. -/
def distinct (xs : List Nat) : List Nat :=
  xs.foldl (fun acc x => if acc.contains x then acc else acc ++ [x]) []

/-- The quires of some threads, in ascending order. -/
def quiresOf (ts : List Nat) : List Nat := distinct (ts.map quireKey)

/-- The paths of a quire among some threads, in order of their lowest lane (R139). -/
def pathsOf (s : State) (ts : List Nat) (q : Nat) : List (List Nat) :=
  let mine := ts.filter fun i => quireKey i == q
  (distinct (mine.map fun i => (thr s i).pc.toNat)).map fun pc => mine.filter fun i => (thr s i).pc.toNat == pc

/-- The lowest lane of a path. -/
def lowLane (p : List Nat) : Nat :=
  match p with
  | [] => 0
  | i :: _ => tidLane i

/-- A list turned to begin after a value: the round-robin order of R140. -/
def after {α : Type} (key : α → Nat) (last : Nat) (xs : List α) : List α :=
  xs.filter (fun x => last < key x) ++ xs.filter (fun x => key x ≤ last)

/-- A path is ready when its line is in the instruction cache, or when its fetch faults: it then issues to take the trap
(R140, R255). -/
def pathReady (s : State) (p : List Nat) : Bool :=
  match p with
  | [] => false
  | i :: _ =>
    lineCached s i ||
      match fetchLine s i (lineOf (thr s i).pc) with
      | .error f => f != lineAway
      | .ok _ => false

/-- The lines of paths that wait for them reach the instruction cache, so that such a path is ready at the next group
switch. -/
def fetchPaths (s : State) (ps : List (List Nat)) : State :=
  ps.foldl (fun st p =>
    match p with
    | [] => st
    | i :: _ =>
      if lineCached st i then st
      else match fetchLine st i (lineOf (thr st i).pc) with
        | .ok (s1, _) => s1
        | .error _ => st) s

/-- The paths of a quire in the order R140 takes them. -/
def pathOrder (s : State) (c : Nat) (ts : List Nat) (q : Nat) : List (List Nat) :=
  let ps := pathsOf s ts q
  match tget (coreOf s c).rrPath q with
  | none => ps
  | some last => after lowLane last ps

/-! ### Fusion (R142) -/

/-- The role of a quire key. -/
def roleOfQuire (s : State) (q : Nat) : Role := (wgOf s (q / 8)).roles.getD (q % 8) .general

/-- Whether two paths of different quires fuse. -/
def fusible (s : State) (a b : List Nat) : Bool :=
  match a, b with
  | i :: _, j :: _ =>
    tidWg i == tidWg j && quireKey i != quireKey j &&
    roleOfQuire s (quireKey i) == roleOfQuire s (quireKey j) &&
    a.length ≤ 16 && b.length ≤ 16 && !(a.any fun x => b.any fun y => tidLane x == tidLane y) &&
    (thr s i).pc == (thr s j).pc && !(wgOf s (tidWg i)).det
  | _, _ => false

/-- Two paths merged in ascending lane order. -/
def mergeLanes (a b : List Nat) : List Nat :=
  (List.range 32).flatMap fun l => (a.filter fun i => tidLane i == l) ++ b.filter fun i => tidLane i == l

/-- Whether a path is one of the two of a fused pair: its quire and its program counter. -/
def fusedWith (s : State) (e : Nat × Nat × Pc) (p : List Nat) : Bool :=
  match p with
  | [] => false
  | i :: _ => (quireKey i == e.1 || quireKey i == e.2.1) && (thr s i).pc == e.2.2

/-- Whether two paths have stayed fused since the gathering they made was switched (R143). -/
def stayFused (s : State) (c : Nat) (a b : List Nat) : Bool :=
  fusible s a b && (coreOf s c).fused.any fun e => fusedWith s e a && fusedWith s e b

/-- The pointers of R140 after a gathering has been chosen: past the higher-indexed of its quires. -/
def markChosen (s : State) (c : Nat) (ps : List (List Nat)) : State :=
  modCore s c fun x =>
    { x with rrQuire := (ps.flatMap fun p => p.map quireKey).foldl max 0 + 1
             rrPath := ps.foldl (fun m p => match p with
               | [] => m
               | i :: _ => tset m (quireKey i) (tidLane i)) x.rrPath
             fused := x.fused.filter fun e => !(ps.any (fusedWith s e)) }

/-- The path that a chosen path issues with: the one it has stayed fused with (R143), or the first, in round-robin order,
that R142 allows and that has stayed fused with no other. -/
def mateOf (s : State) (c : Nat) (ts : List Nat) (p : List Nat) (others : List Nat) : Option (List Nat) :=
  let bs := (others.flatMap fun q => pathsOf s ts q).filter fun b => pathReady s b && fusible s p b
  match bs.find? (stayFused s c p) with
  | some b => some b
  | none => bs.find? fun b => !(others.flatMap fun q => pathsOf s ts q).any (stayFused s c b)

/-- The gathering of a chosen path: alone, or fused with its mate. -/
def fuse (s : State) (c : Nat) (ts : List Nat) (p : List Nat) (others : List Nat) : State × List Nat :=
  match mateOf s c ts p others with
  | some b => (markChosen s c [p, b], mergeLanes p b)
  | none => (markChosen s c [p], p)

/-! ### The choice (R140, R134, R260) -/

/-- What the grouping stage finds for a core. -/
inductive Choice where
  /-- A gathering that can issue. -/
  | ready (s : State) (g : List Nat)
  /-- No path is ready; the lines they wait for have been fetched. -/
  | absent (s : State)
  /-- Nothing to issue. -/
  | idle

/-- The choice of R140 outside deterministic mode. -/
def chooseFree (s : State) (c : Nat) (ts : List Nat) : Choice :=
  let qs := after (· + 1) (coreOf s c).rrQuire (quiresOf ts)
  let ps := qs.flatMap fun q => pathOrder s c ts q
  match ps.find? (pathReady s) with
  | some p =>
    let (s1, g) := fuse s c ts p (qs.filter fun q => some q != p.head?.map quireKey)
    .ready (fetchPaths s1 ps) g
  | none =>
    match ps with
    | [] => .idle
    | _ :: _ => .absent (fetchPaths s ps)

/-- The quire that holds the turn: from TURN on, the first that is neither suspended nor exited (R134, R260). -/
def turnHolder (s : State) (wg : Nat) (ts : List Nat) : Option Nat :=
  let w := wgOf s wg
  let n := max 1 w.roles.length
  ((List.range n).map fun k => (w.turn + k) % n).find? fun q => ts.any fun i => tidQuire i == q

/-- The paths of the turn's holder in the order it takes them: the workgroup keeps where that order stands, so that it
goes on after a restore on another core (R134, R264). -/
def detOrder (s : State) (wg q : Nat) (ts : List Nat) : List (List Nat) :=
  let ps := pathsOf s ts (wg * 8 + q)
  match tget (wgOf s wg).detPath q with
  | none => ps
  | some last => after lowLane last ps

/-- The choice of R134 for a workgroup in deterministic mode: the holder's own gathering, or its next path. While that
path's line is fetched the holder keeps the turn, so that no cache enters the sequence. -/
def chooseDet (s : State) (wg : Nat) (ts : List Nat) : Choice :=
  match turnHolder s wg ts with
  | none => .idle
  | some q =>
    let kept := (tgetD (wgOf s wg).detGath q []).filter ts.contains
    let s1 := modWg s wg fun w => { w with turn := q }
    match kept with
    | _ :: _ => .ready s1 kept
    | [] =>
      match detOrder s wg q ts with
      | [] => .idle
      | p :: _ =>
        if pathReady s p then .ready (modWg s1 wg fun w => { w with detPath := tset w.detPath q (lowLane p) }) p
        else .absent (fetchPaths s1 [p])

/-- The choice at a group switch, or at a turn of deterministic mode. -/
def choose (s : State) (c : Nat) : Choice :=
  let ts := issuable s c
  match ts with
  | [] => .idle
  | i :: _ => if (wgOf s (tidWg i)).det then chooseDet s (tidWg i) ts else chooseFree s c ts

/-! ### Issue units (R71, R78, R91) -/

/-- The pipe of an opcode: 0 integer, 1 float, 2 load, 3 special, 4 sequencer (R71). -/
def pipeOf (op : Nat) : Nat :=
  match op / 64 with
  | 0 => if op == 0x023 || op == 0x024 then 3 else 0
  | 1 => if 0x4A ≤ op && op ≤ 0x51 then 3 else 1
  | 2 => 3
  | 4 => 2
  | 5 => if op ≤ 0x142 || op == 0x14C then 2 else 4
  | _ => 4

/-- The fields of a word that matter to R14. -/
def wordOpcode (w : Code) : Nat := w.toNat / 2 ^ 86
def wordGuard (w : Code) : Nat := bits w.toNat 85 79
def wordDst (w : Code) : Nat := bits w.toNat 71 64
def wordWbs (w : Code) : Bool := bit w.toNat 63
def wordSources (w : Code) : List Nat := [bits w.toNat 62 54, bits w.toNat 53 45, bits w.toNat 44 36]

/-- The instructions of the load pipe that produce no result: ST, STV, STX, PFETCH, FENCE, PROMO, CFLUSH, RED (R72). -/
def noResult (op : Nat) : Bool := [0x101, 0x103, 0x105, 0x107, 0x108, 0x109, 0x10A, 0x141].contains op

/-- The operand codes of the eight xv registers (R67). -/
def xvCodes : List Nat := (List.range 8).map (184 + ·)

/-- An MFS or MTS of XV_BASE, which reads or writes all eight xv registers (R314). -/
def namesXvBase (w : Code) (op : Nat) : Bool := wordOpcode w == op && bits w.toNat 23 12 == 0x030

/-- An MMA with an f4x operand. DESIGN CHOICE: the tag that picks its xv register is not in the word, so it counts as
reading all eight (R96; log entry 77). -/
def readsAnyXv (w : Code) : Bool := wordOpcode w == 0x180 && (bits w.toNat 35 30 == 0x18 || bits w.toNat 29 24 == 0x18)

/-- TAG's tile form, which writes no latch (R190). -/
def tagsTile (w : Code) : Bool := wordOpcode w == 0x086 && 160 ≤ wordDst w

/-- The registers and latches a word writes, as operand codes: its destination, its pipe's latch, LDK's second
destination, and the xv registers of an MTS of XV_BASE (R72, R214, R314). A write of g0 is none (R70). -/
def wordWrites (w : Code) : List Nat :=
  let op := wordOpcode w
  let d := if wordWbs w || wordDst w == 0 then [] else [wordDst w]
  let l := if pipeOf op < 4 && !noResult op && !tagsTile w then [256 + pipeOf op] else []
  let k := if op == 0x106 then [bits w.toNat 44 36] else []
  (d ++ l ++ k ++ if namesXvBase w 0x2C1 then xvCodes else []).filter (· != 0)

/-- The registers and latches a word reads, as operand codes, implicit reads of xv registers included (R96, R314). -/
def wordReads (w : Code) : List Nat :=
  (wordGuard w :: wordSources w) ++ if namesXvBase w 0x2C0 || readsAnyXv w then xvCodes else []

/-- R14: the second reads or writes what the first writes. -/
def dependent (a b : Code) : Bool :=
  (wordWrites a).any fun x => (wordReads b).contains x || (wordWrites b).contains x

/-- A word that R201 keeps out of a pair. -/
def neverPaired (w : Code) : Bool := wordOpcode w == 0x0CD || wordOpcode w == 0x0CE

/-- BAD_PAIR at slot j (R78, R201). -/
def pairBad (line : List Byte) (j : Nat) : Bool :=
  let a := wordOfBytes (slotBytes line j)
  let b := wordOfBytes (slotBytes line (j + 1))
  pairBit line j &&
    (pipeOf (wordOpcode a) == pipeOf (wordOpcode b) || dependent a b || pipeOf (wordOpcode a) == 4 ||
      pairBit line (j + 1) || targetBit line (j + 1) || neverPaired a || neverPaired b)

/-- The first of the line's checks that fails for a unit at slot i (R91 items 1 to 3), with the slot it names. A thread
that enters at the second slot of a pair finds the TARGET bit that makes the pair bad. -/
def lineTrap (line : List Byte) (i : Nat) : Option (BitVec 8 × Nat) :=
  if !parityOk line then some (cLineParity, i)
  else if !colophonOk line then some (cIllegalField, i)
  else if pairBad line i then some (cBadPair, i)
  else if 0 < i && pairBit line (i - 1) && targetBit line i then some (cBadPair, i - 1)
  else none

end Sys2Proof.Machine
end

