-- ==== Sys2Proof/Machine/Operands.lean ====
section
/-! DEFINITION. The operand forms of classes 0x0 to 0x2: operand B and its immediate, scalar and vector operands, and
the shapes that the families' meanings are built from (R86, R95, R167, R168, R181). -/

namespace Sys2Proof.Machine

/-- The low w bits of a number. -/
def low (w v : Nat) : Nat := v % 2 ^ w

/-- Operand B of class 0x0: imm23 sign-extended, or the source (R86). -/
def opB (t : Thread) (o : Ops) (m : M0) : Nat :=
  match m.imm with
  | some v => (v.signExtend 64).toNat
  | none => srcN t o.b

/-- Int(x) of R168. -/
def intOf (ty : Fmt) (v : Nat) : Int :=
  if isI ty then toSigned (fmtWidth ty) v else ((low (fmtWidth ty) v : Nat) : Int)

/-- The result of R172: v modulo 2^w, or clamped with .sat. -/
def fitInt (ty : Fmt) (sat : Bool) (v : Int) : Nat := intCode (fmtWidth ty) (if sat then clampInt ty v else v)

/-- All three sources 64-bit; unused sources name g0 and need nothing. -/
def wordNeeds (o : Ops) : List (Src × Need) := [(o.a, .word), (o.b, .word), (o.c, .word)]

/-- A class 0x0 instruction with a general result: `f t A B C`, each operand in its 64 bits. -/
def intOp (f : Nat → Nat → Nat → Nat) (k : Nat) (o : Ops) (m : M0) (s : State) : Host.Outcome State Fault Refusal :=
  laneOp o (wordNeeds o) (fun _ s tid =>
    let t := thr s tid
    .done (resultG s tid k o.d (f (srcN t o.a) (opB t o m) (srcN t o.c)))) s

/-- A class 0x0 instruction whose result is an exact integer of its operands' values (R172). -/
def arithOp (f : Int → Int → Int → Int) (o : Ops) (m : M0) (s : State) : Host.Outcome State Fault Refusal :=
  intOp (fun a b c => fitInt m.ty m.sat (f (intOf m.ty a) (intOf m.ty b) (intOf m.ty c))) 0 o m s

/-- A class 0x0 instruction on the low w bits of its operands; the result is taken modulo 2^w. -/
def bitsOp (f : Nat → Nat → Nat → Nat) (o : Ops) (m : M0) (s : State) : Host.Outcome State Fault Refusal :=
  let w := fmtWidth m.ty
  intOp (fun a b c => low w (f (low w a) (low w b) (low w c))) 0 o m s

/-- The value every element of operand B has, or the vector's element i (R181). -/
def elemB (t : Thread) (ty : Fmt) (x : Src) (bs : Bool) (i : Nat) : Nat :=
  if bs then low (fmtWidth ty) (srcN t x) else elemAt ty (srcW t x) i

/-- How operand B of a vector form must be held (R73, R181). -/
def needB (ty : Fmt) (bs : Bool) : Need := if bs then .word else .typed ty

/-- Whether a MOV or XSHF takes its vector form (R174, R184): a vector register names it; a latch with write-back suppressed
keeps its own width, where `wide` allows 256 bits. -/
def movesVector (o : Ops) (wide : Bool) (t : Thread) : Bool :=
  match o.d, o.a with
  | .reg (.v _), _ => true
  | .latchOnly, .reg (.v _) => true
  | .latchOnly, .latch k => (latchOf t k.toNat).wide && wide
  | _, _ => false

/-! ### What an instruction reads and writes (R293)

A t-tile n is n, an a-tile n is 16 + n, a folio row r is 32 + r. -/

/-- The code of a tile. -/
def tileCode : Reg → List Nat
  | .t n => [n.toNat]
  | .a n => [16 + n.toNat]
  | _ => []

/-- The tile of a source. -/
def srcTile (x : Src) : List Nat :=
  match x with
  | .reg r => tileCode r
  | .latch _ => []

/-- The tile of a destination. -/
def dstTile (d : Dst) : List Nat :=
  match d with
  | .reg r => tileCode r
  | .latchOnly => []

/-- A B operand of this type has a scale row (R297). -/
def hasScale (t : Fmt) : Bool := isBs t || isQ t

/-- The data row of an MMA (R297). -/
def mmaRow (m : M6) (b : Nat) : Nat := (b + varBits m.var 14 9) % 2 ^ 64

/-- The folio rows that an MMA reads. -/
def mmaRows (m : M6) (b : Nat) : List Nat :=
  let r := mmaRow m b
  if hasScale m.tb then [r, r + 1] else [r]

/-- The first row and the number of rows of a fill (R300). -/
def fillFirst (m : M6) (c : Nat) : Nat := (c + varBits m.var 14 9) % 2 ^ 64
def fillCount (m : M6) : Nat := varBits m.var 5 9

/-- CAT of an MMA. -/
def mmaCat (m : M6) : Bool := m.var.getLsbD 13

/-- The tiles and rows that an instruction reads. -/
def readsOf (i : Instr) (b : Nat) : List Nat :=
  match i with
  | .mma o m =>
    (if mmaCat m then [] else srcTile o.a) ++ (if m.ovw then [] else dstTile o.d) ++ (mmaRows m b).map fun r => 32 + r
  | .mstt o _ => srcTile o.b
  | .mdrainSt o _ | .mdrainAdd o _ | .mdrainRoute o _ | .mdrainCat o _ => srcTile o.a
  | _ => []

/-- The tiles and rows that an instruction writes. -/
def writesOf (i : Instr) (c : Nat) : List Nat :=
  match i with
  | .mma o _ | .mldt o _ | .mzero o _ => dstTile o.d
  | .mfolio _ m => (List.range (fillCount m)).map fun n => 32 + fillFirst m c + n
  | _ => []

/-- What a queued item writes; an accum entry's tiles are bits of A (R325). -/
def itemWrites (x : MItem) : List Nat :=
  match x.work with
  | .ins i => writesOf i x.c.toNat
  | .accum _ _ _ _ => ((List.range 8).filter fun n => x.a.getLsbD n).map fun n => 16 + n

/-- What a queued instruction reads; a copy entry's access counts as a write. -/
def itemReads (x : MItem) : List Nat :=
  match x.work with
  | .ins i => readsOf i x.b.toNat
  | .accum _ _ _ _ => []

/-- Whether a queued instruction of a core has still to write a t-tile, or, with `readers`, to read it: TAG and TAGQ keep
their dependences on the engine (R169). -/
def tileQueued (s : State) (c n : Nat) (readers : Bool) : Bool :=
  (coreOf s c).mx.queue.any fun x => (itemWrites x).contains n || (readers && (itemReads x).contains n)

end Sys2Proof.Machine
end

