-- ==== Sys2Proof/Machine/Flags.lean ====
section
/-! DEFINITION. Condition codes (R170), FSTAT (R110), and the draws of stochastic rounding (R107, R108). -/

namespace Sys2Proof.Machine

/-- A condition on an order: -1, 0 or 1 (R170). -/
def condHolds (c : Nat) (ord : Int) : Bool :=
  match c with
  | 0 => ord == 0
  | 1 => ord != 0
  | 2 => ord < 0
  | 3 => ord ≤ 0
  | 4 => 0 < ord
  | 5 => 0 ≤ ord
  | 6 => false
  | _ => true

/-- The order of two integers. -/
def intOrder (a b : Int) : Int := if a < b then -1 else if b < a then 1 else 0

/-- An integer condition on the low bits of two operands. -/
def intCond (ty : Fmt) (c a b : Nat) : Bool := condHolds c (intOrder (intOf ty a) (intOf ty b))

/-- A float condition and whether it sets INVALID: a NaN operand gives 0 but for .ne and .un; the ordered compares set
INVALID for a NaN, the others for a signalling one (R170, R179). -/
def floatCond (ty : Fmt) (c a b : Nat) : Bool × Bool :=
  let x := decodeFloat ty a
  let y := decodeFloat ty b
  if isNan x || isNan y then (c == 1 || c == 6, isSig x || isSig y || (2 ≤ c && c ≤ 5))
  else (condHolds c (cmpNum x y), false)

/-- Sticky flags set (R110). -/
def setFlags (s : State) (tid : Nat) (f : BitVec 3) : State := modThr s tid fun t => { t with fstat := t.fstat ||| f }

/-- INVALID as flags. -/
def invalidFlag (b : Bool) : BitVec 3 := if b then flagInvalid else 0

/-- The draw of one rounded result: under .rs the generator advances by one, whatever the result (R107). -/
def drawOf (t : Thread) (mode : Rnd) : Nat := if mode == .rs then nextDraw t.srSeed.toNat else 0

/-- The generator after one result. -/
def afterDraw (t : Thread) (mode : Rnd) : Thread :=
  if mode == .rs then { t with srSeed := BitVec.ofNat 32 (nextDraw t.srSeed.toNat) } else t

/-- Elements encoded in ascending order, each with its draw: the codes, the flags and the thread after. `f i draw`
gives element i's code and flags. -/
def drawElems (mode : Rnd) (n : Nat) (f : Nat → Nat → Nat × BitVec 3) (t : Thread) : List Nat × BitVec 3 × Thread :=
  (List.range n).foldl (fun (acc : List Nat × BitVec 3 × Thread) i =>
    let t := acc.2.2
    let (c, fl) := f i (drawOf t mode)
    (acc.1 ++ [c], acc.2.1 ||| fl, afterDraw t mode)) ([], 0, t)

/-- One rounded result of a float operation, with .sat judged on the exact result (R177). -/
def roundExact (ty : Fmt) (mode : Rnd) (sat : Bool) (draw : Nat) (x : Exact) : Nat × BitVec 3 :=
  let (c, f) := encodeFloat ty 0 mode sat true draw x.num x.sticky
  (c, f ||| invalidFlag x.invalid)

end Sys2Proof.Machine
end

