-- ==== Sys2Proof/Machine/Integer.lean ====
section
/-! DEFINITION. Class 0x0: integer, bit and address instructions (R171 to R176). -/

namespace Sys2Proof.Machine

/-- IADD (R172). -/
def execIadd (o : Ops) (m : M0) (s : State) : Host.Outcome State Fault Refusal := arithOp (fun a b _ => a + b) o m s
/-- ISUB (R172). -/
def execIsub (o : Ops) (m : M0) (s : State) : Host.Outcome State Fault Refusal := arithOp (fun a b _ => a - b) o m s
/-- IMUL (R172). -/
def execImul (o : Ops) (m : M0) (s : State) : Host.Outcome State Fault Refusal := arithOp (fun a b _ => a * b) o m s
/-- IMULHI (R172): the floor of the product over 2^w. -/
def execImulhi (o : Ops) (m : M0) (s : State) : Host.Outcome State Fault Refusal :=
  arithOp (fun a b _ => (a * b) / ((2 ^ fmtWidth m.ty : Nat) : Int)) o m s
/-- IMAD (R172). -/
def execImad (o : Ops) (m : M0) (s : State) : Host.Outcome State Fault Refusal :=
  arithOp (fun a b c => a * b + c) o m s

/-- The quotient truncated toward zero; a zero divisor gives all ones (R173). -/
def quotient (a b : Int) : Int := if b == 0 then -1 else Int.tdiv a b

/-- The remainder; a zero divisor gives the dividend (R173). -/
def remainder (a b : Int) : Int := if b == 0 then a else Int.tmod a b

/-- IDIV (R172, R173). All ones is no overflow, so .sat does not act on a zero divisor. -/
def execIdiv (o : Ops) (m : M0) (s : State) : Host.Outcome State Fault Refusal :=
  intOp (fun a b _ =>
    let x := intOf m.ty a
    let y := intOf m.ty b
    fitInt m.ty (m.sat && y != 0) (quotient x y)) 0 o m s
/-- IREM (R172, R173). -/
def execIrem (o : Ops) (m : M0) (s : State) : Host.Outcome State Fault Refusal :=
  arithOp (fun a b _ => remainder a b) o m s
/-- INEG (R172, R173). -/
def execIneg (o : Ops) (m : M0) (s : State) : Host.Outcome State Fault Refusal := arithOp (fun a _ _ => -a) o m s
/-- IABS (R172, R173). -/
def execIabs (o : Ops) (m : M0) (s : State) : Host.Outcome State Fault Refusal :=
  arithOp (fun a _ _ => (a.natAbs : Int)) o m s
/-- IMIN (R172). -/
def execImin (o : Ops) (m : M0) (s : State) : Host.Outcome State Fault Refusal := arithOp (fun a b _ => min a b) o m s
/-- IMAX (R172). -/
def execImax (o : Ops) (m : M0) (s : State) : Host.Outcome State Fault Refusal := arithOp (fun a b _ => max a b) o m s
/-- ICMP (R170, R172): 64-bit 0 or 1. -/
def execIcmp (o : Ops) (m : M0) (s : State) : Host.Outcome State Fault Refusal :=
  intOp (fun a b _ => if intCond m.ty m.cond.toNat a b then 1 else 0) 0 o m s
/-- ISEL (R172): bit 0 of C. -/
def execIsel (o : Ops) (m : M0) (s : State) : Host.Outcome State Fault Refusal :=
  bitsOp (fun a b c => if c % 2 == 1 then a else b) o m s
/-- AND (R172). -/
def execAnd (o : Ops) (m : M0) (s : State) : Host.Outcome State Fault Refusal := bitsOp (fun a b _ => a &&& b) o m s
/-- OR (R172). -/
def execOr (o : Ops) (m : M0) (s : State) : Host.Outcome State Fault Refusal := bitsOp (fun a b _ => a ||| b) o m s
/-- XOR (R172). -/
def execXor (o : Ops) (m : M0) (s : State) : Host.Outcome State Fault Refusal := bitsOp (fun a b _ => a ^^^ b) o m s

/-- NOT of w bits. -/
def notBits (w v : Nat) : Nat := 2 ^ w - 1 - v

/-- ANDN (R172). -/
def execAndn (o : Ops) (m : M0) (s : State) : Host.Outcome State Fault Refusal :=
  bitsOp (fun a b _ => a &&& notBits (fmtWidth m.ty) b) o m s
/-- NOT (R172). -/
def execNot (o : Ops) (m : M0) (s : State) : Host.Outcome State Fault Refusal :=
  bitsOp (fun a _ _ => notBits (fmtWidth m.ty) a) o m s

/-- The count of a shift: Int(b) modulo 128 (R173). -/
def shiftCount (ty : Fmt) (b : Nat) : Nat := (intOf ty b % 128).toNat

/-- SHL (R173). -/
def execShl (o : Ops) (m : M0) (s : State) : Host.Outcome State Fault Refusal :=
  bitsOp (fun a b _ => a * 2 ^ shiftCount m.ty b) o m s
/-- SHR (R173). -/
def execShr (o : Ops) (m : M0) (s : State) : Host.Outcome State Fault Refusal :=
  bitsOp (fun a b _ => a / 2 ^ shiftCount m.ty b) o m s
/-- SAR (R173): bit w−1 fills, whatever the type's signedness. -/
def execSar (o : Ops) (m : M0) (s : State) : Host.Outcome State Fault Refusal :=
  bitsOp (fun a b _ =>
    let w := fmtWidth m.ty
    intCode w (toSigned w a / ((2 ^ shiftCount m.ty b : Nat) : Int))) o m s
/-- ROTL (R173): by s modulo w. -/
def execRotl (o : Ops) (m : M0) (s : State) : Host.Outcome State Fault Refusal :=
  bitsOp (fun a b _ =>
    let w := fmtWidth m.ty
    let k := shiftCount m.ty b % w
    a * 2 ^ k + a / 2 ^ (w - k)) o m s

/-- The position of a field operand, from the whole 64-bit operand B (R173). -/
def fieldPos (b : Nat) : Nat := b % 64
/-- The length of a field operand: 65 to 127 act as 64 (R173). -/
def fieldLen (b : Nat) : Nat := min 64 (bits b 12 6)

/-- BFX (R173): bits at or above w read 0; the field sign-extends under .i types. -/
def execBfx (o : Ops) (m : M0) (s : State) : Host.Outcome State Fault Refusal :=
  let w := fmtWidth m.ty
  intOp (fun a b _ =>
    let n := fieldLen b
    let x := low w a / 2 ^ fieldPos b % 2 ^ n
    if n == 0 then 0
    else if isI m.ty then intCode w (toSigned n x) else low w x) 0 o m s
/-- BFI (R173): the low n bits of c at p; no bit at or above w is written. -/
def execBfi (o : Ops) (m : M0) (s : State) : Host.Outcome State Fault Refusal :=
  let w := fmtWidth m.ty
  intOp (fun a b c =>
    let p := fieldPos b
    let n := fieldLen b
    let mask := (2 ^ n - 1) * 2 ^ p
    low w ((low w a &&& notBits 128 mask) ||| (low w c % 2 ^ n * 2 ^ p))) 0 o m s

/-- The set bits among the low w. -/
def popCount (w v : Nat) : Nat := ((List.range w).filter fun i => bit v i).length
/-- The leading zeros of w bits: w for zero (R172). -/
def leadingZeros (w v : Nat) : Nat := if v == 0 then w else w - 1 - Nat.log2 v
/-- The trailing zeros of w bits: w for zero (R172). -/
def trailingZeros (w v : Nat) : Nat :=
  match (List.range w).find? fun i => bit v i with
  | some i => i
  | none => w
/-- Bit i moved to bit w−1−i. -/
def reverseBits (w v : Nat) : Nat := (List.range w).foldl (fun acc i => if bit v i then acc + 2 ^ (w - 1 - i) else acc) 0

/-- POPC (R172). -/
def execPopc (o : Ops) (m : M0) (s : State) : Host.Outcome State Fault Refusal :=
  bitsOp (fun a _ _ => popCount (fmtWidth m.ty) a) o m s
/-- CLZ (R172). -/
def execClz (o : Ops) (m : M0) (s : State) : Host.Outcome State Fault Refusal :=
  bitsOp (fun a _ _ => leadingZeros (fmtWidth m.ty) a) o m s
/-- CTZ (R172). -/
def execCtz (o : Ops) (m : M0) (s : State) : Host.Outcome State Fault Refusal :=
  bitsOp (fun a _ _ => trailingZeros (fmtWidth m.ty) a) o m s
/-- BREV (R172). -/
def execBrev (o : Ops) (m : M0) (s : State) : Host.Outcome State Fault Refusal :=
  bitsOp (fun a _ _ => reverseBits (fmtWidth m.ty) a) o m s
/-- PERM (R172): byte i is byte c[4i+3:4i] of b:a. -/
def execPerm (o : Ops) (m : M0) (s : State) : Host.Outcome State Fault Refusal :=
  bitsOp (fun a b c => (List.range 8).foldl (fun acc i =>
    acc + (a + b * 2 ^ 64) / 2 ^ (8 * (c / 2 ^ (4 * i) % 16)) % 256 * 2 ^ (8 * i)) 0) o m s

/-- The bit that BSET, BCLR and BTST name: Int(b) modulo w (R172). -/
def bitIndex (ty : Fmt) (b : Nat) : Nat := (intOf ty b % ((fmtWidth ty : Nat) : Int)).toNat

/-- BSET (R172). -/
def execBset (o : Ops) (m : M0) (s : State) : Host.Outcome State Fault Refusal :=
  bitsOp (fun a b _ => a ||| 2 ^ bitIndex m.ty b) o m s
/-- BCLR (R172). -/
def execBclr (o : Ops) (m : M0) (s : State) : Host.Outcome State Fault Refusal :=
  bitsOp (fun a b _ => if bit a (bitIndex m.ty b) then a - 2 ^ bitIndex m.ty b else a) o m s
/-- BTST (R172): 64-bit 0 or 1. -/
def execBtst (o : Ops) (m : M0) (s : State) : Host.Outcome State Fault Refusal :=
  bitsOp (fun a b _ => if bit a (bitIndex m.ty b) then 1 else 0) o m s
/-- LEA (R172): a + (b << k). -/
def execLea (o : Ops) (m : M0) (s : State) : Host.Outcome State Fault Refusal :=
  bitsOp (fun a b _ => a + b * 2 ^ (m.cond.toNat % 8)) o m s

/-- MOV (R172, R174): the general form moves the low w bits, the vector form all 256 bits and the tag. -/
def execMov (o : Ops) (m : M0) (s : State) : Host.Outcome State Fault Refusal :=
  let vector := movesVector o (m.ty == .b64)
  laneOpWith (fun _ _ => false) o (fun s tid => [(o.a, if vector (thr s tid) then .raw else .word)]) (fun _ s tid =>
    let t := thr s tid
    if vector t then .done (result s tid 0 o.d true (srcWide t o.a) (srcTag t o.a))
    else .done (resultG s tid 0 o.d (low (fmtWidth m.ty) (srcN t o.a)))) s

/-- MOVI (R86). -/
def execMovi (o : Ops) (imm : BitVec 36) (s : State) : Host.Outcome State Fault Refusal :=
  laneOp o [] (fun _ s tid => .done (resultG s tid 0 o.d (imm.signExtend 64).toNat)) s

/-- Hash32 of R168. -/
def hash32 (sp key : Nat) : Nat := (sp % 2 ^ 32 * ((key ^^^ (key / 2 ^ 32)) % 2 ^ 32) + bits sp 63 32) % 2 ^ 32

/-- HASH (R175). -/
def execHash (o : Ops) (m : M0) (s : State) : Host.Outcome State Fault Refusal :=
  intOp (fun a b c =>
    if m.ty == .n32 then
      let l := if c % 64 == 0 || 32 < c % 64 then 32 else c % 64
      hash32 b a / 2 ^ (32 - l)
    else low 64 (b * a + c)) 3 o m s

/-- One byte into a reflected CRC register (R176). -/
def crcByteReflected (poly crc byte : Nat) : Nat :=
  (List.range 8).foldl (fun c _ => if c % 2 == 1 then (c / 2) ^^^ poly else c / 2) (crc ^^^ byte)

/-- One byte into the T10 CRC register, most significant bit first (R176). -/
def crcByteT10 (crc byte : Nat) : Nat :=
  (List.range 8).foldl (fun c _ => if 2 ^ 15 ≤ c then (c * 2 % 2 ^ 16) ^^^ 0x8BB7 else c * 2) (crc ^^^ (byte * 256))

/-- The CRC step of a polynomial code: register width and one byte's update (R176). -/
def crcWidth (p : Nat) : Nat := if p == 0 then 32 else if p == 1 then 64 else 16
def crcByte (p crc byte : Nat) : Nat :=
  match p with
  | 0 => crcByteReflected 0x82F63B78 crc byte
  | 1 => crcByteReflected 0x9A6C9329AC4BC9B5 crc byte
  | _ => crcByteT10 crc byte

/-- CRC (R176). -/
def execCrc (o : Ops) (m : M0) (s : State) : Host.Outcome State Fault Refusal :=
  let p := m.cond.toNat
  intOp (fun a b _ => (List.range (fmtWidth m.ty / 8)).foldl (fun c i => crcByte p c (b / 2 ^ (8 * i) % 256))
    (low (crcWidth p) a)) 3 o m s

end Sys2Proof.Machine
end

