-- ==== Sys2Proof/Machine/Tasks.lean ====
section
/-! DEFINITION. Named tasks (R34 to R36), ring headers (R29 to R33), stores that other parties watch (R165, R478), and
the management-core windows (R521, R523, R524). -/

namespace Sys2Proof.Machine

/-! ### Tasks -/

/-- A decrement on its way to the scheduler of a task reference's quad (R34, R35). -/
def sendDec (s : State) (ref : Nat) : State :=
  modQuad s (bits ref 13 8) fun q => { q with msgs := q.msgs ++ [.dec (ref % 256)] }

/-- The counter of a task reference. -/
def taskOf (s : State) (ref : Nat) : Task := tgetD (quadOf s (bits ref 13 8)).tasks (ref % 256) Task.reset

/-- An operation applied by the scheduler (R35). -/
def applyDec (s : State) (quad task : Nat) : State :=
  modQuad s quad fun q =>
    let t := tgetD q.tasks task Task.reset
    { q with tasks := tset q.tasks task (if t.count == 0 then { t with under := true } else { t with count := t.count - 1 }) }

/-! ### Stores that other parties watch -/

/-- Signal words of loaded plans that a write meets, as task references (R478). -/
def signalsMet (s : State) (l n : Nat) : List Nat :=
  s.dies.flatMap fun d => d.2.coll.plans.flatMap fun p =>
    (p.2.sigs.filter fun x => overlap l n x.2.1 8).map fun x => x.2.2.toNat

/-- A performed write of any party: a store to a log area aborts its transaction with code 9, and a write of a signal
word decrements its task. -/
def noteStore (s : State) (l n : Nat) : State :=
  let s1 := (logsMet s l n).foldl (fun st x => txAbort st x.1 x.2 9 0 []) s
  (signalsMet s1 l n).foldl sendDec s1

/-- Stores bytes and lets the watchers see it. -/
def storeBytes (s : State) (l : Nat) (bs : List Byte) : State := noteStore (writeBytes s l bs) l bs.length

/-! ### Ring headers (R29) -/

/-- The place of a ring header, in a carrel or in the global memory of an address space. The engine's own copy stands for
a header of another module. -/
def ringPlaceOf (s : State) (asid : Nat) (priv : Bool) (loc : RingLoc) : Option (State × Place) :=
  match loc with
  | .carrel c off => some (s, Place.plain (carrelLoc c off))
  | .global _ va =>
    match placeOf s { core := none, die := 0, asid, priv } .global va.toNat 64 .rd with
    | .ok (s1, p) =>
      if p.window || p.sketch != 0 then none else some (s1, if p.remote then { p with loc := shadowLoc p.pa } else p)
    | .error _ => none

/-- The 48-bit fields of a header at a cell. -/
def hdrPub (s : State) (cell : Nat) : Nat := readWord s cell % 2 ^ 48
def hdrTaken (s : State) (cell : Nat) : Nat := readWord s (cell + 8) % 2 ^ 48
def hdrAcc (s : State) (cell : Nat) : Nat := readWord s (cell + 16) % 2 ^ 48
def hdrBase (s : State) (cell : Nat) : Nat := readWord s (cell + 24)
def hdrLogn (s : State) (cell : Nat) : Nat := readWord s (cell + 32) % 32

/-- The difference of two counts modulo 2^48. -/
def sub48 (a b : Nat) : Nat := (a + 2 ^ 48 - b % 2 ^ 48) % 2 ^ 48

/-- An engine that reads a notify word finds more entries than slots, or PUB below TAKEN (R31). -/
def overrun (s : State) (cell : Nat) : Bool := 2 ^ hdrLogn s cell < sub48 (hdrPub s cell) (hdrTaken s cell)

/-- The slot of entry k (R29). -/
def slotIndex (k logn : Nat) : Nat := (k + 2 ^ 48 - 1) % 2 ^ logn

/-- The accession frontier after some completed entries: the largest k that no gap precedes (R32). -/
def frontier (acc : Nat) (done : List Nat) (fuel : Nat) : Nat :=
  match fuel with
  | 0 => acc
  | f + 1 => if done.contains ((acc + 1) % 2 ^ 48) then frontier ((acc + 1) % 2 ^ 48) done f else acc

/-- Whether entry k has completed, by ACC or by the ring's list of completed entries. -/
def entryDone (acc : Nat) (r : Ring) (k : Nat) : Bool := r.done.contains k || sub48 acc k < 2 ^ 47

/-! ### Management-core windows (R521, R523, R524) -/

/-- Pages of 4 KiB in the 96 MiB L2 of a die (R1). -/
def l2Pages : Nat := 24576

/-- L2CAP of a die: its reset value until the first cycle, then LOGICAL over PHYS within R521's bounds, a free value (R329;
log entry 92). -/
def l2capNow (s : State) (d : Nat) : Nat :=
  if s.clock == 0 then (dieOf s d).l2cap.toNat
  else
    let (logical, phys) := Config.l2Held s.clock d
    logical % (2 * l2Pages + 1) * 2 ^ 32 + phys % (l2Pages + 1)

/-- The doubleword at an offset of die d's window. -/
def windowRead (s : State) (d off : Nat) : Nat :=
  let x := dieOf s d
  if off == 0 then x.modid.toNat
  else if off == 8 then x.bootstat.toNat
  else if off == 0x10 then l2capNow s d
  else if 0x100 ≤ off && off < 0x140 then (x.mbox.cmd.getD ((off - 0x100) / 8) 0).toNat
  else if off == 0x140 then x.mbox.door.toNat
  else if off == 0x148 then x.mbox.stat.toNat
  else if 0x1000 ≤ off && off < 0x3000 then readWord s (mbdataLoc d (off - 0x1000))
  else 0

/-- MODID written: the first write sets MODULE and LOCK on all four dies; later ones are ignored (R521, R522). -/
def writeModid (s : State) (v : Nat) : State :=
  if (dieOf s 0).modid.getLsbD 10 then s
  else (List.range 4).foldl (fun st d => modDie st d fun x => { x with modid := BitVec.ofNat 11 (1024 + v % 1024) }) s

/-- MBDOOR written (R524): the doorbell of the next sequence number starts a command unless one runs. -/
def writeDoor (s : State) (d v : Nat) (who : Issuer) : State :=
  let m := (dieOf s d).mbox
  let seq := BitVec.ofNat 16 v
  let next := BitVec.ofNat 16 (m.stat.toNat % 2 ^ 16 + 1)
  let pending := if m.pending.isNone && seq == next then some (seq, who) else m.pending
  modDie s d fun x => { x with mbox := { x.mbox with door := seq, pending } }

/-- A doubleword written at an offset of die d's window; read-only and unassigned offsets keep their values (R5). -/
def windowWrite (s : State) (d off v : Nat) (who : Issuer) : State :=
  if off == 0 then writeModid s v
  else if 0x100 ≤ off && off < 0x140 then
    let i := (off - 0x100) / 8
    -- MBCMD0 bits [63:32] read zero
    let w := if i == 0 then v % 2 ^ 32 else v
    modDie s d fun x => { x with mbox := { x.mbox with cmd := x.mbox.cmd.set i (BitVec.ofNat 64 w) } }
  else if off == 0x140 then writeDoor s d v who
  else if 0x1000 ≤ off && off < 0x3000 then writeWord s (mbdataLoc d (off - 0x1000)) v
  else s

end Sys2Proof.Machine
end

