-- ==== Sys2Proof/Machine/Sketch.lean ====
section
/-! DEFINITION. Sketch regions as data (R369 to R392): their cells, inserts, deletions, queries, collation and folds. -/

namespace Sys2Proof.Machine

/-! ### Shapes (R371) -/

/-- Cells of a region at its current size. -/
def skCells (r : Region) : Nat :=
  match r.kind with
  | 2 => (r.km1 + 1) * 2 ^ r.lcur
  | 4 => 2 ^ (9 + r.lcur)
  | _ => 2 ^ r.lcur

/-- Bytes of a region with a log2 size. -/
def skBytesAt (kind : Nat) (cnt : Bool) (km1 l : Nat) : Nat :=
  match kind with
  | 1 => if cnt then 2 ^ l / 2 else 2 ^ l / 8
  | 2 => 4 * (km1 + 1) * 2 ^ l
  | 3 => 2 ^ l
  | _ => 2 ^ (11 + l)

/-- Bytes of a region. -/
def skBytes (r : Region) : Nat := skBytesAt r.kind r.cnt r.km1 r.lcur

/-- The largest value a cell holds. -/
def cellMax (r : Region) : Nat :=
  match r.kind with
  | 1 => if r.cnt then 15 else 1
  | 3 => 63
  | _ => 2 ^ 32 - 1

/-- A cell set; a zero cell has no entry. -/
def setCell (c : FMap Nat) (i v : Nat) : FMap Nat := if v == 0 then tdel c i else tset c i v

/-- A cell. -/
def cellAt (c : FMap Nat) (i : Nat) : Nat := tgetD c i 0

/-- The kinds whose FILL counts nonzero cells (R372). -/
def fillCounts (r : Region) : Bool := r.kind == 1 || r.kind == 3

/-- FILL recounted where it counts cells. -/
def recount (r : Region) (x : SkState) : SkState :=
  if fillCounts r then { x with fill := BitVec.ofNat 64 x.cells.length } else x

/-! ### The law (R375, R379, R405) -/

/-- F16 of a filter: min(0xFFFF, floor(2^16·s^k/m^k)) (R375). -/
def f16Of (r : Region) (x : SkState) : Nat :=
  min 0xFFFF (2 ^ 16 * x.fill.toNat ^ (r.km1 + 1) / (2 ^ r.lcur) ^ (r.km1 + 1))

/-- ⌈2^16 · 1.04/√(2^l)⌉. -/
def stdError16 (l : Nat) : Nat :=
  -- the square of 68157.44 is 6815744² / 10⁴
  let d := 10000 * 2 ^ l
  let c := isqrt (6815744 * 6815744 / d)
  if 6815744 * 6815744 ≤ c * c * d then c else c + 1

/-- LAW (R405). -/
def lawOf (r : Region) (x : SkState) : Nat :=
  match r.kind with
  | 1 => f16Of r x
  | 2 =>
    let n := toSigned 64 x.n.toNat
    if n ≤ 0 then 0 else (2 * n.toNat + 2 ^ r.lcur - 1) / 2 ^ r.lcur
  | 3 => stdError16 r.lcur
  | _ => 2 ^ (15 - r.lcur)

/-- THRESH as it enters the test (R372). -/
def threshOf (r : Region) : Nat := if r.kind == 2 then r.thresh.toNat else r.thresh.toNat % 2 ^ 16

/-- R379: SATURATED set by the law, UNDERFLOW or CLIPPED; it never clears here. -/
def judge (r : Region) (x : SkState) : SkState :=
  { x with sat := x.sat || x.under || x.clipped || threshOf r < lawOf r x }

/-! ### Hashes (R373, R374, R378) -/

/-- The seed pair of hash i. -/
def seedPair (r : Region) (i : Nat) : Nat :=
  (r.seed0.toNat % 2 ^ 32 + i * (r.seed1.toNat % 2 ^ 32)) % 2 ^ 32 +
    (bits r.seed0.toNat 63 32 + i * bits r.seed1.toNat 63 32) % 2 ^ 32 * 2 ^ 32

/-- The index of hash i of a key. -/
def hashIndex (r : Region) (i key : Nat) : Nat := hash32 (seedPair r i) key / 2 ^ (32 - r.l0) % 2 ^ r.lcur

/-- The cells that a key's hashes name, row by row for a frequency sketch. -/
def hashCells (r : Region) (key : Nat) : List Nat :=
  (List.range (r.km1 + 1)).map fun i => if r.kind == 2 then i * 2 ^ r.lcur + hashIndex r i key else hashIndex r i key

/-- The register and rank of a key in a distinct counter (R374). -/
def rankOf (r : Region) (key : Nat) : Nat × Nat :=
  let h := (r.seed0.toNat * key + r.seed1.toNat) % 2 ^ 64
  let low := h * 2 ^ r.lcur % 2 ^ 64
  (h / 2 ^ (64 - r.lcur), (if low == 0 then 64 - r.lcur else leadingZeros 64 low) + 1)

/-- The bucket of an f32 code: none for a NaN (R378). -/
def bucketOf (l v : Nat) : Option Nat :=
  let e := bits v 30 23
  if e == 0 then some 0
  else if e == 255 then
    if v % 2 ^ 23 == 0 then some ((if bit v 31 then 0xFF7FFFFF else 0x7F7FFFFF) / 2 ^ (23 - l)) else none
  else some (v / 2 ^ (23 - l))

/-! ### Inserts and deletions -/

/-- A signed change of a 32-bit counter: one that would pass its maximum sticks there, and one below zero clamps (R376,
R378). -/
def addCounter (x : SkState) (i : Nat) (d : Int) : SkState :=
  if tgetD x.stuck i false then x
  else
    let v := (cellAt x.cells i : Int) + d
    if v < 0 then { x with cells := setCell x.cells i 0, under := true }
    else if 2 ^ 32 - 1 < v then
      { x with cells := setCell x.cells i (2 ^ 32 - 1), clipped := true, stuck := tset x.stuck i true }
    else { x with cells := setCell x.cells i v.toNat }

/-- One hash of a counting filter's insert: a counter at 15 sticks and sets CLIPPED (R375). -/
def bumpFilter (x : SkState) (i : Nat) : SkState :=
  let c := cellAt x.cells i
  if c == 15 then { x with clipped := true } else { x with cells := setCell x.cells i (c + 1) }

/-- One hash of a deletion (R375). -/
def dropFilter (x : SkState) (i : Nat) : SkState :=
  let c := cellAt x.cells i
  if c == 15 then x
  else if c == 0 then { x with under := true }
  else { x with cells := setCell x.cells i (c - 1) }

/-- An insert of a key with a 32-bit weight (R375 to R378), then FILL and R379. -/
def skInsert (r : Region) (x : SkState) (key weight : Nat) : SkState :=
  let x1 : SkState :=
    match r.kind with
    | 1 =>
      if weight == 0 then x
      else if r.cnt then { (hashCells r key).foldl bumpFilter x with n := x.n + 1 }
      else { x with cells := (hashCells r key).foldl (fun c i => setCell c i 1) x.cells, n := x.n + 1 }
    | 2 =>
      let d := toSigned 32 weight
      { (hashCells r key).foldl (fun y i => addCounter y i d) x with n := BitVec.ofInt 64 ((x.n.toNat : Int) + d) }
    | 3 =>
      if weight == 0 then x
      else
        let (j, rho) := rankOf r key
        { x with cells := setCell x.cells j (max (cellAt x.cells j) rho), n := x.n + 1 }
    | _ =>
      match bucketOf r.lcur (key % 2 ^ 32) with
      | none => { x with fill := x.fill + BitVec.ofNat 64 weight }
      | some i => { addCounter x i (weight : Int) with n := x.n + BitVec.ofNat 64 weight }
  judge r (recount r x1)

/-- A deletion from a counting filter (R375, R404). -/
def skDelete (r : Region) (x : SkState) (key : Nat) : SkState :=
  judge r (recount r { (hashCells r key).foldl dropFilter x with n := x.n - 1 })

/-! ### Queries (R375 to R378, R402) -/

/-- An f64 value rounded once with .rne. -/
def round64 (x : Exact) : Num := decodeFloat .f64 (encodeFloat .f64 0 .rne false false 0 x.num x.sticky).1

/-- A ratio of naturals as an f64. -/
def ratio64 (a b : Nat) : Num := round64 (divNum (.fin false a 0) (.fin false b 0))

/-- The estimate of a distinct counter (R377). -/
def distinctEstimate (r : Region) (x : SkState) : Nat :=
  let m := 2 ^ r.lcur
  let v := m - x.cells.length
  -- the exact sum, in units of 2^-63: each zero register adds one
  let z := round64 ⟨.fin false (v * 2 ^ 63 + (x.cells.map fun c => 2 ^ (63 - c.2)).sum) (-63), false, false⟩
  let mul (a b : Num) : Num := round64 ⟨(mulNum a b).1, false, false⟩
  let alpha :=
    if r.lcur == 4 then ratio64 673 1000 else if r.lcur == 5 then ratio64 697 1000
    else if r.lcur == 6 then ratio64 709 1000
    else
      let q := round64 (divNum (ratio64 1079 1000) (.fin false m 0))
      round64 (divNum (ratio64 7213 10000) (round64 ⟨(addNum .rne (.fin false 1 0) q).1, false, false⟩))
  let mn : Num := .fin false m 0
  let e := round64 (divNum (mul (mul alpha mn) mn) z)
  let small := cmpNum e (.fin false (5 * m) (-1)) ≤ 0 && 0 < v
  let e' := if small then
      match ratio64 m v with
      | .fin _ rm re =>
        let ln := if 0 ≤ re then fxLn 640 (rm * 2 ^ re.toNat) 1 else fxLn 640 rm (2 ^ (-re).toNat)
        mul mn (round64 ⟨ofScaled ln (-640) false, false, false⟩)
      | y => y
    else e
  match e' with
  | .fin neg em ee => roundMag .rne 0 neg em ee 0 false
  | _ => 0

/-- The midpoint of a bucket as f32 bits (R378). -/
def bucketMid (l i : Nat) : Nat := if i == 0 then 0 else i * 2 ^ (23 - l) + 2 ^ (22 - l)

/-- The walk of a quantile query: the first bucket whose cumulative count reaches the rank, else the last. -/
def walkBuckets (l rank : Nat) (bs : List (Nat × Nat)) (acc last : Nat) : Nat :=
  match bs with
  | [] => last
  | (i, c) :: rest => if rank ≤ acc + c then bucketMid l i else walkBuckets l rank rest (acc + c) (bucketMid l i)

/-- A quantile query (R378). -/
def quantileAt (r : Region) (x : SkState) (q : Nat) : Nat :=
  let half := 2 ^ (8 + r.lcur)
  let order := (x.cells.filter fun c => half ≤ c.1).reverse ++ x.cells.filter fun c => c.1 < half
  let n := x.n.toNat
  if n == 0 || x.cells.isEmpty then 0x7FC00000
  else walkBuckets r.lcur (max 1 ((q * n + 2 ^ 16 - 1) / 2 ^ 16)) order 0 0

/-- The answer of a query (R402). -/
def skQuery (r : Region) (x : SkState) (b : Nat) : Nat :=
  match r.kind with
  | 1 => if (hashCells r b).all fun i => cellAt x.cells i != 0 then 1 else 0
  | 2 => (hashCells r b).foldl (fun acc i => min acc (cellAt x.cells i)) (2 ^ 32 - 1)
  | 3 => distinctEstimate r x
  | _ => quantileAt r x (b % 2 ^ 16)

/-! ### Collation and folds (R387, R389) -/

/-- Two cells merged, and whether an addition saturated. -/
def mergeCell (r : Region) (a b : Nat) : Nat × Bool :=
  if r.kind == 3 then (max a b, false)
  else if r.kind == 1 && !r.cnt then (max a b, false)
  else (min (cellMax r) (a + b), cellMax r < a + b)

/-- A cell added to those merged so far, with the cells whose sum has saturated. -/
def addCell (r : Region) (acc : FMap Nat × FMap Bool) (i v : Nat) : FMap Nat × FMap Bool :=
  let (w, c) := mergeCell r (cellAt acc.1 i) v
  (setCell acc.1 i w, if c then tset acc.2 i true else acc.2)

/-- Two sets of stuck counters together. -/
def allStuck (a b : FMap Bool) : FMap Bool := b.foldl (fun m e => tset m e.1 true) a

/-- The collation operator (R387). -/
def skMerge (r : Region) (a b : SkState) : SkState :=
  let (cells, clip) := b.cells.foldl (fun acc e => addCell r acc e.1 e.2) (a.cells, [])
  judge r (recount r { cells, n := a.n + b.n, fill := if r.kind == 4 then a.fill + b.fill else 0
                       under := a.under || b.under, clipped := a.clipped || b.clipped || !clip.isEmpty, sat := a.sat || b.sat
                       stuck := allStuck (allStuck a.stuck b.stuck) clip })

/-- The partial of die d. -/
def partOf (r : Region) (d : Nat) : SkState := tgetD r.parts d SkState.reset

/-- The collated state of the four partials (R383); its SATURATED bit stays set until SKCLR (R379). -/
def collated (r : Region) : SkState :=
  let x := skMerge r (skMerge r (skMerge r (partOf r 0) (partOf r 1)) (partOf r 2)) (partOf r 3)
  { x with sat := x.sat || r.csat }

/-- The state that a query scope names from a die (R383, R386): `.die` the partial, else the collated state; and the
region after a collated state has been formed. -/
def seenState (r : Region) (die : Nat) (dieScope : Bool) : SkState × Region :=
  if r.isSealed then (r.image, r)
  else if dieScope then (partOf r die, r)
  else (collated r, { r with csat := (collated r).sat })

/-- The new cell that an old cell enters when a region folds: row by row in a frequency sketch (R389). -/
def foldPlace (r : Region) (i : Nat) : Nat :=
  let half := 2 ^ (r.lcur - 1)
  if r.kind == 3 then i / 2 else if r.kind == 2 then i / (2 * half) * half + i % half else i % half

/-- The cells of a state at half the size (R389), and those whose sum has saturated. -/
def foldCells (r : Region) (c : FMap Nat) : FMap Nat × FMap Bool :=
  if r.kind == 3 then
    (c.foldl (fun acc e =>
      let j := foldPlace r e.1
      let v := if e.1 % 2 == 0 then e.2 + 1 else 1
      setCell acc j (max (cellAt acc j) v)) [], [])
  else c.foldl (fun acc e => addCell r acc (foldPlace r e.1) e.2) ([], [])

/-- A state folded; `r` is the region at its old size. -/
def foldState (r : Region) (x : SkState) : SkState :=
  let (cells, clip) := foldCells r x.cells
  judge { r with lcur := r.lcur - 1 } (recount r
    { x with cells, clipped := x.clipped || !clip.isEmpty, stuck := allStuck (x.stuck.map fun e => (foldPlace r e.1, e.2)) clip })

/-- Whether a region can be folded (R389). -/
def foldable (r : Region) : Bool :=
  match r.kind with
  | 1 => r.lcur != 4
  | 2 => r.lcur != 4
  | 3 => r.lcur != 4
  | _ => false

/-! ### The region's memory (R371, R385) -/

/-- The physical address of byte `off` of a region. -/
def regionPa (r : Region) (off : Nat) : Nat :=
  let va := r.base.toNat + off
  match r.pages.find? fun p => p.1 == va / 65536 * 65536 with
  | some p => p.2 + va % 65536
  | none => 0

/-- The cell of a physical address of a region's memory: of a page homed on another module, the stacks engine's own copy of
what it has written there. -/
def regionCell (s : State) (pa : Nat) : Nat := if isRemote s pa then shadowLoc pa else paLoc s pa

/-- The cell of byte `off` of a region. -/
def regionLoc (s : State) (r : Region) (off : Nat) : Nat := regionCell s (regionPa r off)

/-- Whether a cell of memory lies in the first n bytes of a region. -/
def inRegion (s : State) (r : Region) (n l : Nat) : Bool :=
  r.pages.any fun p =>
    let b := regionCell s p.2
    b ≤ l && l < b + 65536 && r.base.toNat ≤ p.1 + (l - b) && p.1 + (l - b) < r.base.toNat + n

/-- The first n bytes of a region written zero. -/
def zeroRegion (s : State) (r : Region) (n : Nat) : State :=
  { s with
    mem := s.mem.filter fun c => !inRegion s r n c.1
    poison := s.poison.filter fun sec => !inRegion s r n (32 * sec) }

/-- The byte and shift of cell j, and its width in bits (R371). -/
def cellPlace (r : Region) (j : Nat) : Nat × Nat × Nat :=
  match r.kind with
  | 1 => if r.cnt then (j / 2, 4 * (j % 2), 4) else (j / 8, j % 8, 1)
  | 3 => (j, 0, 6)
  | _ => (4 * j, 0, 32)

/-- One cell written into zeroed memory. -/
def writeCell (s : State) (r : Region) (j v : Nat) : State :=
  let (b, sh, w) := cellPlace r j
  let n := if w == 32 then 4 else 1
  (List.range n).foldl (fun st i =>
    let l := regionLoc st r (b + i)
    writeNat st l 1 (readNat st l 1 + v * 2 ^ sh / 2 ^ (8 * i) % 256)) s

/-- A state written as the region's image. -/
def writeImage (s : State) (r : Region) (x : SkState) : State :=
  x.cells.foldl (fun st e => writeCell st r e.1 e.2) (zeroRegion s r (skBytes r))

/-- The cells that the region's memory holds. -/
def memoryCells (s : State) (r : Region) : FMap Nat :=
  (List.range (skCells r)).foldl (fun acc j =>
    let (b, sh, w) := cellPlace r j
    let v := leNat ((List.range (if w == 32 then 4 else 1)).map fun i => Memory.get s.mem (regionLoc s r (b + i)))
    setCell acc j (v / 2 ^ sh % 2 ^ w)) []

/-! ### Finding and changing regions -/

/-- What two regions must agree in: KIND, CNT, L0, LCUR, KM1 and the seeds (R388). -/
def agreeWords (r : Region) : List Nat :=
  [r.kind + (if r.cnt then 8 else 0) + r.l0 * 2 ^ 4 + r.lcur * 2 ^ 10 + r.km1 * 2 ^ 16, r.seed0.toNat, r.seed1.toNat]

/-- A state as the words of a message: N, FILL, the status bits, the number of cells, the cells, the stuck counters (log entry
27). -/
def stateWords (x : SkState) : List Nat :=
  [x.n.toNat, x.fill.toNat, (if x.under then 1 else 0) + (if x.clipped then 2 else 0) + (if x.sat then 4 else 0),
    x.cells.length] ++ (x.cells.flatMap fun e => [e.1, e.2]) ++ x.stuck.map Prod.fst

/-- The cells of a message's words, in the order of their numbers. -/
def wordCells (ws : List Nat) : FMap Nat :=
  match ws with
  | i :: v :: rest => setCell (wordCells rest) i v
  | _ => []

/-- The state of a message's words. -/
def wordsState (ws : List Nat) : SkState :=
  let f := ws.getD 2 0
  let k := ws.getD 3 0
  { cells := wordCells ((ws.drop 4).take (2 * k)), n := BitVec.ofNat 64 (ws.getD 0 0), fill := BitVec.ofNat 64 (ws.getD 1 0)
    under := bit f 0, clipped := bit f 1, sat := bit f 2
    stuck := allStuck [] ((ws.drop (4 + 2 * k)).map fun i => (i, true)) }

/-- The region whose bytes hold a physical address (R370). -/
def regionAt (s : State) (pa : Nat) : Option (Nat × Region) :=
  s.regions.find? fun e => e.2.pages.any fun p =>
    p.2 ≤ pa && pa < p.2 + 65536 && e.2.base.toNat ≤ p.1 + (pa - p.2) && p.1 + (pa - p.2) < e.2.base.toNat + skBytes e.2

/-- The region with a base in an address space (R369). -/
def regionBase (s : State) (asid : Nat) (base : Nat) : Option (Nat × Region) :=
  s.regions.find? fun e => e.2.asid.toNat == asid && e.2.base.toNat == base

def setRegion (s : State) (k : Nat) (r : Region) : State := { s with regions := tset s.regions k r }

/-- A partial replaced; its SATURATED bit going to 1 decrements STASK with a release at .die (R380). -/
def setPart (s : State) (k : Nat) (r : Region) (d : Nat) (x : SkState) : State :=
  let s1 := setRegion s k { r with parts := tset r.parts d x }
  if !(partOf r d).sat && x.sat && r.stv then sendDec s1 r.stask.toNat else s1

/-- The binding of an inserting thread is recorded for R385. -/
def addUser (r : Region) (u : Nat × Nat) : Region := if r.users.contains u then r else { r with users := r.users ++ [u] }

/-- An event at the partial's line, under the range's table (R428). -/
def regionEvent (s : State) (r : Region) (d range ev : Nat) : State := partialEvent s d (regionPa r 0) range ev

/-- The fault that an event at a partial's line returns to its requester (R418). -/
def regionFault (s : State) (r : Region) (d range ev : Nat) : Option Nat :=
  eventFault s (some (holderPartial d)) (regionPa r 0 / 64) range ev (partialEntry s d (regionPa r 0) range ev)

/-- An insert on a die's partial, which DATA 7 of IN's entry applies (R418); or the cause that the entry returns. -/
def insertOn (s : State) (k : Nat) (r : Region) (d range key weight : Nat) (user : Option (Nat × Nat)) : Except Nat State :=
  let r1 := match user with
    | some u => addUser r u
    | none => r
  match regionFault s r d range 8 with
  | some c => .error c
  | none =>
    .ok (regionEvent
      (if (partialEntry s d (regionPa r 0) range 8).data == 7 then setPart s k r1 d (skInsert r1 (partOf r1 d) key weight) else s)
      r1 d range 8)

/-- The status word of R381. -/
def statusWord (r : Region) (x : SkState) : Nat :=
  r.kind + (if x.sat then 8 else 0) + (if x.under then 16 else 0) + (if x.clipped then 32 else 0) +
    (if r.isSealed then 64 else 0) + (if r.kind == 1 then f16Of r x * 2 ^ 16 else 0) + x.n.toNat % 2 ^ 32 * 2 ^ 32

/-- The word that SKSTAT W returns (R372, R405). -/
def skStatWord (r : Region) (x : SkState) (w : Nat) : Nat :=
  match w with
  | 0 => r.kind + (if r.cnt then 8 else 0) + r.l0 * 2 ^ 4 + r.lcur * 2 ^ 10 + r.km1 * 2 ^ 16 + (if r.stv then 2 ^ 19 else 0) +
      r.stask.toNat * 2 ^ 20 + (if x.sat then 2 ^ 36 else 0) + (if x.under then 2 ^ 37 else 0) +
      (if x.clipped then 2 ^ 38 else 0) + (if r.isSealed then 2 ^ 39 else 0) + 2 ^ 40
  | 1 => r.thresh.toNat
  | 2 => r.seed0.toNat
  | 3 => r.seed1.toNat
  | 4 => x.n.toNat
  | 5 => x.fill.toNat
  | 6 => r.base.toNat % 2 ^ 56
  | _ => lawOf r x

end Sys2Proof.Machine
end

