-- ==== Sys2Proof/Machine/Fabric.lean ====
section
/-! DEFINITION. Packets of the fabric as the module sends them: ports, queues, trimming, retransmit buffers (R437 to
R452, R460). -/

namespace Sys2Proof.Machine

/-- A header with nothing set. -/
def Packet.blank : Packet :=
  { dmod := 0, ddie := 0, smod := 0, sport := 0, cls := 0, ord := false, trimmed := false, len := 0, trims := 0,
    type := 0, tag := 0, addr := 0, lmask := 0, fmask := 0, seq := 0, flow := 0, aux := 0, operands := [], route := 0, payload := [],
    poisoned := false, rzBad := false }

/-! ### Packet types (R441) -/

def tyReadReq : BitVec 5 := 0
def tyReadResp : BitVec 5 := 1
def tyPosted : BitVec 5 := 2
def tyRmwReq : BitVec 5 := 3
def tyRmwResp : BitVec 5 := 4
def tyAck : BitVec 5 := 5
def tyRecall : BitVec 5 := 6
def tyEngine : BitVec 5 := 9
def tySketch : BitVec 5 := 10
def tyCollective : BitVec 5 := 11
def tyService : BitVec 5 := 12

/-- Flits of a packet in a queue: header and payload. -/
def flitsOf (p : Packet) : Nat := p.len.toNat + 1

/-- Flits in a data queue. -/
def queueFlits (q : List Packet) : Nat := (q.map flitsOf).sum

/-- Flits of a class in a data queue. -/
def classFlits (q : List Packet) (k : BitVec 3) : Nat := queueFlits (q.filter fun p => p.cls == k)

/-- THRk of a port: its die's TRIM_BASE, a value above 128 acting as 128 (R444). -/
def thrOf (s : State) (port : Nat) (k : BitVec 3) : Nat :=
  min 128 (bits (dieOf s (port / 4)).trimBase.toNat (8 * k.toNat + 7) (8 * k.toNat))

/-- Classes 3 and 4, and stubs, travel in the header lane (R442). -/
def headerLane (p : Packet) : Bool := p.cls == 3 || p.cls == 4 || p.trimmed

/-- R443: whether an output port trims an arriving packet. -/
def mustTrim (s : State) (port : Nat) (p : Packet) : Bool :=
  let q := (portOf s port).dataQ
  p.len != 0 && !p.trimmed &&
    (thrOf s port p.cls * 64 < classFlits q p.cls + flitsOf p || 8192 < queueFlits q + flitsOf p)

/-- A trim counter rises by one (R445, R459). -/
def countTrim (s : State) (port : Nat) (k : BitVec 3) : State :=
  modPort s port fun x => { x with trims := tset x.trims k.toNat (tgetD x.trims k.toNat 0 + 1) }

/-- A packet that has left the module. -/
def emit (s : State) (p : Packet) : State := { s with fabric := { s.fabric with out := s.fabric.out ++ [p] } }

/-- The stub of a packet (R445). -/
def stubOf (p : Packet) : Packet := { p with trimmed := true, payload := [] }

/-- A packet arrives at an output port of the module: the header lane is served at once, the data queue takes the
packet, or the port trims it (R442, R443, R445). -/
def egress (s : State) (port : Nat) (p : Packet) : State :=
  if headerLane p then emit s p
  else if mustTrim s port p then emit (countTrim s port p.cls) (stubOf p)
  else modPort s port fun x => { x with dataQ := x.dataQ ++ [p] }

/-- The oldest packet of a class in a data queue. -/
def classHead (x : Port) (k : Nat) : Option Packet := x.dataQ.find? fun p => p.cls.toNat == k

/-- The packet a port sends next, by deficit round-robin in flits (R460): a class whose turn comes gains its weight, and sends
while its deficit covers its oldest packet. Classes of weight 0 send when no other class waits. -/
def nextServed (x : Port) (fuel : Nat) : Option (Packet × Port) :=
  match fuel with
  | 0 => x.dataQ.head?.map fun p => (p, x)
  | f + 1 =>
    let pass (y : Port) : Port :=
      let k := (x.turn + 1) % 8
      { y with turn := k, deficits := y.deficits.set k (y.deficits.getD k 0 + y.weights.getD k 0) }
    match classHead x x.turn with
    | none => nextServed (pass { x with deficits := x.deficits.set x.turn 0 }) f
    | some p =>
      let d := x.deficits.getD x.turn 0
      if flitsOf p ≤ d then some (p, { x with deficits := x.deficits.set x.turn (d - flitsOf p) })
      else nextServed (pass x) f

/-- A port's link sends one packet; ten rounds bring every weight above 0 to the nine flits of the longest packet. -/
def serveOne (s : State) (port : Nat) : State :=
  match nextServed (portOf s port) 80 with
  | none => s
  | some (p, x) => emit (setPort s port { x with dataQ := x.dataQ.erase p }) p

/-- The links send packets of each data queue: one a cycle, which is within a cycle's flits (R437; log entry 6). -/
def sentPackets (s : State) (n : Nat) : State :=
  (List.range 16).foldl (fun st port =>
    let q := (portOf st port).dataQ
    if q.isEmpty then st else (List.range (min n q.length)).foldl (fun u _ => serveOne u port) st) s

/-- The links' n cycles change the fabric only. -/
def drainPorts (s : State) (n : Nat) : State := { s with fabric := (sentPackets s n).fabric }

/-- The port of die d with the least occupied data queue; the lowest number among equals (R437). -/
def leastPort (s : State) (d : Nat) : Nat :=
  (List.range 4).foldl (fun best i =>
    if queueFlits (portOf s (4 * d + i)).dataQ < queueFlits (portOf s best).dataQ then 4 * d + i else best) (4 * d)

/-- The fixed port of an ordered flow (R437). -/
def flowPort (d flow dmod : Nat) : Nat := 4 * d + Config.flowHash flow dmod % 4

/-- Flits kept in a port's retransmit buffer (R446). -/
def keptFlits (x : Port) : Nat := queueFlits (x.kept.map Kept.pkt)

/-- The retransmit buffer of 2 MiB has no room for another payload packet (R446). -/
def bufferFull (s : State) (port : Nat) : Bool := 65536 < keptFlits (portOf s port) + 9

/-- A port of a die accepts no further payload packet (R446). -/
def portsFull (s : State) (die : Nat) : Bool := (List.range 4).any fun i => bufferFull s (4 * die + i)

/-- An engine's step to a state in which it has sent a packet waits while a port of its die accepts none (R446). -/
def withRoom (s : State) (die : Nat) (t : State) : State := if portsFull s die && t.fabric != s.fabric then s else t

/-- The first tag from a number on that no kept packet of a port carries (R440). -/
def freeTag (x : Port) (t : BitVec 16) (fuel : Nat) : BitVec 16 :=
  match fuel with
  | 0 => t
  | f + 1 => if x.kept.any fun k => k.pkt.tag == t then freeTag x (t + 1) f else t

/-- The generation of a context's address-space ID (R256). -/
def genOf (s : State) (context : Nat) : BitVec 16 :=
  match tget s.contexts context with
  | some c => (spaceEntry s c.asid.toNat).gen
  | none => 0

/-- Sends a packet from a port: it takes a tag, is kept when it expects an answer, and meets the port's queue. -/
def sendFrom (s : State) (port : Nat) (p : Packet) (owner : Owner) (context : Nat) : State × BitVec 16 :=
  let x := portOf s port
  let tag := freeTag x x.nextTag (x.kept.length + 1)
  let (seq, nextSeq) := if p.ord then
      let key := p.flow.toNat * 1024 + p.dmod.toNat
      (tgetD x.nextSeq key 0, tset x.nextSeq key (tgetD x.nextSeq key 0 + 1))
    else (0, x.nextSeq)
  let q := { p with tag, seq, sport := BitVec.ofNat 4 port, smod := BitVec.ofNat 10 (moduleNumber s) }
  let s1 := setPort s port
    { x with nextTag := tag + 1, nextSeq, kept := x.kept ++ [{ pkt := q, owner, context, gen := genOf s context, resends := 0, since := s.clock }] }
  (egress s1 port q, tag)

/-- A packet without answer (an ack or a recall). -/
def sendPlain (s : State) (port : Nat) (p : Packet) : State :=
  egress s port { p with sport := BitVec.ofNat 4 port, smod := BitVec.ofNat 10 (moduleNumber s) }

/-- The destination fields of a physical address (R438, R39). -/
def towards (p : Packet) (pa : Nat) : Packet :=
  { p with dmod := BitVec.ofNat 10 (homeModule pa), ddie := BitVec.ofNat 2 (homeDie pa),
           addr := BitVec.ofNat 52 (pa / 32 * 32) }

/-- Byte enables of n bytes at an address within its sector. -/
def enables (pa n : Nat) : BitVec 32 := BitVec.ofNat 32 ((2 ^ n - 1) * 2 ^ (pa % 32))

/-- A flit with some bytes at their places in the sector. -/
def flitOf (pa : Nat) (bs : List Byte) : Wide := BitVec.ofNat 256 (leNat bs * 2 ^ (8 * (pa % 32)))

/-- AUX [38:33] of a request or a write carries the address range of its page, which its home needs (log entry 27). -/
def carryRange (p : Packet) (range : Nat) : Packet := { p with aux := p.aux + BitVec.ofNat 40 (range % 64 * 2 ^ 33) }

/-! ### Reads of engines (R438, R439) -/

/-- The flow of a die's answers to engine reads. -/
def answerFlow : Nat := 255

/-- The runs of at most eight sectors that cover some bytes: first address and number of sectors. -/
def sectorRuns (pa n fuel : Nat) : List (Nat × Nat) :=
  match fuel with
  | 0 => []
  | f + 1 =>
    if n == 0 then []
    else
      let lo := pa / 32 * 32
      let k := min 8 ((pa + n - lo + 31) / 32)
      (lo, k) :: sectorRuns (lo + 32 * k) (pa + n - (lo + 32 * k)) f

/-- The runs of n bytes. -/
def runsOf (pa n : Nat) : List (Nat × Nat) := sectorRuns pa n (n / 256 + 2)

/-- The read that an owner has sent of a run. -/
def askOf (s : State) (owner : Owner) (run : Nat × Nat) : Option Ask :=
  s.fabric.asks.find? fun a => a.owner == owner && a.pa == run.1 && a.sectors == run.2

/-- An engine's read request: AUX holds 16 and the sectors less one, so that its home answers in class 5 (R439; log
entry 27). -/
def engineReadPacket (run : Nat × Nat) (range : Nat) : Packet :=
  carryRange (towards { Packet.blank with type := tyReadReq, aux := BitVec.ofNat 40 (16 + (run.2 - 1)) } run.1) range

/-- Sends an engine's read of a run, unless it is on its way or answered, or no port of its die accepts one (R446). -/
def sendAsk (die : Nat) (owner : Owner) (context range : Nat) (s : State) (run : Nat × Nat) : State :=
  match askOf s owner run with
  | some _ => s
  | none =>
    if portsFull s die then s
    else
      let port := leastPort s die
      let (s1, tag) := sendFrom s port (engineReadPacket run range) owner context
      let f := s1.fabric
      { s1 with fabric := { f with asks := f.asks ++
        [{ owner, pa := run.1, sectors := run.2, port, tag, val := none, poisoned := false, fault := 0 }] } }

/-- The reads of an owner are over: their answers have been used. -/
def dropAsks (s : State) (owner : Owner) : State :=
  let f := s.fabric
  if f.asks.any fun a => a.owner == owner then { s with fabric := { f with asks := f.asks.filter fun a => a.owner != owner } }
  else s

/-- What an engine's read of another module finds. -/
inductive FarRead where
  /-- The answer: its bytes, and byte by byte whether they are poisoned. -/
  | got (bs : List Byte) (bad : List Bool)
  /-- The home's refusal. -/
  | refused (cause : BitVec 8)
  /-- The requests are on their way. -/
  | waits (s : State)

/-- The bytes of an answered read. -/
def askBytes (a : Ask) : List Byte := (a.val.getD []).flatMap fun w => leBytes 32 w.toNat

/-- An engine's read of n bytes of another module. -/
def fetchRemote (s : State) (die : Nat) (owner : Owner) (context range pa n : Nat) : FarRead :=
  let runs := runsOf pa n
  if runs.all fun r => (askOf s owner r).any fun a => a.val.isSome then
    let as := runs.filterMap (askOf s owner)
    match as.find? fun a => a.fault != 0 with
    | some a => .refused a.fault
    | none =>
      let bs := as.flatMap askBytes
      let bad := as.flatMap fun a => List.replicate (32 * a.sectors) a.poisoned
      .got ((bs.drop (pa % 32)).take n) ((bad.drop (pa % 32)).take n)
  else .waits (runs.foldl (sendAsk die owner context range) s)

/-- A read request for n bytes within a sector: the byte enables name them (log entry 27). -/
def readRequest (pa n : Nat) : Packet := towards { Packet.blank with type := tyReadReq, fmask := enables pa n } pa

/-- A posted write, or sketch insert, of bytes within a sector (R439). -/
def postedPacket (ty : BitVec 5) (pa : Nat) (bs : List Byte) : Packet :=
  towards { Packet.blank with type := ty, cls := 2, len := 1, fmask := enables pa bs.length, lmask := enables pa bs.length,
                              payload := [flitOf pa bs] } pa

end Sys2Proof.Machine
end

