-- ==== Sys2Proof/Machine/Access.lean ====
section
/-! DEFINITION. One memory access of a lane: its traps in the order of R205, transactions (R162), remote homes (R438,
R452, R453), windows (R523), line events (R419) and the cells it reads or writes. -/

namespace Sys2Proof.Machine

/-- How an access ends: done with a value, answered by another module, a trap, an abort of the thread's transaction, or a
wait. -/
inductive Acq where
  | ok (s : State) (v : Nat)
  /-- The answer of another module, good but not yet arrived at its latch. -/
  | sent (s : State) (p : PendPiece)
  | trap (i : TrapInfo)
  | abort (s : State)
  | stall (s : State)

/-- EA of R203. -/
def eaOf {w : Nat} (t : Thread) (a : Src) (off : BitVec w) : Nat := (srcWord t a + off.signExtend 64).toNat

/-- R205 items 3 to 5, and R211 for a page that carries a sketch kind unless `sketch` admits it. -/
def laneCheck (s : State) (tid : Nat) (space : Space) (ea size : Nat) (acc : Acc) (sketch : Bool) :
    Except TrapInfo (State × Place) :=
  if ea % size != 0 then .error (trapOf cMisaligned (some ea))
  else match placeOf s (partyOf s tid) space ea size acc with
    | .error f => .error (trapCode f ea)
    | .ok (s1, p) =>
      if p.window && size != 8 then .error (trapOf cMisaligned (some ea))
      else if p.sketch != 0 && !sketch then .error (trapOf cProtection (some ea))
      else .ok (s1, p)

/-- The line of a place. -/
def lineNo (p : Place) : Nat := p.pa / 64

/-- Whether a queued matrix instruction of a thread has still to write cells of a place's 64 bytes, or, for a write, to read
them: its accesses are the thread's, in program order (R45, R269, R306). -/
def queuedMeets (s : State) (tid : Nat) (p : Place) (write : Bool) : Bool :=
  (coreOf s (thr s tid).core).mx.queue.any fun x =>
    x.tids.head? == some tid && x.touch.any fun r => (r.2.2 || write) && overlap r.1 r.2.1 (p.loc / 64 * 64) 64

/-- A thread's own posted write still in flight to a line, or a queued access of its matrix engine, makes an access wait
(R45, R453). -/
def lineBusy (s : State) (tid : Nat) (p : Place) (write : Bool := true) : Bool :=
  (p.global && (thr s tid).posted.any fun x => x.line == lineNo p) || queuedMeets s tid p write

/-- The threads that take part in an instruction together: guard true, no trap of their operands, and in no transaction,
which the instruction would abort (R165). -/
def takesPart (s0 : State) (o : Ops) (needs : List (Src × Need)) : List Nat :=
  (gathering s0).filter fun i =>
    let t := thr s0 i
    guardTrue t o.gd && !(s0.issue.traps.any fun x => x.1 == i) && (operandTrap t needs).isNone && (eccHit t o).isNone &&
      (txOf s0 i).isNone

/-! ### Transactional accesses (R162, R165) -/

/-- The transaction of a thread replaced. -/
def setTx (s : State) (tid : Nat) (x : Tx) : State :=
  match txEntry s tid with
  | none => s
  | some e => modWg s (tidWg tid) fun w => { w with txs := tset w.txs e.1 x }

/-- Whether a transaction must abort rather than make this access: it takes the global space of its own module alone. DESIGN
CHOICE: an access that R205 traps has trapped before this is asked, so its abort has code 5 and not 6 (log entry 79). -/
def txRefuses (space : Space) (p : Place) : Bool := space != .global || p.remote || p.sketch != 0 || p.window

/-- A transactional load: bytes that the transaction has written come from its log alone; the others are read as any load
reads them, line event and poison included (R162, R207, R419). -/
def txLoad (s : State) (tid ea : Nat) (x : Tx) (p : Place) (n : Nat) : Acq :=
  let locs := (List.range n).map fun i => p.loc + i
  let fresh := locs.filter fun l => (tget x.log l).isNone
  let known := (tget x.reads (lineNo p)).isSome
  let value (st : State) : Nat := leNat (locs.map fun l => tgetD x.log l (Memory.get st.mem l))
  if fresh.isEmpty then .ok s (value s)
  else if !known && 128 ≤ x.reads.length then .abort (txAbortBy s tid 3 0)
  else match lineAccess s (some (thr s tid).core) p.pa p.range false with
    | .error c => .trap (trapOf (BitVec.ofNat 8 c) (some ea))
    | .ok s1 =>
      if fresh.any fun l => poisoned s1 l 1 then .trap (trapOf cPoison (some ea))
      else
        let line := readBytes s1 (paLoc s1 (lineNo p * 64)) 64
        .ok (if known then s1 else setTx s1 tid { x with reads := tset x.reads (lineNo p) line }) (value s1)

/-- A transactional store. -/
def txStore (s : State) (tid : Nat) (x : Tx) (p : Place) (bs : List Byte) : Acq :=
  let known := (tget x.lines (lineNo p)).isSome
  if !known && 64 ≤ x.lines.length then .abort (txAbortBy s tid 2 0)
  else
    let log := (List.range bs.length).foldl (fun m i => tset m (p.loc + i) (bs.getD i 0)) x.log
    .ok (setTx s tid { x with log, lines := if known then x.lines else tset x.lines (lineNo p) p.range }) 0

/-! ### Loads -/

/-- The die of a thread. -/
def dieOfThr (s : State) (tid : Nat) : Nat := dieOfCore (thr s tid).core

/-- A local load of checked cells: line event, then POISON, then the bytes. -/
def localLoad (s : State) (tid ea : Nat) (p : Place) (size : Nat) : Acq :=
  match (if p.global then lineAccess s (some (thr s tid).core) p.pa p.range false else .ok s) with
  | .error c => .trap (trapOf (BitVec.ofNat 8 c) (some ea))
  | .ok s1 =>
    if poisoned s1 p.loc size then .trap (trapOf cPoison (some ea))
    else .ok s1 (leNat (loadBytes s1 p.loc size))

/-! ### Answers of another module (R452)

A load or RMW of another module waits for its answer before it completes, so that its trap is precise (R244). Its
requests leave once; they stand under a mark on the thread until the unit completes. -/

/-- The mark of an instruction that waits for its home's answer: a result of no pipe, apart for the two members of a
pair. -/
def answerMark (s : State) : Nat := if s.issue.member == .second then 5 else 4

/-- The mark of a thread's waiting instruction, once it has sent a request. -/
def markOf (s : State) (tid : Nat) : Option Pend := (thr s tid).pend.find? fun x => x.k == answerMark s

/-- The requests of a thread's waiting instruction are over. -/
def clearMarks (s : State) (tid : Nat) : State :=
  if (thr s tid).pend.any fun x => 4 ≤ x.k then modThr s tid fun t => { t with pend := t.pend.filter fun x => x.k < 4 } else s

/-- A piece of a mark. -/
def pieceOf (p : Pend) (idx : Nat) : Option PendPiece := p.pieces.find? fun q => q.idx == idx

/-- A request sent once, whose answer the instruction waits for. -/
def askPiece (s0 : State) (tid : Nat) (pkt : Packet) (size idx : Nat) : State :=
  let port := leastPort s0 (dieOfThr s0 tid)
  let (s1, tag) := sendFrom s0 port pkt (.thread tid) (wgOf s0 (thr s0 tid).wg).context
  let piece : PendPiece := { port, tag, idx, size, val := none, fault := 0 }
  modThr s1 tid fun t =>
    match markOf s0 tid with
    | some m => { t with pend := t.pend.map fun x => if x.k == m.k then { x with pieces := x.pieces ++ [piece] } else x }
    | none =>
      { t with pend := t.pend ++ [{ dst := .latchOnly, k := answerMark s0, live := false, wide := false, tag := 0,
                                    flag := none, pieces := [piece] }] }

/-- An access that the answer in a piece completes: its value, or the trap of the cause it carries. -/
def answered (s0 s : State) (ea : Nat) (q : PendPiece) : Acq :=
  match q.val with
  | none => .stall s0
  | some v => if q.fault == 0 then .sent s { q with val := some v } else .trap (trapOf q.fault (some ea))

/-- Waits for the answer to the request for one element. -/
def awaitPiece (s0 s : State) (tid ea : Nat) (pkt : Packet) (size idx : Nat) : Acq :=
  match (markOf s tid).bind fun m => pieceOf m idx with
  | none => .stall (askPiece s0 tid pkt size idx)
  | some q => answered s0 s ea q

/-- Waits for an answer that the instruction takes as its value at once. -/
def awaitHome (s0 s : State) (tid ea : Nat) (pkt : Packet) (size : Nat) : Acq :=
  match awaitPiece s0 s tid ea pkt size 0 with
  | .sent s1 q => .ok s1 (q.val.getD 0)
  | r => r

/-- A load of n bytes of another module (R438, R452): the bytes stand at their place in the answer's flit. -/
def remoteLoad (s0 s : State) (tid ea : Nat) (p : Place) (size idx : Nat) (kind : BitVec 40) : Acq :=
  let pkt := { readRequest p.pa size with aux := kind }
  match awaitPiece s0 s tid ea (carryRange pkt p.range) size idx with
  | .sent s1 q => .sent s1 { q with val := q.val.map fun v => v / 2 ^ (8 * (p.pa % 32)) % 2 ^ (8 * size) }
  | r => r

/-- A load at a place (R208). `s0` is the state at issue, to which a waiting thread returns. -/
def loadAt (s0 s : State) (tid : Nat) (space : Space) (ea : Nat) (p : Place) (size idx : Nat) : Acq :=
  match txOf s tid with
  | some x =>
    if txRefuses space p then .abort (txAbortBy s tid 6 0) else txLoad s tid ea x p size
  | none =>
    if p.window then .ok s (match windowOf s p.pa with
      | some (d, off) => windowRead s d off
      | none => 0)
    else if lineBusy s tid p false then .stall s0
    else if p.remote then remoteLoad s0 s tid ea p size idx 0
    else localLoad s tid ea p size

/-- Read of R208 with the checks of R205. -/
def laneLoad (s0 s : State) (tid : Nat) (space : Space) (ea size idx : Nat) : Acq :=
  match laneCheck s tid space ea size .rd false with
  | .error i => .trap i
  | .ok (s1, p) => loadAt s0 s1 tid space ea p size idx

/-! ### Stores -/

/-- A local store of checked cells. -/
def localStore (s : State) (tid ea : Nat) (p : Place) (bs : List Byte) : Acq :=
  match (if p.global then lineAccess s (some (thr s tid).core) p.pa p.range true else .ok s) with
  | .error c => .trap (trapOf (BitVec.ofNat 8 c) (some ea))
  | .ok s1 => .ok (storeBytes s1 p.loc bs) 0

/-- A packet posted by a thread: it is recorded until its acknowledgement (R452). -/
def postPacket (s : State) (tid : Nat) (pa : Nat) (pkt : Packet) : State :=
  let port := leastPort s (dieOfThr s tid)
  let (s1, tag) := sendFrom s port pkt (.thread tid) (wgOf s (thr s tid).wg).context
  modThr s1 tid fun t => { t with posted := t.posted ++ [{ port, tag, line := pa / 64, lost := false }] }

/-- A store to another module (R452, R453); AUX names its context (log entry 27). `idx` tells the elements of one
instruction apart. -/
def remoteStore (s0 s : State) (tid ea : Nat) (p : Place) (bs : List Byte) (idx : Nat) : Acq :=
  let aux := BitVec.ofNat 40 ((wgOf s (thr s tid).wg).context % 4096)
  let pkt := carryRange { postedPacket tyPosted p.pa bs with aux } p.range
  if writeOnceRange s p.range then awaitPiece s0 s tid ea pkt bs.length idx
  else if bufferFull s (leastPort s (dieOfThr s tid)) then .stall s0
  else .ok (postPacket s tid p.pa pkt) 0

/-- A store at a place (R208). -/
def storeAt (s0 s : State) (tid : Nat) (space : Space) (ea : Nat) (p : Place) (bs : List Byte) (idx : Nat := 0) : Acq :=
  match txOf s tid with
  | some x =>
    if txRefuses space p then .abort (txAbortBy s tid 6 0)
    else match lineAccess s (some (thr s tid).core) p.pa p.range true with
      | .error c => .trap (trapOf (BitVec.ofNat 8 c) (some ea))
      | .ok _ => txStore s tid x p bs
  | none =>
    if p.window then .ok (match windowOf s p.pa with
      | some (d, off) => windowWrite s d off (leNat bs) (.thread (wgOf s (thr s tid).wg).context)
      | none => s) 0
    else if lineBusy s tid p then .stall s0
    else if p.remote then remoteStore s0 s tid ea p bs idx
    else localStore s tid ea p bs

/-! ### Several writes to one line of another module (R453) -/

/-- An element that a scatter posts to another module: its first physical address, its bytes and its page's range. -/
abbrev Far := Nat × List Byte × Nat

/-- The bytes of a line that some elements write, as a mask and a value: of two elements at one byte the later one stands
(R213). -/
def lineImage (line : Nat) (xs : List Far) : Nat × Nat :=
  xs.foldl (fun acc x =>
    (List.range x.2.1.length).foldl (fun acc i =>
      let pos := x.1 + i - 64 * line
      let v := (x.2.1.getD i 0).toNat
      (acc.1 ||| 2 ^ pos, acc.2 - acc.2 / 2 ^ (8 * pos) % 2 ^ 8 * 2 ^ (8 * pos) + v * 2 ^ (8 * pos))) acc) (0, 0)

/-- The posted write of a line's elements: one packet of the sectors they meet, so that no thread has two writes in flight
to one line (R439, R453). -/
def linePacket (line : Nat) (xs : List Far) : Packet :=
  let (mask, v) := lineImage line xs
  let first := mask % 2 ^ 32
  let last := mask / 2 ^ 32
  let lo : Wide := BitVec.ofNat 256 v
  let hi : Wide := BitVec.ofNat 256 (v / 2 ^ 256)
  let blank := { Packet.blank with type := tyPosted, cls := 2 }
  if last == 0 then
    towards { blank with len := 1, fmask := BitVec.ofNat 32 first, lmask := BitVec.ofNat 32 first, payload := [lo] } (64 * line)
  else if first == 0 then
    towards { blank with len := 1, fmask := BitVec.ofNat 32 last, lmask := BitVec.ofNat 32 last, payload := [hi] } (64 * line + 32)
  else
    towards { blank with len := 2, fmask := BitVec.ofNat 32 first, lmask := BitVec.ofNat 32 last, payload := [lo, hi] } (64 * line)

/-- The posted writes of a scatter, line by line (R452). -/
def postFar (s0 s : State) (tid : Nat) (xs : List Far) (fuel : Nat) : Acq :=
  match fuel, xs with
  | f + 1, x :: _ =>
    let line := x.1 / 64
    let mine := xs.filter fun y => y.1 / 64 == line
    let aux := BitVec.ofNat 40 ((wgOf s (thr s tid).wg).context % 4096)
    if bufferFull s (leastPort s (dieOfThr s tid)) then .stall s0
    else postFar s0 (postPacket s tid (64 * line) (carryRange { linePacket line mine with aux } x.2.2)) tid
      (xs.filter fun y => y.1 / 64 != line) f
  | _, _ => .ok s 0

/-- A store of one whole line, two sectors in one packet. -/
def storeLine (s0 s : State) (tid ea : Nat) (p : Place) (bs : List Byte) : Acq :=
  if lineBusy s tid p then .stall s0
  else if p.remote then
    let aux := BitVec.ofNat 40 ((wgOf s (thr s tid).wg).context % 4096)
    let pkt := carryRange { linePacket (p.pa / 64) [(p.pa, bs, p.range)] with aux } p.range
    if writeOnceRange s p.range then awaitPiece s0 s tid ea pkt bs.length 0
    else if bufferFull s (leastPort s (dieOfThr s tid)) then .stall s0
    else .ok (postPacket s tid p.pa pkt) 0
  else localStore s tid ea p bs

/-! ### Releases (R454, R480) -/

/-- An order that releases. -/
def releases (o : Order) : Bool := o == .rel || o == .ar

/-- The hold of a release while posted writes are in flight: kind 0 of code 63. -/
def postedHold : Wait := { code := 63, a := 0, b := 0, dst := .latchOnly, var := 0 }

/-- Whether a queued matrix instruction of a thread has accesses still to come. -/
def queuedAccess (s : State) (tid : Nat) : Bool :=
  (coreOf s (thr s tid).core).mx.queue.any fun x => x.tids.head? == some tid && !x.touch.isEmpty

/-- Whether a thread's release must wait for acknowledgements, or for the accesses of its queued matrix instructions (R269);
inside a transaction the release is the commit's. -/
def releaseWaits (s : State) (tid : Nat) (rel : Bool) : Bool :=
  rel && (!(thr s tid).posted.isEmpty || queuedAccess s tid) && (txOf s tid).isNone

/-! ### Results that have not arrived (R73) -/

/-- A result pending on pieces: its latch is pending with its width, the destination is written at arrival. -/
def pendResult (s : State) (tid k : Nat) (d : Dst) (wide : Bool) (tag : FTag) (flag : Option (Reg × Nat))
    (pieces : List PendPiece) : State :=
  modThr s tid fun t =>
    { setLatch t k ⟨.pending, wide, 0, 0⟩ with pend := t.pend ++ [⟨d, k, true, wide, tag, flag, pieces⟩] }

/-- A load that has its value, or waits for it, as the result of an instruction. -/
def loadRes (tid k : Nat) (d : Dst) (wide : Bool) (tag : FTag) (f : Nat → Nat) (r : Acq) : LaneRes :=
  match r with
  | .ok s v => .done (result s tid k d wide (BitVec.ofNat 256 (f v)) tag)
  | .sent s p => .done (pendResult s tid k d wide tag none [{ p with val := p.val.map f }])
  | .trap i => .trap i
  | .abort s => .done s
  | .stall s => .stall s

/-- A store's end. -/
def storeRes (r : Acq) : LaneRes :=
  match r with
  | .ok s _ => .done s
  | .sent s _ => .done s
  | .trap i => .trap i
  | .abort s => .done s
  | .stall s => .stall s

end Sys2Proof.Machine
end

