-- ==== Sys2Proof/Machine/LoadStore.lean ====
section
/-! DEFINITION. Class 0x4: loads, stores, gathers, keyed loads, prefetch, fence, promotion and flush (R209 to R218). -/

namespace Sys2Proof.Machine

/-! ### Sketch pages (R211, R400, R401) -/

/-- The binding of a thread, which R385 names: die and slot. -/
def bindingOf (s : State) (tid : Nat) : Nat × Nat :=
  let w := wgOf s (thr s tid).wg
  (w.die, w.slot)

/-- Whether a thread has a sketch insert in flight to a module: a query of that module waits for it (R384, R454). -/
def insertsOut (s : State) (tid pa : Nat) : Bool :=
  (thr s tid).posted.any fun x =>
    (portOf s x.port).kept.any fun k =>
      k.pkt.tag == x.tag && k.pkt.type == tySketch && homeModule k.pkt.addr.toNat == homeModule pa

/-- The operand word of an answer to a query, a status word or a status load where no region is: bit 1 (log entry 27). -/
def noRegionWord : Nat := 2

/-- Whether the answer to query j of a request says that no region is there. -/
def noRegion (v j : Nat) : Bool := bit (v / 2 ^ (2048 + 64 * j)) 1

/-- An access from another module that meets no region: its context is told with SOURCE 2, which no thread takes as a trap
(R242, R370), and the value that it does not state is free (log entry 65). -/
def reportNoRegion (s : State) (tid pa : Nat) : Nat × State :=
  let (v, s1) := drawFree s
  (v.toNat, reportNote s1 (wgOf s1 (thr s1 tid).wg).context
    { cause := cProtection.toNat, sub := none, source := 2, core := none, word1 := none, addr := some (pa / 32 * 32), w := none })

/-- A status word or a status load of another module, as its answer gives it. -/
def farStatus (s : State) (tid pa v : Nat) : Nat × State :=
  if noRegion v 0 then reportNoRegion s tid pa else (v / 2 ^ (8 * (pa % 32)) % 2 ^ 64, s)

/-- An 8-byte load of a sketch page: the status word of the issuing die's partial, or of the image (R381, R401). -/
def statusLoad (s0 s : State) (tid ea : Nat) (p : Place) : Acq :=
  if (txOf s tid).isSome then .abort (txAbortBy s tid 6 0)
  else if p.remote then
    if insertsOut s0 tid p.pa then .stall s0
    else match awaitPiece s0 s tid ea (carryRange { readRequest p.pa 8 with aux := 10 } p.range) 8 0 with
      | .sent s1 q =>
        let (v, s2) := farStatus s1 tid p.pa (q.val.getD 0)
        .sent s2 { q with val := some v }
      | r => r
  else match regionAt s p.pa with
    | none => .trap (trapOf cProtection (some ea))
    | some (_, r) =>
      let d := dieOfThr s tid
      match regionFault s r d p.range 9 with
      | some c => .trap (trapOf (BitVec.ofNat 8 c) (some ea))
      | none => .ok (regionEvent s r d p.range 9) (statusWord r (seenState r d true).1)

/-- A sketch insert on its way to its home: key and weight at the start of the flit, the address within its sector in AUX
[4:0] (log entry 27). -/
def insertPacket (pa key weight : Nat) : Packet :=
  { postedPacket tySketch (pa / 32 * 32) (leBytes 8 key ++ leBytes 4 weight) with aux := BitVec.ofNat 40 (pa % 32) }

/-- A binding that has inserted into a region of another module (R385). -/
def noteFar (s : State) (tid pa : Nat) : State :=
  let (die, slot) := bindingOf s tid
  match tget (dieOf s die).slots slot with
  | some b =>
    if b.farUses.contains pa then s
    else modDie s die fun d => { d with slots := tset d.slots slot { b with farUses := b.farUses ++ [pa] } }
  | none => s

/-- A store of a sketch page: a key with a weight (R400). -/
def insertStore (s0 s : State) (tid ea : Nat) (p : Place) (key weight : Nat) : Acq :=
  if (txOf s tid).isSome then .abort (txAbortBy s tid 6 0)
  else if lineBusy s tid p then .stall s0
  else if p.remote then
    if bufferFull s (leastPort s (dieOfThr s tid)) then .stall s0
    else .ok (noteFar (postPacket s tid p.pa (carryRange (insertPacket p.pa key weight) p.range)) tid p.pa) 0
  else match regionAt s p.pa with
    | none => .trap (trapOf cProtection (some ea))
    | some (k, r) =>
      match insertOn s k r (dieOfThr s tid) p.range key weight (some (bindingOf s tid)) with
      | .ok s1 => .ok s1 0
      | .error c => .trap (trapOf (BitVec.ofNat 8 c) (some ea))

/-! ### Loads and stores (R209, R210) -/

/-- LD (R210). -/
def execLd (o : Ops) (m : M4) (s : State) : Host.Outcome State Fault Refusal :=
  let size := fmtWidth m.ty / 8
  laneOp o [(o.a, .word)] (fun s0 s tid =>
    let ea := eaOf (thr s tid) o.a m.off
    match laneCheck s tid m.space ea size .rd (size == 8) with
    | .error i => .trap i
    | .ok (s1, p) =>
      loadRes tid 2 o.d false 0 id
        (if p.sketch != 0 then statusLoad s0 s1 tid ea p else loadAt s0 s1 tid m.space ea p size 0)) s

/-- The tag check of a store's data, the first of R205, whose trap names EA. -/
def dataTagBad (t : Thread) (typed : Option (Src × Fmt)) : Bool := typed.any fun x => tagBad (srcTag t x.1) x.2

/-- A store of class 0x4 (R210): `typed` its data where a type checks it, `data` gives a thread's bytes, `key` its key and
weight when the form inserts. -/
def storeOp (o : Ops) (m : M4) (needs : List (Src × Need)) (typed : Option (Src × Fmt)) (size : Nat) (data : Thread → List Byte)
    (key : Option (Thread → Nat × Nat)) (s : State) : Host.Outcome State Fault Refusal :=
  laneOp o needs (fun s0 s tid =>
    let t := thr s tid
    let ea := eaOf t o.a m.off
    if dataTagBad t typed then .trap (trapOf cFormatMismatch (some ea))
    else match laneCheck s tid m.space ea size .wr key.isSome with
    | .error i => .trap i
    | .ok (s1, p) =>
      if releaseWaits s tid (releases m.ord) then .hold postedHold
      else storeRes
        (match key with
         | some f => if p.sketch != 0 then insertStore s0 s1 tid ea p (f t).1 (f t).2
                     else storeAt s0 s1 tid m.space ea p (data t)
         | none => storeAt s0 s1 tid m.space ea p (data t))) s

/-- ST (R210); an 8-byte one inserts into a sketch page with weight 1 (R400). -/
def execSt (o : Ops) (m : M4) (s : State) : Host.Outcome State Fault Refusal :=
  let size := fmtWidth m.ty / 8
  storeOp o m [(o.a, .word), (o.b, .word)] none size (fun t => leBytes size (srcN t o.b))
    (if size == 8 then some (fun t => (srcN t o.b, 1)) else none) s

/-- ST, wide (R210); it inserts B with the weight C[31:0] (R400). -/
def execStWide (o : Ops) (m : M4) (s : State) : Host.Outcome State Fault Refusal :=
  storeOp o m [(o.a, .word), (o.b, .word), (o.c, .word)] none 16
    (fun t => leBytes 8 (srcN t o.b) ++ leBytes 8 (srcN t o.c))
    (some (fun t => (srcN t o.b, srcN t o.c % 2 ^ 32))) s

/-- The bits of a vector register that a format uses: under f6e3 the top four read zero (R95). -/
def vectorBits (ty : Fmt) (v : Nat) : Nat := if ty == .f6e3 then v % 2 ^ 252 else v

/-- LDV (R210). -/
def execLdv (o : Ops) (m : M4) (s : State) : Host.Outcome State Fault Refusal :=
  laneOp o [(o.a, .word)] (fun s0 s tid =>
    loadRes tid 2 o.d true (tagOf m.ty 0) (vectorBits m.ty)
      (laneLoad s0 s tid m.space (eaOf (thr s tid) o.a m.off) 32 0)) s

/-- STV (R210), after the tag check. -/
def execStv (o : Ops) (m : M4) (s : State) : Host.Outcome State Fault Refusal :=
  storeOp o m [(o.a, .word), (o.b, .raw)] (some (o.b, m.ty)) 32 (fun t => leBytes 32 (srcW t o.b)) none s

/-! ### Gather and scatter (R212, R213) -/

/-- Element i's address (R212). -/
def elemEa (ty : Fmt) (ea b i : Nat) : Nat :=
  let w := fmtWidth ty
  (((ea : Int) + toSigned w (elemAt ty b i) * ((w / 8 : Nat) : Int)) % ((2 ^ 64 : Nat) : Int)).toNat

/-- The accesses of one gather so far: the state, the elements' pieces and whether another module gave one, or how it
ended. -/
def gather (s0 : State) (tid : Nat) (space : Space) (ty : Fmt) (ea b : Nat) (is : List Nat) (s : State)
    (acc : List PendPiece) (far : Bool) : Acq × List PendPiece × Bool :=
  match is with
  | [] => (.ok s 0, acc, far)
  | i :: rest =>
    let size := fmtWidth ty / 8
    match laneLoad s0 s tid space (elemEa ty ea b i) size i with
    | .ok s1 v =>
      let q : PendPiece := { port := 0, tag := 0, idx := i, size, val := some v, fault := 0 }
      gather s0 tid space ty ea b rest s1 (acc ++ [q]) far
    | .sent s1 p => gather s0 tid space ty ea b rest s1 (acc ++ [p]) true
    | r => (r, acc, far)

/-- The value of pieces: each at its element's place. -/
def piecesValue (ps : List PendPiece) : Nat :=
  ps.foldl (fun acc p => acc + p.val.getD 0 % 2 ^ (8 * p.size) * 2 ^ (8 * p.size * p.idx)) 0

/-- LDX (R212): every element's checks come before any effect (R206). -/
def execLdx (o : Ops) (m : M4) (s : State) : Host.Outcome State Fault Refusal :=
  laneOp o [(o.a, .word), (o.b, .raw)] (fun s0 s tid =>
    let t := thr s tid
    match gather s0 tid m.space m.ty (eaOf t o.a m.off) (srcW t o.b) (List.range (elemCount m.ty)) s [] false with
    | (.ok s1 _, ps, far) =>
      if far then .done (pendResult s1 tid 2 o.d true (tagOf m.ty 0) none ps)
      else .done (resultV s1 tid 2 o.d (piecesValue ps) (tagOf m.ty 0))
    | (r, _, _) => loadRes tid 2 o.d true 0 id r) s

/-- The stores of one scatter in ascending element order; those of another module leave together, but for a write-once
range, each of whose elements waits for its answer (R212, R429). -/
def scatter (s0 : State) (tid : Nat) (space : Space) (ty : Fmt) (ea b c : Nat) (is : List Nat) (s : State) (far : List Far) :
    Acq :=
  match is with
  | [] => postFar s0 s tid far (far.length + 1)
  | i :: rest =>
    let a := elemEa ty ea b i
    let bs := leBytes (fmtWidth ty / 8) (elemAt ty c i)
    match laneCheck s tid space a bs.length .wr false with
    | .error e => .trap e
    | .ok (s1, p) =>
      if p.remote && !p.window && (txOf s tid).isNone && !writeOnceRange s1 p.range then
        if lineBusy s1 tid p then .stall s0 else scatter s0 tid space ty ea b c rest s1 (far ++ [(p.pa, bs, p.range)])
      else match storeAt s0 s1 tid space a p bs i with
        | .ok s2 _ => scatter s0 tid space ty ea b c rest s2 far
        | .sent s2 _ => scatter s0 tid space ty ea b c rest s2 far
        | r => r

/-- The elements' checks of R205 alone, before anything is stored (R206). -/
def scatterCheck (tid : Nat) (space : Space) (ty : Fmt) (ea b : Nat) (is : List Nat) (s : State) :
    Except TrapInfo State :=
  match is with
  | [] => .ok s
  | i :: rest =>
    match laneCheck s tid space (elemEa ty ea b i) (fmtWidth ty / 8) .wr false with
    | .error e => .error e
    | .ok (s1, _) => scatterCheck tid space ty ea b rest s1

/-- STX (R212, R213). -/
def execStx (o : Ops) (m : M4) (s : State) : Host.Outcome State Fault Refusal :=
  laneOp o [(o.a, .word), (o.b, .raw), (o.c, .raw)] (fun s0 s tid =>
    let t := thr s tid
    let ea := eaOf t o.a m.off
    let is := List.range (elemCount m.ty)
    if dataTagBad t (some (o.c, m.ty)) then .trap (trapOf cFormatMismatch (some (elemEa m.ty ea (srcW t o.b) 0)))
    else match scatterCheck tid m.space m.ty ea (srcW t o.b) is s with
    | .error i => .trap i
    | .ok s1 =>
      if releaseWaits s tid (releases m.ord) then .hold postedHold
      else storeRes (scatter s0 tid m.space m.ty ea (srcW t o.b) (srcW t o.c) is s1 [])) s

/-! ### Keyed load (R214, R402) -/

/-- LDK's offset: the signed low 16 bits (R214). -/
def ldkEa (t : Thread) (a : Src) (off : BitVec 22) : Nat := eaOf t a (off.extractLsb' 0 16)

/-- A bit of a general register set or cleared. -/
def setFlagBit (s : State) (tid : Nat) (c : Src) (f : Nat) (b : Bool) : State :=
  match c with
  | .reg (.g n) =>
    let v := (readG (thr s tid) n.toNat).toNat
    let w := if bit v f then v - 2 ^ f else v
    writeReg s tid (.g n) (BitVec.ofNat 256 (w + if b then 2 ^ f else 0)) 0
  | _ => s

/-- The register and bit of LDK's saturation flag: none when C is g0 (R214). -/
def flagPlace (c : Src) (f : Nat) : Option (Reg × Nat) :=
  match c with
  | .reg (.g n) => if n == 0 then none else some (.g n, f)
  | _ => none

/-- The threads of an LDK whose regions one other module holds: they ask in one request, so that the queries of one region
meet one state (R412). -/
def queryMates (s0 : State) (o : Ops) (m : M4) (pa : Nat) : List (Nat × Place) :=
  (takesPart s0 o [(o.a, .word), (o.b, .word)]).filterMap fun i =>
    match laneCheck s0 i .global (ldkEa (thr s0 i) o.a m.off) 8 .rd true with
    | .ok (_, p) => if p.remote && p.sketch != 0 && homeModule p.pa == homeModule pa then some (i, p) else none
    | .error _ => none

/-- The request of some queries: each thread's address and key (log entry 27). -/
def queryPacket (s0 : State) (o : Ops) (mates : List (Nat × Place)) (p : Place) : Packet :=
  carryRange { readRequest p.pa 8 with
    aux := 1
    operands := mates.flatMap fun x => [BitVec.ofNat 64 x.2.pa, srcWord (thr s0 x.1) o.b] } p.range

/-- One thread's answer within that of its module: its doubleword of the payload, and of its operand word bit 0 the
saturation flag and [15:8] a cause. -/
def queryAnswer (v j : Nat) : Nat × Bool × Nat :=
  let w := v / 2 ^ (2048 + 64 * j)
  (v / 2 ^ (64 * j) % 2 ^ 64, bit w 0, w / 2 ^ 8 % 2 ^ 8)

/-- A query of a region of another module: the lowest thread of its mates sends the request for all of them. -/
def remoteQuery (s0 s : State) (tid ea : Nat) (p : Place) (o : Ops) (m : M4) : LaneRes :=
  let mates := queryMates s0 o m p.pa
  let lead := (mates.map Prod.fst).headD tid
  if mates.any fun x => insertsOut s0 x.1 x.2.pa then .stall s0
  else match (markOf s lead).bind fun k => pieceOf k 0 with
    | none => .stall (askPiece s0 lead (queryPacket s0 o mates p) 8 0)
    | some q =>
      match answered s0 s ea q with
      | .sent s1 q =>
        let i := mates.findIdx fun x => x.1 == tid
        let (v, sat, fault) := queryAnswer (q.val.getD 0) i
        let found (st : State) (v : Nat) (sat : Bool) : LaneRes :=
          .done (pendResult st tid 2 o.d false 0 (flagPlace o.c (bits m.off.toNat 21 16))
            [{ q with idx := 0, size := 8, val := some (v + if sat then 2 ^ 64 else 0) }])
        if fault != 0 then .trap (trapOf (BitVec.ofNat 8 fault) (some ea))
        else if noRegion (q.val.getD 0) i then
          let (x, s2) := reportNoRegion s1 tid p.pa
          let (y, s3) := drawFree s2
          found s3 x (y.toNat % 2 == 1)
        else found s1 v sat
      | r => storeRes r

/-- Whether a query of a sealed region's image reads a poisoned sector: a filter or a frequency sketch reads the cells of its
key, the other kinds read every cell (R207, R375 to R378). -/
def queryPoisoned (s : State) (r : Region) (key : Nat) : Bool :=
  if r.kind == 1 || r.kind == 2 then (hashCells r key).any fun j => poisoned s (regionLoc s r (cellPlace r j).1) 1
  else s.poison.any fun sec => inRegion s r (skBytes r) (32 * sec)

/-- The cause that ends a query: QY's entry returns it, or POISON of a sealed region's image (R207, R418). The cells of a
partial have no address that an error event names (log entry 35). -/
def queryTrap (s : State) (r : Region) (d range key : Nat) : Option (BitVec 8) :=
  match regionFault s r d range 9 with
  | some c => some (BitVec.ofNat 8 c)
  | none => if r.isSealed && queryPoisoned s r key then some cPoison else none

/-- LDK (R214, R383, R402). -/
def execLdk (o : Ops) (m : M4) (s : State) : Host.Outcome State Fault Refusal :=
  let f := bits m.off.toNat 21 16
  laneOp o [(o.a, .word), (o.b, .word)] (fun s0 s tid =>
    let t := thr s tid
    let ea := ldkEa t o.a m.off
    match laneCheck s tid .global ea 8 .rd true with
    | .error i => .trap i
    | .ok (s1, p) =>
      if p.sketch == 0 then .trap (trapOf cProtection (some ea))
      else if p.remote && m.scope != .pod then .trap (trapOf cIllegalField (some ea))
      else if (txOf s tid).isSome then .done (txAbortBy s tid 6 0)
      else if p.remote then remoteQuery s0 s1 tid ea p o m
      else match regionAt s1 p.pa with
        | none => .trap (trapOf cProtection (some ea))
        | some (n, r) =>
          let d := dieOfThr s tid
          match queryTrap s1 r d p.range (srcN t o.b) with
          | some c => .trap (trapOf c (some ea))
          | none =>
            let (x, r1) := seenState r d (m.scope == .die)
            let s2 := resultG (regionEvent (setRegion s1 n r1) r d p.range 9) tid 2 o.d (skQuery r x (srcN t o.b))
            .done (setFlagBit s2 tid o.c f x.sat)) s

/-! ### Hints, fences, promotion, flush (R215 to R218) -/

/-- PFETCH (R215): no architectural effect. -/
def execPfetch (o : Ops) (_m : M4) (s : State) : Host.Outcome State Fault Refusal :=
  laneOp o [(o.a, .word)] (fun _ s _ => .done s) s

/-- FENCE (R216): a releasing one waits for posted writes; inside a transaction it aborts with code 7. -/
def execFence (o : Ops) (m : M4) (s : State) : Host.Outcome State Fault Refusal :=
  laneOp o [] (fun _ s tid =>
    if (txOf s tid).isSome then .done (txAbortBy s tid 7 0)
    else if releaseWaits s tid (releases m.ord) then .hold postedHold
    else .done s) s

/-- Whether the instance of a scope around one core holds another (R22). -/
def scopeHas (sc : Scope) (c v : Nat) : Bool :=
  match sc with
  | .core => c == v
  | .quad => quadOfCore c == quadOfCore v
  | .die => dieOfCore c == dieOfCore v
  | _ => true

/-- A suspension that ends as soon as it is looked at: its operation has completed (codes 10 to 13 of R249). -/
def finishedWait (code : Nat) : Wait := { code, a := 0, b := 0, dst := .latchOnly, var := 0 }

/-- PROMO (R217): the victim's L1 writes back and invalidates every line it holds; the thread suspends with code 10 until
that is done. -/
def execPromo (o : Ops) (m : M4) (s : State) : Host.Outcome State Fault Refusal :=
  laneOp o [(o.a, .word)] (fun _ s tid =>
    let t := thr s tid
    let v := srcN t o.a
    if 256 ≤ v || !scopeHas m.scope t.core v then .trap (trapOf cIllegalField none)
    else .wait (flushHolder s v) (finishedWait 10)) s

/-- The holders within an instance of a scope: the guest belongs to .pkg, the host link to .sys (R22, R218). -/
def holderIn (sc : Scope) (c h : Nat) : Bool :=
  if h < 256 then scopeHas sc c h
  else if h == holderG then sc == .pkg || sc == .pod || sc == .sys
  else if h == holderH then sc == .sys
  else false

/-- CFLUSH (R218). -/
def execCflush (o : Ops) (m : M4) (s : State) : Host.Outcome State Fault Refusal :=
  laneOp o [(o.a, .word)] (fun _ s tid =>
    let t := thr s tid
    let ea := eaOf t o.a m.off
    match placeOf s (partyOf s tid) m.space ea 1 .flush with
    | .error f => .trap (trapCode f ea)
    | .ok (s1, p) => .done (if p.global then flushLine s1 (lineNo p) (holderIn m.scope t.core) else s1)) s

end Sys2Proof.Machine
end

