-- ==== Sys2Proof/Machine/Waits.lean ====
section
/-! DEFINITION. Reads of objects that waits and publishers look at (R198, R348), and the tests of the waits of class 0x3
(R33, R35, R160, R198). -/

namespace Sys2Proof.Machine

/-- What a test of a wait finds. -/
inductive WaitRes where
  | done (s : State)
  | no (s : State)
  /-- The answer of another module is on its way (R452). -/
  | ask (s : State)
  | trap (i : TrapInfo)
  | abort (s : State)

/-- A read of at most eight bytes at a checked place. What lies on another module is asked of its home once, and the
instruction, or the test of the suspension, waits for the answer (R438, R452). -/
def peekAt (s0 s : State) (tid ea : Nat) (p : Place) (size : Nat) : Acq :=
  if p.window then .ok s (match windowOf s p.pa with
    | some (d, off) => windowRead s d off
    | none => 0)
  else if lineBusy s tid p false then .stall s0
  else if p.remote then
    match remoteLoad s0 s tid ea p size (2 ^ 60 + p.pa) 0 with
    | .sent s1 q => .ok s1 (q.val.getD 0)
    | r => r
  else localLoad s tid ea p size

/-- A read of at most eight bytes of a ring header, a record or a barrier object, with the checks of R205. `s0` is the state
to which a thread that waits for another module returns. -/
def peek (s0 s : State) (tid : Nat) (space : Space) (ea size : Nat) : Acq :=
  match laneCheck s tid space ea size .rd false with
  | .error i => .trap i
  | .ok (s1, p) => peekAt s0 s1 tid ea p size

/-- A wait that a read of memory decides. -/
def peekWait (r : Acq) (test : Nat → Bool) : WaitRes :=
  match r with
  | .ok s v => if test v then .done s else .no s
  | .sent s _ => .no s
  | .trap i => .trap i
  | .abort s => .abort s
  | .stall s => .ask s

/-- The carrel offset of the ring that a thread's CQHDR names (R316). -/
def copyHeader (t : Thread) : Nat := t.cqhdr.toNat * 64

/-- The test of R33 on the ring at a header. -/
def accTest (s : State) (tid : Nat) (space : Space) (hdr x : Nat) : WaitRes :=
  peekWait (peek s s tid space (hdr + 16) 8) fun v => atOrAfter 48 (v % 2 ^ 48) (x % 2 ^ 48)

/-- The test of WAIT .acc: the workgroup's copy ring, or the ring at a global header (R198, R316). -/
def waitAccTest (s : State) (tid : Nat) (own : Bool) (a b : Word) : WaitRes :=
  if own then accTest s tid .carrel (copyHeader (thr s tid)) a.toNat else accTest s tid .global b.toNat a.toNat

/-- The test of WAIT .dep (R35). -/
def waitDepTest (s : State) (a : Word) : WaitRes := if (taskOf s a.toNat).count == 0 then .done s else .no s

/-- A named barrier of a workgroup (R158). -/
def nbarOf (w : Workgroup) (n : Nat) : NBar := tgetD w.nbars n ⟨0, 0, 0⟩

/-- The test of WAIT .nbar (R160). -/
def waitNbarTest (s : State) (tid : Nat) (a b : Word) : WaitRes :=
  if atOrAfter 16 (nbarOf (wgOf s (tidWg tid)) a.toNat).phase.toNat (b.toNat % 2 ^ 16) then .done s else .no s

/-- The space of a barrier object that a suspended BARW tests. -/
def barSpace (var : Nat) : Space := if var == 1 then .carrel else .global

/-- The test of BARW (R160, R225): an object with bits 63:48 set traps BAR_COUNT. -/
def barwTest (s : State) (tid : Nat) (space : Space) (ea p : Nat) : WaitRes :=
  match peek s s tid space ea 8 with
  | .ok s1 v =>
    if 2 ^ 48 ≤ v then .trap (trapOf cBarCount (some ea))
    else if atOrAfter 16 (v % 2 ^ 16) (p % 2 ^ 16) then .done s1 else .no s1
  | .sent s1 _ => .no s1
  | .trap i => .trap i
  | .abort s1 => .abort s1
  | .stall s1 => .ask s1

/-- A wait at issue: what already holds suspends nothing (R198). -/
def waitOn (w : Wait) (r : WaitRes) : LaneRes :=
  match r with
  | .done s => .done s
  | .no s => .wait s w
  | .ask s => .stall s
  | .trap i => .trap i
  | .abort s => .done s

/-! ### The end of a suspension (R154, R155, R249) -/

/-- A thread whose wait is over: it goes on past its unit, whose loop level acts now (R15, R154). -/
def wakeThread (s : State) (tid : Nat) : State :=
  match (thr s tid).wait with
  | none => s
  | some w =>
    let s1 := endWait s tid
    let pc := (thr s tid).pc
    let pcs := if w.paired then [pc, pc + 1] else [pc]
    let next := nextSlot (if w.paired then pc + 1 else pc)
    match loopEnd s1 tid pcs next with
    | .error target => takeTrap s1 tid { badTarget target with second := w.paired } w.paired
    | .ok _ => (advance s1 tid pcs next).1

/-- A suspended thread that issues its instruction again: a hold that has ended (R249 code 63). -/
def reissueThread (s : State) (tid : Nat) : State := endWait s tid

/-- What an issue whose suspended instruction now traps has added to RETIRED is taken back, once for its threads (R234). -/
def unretire (s : State) (tid : Nat) (w : Wait) : State :=
  if w.count == 0 then s
  else
    let n := BitVec.ofNat 64 w.count
    let s1 := modCore s (thr s tid).core fun x => { x with retired := x.retired - n }
    let s2 := modWg s1 (tidWg tid) fun x => { x with retired := x.retired - n }
    { s2 with threads := s2.threads.map fun e =>
        (e.1, { e.2 with wait := e.2.wait.map fun v => if v.unit == w.unit then { v with count := 0 } else v }) }

/-- A thread whose suspended pair traps: the first member's results go with it (R79; log entry 74). -/
def undoPair (t : Thread) : Thread :=
  match t.undo with
  | none => t
  | some u => { t with g := u.g, v := u.v, xv := u.xv, fstat := u.fstat, eccRegs := u.eccRegs, undo := none }

/-- A suspended thread whose instruction traps. -/
def wakeTrap (s : State) (tid : Nat) (i : TrapInfo) : State :=
  match (thr s tid).wait with
  | none => s
  | some w => takeTrap (endWait (modThr (unretire s tid w) tid undoPair) tid) tid { i with second := w.paired } w.paired

end Sys2Proof.Machine
end

