-- ==== Sys2Proof/Machine/System.lean ====
section
/-! DEFINITION. Class 0xB: system registers, counters, the return from a trap, generations, halting and the save slots
(R231 to R241). -/

namespace Sys2Proof.Machine

/-- An instruction that a transaction forbids: it aborts with code 7 (R165). DESIGN CHOICE: an unprivileged thread's
privileged instruction inside a transaction aborts it with code 7, and raises no PROTECTION under R89 (log entry 80). -/
def outsideTx (s : State) (tid : Nat) (r : LaneRes) : LaneRes :=
  if (txOf s tid).isSome then .done (txAbortBy s tid 7 0) else r

/-- A privileged instruction (R89). -/
def privileged (s : State) (tid : Nat) (r : LaneRes) : LaneRes :=
  if privOf s tid then r else .trap (trapOf cProtection none)

/-! ### System registers (R231 to R235) -/

/-- RETIRED as an instruction reads it: without itself, its pair's first member counted (R234). -/
def retiredNow (s : State) (tid : Nat) : Nat :=
  let t := thr s tid
  let w := wgOf s t.wg
  let n := (if w.det then w.retired else (coreOf s t.core).retired).toNat
  (n + if s.issue.member == .second then 1 else 0) % 2 ^ 64

/-- CYCLES; RETIRED in deterministic mode (R134, R233). -/
def cyclesNow (s : State) (tid : Nat) : Nat := if (wgOf s (thr s tid).wg).det then retiredNow s tid else s.clock % 2 ^ 64

/-- DET_CTL (R133). -/
def detCtl (w : Workgroup) : Nat := w.turn % 8 * 2 + if w.det then 1 else 0

/-- LOCUS (R235). -/
def locus (s : State) (tid : Nat) : Nat :=
  let t := thr s tid
  (wgOf s t.wg).context % 4096 * 2 ^ 16 + t.quire % 8 * 2 ^ 13 + t.lane % 32 * 2 ^ 8 + t.core % 256

/-- The value of a system register (R231). -/
def readSys (s : State) (tid sel : Nat) : Nat :=
  let t := thr s tid
  if sel == 0x001 then t.trapCause.toNat
  else if sel == 0x002 then t.trapPc.toNat
  else if sel == 0x003 then t.trapAddr.toNat
  else if sel == 0x010 then (coreOf s t.core).wakeWhy.toNat
  else if sel == 0x011 then detCtl (wgOf s t.wg)
  else if sel == 0x012 then retiredNow s tid
  else if sel == 0x013 then cyclesNow s tid
  else if sel == 0x014 then locus s tid
  else if sel == 0x020 then t.srSeed.toNat
  else if sel == 0x021 then t.fstat.toNat
  else if sel == 0x022 then t.cfp.toNat * 2 ^ 7
  else if sel == 0x030 then t.xv.toNat
  else if sel == 0x031 then (dieOf s (dieOfCore t.core)).trimBase.toNat
  else if sel == 0x040 then t.trapVecPc.toNat + if t.trapVecEn then 1 else 0
  else if sel == 0x041 then t.trapFrame.toNat * 2 ^ 8 + if t.hmode then 1 else 0
  else if sel == 0x042 then t.cqhdr.toNat * 2 ^ 6
  else 0

/-- The xv registers written as eight XVSETs write them (R314). -/
def writeXvBase (t : Thread) (v : Word) : Thread :=
  { t with
    xv := v
    eccRegs := t.eccRegs.filter fun r => match r with
      | .xv _ => false
      | _ => true }

/-- A write of a system register under the access codes of R5: RO and RZ fields keep their values, WC fields clear where
the value has ones. -/
def writeSys (s : State) (tid sel v : Nat) : State :=
  if sel == 0x031 then modDie s (dieOfCore (thr s tid).core) fun d => { d with trimBase := BitVec.ofNat 64 v }
  else modThr s tid fun t =>
    if sel == 0x001 then { t with trapCause := BitVec.ofNat 18 v }
    else if sel == 0x002 then { t with trapPc := slotPc v }
    else if sel == 0x003 then { t with trapAddr := BitVec.ofNat 64 v }
    else if sel == 0x020 then { t with srSeed := if v % 2 ^ 32 == 0 then 1 else BitVec.ofNat 32 v }
    else if sel == 0x021 then { t with fstat := t.fstat &&& ~~~(BitVec.ofNat 3 v) }
    else if sel == 0x022 then { t with cfp := BitVec.ofNat 13 (v / 2 ^ 7) }
    else if sel == 0x030 then writeXvBase t (BitVec.ofNat 64 v)
    else if sel == 0x040 then { t with trapVecPc := BitVec.ofNat 56 (v / 8 * 8), trapVecEn := bit v 0 }
    else if sel == 0x041 then { t with trapFrame := BitVec.ofNat 12 (v / 2 ^ 8) }
    else if sel == 0x042 then { t with cqhdr := BitVec.ofNat 14 (v / 2 ^ 6) }
    else t

/-- The selector of MFS and MTS (R231). -/
def selOf (m : M7) : Nat := bits m.low.toNat 23 12

/-- MFS (R232). -/
def execMfs (o : Ops) (m : M7) (s : State) : Host.Outcome State Fault Refusal :=
  laneOp o [] (fun _ s tid =>
    withXv (thr s tid) o (if selOf m == 0x030 then List.range 8 else [])
      (.done (writeDst s tid o.d (readSys s tid (selOf m))))) s

/-- MTS (R232); TRIM_BASE is privileged (R444). -/
def execMts (o : Ops) (m : M7) (s : State) : Host.Outcome State Fault Refusal :=
  laneOp o [(o.a, .word)] (fun _ s tid =>
    let r : LaneRes := .done (writeSys s tid (selOf m) (srcN (thr s tid) o.a))
    outsideTx s tid (if selOf m == 0x031 then privileged s tid r else r)) s

/-- RDCNT (R233). -/
def execRdcnt (o : Ops) (m : M7) (s : State) : Host.Outcome State Fault Refusal :=
  laneOp o [] (fun _ s tid =>
    let w := wgOf s (thr s tid).wg
    let v := match m.var.toNat with
      | 0 => cyclesNow s tid
      | 1 => retiredNow s tid
      | _ => if w.det then 0 else w.wdog % 2 ^ 64
    outsideTx s tid (.done (writeDst s tid o.d v))) s

/-- DETM (R236). -/
def execDetm (o : Ops) (_m : M7) (s : State) : Host.Outcome State Fault Refusal :=
  laneOp o [] (fun _ s tid =>
    let w := wgOf s (thr s tid).wg
    let v := if w.det then retiredNow s tid % 2 ^ 56 * 2 ^ 8 + detCtl w % 16 else 0
    outsideTx s tid (.done (writeDst s tid o.d v))) s

/-! ### Returning from a trap (R238, R246) -/

/-- TRET: it resumes without the check of R81, with the latches of the frame. -/
def execTret (o : Ops) (_m : M7) (s : State) : Host.Outcome State Fault Refusal :=
  laneOp o [] (fun _ s tid =>
    outsideTx s tid
      (match trapReturn s tid with
       | .error i => .trap i
       | .ok (pc, nest, ls) =>
         .jump (modThr s tid fun t => { restoreLatches t ls with hmode := false, nest }) pc)) s

/-! ### Generations (R237, R256, R490) -/

/-- The guest told of a new generation, which it must acknowledge (R490). -/
def invalGuest (s : State) (asid : Nat) : State :=
  if s.annex.st == .opened then
    let id := BitVec.ofNat 16 asid
    let gen := (spaceEntry s asid).gen
    modAnnex s fun a => { a with inval := a.inval ++ [(id, gen, s.clock)], out := a.out ++ [.inval id gen] }
  else s

/-- The contexts of an address-space ID. -/
def contextsOf (s : State) (asid : Nat) : List Nat :=
  (s.contexts.filter fun e => e.2.asid.toNat == asid).map Prod.fst

/-- A submitted NVMe command of a context of the ID keeps its pages translated (R334). -/
def nvmeHolds (s : State) (asid : Nat) : Bool :=
  s.dies.any fun d => d.2.reqs.any fun r =>
    r.st == .submitted && match tget d.2.pairs r.pair with
      | some q => (contextsOf s asid).contains q.context
      | none => false

/-- A generation before another, within half of their numbers. -/
def olderGen (gen now : BitVec 16) : Bool := gen != now && (now - gen).toNat < 2 ^ 15

/-- A packet of the ID's contexts, translated under an older generation, whose access has not been answered as performed. -/
def packetHolds (s : State) (asid : Nat) (now : BitVec 16) : Bool :=
  s.fabric.ports.any fun e => e.2.kept.any fun k =>
    olderGen k.gen now && (contextsOf s asid).contains k.context &&
      match k.owner with
      | .response | .guest _ | .service => false
      | _ => true

/-- A matrix instruction that was accepted, its addresses translated under an older generation, and has not run (R294). -/
def matrixHolds (s : State) (asid : Nat) (now : BitVec 16) : Bool :=
  s.cores.any fun e => e.2.mx.queue.any fun x =>
    !x.pages.isEmpty && olderGen x.gen now && x.tids.any fun i => (wgOf s (tidWg i)).asid.toNat == asid

/-- A collective send whose source was translated under an older generation and has not been read (R473). -/
def sendHolds (s : State) (asid : Nat) (now : BitVec 16) : Bool :=
  s.dies.any fun d => d.2.coll.sends.any fun x =>
    x.asid.toNat == asid && olderGen x.gen now && !x.dead && !x.todo.isEmpty &&
      match x.src with
      | .memory _ _ => true
      | _ => false

/-- A loaded plan of the ID whose result region's pages are pinned (R472, as R334 gives for storage buffers). -/
def planHolds (s : State) (asid : Nat) : Bool :=
  s.dies.any fun d => d.2.coll.plans.any fun p => p.2.asid.toNat == asid && !p.2.pages.isEmpty

/-- TLBGEN is complete: the guest has acknowledged, no submitted command and no pinned plan of the ID is left, and every
access that was translated under an older generation has performed (R237, R256, R334, R472). -/
def tlbgenTest (s : State) (a b : Word) : WaitRes :=
  let now : BitVec 16 := b.setWidth 16
  if (s.annex.inval.any fun e => e.1 == a.setWidth 16 && e.2.1 == now) || nvmeHolds s a.toNat ||
      packetHolds s a.toNat now || matrixHolds s a.toNat now || sendHolds s a.toNat now || planHolds s a.toNat then .no s
  else .done s

/-- TLBGEN (R237): it is ordered as a fence.ar.pkg, so it waits for the thread's posted writes. -/
def execTlbgen (o : Ops) (_m : M7) (s : State) : Host.Outcome State Fault Refusal :=
  laneOp o [(o.a, .word)] (fun s0 s tid =>
    let a := srcN (thr s tid) o.a
    outsideTx s tid (privileged s tid
      (if 2 ^ 16 ≤ a then .trap (trapOf cIllegalField none)
       else if releaseWaits s0 tid true then .hold postedHold
       else
         let s1 := invalGuest (raiseGen s a) a
         let gen := (spaceEntry s1 a).gen.toNat
         .wait (writeDst s1 tid o.d gen)
           { code := 13, a := BitVec.ofNat 64 a, b := BitVec.ofNat 64 gen, dst := .latchOnly, var := 0 }))) s

/-! ### Halting (R239) -/

/-- A workgroup stopped by HALT, reported once. -/
def haltWg (s : State) (tid : Nat) : State :=
  let w := wgOf s (tidWg tid)
  if w.st == .running then
    let (sub, s1) := orFree s none
    let (addr, s2) := orFree s1 none
    stopThread (report s2 w.context (laneRec s2 tid cHalted.toNat (sub % 256) (insPc s tid).toNat addr)) tid cHalted
  else s

/-- HALT. -/
def execHalt (o : Ops) (_m : M7) (s : State) : Host.Outcome State Fault Refusal :=
  laneOp o [] (fun _ s tid => outsideTx s tid (privileged s tid (.done (haltWg s tid)))) s

/-! ### Save slots (R240) -/

/-- The kind of a register in a slot. -/
def slotKind (r : Reg) : Nat :=
  match r with
  | .g _ => 0
  | .v _ => 1
  | .xv _ => 2
  | _ => 3

/-- The 64 bytes of a slot. -/
def slotImage (r : Reg) (v : Nat) (tag : Nat) : List Byte :=
  leBytes 32 v ++ leBytes 8 (slotKind r * 2 ^ 16 + tag % 512) ++ leBytes 24 0

/-- A register's slot. -/
def regSlot (t : Thread) (r : Reg) : List Byte :=
  slotImage r (srcW t (.reg r)) (match r with
    | .v n => (readV t n.toNat).tag.toNat
    | _ => 0)

/-- The value and tag that a slot holds for a register; none when R240 calls for ILLEGAL_FIELD. -/
def slotValue (r : Reg) (bs : List Byte) : Option (Nat × Nat) :=
  let v := leNat (bs.take 32)
  let w := leNat ((bs.drop 32).take 8)
  let width := match r with
    | .g _ => 64
    | .v _ => 256
    | _ => 8
  if bits w 17 16 != slotKind r || w / 2 ^ 18 != 0 || bits w 15 9 != 0 || leNat (bs.drop 40) != 0 || 2 ^ width ≤ v then none
  else some (v, w % 512)

/-- CTXSV (R240). -/
def execCtxsv (o : Ops) (_m : M7) (s : State) : Host.Outcome State Fault Refusal :=
  laneOp o [(o.a, .word), (o.b, .either)] (fun s0 s tid =>
    let t := thr s tid
    let ea := srcN t o.a
    outsideTx s tid (privileged s tid
      (match laneCheck s tid .global ea 64 .wr false with
       | .error i => .trap i
       | .ok (s1, p) =>
         match o.b with
         | .reg r =>
           storeRes (storeLine s0 s1 tid ea p (regSlot t r))
         | .latch _ => .done s1))) s

/-- The 64 bytes of a slot, as one value: the two sectors of a line, which another module's home may hold. -/
def loadLine (s0 s : State) (tid ea : Nat) (p : Place) : Acq :=
  if lineBusy s tid p false then .stall s0
  else if p.remote then
    match remoteLoad s0 s tid ea p 32 0 0 with
      | .sent s1 lo =>
        match remoteLoad s0 s1 tid ea { p with pa := p.pa + 32 } 32 1 0 with
        | .sent s2 hi => .ok s2 (lo.val.getD 0 + hi.val.getD 0 * 2 ^ 256)
        | r => r
      | r => r
  else localLoad s tid ea p 64

/-- CTXLD (R240). -/
def execCtxld (o : Ops) (_m : M7) (s : State) : Host.Outcome State Fault Refusal :=
  laneOp o [(o.a, .word)] (fun s0 s tid =>
    let ea := srcN (thr s tid) o.a
    outsideTx s tid (privileged s tid
      (match laneCheck s tid .global ea 64 .rd false with
       | .error i => .trap i
       | .ok (s1, p) =>
         match loadLine s0 s1 tid ea p with
         | .ok s2 v =>
           match o.d with
           | .reg r =>
             match slotValue r (leBytes 64 v) with
             | none => .trap (trapOf cIllegalField none)
             | some (x, tag) => .done (writeReg s2 tid r (BitVec.ofNat 256 x) (BitVec.ofNat 9 tag))
           | .latchOnly => .done s2
         | r => storeRes r))) s

end Sys2Proof.Machine
end

