-- ==== Sys2Proof/Machine/Engine.lean ====
section
/-! DEFINITION. How engines reach memory: the spans of a run of addresses, local and remote reads and writes, and the
packets of engine writes (R23 to R25, R251, R258, R439, R452). -/

namespace Sys2Proof.Machine

/-! ### Spans -/

/-- One piece of a run of addresses that lies in one 64 KiB granule: its first address, its length and its place. -/
structure Span where
  ea : Nat
  len : Nat
  place : Place
  deriving DecidableEq, Repr

/-- A fault of an engine: its cause, SUB and address. -/
abbrev EngFault := FaultCode × Nat

/-- Bytes from an address to the end of its 64 KiB granule. -/
def granuleLeft (ea : Nat) : Nat := 65536 - ea % 65536

/-- The spans of n bytes of the global or the host space, each translated (R251, R253). A mailbox window takes only
8-byte accesses, and a sketch page takes no engine write (R385). -/
def pagedSpans (s : State) (p : Party) (space : Space) (acc : Acc) (ea n fuel : Nat) : Except EngFault (State × List Span) :=
  match fuel with
  | 0 => .ok (s, [])
  | f + 1 =>
    if n == 0 then .ok (s, [])
    else
      let len := min n (granuleLeft ea)
      match placeOf s p space ea len acc with
      | .error c => .error (c, ea)
      | .ok (s1, pl) =>
        if pl.window then .error ((cMisaligned.toNat, none), ea)
        else if pl.sketch != 0 && acc == .wr then .error ((cProtection.toNat, none), ea)
        else match pagedSpans s1 p space acc (ea + len) (n - len) f with
          | .error e => .error e
          | .ok (s2, rest) => .ok (s2, ⟨ea, len, pl⟩ :: rest)

/-- The spans of n bytes as far as they can be reached, and the fault that ends them. -/
def spansUntil (s : State) (p : Party) (space : Space) (ea n fuel : Nat) : State × List Span × Option EngFault :=
  match fuel with
  | 0 => (s, [], none)
  | f + 1 =>
    if n == 0 then (s, [], none)
    else
      let len := min n (granuleLeft ea)
      match pagedSpans s p space .rd ea len 1 with
      | .error e => (s, [], some e)
      | .ok (s1, xs) =>
        let r := spansUntil s1 p space (ea + len) (n - len) f
        (r.1, xs ++ r.2.1, r.2.2)

/-- The bytes of a space outside the translated ones, as one span: the whole run must lie in it (R25). -/
def plainSpan (s : State) (p : Party) (space : Space) (acc : Acc) (ea n : Nat) : Except EngFault (State × List Span) :=
  if n == 0 then .ok (s, [])
  else match placeOf s p space ea n acc with
    | .error c => .error (c, ea)
    | .ok (s1, pl) =>
      let top := match space with
        | .carrel => carrelBytes
        | .rcarrel => ea / 2 ^ 20 * 2 ^ 20 + carrelBytes
        | .stacks => stacksBytes
        | _ => ea + n
      if ea + n ≤ top then .ok (s1, [⟨ea, n, pl⟩]) else .error ((cProtection.toNat, none), ea)

/-- The spans of n bytes from an address. -/
def spansOf (s : State) (p : Party) (space : Space) (acc : Acc) (ea n : Nat) : Except EngFault (State × List Span) :=
  match space with
  | .global | .host => pagedSpans s p space acc ea n (n / 65536 + 2)
  | _ => plainSpan s p space acc ea n

/-- The spans of several runs, in order. -/
def spansOfRuns (s : State) (p : Party) (space : Space) (acc : Acc) (runs : List (Nat × Nat)) :
    Except EngFault (State × List Span) :=
  runs.foldl (fun r run =>
    match r with
    | .error e => .error e
    | .ok (s1, acc1) =>
      match spansOf s1 p space acc run.1 run.2 with
      | .error e => .error e
      | .ok (s2, more) => .ok (s2, acc1 ++ more)) (.ok (s, []))

/-- The party of an engine of a die, for a context's address space; its core when it serves one (R23). -/
def engineParty (core : Option Nat) (die asid : Nat) (priv : Bool) : Party := { core, die, asid, priv }

/-! ### Reading and writing spans -/

/-- The sectors' poison, byte by byte. -/
def poisonMask (s : State) (l n : Nat) : List Bool := (List.range n).map fun i => s.poison.contains ((l + i) / 32)

/-- Line events of an engine's access, which holds no line (R419): the first fault stops it. -/
def engineLines (s : State) (p : Place) (n : Nat) (write : Bool) : Except Nat State :=
  if !p.global then .ok s
  else (List.range ((p.pa + n - 1) / 64 - p.pa / 64 + 1)).foldl (fun acc i =>
    match acc with
    | .error c => .error c
    | .ok st => lineAccess st none ((p.pa / 64 + i) * 64) p.range write) (.ok s)

/-- Who reads or writes: the die and flow of an engine, the owner of its packets and the context. -/
structure Writer where
  die : Nat
  flow : Nat
  owner : Owner
  context : Nat
  deriving DecidableEq, Repr

/-- What ends an engine's access: a fault, or, until another module has answered, a wait in which nothing but its requests
has left (R438, R452). -/
inductive EngStop where
  | fault (f : EngFault)
  | waits (s : State)

/-- Whether a span's bytes are here: local, or answered by their home. -/
def spanHere (s : State) (w : Writer) (x : Span) : Bool :=
  !x.place.remote || (runsOf x.place.pa x.len).all fun r => (askOf s w.owner r).any fun a => a.val.isSome

/-- The reads that a span on another module needs are sent. -/
def askSpan (w : Writer) (s : State) (x : Span) : State :=
  if x.place.remote then
    (runsOf x.place.pa x.len).foldl (sendAsk w.die w.owner w.context x.place.range) s
  else s

/-- The bytes of one span with their poison. -/
def readSpan (s : State) (w : Writer) (x : Span) : Except EngStop (State × List Byte × List Bool) :=
  if x.place.remote then
    match fetchRemote s w.die w.owner w.context x.place.range x.place.pa x.len with
    | .got bs bad => .ok (s, bs, bad)
    | .refused c => .error (.fault ((c.toNat, none), x.ea))
    | .waits s1 => .error (.waits s1)
  else match engineLines s x.place x.len false with
    | .error c => .error (.fault ((c, none), x.ea))
    | .ok s1 => .ok (s1, loadBytes s1 x.place.loc x.len, poisonMask s1 x.place.loc x.len)

/-- The bytes of spans, in order, once every one of them is here. -/
def readSpans (s : State) (w : Writer) (xs : List Span) : Except EngStop (State × List Byte × List Bool) :=
  if xs.all (spanHere s w) then
    xs.foldl (fun acc x =>
      match acc with
      | .error e => .error e
      | .ok (s1, bs, ps) =>
        match readSpan s1 w x with
        | .error e => .error e
        | .ok (s2, b2, p2) => .ok (s2, bs ++ b2, ps ++ p2)) (.ok (s, [], []))
  else .error (.waits (xs.foldl (askSpan w) s))

/-- The flits of bytes that begin within a sector. -/
def flitsFrom (pa : Nat) (bs : List Byte) : List Wide :=
  let pad := List.replicate (pa % 32) (0 : Byte) ++ bs
  (List.range ((pad.length + 31) / 32)).map fun i => BitVec.ofNat 256 (leNat ((pad.drop (32 * i)).take 32))

/-- An engine write of at most eight flits (R439): its byte enables name the first and the last byte. -/
def engineWritePacket (pa : Nat) (bs : List Byte) (poisonedToo : Bool) : Packet :=
  let flits := flitsFrom pa bs
  let n := pa % 32 + bs.length
  let one := flits.length == 1
  let first := (if one then 2 ^ n else 2 ^ 32) - 2 ^ (pa % 32)
  let last := if one then first else 2 ^ (if n % 32 == 0 then 32 else n % 32) - 1
  towards { Packet.blank with type := tyEngine, cls := 5, ord := true, len := BitVec.ofNat 4 flits.length,
                              fmask := BitVec.ofNat 32 first, lmask := BitVec.ofNat 32 last, payload := flits,
                              poisoned := poisonedToo } pa

/-- Engine writes of bytes to another module, in packets of at most eight sectors, on the flow of its source (R437). -/
def enginePost (s : State) (die flow : Nat) (owner : Owner) (context range pa : Nat) (bs : List Byte) (bad : List Bool)
    (fuel : Nat) : State :=
  match fuel with
  | 0 => s
  | f + 1 =>
    if bs.isEmpty then s
    else
      let n := min bs.length (256 - pa % 32)
      let p := carryRange { engineWritePacket pa (bs.take n) ((bad.take n).any id) with flow := BitVec.ofNat 8 flow } range
      let (s1, _) := sendFrom s (flowPort die flow (homeModule pa)) p owner context
      enginePost s1 die flow owner context range (pa + n) (bs.drop n) (bad.drop n) f

/-- Marks the sectors that poisoned bytes reach. -/
def spreadPoison (s : State) (l : Nat) (bad : List Bool) : State :=
  (List.range bad.length).foldl (fun st i => if bad.getD i false then addPoison st ((l + i) / 32) else st) s

/-- Writes a span's bytes, their poison travelling with them (R258). -/
def writeSpan (s : State) (w : Writer) (x : Span) (bs : List Byte) (bad : List Bool) : Except EngFault State :=
  if x.place.remote then
    match w.owner with
    | .thread tid =>
      .ok ((sectorsOf x.place.pa bs.length).foldl (fun st sec =>
        let lo := max x.place.pa (32 * sec)
        let part := (bs.drop (lo - x.place.pa)).take (32 * sec + 32 - lo)
        postPacket st tid lo (carryRange (postedPacket tyPosted lo part) x.place.range)) s)
    | _ => .ok (enginePost s w.die w.flow w.owner w.context x.place.range x.place.pa bs bad (bs.length / 224 + 2))
  else match engineLines s x.place x.len true with
    | .error c => .error ((c, none), x.ea)
    | .ok s1 => .ok (spreadPoison (storeBytes s1 x.place.loc bs) x.place.loc bad)

/-- Writes bytes over spans, in order. -/
def writeSpans (s : State) (w : Writer) (xs : List Span) (bs : List Byte) (bad : List Bool) : Except EngFault State :=
  (xs.foldl (fun (acc : Except EngFault State × List Byte × List Bool) x =>
    match acc with
    | (.error e, b, p) => (.error e, b, p)
    | (.ok st, b, p) => (writeSpan st w x (b.take x.len) (p.take x.len), b.drop x.len, p.drop x.len)) (.ok s, bs, bad)).1

/-- A fault of an engine that parks its entry: a translation fault (R251). -/
def parks (f : FaultCode) : Bool :=
  f.1 == cPageFault.toNat || f.1 == cTlbGen.toNat || (f.1 == cProtection.toNat && f.2.isSome)

/-- Whether packets of an owner that await an acknowledgement are in flight: a release of the owner waits for them (R456). -/
def inFlight (s : State) (owner : Owner) : Bool :=
  s.fabric.ports.any fun e => e.2.kept.any fun k => k.owner == owner && k.pkt.len != 0

/-! ### Rings as an engine serves them (R29 to R32) -/

/-- An engine that serves a ring: how it reads and writes, the address space of the ring's context, whether the ring is a
slip chain, whose BASE in a carrel is an rcarrel address (R310), and the size of its entries. -/
structure Server where
  w : Writer
  asid : Nat
  priv : Bool
  chain : Bool
  size : Nat
  deriving DecidableEq, Repr

/-- What an engine finds at a ring's notify word: nothing that it can read, a header of another module on its way, no new
entry, a fault of the ring (R31, R429), or an entry to read in. -/
inductive Head where
  | none
  | waits (s : State)
  | idle (s : State)
  | bad (s : State) (cause : BitVec 8)
  | due (s : State) (p : Place)

/-- The cells of another module's header take what its home has answered; TAKEN and ACC, which only the engine writes,
are learned once. -/
def learnHead (s : State) (l : Nat) (bs : List Byte) : State :=
  if hdrLogn s l == 0 then writeBytes s l bs
  else writeBytes (writeBytes s l (bs.take 8)) (l + 24) ((bs.drop 24).take 16)

/-- A header at its cells: R31's check, and that its line takes the write of TAKEN. -/
def headFound (s : State) (v : Server) (p : Place) : Head :=
  if hdrPub s p.loc == hdrTaken s p.loc then .idle (dropAsks s v.w.owner)
  else if overrun s p.loc then .bad (dropAsks s v.w.owner) cQueueOverrun
  else if p.remote then .due s p
  else match engineLines s p 64 false with
    | .error c => .bad s (BitVec.ofNat 8 c)
    | .ok s1 =>
      match engineLines s1 p 16 true with
      | .error c => .bad s1 (BitVec.ofNat 8 c)
      | .ok _ => .due s1 p

/-- A ring's header as it stands now: `due` with its place once its bytes are here. -/
def freshHead (s : State) (v : Server) (loc : RingLoc) : Head :=
  match ringPlaceOf s v.asid v.priv loc with
  | none => .none
  | some (s1, p) =>
    if p.remote then
      match fetchRemote s1 v.w.die v.w.owner v.w.context p.range p.pa 64 with
      | .refused _ => .idle (dropAsks s1 v.w.owner)
      | .waits s2 => .waits s2
      | .got bs _ => .due (learnHead s1 p.loc bs) p
    else .due s1 p

/-- An engine reads a ring's header. -/
def headOf (s : State) (v : Server) (loc : RingLoc) : Head :=
  match freshHead s v loc with
  | .due s1 p => headFound s1 v p
  | h => h

/-- Whether an engine has something to do with a ring: an entry to read in, or a fault to report. -/
def headDue (h : Head) : Bool :=
  match h with
  | .due _ _ | .bad _ _ => true
  | .none | .waits _ | .idle _ => false

/-- An engine polls the header of a ring on another module, unless its answer is waiting to be used. -/
def pollHead (s : State) (v : Server) (loc : RingLoc) : State :=
  match headOf s v loc with
  | .waits s1 | .idle s1 => if s1.fabric == s.fabric then s else s1
  | .none | .bad _ _ | .due _ _ => s

/-- The engine writes a word of a header (R32): in its cells, or to the home and in the engine's own copy. -/
def putHead (s : State) (w : Writer) (p : Place) (off v : Nat) : State :=
  let bs := leBytes 8 (v % 2 ^ 48)
  if p.remote then
    enginePost (writeBytes s (p.loc + off) bs) w.die w.flow w.owner w.context p.range (p.pa + off) bs [] 2
  else match engineLines s p 24 true with
    | .error _ => s
    | .ok s1 => storeBytes s1 (p.loc + off) bs

/-- TAKEN and ACC written. -/
def putTaken (s : State) (w : Writer) (p : Place) (v : Nat) : State := putHead s w p 8 v
def putAcc (s : State) (w : Writer) (p : Place) (v : Nat) : State := putHead s w p 16 v

/-- The address of entry k of a ring. -/
def entryEa (s : State) (v : Server) (p : Place) (k : Nat) : Nat :=
  hdrBase s p.loc + v.size * slotIndex k (hdrLogn s p.loc)

/-- The doublewords of bytes. -/
def bytesWords (bs : List Byte) : List Word :=
  (List.range (bs.length / 8)).map fun i => BitVec.ofNat 64 (leNat ((bs.drop (8 * i)).take 8))

/-- The words at a cell. -/
def wordsAt (s : State) (l n : Nat) : List Word := (List.range n).map fun i => BitVec.ofNat 64 (readWord s (l + 8 * i))

/-- The words of entry k of a ring. BASE is an address of the ring's own space: for a chain in a carrel an rcarrel address
(R310), for a copy ring an offset in its own carrel. -/
def ringEntry (s : State) (v : Server) (loc : RingLoc) (p : Place) (k : Nat) : Except EngStop (State × List Word) :=
  let ea := entryEa s v p k
  match loc with
  | .carrel c _ =>
    .ok (s, wordsAt s (if v.chain then carrelLoc (c / 64 * 64 + ea % 2 ^ 26 / 2 ^ 20) (ea % 2 ^ 20) else carrelLoc c ea)
      (v.size / 8))
  | .global _ _ =>
    match spansOf s (engineParty none v.w.die v.asid v.priv) .global .rd ea v.size with
    | .error e => .error (.fault e)
    | .ok (s1, xs) =>
      match readSpans s1 v.w xs with
      | .error e => .error e
      | .ok (s2, bs, _) => .ok (s2, bytesWords bs)

/-- The numbers of the entries of a ring that are published and have not completed. -/
def openEntries (s : State) (r : Ring) (p : Place) : List Nat :=
  let acc := hdrAcc s p.loc
  ((List.range (min 4096 (sub48 (hdrPub s p.loc) acc))).map fun i => (acc + 1 + i) % 2 ^ 48).filter fun k => !r.done.contains k

/-- An entry of a ring completes: the ring's list of completed entries and the new ACC (R32). -/
def completeEntry (s : State) (w : Writer) (p : Place) (r : Ring) (k : Nat) : State × Ring :=
  let done := if r.done.contains k then r.done else r.done ++ [k]
  let acc := hdrAcc s p.loc
  let acc' := frontier acc done (done.length + 1)
  (if acc' == acc then s else putAcc s w p acc',
   { r with done := done.filter fun x => sub48 x acc' < 2 ^ 47 && x != acc' })

/-- A ring is bound anew: what its engine knew of a header of another module no longer counts. -/
def forgetHead (s : State) (asid : Nat) (priv : Bool) (loc : RingLoc) : State :=
  match ringPlaceOf s asid priv loc with
  | some (s1, p) => if p.remote then writeBytes s1 p.loc (List.replicate 64 0) else s
  | none => s

/-- A fault as a trap. -/
def engTrap (f : EngFault) : TrapInfo := trapCode f.1 f.2

/-! ### Addresses translated in advance (R294) -/

/-- The pages of spans: virtual granule, physical granule and range. -/
def pagesOf (xs : List Span) : List (Nat × Nat × Nat) :=
  (xs.filter fun x => x.place.global).map fun x => (x.ea / 65536, x.place.pa / 65536, x.place.range)

/-- The place of a global address under pages translated before. -/
def pagedPlace (s : State) (pages : List (Nat × Nat × Nat)) (ea : Nat) : Option Place :=
  (pages.find? fun p => p.1 == ea / 65536).map fun p =>
    let pa := p.2.1 * 65536 + ea % 65536
    { loc := paLoc s pa, global := true, pa, range := p.2.2, sketch := 0, remote := isRemote s pa, window := false }

/-- The spans of a run under pages translated before; another space takes its own check. -/
def heldSpans (s : State) (p : Party) (space : Space) (acc : Acc) (pages : List (Nat × Nat × Nat)) (ea n fuel : Nat) :
    List Span :=
  match space with
  | .global =>
    match fuel with
    | 0 => []
    | f + 1 =>
      if n == 0 then []
      else
        let len := min n (granuleLeft ea)
        match pagedPlace s pages ea with
        | none => []
        | some pl => ⟨ea, len, pl⟩ :: heldSpans s p space acc pages (ea + len) (n - len) f
  | _ =>
    match spansOf s p space acc ea n with
    | .ok (_, xs) => xs
    | .error _ => []

end Sys2Proof.Machine
end

