-- ==== Sys2Proof/Machine/Float.lean ====
section
/-! DEFINITION. Class 0x1: scalar float instructions (R177 to R180). -/

namespace Sys2Proof.Machine

/-- A rounded scalar operation: one draw, one result, its flags (R107, R177). -/
def floatOp (f : Num → Num → Num → Exact) (k : Nat) (o : Ops) (m : M1) (s : State) :
    Host.Outcome State Fault Refusal :=
  laneOp o (wordNeeds o) (fun _ s tid =>
    let t := thr s tid
    let dec (x : Src) : Num := decodeFloat m.ty (low (fmtWidth m.ty) (srcN t x))
    let (c, fl) := roundExact m.ty m.rnd m.sat (drawOf t m.rnd) (f (dec o.a) (dec o.b) (dec o.c))
    .done (resultG (setFlags (setThr s tid (afterDraw t m.rnd)) tid fl) tid k o.d c)) s

/-- A value with its invalid mark, exact. -/
def exactly (r : Num × Bool) : Exact := ⟨r.1, false, r.2⟩

/-- FADD (R177, R179). -/
def execFadd (o : Ops) (m : M1) (s : State) : Host.Outcome State Fault Refusal :=
  floatOp (fun a b _ => exactly (addNum m.rnd a b)) 1 o m s
/-- FSUB: a plus −b (R179). -/
def execFsub (o : Ops) (m : M1) (s : State) : Host.Outcome State Fault Refusal :=
  floatOp (fun a b _ => exactly (addNum m.rnd a (negNum b))) 1 o m s
/-- FMUL (R177, R179). -/
def execFmul (o : Ops) (m : M1) (s : State) : Host.Outcome State Fault Refusal :=
  floatOp (fun a b _ => exactly (mulNum a b)) 1 o m s
/-- FFMA (R177, R179). -/
def execFfma (o : Ops) (m : M1) (s : State) : Host.Outcome State Fault Refusal :=
  floatOp (fun a b c => exactly (fmaNum m.rnd a b c)) 1 o m s

/-- An operation that rounds nothing: its rounding and .sat fields are zero (R178). -/
def exactOp (f : Num → Num → Num × Bool) (o : Ops) (m : M1) (s : State) : Host.Outcome State Fault Refusal :=
  floatOp (fun a b _ => exactly (f a b)) 1 o m s

/-- FMIN (R177). -/
def execFmin (o : Ops) (m : M1) (s : State) : Host.Outcome State Fault Refusal := exactOp minNum o m s
/-- FMAX (R177). -/
def execFmax (o : Ops) (m : M1) (s : State) : Host.Outcome State Fault Refusal := exactOp maxNum o m s

/-- The magnitude of a value. -/
def absNum : Num → Num
  | .nan s => .nan s
  | .inf _ => .inf false
  | .fin _ m e => .fin false m e

/-- FABS: the sign bit cleared; a NaN gives the canonical one, INVALID for a signalling one (R177, R179). -/
def execFabs (o : Ops) (m : M1) (s : State) : Host.Outcome State Fault Refusal :=
  exactOp (fun a _ => (absNum a, isSig a)) o m s
/-- FNEG: the sign bit inverted (R177, R179). -/
def execFneg (o : Ops) (m : M1) (s : State) : Host.Outcome State Fault Refusal :=
  exactOp (fun a _ => (negNum a, isSig a)) o m s

/-- FCMP (R170). -/
def execFcmp (o : Ops) (m : M1) (s : State) : Host.Outcome State Fault Refusal :=
  laneOp o (wordNeeds o) (fun _ s tid =>
    let t := thr s tid
    let w := fmtWidth m.ty
    let (r, inv) := floatCond m.ty m.cond.toNat (low w (srcN t o.a)) (low w (srcN t o.b))
    .done (resultG (setFlags s tid (invalidFlag inv)) tid 1 o.d (if r then 1 else 0))) s

/-- The class of a code, as a bit number (R180). -/
def classOf (ty : Fmt) (raw : Nat) : Nat :=
  let sub := raw % 2 ^ signBit ty / 2 ^ (floatShape ty).man == 0
  match decodeFloat ty raw with
  | .inf n => if n then 0 else 7
  | .nan sg => if sg then 8 else 9
  | .fin n m _ => if m == 0 then (if n then 3 else 4) else if sub then (if n then 2 else 5) else if n then 1 else 6

/-- FCLASS (R180). -/
def execFclass (o : Ops) (m : M1) (s : State) : Host.Outcome State Fault Refusal :=
  laneOp o (wordNeeds o) (fun _ s tid =>
    .done (resultG s tid 1 o.d (2 ^ classOf m.ty (low (fmtWidth m.ty) (srcN (thr s tid) o.a))))) s

/-- FRCP (R177, R179). -/
def execFrcp (o : Ops) (m : M1) (s : State) : Host.Outcome State Fault Refusal := floatOp (fun a _ _ => rcpNum a) 3 o m s
/-- FRSQ (R177, R179). -/
def execFrsq (o : Ops) (m : M1) (s : State) : Host.Outcome State Fault Refusal := floatOp (fun a _ _ => rsqNum a) 3 o m s
/-- FSQRT (R177, R179). -/
def execFsqrt (o : Ops) (m : M1) (s : State) : Host.Outcome State Fault Refusal := floatOp (fun a _ _ => sqrtNum a) 3 o m s
/-- FDIV (R177, R179). -/
def execFdiv (o : Ops) (m : M1) (s : State) : Host.Outcome State Fault Refusal := floatOp (fun a b _ => divNum a b) 3 o m s
/-- FEXP2 (R177, R179). -/
def execFexp2 (o : Ops) (m : M1) (s : State) : Host.Outcome State Fault Refusal := floatOp (fun a _ _ => exp2Num a) 3 o m s
/-- FLOG2 (R177, R179). -/
def execFlog2 (o : Ops) (m : M1) (s : State) : Host.Outcome State Fault Refusal := floatOp (fun a _ _ => log2Num a) 3 o m s
/-- FSIN (R177, R179). -/
def execFsin (o : Ops) (m : M1) (s : State) : Host.Outcome State Fault Refusal := floatOp (fun a _ _ => sinNum a) 3 o m s
/-- FCOS (R177, R179). -/
def execFcos (o : Ops) (m : M1) (s : State) : Host.Outcome State Fault Refusal := floatOp (fun a _ _ => cosNum a) 3 o m s

end Sys2Proof.Machine
end

