-- ==== Sys2Proof/Machine/Atomic.lean ====
section
/-! DEFINITION. Class 0x5: atomics, barriers, votes (R219 to R227). -/

namespace Sys2Proof.Machine

/-! ### The atomic operations (R219, R220) -/

/-- The sum of two codes of a type: integers wrap, floats are rounded once in .rne. -/
def atomAdd (ty : Fmt) (x y : Nat) : Nat :=
  if isFloat ty then (roundExact ty .rne false 0 (exactly (addNum .rne (decodeFloat ty x) (decodeFloat ty y)))).1
  else low (fmtWidth ty) (x + y)

/-- The lesser or greater of two codes of a type. -/
def atomPick (ty : Fmt) (greater : Bool) (x y : Nat) : Nat :=
  if isFloat ty then
    let f := if greater then maxNum else minNum
    (roundExact ty .rne false 0 (exactly (f (decodeFloat ty x) (decodeFloat ty y)))).1
  else if (intOf ty x < intOf ty y) == greater then y else x

/-- The new value of an ATOM or RED (R219). -/
def atomNew (ty : Fmt) (op : BitVec 5) (x y : Nat) : Nat :=
  match op.toNat with
  | 0 => atomAdd ty x y
  | 1 => atomPick ty false x y
  | 2 => atomPick ty true x y
  | 3 => x &&& y
  | 4 => x ||| y
  | 5 => x ^^^ y
  | 6 => y
  | 7 => if y ≤ x then 0 else x + 1
  | _ => if x == 0 || y < x then y else x - 1

/-- The new value of a CAS (R220). -/
def casNew (x b c : Nat) : Nat := if x == b then c else x

/-! ### One atomic access -/

/-- The value that an earlier lane's combined RMW has left for a thread. -/
def combinedMark : Nat := 2 ^ 61

/-- Leaves a thread the value that its step of a combined RMW returns. -/
def leaveValue (s : State) (x : Nat × Nat) : State :=
  let piece : PendPiece := { port := 0, tag := 0, idx := combinedMark, size := 8, val := some x.2, fault := 0 }
  modThr s x.1 fun t =>
    { t with pend := t.pend ++ [{ dst := .latchOnly, k := answerMark s, live := false, wide := false, tag := 0,
                                  flag := none, pieces := [piece] }] }

/-- The steps of some threads on a value, in ascending lane order (R51): what each returns, and the last value. -/
def rmwSteps (f : Nat → Nat → Nat) (is : List Nat) (v : Nat) : List (Nat × Nat) × Nat :=
  is.foldl (fun acc i => (acc.1 ++ [(i, acc.2)], f i acc.2)) ([], v)

/-- An RMW of checked local cells: the line's write, POISON, then the new value; the old one is answered. The threads of an
instruction that name one address make one RMW and one line event (R51, R429): the lowest of them makes it, and leaves
each of the others the value that its step returns. -/
def localRmw (s : State) (tid ea : Nat) (p : Place) (size : Nat) (group : List Nat) (f : Nat → Nat → Nat) : Acq :=
  match (markOf s tid).bind fun m => pieceOf m combinedMark with
  | some q => .ok s (q.val.getD 0)
  | none =>
    match (if p.global then lineAccess s (some (thr s tid).core) p.pa p.range true else .ok s) with
    | .error c => .trap (trapOf (BitVec.ofNat 8 c) (some ea))
    | .ok s1 =>
      if poisoned s1 p.loc size then .trap (trapOf cPoison (some ea))
      else
        let old := leNat (loadBytes s1 p.loc size)
        let later := (group.dropWhile (· != tid)).drop 1
        let (given, v) := rmwSteps f later (f tid old)
        .ok (given.foldl leaveValue (storeBytes s1 p.loc (leBytes size v))) old

/-- An RMW inside a transaction (R162, R221). -/
def txRmw (s : State) (tid ea : Nat) (p : Place) (size : Nat) (f : Nat → Nat) : Acq :=
  match lineAccess s (some (thr s tid).core) p.pa p.range true with
  | .error c => .trap (trapOf (BitVec.ofNat 8 c) (some ea))
  | .ok _ =>
    match txOf s tid with
    | none => .ok s 0
    | some x =>
      match txLoad s tid ea x p size with
      | .ok s1 old =>
        match txOf s1 tid with
        | none => .ok s1 old
        | some y =>
          match txStore s1 tid y p (leBytes size (f old)) with
          | .ok s2 _ => .ok s2 old
          | r => r
      | r => r

/-- An RMW of a mailbox window's doubleword (R523). -/
def windowRmw (s : State) (tid : Nat) (p : Place) (f : Nat → Nat) : Acq :=
  match windowOf s p.pa with
  | none => .ok s 0
  | some (d, off) =>
    let old := windowRead s d off
    .ok (windowWrite s d off (f old) (.thread (wgOf s (thr s tid).wg).context)) old

/-! ### RMWs of another module (R51, R52, R452)

The threads of a gathering that name one address make one request; its operands travel with it (log entry 27). -/

/-- AUX of an RMW request: the operation, the type's code, the kind (0 ATOM, 1 CAS, 2 BARA, 3 RED), the number of
operations and the context. -/
def rmwAux (kind : Nat) (ty : Fmt) (op : BitVec 5) (n ctx : Nat) : BitVec 40 :=
  BitVec.ofNat 40 (op.toNat + 32 * (fmtCode ty).toNat + 2 ^ 11 * kind + 2 ^ 13 * n + 2 ^ 19 * (ctx % 4096))

/-- Doublewords packed four to a flit. -/
def flitsOfWords (ws : List Nat) : List Wide :=
  (List.range ((ws.length + 3) / 4)).map fun i =>
    BitVec.ofNat 256 (((ws.drop (4 * i)).take 4).foldr (fun w acc => w + 2 ^ 64 * acc) 0)

/-- An RMW request: class 0 with its operands in AUX, or the posted class 2 of RED with them as its payload (R439 to
R441). -/
def rmwRequest (ctx kind : Nat) (ty : Fmt) (op : BitVec 5) (pa size : Nat) (ws : List Nat) : Packet :=
  let n := if kind == 1 then ws.length / 2 else ws.length
  let blank :=
    { Packet.blank with
      type := tyRmwReq, fmask := enables pa size, lmask := enables pa size, aux := rmwAux kind ty op n ctx }
  towards
    (if kind == 3 then
      { blank with cls := 2, len := BitVec.ofNat 4 ((ws.length + 3) / 4), payload := flitsOfWords ws }
    else { blank with operands := ws.map (BitVec.ofNat 64) }) pa

/-- An ATOM or CAS of another module: the lowest thread of the address's group sends the request for all of them, and each
thread's result is its own doubleword of the answer. -/
def remoteRmw (s0 s : State) (tid ea size : Nat) (group : List Nat) (req : Packet) : Acq :=
  let r : Acq := match (markOf s (group.headD tid)).bind fun m => pieceOf m 0 with
    | none => .stall (askPiece s0 tid req size 0)
    | some q => answered s0 s ea q
  match r with
  | .sent s1 q => .sent s1 { q with val := q.val.map fun v => v / 2 ^ (64 * group.findIdx (· == tid)) % 2 ^ 64 }
  | _ => r

/-- A RED of another module: posted once for the group, and every thread of it has the write in flight (R452). -/
def remoteRed (s0 s : State) (tid : Nat) (p : Place) (group : List Nat) (req : Packet) : Acq :=
  match group with
  | [] => .ok s 0
  | h :: _ =>
    if h == tid then
      if bufferFull s (leastPort s (dieOfThr s tid)) then .stall s0 else .ok (postPacket s tid p.pa req) 0
    else match (thr s h).posted.getLast? with
      | some x => .ok (modThr s tid fun t => { t with posted := t.posted ++ [x] }) 0
      | none => .ok s 0

/-! ### ATOM, RED, CAS -/

/-- A RED of a core that is in flight to the line of an address: a later RMW of the core waits for it, so that RMWs to one
address take effect in their order of issue (R263). -/
def redOut (s : State) (core pa : Nat) : Bool :=
  s.fabric.ports.any fun e => e.2.kept.any fun k =>
    k.pkt.type == tyRmwReq && k.pkt.cls == 2 && k.pkt.addr.toNat / 64 == pa / 64 &&
      match k.owner with
      | .thread i => (thr s i).core == core
      | _ => false

/-- One atomic of a thread. `words` gives a thread's operands as doublewords for a request. -/
def atomAccess (s0 s : State) (tid : Nat) (kind : Nat) (o : Ops) (m : M5) (f : Thread → Nat → Nat)
    (words : Thread → List Nat) (needs : List (Src × Need)) : Acq :=
  let t := thr s tid
  let size := fmtWidth m.ty / 8
  let ea := eaOf t o.a m.off
  match laneCheck s tid m.space ea size .wr false with
  | .error i => .trap i
  | .ok (s1, p) =>
    if !p.window && (txOf s tid).isSome then
      if txRefuses m.space p then .abort (txAbortBy s tid 6 0) else txRmw s1 tid ea p size (f t)
    else if (txOf s tid).isSome then .abort (txAbortBy s tid 6 0)
    else if p.window then windowRmw s1 tid p (f t)
    else if lineBusy s0 tid p || (p.remote && redOut s0 t.core p.pa) then .stall s0
    else
      let group := (takesPart s0 o needs).filter fun i => eaOf (thr s0 i) o.a m.off == ea
      let req := carryRange (rmwRequest (wgOf s t.wg).context kind m.ty m.op p.pa size (group.flatMap fun i => words (thr s0 i))) p.range
      if !p.remote then localRmw s1 tid ea p size group (fun i => f (thr s0 i))
      else if kind == 3 then remoteRed s0 s1 tid p group req
      else remoteRmw s0 s1 tid ea size group req

/-- The operand sources of atomics. -/
def atomNeeds (o : Ops) : List (Src × Need) := [(o.a, .word), (o.b, .word), (o.c, .word)]

/-- A source's low bits under the atomic's type. -/
def atomArg (m : M5) (x : Src) (t : Thread) : Nat := low (fmtWidth m.ty) (srcN t x)

/-- An atomic with a result in gD and l2, or none (RED). -/
def atomOp (kind : Nat) (f : Thread → Nat → Nat) (words : Thread → List Nat) (o : Ops) (m : M5) (s : State) :
    Host.Outcome State Fault Refusal :=
  laneOp o (atomNeeds o) (fun s0 s tid =>
    match laneCheck s tid m.space (eaOf (thr s tid) o.a m.off) (fmtWidth m.ty / 8) .wr false with
    | .error i => .trap i
    | .ok _ =>
      if releaseWaits s0 tid (releases m.ord) then .hold postedHold
      else
        let r := atomAccess s0 s tid kind o m f words (atomNeeds o)
        if kind == 3 then storeRes r else loadRes tid 2 o.d false 0 id r) s

/-- ATOM (R219, R221). -/
def execAtom (o : Ops) (m : M5) (s : State) : Host.Outcome State Fault Refusal :=
  atomOp 0 (fun t x => atomNew m.ty m.op x (atomArg m o.b t)) (fun t => [atomArg m o.b t]) o m s

/-- RED (R219, R221). -/
def execRed (o : Ops) (m : M5) (s : State) : Host.Outcome State Fault Refusal :=
  atomOp 3 (fun t x => atomNew m.ty m.op x (atomArg m o.b t)) (fun t => [atomArg m o.b t]) o m s

/-- CAS (R220, R221). -/
def execCas (o : Ops) (m : M5) (s : State) : Host.Outcome State Fault Refusal :=
  atomOp 1 (fun t x => casNew x (atomArg m o.b t) (atomArg m o.c t)) (fun t => [atomArg m o.b t, atomArg m o.c t]) o m s

/-! ### Barrier objects (R159, R222 to R225) -/

/-- BARI (R223): EXPECTED 0 traps BAR_COUNT before the address checks. -/
def execBari (o : Ops) (m : M5) (s : State) : Host.Outcome State Fault Refusal :=
  laneOp o [(o.a, .word), (o.b, .word), (o.c, .word)] (fun s0 s tid =>
    let t := thr s tid
    let ea := eaOf t o.a m.off
    let c := srcN t o.c % 2 ^ 16
    if c == 0 then .trap (trapOf cBarCount (some ea))
    else match laneCheck s tid m.space ea 8 .wr false with
      | .error i => .trap i
      | .ok (s1, p) =>
        if releaseWaits s0 tid (releases m.ord) then .hold postedHold
        else storeRes (storeAt s0 s1 tid m.space ea p (leBytes 8 (srcN t o.b % 2 ^ 16 + c * 2 ^ 16)))) s

/-- An object that BARA refuses (R224). -/
def barBad (v : Nat) : Bool := 2 ^ 48 ≤ v || bits v 31 16 == 0

/-- An object after one arrival (R224). -/
def barArrive (v : Nat) : Nat :=
  let phase := v % 2 ^ 16
  let expected := bits v 31 16
  let arrived := (bits v 47 32 + 1) % 2 ^ 16
  if arrived == expected then (phase + 1) % 2 ^ 16 + expected * 2 ^ 16
  else phase + expected * 2 ^ 16 + arrived * 2 ^ 32

/-- The look that BARA takes at the objects its threads name before any of them arrives: an object that is refused traps
every thread (R224). A poisoned object traps its own threads (R207). Of one object alone on another module the home's
answer says the same; of several, each is read first. -/
def barLook (s0 : State) (o : Ops) (m : M5) : Acq :=
  let mates := takesPart s0 o [(o.a, .word)]
  let ea (i : Nat) : Nat := eaOf (thr s0 i) o.a m.off
  let one := match mates with
    | [] => true
    | i :: rest => rest.all fun j => ea j == ea i
  mates.foldl (fun acc i =>
    match acc with
    | .ok st _ =>
      match laneCheck st i m.space (ea i) 8 .wr false with
      | .error _ => .ok st 0
      | .ok (s1, p) =>
        if p.window || (p.remote && one) || (!p.remote && poisoned s1 p.loc 8) then .ok st 0
        else if p.remote then
          match peekAt s0 s1 i (ea i) p 8 with
          | .ok s2 v => if barBad v then .trap (trapOf cBarCount (some (ea i))) else .ok s2 0
          | .trap _ => .ok st 0
          | r => r
        else if barBad (leNat (loadBytes s1 p.loc 8)) then .trap (trapOf cBarCount (some (ea i)))
        else .ok st 0
    | r => r) (.ok s0 0)

/-- The arrival of a thread, after the checks. -/
def barArrival (s0 s1 : State) (tid : Nat) (o : Ops) (m : M5) (p : Place) : Acq :=
  let t := thr s1 tid
  let ea := eaOf t o.a m.off
  let group := (takesPart s0 o [(o.a, .word)]).filter fun i => eaOf (thr s0 i) o.a m.off == ea
  if p.window then windowRmw s1 tid p barArrive
  else if p.remote then
    remoteRmw s0 s1 tid ea 8 group
      (carryRange (rmwRequest (wgOf s1 t.wg).context 2 .b64 0 p.pa 8 (group.map fun _ => 1)) p.range)
  else localRmw s1 tid ea p 8 group (fun _ => barArrive)

/-- BARA (R224): a release orders like any; the arrival is watchdog progress (R156). -/
def execBara (o : Ops) (m : M5) (s : State) : Host.Outcome State Fault Refusal :=
  laneOp o [(o.a, .word)] (fun s0 s tid =>
    let t := thr s tid
    let ea := eaOf t o.a m.off
    let arrived (s' : State) (v : Nat) : LaneRes := .done (progress (writeDst s' tid o.d (v % 2 ^ 16)) t.wg)
    if (txOf s tid).isSome then .done (txAbortBy s tid 7 0)
    else match laneCheck s tid m.space ea 8 .wr false with
      | .error i => .trap i
      | .ok (s1, p) =>
        if !p.remote && !p.window && poisoned s1 p.loc 8 then .trap (trapOf cPoison (some ea))
        else match barLook s0 o m with
          | .trap _ => .trap (trapOf cBarCount (some ea))
          | .stall s' => .stall s'
          | _ =>
            if releaseWaits s0 tid true then .hold postedHold
            else if lineBusy s0 tid p || (p.remote && redOut s0 t.core p.pa) then .stall s0
            else match barArrival s0 s1 tid o m p with
              | .ok s' v => arrived s' v
              | .sent s' q => arrived s' (q.val.getD 0)
              | .trap i => .trap i
              | .abort s' => .done s'
              | .stall s' => .stall s') s

/-- BARW (R225): it waits on the object at EA for phase p. -/
def execBarw (o : Ops) (m : M5) (s : State) : Host.Outcome State Fault Refusal :=
  laneOp o [(o.a, .word), (o.b, .word)] (fun _ s tid =>
    let t := thr s tid
    let ea := eaOf t o.a m.off
    let p := srcN t o.b % 2 ^ 16
    if (txOf s tid).isSome then .done (txAbortBy s tid 7 0)
    else waitOn { code := 3, a := BitVec.ofNat 64 ea, b := BitVec.ofNat 64 p, dst := .latchOnly,
                  var := if m.space == .carrel then 1 else 0 } (barwTest s tid m.space ea p)) s

/-! ### Named barriers (R158, R226) -/

/-- A barrier after one arrival with a count, and the phase the arrival joined; none when the count differs. -/
def nbarArrive (b : NBar) (count : Nat) : Option (NBar × Nat) :=
  if b.expected != 0 && b.expected != count then none
  else if b.arrived + 1 == count then some (⟨b.phase + 1, 0, 0⟩, b.phase.toNat)
  else some (⟨b.phase, b.arrived + 1, count⟩, b.phase.toNat)

/-- NBAR (R226): it is a release at .core, which waits for posted writes (R454). -/
def execNbar (o : Ops) (_m : M5) (s : State) : Host.Outcome State Fault Refusal :=
  laneOp o [(o.a, .word), (o.b, .word)] (fun s0 s tid =>
    let t := thr s tid
    let n := srcN t o.a
    let count := srcN t o.b
    if (txOf s tid).isSome then .done (txAbortBy s tid 7 0)
    else if 16 ≤ n || count == 0 || 256 < count then .trap (trapOf cIllegalField none)
    else if releaseWaits s0 tid true then .hold postedHold
    else match nbarArrive (nbarOf (wgOf s t.wg) n) count with
      | none => .trap (trapOf cBarCount none)
      | some (b, phase) =>
        .done (progress (writeDst (modWg s t.wg fun w => { w with nbars := tset w.nbars n b }) tid o.d phase) t.wg)) s

/-! ### Votes (R144, R227) -/

/-- Whether every member's operand equals the first's. -/
def allSame (vs : List Nat) : Bool :=
  match vs with
  | [] => true
  | v :: rest => rest.all (· == v)

/-- VOTE (R227), over the issuing thread's operand set as it stood at issue. -/
def execVote (o : Ops) (m : M5) (s : State) : Host.Outcome State Fault Refusal :=
  laneOp o [(o.a, .word)] (fun s0 s tid =>
    let set := operandSet s0 tid o.gd
    let f := bits m.off.toNat 5 0
    let b (i : Nat) : Bool := bit (srcN (thr s0 i) o.a) f
    let v := match m.op.toNat with
      | 0 => set.foldl (fun acc i => if b i then acc + 2 ^ tidLane i else acc) 0
      | 1 => if set.any b then 1 else 0
      | 2 => if set.all b then 1 else 0
      | _ => if allSame (set.map fun i => srcN (thr s0 i) o.a) then 1 else 0
    .done (writeDst s tid o.d v)) s

/-- ELECT (R227). -/
def execElect (o : Ops) (_m : M5) (s : State) : Host.Outcome State Fault Refusal :=
  laneOp o [] (fun s0 s tid =>
    .done (writeDst s tid o.d (if (operandSet s0 tid o.gd).head? == some tid then 1 else 0))) s

end Sys2Proof.Machine
end

