-- ==== Sys2Proof/Machine/Publish.lean ====
section
/-! DEFINITION. Publishing to rings and reaping from them: the shared part of CQPUB, NVSUB, JCARD, AXPUSH, NVREAP and
AXREAP (R29, R30, R348, R361). -/

namespace Sys2Proof.Machine

/-- A ring header as a publisher reads it: PUB, the count the limit is taken from, BASE and LOGN. -/
structure RingView where
  pub : Nat
  lim : Nat
  base : Nat
  logn : Nat
  deriving DecidableEq, Repr

/-- The header at a local place. `limOff` is the offset of TAKEN or ACC (R30). The BASE of a header in another carrel is
an rcarrel address (R310). -/
def viewAt (s : State) (p : Place) (space : Space) (limOff : Nat) : RingView :=
  ⟨hdrPub s p.loc, readWord s (p.loc + limOff) % 2 ^ 48,
    if space == .rcarrel then hdrBase s p.loc % 2 ^ 26 else hdrBase s p.loc, hdrLogn s p.loc⟩

/-- The header that five doublewords hold. -/
def viewOf (h limOff : Nat) : RingView := ⟨h % 2 ^ 48, h / 2 ^ (8 * limOff) % 2 ^ 48, bits h 255 192, bits h 260 256⟩

/-- A run of doublewords read as one value; the first access that does not answer ends it. -/
def peekWords (s0 s : State) (tid : Nat) (space : Space) (ea n : Nat) : Acq :=
  (List.range n).foldl (fun acc i =>
    match acc with
    | .ok s1 v =>
      match peek s0 s1 tid space ((ea + 8 * i) % 2 ^ 64) 8 with
      | .ok s2 w => .ok s2 (v + w * 2 ^ (64 * i))
      | r => r
    | r => r) (.ok s 0)

/-- The address of a ring's entry slot. -/
def slotEa (v : RingView) (size i : Nat) : Nat := (v.base + size * ((v.pub + i) % 2 ^ v.logn)) % 2 ^ 64

/-- A check of a write of the publisher, the write-once rule included. The line event that the write will raise stands in
the state of the checks, so that of two records in one line of a write-once range the second is found (R429). -/
def writeCheck (s : State) (tid : Nat) (space : Space) (ea size : Nat) : Except TrapInfo State :=
  match laneCheck s tid space ea size .wr false with
  | .error i => .error i
  | .ok (s1, p) =>
    if p.global && !p.remote then
      match lineAccess s1 (some (thr s tid).core) p.pa p.range true with
      | .error c => .error (trapOf (BitVec.ofNat 8 c) (some ea))
      | .ok s2 => .ok s2
    else .ok s1

/-- The checks of the slots of m entries, in order. -/
def slotChecks (s : State) (tid : Nat) (space : Space) (v : RingView) (size m : Nat) : Except TrapInfo State :=
  (List.range m).foldl (fun acc i =>
    match acc with
    | .error e => .error e
    | .ok st => writeCheck st tid space (slotEa v size i) size) (.ok s)

/-- Whether carrel bytes lie wholly in the workgroup's region (R315, R349). -/
def inCarrelRegion (w : Workgroup) (off n : Nat) : Bool := w.base * 4096 ≤ off && off + n ≤ (w.base + w.units) * 4096

/-- A copy ring's slots and status array lie in the region (R315, R349). -/
def ringInRegion (w : Workgroup) (v : RingView) : Bool := inCarrelRegion w v.base (36 * 2 ^ v.logn)

/-- What a publisher finds of a ring: its place and view, a trap, or a header of another module on its way. -/
inductive RingLook where
  | ok (s : State) (p : Place) (v : RingView)
  | trap (i : TrapInfo)
  | stall (s : State)

/-- The header of a ring of checked place, which another module's home may hold. -/
def readView (s0 s : State) (tid : Nat) (space : Space) (hdr limOff : Nat) (p : Place) : RingLook :=
  if p.remote then
    match peekWords s0 s tid space hdr 5 with
    | .ok s1 h => .ok s1 p (viewOf h limOff)
    | .trap i => .trap { i with addr := some (BitVec.ofNat 64 hdr) }
    | .stall s1 => .stall s1
    | .sent s1 _ | .abort s1 => .stall s1
  else if poisoned s p.loc 64 then .trap (trapOf cPoison (some hdr))
  else .ok s p (viewAt s p space limOff)

/-- The checks of one ring for m entries (R348): the header, its LOGN, the slots and the notify word. `own` asks for the
region rule of copy rings. -/
def ringCheck (s : State) (tid : Nat) (space : Space) (hdr size limOff m : Nat) (own : Bool) : RingLook :=
  let w := wgOf s (tidWg tid)
  if hdr % 64 != 0 then .trap (trapOf cMisaligned (some hdr))
  else if own && !inCarrelRegion w hdr 64 then .trap (trapOf cProtection (some hdr))
  else match laneCheck s tid space hdr 64 .rd false with
    | .error i => .trap i
    | .ok (s1, p) =>
      match readView s s1 tid space hdr limOff p with
      | .ok s2 p v =>
        if v.logn < 4 || 12 < v.logn || 2 ^ v.logn < m then .trap (trapOf cIllegalField (some hdr))
        else if own && !ringInRegion w v then .trap (trapOf cProtection (some v.base))
        else match slotChecks s2 tid space v size m with
          | .error e => .trap e
          | .ok s3 =>
            match writeCheck s3 tid space hdr 8 with
            | .error e => .trap e
            | .ok s4 => .ok s4 p v
      | r => r

/-- Whether m more entries pass the limit (R30, R348). -/
def ringFull (v : RingView) (m : Nat) : Bool := 2 ^ v.logn < sub48 v.pub v.lim + m

/-- The kinds of hold (code 63): posted writes, a full ring in the carrel, a DEPSET on its way, the acceptance of a matrix
instruction, a full global ring, a full rcarrel ring. -/
def holdPosted : Nat := 0
def holdCarrelRing : Nat := 1
def holdDepset : Nat := 2
def holdMatrix : Nat := 3
def holdGlobalRing : Nat := 4
def holdRcarrelRing : Nat := 5

/-- The hold of a full ring: A the header, B the entries and the limit's offset. -/
def ringHold (space : Space) (hdr limOff m : Nat) : Wait :=
  { code := 63, a := BitVec.ofNat 64 hdr, b := BitVec.ofNat 64 (m + limOff * 2 ^ 16), dst := .latchOnly,
    var := match space with
      | .carrel => holdCarrelRing
      | .rcarrel => holdRcarrelRing
      | _ => holdGlobalRing }

/-- Whether a full ring has room again, or can no longer be read, which its publisher will find. -/
def ringRoom (s : State) (tid : Nat) (space : Space) (w : Wait) : Bool :=
  let m := w.b.toNat % 2 ^ 16
  let limOff := w.b.toNat / 2 ^ 16
  match laneCheck s tid space w.a.toNat 64 .rd false with
  | .error _ => true
  | .ok (s1, p) => p.remote || !ringFull (viewAt s1 p space limOff) m

/-- A checked write of a publisher: local cells, or posted packets of 32 bytes to another module. -/
def putBytes (s : State) (tid : Nat) (space : Space) (ea : Nat) (bs : List Byte) : State :=
  match laneCheck s tid space ea bs.length .wr false with
  | .error _ => s
  | .ok (s1, p) =>
    if p.remote then
      (List.range ((bs.length + 31) / 32)).foldl (fun st i =>
        postPacket st tid (p.pa + 32 * i)
          (carryRange (postedPacket tyPosted (p.pa + 32 * i) ((bs.drop (32 * i)).take 32)) p.range)) s1
    else match (if p.global then lineAccess s1 (some (thr s tid).core) p.pa p.range true else .ok s1) with
      | .error _ => s1
      | .ok s2 => storeBytes s2 p.loc bs

/-- The header that an address names, as a number: another address of one physical header names the same ring. -/
def ringKey (s0 : State) (space : Space) (i hdr : Nat) : Nat :=
  match laneCheck s0 i space hdr 64 .rd false with
  | .ok (_, p) => if p.remote then 2 ^ 70 + p.pa else p.loc
  | .error _ => 2 ^ 80 + hdr

/-- The threads of the instruction that name the same ring, in ascending lane order. -/
def ringMates (s0 : State) (o : Ops) (needs : List (Src × Need)) (space : Space) (hdr : Nat → Nat) (tid : Nat) : List Nat :=
  (takesPart s0 o needs).filter fun i => ringKey s0 space i (hdr i) == ringKey s0 space tid (hdr tid)

/-- The mark of a publication whose records are on their way to another module. -/
def publishMark (p : Place) : Nat := 2 ^ 62 + p.pa

/-- Whether the records of a ring are on their way: those of some of these threads, or of others. -/
def publishing (s : State) (p : Place) (who : Nat → Bool) : Bool :=
  p.global && s.threads.any fun e => who e.1 && e.2.pend.any fun x => x.pieces.any fun q => q.idx == publishMark p

/-- Whether some slot of a publication, or the header, lies on another module. -/
def publishesFar (s : State) (tid : Nat) (space : Space) (p : Place) (v : RingView) (size m : Nat) : Bool :=
  p.remote || (List.range m).any fun i =>
    match laneCheck s tid space (slotEa v size i) size .wr false with
    | .ok (_, q) => q.remote
    | .error _ => false

/-- The records of a publication leave; the lowest thread of the ring keeps the mark until they are acknowledged, since the
notify write releases them (R45, R454). -/
def sendRecords (s0 : State) (lead : Nat) (space : Space) (v : RingView) (size : Nat) (mates : List Nat) (p : Place)
    (record : Nat → List Byte) : State :=
  let s1 := (List.range mates.length).foldl (fun st i =>
    let j := mates.getD i lead
    putBytes st j space (slotEa v size i) (record j)) s0
  let piece : PendPiece := { port := 0, tag := 0, idx := publishMark p, size := 0, val := some 0, fault := 0 }
  modThr s1 lead fun t =>
    { t with pend := t.pend ++ [{ dst := .latchOnly, k := answerMark s0, live := false, wide := false, tag := 0,
                                  flag := none, pieces := [piece] }] }

/-- One thread's part of a publishing instruction (R348): its record goes to the slot its rank gives it, and the last of
the ring's threads writes the notify word. Records on their way to another module are acknowledged first (R454); until
then no other gathering of this module publishes to the ring (log entry 28). -/
def publish (s0 s : State) (tid : Nat) (space : Space) (hdr : Nat → Nat) (size limOff : Nat) (mates : List Nat) (own : Bool)
    (record : Nat → List Byte) (d : Dst) (bound : State → State) : LaneRes :=
  let m := mates.length
  let i := mates.findIdx (· == tid)
  let lead := mates.headD tid
  match ringCheck s0 lead space (hdr lead) size limOff m own with
  | .trap e => .trap e
  | .stall s' => .stall s'
  | .ok _ p v =>
    let ours := publishing s0 p mates.contains
    let finish (st : State) : LaneRes :=
      let s2 := writeDst st tid d ((v.pub + i + 1) % 2 ^ 48)
      .done (if i + 1 == m then bound (putBytes s2 tid space (hdr tid) (leBytes 8 ((v.pub + m) % 2 ^ 48))) else s2)
    if ours then
      -- a lost record's release never completes: the hold finds it (R455)
      if mates.any fun j => (thr s0 j).posted.any Posted.lost then .hold postedHold
      else if mates.any fun j => !(thr s0 j).posted.isEmpty then .stall s0
      else finish s
    else if mates.any fun j => releaseWaits s0 j true then .hold postedHold
    else if ringFull v m then .hold (ringHold space (hdr tid) limOff m)
    else if publishing s0 p fun j => !mates.contains j then .stall s0
    else if publishesFar s0 lead space p v size m then
      if portsFull s0 (dieOfThr s0 tid) then .stall s0
      else .stall (sendRecords s0 lead space v size mates p record)
    else finish (putBytes s tid space (slotEa v size i) (record tid))

/-! ### Reaping (R361, R498) -/

/-- The test of a reaper: record k, of `size` bytes with ENTRY in its last doubleword, of the ring at a header whose
entries have `slot` bytes. While it is not written the reaper waits; a later record traps ILLEGAL_FIELD. -/
def reapTest (s : State) (tid hdr k slot size : Nat) (d : Dst) (window : Bool) : WaitRes :=
  match peekWords s s tid .global hdr 5 with
  | .ok s1 h =>
    let pub := h % 2 ^ 48
    let n := bits h (64 * 4 + 4) (64 * 4)
    if window && 2 ^ n ≤ sub48 pub k then .trap (trapOf cIllegalField none)
    else
      let rec_ := bits h (64 * 4 - 1) (64 * 3) + slot * 2 ^ n + size * slotIndex k n
      match peek s s1 tid .global ((rec_ + size - 8) % 2 ^ 64) 8 with
      | .ok s2 e =>
        let diff := sub48 (e % 2 ^ 48) k
        if diff == 0 then
          match peekWords s s2 tid .global (rec_ % 2 ^ 64) (size / 8) with
          | .ok s3 v => .done (writeDst s3 tid d v)
          | .trap i => .trap i
          | .abort s3 => .abort s3
          | .sent s3 _ => .no s3
          | .stall s3 => .ask s3
        else if diff < 2 ^ 47 then .trap (trapOf cIllegalField none)
        else .no s2
      | .trap i => .trap i
      | .abort s2 => .abort s2
      | .sent s2 _ => .no s2
      | .stall s2 => .ask s2
  | .trap i => .trap i
  | .abort s1 => .abort s1
  | .sent s1 _ => .no s1
  | .stall s1 => .ask s1

/-- The checks of a reaper's operands, then its wait. -/
def reap (s : State) (tid : Nat) (code hdr k : Nat) (b : Word) (slot size : Nat) (d : Dst) : LaneRes :=
  if hdr % 64 != 0 then .trap (trapOf cMisaligned (some hdr))
  else if 2 ^ 48 ≤ k then .trap (trapOf cIllegalField none)
  else waitOn { code, a := BitVec.ofNat 64 hdr, b, dst := d, var := 0 } (reapTest s tid hdr k slot size d true)

end Sys2Proof.Machine
end

