-- ==== Sys2Proof/Machine/Storage.lean ====
section
/-! DEFINITION. Class 0x7: publishing copy entries, requests and job cards, named tasks, and reaping (R347 to R352, R360,
R361). -/

namespace Sys2Proof.Machine

/-! ### Publishing (R349, R360) -/

/-- The offsets of TAKEN and ACC in a header, which R30 takes a ring's limit from. -/
def limTaken : Nat := 8
def limAcc : Nat := 16

/-- A copy ring bound to the quad's copy engine by its publication (R28, R315). A ring at that header of a workgroup that
has ended is unbound, all its entries being complete (R157). -/
def bindCopyRing (s : State) (core hdr wg : Nat) : State :=
  modQuad s (quadOfCore core) fun q =>
    if q.rings.any fun r => r.loc == .carrel core hdr && r.wg == wg then q
    else { q with rings := (q.rings.filter fun r => r.loc != .carrel core hdr) ++ [{ loc := .carrel core hdr, wg, done := [], faulted := false }] }

/-- CQPUB (R349). -/
def execCqpub (o : Ops) (_m : M7) (s : State) : Host.Outcome State Fault Refusal :=
  laneOp o [(o.a, .raw)] (fun s0 s tid =>
    let t := thr s tid
    let hdr (i : Nat) : Nat := copyHeader (thr s0 i)
    let mates := ringMates s0 o [(o.a, .raw)] .carrel hdr tid
    outsideTx s tid (publish s0 s tid .carrel hdr 32 limTaken mates true (fun i => leBytes 32 (srcW (thr s0 i) o.a)) o.d
      fun st => bindCopyRing st t.core (hdr tid) (tidWg tid))) s

/-- A publication of a 64-byte record to the global ring whose header is in B (R360). -/
def publish64 (o : Ops) (s : State) : Host.Outcome State Fault Refusal :=
  let needs : List (Src × Need) := [(o.a, .raw), (o.b, .word), (o.c, .raw)]
  laneOp o needs (fun s0 s tid =>
    let hdr (i : Nat) : Nat := srcN (thr s0 i) o.b
    let record (i : Nat) : List Byte := leBytes 32 (srcW (thr s0 i) o.a) ++ leBytes 32 (srcW (thr s0 i) o.c)
    outsideTx s tid
      (publish s0 s tid .global hdr 64 limAcc (ringMates s0 o needs .global hdr tid) false record o.d id)) s

/-- NVSUB (R360). -/
def execNvsub (o : Ops) (_m : M7) (s : State) : Host.Outcome State Fault Refusal := publish64 o s

/-- JCARD (R360). -/
def execJcard (o : Ops) (_m : M7) (s : State) : Host.Outcome State Fault Refusal := publish64 o s

/-! ### Tasks (R350, R351) -/

/-- Whether a DEPSET of a thread is still on its way. -/
def depsetWaits (s : State) (tid : Nat) : Bool :=
  s.quads.any fun q => q.2.msgs.any fun m => match m with
    | .set _ _ i => i == tid
    | .dec _ => false

/-- DEPSET (R350): the set goes to the quad's scheduler, and the thread goes on once it has been applied. -/
def execDepset (o : Ops) (m : M7) (s : State) : Host.Outcome State Fault Refusal :=
  laneOp o [(o.a, .word), (o.b, .word)] (fun s0 s tid =>
    let t := thr s tid
    let a := srcN t o.a
    let b := srcN t o.b
    outsideTx s tid
      (if 2 ^ 14 ≤ a || 2 ^ 16 ≤ b then .trap (trapOf cIllegalField none)
       else if releaseWaits s0 tid (releases m.ord) then .hold postedHold
       else .wait (modQuad s (bits a 13 8) fun q => { q with msgs := q.msgs ++ [.set (a % 256) (BitVec.ofNat 16 b) tid] })
         { code := 63, a := 0, b := 0, dst := .latchOnly, var := holdDepset })) s

/-- DEPQ (R351). -/
def execDepq (o : Ops) (_m : M7) (s : State) : Host.Outcome State Fault Refusal :=
  laneOp o [(o.a, .word)] (fun _ s tid =>
    let a := srcN (thr s tid) o.a
    let k := taskOf s a
    outsideTx s tid
      (if 2 ^ 14 ≤ a then .trap (trapOf cIllegalField none)
       else .done (writeDst s tid o.d (k.count.toNat + if k.under then 2 ^ 16 else 0)))) s

/-! ### Frontiers and records (R352, R361) -/

/-- ACCQ (R352): A is the header, or the ring of CQHDR when A is g0. -/
def execAccq (o : Ops) (_m : M7) (s : State) : Host.Outcome State Fault Refusal :=
  laneOp o [(o.a, .word)] (fun s0 s tid =>
    let t := thr s tid
    let own := o.a == .reg (.g 0)
    let hdr := if own then copyHeader t else srcN t o.a
    outsideTx s tid
      (if !own && hdr % 64 != 0 then .trap (trapOf cMisaligned (some hdr))
       else match peek s0 s tid (if own then .carrel else .global) (hdr + limAcc) 8 with
         | .ok s1 v => .done (writeDst s1 tid o.d (v % 2 ^ 48))
         | r => storeRes r)) s

/-- NVREAP of a request's 16-byte record (R361). -/
def execNvreapReq (o : Ops) (_m : M7) (s : State) : Host.Outcome State Fault Refusal :=
  laneOp o [(o.a, .word), (o.b, .word)] (fun _ s tid =>
    let t := thr s tid
    outsideTx s tid (reap s tid 5 (srcN t o.a) (srcN t o.b) (srcWord t o.b) 64 16 o.d)) s

/-- NVREAP of a card's 32-byte record (R361). -/
def execNvreapCard (o : Ops) (_m : M7) (s : State) : Host.Outcome State Fault Refusal :=
  laneOp o [(o.a, .word), (o.b, .word)] (fun _ s tid =>
    let t := thr s tid
    outsideTx s tid (reap s tid 5 (srcN t o.a) (srcN t o.b) (srcWord t o.b ||| 0x8000000000000000) 64 32 o.d)) s

end Sys2Proof.Machine
end

