-- ==== Sys2Proof/Machine/Matrix.lean ====
section
/-! DEFINITION. Class 0x6: the catalog, the checks of acceptance (R292 to R295), the queue, and the instructions as their
threads issue them (R268, R269, R296 to R313). What the engine then does is in `Machine/MatrixRun.lean`. -/

namespace Sys2Proof.Machine

/-! ### The catalog (R277, R278) -/

/-- Entry e of a core's catalog. -/
def catOf (s : State) (c e : Nat) : Nat := (tgetD (coreOf s c).mx.catalog e 0).toNat

/-- Sets an entry. -/
def setCat (s : State) (c e v : Nat) : State :=
  modMx s c fun x => { x with catalog := tset x.catalog e (BitVec.ofNat 64 v) }

/-- The fields of an entry. -/
def catState (v : Nat) : Nat := bits v 63 62
def catFault (v : Nat) : Bool := bit v 61
def catTag (v : Nat) : FTag := BitVec.ofNat 9 (bits v 60 52)
def catFills (v : Nat) : Nat := bits v 51 44
def catBase (v : Nat) : Nat := bits v 31 20 * 256
def catLen (v : Nat) : Nat := bits v 19 11 * 256

/-- The states of an entry. -/
def catEmpty : Nat := 0
def catFilling : Nat := 1
def catReady : Nat := 2
def catDraining : Nat := 3

/-- An entry in another state. -/
def withState (v st : Nat) : Nat := v % 2 ^ 62 + st * 2 ^ 62

/-- A filler binds an entry: EMPTY to FILLING. -/
def catBind (s : State) (c e : Nat) : State := setCat s c e (withState (catOf s c e) catFilling)

/-- A fill has performed its last write: READY, FILLS + 1; an epilogue fill sets TAG. -/
def catFilled (s : State) (c e : Nat) (tag : Option FTag) : State :=
  let v := catOf s c e
  let fills := (catFills v + 1) % 256
  let t := (tag.getD (catTag v)).toNat
  setCat s c e (catReady * 2 ^ 62 + (if catFault v then 2 ^ 61 else 0) + t * 2 ^ 52 + fills * 2 ^ 44 + v % 2 ^ 44)

/-- A fill is abandoned: EMPTY with FAULT. -/
def catAbandon (s : State) (c e : Nat) : State :=
  setCat s c e (catOf s c e % 2 ^ 61 + 2 ^ 61)

/-- The catalog entry that an instruction names (R279). -/
def namedTile (i : Instr) (a : Nat) : Option Nat :=
  match i with
  | .mma _ m => if mmaCat m then some (a % 64) else none
  | .mdrainFree _ _ => some (a % 64)
  | _ => none

/-- R293: the tile it names is READY, the writers of what it reads have completed, and the queue has a free place. -/
def canAccept (s : State) (core : Nat) (i : Instr) (a b : Nat) : Bool :=
  let q := (coreOf s core).mx.queue
  (match namedTile i a with
    | some e => catState (catOf s core e) == catReady
    | none => true) &&
  !(q.any fun x => (itemWrites x).any (readsOf i b).contains) && q.length < 16

/-! ### The configuration a queued drain will find (R304, R307) -/

/-- The epilogue configuration after everything queued. -/
def lastEpi (x : Matrix) : List Word :=
  x.queue.foldl (fun acc it =>
    match it.work with
    | .ins (.mepi _ _) => it.words
    | _ => acc) x.epi

/-- A routing register with TSEQ one higher. -/
def bumpSeq (r : List Word) : List Word :=
  let w := (r.headD 0).toNat
  BitVec.ofNat 64 ((w / 2 ^ 32 + 1) % 2 ^ 32 * 2 ^ 32 + w % 2 ^ 32) :: r.drop 1

/-- The routing register after everything queued. -/
def lastRoute (x : Matrix) : List Word :=
  x.queue.foldl (fun acc it =>
    match it.work with
    | .ins (.mroute _ _) => it.words
    | .ins (.mdrainRoute _ _) => bumpSeq acc
    | _ => acc) x.route

/-- Word k of a configuration. -/
def cfgWord (ws : List Word) (k : Nat) : Nat := (ws.getD k 0).toNat

/-- The bias array of a configuration, if it uses one (R304). -/
def biasAddr (ws : List Word) : Option Nat :=
  if bits (cfgWord ws 0) 12 11 == 0 then none else some (cfgWord ws 2 % 2 ^ 56)

/-- R304: a nonzero RZ field of a configuration. -/
def epiRz (ws : List Word) : Bool :=
  bits (cfgWord ws 0) 31 13 != 0 || bits (cfgWord ws 0) 5 3 != 0 || 2 ^ 56 ≤ cfgWord ws 2 || (ws.drop 3).any (· != 0)

/-- R304: what a configuration may not have: such a field, a reserved code, or a CLAMP that is a NaN or below zero. -/
def epiBad (ws : List Word) : Bool :=
  let w0 := cfgWord ws 0
  let clamp := cfgWord ws 1 / 2 ^ 32
  epiRz ws || bits w0 12 11 == 3 || 2 < bits w0 10 8 || 4 < bits w0 2 0 || isNan (decodeFloat .f32 clamp) ||
  cmpNum (decodeFloat .f32 clamp) (.fin false 0 0) < 0

/-- A configuration as it is stored: SEED 0 stores 1. -/
def epiStored (ws : List Word) : List Word :=
  match ws with
  | [] => []
  | w :: rest => (if w.toNat / 2 ^ 32 == 0 then w + 0x100000000 else w) :: rest

/-- R307: a nonzero RZ field. -/
def routeBad (ws : List Word) : Bool :=
  bits (cfgWord ws 0) 31 17 != 0 || 2 ^ 56 ≤ cfgWord ws 1 || 2 ^ 15 ≤ cfgWord ws 2 || (ws.drop 3).any (· != 0)

/-! ### The checks of acceptance (R294) -/

/-- Memory that an instruction will touch: its space, access, runs, and whether poison there traps. -/
structure MRuns where
  space : Space
  acc : Acc
  runs : List (Nat × Nat)
  sour : Bool

/-- What an instruction has checked at acceptance, in the order of R294; `field` is the cause of item 3. -/
structure MPlan where
  fmt : Bool
  field : Option (BitVec 8)
  align : List (Nat × Nat)
  mem : List MRuns
  tiles : List Reg
  rows : List Nat

/-- A plan that checks nothing. -/
def MPlan.none : MPlan := { fmt := false, field := Option.none, align := [], mem := [], tiles := [], rows := [] }

/-- ILLEGAL_FIELD when a condition holds. -/
def illegalIf (b : Bool) : Option (BitVec 8) := if b then some cIllegalField else none

/-- A stride that R295 refuses for rows of n bytes. -/
def strideBad (v n : Nat) : Bool := v % 64 != 0 || 2 ^ 32 ≤ v || v < n

/-- Rows of n bytes at a stride. -/
def strideRuns (ea stride n rows : Nat) : List (Nat × Nat) := (List.range rows).map fun i => ((ea + stride * i) % 2 ^ 64, n)

/-- The runs of a tile move: 128 rows of 64 bytes, and the side array of a block-scaled type (R301, R302). -/
def tileRuns (t : Fmt) (ea stride : Nat) : List (Nat × Nat) :=
  strideRuns ea stride 64 128 ++ (if isBs t then [((ea + 128 * stride) % 2 ^ 64, 2048)] else [])

/-- The runs of one folio row from a source (R300). -/
def rowRuns (ea layout n : Nat) : List (Nat × Nat) :=
  let base := (ea + layout / 2 ^ 32 * n) % 2 ^ 64
  if layout % 2 ^ 32 == 64 then [(base, 8192)] else strideRuns base (layout % 2 ^ 32) 64 128

/-- Bytes of an output row (R306). -/
def outRow (t : Fmt) : Nat := 16 * fmtWidth t

/-- The space of a variant. -/
def spaceIn (m : M6) : Space := (varSpace m.var).getD .global

/-- The bias that a drain will read. -/
def biasRuns (ws : List Word) : List MRuns :=
  match biasAddr ws with
  | some a => [{ space := .global, acc := .rd, runs := [(a, 512)], sour := true }]
  | none => []

/-- The alignment of the bias array. -/
def biasAlign (ws : List Word) : List (Nat × Nat) :=
  match biasAddr ws with
  | some a => [(a, 512)]
  | none => []

/-- The tile a source names, as a register. -/
def srcReg (x : Src) : List Reg :=
  match x with
  | .reg r => [r]
  | .latch _ => []
def dstRegs (d : Dst) : List Reg :=
  match d with
  | .reg r => [r]
  | .latchOnly => []

/-- The tag check of folio rows; a row past the last has no tag (log entry 31). -/
def rowTagBad (x : Matrix) (r : Nat) (t : Fmt) : Bool := r < 384 && tagBad (tgetD x.rowTag r 0) t

/-- The tag of an MMA's A operand: its catalog entry's, or its t-tile's (R298). -/
def mmaTagA (s : State) (core : Nat) (o : Ops) (m : M6) (a : Nat) : FTag :=
  if mmaCat m then catTag (catOf s core (a % 64))
  else match o.a with
    | .reg (.t n) => tgetD (coreOf s core).mx.ttag n.toNat 0
    | _ => 0

/-- The tag of an MMA's B operand: its folio row's. -/
def mmaTagB (s : State) (core : Nat) (m : M6) (b : Nat) : FTag := tgetD (coreOf s core).mx.rowTag (mmaRow m b) 0

/-- MMA (R298, R299). -/
def mmaPlan (s : State) (core : Nat) (o : Ops) (m : M6) (a b : Nat) : MPlan :=
  let x := (coreOf s core).mx
  let r := mmaRow m b
  let scale := hasScale m.tb
  let v := catOf s core (a % 64)
  let tagA := mmaTagA s core o m a
  let need := if isBs m.ta then 40 * 256 else 32 * 256
  { fmt := tagBad tagA m.ta || rowTagBad x r m.tb || (scale && r + 1 < 384 && tgetD x.rowTag (r + 1) 0 != 0)
    field := illegalIf ((mmaCat m && (64 ≤ a || catLen v < need)) || 383 < r || (scale && 383 < r + 1))
    align := []
    mem := if mmaCat m then [{ space := .carrel, acc := .rd, runs := [(catBase v, need)], sour := true }] else []
    tiles := (if mmaCat m then [] else srcReg o.a) ++ (if m.ovw then [] else dstRegs o.d)
    rows := mmaRows m b }

/-- MFOLIO (R273, R300). -/
def fillPlan (m : M6) (a b c : Nat) : MPlan :=
  let n := fillCount m
  { MPlan.none with
    field := illegalIf (n == 0 || 384 < n || 384 < fillFirst m c + n || b % 2 ^ 32 % 64 != 0 || b % 2 ^ 32 < 64 ||
      b / 2 ^ 32 % 64 != 0)
    align := [(a, 64)]
    mem := [{ space := spaceIn m, acc := .rd, runs := (List.range n).flatMap (rowRuns a b), sour := false }] }

/-- MLDT (R301). -/
def loadPlan (m : M6) (a b : Nat) : MPlan :=
  { MPlan.none with
    field := illegalIf (strideBad b 64)
    align := [(a, 64)]
    mem := [{ space := spaceIn m, acc := .rd, runs := tileRuns m.ta a b, sour := false }] }

/-- MSTT (R302). -/
def storePlan (s : State) (core : Nat) (o : Ops) (m : M6) (a c : Nat) : MPlan :=
  let wide := srcA o.b
  let bad := match o.b with
    | .reg (.t n) => tagBad (tgetD (coreOf s core).mx.ttag n.toNat 0) m.ta
    | _ => false
  { MPlan.none with
    fmt := bad
    field := illegalIf (strideBad c (if wide then 512 else 64))
    align := [(a, 64)]
    mem := [{ space := spaceIn m, acc := .wr,
              runs := if wide then strideRuns a c 512 128 else tileRuns m.ta a c, sour := false }]
    tiles := srcReg o.b }

/-- MDRAIN .st and .add (R305, R306). -/
def drainPlan (s : State) (core : Nat) (o : Ops) (m : M6) (b c : Nat) (add : Bool) : MPlan :=
  let epi := lastEpi (coreOf s core).mx
  let runs := strideRuns b c (outRow m.tb) 128
  { MPlan.none with
    field := illegalIf (strideBad c (outRow m.tb))
    align := (b, 64) :: biasAlign epi
    mem := (if add then [{ space := spaceIn m, acc := .rd, runs, sour := true }] else []) ++
      [{ space := spaceIn m, acc := .wr, runs, sour := false }] ++ biasRuns epi
    tiles := srcReg o.a }

/-- The loaded plan of the routing register and what R477 has a routed drain check, in its order. -/
def routeField (s : State) (core ctx : Nat) (ot : Fmt) (r : List Word) : Option (BitVec 8) :=
  let w0 := cfgWord r 0
  let wb := fmtWidth ot / 8
  if !bit w0 16 then some cIllegalField
  else match tget (dieOf s (dieOfCore core)).coll.plans (w0 % 2 ^ 16) with
    | none => some cProtection
    | some p =>
      let h := cfgWord p.words 0
      let op := bits h 34 32
      if p.context != ctx then some cProtection
      else illegalIf (op == 0 || op == 4 || 5 < op || bits h 41 36 != (fmtCode ot).toNat ||
        cfgWord r 1 % (32 * wb) != 0 || cfgWord p.words 2 % 2 ^ 32 < cfgWord r 1 + 16384 * wb * (w0 / 2 ^ 32 + 1))

/-- MDRAIN .route (R306, R307, R477). -/
def routePlan (s : State) (core ctx : Nat) (o : Ops) (m : M6) : MPlan :=
  let x := (coreOf s core).mx
  { MPlan.none with
    field := routeField s core ctx m.tb (lastRoute x)
    align := biasAlign (lastEpi x)
    mem := biasRuns (lastEpi x)
    tiles := srcReg o.a }

/-- MDRAIN .cat (R306). -/
def catPlan (s : State) (core : Nat) (o : Ops) (m : M6) (b : Nat) : MPlan :=
  let x := (coreOf s core).mx
  let v := catOf s core (b % 64)
  { MPlan.none with
    field := illegalIf (64 ≤ b || catLen v == 0 || catLen v < 128 * outRow m.tb)
    align := biasAlign (lastEpi x)
    mem := biasRuns (lastEpi x)
    tiles := srcReg o.a }

/-- MEPI and MROUTE (R304, R307). -/
def configPlan (m : M6) (a : Nat) : MPlan :=
  { MPlan.none with
    align := [(a, 64)]
    mem := [{ space := spaceIn m, acc := .rd, runs := [(a, 64)], sour := true }] }

/-- The plan of a queued instruction. -/
def planOf (s : State) (core ctx : Nat) (i : Instr) (a b c : Nat) : MPlan :=
  match i with
  | .mma o m => mmaPlan s core o m a b
  | .mfolio _ m => fillPlan m a b c
  | .mldt _ m => loadPlan m a b
  | .mstt o m => storePlan s core o m a c
  | .mdrainSt o m => drainPlan s core o m b c false
  | .mdrainAdd o m => drainPlan s core o m b c true
  | .mdrainRoute o m => routePlan s core ctx o m
  | .mdrainCat o m => catPlan s core o m b
  | .mdrainFree _ _ => { MPlan.none with field := illegalIf (64 ≤ a) }
  | .mepi _ m | .mroute _ m => configPlan m a
  | _ => MPlan.none

/-- The roles that may issue an instruction (R268). -/
def roleAllows (i : Instr) (r : Role) : Bool :=
  match i with
  | .mma _ _ | .mfolio _ _ | .mldt _ _ | .mzero _ _ => r == .matrix
  | .mstt _ _ | .mdrainSt _ _ | .mdrainAdd _ _ | .mdrainRoute _ _ | .mdrainCat _ _ | .mdrainFree _ _ | .mepi _ _
  | .mroute _ _ => r == .matrix || r == .epilogue
  | _ => true

/-- Role and ownership (R267, R268). -/
def mayDrive (s : State) (tid : Nat) (i : Instr) : Bool :=
  let w := wgOf s (tidWg tid)
  w.owner && roleAllows i (w.roles.getD (tidQuire tid) .general)

/-- The first run outside the 56 bits of a translated space (R203). -/
def rangeBad (x : MRuns) : Option Nat :=
  match x.space with
  | .global | .host => (x.runs.find? fun r => 2 ^ 56 < r.1 + r.2).map Prod.fst
  | _ => none

/-- Whether a tile's error flag is set. -/
def tileFlagged (x : Matrix) (r : Reg) : Bool := (tileCode r).any x.err.contains

/-- The line checks and poison of spans that an accepted instruction will touch. -/
def spanTrap (s : State) (x : MRuns) (sp : List Span) : Option TrapInfo :=
  match sp.findSome? fun q =>
      if q.place.remote then none
      else match engineLines s q.place q.len (x.acc == .wr) with
        | .error c => some (trapCode (c, none) q.ea)
        | .ok _ => none with
  | some i => some i
  | none =>
    if x.sour then
      (sp.find? fun q => !q.place.remote && poisoned s q.place.loc q.len).map fun q => trapOf cPoison (some q.ea)
    else none

/-- The spans of a plan's memory. -/
def planSpans (s : State) (p : Party) (ms : List MRuns) : Except EngFault (State × List (MRuns × List Span)) :=
  ms.foldl (fun acc x =>
    match acc with
    | .error e => .error e
    | .ok (s1, xs) =>
      match spansOfRuns s1 p x.space x.acc x.runs with
      | .error e => .error e
      | .ok (s2, sp) => .ok (s2, xs ++ [(x, sp)])) (.ok (s, []))

/-- The checks of R294 in their order: a trap, or the state after translation and the spans of what will be touched. -/
def checkPlan (s : State) (tid : Nat) (i : Instr) (p : MPlan) : Except TrapInfo (State × List (MRuns × List Span)) :=
  let x := (coreOf s (thr s tid).core).mx
  if p.fmt then .error (trapOf cFormatMismatch none)
  else if !mayDrive s tid i then .error (trapOf cProtection none)
  else match p.field with
  | some c => .error (trapOf c none)
  | none =>
  match p.align.find? fun q => q.1 % q.2 != 0 with
  | some q => .error (trapOf cMisaligned (some q.1))
  | none =>
  match p.mem.findSome? rangeBad with
  | some ea => .error (trapOf cProtection (some ea))
  | none =>
  match planSpans s (partyOf s tid) p.mem with
  | .error e => .error (engTrap e)
  | .ok (s1, xs) =>
  match p.tiles.find? (tileFlagged x) with
  | some r => .error (trapOf cEccUncorrected (some (srcCode (.reg r)).toNat))
  | none =>
  if p.rows.any fun r => !x.rowGood.contains r then .error (trapOf cPoison none)
  else match xs.findSome? fun q => spanTrap s1 q.1 q.2 with
    | some t => .error t
    | none => .ok (s1, xs)

/-- Two runs of cells as one where the second goes on from the first. -/
def joinRun (acc : List (Nat × Nat × Bool)) (x : Nat × Nat × Bool) : List (Nat × Nat × Bool) :=
  match acc with
  | [] => [x]
  | y :: rest => if y.1 + y.2.1 == x.1 && y.2.2 == x.2.2 then (y.1, y.2.1 + x.2.1, y.2.2) :: rest else x :: acc

/-- The cells of spans: first cell, number, and whether they are written. -/
def touchOf (xs : List (MRuns × List Span)) : List (Nat × Nat × Bool) :=
  (xs.flatMap fun x => x.2.map fun q => (q.place.loc, q.len, x.1.acc == .wr)).foldl joinRun []

/-! ### Acceptance (R293) -/

/-- What an attempt at acceptance finds: `waits` while another module has to answer first. -/
inductive MRes where
  | go (s : State) (x : MItem)
  | held
  | waits (s : State)
  | trap (i : TrapInfo)

/-- The engine's accesses for an instruction of a thread (R269). -/
def laneWriter (s : State) (tid : Nat) : Writer :=
  { die := dieOfThr s tid, flow := 0, owner := .thread tid, context := (wgOf s (tidWg tid)).context }

/-- The doublewords that MEPI or MROUTE reads at acceptance. -/
def configWords (s : State) (tid : Nat) (space : Space) (a : Nat) (pages : List (Nat × Nat × Nat)) : State × List Word :=
  match readSpans s (laneWriter s tid) (heldSpans s (partyOf s tid) space .rd pages a 64 4) with
  | .error _ => (s, List.replicate 8 0)
  | .ok (s1, bs, _) => (s1, bytesWords bs)

/-- Poison in another module's memory that an instruction computes on: known once its home has answered (R258, R294). -/
def farPoison (s : State) (w : Writer) (xs : List (MRuns × List Span)) : Except EngStop (Option Nat) :=
  let far := xs.flatMap fun q => if q.1.sour then q.2.filter fun x => x.place.remote else []
  match readSpans s w far with
  | .error e => .error e
  | .ok (_, _, _) =>
    .ok ((far.find? fun x => match readSpan s w x with
      | .ok (_, _, bad) => bad.any id
      | .error _ => false).map Span.ea)

/-- The xv registers that the f4x operands of an MMA take their code 0x8 from (R96, R298). -/
def mmaXv (s : State) (core : Nat) (i : Instr) (a b : Nat) : List Nat :=
  match i with
  | .mma o m =>
    (if m.ta == .f4x then [(mmaTagA s core o m a).toNat / 64] else []) ++
    (if m.tb == .f4x then [(mmaTagB s core m b).toNat / 64] else [])
  | _ => []

/-- The queue's item for an instruction that has passed its checks. -/
def itemOf (s : State) (tids : List Nat) (i : Instr) (a b c : Word) (xs : List (MRuns × List Span)) (words : List Word) : MItem :=
  let t := thr s (tids.headD 0)
  let (ta, tb) := match i with
    | .mma o m => (mmaTagA s t.core o m a.toNat, mmaTagB s t.core m b.toNat)
    | _ => (0, 0)
  { work := .ins i, tids, a, b, c, xv := t.xv, pages := pagesOf (xs.flatMap Prod.snd), words,
    gen := genOf s (wgOf s (tidWg (tids.headD 0))).context, tagA := ta, tagB := tb, touch := touchOf xs }

/-- One attempt: the conditions of R293, the checks of R294, and the content of a configuration. -/
def tryAccept (s : State) (tids : List Nat) (i : Instr) (a b c : Word) : MRes :=
  let tid := tids.headD 0
  let t := thr s tid
  if !canAccept s t.core i a.toNat b.toNat then .held
  else match (mmaXv s t.core i a.toNat b.toNat).findSome? fun n => srcEcc t (.reg (.xv (BitVec.ofNat 3 n))) with
  | some f => .trap (trapOf cEccUncorrected (some f))
  | none =>
    match checkPlan s tid i (planOf s t.core (wgOf s (tidWg tid)).context i a.toNat b.toNat c.toNat) with
    | .error e => .trap e
    | .ok (s1, xs) =>
      match farPoison s1 (laneWriter s tid) xs with
      | .error (.waits s2) => .waits s2
      | .error (.fault e) => .trap (engTrap e)
      | .ok (some ea) => .trap (trapOf cPoison (some ea))
      | .ok none =>
        let words (m : M6) : State × List Word := configWords s1 tid (spaceIn m) a.toNat (pagesOf (xs.flatMap Prod.snd))
        let go (s2 : State) (ws : List Word) : MRes := .go (dropAsks s2 (.thread tid)) (itemOf s tids i a b c xs ws)
        match i with
        | .mepi _ m =>
          let (s2, ws) := words m
          if epiBad ws then .trap (trapOf cIllegalField none) else go s2 (epiStored ws)
        | .mroute _ m =>
          let (s2, ws) := words m
          if routeBad ws then .trap (trapOf cIllegalField none) else go s2 ws
        | _ => go s1 []

/-! ### Readers of an entry that drains (R278) -/

/-- A field of a slip's doubleword (R308). -/
def slipField (ws : List Word) (k hi lo : Nat) : Nat := bits (cfgWord ws k) hi lo

/-- Whether a slip names entry e of the core whose number within its quad is pc (R309). -/
def slipNames (ws : List Word) (pc e : Nat) : Bool :=
  !bit (cfgWord ws 0) 35 && slipField ws 3 33 32 == pc &&
  (e + 64 - slipField ws 1 5 0) % 64 ≤ slipField ws 0 63 58

/-- The address space of a workgroup's context. -/
def ringAsid (s : State) (wg : Nat) : Nat × Bool := ((wgOf s wg).asid.toNat, (wgOf s wg).priv)

/-- A quad's task scheduler as it serves a chain: its flow is the quad's number on the die (log entry 21). -/
def chainServer (s : State) (quad wg : Nat) (loc : RingLoc) : Server :=
  let (asid, priv) := ringAsid s wg
  { w := { die := quad / 16, flow := quad % 16, owner := .header quad loc, context := (wgOf s wg).context },
    asid, priv, chain := true, size := 32 }

/-- The words of an entry of a chain, once the module knows them: read in, or in its own memory. -/
def slipSeen (s : State) (quad : Nat) (r : Ring) (p : Place) (k : Nat) : Option (List Word) :=
  match (quadOf s quad).slips.find? fun x => x.ring == r.loc && x.k == k with
  | some x => some x.words
  | none =>
    match ringEntry s (chainServer s quad r.wg r.loc) r.loc p k with
    | .ok (_, ws) => some ws
    | .error _ => none

/-- The slips published so far that name entry e of a core and have not completed. One whose words another module still
holds counts until it is read in. -/
def slipsNaming (s : State) (core e : Nat) : List (RingLoc × Nat) :=
  let quad := quadOfCore core
  (quadOf s quad).chains.flatMap fun r =>
    let (asid, priv) := ringAsid s r.wg
    match ringPlaceOf s asid priv r.loc with
    | none => []
    | some (s1, p) =>
      ((openEntries s1 r p).filter fun k =>
        match slipSeen s1 quad r p k with
        | some ws => slipNames ws (core % 4) e
        | none => true).map fun k => (r.loc, k)

/-- An accepted instruction enters the queue; MDRAIN.free sets its entry DRAINING (R278). -/
def enqueue (s : State) (core : Nat) (x : MItem) : State :=
  let s1 := modMx s core fun q => { q with queue := q.queue ++ [x] }
  match x.work with
  | .ins (.mdrainFree _ _) =>
    let e := x.a.toNat % 64
    let s2 := setCat s1 core e (withState (catOf s1 core e) catDraining)
    let names := slipsNaming s2 core e
    modMx s2 core fun q => { q with drains := tset q.drains e names }
  | _ => s1

/-- The first held instruction that acceptance can settle, in the order they came. -/
def acceptHeld (s : State) (core : Nat) (before rest : List MHeld) : State :=
  match rest with
  | [] => s
  | h :: more =>
    match tryAccept (modMx s core fun q => { q with held := before ++ more }) h.tids h.ins h.a h.b h.c with
    | .held => acceptHeld s core (before ++ [h]) more
    | .waits s1 => acceptHeld (modMx s1 core fun q => { q with held := before ++ h :: more }) core (before ++ [h]) more
    | .go s1 x => h.tids.foldl wakeThread (enqueue s1 core x)
    | .trap i => h.tids.foldl (fun st t => wakeTrap st t i) (modMx s core fun q => { q with held := before ++ more })

/-- MATRIX_ACCEPT (R293). -/
def execMatrixAccept (core : Nat) (s : State) : Host.Outcome State Fault Refusal :=
  if 256 ≤ core then .fault .noSuchUnit else .next (acceptHeld s core [] (coreOf s core).mx.held)

/-! ### Issue (R269) -/

/-- The threads that an instruction acts for: those with a true guard, outside transactions, which it would abort (R165). -/
def matrixThreads (s0 : State) (o : Ops) : List Nat :=
  (gathering s0).filter fun i =>
    guardTrue (thr s0 i) o.gd && !(s0.issue.traps.any fun x => x.1 == i) && (txOf s0 i).isNone

/-- The operand needs of class 0x6: general registers as 64 bits; tiles and the slip need nothing here. -/
def matrixNeeds (o : Ops) : List (Src × Need) :=
  [o.a, o.b, o.c].filterMap fun x => if srcG x then some (x, .word) else none

/-- An instruction's operands as the threads but the lowest meet them: the guard and the destination alone (R269). -/
def soloOps (o : Ops) : Ops := { o with a := .reg (.g 0), b := .reg (.g 0), c := .reg (.g 0) }

/-- The operands of the lowest thread, which alone are read: a pending result stalls the instruction; a latch that holds no
fitting value, or a soft error, traps it. DESIGN CHOICE: every thread with a true guard takes that trap, as R269 says of a
trap of the engine's action (log entry 81). -/
def leadRead (s0 : State) (o : Ops) (needs : List (Src × Need)) (lead : Nat) (r : LaneRes) : LaneRes :=
  let t := thr s0 lead
  if mustStall t o then .stall s0
  else match operandTrap t needs with
    | some c => .trap (trapOf c none)
    | none =>
      match eccHit t o with
      | some f => .trap (trapOf cEccUncorrected (some f))
      | none => r

/-- A class 0x6 instruction: it acts once, with the registers of the lowest thread `lead` (R269). -/
def matrixLane (o : Ops) (needs : List (Src × Need)) (act : State → State → Nat → Nat → LaneRes) (s : State) :
    Host.Outcome State Fault Refusal :=
  laneOpWith (fun s0 i => opsBeyond (wgOf s0 (tidWg i)) (tidQuire i) o) (soloOps o) (fun _ _ => []) (fun s0 s tid =>
    let lead := (matrixThreads s0 o).headD tid
    outsideTx s tid (leadRead s0 o needs lead (act s0 s tid lead))) s

/-- The suspension until acceptance (R249 code 63). -/
def matrixWait : Wait := { code := 63, a := 0, b := 0, dst := .latchOnly, var := holdMatrix }

/-- A queued instruction: the engine acts once, with the lowest thread's registers; every thread takes its trap. -/
def matrixOp (i : Instr) (o : Ops) (s : State) : Host.Outcome State Fault Refusal :=
  matrixLane o (matrixNeeds o) (fun s0 s tid lead =>
    let tids := matrixThreads s0 o
    let t := thr s0 lead
    let a := srcWord t o.a
    let b := srcWord t o.b
    let c := srcWord t o.c
    let hold (st : State) : LaneRes :=
      .wait (if tid == lead then modMx st t.core fun q => { q with held := q.held ++ [⟨i, tids, a, b, c⟩] } else st) matrixWait
    match tryAccept s0 tids i a b c with
    | .trap e => .trap e
    | .held => hold s
    | .waits _ =>
      match tryAccept s tids i a b c with
      | .waits s1 => hold (if tid == lead then s1 else s)
      | _ => hold s
    | .go _ _ =>
      if tid == lead then
        match tryAccept s tids i a b c with
        | .go s1 x => .done (enqueue s1 t.core x)
        | _ => .done s
      else .done s) s

def execMma (o : Ops) (m : M6) (s : State) : Host.Outcome State Fault Refusal := matrixOp (.mma o m) o s
def execMfolio (o : Ops) (m : M6) (s : State) : Host.Outcome State Fault Refusal := matrixOp (.mfolio o m) o s
def execMldt (o : Ops) (m : M6) (s : State) : Host.Outcome State Fault Refusal := matrixOp (.mldt o m) o s
def execMstt (o : Ops) (m : M6) (s : State) : Host.Outcome State Fault Refusal := matrixOp (.mstt o m) o s
def execMzero (o : Ops) (m : M6) (s : State) : Host.Outcome State Fault Refusal := matrixOp (.mzero o m) o s
def execMdrainSt (o : Ops) (m : M6) (s : State) : Host.Outcome State Fault Refusal := matrixOp (.mdrainSt o m) o s
def execMdrainAdd (o : Ops) (m : M6) (s : State) : Host.Outcome State Fault Refusal := matrixOp (.mdrainAdd o m) o s
def execMdrainRoute (o : Ops) (m : M6) (s : State) : Host.Outcome State Fault Refusal := matrixOp (.mdrainRoute o m) o s
def execMdrainCat (o : Ops) (m : M6) (s : State) : Host.Outcome State Fault Refusal := matrixOp (.mdrainCat o m) o s
def execMdrainFree (o : Ops) (m : M6) (s : State) : Host.Outcome State Fault Refusal := matrixOp (.mdrainFree o m) o s
def execMepi (o : Ops) (m : M6) (s : State) : Host.Outcome State Fault Refusal := matrixOp (.mepi o m) o s
def execMroute (o : Ops) (m : M6) (s : State) : Host.Outcome State Fault Refusal := matrixOp (.mroute o m) o s

/-! ### Catalog instructions (R311 to R313) -/

/-- A catalog instruction: role and ownership, the entry number, then its action with the lowest thread's operands. -/
def catalogOp (i : Instr) (o : Ops) (act : State → State → Nat → Nat → Thread → LaneRes) (s : State) :
    Host.Outcome State Fault Refusal :=
  matrixLane o (matrixNeeds o) (fun s0 s tid lead =>
    let t := thr s0 lead
    let a := srcN t o.a
    if !mayDrive s0 lead i then .trap (trapOf cProtection none)
    else if 64 ≤ a then .trap (trapOf cIllegalField none)
    else act s0 s tid a t) s

/-- CATQ (R312). -/
def execCatq (o : Ops) (m : M6) (s : State) : Host.Outcome State Fault Refusal :=
  catalogOp (.catq o m) o (fun s0 s tid e t => .done (writeDst s tid o.d (catOf s0 t.core e))) s

/-- Whether an entry meets WHICH of a CATW (R313). -/
def catMet (which v : Nat) : Bool :=
  if which == 0 then catState v == catReady || (catState v == catEmpty && catFault v) else catState v == catEmpty

/-- The test of CATW; the entry it finds goes to the destination. -/
def catwTest (s : State) (tid e which : Nat) (d : Dst) : WaitRes :=
  let v := catOf s (thr s tid).core e
  if catMet which v then .done (writeDst s tid d v) else .no s

/-- CATW (R313). -/
def execCatw (o : Ops) (m : M6) (s : State) : Host.Outcome State Fault Refusal :=
  catalogOp (.catw o m) o (fun _ s tid e _ =>
    let which := varBits m.var 21 2
    waitOn { code := 4, a := BitVec.ofNat 64 e, b := BitVec.ofNat 64 which, dst := o.d, var := 0 }
      (catwTest s tid e which o.d)) s

/-- R311: what CATSET.def refuses of an image, given the entry and the workgroup. -/
def defBad (w : Workgroup) (old b : Nat) : Bool :=
  let tagOk := (List.range 64).any fun k => match fmtOf (BitVec.ofNat 6 k) with
    | some t => isTile t && !isB t && fmtCode t == BitVec.ofNat 6 (bits b 57 52) && (t == .f4x || bits b 60 58 == 0)
    | none => false
  -- a t-tile that holds raw bits has tag 0x000
  let raw := bits b 60 52 == 0
  catState old != catEmpty || bits b 63 61 != 0 || bits b 51 32 != 0 || bits b 10 0 != 0 || catLen b == 0 ||
  256 * 256 < catLen b || carrelBytes < catBase b + catLen b || !inCarrelRegion w (catBase b) (catLen b) ||
  !(tagOk || raw)

/-- CATSET.def (R311). -/
def execCatsetDef (o : Ops) (m : M6) (s : State) : Host.Outcome State Fault Refusal :=
  catalogOp (.catsetDef o m) o (fun s0 s tid e t =>
    let b := srcN t o.b
    if defBad (wgOf s0 t.wg) (catOf s0 t.core e) b then .trap (trapOf cIllegalField none)
    else .done (if tid == (matrixThreads s0 o).headD tid then setCat s t.core e b else s)) s

/-- CATSET.pub (R311): its release waits for posted writes (R454). -/
def execCatsetPub (o : Ops) (m : M6) (s : State) : Host.Outcome State Fault Refusal :=
  catalogOp (.catsetPub o m) o (fun s0 s tid e t =>
    let tids := matrixThreads s0 o
    let v := catOf s0 t.core e
    if catState v != catEmpty || catLen v == 0 then .trap (trapOf cIllegalField none)
    else if tids.any fun i => releaseWaits s0 i true then .hold postedHold
    else .done (if tid == tids.headD tid then catFilled s t.core e none else s)) s

/-! ### MSLIP (R310) -/

/-- Where a header's bytes are known to this module. -/
def headLoc (p : Place) : Nat := if p.remote then shadowLoc p.pa else p.loc

/-- Whether a ring is the one whose header is at a location. -/
def hasHeader (s : State) (l : Nat) (r : Ring) : Bool :=
  let (asid, priv) := ringAsid s r.wg
  match ringPlaceOf s asid priv r.loc with
  | some (_, p) => p.loc == l
  | none => false

/-- Whether a chain is bound: entries of it have not completed (R310). -/
def chainBusy (s : State) (r : Ring) : Bool :=
  let (asid, priv) := ringAsid s r.wg
  match ringPlaceOf s asid priv r.loc with
  | some (_, p) => hdrPub s p.loc != hdrAcc s p.loc
  | none => false

/-- The quad that an entry of `quads` stands for: a saved workgroup's chains stay those of the quad it left. -/
def quadOfEntry (s : State) (k : Nat) : Nat := if k < 64 then k else quadOfCore (wgOf s (k - 64)).leftCore

/-- Whether a quad other than this one serves the chain with a header, which is bound. -/
def chainElsewhere (s : State) (q l : Nat) : Bool :=
  s.quads.any fun e => quadOfEntry s e.1 != q && e.2.chains.any fun r => hasHeader s l r && chainBusy s r

/-- The chain with a header that this module has bound. -/
def boundChain (s : State) (l : Nat) : Option Ring := s.quads.findSome? fun e => e.2.chains.find? (hasHeader s l)

/-- A chain as a publication binds it: its publisher's workgroup gives the context. DESIGN CHOICE: a chain with entries open
that another context has named keeps the name and the context it has (log entry 82). -/
def rebind (s : State) (wg : Nat) (loc : RingLoc) (old : Option Ring) : Ring :=
  match old with
  | none => { loc, wg, done := [], faulted := false }
  | some r =>
    if !chainBusy s r then { loc, wg, done := [], faulted := r.faulted }
    else if (wgOf s r.wg).context == (wgOf s wg).context then { r with wg }
    else r

/-- Binds the chain with header p to a quad as PUB becomes `pub`. -/
def bindChain (s : State) (q wg : Nat) (loc : RingLoc) (p : Place) (old : Option Ring) (pub : Nat) : State :=
  let l := headLoc p
  let s1 := { s with quads := s.quads.map fun e => (e.1, { e.2 with chains := e.2.chains.filter fun r => some r != old }) }
  let s2 := modQuad s1 q fun x => { x with chains := x.chains ++ [rebind s wg loc old] }
  if p.remote then writeWord (if old.isNone then writeBytes s2 l (List.replicate 64 0) else s2) l pub else s2

/-- The space and address of a chain's header (R310). -/
def chainSpace (b : Nat) : Space := if bit b 63 then .rcarrel else .global
def chainEa (b : Nat) : Nat := if bit b 63 then b % 2 ^ 63 else b

/-- The name a chain is known by. -/
def chainLoc (s : State) (tid b : Nat) : RingLoc :=
  let t := thr s tid
  if bit b 63 then .carrel (dieOfCore t.core * 64 + b % 2 ^ 26 / 2 ^ 20) (b % 2 ^ 20)
  else .global (wgOf s (tidWg tid)).context (BitVec.ofNat 64 b)

/-- The slip as published: PCORE is the issuing core within its quad (R308). -/
def slipBytes (core v : Nat) : List Byte :=
  leBytes 32 (v - bits v 225 224 * 2 ^ 224 + core % 4 * 2 ^ 224)

/-- The header that B names, before the checks of its ring. -/
def chainPlace (s : State) (lead b : Nat) : Option (State × Place) :=
  match laneCheck s lead (chainSpace b) (chainEa b) 64 .rd false with
  | .ok x => some x
  | .error _ => none

/-- Whether a chain's header is not the issuing quad's to serve (R310). -/
def chainRefused (s : State) (lead core b : Nat) : Bool :=
  let q := quadOfCore core
  (bit b 63 && (dieOfCore core * 64 + b % 2 ^ 26 / 2 ^ 20) / 4 != q) ||
  (chainPlace s lead b).any fun x => chainElsewhere x.1 q (headLoc x.2)

/-- The number that a publication to a chain gives its slip. -/
def chainNext (s0 : State) (lead b : Nat) : Nat :=
  match ringCheck s0 lead (chainSpace b) (chainEa b) 32 limTaken 1 false with
  | .ok _ _ v => (v.pub + 1) % 2 ^ 48
  | _ => 0

/-- The publication of a slip binds its chain. -/
def chainBound (s0 : State) (lead core b : Nat) (st : State) : State :=
  match chainPlace s0 lead b with
  | none => st
  | some (_, p) =>
    bindChain st (quadOfCore core) (tidWg lead) (chainLoc s0 lead b) p (boundChain s0 (headLoc p)) (chainNext s0 lead b)

/-- MSLIP (R310): the lowest thread publishes, every thread receives the accession number. -/
def execMslip (o : Ops) (_m : M6) (s : State) : Host.Outcome State Fault Refusal :=
  matrixLane o [(o.a, .raw), (o.b, .word)] (fun s0 s tid lead =>
    let t := thr s0 lead
    let b := srcN t o.b
    if chainRefused s0 lead t.core b then .trap (trapOf cIllegalField none)
    else
      match publish s0 s lead (chainSpace b) (fun _ => chainEa b) 32 limTaken [lead] false
        (fun _ => slipBytes t.core (srcW t o.a)) o.d (chainBound s0 lead t.core b) with
      | .done s' => .done (if tid == lead then s' else writeDst s tid o.d (chainNext s0 lead b))
      | x => x) s

end Sys2Proof.Machine
end

