-- ==== Sys2Proof/Machine/Bank.lean ====
section
/-! DEFINITION. Class 0x8, bank arithmetic: BOP, BRED, BSORT, BTOPK (R365 to R368, R393 to R399). -/

namespace Sys2Proof.Machine

/-- The suspension of a class 0x8 instruction, whose operation has completed (R395). -/
def stacksWait : Wait := { code := 11, a := 0, b := 0, dst := .latchOnly, var := 0 }

/-- T of a bank instruction (R396). -/
def bankType (m : M7) : Fmt := (fmtOf (m.var.setWidth 6)).getD .none

/-- A row of n elements: an offset in the stacks of the issuing die. -/
structure BankRow where
  off : Nat
  n : Nat
  read : Bool
  deriving DecidableEq, Repr

/-- Whether a row crosses a bank boundary (R365). -/
def rowCrosses (w : Nat) (r : BankRow) : Bool := 0x200000 < r.off % 0x200000 + r.n * w / 8

/-- The checks of R398 on the count, the rows and their sectors. -/
def bankTrap (s : State) (die : Nat) (ty : Fmt) (n : Nat) (bad : Bool) (rows : List BankRow) : Option TrapInfo :=
  let w := fmtWidth ty
  let at_ (r : BankRow) : Nat := stacksLoc die r.off
  if n == 0 || bad || rows.any (rowCrosses w) then some (trapOf cIllegalField none)
  else if 65536 < n then some (trapOf cRowTooLong none)
  else match rows.find? fun r => r.off % (w / 8) != 0 with
    | some r => some (trapOf cMisaligned (some r.off))
    | none =>
      match rows.find? fun r => stacksBytes < r.off + r.n * w / 8 || reservedCells s (at_ r) (r.n * w / 8) with
      | some r => some (trapOf cProtection (some r.off))
      | none =>
        match rows.find? fun r => r.read && poisoned s (at_ r) (r.n * w / 8) with
        | some r => some (trapOf cPoison (some r.off))
        | none => none

/-- The elements of a row. -/
def bankRead (s : State) (die : Nat) (ty : Fmt) (off n : Nat) : List Nat :=
  let b := fmtWidth ty / 8
  let bs := loadBytes s (stacksLoc die off) (n * b)
  (List.range n).map fun i => leNat ((bs.drop (b * i)).take b)

/-- A row written. -/
def bankWrite (s : State) (die : Nat) (ty : Fmt) (off : Nat) (es : List Nat) : State :=
  storeBytes s (stacksLoc die off) (es.flatMap (leBytes (fmtWidth ty / 8)))

/-- A float result, rounded once with .rne, every NaN canonical (R366). -/
def bankFloat (ty : Fmt) (r : Num × Bool) : Nat := (roundExact ty .rne false 0 (exactly r)).1

/-- One element operation of R366: 0 add, 1 min, 2 max, 3 and, 4 or, 5 xor. -/
def bankOp (op : Nat) (ty : Fmt) (a b : Nat) : Nat :=
  match op with
  | 0 => if isF ty then bankFloat ty (addNum .rne (decodeFloat ty a) (decodeFloat ty b))
         else fitInt ty false (intOf ty a + intOf ty b)
  | 1 => if isF ty then bankFloat ty (minNum (decodeFloat ty a) (decodeFloat ty b))
         else if intOf ty a ≤ intOf ty b then a else b
  | 2 => if isF ty then bankFloat ty (maxNum (decodeFloat ty a) (decodeFloat ty b))
         else if intOf ty a ≤ intOf ty b then b else a
  | 3 => a &&& b
  | 4 => a ||| b
  | _ => a ^^^ b

/-- The reduction of a row (R366); an exact sum rounded once for the floats. -/
def bankReduce (op : Nat) (ty : Fmt) (es : List Nat) : Nat :=
  if op == 0 then
    if isF ty then bankFloat ty (sumNums .rne (es.map (decodeFloat ty)))
    else fitInt ty false (es.foldl (fun acc e => acc + intOf ty e) 0)
  else match es with
    | [] => 0
    | e :: rest =>
      rest.foldl (bankOp op ty) (if isF ty then bankFloat ty (decodeFloat ty e, false) else e)

/-- The order of R367: floats with −0 below +0. -/
def bankLe (ty : Fmt) (a b : Nat) : Bool :=
  if isF ty then
    let x := decodeFloat ty a
    let y := decodeFloat ty b
    let c := cmpNum x y
    if c == 0 then negOf x || !negOf y else c < 0
  else intOf ty a ≤ intOf ty b

/-- Places an element into an ordered list, after its equals. -/
def placeElem (before : Nat → Nat → Bool) (e : Nat) (es : List Nat) : List Nat :=
  match es with
  | [] => [e]
  | x :: rest => if before x e then x :: placeElem before e rest else e :: x :: rest

/-- A row in order (R367): stable, NaNs dropped; and how many were dropped. -/
def bankOrder (ty : Fmt) (desc : Bool) (es : List Nat) : List Nat × Nat :=
  let kept := es.filter fun e => !(isF ty && isNan (decodeFloat ty e))
  let before (x e : Nat) : Bool := if desc then bankLe ty e x else bankLe ty x e
  (kept.foldl (fun acc e => placeElem before e acc) [], es.length - kept.length)

/-- n outputs: the ordered elements, then canonical NaNs (R367). -/
def bankFill (ty : Fmt) (n : Nat) (es : List Nat) : List Nat :=
  es.take n ++ List.replicate (n - es.length) (canonNan ty)

/-- A bank instruction: each thread's operation, once its checks pass (R394, R395, R397). -/
def bankInstr (o : Ops) (m : M7) (rows : Thread → List BankRow) (bad : Thread → Bool)
    (effect : State → Nat → Nat → Thread → State) (s : State) : Host.Outcome State Fault Refusal :=
  laneOp o [(o.a, .word), (o.b, .word), (o.c, .word)] (fun s0 s tid =>
    let t := thr s tid
    let die := dieOfThr s tid
    outsideTx s tid
      (match bankTrap s die (bankType m) (srcN t o.c % 2 ^ 32) (bad t) (rows t) with
       | some i => .trap i
       | none =>
         if releaseWaits s0 tid (releases m.ord) then .hold postedHold else .wait (effect s tid die t) stacksWait)) s

/-- OP, BS and DESC of a bank instruction (R393). -/
def bankCode (m : M7) : Nat := bits m.low.toNat 23 20
def bankScalar (m : M7) : Bool := m.low.getLsbD 19
def bankDesc (m : M7) : Bool := m.low.getLsbD 20

/-- n of a bank instruction, and k of BTOPK. -/
def bankN (o : Ops) (t : Thread) : Nat := srcN t o.c % 2 ^ 32
def bankK (o : Ops) (t : Thread) : Nat := srcN t o.c / 2 ^ 32

/-- BOP (R366, R397). -/
def execBop (o : Ops) (m : M7) (s : State) : Host.Outcome State Fault Refusal :=
  let ty := bankType m
  bankInstr o m
    (fun t => ⟨srcN t o.a, bankN o t, true⟩ :: if bankScalar m then [] else [⟨srcN t o.b, bankN o t, true⟩])
    (fun t => bankK o t != 0)
    (fun s _ die t =>
      let n := bankN o t
      let a := bankRead s die ty (srcN t o.a) n
      let b := if bankScalar m then List.replicate n (low (fmtWidth ty) (srcN t o.b))
        else bankRead s die ty (srcN t o.b) n
      bankWrite s die ty (srcN t o.a) (List.zipWith (bankOp (bankCode m) ty) a b)) s

/-- BRED (R366, R397). -/
def execBred (o : Ops) (m : M7) (s : State) : Host.Outcome State Fault Refusal :=
  bankInstr o m (fun t => [⟨srcN t o.a, bankN o t, true⟩]) (fun t => bankK o t != 0)
    (fun s tid die t =>
      writeDst s tid o.d (bankReduce (bankCode m) (bankType m) (bankRead s die (bankType m) (srcN t o.a) (bankN o t)))) s

/-- BSORT (R367, R397). -/
def execBsort (o : Ops) (m : M7) (s : State) : Host.Outcome State Fault Refusal :=
  let ty := bankType m
  bankInstr o m (fun t => [⟨srcN t o.a, bankN o t, false⟩, ⟨srcN t o.b, bankN o t, true⟩]) (fun t => bankK o t != 0)
    (fun s tid die t =>
      let (es, nans) := bankOrder ty (bankDesc m) (bankRead s die ty (srcN t o.b) (bankN o t))
      writeDst (bankWrite s die ty (srcN t o.a) (bankFill ty (bankN o t) es)) tid o.d nans) s

/-- BTOPK (R367, R397). -/
def execBtopk (o : Ops) (m : M7) (s : State) : Host.Outcome State Fault Refusal :=
  let ty := bankType m
  bankInstr o m (fun t => [⟨srcN t o.a, bankK o t, false⟩, ⟨srcN t o.b, bankN o t, true⟩])
    (fun t => bankK o t == 0 || bankN o t < bankK o t)
    (fun s tid die t =>
      let (es, nans) := bankOrder ty (bankDesc m) (bankRead s die ty (srcN t o.b) (bankN o t))
      writeDst (bankWrite s die ty (srcN t o.a) (bankFill ty (bankK o t) es)) tid o.d nans) s

end Sys2Proof.Machine
end

