-- ==== Sys2Proof/Machine/MatrixRun.lean ====
section
/-! DEFINITION. What a matrix engine does with its queue: K-steps, fills, tile moves, the epilogue and its drains (R265,
R266, R271 to R275, R285 to R289, R296 to R307). -/

namespace Sys2Proof.Machine

/-! ### K-steps (R265, R287, R297, R299) -/

/-- K of an A type (R265). -/
def kOf (t : Fmt) : Nat := 512 / fmtWidth t

/-- Elements per group of a q type (R99). -/
def groupSize : Fmt → Nat
  | .q4g32 | .q8g32 => 32
  | .q4g64 | .q8g64 => 64
  | _ => 128

/-- One A row of a K-step: `row` its 64 bytes, `side` its 16 bytes of scales (R98). -/
def rowNums (t : Fmt) (xv row side : Nat) : List Num :=
  let w := fmtWidth t
  (List.range (kOf t)).map fun k =>
    let code := row / 2 ^ (w * k) % 2 ^ w
    if isBs t then decodeBs t code (side / 2 ^ (8 * (k / 8)) % 256) else decodeNum t xv code

/-- One B column of a K-step of n elements: its segments of the data row and the scale row; h is H (R297). -/
def colNums (t : Fmt) (xv seg scales h n : Nat) : List Num :=
  let w := fmtWidth t
  (List.range n).map fun k =>
    let j := if isQ4 t then 64 * h + k else k
    let code := seg / 2 ^ (w * j) % 2 ^ w
    if isBs t then decodeBs t code (scales / 2 ^ (8 * (k / 8)) % 256)
    else if isQ t then
      let e := scales / 2 ^ (32 * (j / groupSize t))
      decodeQ code (e % 2 ^ 16) (e / 2 ^ 16 % (if isQ4 t then 16 else 256))
    else decodeNum t xv code

/-- An operand that the fetch detector marks (R287). -/
def markedNum (x : Num) : Bool :=
  match x with
  | .fin _ _ _ => false
  | _ => true

/-- A marked element enters the array as +0. -/
def cleanNum (x : Num) : Num := if markedNum x then .fin false 0 0 else x

/-- A line of 128 marks. -/
def marksOf (xs : List (List Num)) : BitVec 128 :=
  BitVec.ofNat 128 ((xs.zipIdx.map fun x => if x.1.any markedNum then 2 ^ x.2 else 0).sum)

/-- The terms of one output element. -/
def termsOf (row col : List Num) : List Num := row.zipWith (fun a b => (mulNum (cleanNum a) (cleanNum b)).1) col

/-- The 128 × 128 results of a K-step as bytes of an f32 tile: `old` gives the accumulator's codes, none under .ovw. -/
def kStep (old : Option (Nat → Nat)) (rows cols : List (List Num)) : List Byte :=
  rows.zipIdx.flatMap fun r => cols.zipIdx.flatMap fun c =>
    leBytes 4 (mmaElement (old.map fun f => f (128 * r.2 + c.2)) (termsOf r.1 c.1))

/-- The f32 code of element k of a tile at a cell. -/
def tileElem (s : State) (l k : Nat) : Nat := readNat s (l + 4 * k) 4

/-- The marks of an a-tile, or of the slip accumulator, which is number 8. -/
def marksAt (s : State) (c n : Nat) : Marks := tgetD (coreOf s c).mx.marks n ⟨0, 0⟩

/-- The xv code that the xv index of a tag selects (R96). -/
def xvFor (xv : Word) (tag : FTag) : Nat := bits xv.toNat (8 * (tag.toNat / 64) + 7) (8 * (tag.toNat / 64))

/-- The 64-byte segment of column j of a folio row (R272). -/
def folioSeg (s : State) (c r j : Nat) : Nat := leNat (readBytes s (folioLoc c (8192 * r + 64 * j)) 64)

/-- The columns of a B operand. -/
def folioCols (s : State) (c : Nat) (t : Fmt) (xv r h n : Nat) : List (List Num) :=
  (List.range 128).map fun j =>
    colNums t xv (folioSeg s c r j) (if hasScale t then folioSeg s c (r + 1) j else 0) h n

/-- The rows of an A operand whose image, 8 KiB of rows and 2 KiB of scales, is at a cell. -/
def imageRows (s : State) (l : Nat) (t : Fmt) (xv : Nat) : List (List Num) :=
  (List.range 128).map fun i =>
    rowNums t xv (leNat (readBytes s (l + 64 * i) 64))
      (if isBs t then leNat (readBytes s (l + 8192 + 16 * i) 16) else 0)

/-- A K-step into a tile at a cell whose marks are number n: elements, then marks (R299). -/
def stepTile (s : State) (c n l : Nat) (ovw : Bool) (rows cols : List (List Num)) : State :=
  let old := if ovw then none else some (tileElem s l)
  let m : Marks := if ovw then ⟨0, 0⟩ else marksAt s c n
  modMx (writeBytes s l (kStep old rows cols)) c fun x =>
    { x with marks := tset x.marks n ⟨m.row ||| marksOf rows, m.col ||| marksOf cols⟩ }

/-- The effect of MMA (R299). -/
def runMma (s : State) (c : Nat) (o : Ops) (m : M6) (x : MItem) : State :=
  let r := mmaRow m x.b.toNat
  let l := if mmaCat m then carrelLoc c (catBase (catOf s c (x.a.toNat % 64)))
    else match o.a with
      | .reg (.t n) => ttileLoc c n.toNat 0
      | _ => 0
  let rows := imageRows s l m.ta (xvFor x.xv x.tagA)
  let cols := folioCols s c m.tb (xvFor x.xv x.tagB) r (if m.var.getLsbD 12 then 1 else 0) (kOf m.ta)
  match o.d with
  | .reg (.a n) =>
    let s1 := stepTile s c n.toNat (accumLoc c (65536 * n.toNat)) m.ovw rows cols
    if m.ovw then modMx s1 c fun q => { q with err := q.err.filter (· != 16 + n.toNat) } else s1
  | _ => s

/-! ### Reading and writing runs under the pages of acceptance -/

/-- Bytes of runs with their poison, those of another module having been asked for; what can no longer be read is poisoned
(log entry 29). -/
def readRuns (s : State) (p : Party) (w : Writer) (space : Space) (pages : List (Nat × Nat × Nat)) (runs : List (Nat × Nat)) :
    State × List Byte × List Bool :=
  runs.foldl (fun acc r =>
    match readSpans acc.1 w (heldSpans acc.1 p space .rd pages r.1 r.2 (r.2 / 65536 + 2)) with
    | .ok (s1, bs, bad) => (s1, acc.2.1 ++ bs, acc.2.2 ++ bad)
    | .error _ => (acc.1, acc.2.1 ++ List.replicate r.2 0, acc.2.2 ++ List.replicate r.2 true)) (s, [], [])

/-- Writes bytes over runs; a line that has been frozen since acceptance keeps its value (log entry 29). -/
def writeRuns (s : State) (p : Party) (w : Writer) (space : Space) (pages : List (Nat × Nat × Nat))
    (runs : List (Nat × Nat)) (bs : List Byte) (bad : List Bool) : State :=
  (runs.foldl (fun (acc : State × List Byte × List Bool) r =>
    let sp := heldSpans acc.1 p space .wr pages r.1 r.2 (r.2 / 65536 + 2)
    let s1 := match writeSpans acc.1 w sp (acc.2.1.take r.2) (acc.2.2.take r.2) with
      | .ok st => st
      | .error _ => acc.1
    (s1, acc.2.1.drop r.2, acc.2.2.drop r.2)) (s, bs, bad)).1

/-! ### Fills and tile moves (R272 to R275, R300 to R303) -/

/-- A folio row written, with its tag; poison in the source poisons the row (R258). -/
def putRow (s : State) (c r : Nat) (tag : FTag) (bs : List Byte) (bad : Bool) : State :=
  modMx (writeBytes s (folioLoc c (8192 * r)) bs) c fun x =>
    { x with rowTag := tset x.rowTag r tag,
             rowGood := if bad then x.rowGood.filter (· != r)
                        else if x.rowGood.contains r then x.rowGood else r :: x.rowGood }

/-- The fill-source records after a fill of n rows from f0 (R275). -/
def putRecords (s : State) (c f0 n src layout : Nat) (space : Space) (tag : FTag) : State :=
  (List.range 16).foldl (fun st i =>
    let lo := max f0 (24 * i)
    let hi := min (f0 + n) (24 * i + 24)
    if lo < hi then
      let w2 := (spaceCode space).toNat * 2 ^ 39 + tag.toNat * 2 ^ 30 + (lo - 24 * i) * 2 ^ 20 + (hi - lo) * 2 ^ 15 + 1
      let a := (src + (lo - f0) * (layout / 2 ^ 32)) % 2 ^ 56
      modMx st c fun x => { x with fills := tset x.fills i ([a, layout, w2, 0].map (BitVec.ofNat 64)) }
    else st) s

/-- The effect of MFOLIO (R300). -/
def runMfolio (s : State) (c : Nat) (m : M6) (x : MItem) : State :=
  let tid := x.tids.headD 0
  let a := x.a.toNat
  let b := x.b.toNat
  let f0 := fillFirst m x.c.toNat
  let tag := tagOf m.tb 0
  let s1 := (List.range (fillCount m)).foldl (fun st n =>
    let (st1, bs, bad) := readRuns st (partyOf st tid) (laneWriter st tid) (spaceIn m) x.pages (rowRuns a b n)
    putRow st1 c (f0 + n) tag bs (bad.any id)) s
  putRecords s1 c f0 (fillCount m) a b (spaceIn m) tag

/-- Whether a tile's error flag is set. -/
def setTileErr (s : State) (c n : Nat) (on : Bool) : State :=
  modMx s c fun x => { x with err := if on then (if x.err.contains n then x.err else n :: x.err) else x.err.filter (· != n) }

/-- The side array of a tile as its type reads it: a row of f8e4.bs or f8e5.bs uses bytes 0 to 7 of its 16, the others read
zero (R98). -/
def sideBytes (t : Fmt) (bs : List Byte) : List Byte :=
  if t == .f4bs then bs else (List.range bs.length).map fun i => if isBs t && i % 16 < 8 then bs.getD i 0 else 0

/-- The effect of MLDT (R301). -/
def runMldt (s : State) (c n : Nat) (m : M6) (x : MItem) : State :=
  let tid := x.tids.headD 0
  let (s1, bs, bad) := readRuns s (partyOf s tid) (laneWriter s tid) (spaceIn m) x.pages (tileRuns m.ta x.a.toNat x.b.toNat)
  let side := if isBs m.ta then sideBytes m.ta (bs.drop 8192) else List.replicate 2048 0
  let s2 := writeBytes s1 (ttileLoc c n 0) (bs.take 8192 ++ side)
  setTileErr (modMx s2 c fun q => { q with ttag := tset q.ttag n (tagOf m.ta 0) }) c n (bad.any id)

/-- An a-tile's element as a drain reads it: marked elements are the canonical NaN (R288). -/
def drainCode (s : State) (l : Nat) (mk : Marks) (k : Nat) : Nat :=
  if mk.row.getLsbD (k / 128) || mk.col.getLsbD (k % 128) then canonNan .f32 else tileElem s l k

/-- The effect of MSTT (R302). -/
def runMstt (s : State) (c : Nat) (o : Ops) (m : M6) (x : MItem) : State :=
  let tid := x.tids.headD 0
  let a := x.a.toNat
  let st := x.c.toNat
  let w := laneWriter s tid
  match o.b with
  | .reg (.a n) =>
    let l := accumLoc c (65536 * n.toNat)
    let bs := (List.range 16384).flatMap fun k => leBytes 4 (drainCode s l (marksAt s c n.toNat) k)
    writeRuns s (partyOf s tid) w (spaceIn m) x.pages (strideRuns a st 512 128) bs []
  | .reg (.t n) =>
    let bs := readBytes s (ttileLoc c n.toNat 0) 8192 ++
      (if isBs m.ta then sideBytes m.ta (readBytes s (ttileLoc c n.toNat 8192) 2048) else [])
    writeRuns s (partyOf s tid) w (spaceIn m) x.pages (tileRuns m.ta a st) bs []
  | _ => s

/-- The effect of MZERO (R303). -/
def runMzero (s : State) (c : Nat) (r : Reg) : State :=
  match r with
  | .t n =>
    setTileErr (modMx (writeBytes s (ttileLoc c n.toNat 0) (List.replicate 10240 0)) c fun q =>
      { q with ttag := tdel q.ttag n.toNat }) c n.toNat false
  | .a n =>
    setTileErr (modMx (writeBytes s (accumLoc c (65536 * n.toNat)) (List.replicate 65536 0)) c fun q =>
      { q with marks := tdel q.marks n.toNat }) c (16 + n.toNat) false
  | _ => s

/-! ### The epilogue (R285, R304, R305) -/

/-- The identity configuration (R270, R308). -/
def identityEpi : List Word := List.replicate 8 0

/-- RoundF32 of a value, as a value. -/
def toF32 (x : Num) : Num := decodeFloat .f32 (roundF32 .rne x)

/-- The rounding mode of a configuration. -/
def epiRnd (ws : List Word) : Rnd := (rndOf (BitVec.ofNat 3 (bits (cfgWord ws 0) 2 0))).getD .rne

/-- Stages 2 to 4 of an element: scale, bias, activation (R305). -/
def epiValue (ws : List Word) (bias : List Nat) (i j : Nat) (x0 : Num) : Num :=
  let w0 := cfgWord ws 0
  let f32 (v : Nat) : Num := decodeFloat .f32 (v % 2 ^ 32)
  let x1 := if bit w0 7 then toF32 (mulNum x0 (f32 (cfgWord ws 1))).1 else x0
  let addBias (k : Nat) : Num := toF32 (addNum .rne x1 (f32 (bias.getD k 0))).1
  let x2 := match bits w0 12 11 with
    | 1 => addBias j
    | 2 => addBias i
    | _ => x1
  let clamp := f32 (cfgWord ws 1 / 2 ^ 32)
  if isNan x2 then x2
  else match bits w0 10 8 with
    | 1 => if cmpNum x2 (.fin false 0 0) ≤ 0 then .fin false 0 0 else x2
    | 2 => (minNum (maxNum x2 (negNum clamp)).1 clamp).1
    | _ => x2

/-- The codes of a drained tile in row-major order, the flags of their conversion, and the generator after (R107, R305). -/
def drainCodes (ws : List Word) (bias : List Nat) (ot : Fmt) (elem : Nat → Nat) : List Nat × BitVec 3 × Nat :=
  let mode := epiRnd ws
  let sat := bit (cfgWord ws 0) 6
  let r := (List.range 16384).foldl (fun (acc : List Nat × BitVec 3 × Nat) k =>
    let draw := if mode == .rs then nextDraw acc.2.2 else 0
    let x := epiValue ws bias (k / 128) (k % 128) (decodeFloat .f32 (elem k))
    let (code, f) := encodeFloat ot 0 mode sat false draw x false
    (code :: acc.1, acc.2.1 ||| f, if mode == .rs then draw else acc.2.2)) ([], 0, cfgWord ws 0 / 2 ^ 32)
  (r.1.reverse, r.2.1, r.2.2)

/-- The bytes of codes of one width. -/
def codeBytes (t : Fmt) (codes : List Nat) : List Byte :=
  leBytes (codes.length * fmtWidth t / 8) (packElems t codes)

/-- Row i of a drained tile. -/
def codeRow (codes : List Nat) (i : Nat) : List Nat := (codes.drop (128 * i)).take 128

/-- The bias values that a configuration names, read as relaxed global reads. -/
def readBias (s : State) (p : Party) (w : Writer) (pages : List (Nat × Nat × Nat)) (ws : List Word) : State × List Nat :=
  match biasAddr ws with
  | none => (s, [])
  | some a =>
    let (s1, bs, _) := readRuns s p w .global pages [(a, 512)]
    (s1, (List.range 128).map fun k => leNat ((bs.drop (4 * k)).take 4))

/-- The conversion's flags reach the threads that issued the drain (R285). -/
def flagThreads (s : State) (tids : List Nat) (f : BitVec 3) : State :=
  if f == 0 then s
  else tids.foldl (fun st t => if (tget st.threads t).isSome then setFlags st t f else st) s

/-- The advanced SEED stays in the configuration. -/
def keepSeed (s : State) (c : Nat) (seed : Nat) : State :=
  modMx s c fun x =>
    { x with epi := match x.epi with
        | [] => []
        | w :: rest => BitVec.ofNat 64 (seed * 2 ^ 32 + w.toNat % 2 ^ 32) :: rest }

/-- Add-on-store of one row (R286). -/
def addRow (t : Fmt) (old : List Byte) (codes : List Nat) : List Byte :=
  let v := leNat old
  codeBytes t (codes.zipIdx.map fun x =>
    (encodeFloat t 0 .rne false false 0 (addNum .rne (decodeFloat t (elemAt t v x.2)) (decodeFloat t x.1)).1 false).1)

/-- Stores or adds the rows of a drained tile (R286, R306). -/
def storeRows (s : State) (p : Party) (w : Writer) (space : Space) (pages : List (Nat × Nat × Nat)) (t : Fmt)
    (add : Bool) (ea stride : Nat) (codes : List Nat) : State :=
  (List.range 128).foldl (fun st i =>
    let run := [((ea + stride * i) % 2 ^ 64, outRow t)]
    let row := codeRow codes i
    if add then
      let (st1, old, bad) := readRuns st p w space pages run
      writeRuns st1 p w space pages run (addRow t old row) bad
    else writeRuns st p w space pages run (codeBytes t row) []) s

/-- The chunks of a routed tile: 32 elements each. -/
def tileChunks (codes : List Nat) : List (List (BitVec 32)) :=
  (List.range 512).map fun k => ((codes.drop (32 * k)).take 32).map (BitVec.ofNat 32)

/-- A routed tile handed to the die's collective unit (R307, R477), and TSEQ one higher. -/
def routeTile (s : State) (c : Nat) (wg : Nat) (t : Fmt) (codes : List Nat) : State :=
  let r := (coreOf s c).mx.route
  let w0 := cfgWord r 0
  let first := (cfgWord r 1 / (fmtWidth t / 8) + 16384 * (w0 / 2 ^ 32)) / 32
  let g := wgOf s wg
  let s1 := modColl s (dieOfCore c) fun k =>
    { k with
      nextSend := k.nextSend + 1
      sends := k.sends ++ [{ id := k.nextSend, plan := w0 % 2 ^ 16, context := g.context, asid := g.asid,
                             gen := genOf s g.context, first,
                             count := 512, src := .tile (tileChunks codes), wait := none,
                             task := if bit (cfgWord r 2) 14 then some (BitVec.ofNat 14 (cfgWord r 2)) else none,
                             started := false, todo := (List.range 512).map fun i => first + i,
                             left := (List.range 512).map fun i => first + i, dead := false, got := [] }] }
  modMx s1 c fun x => { x with route := bumpSeq x.route }

/-- An epilogue fill of a catalog tile: it binds, writes and makes the tile READY (R278, R306). -/
def fillTile (s : State) (c e : Nat) (t : Fmt) (codes : List Nat) : State :=
  let s1 := catBind s c e
  catFilled (storeBytes s1 (carrelLoc c (catBase (catOf s1 c e))) (codeBytes t codes)) c e (some (tagOf t 0))

/-- The effect of a drain with a destination action (R285). -/
def runDrain (s : State) (c : Nat) (src : Src) (t : Fmt) (x : MItem) (act : State → List Nat → State) : State :=
  match src with
  | .reg (.a n) =>
    let tid := x.tids.headD 0
    let ws := (coreOf s c).mx.epi
    let (s1, bias) := readBias s (partyOf s tid) (laneWriter s tid) x.pages ws
    let (codes, f, seed) := drainCodes ws bias t (drainCode s1 (accumLoc c (65536 * n.toNat)) (marksAt s1 c n.toNat))
    flagThreads (keepSeed (act s1 codes) c seed) x.tids f
  | _ => s

/-! ### DRAINING entries (R278) -/

/-- The entry that a queued MDRAIN.free names. -/
def queuedFree (x : MItem) : Option Nat :=
  match x.work with
  | .ins (.mdrainFree _ _) => some (x.a.toNat % 64)
  | _ => none

/-- A DRAINING entry whose readers have all completed becomes EMPTY, FAULT 0. -/
def settleDrains (s : State) (c : Nat) : State :=
  (coreOf s c).mx.drains.foldl (fun st d =>
    if d.2.isEmpty && !((coreOf st c).mx.queue.any fun x => queuedFree x == some d.1) then
      setCat (modMx st c fun q => { q with drains := tdel q.drains d.1 }) c d.1 (catOf st c d.1 % 2 ^ 61)
    else st) s

/-- A slip has completed, or ended: it reads no entry any more. -/
def slipGone (s : State) (quad : Nat) (loc : RingLoc) (k : Nat) : State :=
  (List.range 4).foldl (fun st i =>
    let c := 4 * quad + i
    settleDrains (modMx st c fun q =>
      { q with drains := q.drains.map fun d => (d.1, d.2.filter fun r => !(r.1 == loc && r.2 == k)) }) c) s

/-! ### MATRIX_EXECUTE (R266) -/

/-- The effect of an instruction. -/
def runItem (s : State) (c : Nat) (x : MItem) : State :=
  match x.work with
  | .accum _ _ _ _ => s
  | .ins i =>
    let tid := x.tids.headD 0
    match i with
    | .mma o m => runMma s c o m x
    | .mfolio _ m => runMfolio s c m x
    | .mldt o m => match o.d with
      | .reg (.t n) => runMldt s c n.toNat m x
      | _ => s
    | .mstt o m => runMstt s c o m x
    | .mzero o _ => match o.d with
      | .reg r => runMzero s c r
      | .latchOnly => s
    | .mdrainSt o m => runDrain s c o.a m.tb x fun st codes =>
        storeRows st (partyOf st tid) (laneWriter st tid) (spaceIn m) x.pages m.tb false x.b.toNat x.c.toNat codes
    | .mdrainAdd o m => runDrain s c o.a m.tb x fun st codes =>
        storeRows st (partyOf st tid) (laneWriter st tid) (spaceIn m) x.pages m.tb true x.b.toNat x.c.toNat codes
    | .mdrainRoute o m => runDrain s c o.a m.tb x fun st codes => routeTile st c (tidWg tid) m.tb codes
    | .mdrainCat o m => runDrain s c o.a m.tb x fun st codes => fillTile st c (x.b.toNat % 64) m.tb codes
    | .mepi _ _ => modMx s c fun q => { q with epi := x.words }
    | .mroute _ _ => modMx s c fun q => { q with route := x.words }
    | _ => s

/-- The a-tiles that an instruction reads or writes. -/
def touchesAccum (x : MItem) : List Nat :=
  match x.work with
  | .ins i => (readsOf i x.b.toNat ++ writesOf i x.c.toNat).filter fun n => 16 ≤ n && n < 24
  | .accum _ _ _ _ => []

/-- Whether the queue's engine can perform an item now: a catalog drain waits for an EMPTY entry (R306). -/
def itemReady (s : State) (c : Nat) (x : MItem) : Bool :=
  match x.work with
  | .ins (.mdrainCat _ _) => catState (catOf s c (x.b.toNat % 64)) == catEmpty
  | _ => true

/-- The place of the next instruction to perform: the first of the queue, past copy entries whose tiles it does not
touch (R266, R325). -/
def nextItem (s : State) (c : Nat) (q : List MItem) (held : List Nat) (i : Nat) : Option (Nat × MItem) :=
  match q with
  | [] => none
  | x :: rest =>
    match x.work with
    | .accum _ _ _ _ => nextItem s c rest (held ++ itemWrites x) (i + 1)
    | .ins _ => if (touchesAccum x).any held.contains || !itemReady s c x then none else some (i, x)

/-- The memory that a queued instruction will read. -/
def itemRuns (s : State) (c : Nat) (x : MItem) : List (Space × List (Nat × Nat)) :=
  let bias := (biasRuns (coreOf s c).mx.epi).map fun r => (r.space, r.runs)
  match x.work with
  | .accum _ _ _ _ => []
  | .ins i =>
    match i with
    | .mfolio _ m => [(spaceIn m, (List.range (fillCount m)).flatMap (rowRuns x.a.toNat x.b.toNat))]
    | .mldt _ m => [(spaceIn m, tileRuns m.ta x.a.toNat x.b.toNat)]
    | .mdrainAdd _ m => (spaceIn m, strideRuns x.b.toNat x.c.toNat (outRow m.tb) 128) :: bias
    | .mdrainSt _ _ | .mdrainRoute _ _ | .mdrainCat _ _ => bias
    | _ => []

/-- What of it another module holds. -/
def itemFar (s : State) (c : Nat) (x : MItem) : List Span :=
  let p := partyOf s (x.tids.headD 0)
  (itemRuns s c x).flatMap fun r =>
    (r.2.flatMap fun q => heldSpans s p r.1 .rd x.pages q.1 q.2 (q.2 / 65536 + 2)).filter fun y => y.place.remote

/-- One instruction of a core's queue performed, in issue order, once what it reads of other modules has arrived (R438). -/
def runNext (s : State) (c : Nat) : Option State :=
  (nextItem s c (coreOf s c).mx.queue [] 0).map fun e =>
    let w := laneWriter s (e.2.tids.headD 0)
    let far := itemFar s c e.2
    if far.all (spanHere s w) then
      let s1 := dropAsks (runItem s c e.2) w.owner
      settleDrains (modMx s1 c fun q => { q with queue := q.queue.eraseIdx e.1 }) c
    else far.foldl (askSpan w) s

/-- MATRIX_EXECUTE (R266). -/
def execMatrixExecute (core : Nat) (s : State) : Host.Outcome State Fault Refusal :=
  if 256 ≤ core then .fault .noSuchUnit
  else .next (withRoom s (dieOfCore core) ((runNext s core).getD s))

end Sys2Proof.Machine
end

