-- ==== Sys2Proof/Machine/Slips.lean ====
section
/-! DEFINITION. The quad's task scheduler: named tasks as it applies them, and the life of a call slip (R35, R281 to
R284, R308, R309, R350). -/

namespace Sys2Proof.Machine

/-! ### Named tasks (R35, R350) -/

/-- DEP_DECREMENT: the operation at the head of the queue, when it is a decrement. -/
def execDepDecrement (quad : Nat) (s : State) : Host.Outcome State Fault Refusal :=
  if 64 ≤ quad then .fault .noSuchUnit
  else match (quadOf s quad).msgs with
    | .dec k :: rest => .next (applyDec (modQuad s quad fun q => { q with msgs := rest }) quad k)
    | _ => .next s

/-- A DEPSET applied: the counter is set, UNDERRUN cleared, and its thread goes on. -/
def applySet (s : State) (quad k : Nat) (v : BitVec 16) (tid : Nat) : State :=
  let s1 := modQuad s quad fun q => { q with tasks := tset q.tasks k ⟨v, false⟩ }
  match (thr s1 tid).wait with
  | some w => if w.code == 63 && w.var == holdDepset then wakeThread s1 tid else s1
  | none => s1

/-- The operations that have arrived at a scheduler, applied in their order (R35). -/
def drainMsgs (s : State) (quad : Nat) : State :=
  (quadOf s quad).msgs.foldl (fun st m =>
    match m with
    | .dec k => applyDec st quad k
    | .set k v tid => applySet st quad k v tid) (modQuad s quad fun q => { q with msgs := [] })

/-- The decrement of an entry's completion, when its valid bit is set: it is applied in the step that advances ACC, behind
whatever arrived at the scheduler before it (R35, R36). -/
def sendDecIf (s : State) (valid : Bool) (ref : Nat) : State :=
  if valid then applyDec (drainMsgs s (bits ref 13 8)) (bits ref 13 8) (ref % 256) else s

/-- DEPSET_APPLY: the operation at the head of the queue, when it is a DEPSET. -/
def execDepsetApply (quad : Nat) (s : State) : Host.Outcome State Fault Refusal :=
  if 64 ≤ quad then .fault .noSuchUnit
  else match (quadOf s quad).msgs with
    | .set k v tid :: rest => .next (applySet (modQuad s quad fun q => { q with msgs := rest }) quad k v tid)
    | _ => .next s

/-! ### The fields of a slip (R308) -/

/-- A type code of a slip. -/
def slipFmt (ws : List Word) (hi lo : Nat) : Option Fmt := fmtOf (BitVec.ofNat 6 (slipField ws 0 hi lo))

def slipSteps (ws : List Word) : Nat := slipField ws 0 63 58 + 1
def slipA (ws : List Word) : Fmt := (slipFmt ws 57 52).getD .none
def slipB (ws : List Word) : Fmt := (slipFmt ws 51 46).getD .none
def slipOut (ws : List Word) : Fmt := (slipFmt ws 45 40).getD .none
def slipMode (ws : List Word) : Nat := slipField ws 0 33 31
def slipGlobal (ws : List Word) : Bool := bit (cfgWord ws 0) 35

/-- The data row of K-step k (R309). -/
def slipRow (ws : List Word) (k : Nat) : Nat :=
  slipField ws 0 30 22 + (if isQ4 (slipB ws) then k / 2 else k) * slipField ws 0 21 19

/-- How many bits are set in the engine mask. -/
def maskCount (m : Nat) : Nat := ((List.range 4).filter fun i => bit m i).length

/-- R309: what makes the scheduler fault a slip ILLEGAL_FIELD. -/
def slipBad (quad : Nat) (ws : List Word) : Bool :=
  let mode := slipMode ws
  let mask := slipField ws 0 39 36
  let lastRow := ((List.range (slipSteps ws)).map fun k =>
    slipRow ws k + (if hasScale (slipB ws) then 1 else 0)).foldl max 0
  let rz := slipField ws 0 18 16 != 0 || slipField ws 1 63 56 != 0 || slipField ws 2 63 56 != 0 ||
    slipField ws 3 63 34 != 0 || bit (cfgWord ws 3) 31 || bit (cfgWord ws 3) 15 ||
    (!slipGlobal ws && slipField ws 1 55 6 != 0) || (mode == 2 && cfgWord ws 2 != 0) ||
    (mode == 3 && slipField ws 2 55 6 != 0)
  let out := slipOut ws
  rz || !mmaPair (slipA ws) (slipB ws) || 3 < mode || (if mode == 1 || mode == 2 then !isOut3 out else !isOut out) ||
  mask == 0 || 383 < lastRow || (bit (cfgWord ws 3) 14 && slipField ws 3 13 8 != quad) ||
  (mode == 3 && maskCount mask != 1)

/-! ### Faults of a slip (R284, R251) -/

/-- The slips of a quad with one changed. -/
def modSlip (s : State) (quad : Nat) (x : Slip) (f : Slip → Slip) : State :=
  modQuad s quad fun q => { q with slips := q.slips.map fun y => if y.ring == x.ring && y.k == x.k && y.wg == x.wg then f y else y }

/-- The core that published a slip. -/
def slipHome (quad : Nat) (ws : List Word) : Nat := 4 * quad + slipField ws 3 33 32

/-- Reports a fault of a ring to the context that owns it (R31, R315). -/
def reportRing (s : State) (wg : Nat) (cause : Nat) (addr : Option Nat) : State :=
  let w := wgOf s wg
  reportNote s w.context { cause, sub := none, source := 1, core := some w.core, word1 := none, addr, w := some w.w }

/-- Parks a slip with a fresh replay record index, and reports it (R250, R251). -/
def parkSlip (s : State) (quad : Nat) (x : Slip) (f : FaultCode) (addr : Option Nat) : State :=
  let (idx, s1) := drawFree s
  let (a, s2) := orFree s1 addr
  let s3 := modSlip s2 quad x fun y =>
    { y with st := .parked (BitVec.ofNat 8 f.1) (BitVec.ofNat 64 a) idx, step := 0 }
  let w := wgOf s3 x.wg
  reportNote s3 w.context
    { cause := f.1, sub := f.2, source := 1, core := some (slipHome quad x.words), word1 := some idx.toNat, addr := some a,
      w := some w.w }

/-! ### SLIP_READ (R281, R282) -/

/-- Whether a workgroup's published work may be served: a saved one waits for its restore. -/
def wgServed (s : State) (wg : Nat) : Bool := (wgOf s wg).st != .saved

/-- How many slips the scheduler has read ahead. -/
def slipsAhead (s : State) (q : Quad) : Nat :=
  (q.slips.filter fun x => wgServed s x.wg && match x.st with
    | .waiting | .queued => true
    | _ => false).length

/-- What the scheduler finds at a chain of its quad. -/
def chainHead (s : State) (quad : Nat) (r : Ring) : Head := headOf s (chainServer s quad r.wg r.loc) r.loc

/-- A chain that has an entry to read, or a fault to report. -/
def chainDue (s : State) (quad : Nat) (r : Ring) : Bool := !r.faulted && wgServed s r.wg && headDue (chainHead s quad r)

/-- The chain that the scheduler reads next, round-robin after the last (R282). -/
def nextChain (s : State) (quad : Nat) : Option (Nat × Ring) :=
  let q := quadOf s quad
  let n := q.chains.length
  (List.range n).findSome? fun i =>
    let k := (q.rrChain + 1 + i) % n
    match q.chains[k]? with
    | some r => if chainDue s quad r then some (k, r) else none
    | none => none

/-- The scheduler polls the chains of its quad that other modules hold. -/
def pollChains (s : State) (quad : Nat) : State :=
  (quadOf s quad).chains.foldl (fun st r =>
    if !r.faulted && wgServed st r.wg then pollHead st (chainServer st quad r.wg r.loc) r.loc else st) s

/-- A slip has been read in whose words were another module's: it is a reader only of the DRAINING entries it names (R278). -/
def slipKnown (s : State) (quad : Nat) (x : Slip) : State :=
  (List.range 4).foldl (fun st i =>
    let c := 4 * quad + i
    if (coreOf st c).mx.drains.any fun d => d.2.contains (x.ring, x.k) && !slipNames x.words i d.1 then
      settleDrains (modMx st c fun q =>
        { q with drains := q.drains.map fun d =>
            (d.1, if slipNames x.words i d.1 then d.2 else d.2.filter fun e => e != (x.ring, x.k)) }) c
    else st) s

/-- A slip of a chain is read in. -/
def takeSlip (s : State) (quad : Nat) (r : Ring) (p : Place) (k : Nat) (ws : List Word) : State :=
  let v := chainServer s quad r.wg r.loc
  let x : Slip := { ring := r.loc, k, words := ws, wg := r.wg, st := .waiting, step := 0 }
  let s1 := modQuad (putTaken (dropAsks s v.w.owner) v.w p k) quad fun q => { q with slips := q.slips ++ [x] }
  let s2 := slipKnown s1 quad x
  if slipBad quad ws then parkSlip s2 quad x (cIllegalField.toNat, none) none else s2

/-- One slip read from the chain in place k, or the chain's fault (R31). -/
def readSlip (s : State) (quad k : Nat) (r : Ring) : State :=
  let v := chainServer s quad r.wg r.loc
  let turn (st : State) : State := modQuad st quad fun q => { q with rrChain := k }
  match chainHead s quad r with
  | .none => s
  | .waits s1 | .idle s1 => s1
  | .bad s1 cause =>
    let s2 := modQuad (turn s1) quad fun q =>
      { q with chains := q.chains.map fun y => if y.loc == r.loc then { y with faulted := true } else y }
    reportRing s2 r.wg cause.toNat none
  | .due s1 p =>
    let e := (hdrTaken s1 p.loc + 1) % 2 ^ 48
    match ringEntry s1 v r.loc p e with
    | .error (.waits s2) => s2
    | .error (.fault _) => turn s1
    | .ok (s2, ws) => takeSlip (turn s2) quad r p e ws

/-- SLIP_READ (R282): at most 32 slips ahead, one chain a turn. -/
def execSlipRead (quad : Nat) (s : State) : Host.Outcome State Fault Refusal :=
  if 64 ≤ quad then .fault .noSuchUnit
  else if 32 ≤ slipsAhead s (quadOf s quad) then .next s
  else
    let s1 := pollChains s quad
    match nextChain s1 quad with
    | some (k, r) => .next (readSlip s1 quad k r)
    | none => .next s1

/-! ### SLIP_DISPATCH (R282) -/

/-- Whether a slip's wait is met. -/
def slipMet (s : State) (ws : List Word) : Bool :=
  !bit (cfgWord ws 3) 14 || (taskOf s (slipField ws 3 13 0)).count == 0

/-- The core that a slip runs on, its drain included. -/
def slipCore (x : Slip) : Option Nat :=
  match x.st with
  | .running c | .drained c _ => some c
  | .waiting | .queued | .parked _ _ _ => none

/-- Whether no slip runs on an engine. -/
def engineFree (q : Quad) (core : Nat) : Bool := !(q.slips.any fun x => slipCore x == some core)

/-- The lowest-numbered free engine in a slip's mask. -/
def engineFor (q : Quad) (quad : Nat) (ws : List Word) : Option Nat :=
  ((List.range 4).find? fun i => bit (slipField ws 0 39 36) i && engineFree q (4 * quad + i)).map fun i => 4 * quad + i

/-- The slips whose wait is met become QUEUED. -/
def queueSlips (s : State) (quad : Nat) : State :=
  modQuad s quad fun q =>
    { q with slips := q.slips.map fun x =>
        match x.st with
        | .waiting => if wgServed s x.wg && slipMet s x.words then { x with st := .queued } else x
        | _ => x }

/-- SLIP_DISPATCH: the earliest QUEUED slip for which an engine of its mask is free (R282). -/
def execSlipDispatch (quad : Nat) (s : State) : Host.Outcome State Fault Refusal :=
  if 64 ≤ quad then .fault .noSuchUnit
  else
    let s1 := queueSlips s quad
    let q := quadOf s1 quad
    match q.slips.find? fun x => x.st == .queued && wgServed s1 x.wg && (engineFor q quad x.words).isSome with
    | none => .next s1
    | some x =>
      if slipBad quad x.words then .next (parkSlip s1 quad x (cIllegalField.toNat, none) none)
      else match engineFor q quad x.words with
        | some c => .next (modSlip s1 quad x fun y => { y with st := .running c, step := 0 })
        | none => .next s1

/-! ### SLIP_KSTEP (R283, R309) -/

/-- The slip that runs on a core. -/
def slipOn (s : State) (core : Nat) : Option Slip :=
  (quadOf s (quadOfCore core)).slips.find? fun x => slipCore x == some core

/-- The party of a slip's global reads: its workgroup's address space on the engine's core (R23). -/
def slipParty (s : State) (core : Nat) (x : Slip) : Party :=
  let w := wgOf s x.wg
  engineParty (some core) (dieOfCore core) w.asid.toNat w.priv

/-- The accesses of a slip's engine (R23, R437). -/
def slipWriter (s : State) (core : Nat) (x : Slip) : Writer :=
  { die := dieOfCore core, flow := quadOfCore core % 16, owner := .slip x.ring x.k, context := (wgOf s x.wg).context }

/-- What a K-step's A operand is: an image, a wait for its tile or for another module, or a fault. -/
inductive SlipA where
  | image (s : State) (bytes : List Byte)
  | hold
  | waits (s : State)
  | fault (f : FaultCode) (addr : Option Nat)

/-- The bytes of an A image (R309). -/
def imageSize (t : Fmt) : Nat := if isBs t then 10240 else 8192

/-- A from a catalog entry of the publishing core: READY, or DRAINING for a slip that it still waits for (log entry 32). -/
def slipTile (s : State) (quad : Nat) (x : Slip) (k : Nat) : SlipA :=
  let home := slipHome quad x.words
  let e := (slipField x.words 1 5 0 + k) % 64
  let v := catOf s home e
  let awaited := match tget (coreOf s home).mx.drains e with
    | some rs => rs.any fun r => r.1 == x.ring && r.2 == x.k
    | none => false
  if wgServed s x.wg && (catState v == catReady || (catState v == catDraining && awaited)) then
    let n := imageSize (slipA x.words)
    let l := carrelLoc home (catBase v)
    if tagBad (catTag v) (slipA x.words) then .fault (cFormatMismatch.toNat, none) none
    else if catLen v < n then .fault (cIllegalField.toNat, none) none
    else if poisoned s l n then .fault (cPoison.toNat, none) (some (catBase v))
    else .image s (readBytes s l n)
  else .hold

/-- A from global memory. -/
def slipMemory (s : State) (core : Nat) (x : Slip) (k : Nat) : SlipA :=
  let n := imageSize (slipA x.words)
  let ea := slipField x.words 1 55 0 + k * n
  if ea % 64 != 0 then .fault (cMisaligned.toNat, none) (some ea)
  else match spansOf s (slipParty s core x) .global .rd ea n with
    | .error e => .fault e.1 (some e.2)
    | .ok (s1, sp) =>
      match readSpans s1 (slipWriter s core x) sp with
      | .error (.fault e) => .fault e.1 (some e.2)
      | .error (.waits s2) => .waits s2
      | .ok (s2, bs, bad) =>
        if bad.any id then .fault (cPoison.toNat, none) (some ea) else .image (dropAsks s2 (.slip x.ring x.k)) bs

/-- The rows of an A image given as bytes. -/
def bytesRows (bs : List Byte) (t : Fmt) (xv : Nat) : List (List Num) :=
  (List.range 128).map fun i =>
    rowNums t xv (leNat ((bs.drop (64 * i)).take 64))
      (if isBs t then leNat ((bs.drop (8192 + 16 * i)).take 16) else 0)

/-! ### The end of a slip (R284) -/

/-- An entry of a chain has completed: its ring's ACC advances (R32) and its flags are reported (R285). A chain with nothing
open is bound no longer (R310). -/
def chainDone (s : State) (wg : Nat) (loc : RingLoc) (k : Nat) (flags : BitVec 3) : State :=
  let (asid, priv) := ringAsid s wg
  match ringPlaceOf s asid priv loc with
  | none => s
  | some (s1, p) =>
    s1.quads.foldl (fun st e =>
      match if e.1 < 64 then e.2.chains.find? fun r => r.loc == loc else none with
      | none => st
      | some r =>
        let (st1, r1) := completeEntry st (chainServer st e.1 wg loc).w p r k
        let bound := hdrPub st1 p.loc != hdrAcc st1 p.loc
        modQuad st1 e.1 fun q =>
          { q with flags, chains := q.chains.filterMap fun y => if y.loc != loc then some y else if bound then some r1 else none }) s1

/-- The flags of a slip's conversion. -/
def slipFlags (x : Slip) : BitVec 3 :=
  match x.st with
  | .drained _ f => f
  | .waiting | .queued | .running _ | .parked _ _ _ => 0

/-- A slip that has ended: its task, its chain, its place and the tiles it named (R284 steps 2 to 4). -/
def endSlip (s : State) (quad : Nat) (x : Slip) : State :=
  let s1 := modQuad s quad fun q => { q with slips := q.slips.filter fun y => !(y.ring == x.ring && y.k == x.k && y.wg == x.wg) }
  let s2 := sendDecIf s1 (bit (cfgWord x.words 3) 30) (slipField x.words 3 29 16)
  slipGone (chainDone s2 x.wg x.ring x.k (slipFlags x)) quad x.ring x.k

/-- A fault of a running slip: a translation fault parks it, any other ends it as ABANDON does (R251). -/
def failSlip (s : State) (quad : Nat) (x : Slip) (f : FaultCode) (addr : Option Nat) : State :=
  let s1 := dropAsks s (.slip x.ring x.k)
  if parks f then parkSlip s1 quad x f addr else endSlip s1 quad x

/-- One K-step of the slip that runs on a core (R283, R299). -/
def stepSlip (s : State) (core : Nat) (x : Slip) : State :=
  let quad := quadOfCore core
  let ws := x.words
  let k := x.step
  let mx := (coreOf s core).mx
  let r := slipRow ws k
  let b := slipB ws
  let xv := slipField ws 0 15 8
  let a := if slipGlobal ws then slipMemory s core x k else slipTile s quad x k
  match a with
  | .hold => s
  | .waits s1 => s1
  | .fault f addr => failSlip s quad x f addr
  | .image s1 bs =>
    if rowTagBad mx r b || (hasScale b && tgetD mx.rowTag (r + 1) 0 != 0) then
      failSlip s1 quad x (cFormatMismatch.toNat, none) none
    else if !mx.rowGood.contains r || (hasScale b && !mx.rowGood.contains (r + 1)) then
      failSlip s1 quad x (cPoison.toNat, none) none
    else
      let rows := bytesRows bs (slipA ws) xv
      let cols := folioCols s1 core b xv r (if isQ4 b then k % 2 else 0) (kOf (slipA ws))
      modSlip (stepTile s1 core 8 (slipLoc core 0) (k == 0) rows cols) quad x fun y => { y with step := k + 1 }

/-- SLIP_KSTEP: the next K-step of the slip that runs on a core. -/
def execSlipKstep (core : Nat) (s : State) : Host.Outcome State Fault Refusal :=
  if 256 ≤ core then .fault .noSuchUnit
  else match slipOn s core with
    | some x => .next (if x.st == .running core && x.step < slipSteps x.words then stepSlip s core x else s)
    | none => .next s

/-! ### SLIP_COMPLETE (R283, R284) -/

/-- The configuration a slip's drain uses (R308). -/
def slipEpi (s : State) (core : Nat) (ws : List Word) : List Word :=
  if bit (cfgWord ws 0) 34 then (coreOf s core).mx.epi else identityEpi

/-- How a slip's drain goes: done with its conversion's flags, held while its tile is not EMPTY, waiting for another module,
or a fault. -/
inductive SlipEnd where
  | done (s : State) (flags : BitVec 3)
  | hold
  | waits (s : State)
  | fault (f : FaultCode) (addr : Option Nat)

/-- What a drain to memory would meet: the pages, or what stops it. -/
def slipDest (s : State) (p : Party) (w : Writer) (ea row : Nat) (add : Bool) :
    Except SlipEnd (State × List (Nat × Nat × Nat)) :=
  if ea % 64 != 0 then .error (.fault (cMisaligned.toNat, none) (some ea))
  else
    let runs := strideRuns ea row row 128
    let need : List MRuns :=
      (if add then [{ space := .global, acc := .rd, runs, sour := true }] else []) ++
      [{ space := .global, acc := .wr, runs, sour := false }]
    match planSpans s p need with
    | .error e => .error (.fault e.1 (some e.2))
    | .ok (s1, xs) =>
      match xs.findSome? fun q => spanTrap s1 q.1 q.2 with
      | some t => .error (.fault (t.cause.toNat, t.sub.map BitVec.toNat) (t.addr.map BitVec.toNat))
      | none =>
        match farPoison s1 w xs with
        | .error (.waits s2) => .error (.waits s2)
        | .error (.fault e) => .error (.fault e.1 (some e.2))
        | .ok (some a) => .error (.fault (cPoison.toNat, none) (some a))
        | .ok none => .ok (s1, pagesOf (xs.flatMap Prod.snd))

/-- The bias of a slip's drain, checked as it is read. -/
def slipBias (s : State) (p : Party) (w : Writer) (ws : List Word) : Except SlipEnd (State × List Nat) :=
  match biasAddr ws with
  | none => .ok (s, [])
  | some a =>
    if a % 512 != 0 then .error (.fault (cMisaligned.toNat, none) (some a))
    else match spansOf s p .global .rd a 512 with
      | .error e => .error (.fault e.1 (some e.2))
      | .ok (s1, sp) =>
        match readSpans s1 w sp with
        | .error (.fault e) => .error (.fault e.1 (some e.2))
        | .error (.waits s2) => .error (.waits s2)
        | .ok (s2, bs, bad) =>
          if bad.any id then .error (.fault (cPoison.toNat, none) (some a))
          else .ok (s2, (List.range 128).map fun k => leNat ((bs.drop (4 * k)).take 4))

/-- The destination action of a slip's drain (R306, R308, R309). -/
def slipAction (s : State) (core : Nat) (x : Slip) (codes : List Nat) (flags : BitVec 3) : SlipEnd :=
  let ws := x.words
  let p := slipParty s core x
  let w := slipWriter s core x
  let t := slipOut ws
  let dest := slipField ws 2 55 0
  match slipMode ws with
  | 2 =>
    match routeField s core (wgOf s x.wg).context t (coreOf s core).mx.route with
    | some c => .fault (c.toNat, none) none
    | none => .done (routeTile s core x.wg t codes) flags
  | 3 =>
    let v := catOf s core (dest % 64)
    if catLen v == 0 || catLen v < 128 * outRow t then .fault (cIllegalField.toNat, none) none
    else if catState v != catEmpty then .hold
    else .done (fillTile s core (dest % 64) t codes) flags
  | m =>
    match slipDest s p w dest (outRow t) (m == 1) with
    | .error e => e
    | .ok (s1, pages) => .done (storeRows s1 p w .global pages t (m == 1) dest (outRow t) codes) flags

/-- The drain of a finished slip (R283, R285). -/
def drainSlip (s : State) (core : Nat) (x : Slip) : SlipEnd :=
  let epi := slipEpi s core x.words
  match slipBias s (slipParty s core x) (slipWriter s core x) epi with
  | .error e => e
  | .ok (s1, bias) =>
    let (codes, flags, seed) := drainCodes epi bias (slipOut x.words) (drainCode s1 (slipLoc core 0) (marksAt s1 core 8))
    slipAction (if bit (cfgWord x.words 0) 34 then keepSeed s1 core seed else s1) core x codes flags

/-- A slip whose data is out: it completes, or waits for the acknowledgements of its drain first (R284, R456). -/
def settleSlip (s : State) (core : Nat) (x : Slip) (flags : BitVec 3) : State :=
  let quad := quadOfCore core
  let y := { x with st := .drained core flags }
  if inFlight s (.slip x.ring x.k) then modSlip s quad x fun _ => y else endSlip s quad y

/-- SLIP_COMPLETE: the drain, then the release, the task and the accession advance (R284). -/
def execSlipComplete (core : Nat) (s : State) : Host.Outcome State Fault Refusal :=
  if 256 ≤ core then .fault .noSuchUnit
  else match slipOn s core with
    | none => .next s
    | some x =>
      match x.st with
      | .drained _ flags => .next (settleSlip s core x flags)
      | _ =>
        if x.step < slipSteps x.words then .next s
        else match drainSlip s core x with
          | .fault f addr => .next (failSlip s (quadOfCore core) x f addr)
          | .hold => .next s
          | .waits s1 => .next s1
          | .done s1 flags => .next (withRoom s (dieOfCore core) (settleSlip (dropAsks s1 (.slip x.ring x.k)) core x flags))

end Sys2Proof.Machine
end

