-- ==== Sys2Proof/Machine/Copy.lean ====
section
/-! DEFINITION. The copy engine: reading entries in, channels, chunks and completion (R315, R318 to R330, R344 to R346,
R251). -/

namespace Sys2Proof.Machine

/-! ### The fields of an entry (R344, R345) -/

def ctrlOf (ws : List Word) : Nat := cfgWord ws 3
def copySpace (n : Nat) : Option Space := spaceOf (BitVec.ofNat 3 n)
def copySrc (ws : List Word) : Space := (copySpace (bits (ctrlOf ws) 2 0)).getD .global
def copyDst (ws : List Word) : Space := (copySpace (bits (ctrlOf ws) 5 3)).getD .global
def copyChan (ws : List Word) : Nat := bits (ctrlOf ws) 16 14
def copyXp (ws : List Word) : Nat := bits (ctrlOf ws) 18 17
def copyMc (ws : List Word) : Bool := bit (ctrlOf ws) 19
def copyCv (ws : List Word) : Bool := bit (ctrlOf ws) 20
def copyCat (ws : List Word) : Nat := bits (ctrlOf ws) 26 21
def copyLen (ws : List Word) : Nat := cfgWord ws 2 % 2 ^ 32
def copyFtype (ws : List Word) : Option Fmt := fmtOf (BitVec.ofNat 6 (bits (ctrlOf ws) 47 42))

/-- The first destination address: DOFF for a multicast (R344). -/
def copyTo (ws : List Word) : Nat := if copyMc ws then bits (cfgWord ws 2) 51 32 else cfgWord ws 1

/-- The transposing form: rows, columns, pitches in bytes and element size (R326, R344). -/
structure XForm where
  rows : Nat
  cols : Nat
  spitch : Nat
  dpitch : Nat
  size : Nat

def xformOf (ws : List Word) : XForm :=
  let w := cfgWord ws 2
  { rows := bits w 15 0, cols := bits w 31 16, spitch := bits w 47 32 * 64, dpitch := bits w 63 48 * 64,
    size := copyXp ws }

/-- Bytes from the first to the last that a transposing entry reads, or writes. -/
def xformSpan (rows cols pitch size : Nat) : Nat := if rows == 0 || cols == 0 then 0 else (rows - 1) * pitch + cols * size

/-- The lengths of the source and destination ranges. -/
def srcLen (ws : List Word) : Nat :=
  let x := xformOf ws
  if copyXp ws == 0 then copyLen ws else xformSpan x.rows x.cols x.spitch x.size
def dstLen (ws : List Word) : Nat :=
  let x := xformOf ws
  if copyXp ws == 0 then copyLen ws else xformSpan x.cols x.rows x.dpitch x.size

/-- The space pairs of R319. -/
def pairOk (s d : Space) : Bool :=
  match s with
  | .folio => false
  | .global | .carrel | .stacks => true
  | .rcarrel | .accum => d != .accum && d != .folio
  | .host => d != .accum && d != .host && d != .folio

/-- Address bits of a space's layout (R24). -/
def layoutBits : Space → Nat
  | .global | .host => 56
  | .carrel => 20
  | .rcarrel => 26
  | .accum => 19
  | .stacks => 31
  | .folio => 22

/-- The cores whose carrel an entry writes: its catalog tiles are theirs (R346). -/
def carrelCores (core : Nat) (ws : List Word) : List Nat :=
  let die := core / 64 * 64
  if copyMc ws then ((List.range 64).filter fun i => bit (cfgWord ws 1) i).map fun i => die + i
  else match copyDst ws with
    | .carrel => [core]
    | .rcarrel => [die + cfgWord ws 1 % 2 ^ 26 / 2 ^ 20]
    | _ => []

/-- Whether the destination range lies in the bound tile's buffer on every core (R346). -/
def inTiles (s : State) (core : Nat) (ws : List Word) : Bool :=
  (carrelCores core ws).all fun c =>
    let v := catOf s c (copyCat ws)
    let off := copyTo ws % 2 ^ 20
    catBase v ≤ off && off + dstLen ws ≤ catBase v + catLen v

/-- The type of a folio fill: one that MFOLIO accepts (R300, R346). -/
def fillType (ws : List Word) : Bool :=
  match copyFtype ws with
  | some t => isTile t || isQ t
  | none => false

/-- R319, R324, R326, R346: what ends an entry with ILLEGAL_FIELD before anything else. -/
def copyIllegal (s : State) (core : Nat) (ws : List Word) : Bool :=
  let c := ctrlOf ws
  let x := xformOf ws
  let src := copySrc ws
  let dst := copyDst ws
  let unit := if copyXp ws == 1 then 64 else 32
  2 ^ 48 ≤ c || 5 < bits c 9 7 || 5 < bits c 13 11 || copyXp ws == 3 || (copyMc ws && copyXp ws != 0) ||
  bits c 2 0 == 7 || bits c 5 3 == 7 || !pairOk src dst ||
  2 ^ layoutBits src ≤ cfgWord ws 0 ||
  (if copyMc ws then src != .global || dst != .carrel || cfgWord ws 1 == 0 || 2 ^ 52 ≤ cfgWord ws 2
   else 2 ^ layoutBits dst ≤ cfgWord ws 1 || (copyXp ws == 0 && 2 ^ 32 ≤ cfgWord ws 2)) ||
  (dst != .folio && bits c 47 42 != 0) || (dst == .folio && !fillType ws) ||
  (copyXp ws != 0 && (copyChan ws < 6 || x.rows % unit != 0 || x.cols % unit != 0 || x.spitch < x.cols * x.size ||
    x.dpitch < x.rows * x.size)) ||
  (copyCv ws && ((carrelCores core ws).isEmpty || !inTiles s core ws))

/-- A range that passes the end of its space (R25). -/
def pastSpace (space : Space) (a n : Nat) : Bool :=
  match space with
  | .carrel => carrelBytes < a + n || carrelBytes ≤ a
  | .rcarrel => carrelBytes < a % 2 ^ 20 + n || carrelBytes ≤ a % 2 ^ 20
  | .accum => 0x80000 < a + n
  | .stacks => stacksBytes < a + n || stacksBytes ≤ a
  | .folio => folioBytes ≤ a
  | .global | .host => 2 ^ 56 < a + n

/-- Cells of the local stacks that firmware has reserved (R399, R518). -/
def stacksHeld (s : State) (die : Nat) (space : Space) (a n : Nat) : Bool :=
  space == .stacks && reservedCells s (stacksLoc die a) n

/-- R320: the checks before anything is written; the cause of the first that fails. -/
def copyFault (s : State) (core wg : Nat) (ws : List Word) : Option (BitVec 8) :=
  let src := copySrc ws
  let dst := copyDst ws
  let a := cfgWord ws 0
  let b := copyTo ws
  let die := dieOfCore core
  let w := wgOf s wg
  let accum := src == .accum || dst == .accum
  if copyIllegal s core ws then some cIllegalField
  else if pastSpace src a (srcLen ws) || pastSpace dst b (dstLen ws) || stacksHeld s die src a (srcLen ws) ||
      stacksHeld s die dst b (dstLen ws) then some cProtection
  else if dst == .carrel && !copyMc ws && !inCarrelRegion w b (dstLen ws) then some cProtection
  else if dst == .folio && (b % 8192 != 0 || dstLen ws % 8192 != 0 || folioBytes < b + dstLen ws ||
      (copyXp ws != 0 && (xformOf ws).dpitch != (xformOf ws).rows * (xformOf ws).size)) then
    some cIllegalField
  else if accum && !w.owner then some cProtection
  else if dst == .accum && (b % 4 != 0 || dstLen ws % 4 != 0) then some cIllegalField
  else none

/-! ### Reading entries in (R315, R321, R325, R327) -/

/-- The a-tiles of a range. -/
def accumTiles (a n : Nat) : List Nat := (List.range 8).filter fun t => overlap a n (65536 * t) 65536

/-- The a-tiles that an entry touches. -/
def copyTiles (ws : List Word) : List Nat :=
  (if copySrc ws == .accum then accumTiles (cfgWord ws 0) (srcLen ws) else []) ++
  (if copyDst ws == .accum then accumTiles (copyTo ws) (dstLen ws) else [])

/-- Whether an entry takes a place in the matrix engine's queue. -/
def takesPlace (s : State) (core wg : Nat) (ws : List Word) : Bool :=
  !(copyTiles ws).isEmpty && (copyFault s core wg ws).isNone

/-- A bit for each tile. -/
def tileMask (ts : List Nat) : Word := BitVec.ofNat 64 (((List.range 8).filter ts.contains).map fun n => 2 ^ n).sum

/-- Binds the catalog tiles of an entry that are EMPTY (R278, R327). -/
def bindTiles (s : State) (x : CopyRun) : State × CopyRun :=
  if !copyCv x.words then (s, x)
  else (carrelCores x.core x.words).foldl (fun acc c =>
    if acc.2.bound.contains c || catState (catOf acc.1 c (copyCat x.words)) != catEmpty then acc
    else (catBind acc.1 c (copyCat x.words), { acc.2 with bound := acc.2.bound ++ [c] })) (s, x)

/-- Whether every tile of an entry is bound. -/
def allBound (x : CopyRun) : Bool := !copyCv x.words || (carrelCores x.core x.words).all x.bound.contains

/-- The core and offset of a copy ring's header. -/
def ringPlace (r : Ring) : Nat × Nat :=
  match r.loc with
  | .carrel c off => (c, off)
  | .global _ _ => (0, 0)

/-- A copy ring as its engine sees it. -/
def copyView (s : State) (r : Ring) : RingView :=
  viewAt s (Place.plain (carrelLoc (ringPlace r).1 (ringPlace r).2)) .carrel limTaken

/-- The copy engine as it serves a ring: its flow is its quad's number on the die (log entry 21). -/
def copyServer (s : State) (quad : Nat) (r : Ring) : Server :=
  { w := { die := quad / 16, flow := quad % 16, owner := .header quad r.loc, context := (wgOf s r.wg).context },
    asid := 0, priv := false, chain := false, size := 32 }

/-- Whether a copy ring has an entry to read in. -/
def copyDue (s : State) (r : Ring) : Bool :=
  let cell := carrelLoc (ringPlace r).1 (ringPlace r).2
  !r.faulted && wgServed s r.wg && hdrPub s cell != hdrTaken s cell

/-- The copy ring that is read next, round-robin (R321). -/
def nextRing (s : State) (q : Quad) : Option (Nat × Ring) :=
  let n := q.rings.length
  (List.range n).findSome? fun i =>
    let k := (q.rrRing + 1 + i) % n
    match q.rings[k]? with
    | some r => if copyDue s r then some (k, r) else none
    | none => none

/-- A ring of a quad changed. -/
def modRing (s : State) (quad : Nat) (r : Ring) (f : Ring → Ring) : State :=
  modQuad s quad fun q => { q with rings := q.rings.map fun y => if y.loc == r.loc && y.wg == r.wg then f y else y }

/-- The channels of a quad with one changed. -/
def modChan (s : State) (quad ch : Nat) (f : List CopyRun → List CopyRun) : State :=
  modQuad s quad fun q => { q with chans := tset q.chans ch (f (tgetD q.chans ch [])) }

/-- An entry read in: TAKEN, the channel, its tile, its place in the matrix engine's order. -/
def readEntry (s : State) (quad : Nat) (r : Ring) (cell : Nat) : State :=
  let (core, off) := ringPlace r
  let e := (hdrTaken s cell + 1) % 2 ^ 48
  let v := copyServer s quad r
  let ws := match ringEntry s v r.loc (Place.plain cell) e with
    | .ok (_, ws) => ws
    | .error _ => []
  let x : CopyRun :=
    { hdr := off, core, wg := r.wg, k := e, words := ws, chunk := 0, pos := 0, st := .queued, bound := [],
      poison := false, sour := [] }
  if takesPlace s core r.wg ws && 16 ≤ (coreOf s core).mx.queue.length then s
  else
    let place := takesPlace s core r.wg ws
    let (s1, x1) := bindTiles (putTaken s v.w (Place.plain cell) e) x
    let s2 := modChan s1 quad (copyChan ws) fun xs => xs ++ [x1]
    if place then
      modMx s2 core fun m =>
        { m with queue := m.queue ++ [{ work := .accum quad (copyChan ws) off e, tids := [], a := tileMask (copyTiles ws),
                                        b := 0, c := 0, xv := 0, pages := [], words := [] }] }
    else s2

/-- COPY_RING_READ (R321): one entry, or the fault of its ring (R31, R315). -/
def execCopyRingRead (quad : Nat) (s : State) : Host.Outcome State Fault Refusal :=
  if 64 ≤ quad then .fault .noSuchUnit
  else match nextRing s (quadOf s quad) with
    | none => .next s
    | some (k, r) =>
      let (core, off) := ringPlace r
      let cell := carrelLoc core off
      let s1 := modQuad s quad fun q => { q with rrRing := k }
      let w := wgOf s r.wg
      let fault (c : BitVec 8) (a : Nat) : State :=
        reportRing (modRing s1 quad r fun y => { y with faulted := true }) r.wg c.toNat (some a)
      if overrun s1 cell then .next (fault cQueueOverrun off)
      else if !inCarrelRegion w off 64 || !ringInRegion w (copyView s1 r) then .next (fault cProtection off)
      else .next (readEntry s1 quad r cell)

/-! ### The end of an entry's data (R278, R325, R327, R330) -/

/-- The entry leaves the matrix engine's queue. -/
def leaveQueue (s : State) (quad : Nat) (x : CopyRun) : State :=
  modMx s x.core fun m =>
    { m with queue := m.queue.filter fun it => it.work != .accum quad (copyChan x.words) x.hdr x.k }

/-- The tag of a folio row that an entry fills (R346). -/
def fillTag (ws : List Word) : FTag := 0#3 ++ fmtCode ((copyFtype ws).getD .none)

/-- The fill-source records of a folio fill (R275, R346). -/
def copyRecords (s : State) (x : CopyRun) : State :=
  match copyDst x.words, copyFtype x.words with
  | .folio, some _ =>
    if dstLen x.words == 0 then s
    else putRecords s x.core (copyTo x.words / 8192) (dstLen x.words / 8192) (cfgWord x.words 0) (8192 * 2 ^ 32 + 64)
      (copySrc x.words) (fillTag x.words)
  | _, _ => s

/-- The rows of a folio fill: poison in the source poisons its row, and a whole fill clears the others (R258, R273). -/
def settleRows (s : State) (x : CopyRun) (whole : Bool) : State :=
  match copyDst x.words with
  | .folio =>
    let f0 := copyTo x.words / 8192
    let rows := if whole then (List.range (dstLen x.words / 8192)).map fun i => f0 + i else []
    modMx s x.core fun m =>
      { m with rowGood := (m.rowGood.filter fun r => !x.sour.contains r) ++
          rows.filter fun r => !x.sour.contains r && !m.rowGood.contains r }
  | _ => s

/-- An entry whose data is done, or that has ended with a fault: its tile goes READY, or EMPTY with FAULT. -/
def finishRun (s : State) (quad : Nat) (x : CopyRun) (cause sub : Nat) : State :=
  let e := copyCat x.words
  let s1 := x.bound.foldl (fun st c => if cause == 0 then catFilled st c e none else catAbandon st c e) s
  let s2 := settleRows (if cause == 0 then copyRecords s1 x else s1) x (cause == 0)
  let s3 := leaveQueue s2 quad x
  modChan s3 quad (copyChan x.words) fun xs => xs.map fun y =>
    if y.hdr == x.hdr && y.core == x.core && y.k == x.k then
      { x with st := .finished (BitVec.ofNat 8 cause) (BitVec.ofNat 8 sub) } else y

/-- A channel's first entry replaced. -/
def putRun (s : State) (quad ch : Nat) (x : CopyRun) : State := modChan s quad ch fun xs => x :: xs.drop 1

/-- Ends an entry with a fault that does not park (R251). -/
def endRun (s : State) (quad : Nat) (x : CopyRun) (f : FaultCode) : State :=
  let (sub, s1) := orFree s f.2
  finishRun s1 quad x f.1 (sub % 256)

/-- The owner of an entry's packets. -/
def copyOwner (quad : Nat) (x : CopyRun) : Owner := .copy quad (x.core * 2 ^ 20 + x.hdr) x.k

/-- A chunk's fault: it parks the entry with a record, or ends it (R251, R330). -/
def failRun (s0 : State) (quad ch : Nat) (x : CopyRun) (f : EngFault) : State :=
  let s := dropAsks s0 (copyOwner quad x)
  if parks f.1 then
    let (idx, s1) := drawFree s
    let (sub, s2) := orFree s1 f.1.2
    let s3 := putRun s2 quad ch
      { x with st := .parked (BitVec.ofNat 8 f.1.1) (BitVec.ofNat 8 sub) (BitVec.ofNat 64 f.2) idx }
    reportNote s3 (wgOf s3 x.wg).context
      { cause := f.1.1, sub := some (sub % 256), source := 1, core := some x.core, word1 := some idx.toNat, addr := some f.2,
        w := some (wgOf s3 x.wg).w }
  else endRun s quad x f.1

/-! ### Channels (R321) -/

/-- A channel's first entry. -/
def headRun (s : State) (quad ch : Nat) : Option CopyRun := (tgetD (quadOf s quad).chans ch []).head?

/-- The chunks of a transposing entry: blocks of 64 rows of 64 bytes (R326). -/
def blocksAcross (x : XForm) : Nat := x.cols * x.size / 64
def blockCount (x : XForm) : Nat := (x.rows + 63) / 64 * blocksAcross x

/-- Whether every byte of an entry has been moved. -/
def runDone (x : CopyRun) : Bool :=
  if copyXp x.words == 0 then copyLen x.words ≤ x.pos else blockCount (xformOf x.words) ≤ x.chunk

/-- COPY_CHANNEL_START: the checks of R320 once every tile is bound; an entry without data is done at once. -/
def execCopyChannelStart (quad ch : Nat) (s : State) : Host.Outcome State Fault Refusal :=
  if 64 ≤ quad || 8 ≤ ch then .fault .noSuchUnit
  else match headRun s quad ch with
    | none => .next s
    | some x =>
      if x.st != .queued || !wgServed s x.wg then .next s
      else
        let (s1, x1) := bindTiles s x
        let s2 := putRun s1 quad ch x1
        if !allBound x1 then .next s2
        else match copyFault s2 x1.core x1.wg x1.words with
          | some c => .next (endRun s2 quad x1 (c.toNat, none))
          | none =>
            if runDone x1 then .next (finishRun s2 quad x1 0 0)
            else .next (putRun s2 quad ch { x1 with st := .running })

/-! ### Chunks (R322, R324 to R326) -/

/-- The party of an entry's accesses. -/
def copyParty (s : State) (x : CopyRun) : Party :=
  let w := wgOf s x.wg
  engineParty (some x.core) (dieOfCore x.core) w.asid.toNat w.priv

/-- The writer of an entry's accesses; its flow is its quad's number on the die (log entry 21). -/
def copyWriter (s : State) (quad : Nat) (x : CopyRun) : Writer :=
  { die := dieOfCore x.core, flow := quad % 16, owner := copyOwner quad x, context := (wgOf s x.wg).context }

/-- Bytes of the accum space as a drain reads them (R288, R325). -/
def accumBytes (s : State) (core a n : Nat) : List Byte :=
  (List.range n).map fun i =>
    let t := (a + i) / 65536
    let k := (a + i) % 65536 / 4
    BitVec.ofNat 8 (drainCode s (accumLoc core (65536 * t)) (marksAt s core t) k / 2 ^ (8 * ((a + i) % 4)))

/-- One run of an entry's source. -/
def copyRead (s : State) (quad : Nat) (x : CopyRun) (a n : Nat) : Except EngStop (State × List Byte × List Bool) :=
  match copySrc x.words with
  | .accum =>
    if (accumTiles a n).any fun t => (coreOf s x.core).mx.err.contains (16 + t) then
      .error (.fault ((cEccUncorrected.toNat, none), a))
    else .ok (s, accumBytes s x.core a n, List.replicate n false)
  | sp =>
    match spansOf s (copyParty s x) sp .rd a n with
    | .error e => .error (.fault e)
    | .ok (s1, xs) => readSpans s1 (copyWriter s quad x) xs

/-- Where a run of an entry's destination goes. -/
inductive CopyOut where
  | spans (xs : List Span)
  | accum (a : Nat)
  | folio (a : Nat)

/-- One run of the destination, checked before anything is written. -/
def copyOut (s : State) (x : CopyRun) (a n : Nat) : Except EngFault (State × List CopyOut) :=
  let p := copyParty s x
  if copyMc x.words then
    (carrelCores x.core x.words).foldl (fun acc c =>
      match acc with
      | .error e => .error e
      | .ok (st, os) =>
        match spansOf st p .rcarrel .wr (c % 64 * 2 ^ 20 + a) n with
        | .error e => .error e
        | .ok (st1, xs) => .ok (st1, os ++ [.spans xs])) (.ok (s, []))
  else match copyDst x.words with
    | .accum => .ok (s, [.accum a])
    | .folio => .ok (s, [.folio a])
    | sp =>
      match spansOf s p sp .wr a n with
      | .error e => .error e
      | .ok (s1, xs) => .ok (s1, [.spans xs])

/-- Folio bytes written, with the tag of their row (R346). -/
def folioPut (s : State) (x : CopyRun) (a : Nat) (bs : List Byte) : State :=
  modMx (writeBytes s (folioLoc x.core a) bs) x.core fun m =>
    { m with rowTag := tset m.rowTag (a / 8192) (fillTag x.words) }

/-- One run written to its places. -/
def copyPut (s : State) (quad : Nat) (x : CopyRun) (outs : List CopyOut) (bs : List Byte) (bad : List Bool) :
    Except EngFault State :=
  outs.foldl (fun acc o =>
    match acc with
    | .error e => .error e
    | .ok st =>
      match o with
      | .spans xs => writeSpans st (copyWriter st quad x) xs bs bad
      | .accum a => .ok (writeBytes st (accumLoc x.core a) bs)
      | .folio a => .ok (folioPut st x a bs)) (.ok s)

/-- What a run of poison leaves behind in the entry's record: the host's status, or the a-tile or folio row that it
reached (R258, R259). -/
def notePoison (x : CopyRun) (a n : Nat) (bad : List Bool) : CopyRun :=
  if !bad.any id then x
  else match copyDst x.words with
    | .host => { x with poison := true }
    | .accum => { x with sour := x.sour ++ (accumTiles a n).filter fun t => !x.sour.contains t }
    | .folio => { x with sour := a / 8192 :: x.sour }
    | _ => x

/-- The runs of one chunk: source runs, and for each destination run its address and which bytes of the source it takes. -/
structure ChunkPlan where
  reads : List (Nat × Nat)
  writes : List (Nat × List Nat)
  len : Nat

/-- The next chunk of a plain or multicast entry: 4 KiB, within a page of either side (R322). A folio fill whose source page
ends within a column segment moves the rest of the segment with it, since an MMA sees each segment whole (R274). -/
def plainChunk (x : CopyRun) : ChunkPlan :=
  let a := cfgWord x.words 0 + x.pos
  let b := copyTo x.words + x.pos
  let left := copyLen x.words - x.pos
  let n := min (min 4096 left) (min (granuleLeft a) (granuleLeft b))
  let more := if copyDst x.words == .folio then min (left - n) ((64 - (b + n) % 64) % 64) else 0
  { reads := if more == 0 then [(a, n)] else [(a, n), (a + n, more)], writes := [(b, List.range (n + more))], len := n + more }

/-- The next block of a transposing entry (R326). -/
def blockChunk (x : CopyRun) : ChunkPlan :=
  let f := xformOf x.words
  let i0 := x.chunk / blocksAcross f * 64
  let j0 := x.chunk % blocksAcross f * (64 / f.size)
  let n := min 64 (f.rows - i0)
  { reads := (List.range n).map fun i => (cfgWord x.words 0 + (i0 + i) * f.spitch + j0 * f.size, 64)
    writes := (List.range (64 / f.size)).map fun j =>
      (copyTo x.words + (j0 + j) * f.dpitch + i0 * f.size,
        (List.range n).flatMap fun i => (List.range f.size).map fun b => 64 * i + j * f.size + b)
    len := 64 * n }

/-- Reads the runs of a chunk. -/
def chunkReads (s : State) (quad : Nat) (x : CopyRun) (rs : List (Nat × Nat)) :
    Except EngStop (State × List Byte × List Bool) :=
  rs.foldl (fun acc r =>
    match acc with
    | .error e => .error e
    | .ok (st, bs, bad) =>
      match copyRead st quad x r.1 r.2 with
      | .error e => .error e
      | .ok (st1, b1, p1) => .ok (st1, bs ++ b1, bad ++ p1)) (.ok (s, [], []))

/-- Checks the destination runs of a chunk. -/
def chunkOuts (s : State) (x : CopyRun) (ws : List (Nat × List Nat)) :
    Except EngFault (State × List (List CopyOut × Nat × List Nat)) :=
  ws.foldl (fun acc w =>
    match acc with
    | .error e => .error e
    | .ok (st, os) =>
      match copyOut st x w.1 w.2.length with
      | .error e => .error e
      | .ok (st1, o) => .ok (st1, os ++ [(o, w.1, w.2)])) (.ok (s, []))

/-- Writes the runs of a chunk; the run afterwards has met its poison. -/
def chunkWrites (s : State) (quad : Nat) (x : CopyRun) (os : List (List CopyOut × Nat × List Nat)) (bs : List Byte)
    (bad : List Bool) : Except EngFault (State × CopyRun) :=
  os.foldl (fun acc o =>
    match acc with
    | .error e => .error e
    | .ok (st, y) =>
      let b := o.2.2.map fun i => bs.getD i 0
      let p := o.2.2.map fun i => bad.getD i false
      match copyPut st quad y o.1 b p with
      | .error e => .error e
      | .ok st1 => .ok (st1, notePoison y o.2.1 b.length p)) (.ok (s, x))

/-- The next chunk of an entry. -/
def chunkPlan (x : CopyRun) : ChunkPlan := if copyXp x.words == 0 then plainChunk x else blockChunk x

/-- Whether the chunks still to come write an a-tile. -/
def tileAhead (z : CopyRun) (t : Nat) : Bool :=
  if copyXp z.words == 0 then z.pos < copyLen z.words && copyTo z.words + z.pos < 65536 * t + 65536
  else (List.range (blockCount (xformOf z.words) - z.chunk)).any fun i =>
    (blockChunk { z with chunk := z.chunk + i }).writes.any fun w => (accumTiles w.1 w.2.length).contains t

/-- What a chunk into the accum space does to its tiles: poison sets their error flags, and the last chunk on a tile that
the entry's range covers whole clears its marks, and its flag where no poison came (R258, R325). -/
def settleTiles (s : State) (x z : CopyRun) (plan : ChunkPlan) : State :=
  if copyDst x.words != .accum then s
  else
    let b := copyTo x.words
    let whole := (plan.writes.flatMap fun w => accumTiles w.1 w.2.length).filter fun t =>
      b ≤ 65536 * t && 65536 * t + 65536 ≤ b + dstLen x.words && !tileAhead z t
    modMx s x.core fun m =>
      { m with
        marks := m.marks.filter fun e => !whole.contains e.1
        err := (m.err.filter fun e => !(16 ≤ e && whole.contains (e - 16) && !z.sour.contains (e - 16))) ++
          (z.sour.map (16 + ·)).filter fun e => !m.err.contains e }

/-- One chunk of an entry: every read and every check before the first write. -/
def copyChunk (s : State) (quad ch : Nat) (x : CopyRun) : State :=
  let plan := chunkPlan x
  match chunkReads s quad x plan.reads with
  | .error (.waits s1) => s1
  | .error (.fault e) => failRun s quad ch x e
  | .ok (s1, bs, bad) =>
    match chunkOuts s1 x plan.writes with
    | .error e => failRun s quad ch x e
    | .ok (s2, os) =>
      match chunkWrites s2 quad x os bs bad with
      | .error e => failRun s quad ch x e
      | .ok (s3, y) =>
        let z := { y with chunk := x.chunk + 1, pos := x.pos + plan.len }
        let s4 := settleTiles (dropAsks s3 (copyOwner quad x)) x z plan
        if runDone z then finishRun s4 quad z 0 0 else putRun s4 quad ch z

/-- Whether an accum entry stands behind an instruction of its core's queue (R325). -/
def accumWaits (s : State) (quad : Nat) (x : CopyRun) : Bool :=
  let q := (coreOf s x.core).mx.queue
  let mine (it : MItem) : Bool := it.work == .accum quad (copyChan x.words) x.hdr x.k
  q.any mine && (q.takeWhile fun it => !mine it).any fun it => match it.work with
    | .ins _ => true
    | .accum _ _ _ _ => (itemWrites it).any fun t => (copyTiles x.words).contains (t - 16)

/-- COPY_CHUNK (R322). -/
def execCopyChunk (quad ch : Nat) (s : State) : Host.Outcome State Fault Refusal :=
  if 64 ≤ quad || 8 ≤ ch then .fault .noSuchUnit
  else match headRun s quad ch with
    | none => .next s
    | some x =>
      .next (if x.st == .running && wgServed s x.wg && !accumWaits s quad x then withRoom s (quad / 16) (copyChunk s quad ch x) else s)

/-! ### Completion (R318, R323, R328) -/

/-- Whether packets of an entry still await their acknowledgement (R452). -/
def copyInFlight (s : State) (quad hdr k : Nat) : Bool :=
  s.fabric.ports.any fun p => p.2.kept.any fun y => y.owner == .copy quad hdr k

/-- The status word's slot of entry k (R315, R318). -/
def statusCell (s : State) (core cell k : Nat) : Nat :=
  let n := hdrLogn s cell
  carrelLoc core (hdrBase s cell + 32 * 2 ^ n + 4 * slotIndex k n)

/-- The status word, the release, the task and ACC, in this order (R36, R318). -/
def completeRun (s : State) (quad ch : Nat) (x : CopyRun) (cause sub : Nat) : State :=
  let cell := carrelLoc x.core x.hdr
  let c := if cause == 0 && x.poison then cPoison.toNat else cause
  let s1 := storeBytes s (statusCell s x.core cell x.k) (leBytes 4 (c + sub % 256 * 2 ^ 8))
  let s2 := sendDecIf s1 (bit (ctrlOf x.words) 27) (bits (ctrlOf x.words) 41 28)
  let s3 := modChan s2 quad ch fun xs => xs.drop 1
  match (quadOf s3 quad).rings.find? fun r => r.loc == .carrel x.core x.hdr && r.wg == x.wg with
  | none => s3
  | some r =>
    let (s4, r1) := completeEntry s3 (copyServer s3 quad r).w (Place.plain cell) r x.k
    if hdrPub s4 cell == hdrAcc s4 cell then
      -- the ring is bound no longer (R315)
      modQuad s4 quad fun q => { q with rings := q.rings.filter fun y => y.loc != r.loc || y.wg != r.wg }
    else modRing s4 quad r fun _ => r1

/-- COPY_ENTRY_COMPLETE (R318): the head of the channel, once its writes have performed. -/
def execCopyEntryComplete (quad ch : Nat) (s : State) : Host.Outcome State Fault Refusal :=
  if 64 ≤ quad || 8 ≤ ch then .fault .noSuchUnit
  else match headRun s quad ch with
    | none => .next s
    | some x =>
      match x.st with
      | .finished cause sub =>
        if copyInFlight s quad (x.core * 2 ^ 20 + x.hdr) x.k || !wgServed s x.wg then .next s
        else .next (completeRun s quad ch x cause.toNat sub.toNat)
      | _ => .next s

end Sys2Proof.Machine
end

