-- ==== Sys2Proof/Machine/Codec.lean ====
section
/-! DEFINITION. The decoders and checksums of job cards: LZ4 blocks (R362 to R364), DEFLATE (R337, RFC 1951), and the
CRCs of R176 over a run of bytes (R338). -/

namespace Sys2Proof.Machine

/-! ### Outcomes (R337, R359) -/

/-- What a decoder ends with: STATUS, the input offset reached, and the output so far. -/
structure Decoded where
  status : Nat
  inOff : Nat
  out : List Byte
  deriving DecidableEq, Repr

def stDone : Nat := 0
def stFormat : Nat := 1
def stData : Nat := 2
def stOverflow : Nat := 4
def stInput : Nat := 5
def stRefused : Nat := 6
def stAbandoned : Nat := 7
def stPoison : Nat := 8

/-- The decoder has come to a page that faults: no status of a record, but what the engine meets (R251, R336). -/
def stFault : Nat := 16

/-- The same of the dictionary. -/
def stDictFault : Nat := 17

/-- A decoder's input: its bytes as far as they can be read, which of them are poisoned, and how many follow on pages that
fault. A decoder meets poison or a fault only where it reads (R251, R259, R364). -/
structure Input where
  bytes : List Byte
  bad : List Bool
  lost : Nat
  deriving DecidableEq, Repr

/-- An input with nothing amiss. -/
def Input.clean (bs : List Byte) : Input := ⟨bs, [], 0⟩

/-- The input's length. -/
def Input.len (x : Input) : Nat := x.bytes.length + x.lost

/-- Byte i of an input, or what the read meets: the input's end, a fault or poison. -/
def Input.get (x : Input) (i : Nat) : Except Nat Nat :=
  if x.len ≤ i then .error stData
  else if x.bytes.length ≤ i then .error stFault
  else if x.bad.getD i false then .error stPoison
  else .ok (x.bytes.getD i 0).toNat

/-- What stops a read of n bytes from offset i, if anything does. -/
def Input.stop (x : Input) (i n : Nat) : Option Nat :=
  (List.range (min n (x.len + 1 - i))).findSome? fun t => match x.get (i + t) with
    | .error e => some e
    | .ok _ => none

/-- The first offset that cannot be read. -/
def Input.limit (x : Input) : Nat := match x.bad.findIdx? id with
  | some b => min b x.bytes.length
  | none => x.bytes.length

/-- What a read at the limit meets. -/
def Input.ending (x : Input) : Nat := match x.get x.limit with
  | .error e => e
  | .ok _ => stData

/-! ### LZ4 (R362 to R364) -/

/-- An extended count: bytes are added until the first below 255. -/
def lz4Ext (x : Input) (i v fuel : Nat) : Except Nat (Nat × Nat) :=
  match fuel with
  | 0 => .error stData
  | f + 1 =>
    match x.get i with
    | .error e => .error e
    | .ok b => if b == 255 then lz4Ext x (i + 1) (v + 255) f else .ok (i + 1, v + b)

/-- A count from its nibble, past its extension. -/
def lz4Count (x : Input) (i nibble : Nat) : Except Nat (Nat × Nat) :=
  if nibble == 15 then lz4Ext x i 15 (x.len + 1) else .ok (i, nibble)

/-- Copies a match byte by byte; the output is kept in reverse, the dictionary behind it. -/
def lz4Match (hist : List Byte) (off n : Nat) : List Byte :=
  match n with
  | 0 => hist
  | n + 1 => lz4Match (hist.getD (off - 1) 0 :: hist) off n

/-- What a match of n bytes at distance off meets in the dictionary, of whose end it reads from byte o − off on. -/
def dictStop (dict : Input) (o off n : Nat) : Option Nat :=
  if o < off then
    (dict.stop (dict.len + o - off) (min n (off - o))).map fun e => if e == stFault then stDictFault else e
  else none

/-- The dictionary as the decoder's history holds it; bytes that cannot be read are never copied. -/
def dictBytes (dict : Input) : List Byte := dict.bytes ++ List.replicate dict.lost 0

/-- What one sequence gives: the end of the block, or the next offset and history; the status of a failure. -/
inductive Lz4Step where
  | last (i : Nat) (hist : List Byte)
  | more (i : Nat) (hist : List Byte)

/-- One sequence at input offset i (R362): `o` output bytes stand before it. -/
def lz4Seq (x : Input) (dict : Input) (cap i o : Nat) (hist : List Byte) : Except Nat Lz4Step :=
  match x.get i with
  | .error e => .error e
  | .ok tok =>
    match lz4Count x (i + 1) (tok / 16) with
    | .error e => .error e
    | .ok (j, lit) =>
      -- every literal must be readable before the count is compared with the capacity
      match x.stop j lit with
      | some e => .error e
      | none =>
        let hist1 := ((x.bytes.drop j).take lit).reverse ++ hist
        let k := j + lit
        if k == x.len then
          if cap < o + lit then .error stOverflow else .ok (.last k hist1)
        else
          match x.get k, x.get (k + 1) with
          | .error e, _ => .error e
          | _, .error e => .error e
          | .ok lo, .ok hi =>
            let off := lo + 256 * hi
            match lz4Count x (k + 2) (tok % 16) with
            | .error e => .error e
            | .ok (next, m) =>
              let n := m + 4
              if cap < o + lit + n then .error stOverflow
              else if off == 0 || dict.len + o + lit < off then .error stData
              else match dictStop dict (o + lit) off n with
                | some e => .error e
                | none => .ok (.more next (lz4Match hist1 off n))

/-- The sequences of a block; a failure reports the failing sequence's token and the output before it (R364). -/
def lz4Loop (x : Input) (dict : Input) (cap i : Nat) (hist : List Byte) (fuel : Nat) : Decoded :=
  let o := hist.length - dict.len
  let out := (hist.take o).reverse
  match fuel with
  | 0 => ⟨stData, i, out⟩
  | f + 1 =>
    match lz4Seq x dict cap i o hist with
    | .error e => ⟨e, i, out⟩
    | .ok (.last k h) => ⟨stDone, k, (h.take (h.length - dict.len)).reverse⟩
    | .ok (.more k h) => lz4Loop x dict cap k h f

/-- The four bytes of an LZ4 frame header. -/
def lz4Magic : List Byte := [0x04, 0x22, 0x4D, 0x18]

/-- JOB 1: a frame header is refused with FORMAT (R337). -/
def lz4Decode (x dict : Input) (cap : Nat) : Decoded :=
  if x.bytes.take 4 == lz4Magic && (x.stop 0 4).isNone then ⟨stFormat, 0, []⟩
  else lz4Loop x dict cap 0 (dictBytes dict).reverse (x.len + 1)

/-! ### DEFLATE (RFC 1951) -/

/-- The state of a decoder: the bit position, the output in reverse. -/
structure Inflate where
  pos : Nat
  out : List Byte

/-- Bits available: up to the first byte that cannot be read. -/
def inflateLimit (x : Input) : Nat := 8 * x.limit

/-- A failure: its status and where it stood. -/
abbrev InflateErr := Nat × Inflate

/-- The next n bits, least significant first; `v` is the whole input as a number. -/
def takeBits (x : Input) (v : Nat) (st : Inflate) (n : Nat) : Except InflateErr (Nat × Inflate) :=
  if inflateLimit x < st.pos + n then .error (x.ending, st)
  else .ok (v / 2 ^ st.pos % 2 ^ n, { st with pos := st.pos + n })

/-- The symbols of a code length, in order. -/
def symsOf (lens : List Nat) (l : Nat) : List Nat := (List.range lens.length).filter fun i => lens.getD i 0 == l

/-- Decodes one symbol of a canonical Huffman code, a bit at a time from length l on. -/
def huffSym (x : Input) (v : Nat) (lens : List Nat) (st : Inflate) (code first l fuel : Nat) :
    Except InflateErr (Nat × Inflate) :=
  match fuel with
  | 0 => .error (stData, st)
  | f + 1 =>
    match takeBits x v st 1 with
    | .error e => .error e
    | .ok (b, st1) =>
      let c := code + b
      let syms := symsOf lens l
      if c < first + syms.length then .ok (syms.getD (c - first) 0, st1)
      else huffSym x v lens st1 (2 * c) (2 * (first + syms.length)) (l + 1) f

/-- One symbol. -/
def huffNext (x : Input) (v : Nat) (lens : List Nat) (st : Inflate) : Except InflateErr (Nat × Inflate) :=
  huffSym x v lens st 0 0 1 15

/-- What is left of the code space of some lengths, in units of 2^-15: negative when over-subscribed. -/
def codeLeft (lens : List Nat) : Int :=
  lens.foldl (fun (acc : Int) l => if l == 0 then acc else acc - ((2 ^ (15 - l) : Nat) : Int)) ((2 ^ 15 : Nat) : Int)

/-- A set of lengths that makes no code: over-subscribed, or incomplete with more than one code of length 1 (log entry 33). -/
def codeBad (lens : List Nat) : Bool :=
  let used := (lens.filter (· != 0)).length
  codeLeft lens < 0 || (0 < codeLeft lens && !(used == 0 || (used == 1 && lens.contains 1)))

/-- Base and extra bits of length codes 257 to 285, and of distance codes 0 to 29. -/
def lengthBase : List Nat := [3, 4, 5, 6, 7, 8, 9, 10, 11, 13, 15, 17, 19, 23, 27, 31, 35, 43, 51, 59, 67, 83, 99, 115, 131, 163, 195, 227, 258]
def lengthExtra : List Nat := [0, 0, 0, 0, 0, 0, 0, 0, 1, 1, 1, 1, 2, 2, 2, 2, 3, 3, 3, 3, 4, 4, 4, 4, 5, 5, 5, 5, 0]
def distBase : List Nat := [1, 2, 3, 4, 5, 7, 9, 13, 17, 25, 33, 49, 65, 97, 129, 193, 257, 385, 513, 769, 1025, 1537, 2049, 3073, 4097, 6145, 8193, 12289, 16385, 24577]
def distExtra : List Nat := [0, 0, 0, 0, 1, 1, 2, 2, 3, 3, 4, 4, 5, 5, 6, 6, 7, 7, 8, 8, 9, 9, 10, 10, 11, 11, 12, 12, 13, 13]

/-- Appends a match, as far as the capacity lets it. -/
def inflateMatch (out : List Byte) (dist n cap : Nat) : List Byte := lz4Match out dist (min n (cap - out.length))

/-- The symbols of a compressed block until its end. -/
def inflateBlock (x : Input) (v : Nat) (lit dist : List Nat) (cap : Nat) (st : Inflate) (fuel : Nat) :
    Except InflateErr Inflate :=
  match fuel with
  | 0 => .error (stData, st)
  | f + 1 =>
    match huffNext x v lit st with
    | .error (e, _) => .error (e, st)
    | .ok (sym, st1) =>
      if sym < 256 then
        if cap ≤ st.out.length then .error (stOverflow, st)
        else inflateBlock x v lit dist cap { st1 with out := BitVec.ofNat 8 sym :: st1.out } f
      else if sym == 256 then .ok st1
      else if 285 < sym then .error (stData, st)
      else
        match takeBits x v st1 (lengthExtra.getD (sym - 257) 0) with
        | .error (e, _) => .error (e, st)
        | .ok (le, st2) =>
          match huffNext x v dist st2 with
          | .error (e, _) => .error (e, st)
          | .ok (ds, st3) =>
            if 29 < ds then .error (stData, st)
            else
              match takeBits x v st3 (distExtra.getD ds 0) with
              | .error (e, _) => .error (e, st)
              | .ok (de, st4) =>
                let n := lengthBase.getD (sym - 257) 0 + le
                let d := distBase.getD ds 0 + de
                if st.out.length < d then .error (stData, st)
                else
                  let st5 := { st4 with out := inflateMatch st4.out d n cap }
                  if cap < st.out.length + n then .error (stOverflow, { st with out := st5.out })
                  else inflateBlock x v lit dist cap st5 f

/-- A stored block: n bytes at a byte boundary. -/
def inflateStored (x : Input) (v : Nat) (cap : Nat) (st : Inflate) (n : Nat) : Except InflateErr Inflate :=
  match n with
  | 0 => .ok st
  | n + 1 =>
    match takeBits x v st 8 with
    | .error e => .error e
    | .ok (b, st1) =>
      if cap ≤ st.out.length then .error (stOverflow, st)
      else inflateStored x v cap { st1 with out := BitVec.ofNat 8 b :: st1.out } n

/-- The order of the code length code lengths. -/
def clOrder : List Nat := [16, 17, 18, 0, 8, 7, 9, 6, 10, 5, 11, 4, 12, 3, 13, 2, 14, 1, 15]

/-- n fields of w bits. -/
def takeFields (x : Input) (v : Nat) (w : Nat) (st : Inflate) (n : Nat) : Except InflateErr (List Nat × Inflate) :=
  match n with
  | 0 => .ok ([], st)
  | n + 1 =>
    match takeBits x v st w with
    | .error e => .error e
    | .ok (a, st1) =>
      match takeFields x v w st1 n with
      | .error e => .error e
      | .ok (as, st2) => .ok (a :: as, st2)

/-- The code lengths of a dynamic block, until `total` are known. -/
def dynLens (x : Input) (v : Nat) (cl : List Nat) (total : Nat) (st : Inflate) (acc : List Nat) (fuel : Nat) :
    Except InflateErr (List Nat × Inflate) :=
  match fuel with
  | 0 => .error (stData, st)
  | f + 1 =>
    if total ≤ acc.length then if acc.length == total then .ok (acc, st) else .error (stData, st)
    else
      match huffNext x v cl st with
      | .error e => .error e
      | .ok (sym, st1) =>
        if sym < 16 then dynLens x v cl total st1 (acc ++ [sym]) f
        else
          let (w, base) := if sym == 16 then (2, 3) else if sym == 17 then (3, 3) else (7, 11)
          match takeBits x v st1 w with
          | .error e => .error e
          | .ok (n, st2) =>
            if sym == 16 && acc.isEmpty then .error (stData, st)
            else
              let fill := if sym == 16 then acc.getLastD 0 else 0
              dynLens x v cl total st2 (acc ++ List.replicate (base + n) fill) f

/-- The two codes of a dynamic block. -/
def dynCodes (x : Input) (v : Nat) (st : Inflate) : Except InflateErr (List Nat × List Nat × Inflate) :=
  match takeBits x v st 14 with
  | .error e => .error e
  | .ok (h, st1) =>
    let nlit := h % 32 + 257
    let ndist := h / 32 % 32 + 1
    let ncl := h / 1024 + 4
    if 286 < nlit || 30 < ndist then .error (stData, st)
    else
      match takeFields x v 3 st1 ncl with
      | .error e => .error e
      | .ok (ls, st2) =>
        let cl := (List.range 19).map fun s => ls.getD (clOrder.findIdx (· == s)) 0
        if codeLeft cl != 0 then .error (stData, st)
        else
          match dynLens x v cl (nlit + ndist) st2 [] 400 with
          | .error e => .error e
          | .ok (all, st3) =>
            let lit := all.take nlit
            let dist := all.drop nlit
            if lit.getD 256 0 == 0 || codeBad lit || codeBad dist then .error (stData, st) else .ok (lit, dist, st3)

/-- The fixed codes. -/
def fixedLit : List Nat :=
  List.replicate 144 8 ++ List.replicate 112 9 ++ List.replicate 24 7 ++ List.replicate 8 8
def fixedDist : List Nat := List.replicate 30 5

/-- One block: whether it was the last, and the state after. -/
def inflateOne (x : Input) (v cap : Nat) (st : Inflate) : Except InflateErr (Bool × Inflate) :=
  match takeBits x v st 3 with
  | .error e => .error e
  | .ok (h, st1) =>
    let done (r : Except InflateErr Inflate) : Except InflateErr (Bool × Inflate) := r.map fun s => (h % 2 == 1, s)
    let fuel := inflateLimit x + 1
    match h / 2 with
    | 0 =>
      let st2 := { st1 with pos := (st1.pos + 7) / 8 * 8 }
      match takeBits x v st2 32 with
      | .error e => .error e
      | .ok (w, st3) =>
        if w % 2 ^ 16 + w / 2 ^ 16 == 2 ^ 16 - 1 then done (inflateStored x v cap st3 (w % 2 ^ 16)) else .error (stData, st)
    | 1 => done (inflateBlock x v fixedLit fixedDist cap st1 fuel)
    | 2 =>
      match dynCodes x v st1 with
      | .error e => .error e
      | .ok (lit, dist, st2) => done (inflateBlock x v lit dist cap st2 fuel)
    | _ => .error (stData, st)

/-- The blocks of a stream. -/
def inflateLoop (x : Input) (v cap : Nat) (st : Inflate) (fuel : Nat) : Except InflateErr Inflate :=
  match fuel with
  | 0 => .error (stData, st)
  | f + 1 =>
    match inflateOne x v cap st with
    | .error e => .error e
    | .ok (last, st1) => if last then .ok st1 else inflateLoop x v cap st1 f

/-- A zlib or gzip wrapper (R337). -/
def wrapped (bs : List Byte) : Bool :=
  let a := (bs.getD 0 0).toNat
  let b := (bs.getD 1 0).toNat
  2 ≤ bs.length && ((a == 0x1F && b == 0x8B) || (a % 16 == 8 && a / 16 ≤ 7 && (256 * a + b) % 31 == 0))

/-- JOB 2; a wrapper that does not decode as a raw stream is refused with FORMAT. -/
def inflate (x : Input) (cap : Nat) : Decoded :=
  match inflateLoop x (leNat x.bytes) cap ⟨0, []⟩ (8 * x.bytes.length + 1) with
  | .ok st => ⟨stDone, (st.pos + 7) / 8, st.out.reverse⟩
  | .error (e, st) =>
    if e == stData && st.out.isEmpty && wrapped x.bytes then ⟨stFormat, 0, []⟩
    else ⟨e, (st.pos + 7) / 8, st.out.reverse⟩

/-! ### Checksums (R338) -/

/-- The checksum of CSUM over bytes, with the initial value and final exclusive-or of R176. -/
def checksum (csum : Nat) (bs : List Byte) : Nat :=
  let p := csum - 1
  let ones := if p == 2 then 0 else 2 ^ crcWidth p - 1
  (bs.foldl (fun acc b => crcByte p acc b.toNat) ones) ^^^ ones

end Sys2Proof.Machine
end

