-- ==== Sys2Proof/Machine/Zstd.lean ====
section
/-! DEFINITION. JOB 3 of a job card: Zstandard frames (R337, RFC 8878). -/

namespace Sys2Proof.Machine

/-! ### Bits

A forward stream is read from bit 0 up; a backward stream from the bit below the highest set bit of its last byte down. -/

/-- The position of a value's highest set bit. -/
def topBit (v : Nat) : Nat := Nat.log2 v

/-- The next n bits of a backward stream whose next bit is below `pos`. -/
def backBits (v pos n : Nat) : Option (Nat × Nat) := if pos < n then none else some (v / 2 ^ (pos - n) % 2 ^ n, pos - n)

/-- The next n bits, bits before the stream's first reading as zero. -/
def peekBits (v pos n : Nat) : Nat := if pos < n then v % 2 ^ pos * 2 ^ (n - pos) else v / 2 ^ (pos - n) % 2 ^ n

/-- The start of a backward stream: its value and the bits before its end mark; none where the last byte is zero. -/
def backStart (bs : List Byte) : Option (Nat × Nat) :=
  let v := leNat bs
  if bs.isEmpty || bs.getLastD 0 == 0 then none else some (v, topBit v)

/-! ### FSE codes (RFC 8878, 4.1) -/

/-- A decoding table's entry: its symbol, how many bits the next state takes, and what they are added to. -/
structure FseCell where
  sym : Nat
  nb : Nat
  base : Nat
  deriving DecidableEq, Repr

/-- A decoding table: its accuracy log and its cells. -/
structure Fse where
  log : Nat
  cells : List FseCell
  deriving DecidableEq, Repr

/-- The cell of a state. -/
def Fse.at (t : Fse) (st : Nat) : FseCell := t.cells.getD st ⟨0, 0, 0⟩

/-- A table of one symbol (RLE mode). -/
def Fse.one (sym : Nat) : Fse := ⟨0, [⟨sym, 0, 0⟩]⟩

/-- The next free place of the spread, past the places of the symbols of probability "less than one". -/
def spreadNext (size high pos fuel : Nat) : Nat :=
  match fuel with
  | 0 => pos
  | f + 1 =>
    let p := (pos + size / 2 + size / 8 + 3) % size
    if high ≤ p then spreadNext size high p f else p

/-- The symbols of the places of a table with some probabilities (−1: less than one). -/
def spreadSyms (log : Nat) (probs : List Int) : FMap Nat :=
  let size := 2 ^ log
  let low := (List.range probs.length).filter fun s => probs.getD s 0 == -1
  let high := size - low.length
  let top : FMap Nat := low.zipIdx.foldl (fun m x => tset m (size - 1 - x.2) x.1) []
  let placed := (List.range probs.length).flatMap fun s => List.replicate (probs.getD s 0).toNat s
  (placed.foldl (fun (acc : FMap Nat × Nat) s => (tset acc.1 acc.2 s, spreadNext size high acc.2 size)) (top, 0)).1

/-- The decoding table of some probabilities. -/
def buildFse (log : Nat) (probs : List Int) : Fse :=
  let size := 2 ^ log
  let syms := spreadSyms log probs
  let count (s : Nat) : Nat := if probs.getD s 0 == -1 then 1 else (probs.getD s 0).toNat
  let r := (List.range size).foldl (fun (acc : List FseCell × FMap Nat) i =>
    let s := tgetD syms i 0
    let n := tgetD acc.2 s (count s)
    let nb := log - topBit n
    (⟨s, nb, n * 2 ^ nb - size⟩ :: acc.1, tset acc.2 s (n + 1))) ([], [])
  ⟨log, r.1.reverse⟩

/-- Zero probabilities repeated: two bits at a time while they are 3. -/
def zeroRuns (v pos : Nat) (acc : List Int) (fuel : Nat) : Nat × List Int :=
  match fuel with
  | 0 => (pos, acc)
  | f + 1 =>
    let n := v / 2 ^ pos % 4
    let acc' := acc ++ List.replicate n 0
    if n == 3 then zeroRuns v (pos + 2) acc' f else (pos + 2, acc')

/-- The probabilities of a table's description, from bit `pos` on, while some of the code space remains. -/
def fseProbs (v limit maxSym : Nat) (pos left : Nat) (acc : List Int) (fuel : Nat) : Option (Nat × List Int) :=
  match fuel with
  | 0 => none
  | f + 1 =>
    if limit < pos || maxSym + 1 < acc.length then none
    else if left == 0 then some (pos, acc)
    else
      let n := topBit (left + 1) + 1
      let x := v / 2 ^ pos % 2 ^ n
      let mask := 2 ^ (n - 1) - 1
      let thr := 2 ^ n - 1 - (left + 1)
      let low := x % 2 ^ (n - 1)
      let (val, used) := if low < thr then (low, n - 1) else if mask < x then (x - thr, n) else (x, n)
      let p : Int := (val : Int) - 1
      let acc' := acc ++ [p]
      let left' := left - p.natAbs
      if p == 0 then
        let (pos', acc'') := zeroRuns v (pos + used) acc' (maxSym + 2)
        fseProbs v limit maxSym pos' left' acc'' f
      else fseProbs v limit maxSym (pos + used) left' acc' f

/-- A table's description at the start of some bytes: the table, and how many bytes it takes. -/
def readFse (bs : List Byte) (maxLog maxSym : Nat) : Option (Fse × Nat) :=
  let v := leNat (bs.take 600)
  let log := v % 16 + 5
  if maxLog < log then none
  else match fseProbs v (8 * min bs.length 600) maxSym 4 (2 ^ log) [] (maxSym + 3) with
    | none => none
    | some (pos, probs) => some (buildFse log probs, (pos + 7) / 8)

/-! ### Huffman codes (RFC 8878, 4.2) -/

/-- A Huffman table: its longest code, and for each value of that many bits the symbol and its code's length. -/
structure Huff where
  maxBits : Nat
  cells : List (Nat × Nat)
  deriving DecidableEq, Repr

/-- Weights coded in two interleaved FSE states, until the stream runs out. -/
def fseWeights (t : Fse) (v pos a b : Nat) (acc : List Nat) (fuel : Nat) : Option (List Nat) :=
  match fuel with
  | 0 => none
  | f + 1 =>
    let x := t.at a
    match backBits v pos x.nb with
    | none => some (acc ++ [x.sym, (t.at b).sym])
    | some (n, pos') => fseWeights t v pos' b (x.base + n) (acc ++ [x.sym]) f

/-- The weights of a tree's description, but for the last, and the bytes it takes. -/
def treeWeights (bs : List Byte) : Option (List Nat × Nat) :=
  match bs with
  | [] => none
  | h :: rest =>
    let n := h.toNat
    if 128 ≤ n then
      let k := n - 127
      if rest.length < (k + 1) / 2 then none
      else some ((List.range k).map fun i =>
        let x := (rest.getD (i / 2) 0).toNat
        if i % 2 == 0 then x / 16 else x % 16, 1 + (k + 1) / 2)
    else if rest.length < n then none
    else
      match readFse (rest.take n) 6 255 with
      | none => none
      | some (t, used) =>
        match backStart ((rest.take n).drop used) with
        | none => none
        | some (v, pos) =>
          match backBits v pos t.log with
          | none => none
          | some (a, p1) =>
            match backBits v p1 t.log with
            | none => none
            | some (b, p2) => (fseWeights t v p2 a b [] 256).map fun ws => (ws, 1 + n)

/-- The table of a tree's weights, the last of which makes the code complete. -/
def buildHuff (ws : List Nat) : Option Huff :=
  let total := (ws.map fun w => if w == 0 then 0 else 2 ^ (w - 1)).sum
  if total == 0 || 255 < ws.length then none
  else
    let maxBits := topBit total + 1
    let left := 2 ^ maxBits - total
    if 11 < maxBits || left != 2 ^ topBit left then none
    else
      let all := ws ++ [topBit left + 1]
      if all.any (maxBits < ·) then none
      else some ⟨maxBits, (List.range maxBits).flatMap fun i =>
        ((List.range all.length).filter fun s => all.getD s 0 == i + 1).flatMap fun s =>
          List.replicate (2 ^ i) (s, maxBits - i)⟩

/-- n symbols of a stream; it must end with its last bit. -/
def huffSyms (t : Huff) (v pos n : Nat) (acc : List Byte) : Option (List Byte) :=
  match n with
  | 0 => if pos == 0 then some acc.reverse else none
  | n + 1 =>
    let (sym, len) := t.cells.getD (peekBits v pos t.maxBits) (0, 1)
    if pos < len then none else huffSyms t v (pos - len) n (BitVec.ofNat 8 sym :: acc)

/-- The symbols of one stream given as bytes. -/
def huffStream (t : Huff) (bs : List Byte) (n : Nat) : Option (List Byte) :=
  match backStart bs with
  | none => none
  | some (v, pos) => huffSyms t v pos n []

/-- Four streams behind their jump table. -/
def huffFour (t : Huff) (bs : List Byte) (n : Nat) : Option (List Byte) :=
  let size (i : Nat) : Nat := leNat ((bs.drop (2 * i)).take 2)
  let each := (n + 3) / 4
  let ends := 6 + size 0 + size 1 + size 2
  if bs.length < ends || n < 3 * each then none
  else
    let part (lo len k : Nat) : Option (List Byte) := huffStream t ((bs.drop lo).take len) k
    match part 6 (size 0) each, part (6 + size 0) (size 1) each, part (6 + size 0 + size 1) (size 2) each,
      part ends (bs.length - ends) (n - 3 * each) with
    | some a, some b, some c, some d => some (a ++ b ++ c ++ d)
    | _, _, _, _ => none

/-! ### Literals (RFC 8878, 3.1.1.3.1) -/

/-- What the blocks of a frame hand on: the Huffman table, the three sequence tables and the three repeated offsets. -/
structure Carried where
  huff : Option Huff
  ll : Option Fse
  off : Option Fse
  ml : Option Fse
  reps : Nat × Nat × Nat
  deriving DecidableEq, Repr

/-- What a frame starts with. -/
def Carried.fresh : Carried := ⟨none, none, none, none, (1, 4, 8)⟩

/-- The literals of a block: them, the Huffman table in force, and the bytes they take. -/
def readLiterals (bs : List Byte) (huff : Option Huff) : Option (List Byte × Option Huff × Nat) :=
  let h := leNat (bs.take 5)
  let kind := h % 4
  let form := h / 4 % 4
  if bs.isEmpty then none
  else if kind ≤ 1 then
    let (n, hd) := if form % 2 == 0 then (h % 256 / 8, 1) else if form == 1 then (h % 2 ^ 16 / 16, 2) else (h % 2 ^ 24 / 16, 3)
    let size := if kind == 0 then n else 1
    if bs.length < hd + size then none
    else
      let x := (bs.drop hd).take size
      some (if kind == 0 then x else List.replicate n (x.getD 0 0), huff, hd + size)
  else
    let w := if form ≤ 1 then 10 else if form == 2 then 14 else 18
    let hd := if form ≤ 1 then 3 else if form == 2 then 4 else 5
    let n := h / 16 % 2 ^ w
    let size := h / 2 ^ (4 + w) % 2 ^ w
    let body := (bs.drop hd).take size
    if bs.length < hd + size then none
    else
      let tree := if kind == 2 then
          match treeWeights body with
          | none => none
          | some (ws, used) => (buildHuff ws).map fun t => (t, used)
        else huff.map fun t => (t, 0)
      match tree with
      | none => none
      | some (t, used) =>
        (if form == 0 then huffStream t (body.drop used) n else huffFour t (body.drop used) n).map fun xs =>
          (xs, some t, hd + size)

/-! ### Sequences (RFC 8878, 3.1.1.3.2) -/

/-- Base and extra bits of literal length codes from 16 on, and of match length codes from 32 on. -/
def llTable : List (Nat × Nat) :=
  [(16, 1), (18, 1), (20, 1), (22, 1), (24, 2), (28, 2), (32, 3), (40, 3), (48, 4), (64, 6), (128, 7), (256, 8), (512, 9),
   (1024, 10), (2048, 11), (4096, 12), (8192, 13), (16384, 14), (32768, 15), (65536, 16)]
def mlTable : List (Nat × Nat) :=
  [(35, 1), (37, 1), (39, 1), (41, 1), (43, 2), (47, 2), (51, 3), (59, 3), (67, 4), (83, 4), (99, 5), (131, 7), (259, 8),
   (515, 9), (1027, 10), (2051, 11), (4099, 12), (8195, 13), (16387, 14), (32771, 15), (65539, 16)]

/-- Base and extra bits of a code. -/
def llCode (c : Nat) : Nat × Nat := if c < 16 then (c, 0) else llTable.getD (c - 16) (0, 0)
def mlCode (c : Nat) : Nat × Nat := if c < 32 then (c + 3, 0) else mlTable.getD (c - 32) (0, 0)

/-- The predefined distributions. -/
def llDefault : List Int :=
  [4, 3, 2, 2, 2, 2, 2, 2, 2, 2, 2, 2, 2, 1, 1, 1, 2, 2, 2, 2, 2, 2, 2, 2, 2, 3, 2, 1, 1, 1, 1, 1, -1, -1, -1, -1]
def mlDefault : List Int :=
  [1, 4, 3, 2, 2, 2, 2, 2, 2] ++ List.replicate 37 1 ++ List.replicate 7 (-1)
def offDefault : List Int := [1, 1, 1, 1, 1, 1, 2, 2, 2] ++ List.replicate 15 1 ++ List.replicate 5 (-1)

/-- One table of a sequences section under its mode: the table, and the bytes it takes. -/
def seqTable (mode : Nat) (bs : List Byte) (old : Option Fse) (dLog : Nat) (dflt : List Int) (maxLog maxSym : Nat) :
    Option (Fse × Nat) :=
  match mode with
  | 0 => some (buildFse dLog dflt, 0)
  | 1 => match bs with
    | [] => none
    | b :: _ => if maxSym < b.toNat then none else some (Fse.one b.toNat, 1)
  | 2 => readFse bs maxLog maxSym
  | _ => old.map fun t => (t, 0)

/-- The offset that an offset value names, and the repeated offsets after it; none where it names offset 0. -/
def pickOffset (val ll : Nat) (r : Nat × Nat × Nat) : Option (Nat × (Nat × Nat × Nat)) :=
  if 3 < val then some (val - 3, (val - 3, r.1, r.2.1))
  else
    match (if ll == 0 then val + 1 else val) with
    | 1 => some (r.1, r)
    | 2 => some (r.2.1, (r.2.1, r.1, r.2.2))
    | 3 => some (r.2.2, (r.2.2, r.1, r.2.1))
    | _ => if r.1 ≤ 1 then none else some (r.1 - 1, (r.1 - 1, r.1, r.2.1))

/-- A state after its update. -/
def fseNext (t : Fse) (v pos st : Nat) : Option (Nat × Nat) :=
  (backBits v pos (t.at st).nb).map fun x => ((t.at st).base + x.1, x.2)

/-- The sequences of a block: `hist` is the frame's output in reverse, `room` how far back it reaches. -/
def runSeqs (tl tf tm : Fse) (v window n : Nat) (pos sl so sm : Nat) (lits : List Byte) (r : Nat × Nat × Nat)
    (hist : List Byte) (room : Nat) : Option (List Byte × Nat × (Nat × Nat × Nat) × List Byte) :=
  match n with
  | 0 => if pos == 0 then some (hist, room, r, lits) else none
  | n + 1 =>
    let oc := (tf.at so).sym
    match backBits v pos oc with
    | none => none
    | some (ox, p1) =>
      let (mb, me) := mlCode (tm.at sm).sym
      match backBits v p1 me with
      | none => none
      | some (mx, p2) =>
        let (lb, le) := llCode (tl.at sl).sym
        match backBits v p2 le with
        | none => none
        | some (lx, p3) =>
          let ll := lb + lx
          let ml := mb + mx
          match pickOffset (2 ^ oc + ox) ll r with
          | none => none
          | some (off, r') =>
            if lits.length < ll || room + ll < off || window < off || off == 0 then none
            else
              let hist' := lz4Match ((lits.take ll).reverse ++ hist) off ml
              if n == 0 then runSeqs tl tf tm v window 0 p3 sl so sm (lits.drop ll) r' hist' (room + ll + ml)
              else
                match fseNext tl v p3 sl with
                | none => none
                | some (sl', p4) =>
                  match fseNext tm v p4 sm with
                  | none => none
                  | some (sm', p5) =>
                    match fseNext tf v p5 so with
                    | none => none
                    | some (so', p6) =>
                      runSeqs tl tf tm v window n p6 sl' so' sm' (lits.drop ll) r' hist' (room + ll + ml)

/-- How many sequences a section has, and the bytes that say so. -/
def seqCount (bs : List Byte) : Nat × Nat :=
  let b (i : Nat) : Nat := (bs.getD i 0).toNat
  if b 0 < 128 then (b 0, 1)
  else if b 0 < 255 then ((b 0 - 128) * 256 + b 1, 2)
  else (b 1 + 256 * b 2 + 0x7F00, 3)

/-- A compressed block: the output after it in reverse, and what it hands on. -/
def zstdBlock (bs : List Byte) (window : Nat) (c : Carried) (hist : List Byte) : Option (List Byte × Carried) :=
  match readLiterals bs c.huff with
  | none => none
  | some (lits, huff, used) =>
    let rest := bs.drop used
    let (n, hd) := seqCount rest
    if rest.length < hd then none
    else if n == 0 then if rest.length == hd then some (lits.reverse ++ hist, { c with huff }) else none
    else
      let modes := (rest.getD hd 0).toNat
      let b1 := rest.drop (hd + 1)
      if rest.length < hd + 1 || modes % 4 != 0 then none
      else
        match seqTable (modes / 64) b1 c.ll 6 llDefault 9 35 with
        | none => none
        | some (tl, u1) =>
          match seqTable (modes / 16 % 4) (b1.drop u1) c.off 5 offDefault 8 31 with
          | none => none
          | some (tf, u2) =>
            match seqTable (modes / 4 % 4) (b1.drop (u1 + u2)) c.ml 6 mlDefault 9 52 with
            | none => none
            | some (tm, u3) =>
              match backStart (b1.drop (u1 + u2 + u3)) with
              | none => none
              | some (v, pos) =>
                match backBits v pos tl.log with
                | none => none
                | some (sl, p1) =>
                  match backBits v p1 tf.log with
                  | none => none
                  | some (so, p2) =>
                    match backBits v p2 tm.log with
                    | none => none
                    | some (sm, p3) =>
                      match runSeqs tl tf tm v window n p3 sl so sm lits c.reps hist hist.length with
                      | none => none
                      | some (h, _, r, left) =>
                        some (left.reverse ++ h, { huff, ll := some tl, off := some tf, ml := some tm, reps := r })

/-! ### The content checksum: XXH64 of seed 0 -/

def xxP1 : BitVec 64 := 0x9E3779B185EBCA87
def xxP2 : BitVec 64 := 0xC2B2AE3D27D4EB4F
def xxP3 : BitVec 64 := 0x165667B19E3779F9
def xxP4 : BitVec 64 := 0x85EBCA77C2B2AE63
def xxP5 : BitVec 64 := 0x27D4EB2F165667C5

/-- One lane of an accumulator. -/
def xxRound (acc x : BitVec 64) : BitVec 64 := (acc + x * xxP2).rotateLeft 31 * xxP1

/-- The doubleword at an offset. -/
def xxWord (bs : List Byte) : BitVec 64 := BitVec.ofNat 64 (leNat (bs.take 8))

/-- The stripes of 32 bytes: the four accumulators and what is left. -/
def xxStripes (a b c d : BitVec 64) (bs : List Byte) (n : Nat) : (BitVec 64 × BitVec 64 × BitVec 64 × BitVec 64) × List Byte :=
  match n with
  | 0 => ((a, b, c, d), bs)
  | n + 1 =>
    xxStripes (xxRound a (xxWord bs)) (xxRound b (xxWord (bs.drop 8))) (xxRound c (xxWord (bs.drop 16)))
      (xxRound d (xxWord (bs.drop 24))) (bs.drop 32) n

/-- An accumulator folded into the hash. -/
def xxMerge (h a : BitVec 64) : BitVec 64 := (h ^^^ xxRound 0 a) * xxP1 + xxP4

/-- The last bytes: doublewords, then a word, then single bytes. -/
def xxTail (h : BitVec 64) (bs : List Byte) (fuel : Nat) : BitVec 64 :=
  match fuel with
  | 0 => h
  | f + 1 =>
    if 8 ≤ bs.length then xxTail ((h ^^^ xxRound 0 (xxWord bs)).rotateLeft 27 * xxP1 + xxP4) (bs.drop 8) f
    else if 4 ≤ bs.length then
      xxTail ((h ^^^ BitVec.ofNat 64 (leNat (bs.take 4)) * xxP1).rotateLeft 23 * xxP2 + xxP3) (bs.drop 4) f
    else match bs with
      | [] => h
      | b :: rest => xxTail ((h ^^^ b.setWidth 64 * xxP5).rotateLeft 11 * xxP1) rest f

/-- XXH64 of some bytes. -/
def xxHash (bs : List Byte) : Nat :=
  let n := bs.length
  let (h, rest) := if n < 32 then (xxP5, bs)
    else
      let ((a, b, c, d), rest) := xxStripes (xxP1 + xxP2) xxP2 0 (0 - xxP1) bs (n / 32)
      let h := a.rotateLeft 1 + b.rotateLeft 7 + c.rotateLeft 12 + d.rotateLeft 18
      (xxMerge (xxMerge (xxMerge (xxMerge h a) b) c) d, rest)
  let h1 := xxTail (h + BitVec.ofNat 64 n) rest 40
  let h2 := (h1 ^^^ h1 >>> 33) * xxP2
  let h3 := (h2 ^^^ h2 >>> 29) * xxP3
  (h3 ^^^ h3 >>> 32).toNat

/-! ### Frames (RFC 8878, 3.1) -/

def stCheck : Nat := 3

/-- The bytes at an offset as a number, once all can be read. -/
def zstdNum (x : Input) (i n : Nat) : Except Nat Nat :=
  match x.stop i n with
  | some e => .error e
  | none => .ok (leNat ((x.bytes.drop i).take n))

/-- A frame's header: where its blocks begin, its window, its content's size where the header gives one, and whether a
checksum follows. -/
structure ZHeader where
  next : Nat
  window : Nat
  size : Option Nat
  sum : Bool
  deriving DecidableEq, Repr

/-- The header of the frame whose magic number is at offset i. -/
def zstdHeader (x : Input) (i : Nat) : Except Nat ZHeader :=
  match zstdNum x (i + 4) 1 with
  | .error e => .error e
  | .ok d =>
    let single := bit d 5
    let idLen := [0, 1, 2, 4].getD (d % 4) 0
    let fcsLen := if d / 64 == 0 then (if single then 1 else 0) else 2 ^ (d / 64)
    let j := i + 5
    let k := if single then j else j + 1
    match zstdNum x j (k - j), zstdNum x k idLen, zstdNum x (k + idLen) fcsLen with
    | .error e, _, _ => .error e
    | _, .error e, _ => .error e
    | _, _, .error e => .error e
    | .ok w, .ok dict, .ok f =>
      let content := if fcsLen == 2 then f + 256 else f
      let base := 2 ^ (10 + w / 8)
      let window := if single then content else base + base / 8 * (w % 8)
      if bit d 3 then .error stData
      else if 8 * 2 ^ 20 < window || dict != 0 then .error stFormat
      else .ok ⟨k + idLen + fcsLen, window, if fcsLen == 0 then none else some content, bit d 2⟩

/-- The blocks of a frame from offset i: the offset after the last, and the frame's output in reverse; or the status, the
failing block's offset and the output before it. -/
def zstdBlocks (x : Input) (window room i : Nat) (c : Carried) (hist : List Byte) (fuel : Nat) :
    Except (Nat × Nat × List Byte) (Nat × List Byte) :=
  match fuel with
  | 0 => .error (stData, i, hist)
  | f + 1 =>
    match zstdNum x i 3 with
    | .error e => .error (e, i, hist)
    | .ok h =>
      let kind := h / 2 % 4
      let n := h / 8
      let size := if kind == 1 then 1 else n
      if kind == 3 || min window (128 * 1024) < n then .error (stData, i, hist)
      else
        match x.stop (i + 3) size with
        | some e => .error (e, i, hist)
        | none =>
          let body := (x.bytes.drop (i + 3)).take size
          let r := match kind with
            | 0 => some (body.reverse ++ hist, c)
            | 1 => some (List.replicate n (body.getD 0 0) ++ hist, c)
            | _ => zstdBlock body window c hist
          match r with
          | none => .error (stData, i, hist)
          | some (hist', c') =>
            if min window (128 * 1024) < hist'.length - hist.length then .error (stData, i, hist)
            else if room < hist'.length then .error (stOverflow, i, hist)
            else if h % 2 == 1 then .ok (i + 3 + size, hist')
            else zstdBlocks x window room (i + 3 + size) c' hist' f

/-- One frame at offset i, or one skippable frame. -/
def zstdFrame (x : Input) (room i : Nat) : Except (Nat × Nat × List Byte) (Nat × List Byte) :=
  match zstdNum x i 4 with
  | .error e => .error (e, i, [])
  | .ok magic =>
    if magic / 16 == 0x184D2A5 then
      match zstdNum x (i + 4) 4 with
      | .error e => .error (e, i, [])
      | .ok n => if x.len < i + 8 + n then .error (stData, i, []) else .ok (i + 8 + n, [])
    else if magic != 0xFD2FB528 then .error (stData, i, [])
    else
      match zstdHeader x i with
      | .error e => .error (e, i, [])
      | .ok h =>
        match zstdBlocks x h.window room h.next Carried.fresh [] (x.len + 1) with
        | .error e => .error e
        | .ok (j, hist) =>
          if h.size.any (· != hist.length) then .error (stData, i, hist)
          else if !h.sum then .ok (j, hist)
          else
            match zstdNum x j 4 with
            | .error e => .error (e, j, hist)
            | .ok s => if s == xxHash hist.reverse % 2 ^ 32 then .ok (j + 4, hist) else .error (stCheck, j, hist)

/-- The frames of an input, the output so far in reverse. -/
def zstdFrames (x : Input) (cap i : Nat) (out : List Byte) (fuel : Nat) : Decoded :=
  match fuel with
  | 0 => ⟨stData, i, out.reverse⟩
  | f + 1 =>
    match zstdFrame x (cap - out.length) i with
    | .error (e, j, hist) => ⟨e, j, (hist ++ out).reverse⟩
    | .ok (j, hist) =>
      if j == x.len then ⟨stDone, j, (hist ++ out).reverse⟩ else zstdFrames x cap j (hist ++ out) f

/-- JOB 3. INOFF and OUTCNT of a failed card name the block that failed and the output before it, or the frame for a
failure of its header; an input without a frame is malformed (log entry 22). -/
def zstd (x : Input) (cap : Nat) : Decoded := zstdFrames x cap 0 [] (x.len + 1)

end Sys2Proof.Machine
end

