-- ==== Sys2Proof/Machine/Nvme.lean ====
section
/-! DEFINITION. The storage engine: request rings, commands on SSDs, job cards and their records (R31, R331 to R343, R353
to R359). -/

namespace Sys2Proof.Machine

/-! ### Rings of a context -/

/-- The address-space ID and privilege of a context (R525). -/
def ctxSpace (s : State) (ctx : Nat) : Nat × Bool :=
  match tget s.contexts ctx with
  | some c => (c.asid.toNat, c.priv)
  | none => (0, false)

/-- The context of a ring with a global header. -/
def ringCtx (r : Ring) : Nat :=
  match r.loc with
  | .global c _ => c
  | .carrel _ _ => 0

/-- The party of a storage engine for a context. -/
def storageParty (s : State) (die ctx : Nat) : Party :=
  let (asid, priv) := ctxSpace s ctx
  engineParty none die asid priv

/-- The accesses of a storage engine. -/
def storageWriter (die ctx : Nat) (owner : Owner) : Writer := { die, flow := 0, owner, context := ctx }

/-- A storage engine as it serves a ring of 64-byte entries. -/
def storageServer (s : State) (die : Nat) (r : Ring) : Server :=
  let (asid, priv) := ctxSpace s (ringCtx r)
  { w := storageWriter die (ringCtx r) (.header (64 + die) r.loc), asid, priv, chain := false, size := 64 }

/-- A fault record of a context's ring (R31). -/
def reportCtxRing (s : State) (r : Ring) (cause : Nat) : State :=
  reportNote s (ringCtx r)
    { cause, sub := none, source := 1, core := none, word1 := none, addr := none, w := none }

/-- The record of entry k in the array after the slots of a ring (R356, R359), written as one run whose ENTRY word comes
last: none while its page does not translate. DESIGN CHOICE: a completion waits for its record's page; any other fault of
that write leaves the record as it is and is reported (log entry 83). -/
def putRecord (s : State) (v : Server) (w : Writer) (p : Place) (k : Nat) (ws : List Word) : Option State :=
  let n := hdrLogn s p.loc
  let size := 8 * ws.length
  let ea := hdrBase s p.loc + 64 * 2 ^ n + size * slotIndex k n
  let bs := ws.flatMap fun x => leBytes 8 x.toNat
  let drop (e : EngFault) : State :=
    reportNote s w.context { cause := e.1.1, sub := e.1.2, source := 1, core := none, word1 := none, addr := some e.2, w := none }
  match spansOf s (engineParty none w.die v.asid v.priv) .global .wr ea size with
  | .error e => if parks e.1 then none else some (drop e)
  | .ok (s1, xs) =>
    match writeSpans s1 w xs bs (List.replicate size false) with
    | .ok s2 => some s2
    | .error e => some (drop e)

/-- A job whose outcome is known goes on: what it has written is acknowledged, its record is written and acknowledged, and
then it is over (R36, R356, R456). -/
def settleJob (s : State) (owner : Owner) (st : JobState) (record : State → List Word → Option State) (mark : State → State)
    (finish : State → List Word → State) : State :=
  match st with
  | .ending sent ws =>
    if inFlight s owner then s
    else if sent then finish s ws
    else match record s ws with
      | none => s
      | some s1 => if inFlight s1 owner then mark s1 else finish s1 ws
  | _ => s

/-! ### Requests (R353 to R355) -/

def nvOpc (ws : List Word) : Nat := bits (cfgWord ws 0) 7 0
def nvFua (ws : List Word) : Bool := bit (cfgWord ws 0) 8
def nvSlba (ws : List Word) : Nat := cfgWord ws 1
def nvNlb (ws : List Word) : Nat := bits (cfgWord ws 2) 15 0
def nvBuf (ws : List Word) : Nat := bits (cfgWord ws 3) 55 0
def nvLen (ws : List Word) : Nat := bits (cfgWord ws 4) 31 0

/-- Whether the buffer of a request is written by the SSD (R354). -/
def nvWrites (ws : List Word) : Bool := nvOpc ws == 2

/-- What R354 asks of the fields of each opcode, R333 of the opcode. -/
def nvFieldsBad (nsid : Nat) (ws : List Word) : Bool :=
  let blocks := nvLen ws != (nvNlb ws + 1) * Config.lbaSize nsid
  match nvOpc ws with
  | 0x00 => nvSlba ws != 0 || nvNlb ws != 0 || nvBuf ws != 0 || nvLen ws != 0 || nvFua ws
  | 0x01 | 0x02 | 0x05 => blocks
  | 0x08 => nvBuf ws != 0 || nvLen ws != 0
  | 0x09 => 2 ^ 32 ≤ nvSlba ws || 256 ≤ nvNlb ws || nvLen ws != 16 * (nvNlb ws % 256 + 1) || nvFua ws
  | _ => true

/-- The reserved fields of R353. -/
def nvReserved (ws : List Word) : Bool :=
  bits (cfgWord ws 0) 63 54 != 0 || bits (cfgWord ws 0) 15 9 != 0 || bits (cfgWord ws 2) 63 16 != 0 ||
  bits (cfgWord ws 3) 63 56 != 0 || cfgWord ws 6 != 0 || cfgWord ws 7 != 0

/-- R355: the engine refuses the request. -/
def nvRefused (die : Nat) (q : QueuePair) (ws : List Word) : Bool :=
  nvReserved ws || nvFieldsBad q.nsid.toNat ws || 2 ^ 56 < nvBuf ws + nvLen ws || 2 * 2 ^ 20 < nvLen ws || Config.mdts q.requester.toNat < nvLen ws ||
  nvBuf ws % 4 != 0 || (bit (cfgWord ws 0) 24 && bits (cfgWord ws 0) 38 33 / 16 != die) ||
  6 ≤ bits (cfgWord ws 0) 19 17 || 6 ≤ bits (cfgWord ws 0) 23 21

/-- Whether a wait task is met (R58). -/
def taskMet (s : State) (valid : Bool) (ref : Nat) : Bool := !valid || (taskOf s ref).count == 0

/-- An SSD's memory page (log entry 84). -/
def nvPage : Nat := 4096

/-- The physical addresses of the pages of a buffer: the buffer's own start, then each next page's (R332, R334). -/
def nvPages (xs : List Span) : List Nat :=
  (xs.flatMap fun x => (List.range ((x.place.pa % nvPage + x.len + nvPage - 1) / nvPage)).map fun i =>
    if i == 0 then x.place.pa else x.place.pa / nvPage * nvPage + nvPage * i)

/-- The submission queue entry (R354): CDW0 to CDW15. PRP1 is the buffer's physical address; PRP2 its second page, or the
address of the list that the engine keeps in memory of its own, a free value. -/
def nvSqe (nsid cid pa : Nat) (prp2 : Nat) (ws : List Word) : List (BitVec 32) :=
  let opc := nvOpc ws
  let (w10, w11, w12) :=
    if opc == 0 then (0, 0, 0)
    else if opc == 9 then (nvNlb ws % 256, nvSlba ws % 2 ^ 32, 0)
    else (nvSlba ws % 2 ^ 32, nvSlba ws / 2 ^ 32, nvNlb ws + if nvFua ws then 2 ^ 30 else 0)
  [opc + cid * 2 ^ 16, nsid, 0, 0, 0, 0, pa % 2 ^ 32, pa / 2 ^ 32, prp2 % 2 ^ 32, prp2 / 2 ^ 32, w10, w11, w12,
   bits (cfgWord ws 4) 63 32, bits (cfgWord ws 5) 31 0, bits (cfgWord ws 5) 63 32].map (BitVec.ofNat 32)

/-! ### Completion of a request (R36, R356) -/

/-- A pair changed. -/
def modPair (s : State) (die pair : Nat) (f : QueuePair → QueuePair) : State :=
  modDie s die fun x => match tget x.pairs pair with
    | some q => { x with pairs := tset x.pairs pair (f q) }
    | none => x

/-- A request of a die changed. -/
def modReq (s : State) (die : Nat) (r : NvReq) (f : NvReq → NvReq) : State :=
  modDie s die fun x => { x with reqs := x.reqs.map fun y => if y.pair == r.pair && y.k == r.k then f y else y }

/-- The outcome of a Read as a chained card's input (R339). -/
def readInput (ws : List Word) (estat : Nat) : Nat × Nat × Bool := (nvBuf ws, nvLen ws, estat == 0)

/-- The cards that a Read's completion gives their input. -/
def feedCards (s : State) (die : Nat) (ctx : Nat) (hdr : Word) (r : NvReq) (estat : Nat) : State :=
  modDie s die fun x =>
    { x with cards := x.cards.map fun c =>
        match c.input, tget x.cardRings c.ring with
        | none, some cr =>
          if cr.context == ctx && bits (cfgWord c.words 6) 55 0 == hdr.toNat && bits (cfgWord c.words 7) 47 0 == r.k then
            { c with input := some (readInput r.words estat) }
          else c
        | _, _ => c }

/-- The words of a request's completion record (R356). -/
def reqRecord (k estat cause nstat dw0 : Nat) : List Word :=
  [BitVec.ofNat 64 (dw0 % 2 ^ 32 + nstat % 2 ^ 15 * 2 ^ 32 + estat * 2 ^ 48 + cause * 2 ^ 56), BitVec.ofNat 64 k]

/-- The owner of a request's packets. -/
def reqOwner (die : Nat) (r : NvReq) : Owner := .request die r.pair r.k

/-- Request r is over: the task, ACC and the cards that wait for it. -/
def finishReq (s : State) (die : Nat) (r : NvReq) (q : QueuePair) (p : Place) (ws : List Word) : State :=
  let v := storageServer s die q.ring
  let estat := bits (cfgWord ws 0) 50 48
  let s1 := modDie s die fun x => { x with reqs := x.reqs.filter fun y => !(y.pair == r.pair && y.k == r.k) }
  let s2 := sendDecIf s1 (bit (cfgWord r.words 0) 39) (bits (cfgWord r.words 0) 53 40)
  let (s3, ring) := completeEntry s2 v.w p q.ring r.k
  let size := 2 ^ hdrLogn s3 p.loc
  let acc := hdrAcc s3 p.loc
  let s4 := modPair s3 die r.pair fun y =>
    { y with ring, past := (r.k, estat, r.words) :: y.past.filter fun e => sub48 acc e.1 < size || 2 ^ 47 ≤ sub48 acc e.1 }
  match q.ring.loc with
  | .global ctx va => if nvWrites r.words then feedCards s4 die ctx va r estat else s4
  | .carrel _ _ => s4

/-- A request whose outcome is known goes on. -/
def settleReq (s : State) (die : Nat) (r : NvReq) : State :=
  match tget (dieOf s die).pairs r.pair with
  | none => modDie s die fun x => { x with reqs := x.reqs.filter fun y => !(y.pair == r.pair && y.k == r.k) }
  | some q =>
    let v := storageServer s die q.ring
    match ringPlaceOf s v.asid v.priv q.ring.loc with
    | none => s
    | some (s1, p) =>
      settleJob s1 (reqOwner die r) r.st
        (fun st ws => putRecord st v (storageWriter die q.context (reqOwner die r)) p r.k ws)
        (fun st => modReq st die r fun y => match y.st with
          | .ending _ ws => { y with st := .ending true ws }
          | _ => y)
        fun st ws => finishReq st die r q p ws

/-- Request r has its outcome. -/
def completeReq (s : State) (die : Nat) (r : NvReq) (estat cause nstat dw0 : Nat) : State :=
  let y := { r with st := .ending false (reqRecord r.k estat cause nstat dw0) }
  settleReq (modReq s die r fun _ => y) die y

/-! ### NVME_REQUEST_SUBMIT (R332, R355) -/

/-- Request k of a pair is read in; a refused one completes at once with ESTAT 3. -/
def takeReq (s : State) (die pair : Nat) (q : QueuePair) (p : Place) (k : Nat) (ws : List Word) : State :=
  let v := storageServer s die q.ring
  let r : NvReq := { pair, k, words := ws, cid := 0, sqe := [], st := .waiting, poison := false }
  let s1 := modDie (putTaken (dropAsks s v.w.owner) v.w p k) die fun x => { x with reqs := x.reqs ++ [r] }
  if nvRefused die q ws then
    let (d, s2) := drawFree s1
    completeReq s2 die r 3 cIllegalField.toNat 0 d.toNat
  else s1

/-- The request ring of a pair: an entry is read in, or a fault of the ring reported (R31). -/
def readRequestIn (s : State) (die pair : Nat) (q : QueuePair) : State :=
  if q.ring.faulted then s
  else
    let v := storageServer s die q.ring
    match headOf s v q.ring.loc with
    | .none => s
    | .waits s1 => s1
    | .idle s1 => if s1.fabric == s.fabric then s else s1
    | .bad s1 cause =>
      reportCtxRing (modPair s1 die pair fun y => { y with ring := { y.ring with faulted := true } }) q.ring cause.toNat
    | .due s1 p =>
      let k := (hdrTaken s1 p.loc + 1) % 2 ^ 48
      match ringEntry s1 v q.ring.loc p k with
      | .error (.waits s2) => s2
      | .error (.fault _) => s1
      | .ok (s2, ws) => takeReq s2 die pair q p k ws

/-- A request that may be submitted now. -/
def nvReady (s : State) (pair : Nat) (r : NvReq) : Bool :=
  r.pair == pair && (r.st == .running ||
    (r.st == .waiting && taskMet s (bit (cfgWord r.words 0) 24) (bits (cfgWord r.words 0) 38 25)))

/-- The first command identifier from a number on that no submitted request of the die carries. -/
def freeCid (x : Die) (c fuel : Nat) : Nat :=
  match fuel with
  | 0 => c
  | f + 1 => if x.reqs.any fun r => r.st == .submitted && r.cid == c % 2 ^ 16 then freeCid x (c + 1) f else c % 2 ^ 16

/-- Parks a request on a translation fault at chunk 0, or ends it with the fault's cause (R251, R332). -/
def failReq (s : State) (die : Nat) (q : QueuePair) (r : NvReq) (f : EngFault) : State :=
  if parks f.1 then
    let (idx, s1) := drawFree s
    let s2 := modReq s1 die r fun y => { y with st := .parked (BitVec.ofNat 8 f.1.1) (BitVec.ofNat 64 f.2) idx }
    reportNote s2 q.context
      { cause := f.1.1, sub := f.1.2, source := 1, core := none, word1 := some idx.toNat, addr := some f.2, w := none }
  else
    let (d, s1) := drawFree s
    completeReq s1 die r 4 f.1.1 0 d.toNat

/-- Whether the storage engine of a die still has writes of its own on their way, which its release before a doorbell
waits for (R340, R456). -/
def storageOut (s : State) (die : Nat) : Bool :=
  s.fabric.ports.any fun e => e.2.kept.any fun k => k.pkt.len != 0 && match k.owner with
    | .request d _ _ | .card d _ _ => d == die
    | _ => false

/-- Translates a request's buffer, composes its entry and PRP list and rings the doorbell. -/
def submitReq (s : State) (die : Nat) (q : QueuePair) (r : NvReq) : State :=
  match spansOf s (storageParty s die q.context) .global (if nvWrites r.words then .wr else .rd) (nvBuf r.words)
    (nvLen r.words) with
  | .error e => failReq s die q r e
  | .ok (s1, xs) =>
    let (list, s2) := drawFree s1
    let cid := freeCid (dieOf s2 die) (dieOf s2 die).nextCid ((dieOf s2 die).reqs.length + 1)
    let pages := nvPages xs
    let prp := pages.drop 1
    let prp2 := match prp with
      | [] => 0
      | [a] => a
      | _ => list.toNat
    modDie (modReq s2 die r fun y =>
      { y with st := .submitted, cid, prp, sqe := nvSqe q.nsid.toNat cid (pages.headD 0) prp2 r.words }) die
      fun x => { x with nextCid := (cid + 1) % 2 ^ 16 }

/-- The requests of a pair whose outcome is known go on. -/
def settleReqs (s : State) (die pair : Nat) : State :=
  ((dieOf s die).reqs.filter fun r => r.pair == pair).foldl (fun st r => settleReq st die r) s

/-- NVME_REQUEST_SUBMIT: one entry read in, then the first request of the pair that may start. -/
def execNvmeRequestSubmit (die pair : Nat) (s : State) : Host.Outcome State Fault Refusal :=
  if 4 ≤ die || 64 ≤ pair then .fault .noSuchUnit
  else
    let s0 := settleReqs s die pair
    match tget (dieOf s0 die).pairs pair with
    | none => .next s0
    | some q =>
      let s1 := readRequestIn s0 die pair q
      let x := dieOf s1 die
      if q.depth ≤ (x.reqs.filter fun r => r.pair == pair && r.st == .submitted).length || storageOut s1 die then .next s1
      else match x.reqs.find? (nvReady s1 pair) with
        | some r => .next (submitReq s1 die q r)
        | none => .next s1

/-! ### NVME_COMPLETION and NVME_TIMEOUT (R333, R341, R356) -/

/-- NVME_COMPLETION: a completion queue entry with its status field and its dword. ESTAT 1 exactly for a nonzero status
code; poison served to the SSD shows as CAUSE POISON, with ESTAT 5 when the SSD reports no error (R259). -/
def execNvmeCompletion (die cid : Nat) (status : BitVec 15) (dw0 : BitVec 32) (s : State) :
    Host.Outcome State Fault Refusal :=
  if 4 ≤ die then .fault .noSuchUnit
  else match (dieOf s die).reqs.find? fun r => r.st == .submitted && r.cid == cid with
    | none => .next s
    | some r =>
      let err := status.toNat % 256 != 0
      let estat := if err then 1 else if r.poison then 5 else 0
      .next (completeReq s die r estat (if r.poison then cPoison.toNat else 0) status.toNat dw0.toNat)

/-- NVME_TIMEOUT: the command is aborted and completes as timed out; what its record holds of the SSD's answer is open. -/
def execNvmeTimeout (die cid : Nat) (s : State) : Host.Outcome State Fault Refusal :=
  if 4 ≤ die then .fault .noSuchUnit
  else match (dieOf s die).reqs.find? fun r => r.st == .submitted && r.cid == cid with
    | none => .next s
    | some r =>
      let (d, s1) := drawFree s
      .next (completeReq s1 die r 2 0 (d.toNat / 2 ^ 32) d.toNat)

/-! ### Job cards (R357, R358) -/

def cardJob (ws : List Word) : Nat := bits (cfgWord ws 0) 3 0
def cardCsum (ws : List Word) : Nat := bits (cfgWord ws 0) 5 4
def cardChain (ws : List Word) : Bool := bit (cfgWord ws 0) 46
def cardIn (ws : List Word) : Nat := bits (cfgWord ws 1) 55 0
def cardOut (ws : List Word) : Nat := bits (cfgWord ws 2) 55 0
def cardInLen (ws : List Word) : Nat := bits (cfgWord ws 3) 31 0
def cardCap (ws : List Word) : Nat := bits (cfgWord ws 3) 63 32
def cardDict (ws : List Word) : Nat := bits (cfgWord ws 4) 55 0
def cardDictLen (ws : List Word) : Nat := bits (cfgWord ws 5) 16 0
def cardSpace (n : Bool) : Space := if n then .stacks else .global

/-- The reserved fields of R357. -/
def cardReserved (ws : List Word) : Bool :=
  bits (cfgWord ws 0) 63 47 != 0 || bits (cfgWord ws 1) 63 56 != 0 || bits (cfgWord ws 2) 63 56 != 0 ||
  bits (cfgWord ws 4) 63 56 != 0 || bits (cfgWord ws 5) 63 17 != 0 || bits (cfgWord ws 6) 63 56 != 0 ||
  bits (cfgWord ws 7) 63 48 != 0

/-- The pair of a die whose ring a chained card names, in the card's context. -/
def chainPair (s : State) (die ctx : Nat) (ws : List Word) : Option (Nat × QueuePair) :=
  (dieOf s die).pairs.find? fun p =>
    p.2.context == ctx && p.2.ring.loc == .global ctx (BitVec.ofNat 64 (bits (cfgWord ws 6) 55 0))

/-- What a chained card finds of its Read: refused, still to come, complete, or another module to be asked first. -/
inductive ChainRes where
  | bad (s : State)
  | open (s : State)
  | known (s : State) (v : Nat × Nat × Bool)
  | waits (s : State)

/-- The words of request k of a pair: read in, or still in its slot. -/
def reqWords (s : State) (die pair : Nat) (q : QueuePair) (p : Place) (k : Nat) : Except EngStop (State × List Word) :=
  match (dieOf s die).reqs.find? fun r => r.pair == pair && r.k == k with
  | some r => .ok (s, r.words)
  | none => ringEntry s (storageServer s die q.ring) q.ring.loc p k

/-- The Read that a chained card names. -/
def chainFind (s : State) (die ctx : Nat) (ws : List Word) : ChainRes :=
  match chainPair s die ctx ws with
  | none => .bad s
  | some (pair, q) =>
    let v := storageServer s die q.ring
    match freshHead s v q.ring.loc with
    | .waits s1 => .waits s1
    | .due s1 p =>
      let k := bits (cfgWord ws 7) 47 0
      let size := 2 ^ hdrLogn s1 p.loc
      -- the window (ACC − 2^n, PUB]
      let low := (hdrAcc s1 p.loc + 2 ^ 48 + 1 - size) % 2 ^ 48
      let s2 := dropAsks s1 v.w.owner
      if sub48 (hdrPub s1 p.loc) low < sub48 k low then .bad s2
      else match q.past.find? fun e => e.1 == k with
        | some (_, estat, w) => if nvWrites w then .known s2 (readInput w estat) else .bad s2
        | none =>
          match reqWords s1 die pair q p k with
          | .error (.waits s3) => .waits s3
          | .error (.fault _) => .bad s2
          | .ok (s3, w) => if nvWrites w then .open (dropAsks s3 v.w.owner) else .bad (dropAsks s3 v.w.owner)
    | _ => .bad s

/-- R358 without the chain. -/
def cardRefused (die : Nat) (ws : List Word) : Bool :=
  let w := cfgWord ws 0
  -- bits above the layout of a stacks address are reserved bits of the entry (R25)
  (bit w 6 && 2 ^ 31 ≤ cardIn ws) || (bit w 7 && 2 ^ 31 ≤ cardOut ws) ||
  cardReserved ws || 3 < cardJob ws || (cardJob ws == 0 && cardCsum ws == 0) || 65536 < cardDictLen ws ||
  (cardDictLen ws != 0 && cardJob ws != 1) || (cardCap ws != 0 && cardJob ws == 0) || 6 ≤ bits w 11 9 || 6 ≤ bits w 15 13 ||
  (bit w 16 && bits w 30 25 / 16 != die) || (cardChain ws && (cardIn ws != 0 || cardInLen ws != 0))

/-- A card of a die changed. -/
def modCard (s : State) (die : Nat) (c : Card) (f : Card → Card) : State :=
  modDie s die fun x => { x with cards := x.cards.map fun y => if y.ring == c.ring && y.k == c.k then f y else y }

/-- The words of a card's completion record (R359). -/
def cardRecord (k status cause outcnt inoff check : Nat) : List Word :=
  [status + cause * 2 ^ 8, inoff + outcnt * 2 ^ 32, check, k].map (BitVec.ofNat 64)

/-- The owner of a card's packets. -/
def cardOwner (die : Nat) (c : Card) : Owner := .card die c.ring c.k

/-- Card c is over: the task and ACC. -/
def finishCard (s : State) (die : Nat) (c : Card) (q : CardRing) (p : Place) : State :=
  let v := storageServer s die q.ring
  let s1 := modDie s die fun x => { x with cards := x.cards.filter fun y => !(y.ring == c.ring && y.k == c.k) }
  let s2 := sendDecIf s1 (bit (cfgWord c.words 0) 31) (bits (cfgWord c.words 0) 45 32)
  let (s3, ring) := completeEntry s2 v.w p q.ring c.k
  modDie s3 die fun x => { x with cardRings := tset x.cardRings c.ring { q with ring } }

/-- A card whose outcome is known goes on. -/
def settleCard (s : State) (die : Nat) (c : Card) : State :=
  match tget (dieOf s die).cardRings c.ring with
  | none => modDie s die fun x => { x with cards := x.cards.filter fun y => !(y.ring == c.ring && y.k == c.k) }
  | some q =>
    let v := storageServer s die q.ring
    match ringPlaceOf s v.asid v.priv q.ring.loc with
    | none => s
    | some (s1, p) =>
      settleJob s1 (cardOwner die c) c.st
        (fun st ws => putRecord st v (storageWriter die q.context (cardOwner die c)) p c.k ws)
        (fun st => modCard st die c fun y => match y.st with
          | .ending _ ws => { y with st := .ending true ws }
          | _ => y)
        fun st _ => finishCard st die c q p

/-- Card c has its outcome. -/
def completeCard (s : State) (die : Nat) (c : Card) (status cause outcnt inoff check : Nat) : State :=
  let y := { c with st := .ending false (cardRecord c.k status cause outcnt inoff check) }
  settleCard (modCard s die c fun _ => y) die y

/-- Card k of a ring is read in; a refused one completes at once with STATUS 6. -/
def takeCard (s : State) (die n : Nat) (q : CardRing) (p : Place) (k : Nat) (ws : List Word) (input : Option (Nat × Nat × Bool))
    (bad : Bool) : State :=
  let v := storageServer s die q.ring
  let c : Card := { ring := n, k, words := ws, st := .waiting, input }
  let s1 := modDie (putTaken (dropAsks s v.w.owner) v.w p k) die fun x => { x with cards := x.cards ++ [c] }
  if cardRefused die ws || bad then completeCard s1 die c stRefused cIllegalField.toNat 0 0 0 else s1

/-- The words of card k have come: its Read is looked up, and it is read in. -/
def meetCard (s : State) (die n : Nat) (q : CardRing) (p : Place) (k : Nat) (ws : List Word) : State :=
  if !cardChain ws then takeCard s die n q p k ws (some (cardIn ws, cardInLen ws, true)) false
  else match chainFind s die q.context ws with
    | .waits s1 => s1
    | .known s1 v => takeCard s1 die n q p k ws (some v) false
    | .open s1 => takeCard s1 die n q p k ws none false
    | .bad s1 => takeCard s1 die n q p k ws none true

/-- A card ring: an entry is read in, or a fault of the ring reported (R31). -/
def readCardIn (s : State) (die n : Nat) (q : CardRing) : State :=
  if q.ring.faulted then s
  else
    let v := storageServer s die q.ring
    match headOf s v q.ring.loc with
    | .none => s
    | .waits s1 => s1
    | .idle s1 => if s1.fabric == s.fabric then s else s1
    | .bad s1 cause =>
      reportCtxRing (modDie s1 die fun x =>
        { x with cardRings := tset x.cardRings n { q with ring := { q.ring with faulted := true } } }) q.ring cause.toNat
    | .due s1 p =>
      let k := (hdrTaken s1 p.loc + 1) % 2 ^ 48
      match ringEntry s1 v q.ring.loc p k with
      | .error (.waits s2) => s2
      | .error (.fault _) => s1
      | .ok (s2, ws) => meetCard s2 die n q p k ws

/-- A card that may start now. -/
def cardReady (s : State) (n : Nat) (c : Card) : Bool :=
  c.ring == n && c.st == .waiting && taskMet s (bit (cfgWord c.words 0) 16) (bits (cfgWord c.words 0) 30 17) &&
  (match c.input with
   | some v => v.2.2
   | none => false)

/-- JOB_CARD_START: one card read in, then the first card of the ring whose waits are over starts. -/
def execJobCardStart (die ring : Nat) (s : State) : Host.Outcome State Fault Refusal :=
  if 4 ≤ die || 64 ≤ ring then .fault .noSuchUnit
  else match tget (dieOf s die).cardRings ring with
    | none => .next s
    | some q =>
      let s1 := readCardIn s die ring q
      match (dieOf s1 die).cards.find? (cardReady s1 ring) with
      | some c => .next (modCard s1 die c fun y => { y with st := .running })
      | none => .next s1

/-! ### JOB_CARD_COMPLETE (R337, R338, R259) -/

/-- JOB 0: the input is read. -/
def readAll (x : Input) : Decoded :=
  if x.limit == x.len then ⟨stDone, x.len, []⟩ else ⟨x.ending, x.limit, []⟩

/-- What a card's job gives. -/
def runJob (ws : List Word) (x dict : Input) : Decoded :=
  match cardJob ws with
  | 0 => readAll x
  | 1 => lz4Decode x dict (cardCap ws)
  | 2 => inflate x (cardCap ws)
  | _ => zstd x (cardCap ws)

/-- CHECK of a card (R338, R358). -/
def cardCheck (ws : List Word) (x : Input) (r : Decoded) : Nat :=
  if cardCsum ws == 0 || r.status != stDone then 0
  else checksum (cardCsum ws) (if cardJob ws == 0 then x.bytes else r.out)

/-- A range of a card as its decoder will meet it. -/
inductive CardIn where
  | here (s : State) (x : Input) (fault : Option EngFault)
  | waits (s : State)

/-- The bytes of spans until one cannot be read. -/
def readUntil (s : State) (w : Writer) (xs : List Span) : State × List Byte × List Bool × Option EngFault :=
  xs.foldl (fun acc x =>
    match acc with
    | (st, bs, ps, none) =>
      match readSpan st w x with
      | .ok (st1, b, p) => (st1, bs ++ b, ps ++ p, none)
      | .error (.fault e) => (st, bs, ps, some e)
      | .error (.waits _) => (st, bs, ps, none)
    | r => r) (s, [], [], none)

/-- Reads a range of a card as far as it can be read. -/
def cardRead (s : State) (w : Writer) (p : Party) (space : Space) (a n : Nat) : CardIn :=
  let r := match space with
    | .global => spansUntil s p space a n (n / 65536 + 2)
    | _ => match plainSpan s p space .rd a n with
      | .ok (s1, xs) => (s1, xs, none)
      | .error e => (s, [], some e)
  if r.2.1.all (spanHere r.1 w) then
    let (s2, bs, ps, e) := readUntil r.1 w r.2.1
    .here s2 ⟨bs, ps, n - bs.length⟩ (if e.isSome then e else r.2.2)
  else .waits (r.2.1.foldl (askSpan w) r.1)

/-- Bytes written to a card's output. -/
def cardWrite (s : State) (w : Writer) (p : Party) (space : Space) (a : Nat) (bs : List Byte) : Except EngFault State :=
  match spansOf s p space .wr a bs.length with
  | .error e => .error e
  | .ok (s1, xs) => writeSpans s1 w xs bs (List.replicate bs.length false)

/-- The bytes between the count and the capacity of a failed card: old ones, or bytes of the failed stream (log entry
24). A page that does not translate, or that lies on another module, keeps its bytes. -/
def cardTorn (s : State) (w : Writer) (p : Party) (space : Space) (a n : Nat) : State :=
  match spansOf s p space .wr a n with
  | .error _ => s
  | .ok (s1, xs) =>
    if xs.any fun x => x.place.remote then s
    else
      let old := xs.flatMap fun x => readBytes s1 x.place.loc x.len
      let bs := (List.range n).map fun i => Config.tornByte (s1.draws + i) (old.getD i 0)
      match writeSpans { s1 with draws := s1.draws + n } w xs bs (List.replicate n false) with
      | .error _ => s
      | .ok s2 => s2

/-- How a card's run goes. -/
inductive CardRun where
  | done (s : State) (r : Decoded) (check : Nat)
  | waits (s : State)
  | fault (f : EngFault)

/-- A decoded card's output is written, and what the decoder has met decides (R364): a fault only where it has read. -/
def cardOutcome (s : State) (w : Writer) (p : Party) (ws : List Word) (x : Input) (fx fd : Option EngFault) (r : Decoded) :
    CardRun :=
  let out := cardSpace (bit (cfgWord ws 0) 7)
  match cardWrite s w p out (cardOut ws) r.out with
  | .error e => .fault e
  | .ok s1 =>
    let met := if r.status == stFault then fx else if r.status == stDictFault then fd else none
    match met with
    | some e => .fault e
    | none =>
      .done (if r.status == stDone then s1
        else cardTorn s1 w p out (cardOut ws + r.out.length) (cardCap ws - r.out.length)) r (cardCheck ws x r)

/-- Runs a card over its ranges. -/
def runCard (s : State) (die ctx : Nat) (c : Card) (a n : Nat) : CardRun :=
  let ws := c.words
  let p := storageParty s die ctx
  let w := storageWriter die ctx (cardOwner die c)
  match cardRead s w p (if cardChain ws then .global else cardSpace (bit (cfgWord ws 0) 6)) a n with
  | .waits s1 => .waits s1
  | .here s1 x fx =>
    match cardRead s1 w p .global (cardDict ws) (cardDictLen ws) with
    | .waits s2 => .waits s2
    | .here s2 dict fd => cardOutcome (dropAsks s2 w.owner) w p ws x fx fd (runJob ws x dict)

/-- Parks a card on a translation fault, or ends it with the fault's cause (R251, R336). -/
def failCard (s0 : State) (die ctx : Nat) (c : Card) (f : EngFault) : State :=
  let s := dropAsks s0 (cardOwner die c)
  if parks f.1 then
    let (idx, s1) := drawFree s
    let s2 := modCard s1 die c fun y => { y with st := .parked (BitVec.ofNat 8 f.1.1) (BitVec.ofNat 64 f.2) idx }
    reportNote s2 ctx
      { cause := f.1.1, sub := f.1.2, source := 1, core := none, word1 := some idx.toNat, addr := some f.2, w := none }
  else completeCard s die c stAbandoned f.1.1 0 0 0

/-- A card that JOB_CARD_COMPLETE takes: one that runs, or one whose Read has failed. -/
def cardEnds (n : Nat) (c : Card) : Bool :=
  c.ring == n && (c.st == .running || (c.st == .waiting && match c.input with
    | some v => !v.2.2
    | none => false))

/-- The cards of a ring whose outcome is known go on. -/
def settleCards (s : State) (die ring : Nat) : State :=
  ((dieOf s die).cards.filter fun c => c.ring == ring).foldl (fun st c => settleCard st die c) s

/-- JOB_CARD_COMPLETE. -/
def execJobCardComplete (die ring : Nat) (s : State) : Host.Outcome State Fault Refusal :=
  if 4 ≤ die || 64 ≤ ring then .fault .noSuchUnit
  else
    let s0 := settleCards s die ring
    match (dieOf s0 die).cards.find? (cardEnds ring), tget (dieOf s0 die).cardRings ring with
    | some c, some q =>
      match c.input with
      | none => .next s0
      | some (a, n, good) =>
        if !good then .next (completeCard s0 die c stInput 0 0 0 0)
        else match runCard s0 die q.context c a n with
          | .fault e => .next (failCard s0 die q.context c e)
          | .waits s1 => .next s1
          | .done s1 r check =>
            .next (withRoom s0 die
              (completeCard s1 die c r.status (if r.status == stPoison then cPoison.toNat else 0) r.out.length r.inOff check))
    | _, _ => .next s0

end Sys2Proof.Machine
end

