-- ==== Sys2Proof/Machine/Regions.lean ====
section
/-! DEFINITION. Class 0x8, sketch regions: SKDEF, SKDEL, SKSTAT, SKFOLD, SKSEAL, SKCLR, COLLATE (R369, R370, R386 to R390,
R403 to R410). -/

namespace Sys2Proof.Machine

/-! ### Operations on a region of this module -/

/-- An event of a table at every partial that holds the region's line. -/
def partsEvent (s : State) (r : Region) (ev : Nat) : State :=
  (List.range 4).foldl (fun st d => regionEvent st r d r.range ev) s

/-- The fault that an event at the partials returns to its requester (R418). -/
def partsFault (s : State) (r : Region) (ev : Nat) : Option Nat :=
  (List.range 4).findSome? fun d => regionFault s r d r.range ev

/-- Replaces all four partials; each whose SATURATED bit goes to 1 decrements STASK (R380). -/
def setParts (s : State) (k : Nat) (r : Region) (f : Nat → SkState) : State :=
  (List.range 4).foldl (fun st d => setPart st k ((tget st.regions k).getD r) d (f d)) (setRegion s k r)

/-- A state without content as the law judges it: a distinct counter or a quantile summary may be saturated from the start
(R379). -/
def freshState (r : Region) : SkState := judge r SkState.reset

/-- The stacks engine's writes of a region's bytes on pages homed on another module, 64 bytes a time, as posted engine
writes (R370, R437). -/
def postImage (s : State) (r : Region) (n : Nat) : State :=
  (List.range ((n + 63) / 64)).foldl (fun st i =>
    let pa := regionPa r (64 * i)
    if isRemote st pa then
      enginePost st r.home answerFlow .service r.context r.range pa (readBytes st (regionLoc st r (64 * i)) (min 64 (n - 64 * i))) [] 4
    else st) s

/-- SKFOLD's effect (R389, R406), which raises CL (R419). -/
def foldRegion (s : State) (k : Nat) (r : Region) : State :=
  let mem := (foldCells r (memoryCells s r)).1
  let r1 : Region := { r with lcur := r.lcur - 1, image := foldState r r.image }
  let s1 := setParts (partsEvent s r 10) k r1 fun d => foldState r (partOf r d)
  postImage (mem.foldl (fun st e => writeCell st r1 e.1 e.2) (zeroRegion s1 r (skBytes r))) r (skBytes r)

/-- SKSEAL's effect: the collated state becomes the image and the region's memory (R386). -/
def sealRegion (s : State) (k : Nat) (r : Region) : State :=
  let x := collated r
  let r1 : Region := { r with isSealed := true, image := x, csat := x.sat }
  postImage (writeImage (partsEvent (setRegion s k r1) r1 10) r1 x) r1 (skBytes r1)

/-- The collated state of an unsealed region written to its memory (R385). -/
def imageRegion (s : State) (k : Nat) (r : Region) : State :=
  if r.isSealed then s
  else
    let r1 : Region := { r with csat := (collated r).sat }
    postImage (writeImage (partsEvent (setRegion s k r1) r1 10) r1 (collated r)) r1 (skBytes r1)

/-- SKSEAL.open's effect (R386, R407). -/
def openRegion (s : State) (k : Nat) (r : Region) : State := partsEvent (setRegion s k { r with isSealed := false }) r 10

/-- The region with every partial and status bit cleared (R390), which raises CL (R419). -/
def clearRegion (s : State) (k : Nat) (r : Region) : State :=
  let r1 : Region := { r with isSealed := false, csat := false, image := SkState.reset, parts := [] }
  postImage (setParts (zeroRegion (partsEvent s r 10) r (skBytes r)) k r1 fun _ => freshState r1) r1 (skBytes r1)

/-- A region freed: its partials go back to I, its memory is zero, its slot and its pool space are free (R390, R408, R428). -/
def freeRegion (s : State) (k : Nat) (r : Region) : State :=
  let s1 := postImage (partsEvent (partsEvent (zeroRegion s r (skBytes r)) r 10) r 12) r (skBytes r)
  { s1 with regions := tdel s1.regions k }

/-- What two regions must agree in (R388). -/
def regionsAgree (a b : Region) : Bool := agreeWords a == agreeWords b

/-- A state merged into a region's home-die partial (R388), which raises CL (R419). -/
def mergeInto (s : State) (k : Nat) (r : Region) (x : SkState) : State :=
  regionEvent (setPart s k r r.home (skMerge r (partOf r r.home) x)) r r.home r.range 10

/-- What a source contributes (R409), and the state after its collation. -/
def sourceState (s : State) (k : Nat) (r : Region) : State × SkState :=
  if r.isSealed then (s, r.image)
  else (partsEvent (setRegion s k { r with csat := (collated r).sat }) r 10, collated r)

/-! ### Requests to another module (log entry 27) -/

/-- AUX of a sketch request: bit 39 over the operation. -/
def sketchAux (op : Nat) : BitVec 40 := BitVec.ofNat 40 (2 ^ 39 + op)

/-- The operations of a sketch request. The last three are COLLATE's: what a destination must agree with, a source's state,
a state to merge. -/
def reqSkdel : Nat := 1
def reqSkfold : Nat := 2
def reqSkseal : Nat := 3
def reqSkopen : Nat := 4
def reqSkclr : Nat := 5
def reqSkfree : Nat := 6
def reqDescribe : Nat := 7
def reqSource : Nat := 8
def reqMerge : Nat := 9
/-- The collated state written to the region's memory, before the completion word of a binding of another module (R385). -/
def reqImage : Nat := 12
/-- SKDEF and COLLATE as operations of an issue; no request carries them. -/
def onceSkdef : Nat := 10
def onceCollate : Nat := 11

/-- A request for an operation on the region at a physical address, with its operands. -/
def sketchRequest (op pa : Nat) (operands : List Nat) : Packet :=
  towards { Packet.blank with type := tyRmwReq, fmask := enables pa 8, aux := sketchAux op, operands := operands.map (BitVec.ofNat 64) } pa

/-! ### Operations that have not completed at issue (R395, R413)

The threads of an issue are suspended with code 11, and `var` says what each waits for: 0, nothing more; 1, the answer to
its own SKDEL or SKSTAT; 2, the operation of its issue's lowest thread; 16 and an operation, that operation, once the
releases of the issue's threads are through and the answers of other modules are in. -/

def waitMate : Nat := 2
def waitOnce : Nat := 16

/-- A suspension of class 0x8 that its operation ends. -/
def sketchWait (var : Nat) (a b : Nat) (d : Dst) : Wait :=
  { code := 11, a := BitVec.ofNat 64 a, b := BitVec.ofNat 64 b, dst := d, var }

/-- The other threads of a suspended thread's issue that wait for its operation, of class 0x8 or a CLPLAN. -/
def issueMates (s : State) (tid : Nat) : List Nat :=
  match (thr s tid).wait with
  | none => []
  | some w =>
    (s.threads.filter fun e =>
      e.1 != tid && e.2.wg == (thr s tid).wg && e.2.wait.any fun v => (v.code == 11 || v.code == 12) && v.var == waitMate && v.unit == w.unit).map Prod.fst

/-- What an operation of one issue gives. -/
inductive OnceRes where
  | ok (s : State)
  | trap (i : TrapInfo)
  /-- Answers of another module are on their way. -/
  | ask (s : State)

/-- The region that a base names: one of this module, or a sketch page whose home is another module. -/
inductive BaseRes where
  | here (k : Nat) (r : Region)
  | there (s : State) (pa : Nat)
  | none

/-- Looks up the region with a base (R406 to R409). -/
def regionOf (s : State) (tid base : Nat) : BaseRes :=
  let w := wgOf s (thr s tid).wg
  match regionBase s w.asid.toNat base with
  | some (k, r) => .here k r
  | Option.none =>
    match placeOf s (partyOf s tid) .global base 64 .look with
    | .ok (s1, p) => if p.remote && p.sketch != 0 && base % 64 == 0 then .there s1 p.pa else .none
    | .error _ => .none

/-- An operation's request, and what follows its answer. -/
def askHome (s0 s : State) (tid ea idx : Nat) (pkt : Packet) (next : State → Nat → OnceRes) : OnceRes :=
  match awaitPiece s0 s tid ea pkt 8 idx with
  | .ok s1 v => next s1 v
  | .sent s1 q => next s1 (q.val.getD 0)
  | .trap i => .trap i
  | .stall s1 | .abort s1 => .ask s1

/-- An operation on one region at its base: PROTECTION when A names none. -/
def baseOp (req : Nat) (bad : Region → Bool) (f : State → Nat → Region → State) (s : State) (tid a : Nat) : OnceRes :=
  match regionOf s tid a with
  | .none => .trap (trapOf cProtection (some a))
  | .there s1 pa => askHome s s1 tid a 0 (sketchRequest req pa []) fun st _ => .ok st
  | .here k r =>
    if bad r then .trap (trapOf cIllegalField (some a))
    else match partsFault s r 10 with
      | some c => .trap (trapOf (BitVec.ofNat 8 c) (some a))
      | none => .ok (f s k r)

/-- The words of an answer's operands (log entry 27). -/
def answerWords (v n : Nat) : List Nat := (List.range n).map fun i => v / 2 ^ (2048 + 64 * i) % 2 ^ 64

/-- A state in an answer, whose first operand word is the number of the others. -/
def answerState (v : Nat) : SkState :=
  let n := v / 2 ^ 2048 % 2 ^ 64
  wordsState ((answerWords v (n + 1)).drop 1)

/-- A merge into a region of this module, agreement checked (R388, R409). -/
def mergeHere (s : State) (k : Nat) (r : Region) (x : SkState) (a : Nat) : OnceRes :=
  match regionFault s r r.home r.range 10 with
  | some c => .trap (trapOf (BitVec.ofNat 8 c) (some a))
  | none => .ok (mergeInto s k r x)

/-- COLLATE between regions of which one or both lie on other modules: the destination says what must agree, the source gives
its state, the destination merges it (R388, R409; log entry 27). -/
def collateFar (s : State) (tid a b : Nat) (d r : BaseRes) : OnceRes :=
  match d, r with
  | .here k x, .there s1 pb =>
    askHome s s1 tid b 1 (sketchRequest reqSource pb (agreeWords x)) fun st v => mergeHere st k x (answerState v) a
  | .there s1 pa, .here k x =>
    askHome s s1 tid a 0 (sketchRequest reqDescribe pa []) fun st v =>
      if answerWords v 3 != agreeWords x then .trap (trapOf cSkMismatch (some a))
      else
        let (s2, y) := sourceState st k x
        askHome s2 s2 tid a 2 (sketchRequest reqMerge pa (agreeWords x ++ stateWords y)) fun st _ => .ok st
  | .there _ pa, .there s1 pb =>
    askHome s s1 tid a 0 (sketchRequest reqDescribe pa []) fun st v =>
      askHome s st tid b 1 (sketchRequest reqSource pb (answerWords v 3)) fun st1 w =>
        askHome s st1 tid a 2 (sketchRequest reqMerge pa (answerWords v 3 ++ stateWords (answerState w))) fun st _ => .ok st
  | _, _ => .trap (trapOf cProtection (some b))

/-- COLLATE (R387, R388, R409). -/
def collateOp (s : State) (tid a b : Nat) : OnceRes :=
  if a % 64 != 0 then .trap (trapOf cMisaligned (some a))
  else if b % 64 != 0 then .trap (trapOf cMisaligned (some b))
  else match regionOf s tid a, regionOf s tid b with
    | .none, _ => .trap (trapOf cProtection (some a))
    | _, .none => .trap (trapOf cProtection (some b))
    | .here kd d, .here ks r =>
      if a == b then .trap (trapOf cIllegalField (some a))
      else if !regionsAgree d r then .trap (trapOf cSkMismatch (some a))
      else match partsFault s r 10 with
        | some c => .trap (trapOf (BitVec.ofNat 8 c) (some b))
        | none =>
          let (s1, x) := sourceState s ks r
          mergeHere s1 kd ((tget s1.regions kd).getD d) x a
    | x, y => if a == b then .trap (trapOf cIllegalField (some a)) else collateFar s tid a b x y

/-! ### SKDEF (R369 to R372, R403) -/

/-- The image checks of R372 and R371. -/
def imageBad (ws : List Nat) : Bool :=
  let w (i : Nat) : Nat := ws.getD i 0
  let kind := bits (w 0) 2 0
  let cnt := bit (w 0) 3
  let l0 := bits (w 0) 9 4
  let km1 := bits (w 0) 18 16
  let (lo, hi) := match kind with
    | 1 => (4, if cnt then 30 else 32)
    | 2 => (4, 24)
    | 3 => (4, 16)
    | 4 => (1, 7)
    | _ => (1, 0)
  bits (w 0) 63 34 != 0 || bits (w 0) 15 10 != 0 || 2 ^ 32 ≤ w 1 || w 4 != 0 || w 5 != 0 || w 6 != 0 || w 7 != 0 ||
  (cnt && kind != 1) || (km1 != 0 && kind != 1 && kind != 2) || l0 < lo || hi < l0 ||
  (match kind with
   | 1 | 2 => !bit (w 2) 0 || bit (w 3) 0
   | 3 => !bit (w 2) 0
   | _ => w 2 != 0 || w 3 != 0)

/-- The pages of a region's bytes, each with a sketch kind of a range bound to merge (R369), the base's homed on this module
(R403); none otherwise. -/
def regionPages (s : State) (p : Party) (base size kind : Nat) : Option (State × List (Nat × Nat) × Nat) :=
  (List.range ((base + size - 1) / 65536 - base / 65536 + 1)).foldl (fun acc i =>
    match acc with
    | none => none
    | some (st, ps, range) =>
      let va := (base / 65536 + i) * 65536
      match placeOf st p .global (max va base) 1 .look with
      | .error _ => none
      | .ok (st1, pl) =>
        if pl.sketch != kind || rangeSlot st1 pl.range != 4 || (i == 0 && pl.remote) then none
        else some (st1, ps ++ [(va, pl.pa / 65536 * 65536)], if i == 0 then pl.range else range)) (some (s, [], 0))

/-- Bytes of the pool of each die that regions hold (R369; log entry 35). -/
def poolUsed (s : State) : Nat := (s.regions.map fun e => skBytes e.2).sum

/-- The lowest free region slot of the 1,024 (R369; log entry 35). -/
def freeSlot (s : State) : Option Nat := (List.range 1024).find? fun k => (tget s.regions k).isNone

/-- The region that SKDEF binds (R370, R403). -/
def newRegion (ctx : Nat) (asid : BitVec 16) (base home range : Nat) (pages : List (Nat × Nat)) (ws : List Nat) : Region :=
  let w0 := ws.getD 0 0
  { context := ctx, asid, base := BitVec.ofNat 64 base, home, range, pages
    kind := bits w0 2 0, cnt := bit w0 3, l0 := bits w0 9 4, lcur := bits w0 9 4, km1 := bits w0 18 16, stv := bit w0 19
    stask := BitVec.ofNat 14 (bits w0 33 20), thresh := BitVec.ofNat 32 (ws.getD 1 0)
    seed0 := BitVec.ofNat 64 (ws.getD 2 0), seed1 := BitVec.ofNat 64 (ws.getD 3 0)
    isSealed := false, csat := false, parts := [], image := SkState.reset, users := [] }

/-- Steps 3 to 6 of R403, the image read. -/
def defineRegion (s : State) (tid base : Nat) (ws : List Nat) : OnceRes :=
  let w := wgOf s (thr s tid).wg
  let kind := bits (ws.getD 0 0) 2 0
  let size := skBytesAt kind (bit (ws.getD 0 0) 3) (bits (ws.getD 0 0) 18 16) (bits (ws.getD 0 0) 9 4)
  if imageBad ws then .trap (trapOf cIllegalField none)
  else match regionPages s (partyOf s tid) base size kind with
    | none => .trap (trapOf cProtection (some base))
    | some (s1, pages, range) =>
      if (regionBase s1 w.asid.toNat base).isSome then .trap (trapOf cProtection (some base))
      else match freeSlot s1 with
        | none => .trap { trapOf cProtection (some base) with sub := some 0x10 }
        | some k =>
          if s1.module.poolBanks * 0x200000 < poolUsed s1 + size then
            .trap { trapOf cProtection (some base) with sub := some 0x10 }
          else
            let home := match pages with
              | [] => 0
              | p :: _ => homeDie (p.2 + base % 65536)
            let r := newRegion w.context w.asid base home range pages ws
            .ok (postImage (setParts (zeroRegion s1 r size) k r fun _ => freshState r) r size)

/-- SKDEF (R403). The image is read as LD reads, of its home where that is another module. -/
def skdefOp (s : State) (tid a b : Nat) : OnceRes :=
  if a % 64 != 0 then .trap (trapOf cMisaligned (some a))
  else if b % 64 != 0 then .trap (trapOf cMisaligned (some b))
  else if 2 ^ 56 ≤ a then .trap (trapOf cProtection (some a))
  else match peekWords s s tid .global b 8 with
    | .ok s1 v => defineRegion s1 tid a ((List.range 8).map fun i => bits v (64 * i + 63) (64 * i))
    | .trap i => .trap i
    | .stall s1 | .sent s1 _ | .abort s1 => .ask s1

/-! ### Once per issue (R394, R410) -/

/-- The operations that an issue performs once, by number. -/
def onceEffect (op : Nat) (s : State) (tid a b : Nat) : OnceRes :=
  if op == reqSkfold then baseOp reqSkfold (fun r => !foldable r) foldRegion s tid a
  else if op == reqSkseal then baseOp reqSkseal (fun _ => false) sealRegion s tid a
  else if op == reqSkopen then baseOp reqSkopen (fun _ => false) openRegion s tid a
  else if op == reqSkclr then baseOp reqSkclr (fun _ => false) clearRegion s tid a
  else if op == reqSkfree then baseOp reqSkfree (fun _ => false) freeRegion s tid a
  else if op == onceSkdef then skdefOp s tid a b
  else collateOp s tid a b

/-- An operation that the lowest thread with a true guard performs for its issue, a release before and an acquire after; only
the threads with a true guard are suspended (R394, R410, R413). One that cannot complete at issue is left to the test of
the suspension. -/
def onceOp (op : Nat) (o : Ops) (needs : List (Src × Need)) (s : State) : Host.Outcome State Fault Refusal :=
  matrixLane o needs (fun s0 s tid lead =>
    let a := srcN (thr s0 lead) o.a
    let b := srcN (thr s0 lead) o.b
    let later : LaneRes :=
      .wait s (sketchWait (if tid == lead then waitOnce + op else waitMate) a b .latchOnly)
    match onceEffect op s0 lead a b with
    | .trap i => .trap i
    | .ask _ => later
    | .ok _ =>
      if (matrixThreads s0 o).any fun i => releaseWaits s0 i true then later
      else if tid == lead then
        match onceEffect op s lead a b with
        | .ok s1 => .wait s1 stacksWait
        | _ => later
      else .wait s stacksWait) s

/-- SKDEF (R403). -/
def execSkdef (o : Ops) (_m : M7) (s : State) : Host.Outcome State Fault Refusal :=
  onceOp onceSkdef o [(o.a, .word), (o.b, .word)] s

/-- SKFOLD (R389, R406). -/
def execSkfold (o : Ops) (_m : M7) (s : State) : Host.Outcome State Fault Refusal := onceOp reqSkfold o [(o.a, .word)] s

/-- SKSEAL (R386, R407). -/
def execSkseal (o : Ops) (_m : M7) (s : State) : Host.Outcome State Fault Refusal := onceOp reqSkseal o [(o.a, .word)] s

/-- SKSEAL with OPEN (R386, R407). -/
def execSksealOpen (o : Ops) (_m : M7) (s : State) : Host.Outcome State Fault Refusal := onceOp reqSkopen o [(o.a, .word)] s

/-- SKCLR (R390, R408). -/
def execSkclr (o : Ops) (_m : M7) (s : State) : Host.Outcome State Fault Refusal := onceOp reqSkclr o [(o.a, .word)] s

/-- SKCLR with FREE (R390, R408). -/
def execSkclrFree (o : Ops) (_m : M7) (s : State) : Host.Outcome State Fault Refusal := onceOp reqSkfree o [(o.a, .word)] s

/-- COLLATE (R387, R388, R409). -/
def execCollate (o : Ops) (_m : M7) (s : State) : Host.Outcome State Fault Refusal :=
  onceOp onceCollate o [(o.a, .word), (o.b, .word)] s

/-! ### SKDEL and SKSTAT (R404, R405) -/

/-- The home's answer to a SKDEL or a SKSTAT, or the wait for it. -/
def laneAnswer (s : State) (tid : Nat) (w : Wait) (pkt : Packet) : WaitRes :=
  if insertsOut s tid (pkt.addr.toNat) then .no s
  else match awaitHome s s tid w.a.toNat pkt 8 with
    | .ok s1 v =>
      let (x, s2) := if noRegion v 0 then reportNoRegion s1 tid pkt.addr.toNat else (v % 2 ^ 64, s1)
      .done (writeDst s2 tid w.dst x)
    | .sent s1 _ => .done s1
    | .trap i => .trap i
    | .abort s1 => .abort s1
    | .stall s1 => .ask s1

/-- A status word asked of another module: AUX 2 + W (log entry 27). -/
def statRequest (pa w : Nat) : Packet := { readRequest pa 8 with aux := BitVec.ofNat 40 (2 + w) }

/-- The suspension of a SKDEL or a SKSTAT of another module: the key, or W, in B; 1 tells a SKDEL, 3 a SKSTAT. -/
def waitSkdel : Nat := 1
def waitSkstat : Nat := 3

/-- SKDEL (R375, R404). -/
def execSkdel (o : Ops) (m : M7) (s : State) : Host.Outcome State Fault Refusal :=
  laneOp o [(o.a, .word), (o.b, .word)] (fun s0 s tid =>
    let ea := srcN (thr s tid) o.a
    let key := srcN (thr s tid) o.b
    outsideTx s tid
      (match laneCheck s tid .global ea 8 .wr true with
       | .error i => .trap i
       | .ok (s1, p) =>
         if p.sketch == 0 then .trap (trapOf cProtection (some ea))
         else if releaseWaits s0 tid (releases m.ord) then .hold postedHold
         else if p.remote then .wait s1 (sketchWait waitSkdel ea key .latchOnly)
         else match regionAt s1 p.pa with
           | none => .trap (trapOf cProtection (some ea))
           | some (k, r) =>
             let d := dieOfThr s tid
             if r.kind != 1 || !r.cnt then .trap (trapOf cSkNodel (some ea))
             else match regionFault s1 r d p.range 8 with
               | some c => .trap (trapOf (BitVec.ofNat 8 c) (some ea))
               | none => .wait (regionEvent (setPart s1 k r d (skDelete r (partOf r d) key)) r d p.range 8) stacksWait)) s

/-- SKSTAT (R405): it reads the descriptor, and no byte of the region's memory. -/
def execSkstat (o : Ops) (m : M7) (s : State) : Host.Outcome State Fault Refusal :=
  laneOp o [(o.a, .word)] (fun _ s tid =>
    let ea := srcN (thr s tid) o.a
    let w := m.low.toNat % 8
    outsideTx s tid
      (match laneCheck s tid .global ea 8 .rd true with
       | .error i => .trap i
       | .ok (s1, p) =>
         if p.sketch == 0 then .trap (trapOf cProtection (some ea))
         else if p.remote && m.scope != .pod then .trap (trapOf cIllegalField (some ea))
         else if p.remote then .wait s1 (sketchWait waitSkstat ea w o.d)
         else match regionAt s1 p.pa with
           | none => .trap (trapOf cProtection (some ea))
           | some (k, r) =>
             let d := dieOfThr s tid
             match regionFault s1 r d p.range 9 with
             | some c => .trap (trapOf (BitVec.ofNat 8 c) (some ea))
             | none =>
               let (x, r1) := seenState r d (m.scope == .die)
               let s2 := regionEvent (setRegion s1 k r1) r d p.range 9
               .wait (writeDst s2 tid o.d (skStatWord r x w)) stacksWait)) s

/-! ### The end of a suspension of class 0x8 (R395) -/

/-- The test of a suspension with code 11. -/
def sketchTest (s : State) (tid : Nat) (w : Wait) : WaitRes :=
  if w.var == 0 then .done s
  else if w.var == waitMate then .no s
  else if w.var == waitSkdel || w.var == waitSkstat then
    match laneCheck s tid .global w.a.toNat 8 (if w.var == waitSkdel then .wr else .rd) true with
    | .error i => .trap i
    | .ok (s1, p) =>
      laneAnswer s1 tid w (carryRange
        (if w.var == waitSkdel then sketchRequest reqSkdel p.pa [w.b.toNat] else statRequest p.pa w.b.toNat) p.range)
  else if (tid :: issueMates s tid).any fun i => releaseWaits s i true then .no s
  else match onceEffect (w.var - waitOnce) s tid w.a.toNat w.b.toNat with
    | .ok s1 => .done s1
    | .trap i => .trap i
    | .ask s1 => .ask s1

end Sys2Proof.Machine
end

