-- ==== Sys2Proof/Machine/Links.lean ====
section
/-! DEFINITION. The fabric's recovery and its instructions: acknowledgements, recalls, resends, losses (R446 to R449), and
FLUSHP, TRIMQ, BWSET, RCPACE (R457 to R461). -/

namespace Sys2Proof.Machine

/-- Time in fabric cycles: 12.5 to a core clock (R437; log entry 6). -/
def fabricNow (s : State) : Nat := s.clock * 25 / 2

/-- The remaining route of a packet. -/
def packetRoute (p : Packet) : List Nat :=
  (List.range (p.aux.toNat / 2 ^ 25 % 32)).map fun i => p.route.toNat / 2 ^ (16 * i) % 2 ^ 16

/-- A collective header that a port discards: a reserved OP or a nonzero RZ field (R466). -/
def badCollective (p : Packet) : Bool :=
  p.type == tyCollective && (p.aux.toNat % 2 ^ 25 != 0 || 16 < p.aux.toNat / 2 ^ 25 % 32 ||
    (packetRoute p).any fun e => 6 ≤ e / 2 ^ 13 || e / 2 ^ 10 % 8 != 0)

/-- A header that a port discards (R441). -/
def badHeader (p : Packet) : Bool := 13 ≤ p.type.toNat || p.rzBad || badCollective p

/-- A discarded packet counts as a link error (R441). -/
def discard (s : State) (port : Nat) : State := modPort s port fun x => { x with linkErrors := x.linkErrors + 1 }

/-- The source of a packet: module and port. -/
def srcKey (p : Packet) : Nat := p.smod.toNat * 16 + p.sport.toNat

/-- A header back to a packet's source port, naming SPORT and TAG (R446, R447). -/
def answerTo (s : State) (p : Packet) (cls : BitVec 3) (ty : BitVec 5) (aux : Nat) : Packet :=
  { Packet.blank with
    dmod := p.smod, ddie := p.sport.extractLsb' 2 2, smod := BitVec.ofNat 10 (moduleNumber s), sport := p.sport
    cls, type := ty, tag := p.tag, aux := BitVec.ofNat 40 aux }

/-- The acknowledgement of a packet, with its status in AUX: 0, or a cause (R440, R446; log entry 27). -/
def ack (s : State) (port : Nat) (p : Packet) (status : Nat) : State := egress s port (answerTo s p 3 tyAck status)

/-- The status of a refused collective packet (R469; log entry 27). -/
def statusRefused : Nat := cFabricLost.toNat

/-! ### Stubs and recalls (R447) -/

/-- A stub's recall is scheduled. -/
def addStub (s : State) (port : Nat) (p : Packet) : State :=
  let d := 2 ^ min s.fabric.cap (s.fabric.base + p.trims.toNat)
  modPort s port fun x => { x with stubs := x.stubs ++ [{ pkt := stubOf p, due := fabricNow s + d, gap := s.fabric.pairGap }] }

/-- Whether a recall may leave now. -/
def recallDue (s : State) (x : Port) (t : Stub) : Bool :=
  t.due ≤ fabricNow s && match tget x.lastRecall (srcKey t.pkt) with
    | none => true
    | some last => last + t.gap ≤ fabricNow s

/-- The earlier of two stubs: by due time, then by TAG. -/
def earlierStub (a b : Stub) : Stub := if b.due < a.due || (b.due == a.due && b.pkt.tag < a.pkt.tag) then b else a

/-- The recall that leaves next. -/
def nextRecall (s : State) (port : Nat) : Option Stub :=
  match (portOf s port).stubs.filter (recallDue s (portOf s port)) with
  | [] => none
  | t :: rest => some (rest.foldl earlierStub t)

/-- RECALL_SEND: the next due recall leaves. -/
def execRecallSend (port : Nat) (s : State) : Host.Outcome State Fault Refusal :=
  if 16 ≤ port then .fault .noSuchUnit
  else match nextRecall s port with
    | none => .next s
    | some t =>
      .next (egress (modPort s port fun x =>
        { x with stubs := x.stubs.erase t
                 lastRecall := tset x.lastRecall (srcKey t.pkt) (fabricNow s) }) port
        (answerTo s t.pkt 4 tyRecall t.pkt.trims.toNat))

/-! ### Resends (R448, R449) -/

/-- The kept packet of a tag. -/
def keptOf (s : State) (port : Nat) (tag : BitVec 16) : Option Kept := (portOf s port).kept.find? fun k => k.pkt.tag == tag

/-- A kept packet changed. -/
def setKept (s : State) (port : Nat) (k : Kept) : State :=
  modPort s port fun x => { x with kept := x.kept.map fun y => if y.pkt.tag == k.pkt.tag then k else y }

/-- A kept packet leaves the buffer. -/
def dropKept (s : State) (port : Nat) (tag : BitVec 16) : State :=
  modPort s port fun x => { x with kept := x.kept.filter fun y => y.pkt.tag != tag }

/-- Sends a kept packet again, whole. -/
def resend (s : State) (port : Nat) (k : Kept) : State :=
  egress (setKept s port { k with since := s.clock }) port k.pkt

/-- TRIMS one higher, saturating at 15. -/
def moreTrims (t : BitVec 4) : BitVec 4 := if t == 15 then t else t + 1

/-- RECALL_ARRIVAL (R448). -/
def execRecallArrival (port : Nat) (p : Packet) (s : State) : Host.Outcome State Fault Refusal :=
  if 16 ≤ port then .fault .noSuchUnit
  else if badHeader p then .next (discard s port)
  else if p.type != tyRecall then .next s
  else match keptOf s port p.tag with
    | none => .next s
    | some k => .next (resend s port { k with pkt := { k.pkt with trims := moreTrims k.pkt.trims } })

/-- 200 µs in core clocks (R449; log entry 6). -/
def answerBound : Nat := 450000

/-- The workgroup of a slip that has left its chain. -/
def slipOwner (s : State) (ring : RingLoc) (k : Nat) : Option Nat :=
  s.quads.findSome? fun q => (q.2.slips.find? fun x => x.ring == ring && x.k == k).map fun x => x.wg

/-- What a lost packet means to its sender: the thread's write never completes, the workgroup of a copy entry or a slip stops
(R455, R456), the send never completes (R479). DESIGN CHOICE: whoever waits for the answer to a lost request, or for the
acknowledgement of a context's storage job, waits on (log entry 87). -/
def loseOwner (s : State) (port : Nat) (kept : Kept) : State :=
  match kept.owner with
  | .thread _ =>
    { s with threads := s.threads.map fun e =>
        (e.1, { e.2 with posted := e.2.posted.map fun y =>
          if y.port == port && y.tag == kept.pkt.tag then { y with lost := true } else y }) }
  | .copy quad hdr n =>
    match ((quadOf s quad).chans.flatMap fun c => c.2).find? fun x => x.core * 2 ^ 20 + x.hdr == hdr && x.k == n with
    | some x => stopWg s x.wg cFabricLost
    | none => s
  | .slip ring k =>
    match slipOwner s ring k with
    | some wg => if kept.pkt.len == 0 then s else stopWg s wg cFabricLost
    | none => s
  | .send die id =>
    modColl s die fun c => { c with sends := c.sends.map fun y => if y.id == id then { y with dead := true } else y }
  | .request _ _ _ | .card _ _ _ | .header _ _ | .packet _ _ | .response | .guest _ | .service => s

/-- FABRIC_LOST with SOURCE 2 for a context (R449, R469). -/
def reportLost (s : State) (ctx : Nat) (sub : Option Nat) (pa : Nat) : State :=
  reportNote s ctx { cause := cFabricLost.toNat, sub, source := 2, core := none, word1 := none, addr := some pa, w := none }

/-- A packet declared lost; a response and a guest's write name no context of this module. -/
def loseKept (s : State) (port : Nat) (k : Kept) : State :=
  let s1 := loseOwner (dropKept s port k.pkt.tag) port k
  match k.owner with
  | .response | .guest _ => s1
  | _ => reportLost s1 k.context none k.pkt.addr.toNat

/-- RESEND_TIMEOUT (R449). -/
def execResendTimeout (port : Nat) (tag : BitVec 16) (s : State) : Host.Outcome State Fault Refusal :=
  if 16 ≤ port then .fault .noSuchUnit
  else match keptOf s port tag with
    | none => .next s
    | some k =>
      if s.clock < k.since + answerBound then .next s
      else if k.resends < 4 then .next (resend s port { k with resends := k.resends + 1 })
      else .next (loseKept s port k)

/-! ### Acknowledgements and answers at the source -/

/-- The answer to a request reaches every piece that waits for it. -/
def fillPieces (s : State) (port : Nat) (tag : BitVec 16) (v : Nat) (fault : BitVec 8) : State :=
  { s with threads := s.threads.map fun e =>
      (e.1, { e.2 with pend := e.2.pend.map fun p =>
        { p with pieces := p.pieces.map fun q =>
            if q.val.isNone && q.port == port && q.tag == tag then { q with val := some v, fault } else q } }) }

/-- The answer to an engine's read (R439). -/
def fillAsks (s : State) (port : Nat) (tag : BitVec 16) (flits : List Wide) (poisoned : Bool) (fault : BitVec 8) : State :=
  let f := s.fabric
  { s with fabric := { f with asks := f.asks.map fun a =>
      if a.val.isNone && a.port == port && a.tag == tag then { a with val := some flits, poisoned, fault } else a } }

/-- Whether an instruction waits for this packet's answer. -/
def pieceWaits (s : State) (port : Nat) (tag : BitVec 16) : Bool :=
  s.threads.any fun e => e.2.pend.any fun p => p.pieces.any fun q => q.val.isNone && q.port == port && q.tag == tag

/-- The writes in flight of every thread without the acknowledged one. -/
def dropPosted (s : State) (port : Nat) (tag : BitVec 16) : State :=
  { s with threads := s.threads.map fun e =>
      (e.1, { e.2 with posted := e.2.posted.filter fun y => !(y.port == port && y.tag == tag) }) }

/-- A copy entry that a write's answer ends (R452). -/
def ackFaultRun (s : State) (quad hdr n : Nat) (status : Nat) : State :=
  match ((quadOf s quad).chans.flatMap fun c => c.2).find? fun x => x.core * 2 ^ 20 + x.hdr == hdr && x.k == n with
  | none => s
  | some x =>
    match x.st with
    | .finished c sub =>
      modChan s quad (copyChan x.words) fun xs => xs.map fun y =>
        if y.hdr == x.hdr && y.core == x.core && y.k == x.k then
          { y with st := if c == 0 then .finished (BitVec.ofNat 8 status) sub else y.st }
        else y
    | _ => endRun s quad x (status, none)

/-- A card whose output is refused ends with the fault's cause (R251, R452). -/
def ackFaultCard (s : State) (die ring k status : Nat) : State :=
  modDie s die fun x => { x with cards := x.cards.map fun c =>
    if c.ring == ring && c.k == k then
      match c.st with
      | .ending false _ => { c with st := .ending false (cardRecord k stAbandoned status 0 0 0) }
      | _ => c
    else c }

/-- A send that a fault ends, as an abandoned entry ends: no later chunk runs, and its task is decremented (R251). -/
def abandonSend (s : State) (die id : Nat) : State :=
  match (dieOf s die).coll.sends.find? fun y => y.id == id with
  | none => s
  | some y =>
    let s1 := dropAsks (modColl s die fun c => { c with sends := c.sends.filter fun z => z.id != id }) (.send die id)
    sendDecIf s1 y.task.isSome (y.task.getD 0).toNat

/-- What an acknowledgement with a status means to the packet's sender. A thread's posted write that fails is reported as
FABRIC_LOST, a sketch insert's as the cause of R370; a slip ends as an abandoned one does, with no record (R242, R251). -/
def ackFault (s : State) (k : Kept) (status : Nat) : State :=
  match k.owner with
  | .copy quad hdr n => ackFaultRun s quad hdr n status
  | .card die ring n => ackFaultCard s die ring n status
  | .slip _ _ | .request _ _ _ | .header _ _ | .packet _ _ => s
  | .send die id =>
    if k.pkt.type != tyCollective then abandonSend s die id
    else reportLost (modColl s die fun c =>
      { c with sends := c.sends.map fun y => if y.id == id then { y with dead := true } else y })
      k.context (some 1) k.pkt.addr.toNat
  | .response | .guest _ => s
  | _ =>
    if k.pkt.type == tyCollective then reportLost s k.context (some 1) k.pkt.addr.toNat
    else if k.pkt.type != tySketch then reportLost s k.context none k.pkt.addr.toNat
    else reportNote s k.context
      { cause := status, sub := none, source := 2, core := none, word1 := none, addr := some k.pkt.addr.toNat, w := none }

/-- ACK_ARRIVAL (R446): the buffer entry is free, the write is no longer in flight. -/
def execAckArrival (port : Nat) (p : Packet) (s : State) : Host.Outcome State Fault Refusal :=
  if 16 ≤ port then .fault .noSuchUnit
  else if badHeader p then .next (discard s port)
  else if p.type != tyAck then .next s
  else match keptOf s port p.tag with
    | none => .next s
    | some k =>
      let status := p.aux.toNat % 256
      let waits := pieceWaits s port p.tag
      let s1 := fillPieces (dropPosted (dropKept s port p.tag) port p.tag) port p.tag 0 (BitVec.ofNat 8 status)
      .next (if status == 0 || waits then s1 else ackFault s1 k status)

/-- The payload of a packet as one number. -/
def payloadNat (p : Packet) : Nat := p.payload.foldr (fun f acc => f.toNat + 2 ^ 256 * acc) 0

/-- What an answer holds as one number: its payload, and its operands above 2,048 bits (log entry 27). -/
def answerNat (p : Packet) : Nat := payloadNat p + 2 ^ 2048 * p.operands.foldr (fun w acc => w.toNat + 2 ^ 64 * acc) 0

/-- The owner of the guest's read of a line of another module. -/
def guestReader (pa : Nat) : Owner := .header 69 (.global 0 (BitVec.ofNat 64 pa))

/-- The guest's reads of other modules whose data has come are answered (R489). -/
def feedGuest (s : State) : State :=
  s.annex.reads.foldl (fun st r =>
    let closed (u : State) : State :=
      modAnnex (dropAsks u (guestReader r.1)) fun a => { a with reads := a.reads.erase r }
    match fetchRemote st 1 (guestReader r.1) 0 r.2 r.1 64 with
    | .waits _ => st
    | .refused _ => closed st
    | .got bs bad => closed (modAnnex st fun a => { a with out := a.out ++ [.data (BitVec.ofNat 52 r.1) bs (bad.any id)] })) s

/-- A response that has reached the requester is acknowledged, and its request answered (R446). AUX holds the request's TAG
[15:0] and the status [31:24] (log entry 27). -/
def takeResponse (s : State) (port : Nat) (p : Packet) : State :=
  let s1 := if p.payload.isEmpty then s else ack s port p 0
  let tag := BitVec.ofNat 16 (p.aux.toNat % 2 ^ 16)
  match keptOf s1 port tag with
  | none => s1
  | some _ =>
    let status := p.aux.toNat / 2 ^ 24 % 256
    let fault := if status == 0 && p.poisoned then cPoison else BitVec.ofNat 8 status
    feedGuest (fillAsks (fillPieces (dropKept s1 port tag) port tag (answerNat p) fault) port tag p.payload p.poisoned
      (BitVec.ofNat 8 status))

/-! ### Switches -/

/-- SWITCH_PACKET_ARRIVAL: an output port of the module forwards a packet, or trims it (R443, R445). -/
def execSwitchPacketArrival (port : Nat) (p : Packet) (s : State) : Host.Outcome State Fault Refusal :=
  if 16 ≤ port then .fault .noSuchUnit
  else if badHeader p then .next (discard s port)
  else .next (egress s port p)

/-! ### Instructions (R457 to R461) -/

/-- FLUSHP (R458): it suspends while a posted write is in flight. -/
def execFlushp (o : Ops) (_m : M7) (s : State) : Host.Outcome State Fault Refusal :=
  laneOp o [] (fun _ s tid =>
    outsideTx s tid
      (if (thr s tid).posted.isEmpty then .done s
       else .wait s { code := 7, a := 0, b := 0, dst := .latchOnly, var := 0 })) s

/-- TRIMQ (R459). -/
def execTrimq (o : Ops) (_m : M7) (s : State) : Host.Outcome State Fault Refusal :=
  laneOp o [(o.a, .word)] (fun _ s tid =>
    let a := srcN (thr s tid) o.a
    outsideTx s tid
      (if 2 ^ 7 ≤ a then .trap (trapOf cIllegalField none)
       else .done (writeDst s tid o.d (tgetD (portOf s (a % 16)).trims (a / 16) 0).toNat))) s

/-- The weights of BWSET's B. -/
def weightsOf (b : Nat) : List Nat := (List.range 8).map fun k => bits b (8 * k + 7) (8 * k)

/-- What BWSET refuses (R460). -/
def weightsBad (b : Nat) : Bool :=
  let ws := weightsOf b
  ws.any (fun w => 64 < w) || ws.getD 3 0 != 0 || ws.getD 4 0 != 0 || ws.sum != 64

/-- BWSET (R460). -/
def execBwset (o : Ops) (_m : M7) (s : State) : Host.Outcome State Fault Refusal :=
  laneOp o [(o.a, .word), (o.b, .word)] (fun _ s tid =>
    let a := srcN (thr s tid) o.a
    let b := srcN (thr s tid) o.b
    outsideTx s tid (privileged s tid
      (if 2 ^ 16 ≤ a || weightsBad b then .trap (trapOf cIllegalField none)
       else .done ((List.range 16).foldl (fun st port =>
         if bit a port then modPort st port fun x => { x with weights := weightsOf b } else st) s)))) s

/-- RCPACE (R461). -/
def execRcpace (o : Ops) (_m : M7) (s : State) : Host.Outcome State Fault Refusal :=
  laneOp o [(o.a, .word)] (fun _ s tid =>
    let a := srcN (thr s tid) o.a
    let base := bits a 16 12
    let cap := bits a 21 17
    outsideTx s tid (privileged s tid
      (if 2 ^ 22 ≤ a || base < 4 || 16 < base || cap < base || 16 < cap then .trap (trapOf cIllegalField none)
       else .done { s with fabric := { s.fabric with pairGap := a % 2 ^ 12, base, cap } }))) s

end Sys2Proof.Machine
end

