-- ==== Sys2Proof/Machine/Shake.lean ====
section
/-! DEFINITION. SHAKE256 (FIPS 202), which the manual uses for table images, plan checks and attestation (R420, R469,
R519). -/

namespace Sys2Proof.Machine

/-- The feedback register of FIPS 202's rc after n steps from 1: x^8 + x^6 + x^5 + x^4 + 1. -/
def rcRegister (n : Nat) : Nat :=
  match n with
  | 0 => 1
  | m + 1 =>
    let d := 2 * rcRegister m
    if d < 256 then d else (d - 256) ^^^ 0x71

/-- The constant that iota adds in round i: bit 2^j - 1 is rc(7i + j). -/
def iotaWord (i : Nat) : Nat := ((List.range 7).map fun j => rcRegister (7 * i + j) % 2 * 2 ^ (2 ^ j - 1)).sum

/-- Rho's walk over n lanes from (x, y): each lane x + 5y with its rotation, which grows as the triangular numbers do. -/
def rhoWalk (n t x y : Nat) : FMap Nat :=
  match n with
  | 0 => []
  | m + 1 => (x + 5 * y, (t + 1) * (t + 2) / 2 % 64) :: rhoWalk m (t + 1) y ((2 * x + 3 * y) % 5)

/-- The rotation of a lane; lane 0, which the walk never meets, has none. -/
def rhoOf (walk : FMap Nat) (i : Nat) : Nat := ((walk.find? fun e => e.1 == i).map Prod.snd).getD 0

/-- A 64-bit rotation to the left. -/
def rotl64 (v n : Nat) : Nat := v * 2 ^ n % 2 ^ 64 + v / 2 ^ (64 - n)

/-- Round i: theta, rho and pi, chi, iota. -/
def keccakRound (walk : FMap Nat) (a : List Nat) (i : Nat) : List Nat :=
  let at_ (l : List Nat) (i : Nat) : Nat := l.getD i 0
  let iota := iotaWord i
  let c := (List.range 5).map fun x => at_ a x ^^^ at_ a (x + 5) ^^^ at_ a (x + 10) ^^^ at_ a (x + 15) ^^^ at_ a (x + 20)
  let d := (List.range 5).map fun x => at_ c ((x + 4) % 5) ^^^ rotl64 (at_ c ((x + 1) % 5)) 1
  let t := (List.range 25).map fun i => rotl64 (at_ a i ^^^ at_ d (i % 5)) (rhoOf walk i)
  -- lane (x, y) moves to (y, 2x + 3y)
  let b := (List.range 25).map fun i =>
    let y := i % 5
    let x := (i / 5 + 2 * y) * 3 % 5
    at_ t (x + 5 * y)
  let e := (List.range 25).map fun i =>
    let r := i / 5 * 5
    at_ b i ^^^ ((2 ^ 64 - 1 - at_ b (r + (i + 1) % 5)) &&& at_ b (r + (i + 2) % 5))
  (List.range 25).map fun i => if i == 0 then at_ e 0 ^^^ iota else at_ e i

/-- Keccak-f[1600]. -/
def keccakF (a : List Nat) : List Nat := (List.range 24).foldl (keccakRound (rhoWalk 24 0 1 0)) a

/-- A block of 136 bytes absorbed. -/
def keccakAbsorb (a : List Nat) (block : List Byte) : List Nat :=
  keccakF ((List.range 25).map fun i => a.getD i 0 ^^^ (if i < 17 then leNat ((block.drop (8 * i)).take 8) else 0))

/-- The message with its padding. -/
def shakePad (bs : List Byte) : List Byte :=
  let n := 136 - bs.length % 136
  if n == 1 then bs ++ [0x9F] else bs ++ [0x1F] ++ List.replicate (n - 2) 0 ++ [0x80]

/-- The state after every block. -/
def shakeAbsorb (a : List Nat) (bs : List Byte) (blocks : Nat) : List Nat :=
  match blocks with
  | 0 => a
  | n + 1 => shakeAbsorb (keccakAbsorb a (bs.take 136)) (bs.drop 136) n

/-- The output blocks. -/
def shakeSqueeze (a : List Nat) (blocks : Nat) : List Byte :=
  match blocks with
  | 0 => []
  | n + 1 => ((a.take 17).flatMap (leBytes 8)) ++ shakeSqueeze (keccakF a) n

/-- n bytes of SHAKE256. -/
def shake256 (bs : List Byte) (n : Nat) : List Byte :=
  let p := shakePad bs
  (shakeSqueeze (shakeAbsorb (List.replicate 25 0) p (p.length / 136)) ((n + 135) / 136)).take n

end Sys2Proof.Machine
end

