-- ==== Sys2Proof/Machine/Collective.lean ====
section
/-! DEFINITION. The collective units: plans, the tree, the combination of chunks, packets, and CLPLAN and CLSEND (R462 to
R479). -/

namespace Sys2Proof.Machine

/-! ### Plans (R463) -/

def planOp (p : Plan) : Nat := bits (cfgWord p.words 0) 34 32
def planAll (p : Plan) : Bool := bit (cfgWord p.words 0) 35
def planRoot (p : Plan) : Nat := bits (cfgWord p.words 0) 57 48
def planMe (p : Plan) : Nat := bits (cfgWord p.words 0) 25 16
def planSize (p : Plan) : Nat := bits (cfgWord p.words 0) 9 0 + 1
def planType (p : Plan) : Fmt := (fmtOf (BitVec.ofNat 6 (bits (cfgWord p.words 0) 41 36))).getD .f32
def planResult (p : Plan) : Nat := bits (cfgWord p.words 1) 55 0
def planRlen (p : Plan) : Nat := bits (cfgWord p.words 2) 31 0

/-- The OP codes (R463). -/
def opSum : Nat := 1
def opMax : Nat := 2
def opCollate : Nat := 4
def opCopy : Nat := 5

/-- Whether this rank writes the result (R463). -/
def planWrites (p : Plan) : Bool := planAll p || planMe p == planRoot p

/-- Bytes of a chunk of TYPE: 32 elements (R466). -/
def chunkBytes (p : Plan) : Nat := 4 * fmtWidth (planType p)

/-- The region that a COLLATE plan's descriptor describes. -/
def planRegion (p : Plan) : Region := newRegion 0 0 0 0 0 [] (p.desc.map BitVec.toNat)

/-- Cell chunks of a COLLATE plan; the closing chunk follows them (R466). -/
def cellChunks (p : Plan) : Nat := (skBytes (planRegion p) + 255) / 256

/-- The plan in a slot of a die's unit. -/
def planIn (s : State) (die slot : Nat) : Option Plan := tget (dieOf s die).coll.plans slot

/-! ### The tree (R464, R465) -/

/-- The largest power of two below the size of [lo, hi), above lo. -/
def splitOf (lo hi : Nat) : Nat := lo + 2 ^ Nat.log2 (hi - lo - 1)

/-- The ancestors of leaf r in Node(lo, hi), from the top: lo, split and hi of each. -/
def ancestors (lo hi r fuel : Nat) : List (Nat × Nat × Nat) :=
  match fuel with
  | 0 => []
  | f + 1 =>
    if hi ≤ lo + 1 then []
    else
      let m := splitOf lo hi
      (lo, m, hi) :: (if r < m then ancestors lo m r f else ancestors m hi r f)

/-- The ancestors of a plan's own rank, from the bottom. -/
def planNodes (p : Plan) : List (Nat × Nat × Nat) := (ancestors 0 (planSize p) (planMe p) 11).reverse

/-- A route entry (R466). -/
def routeEntry (op rank : Nat) : Nat := op * 2 ^ 13 + rank

/-- The final entry of the ascent list (R465). -/
def finalEntry (p : Plan) : List Nat :=
  if planAll p then [routeEntry opCopy 0] else if planRoot p != 0 then [routeEntry 0 (planRoot p)] else []

/-- The ascent list of a plan's own rank (R465). -/
def ascentList (p : Plan) : List Nat :=
  if planOp p == opCopy then finalEntry p
  else (planNodes p).map (fun n => routeEntry (planOp p) n.1) ++ finalEntry p

/-- The upper rank of the node with a split that this rank hosts. -/
def nodeHi (p : Plan) (split : Nat) : Nat :=
  match (planNodes p).find? fun n => n.1 == planMe p && n.2.1 == split with
  | some n => n.2.2
  | none => split

/-- The right children of the nodes that this rank hosts (R467). -/
def rightChildren (p : Plan) : List Nat := ((planNodes p).filter fun n => n.1 == planMe p).map fun n => n.2.1

/-! ### Chunks (R466, R468) -/

/-- Elements of w bits of a payload. -/
def chunkElems (w n : Nat) (fs : List Wide) : List Nat :=
  let v := fs.foldr (fun f acc => f.toNat + 2 ^ 256 * acc) 0
  (List.range n).map fun i => v / 2 ^ (w * i) % 2 ^ w

/-- n flits of elements of w bits. -/
def chunkFlits (w n : Nat) (es : List Nat) : List Wide :=
  let v := es.foldr (fun e acc => e % 2 ^ w + 2 ^ w * acc) 0
  (List.range n).map fun i => BitVec.ofNat 256 (v / 2 ^ (256 * i))

/-- The f32 sum of two f32 codes, rounded once, with y negated for a difference. -/
def addF32 (x y : Nat) : Nat := roundF32 .rne (addNum .rne (decodeFloat .f32 x) (decodeFloat .f32 y)).1
def subF32 (x y : Nat) : Nat := roundF32 .rne (addNum .rne (decodeFloat .f32 x) (negNum (decodeFloat .f32 y))).1

/-- Whether a code is a finite f32 number. -/
def finiteF32 (x : Nat) : Bool := match decodeFloat .f32 x with
  | .fin _ _ _ => true
  | _ => false

/-- Two pairs combined, the left first (R468): a pair is its sum below its error. -/
def sumPair (a b : Nat) : Nat :=
  let (x, e, y, f) := (a % 2 ^ 32, a / 2 ^ 32, b % 2 ^ 32, b / 2 ^ 32)
  let t := addF32 x y
  let z := subF32 t x
  let c := addF32 (subF32 x (subF32 t z)) (subF32 y z)
  let g := addF32 (addF32 e f) c
  t + (if finiteF32 t then g else 0) * 2 ^ 32

/-- A code of TYPE as an f32 code: exact. -/
def widenF32 (ty : Fmt) (x : Nat) : Nat := roundF32 .rne (decodeFloat ty x)

/-- The bits of a COLLATE cell in the region image (R371). -/
def cellBits (r : Region) : Nat :=
  match r.kind with
  | 1 => if r.cnt then 4 else 1
  | 3 => 8
  | _ => 32

/-- Two payloads of a chunk combined, and whether a saturating cell clipped (R387, R468). -/
def combine (p : Plan) (chunk : Nat) (l r : List Wide) : List Wide × Bool :=
  if planOp p == opSum then
    (chunkFlits 64 8 (List.zipWith sumPair (chunkElems 64 32 l) (chunkElems 64 32 r)), false)
  else if planOp p == opCollate then
    if chunk == cellChunks p then
      let (a, b) := (chunkElems 64 2 l, chunkElems 64 2 r)
      (chunkFlits 64 1 [a.getD 0 0 + b.getD 0 0, a.getD 1 0 ||| b.getD 1 0], false)
    else
      let w := cellBits (planRegion p)
      let es := List.zipWith (mergeCell (planRegion p)) (chunkElems w (2048 / w) l) (chunkElems w (2048 / w) r)
      (chunkFlits w 8 (es.map Prod.fst), es.any Prod.snd)
  else
    let w := fmtWidth (planType p)
    (chunkFlits w (w / 8)
      (List.zipWith (atomPick (planType p) (planOp p == opMax)) (chunkElems w 32 l) (chunkElems w 32 r)), false)

/-- The code of TYPE that a pair stands for (R468). -/
def pairResult (ty : Fmt) (a : Nat) : Nat :=
  (encodeFloat ty 0 .rne false false 0 (decodeFloat .f32 (addF32 (a % 2 ^ 32) (a / 2 ^ 32))) false).1

/-- A chunk as a result chunk: pairs are encoded, NaNs of MAX and MIN are canonical (R467, R468). -/
def toResult (p : Plan) (fs : List Wide) : List Wide :=
  let ty := planType p
  let w := fmtWidth ty
  if planOp p == opSum && fs.length == 8 then chunkFlits w (w / 8) ((chunkElems 64 32 fs).map (pairResult ty))
  else if planOp p == opCopy || planOp p == opSum then fs
  else chunkFlits w (w / 8) ((chunkElems w 32 fs).map fun e => if isNan (decodeFloat ty e) then canonNan ty else e)

/-- The payload of this rank's own contribution of 32 codes of TYPE. -/
def leafPayload (p : Plan) (es : List Nat) : List Wide :=
  let w := fmtWidth (planType p)
  if planOp p == opSum then chunkFlits 64 8 (es.map (widenF32 (planType p))) else chunkFlits w (w / 8) es

/-! ### COLLATE chunks (R466, R468) -/

/-- The status bits of a state as the closing chunk carries them. -/
def stateBits (x : SkState) (isSealed : Bool) : Nat :=
  (if x.sat then 1 else 0) + (if x.under then 2 else 0) + (if x.clipped then 4 else 0) + (if isSealed then 8 else 0)

/-- The payloads of a state's chunks, in order. -/
def stateChunks (p : Plan) (x : SkState) (isSealed : Bool) : List (List Wide) :=
  let w := cellBits (planRegion p)
  let per := 2048 / w
  ((List.range (cellChunks p)).map fun c =>
    chunkFlits w 8 ((List.range per).map fun i => cellAt x.cells (per * c + i))) ++
    [chunkFlits 64 1 [x.n.toNat, stateBits x isSealed]]

/-- The state that the gathered chunks of a COLLATE describe; FILL is recounted (R468). -/
def gatheredState (p : Plan) (got : FMap (List Wide)) : SkState :=
  let r := planRegion p
  let w := cellBits r
  let per := 2048 / w
  let cells := (List.range (cellChunks p)).foldl (fun m c =>
    let es := chunkElems w per (tgetD got c [])
    (List.range per).foldl (fun m i => setCell m (per * c + i) (es.getD i 0)) m) []
  let close := chunkElems 64 2 (tgetD got (cellChunks p) [])
  let st := close.getD 1 0
  recount r { cells, n := BitVec.ofNat 64 (close.getD 0 0), fill := 0, under := bit st 1, clipped := bit st 2, sat := bit st 0 }

/-! ### Sends of a unit -/

/-- A send changed. -/
def modSend (s : State) (die id : Nat) (f : Send → Send) : State :=
  modColl s die fun c => { c with sends := c.sends.map fun y => if y.id == id then f y else y }

/-- The oldest send of a plan that waits for a chunk (R476). -/
def sendFor (s : State) (die slot chunk : Nat) : Option Send :=
  (dieOf s die).coll.sends.find? fun y => y.plan == slot && y.left.contains chunk

/-- A send no longer waits for a chunk. -/
def chunkGone (s : State) (die id chunk : Nat) : State :=
  modSend s die id fun y => { y with left := y.left.erase chunk }

/-- The party of a unit that reads or writes for a context. -/
def unitParty (die : Nat) (asid : BitVec 16) : Party := engineParty none die asid.toNat false

/-- A result chunk written at this rank (R467, R474). -/
def writeResult (s : State) (die slot : Nat) (p : Plan) (chunk : Nat) (fs : List Wide) : State :=
  let n := chunkBytes p
  if planRlen p < (chunk + 1) * n then s
  else
    let ea := planResult p + chunk * n
    let send := sendFor s die slot chunk
    let owner := match send with
      | some y => Owner.send die y.id
      | none => .service
    let w : Writer := { die, flow := slot, owner, context := p.context }
    let spans := heldSpans s (unitParty die p.asid) .global .wr p.pages ea n 2
    let bs := leBytes n (fs.foldr (fun f acc => f.toNat + 2 ^ 256 * acc) 0)
    match writeSpans s w spans bs (List.replicate n false) with
    | .error _ =>
      (match send with
       | some y => abandonSend s die y.id
       | none => s)
    | .ok s1 =>
      match send with
      | some y => chunkGone s1 die y.id chunk
      | none => modColl s1 die fun c => { c with plans := tset c.plans slot { p with early := p.early ++ [chunk] } }

/-- A COLLATE chunk that has reached ROOT: the last one merges the whole result into the region that ROOT's send named
(R474). -/
def gatherChunk (s : State) (die slot : Nat) (p : Plan) (chunk : Nat) (fs : List Wide) : State :=
  match (dieOf s die).coll.sends.find? fun y => y.plan == slot && (tget y.got chunk).isNone && !y.left.isEmpty with
  | none => s
  | some y =>
    let got := tset y.got chunk fs
    let s1 := modSend s die y.id fun z => { z with got }
    if got.length ≤ cellChunks p then s1
    else match y.src with
      | .region k =>
        match tget s1.regions k with
        | none => abandonSend s1 die y.id
        | some r =>
          if !regionsAgree r (planRegion p) || (regionFault s1 r r.home r.range 10).isSome then abandonSend s1 die y.id
          else modSend (mergeInto s1 k r (gatheredState p got)) die y.id fun z => { z with left := [], got := [] }
      | _ => s1

/-- A chunk that has reached a rank that takes the result (R467). -/
def takeResult (s : State) (die slot : Nat) (p : Plan) (chunk : Nat) (fs : List Wide) : State :=
  if planOp p == opCollate then gatherChunk s die slot p chunk fs else writeResult s die slot p chunk (toResult p fs)

/-! ### Packets (R466, R467) -/

/-- A collective packet of a chunk with its route. -/
def chunkPacket (slot : Nat) (p : Plan) (chunk : Nat) (fs : List Wide) (route : List Nat) : Packet :=
  let me := planMe p
  { Packet.blank with
    cls := 6, ord := true, len := BitVec.ofNat 4 fs.length, type := tyCollective, flow := BitVec.ofNat 8 slot
    addr := BitVec.ofNat 52 (slot % 256 * 2 ^ 44 + p.pchk.toNat * 2 ^ 28 + chunk % 2 ^ 28)
    aux := BitVec.ofNat 40 (me * 2 ^ 30 + route.length * 2 ^ 25)
    lmask := BitVec.ofNat 32 (2 ^ 32 - 1), fmask := BitVec.ofNat 32 (2 ^ 32 - 1)
    route := BitVec.ofNat 256 (route.foldr (fun e acc => e + 2 ^ 16 * acc) 0), payload := fs }

/-- Sends a chunk to the rank of its first entry: over the fabric, or to a unit of this module. `carries` says that the
packet carries this rank's contribution, whose send then waits for its acknowledgement (R474). -/
def sendChunk (s : State) (die slot : Nat) (p : Plan) (chunk : Nat) (fs : List Wide) (route : List Nat) (carries : Bool) :
    State :=
  let rank := route.headD 0 % 1024
  let (m, d) := p.ranks.getD rank (0, 0)
  let send := if carries && !planWrites p then sendFor s die slot chunk else none
  let s1 := match send with
    | some y => chunkGone s die y.id chunk
    | none => s
  let pkt := { chunkPacket slot p chunk fs route with dmod := BitVec.ofNat 10 m, ddie := BitVec.ofNat 2 d }
  if m == moduleNumber s then
    modColl s1 d fun c => { c with inbox := c.inbox ++ [(pkt, die, match send with
      | some y => y.id + 1
      | none => 0)] }
  else
    (sendFrom s1 (flowPort die slot m) pkt
      (match send with
       | some y => .send die y.id
       | none => .service) p.context).1

/-- COPY at a rank: the result chunk is written, then sent on (R467). -/
def copyResult (s : State) (die slot : Nat) (p : Plan) (chunk : Nat) (fs : List Wide) : State :=
  let q := toResult p fs
  (rightChildren p).foldl (fun st m => sendChunk st die slot p chunk q [routeEntry opCopy m] false)
    (takeResult s die slot p chunk q)

/-! ### Nodes (R467, R470, R476) -/

/-- Nodes of the reduction buffer in use: a node of a chunk takes 512 bytes of the 16 MiB, both sides (R470; log entry
39). -/
def nodesUsed (s : State) (die : Nat) : List (Nat × Nat × Nat) :=
  ((dieOf s die).coll.operands.map fun o => (o.plan, o.chunk, o.split)).eraseDups

/-- Whether the buffer can hold a node. -/
def nodeRoom (s : State) (die slot chunk split : Nat) : Bool :=
  let ns := nodesUsed s die
  ns.contains (slot, chunk, split) || ns.length < 32768

/-- An operand reaches its node: it waits there, or the two sides combine to a payload with a remaining route and the upper
rank of its range. -/
def pairUp (s : State) (die : Nat) (p : Plan) (o : Operand) : State × Option (List Wide × List Nat × Nat) :=
  let c := (dieOf s die).coll
  match c.operands.find? fun q => q.plan == o.plan && q.chunk == o.chunk && q.split == o.split && q.left != o.left with
  | none => (modColl s die fun c => { c with operands := c.operands ++ [o] }, none)
  | some q =>
    let (l, r) := if o.left then (o, q) else (q, o)
    let (fs, clip) := combine p o.chunk l.payload r.payload
    let key := (o.plan, o.split)
    let last := planOp p == opCollate && o.chunk == cellChunks p
    let fs1 := if last && c.clips.contains key then
        let es := chunkElems 64 2 fs
        chunkFlits 64 1 [es.getD 0 0, es.getD 1 0 ||| 4]
      else fs
    let clips := if last then c.clips.erase key
      else if clip && !c.clips.contains key then key :: c.clips else c.clips
    (modColl s die fun c => { c with operands := c.operands.erase q, clips }, some (fs1, r.route, nodeHi p o.split))

/-- A chunk's result over ranks from this one up to hi goes on along its route: here as far as this rank hosts the next node,
then as a packet (R467). -/
def carry (s : State) (die slot : Nat) (p : Plan) (chunk hi : Nat) (fs : List Wide) (route : List Nat) (fuel : Nat) :
    State :=
  match fuel, route with
  | 0, _ => s
  | _, [] => takeResult s die slot p chunk fs
  | f + 1, e :: rest =>
    if e % 1024 != planMe p then sendChunk s die slot p chunk fs route true
    else if e / 2 ^ 13 == 0 then takeResult s die slot p chunk fs
    else if e / 2 ^ 13 == opCopy then copyResult s die slot p chunk fs
    else match pairUp s die p { plan := slot, chunk, split := hi, left := true, payload := fs, route := rest } with
      | (s1, none) => s1
      | (s1, some (fs1, route1, hi1)) => carry s1 die slot p chunk hi1 fs1 route1 f

/-- The fuel of a walk up the tree: a tree over 1,024 ranks is 10 levels deep (R465). -/
def treeFuel : Nat := 16

/-- This rank's contribution to a chunk. -/
def contribute (s : State) (die slot : Nat) (p : Plan) (chunk : Nat) (fs : List Wide) : State :=
  carry s die slot p chunk (planMe p + 1) fs (ascentList p) treeFuel

/-- The unit of a die takes a collective packet in its turn: none while it cannot hold it, else the state and the status of
the acknowledgement (R467, R469, R470). -/
def unitTake (s : State) (die : Nat) (x : Packet) : Option (State × Nat) :=
  let a := x.addr.toNat
  let slot := a / 2 ^ 44
  let chunk := a % 2 ^ 28
  match planIn s die slot with
  | none => some (s, statusRefused)
  | some p =>
    if p.pchk.toNat != a / 2 ^ 28 % 2 ^ 16 then
      some (reportNote s p.context { cause := cFabricLost.toNat, sub := some 1, source := 2, core := none, word1 := none,
                                     addr := none, w := none }, statusRefused)
    else if portsFull s die then none
    else match packetRoute x with
      | [] => some (s, 0)
      | e :: rest =>
        if e / 2 ^ 13 == 0 then some (takeResult s die slot p chunk x.payload, 0)
        else if e / 2 ^ 13 == opCopy then some (copyResult s die slot p chunk x.payload, 0)
        else
          let split := x.aux.toNat / 2 ^ 30
          if !nodeRoom s die slot chunk split then none
          else match pairUp s die p { plan := slot, chunk, split, left := false, payload := x.payload, route := rest } with
            | (s1, none) => some (s1, 0)
            | (s1, some (fs, route, hi)) => some (carry s1 die slot p chunk hi fs route treeFuel, 0)

/-- A packet of this module that was refused: its sender's context is told, and its send never completes (R469). -/
def refuseLocal (s : State) (x : Packet) (die id : Nat) : State :=
  let s1 := match id with
    | 0 => s
    | k + 1 => modSend s die k fun y => { y with dead := true }
  match planIn s die (x.addr.toNat / 2 ^ 44) with
  | some p => reportLost s1 p.context (some 1) x.addr.toNat
  | none => s1

/-- A die's unit takes the packets that units of its own module have sent it. -/
def pumpDie (s : State) (die : Nat) : State :=
  (dieOf s die).coll.inbox.foldl (fun st x =>
    match unitTake st die x.1 with
    | none => st
    | some (st1, status) =>
      let st2 := if status == 0 then st1 else refuseLocal st1 x.1 x.2.1 x.2.2
      modColl st2 die fun c => { c with inbox := c.inbox.erase x }) s

/-- Every packet between units of the module goes as far as it can: up to four hops up the tree and four down it. -/
def pumpUnits (s : State) : State :=
  if s.dies.all fun d => d.2.coll.inbox.isEmpty then s
  else (List.range 64).foldl (fun st i => pumpDie st (i % 4)) s

/-! ### SEND_START (R473, R475, R477, R482) -/

/-- The chunk of codes of TYPE that a source gives, with the fault or the poison it meets, or the wait for another module. -/
def sourceChunk (s : State) (die : Nat) (p : Plan) (y : Send) (chunk : Nat) : Except EngStop (State × List Nat) :=
  let w := fmtWidth (planType p)
  match y.src with
  | .memory va pages =>
    let n := chunkBytes p
    let ea := va.toNat + (chunk - y.first) * n
    let w1 : Writer := { die, flow := y.plan, owner := .send die y.id, context := y.context }
    match readSpans s w1 (heldSpans s (unitParty die y.asid) .global .rd pages ea n 2) with
    | .error e => .error e
    | .ok (s1, bs, bad) =>
      if bad.any id then .error (.fault ((cPoison.toNat, none), ea))
      else .ok (dropAsks s1 w1.owner, (List.range 32).map fun i => leNat bs / 2 ^ (w * i) % 2 ^ w)
  | .tile chunks => .ok (s, (chunks.getD (chunk - y.first) []).map BitVec.toNat)
  | _ => .ok (s, [])

/-- Contributes a COLLATE source: its collated state as one reading (R388, R473). -/
def sendRegion (s : State) (die : Nat) (p : Plan) (y : Send) (k : Nat) : State :=
  match tget s.regions k with
  | none => abandonSend s die y.id
  | some r =>
    if !regionsAgree r (planRegion p) || (partsFault s r 10).isSome then abandonSend s die y.id
    else
      let (s1, x) := sourceState s k r
      let fss := stateChunks p x r.isSealed
      (List.range fss.length).foldl (fun st c => contribute st die y.plan p c (fss.getD c []))
        (modSend s1 die y.id fun z => { z with started := true, todo := [] })

/-- The next chunk of a started send. -/
def sendNext (s : State) (die : Nat) (p : Plan) (y : Send) : State :=
  let s0 := modSend s die y.id fun z => { z with started := true, todo := z.todo.drop 1 }
  match y.todo with
  | [] => s0
  | c :: _ =>
    if planOp p == opCopy && planMe p != planRoot p then
      modSend s die y.id fun z => { z with started := true, todo := [] }
    else match sourceChunk s0 die p y c with
      | .error (.fault _) => abandonSend s0 die y.id
      | .error (.waits s1) => modSend s1 die y.id fun z => { z with todo := y.todo }
      | .ok (s1, es) => contribute s1 die y.plan p c (leafPayload p es)

/-- Whether the buffer has room for a send's next chunk (R470). -/
def sendRoom (s : State) (die : Nat) (p : Plan) (y : Send) : Bool :=
  (rightChildren p).isEmpty || y.todo.isEmpty || nodeRoom s die y.plan (y.todo.headD 0) (planMe p + 1)

/-- SEND_START: the unit acquires, once the wait task's counter is zero, and reads the next chunk of the send's source; each
further step reads one more (R58, R473, R482). -/
def execSendStart (die send : Nat) (s : State) : Host.Outcome State Fault Refusal :=
  if 4 ≤ die then .fault .noSuchUnit
  else match (dieOf s die).coll.sends.find? fun y => y.id == send with
    | none => .next s
    | some y =>
      match planIn s die y.plan with
      | none => .next s
      | some p =>
        if y.dead || portsFull s die || !sendRoom s die p y || !taskMet s y.wait.isSome (y.wait.getD 0).toNat then .next s
        else .next (pumpUnits (match y.src with
          | .region k => if y.started then s else sendRegion s die p y k
          | _ => sendNext s die p y))

/-! ### SEND_COMPLETE (R474) -/

/-- Whether a packet that a send waits for has not been acknowledged: at a rank that writes the result its result writes, at
any other the packets of its chunks. -/
def sendInFlight (s : State) (die : Nat) (y : Send) (writes : Bool) : Bool :=
  (s.fabric.ports.any fun p => p.2.kept.any fun k => k.owner == .send die y.id && (!writes || k.pkt.type == tyEngine)) ||
  s.dies.any fun d => d.2.coll.inbox.any fun x => x.2.1 == die && x.2.2 == y.id + 1

/-- SEND_COMPLETE: the unit releases at .pod and decrements the completion task. -/
def execSendComplete (die send : Nat) (s : State) : Host.Outcome State Fault Refusal :=
  if 4 ≤ die then .fault .noSuchUnit
  else match (dieOf s die).coll.sends.find? fun y => y.id == send with
    | none => .next s
    | some y =>
      match planIn s die y.plan with
      | none => .next s
      | some p =>
        if !y.started || y.dead || !y.todo.isEmpty || !y.left.isEmpty || sendInFlight s die y (planWrites p) then .next s
        else
          let s1 := modColl s die fun c => { c with sends := c.sends.filter fun z => z.id != send }
          .next (sendDecIf s1 y.task.isSome (y.task.getD 0).toNat)

/-! ### CLPLAN (R472) -/

/-- What CLPLAN's checks find. -/
inductive PlanRes where
  | trap (i : TrapInfo)
  /-- Reads of the image are on their way. -/
  | ask (s : State)
  | load (s : State) (p : Plan)

/-- n doublewords of the image, which another module's home may hold; a read on its way leaves the state that has sent it. -/
def imageWords (s0 s : State) (tid ea n : Nat) : Except PlanRes (State × List Nat) :=
  match peekWords s0 s tid .global ea n with
  | .ok s1 v => .ok (s1, (List.range n).map fun i => v / 2 ^ (64 * i) % 2 ^ 64)
  | .trap i => .error (.trap i)
  | .stall s1 | .sent s1 _ | .abort s1 => .error (.ask s1)

/-- The rank table's entries (R463). -/
def rankEntries (ws : List Nat) (n : Nat) : List Nat :=
  (List.range n).map fun k => ws.getD (k / 4) 0 / 2 ^ (16 * (k % 4)) % 2 ^ 16

/-- ILLEGAL_FIELD of the header and the rank table (R472 item 3). -/
def headerBad (s : State) (die : Nat) (h : List Nat) (ranks : List Nat) : Bool :=
  let w (i : Nat) : Nat := h.getD i 0
  let op := bits (w 0) 34 32
  let ty := fmtOf (BitVec.ofNat 6 (bits (w 0) 41 36))
  let all := bit (w 0) 35
  let n := bits (w 0) 9 0 + 1
  let me := bits (w 0) 25 16
  let coll := op == opCollate
  let fl := ty == some .f32 || ty == some .f16 || ty == some .bf16
  let chunk := match ty with
    | some t => 4 * fmtWidth t
    | none => 1
  bits (w 0) 63 58 != 0 || bits (w 0) 47 42 != 0 || bits (w 0) 31 26 != 0 || bits (w 0) 15 10 != 0 ||
  2 ^ 56 ≤ w 1 || 2 ^ 32 ≤ w 2 || 2 ^ 56 ≤ w 3 || 2 ^ 4 ≤ w 4 || w 5 != 0 || w 6 != 0 || w 7 != 0 ||
  op == 0 || 6 ≤ op || (if coll then bits (w 0) 41 36 != 0 else !fl) ||
  (op == opCopy && !all) || (coll && all) || n ≤ bits (w 0) 57 48 || n ≤ me ||
  ranks.any (fun e => 2 ^ 12 ≤ e) || ranks.getD me 0 != moduleNumber s + die * 2 ^ 10 || !ranks.Nodup ||
  (if coll then w 1 != 0 || w 2 != 0 || w 3 % 64 != 0
   else w 1 % 64 != 0 || w 3 != 0 || w 2 % chunk != 0 || 2 ^ 31 < w 2) ||
  8 < w 4

/-- The signal words' places: none when one breaks R463 or its home is another module. -/
def signalPlaces (s : State) (tid : Nat) (ws : List Nat) (n : Nat) :
    Except TrapInfo (State × Option (List (Word × Nat × BitVec 14))) :=
  (List.range n).foldl (fun acc i =>
    match acc with
    | .error e => .error e
    | .ok (st, none) => .ok (st, none)
    | .ok (st, some xs) =>
      let a := ws.getD (2 * i) 0
      let t := ws.getD (2 * i + 1) 0
      if 2 ^ 56 ≤ a || a % 8 != 0 || 2 ^ 14 ≤ t then .ok (st, none)
      else match placeOf st (partyOf st tid) .global a 8 .rd with
        | .error f => .error (trapCode f a)
        | .ok (st1, p) =>
          if p.remote then .ok (st1, none) else .ok (st1, some (xs ++ [(BitVec.ofNat 64 a, p.loc, BitVec.ofNat 14 t)])))
    (.ok (s, some []))

/-- The descriptor fields that a COLLATE plan keeps: KIND, CNT, L0, LCUR and KM1, then the seeds (R469, R473). -/
def keptDescriptor (ws : List Nat) : List Nat :=
  let w0 := ws.getD 0 0
  [w0 % 2 ^ 19 - w0 / 2 ^ 15 % 2 * 2 ^ 15, ws.getD 2 0, ws.getD 3 0]

/-- PCHK (R469): the first two bytes of SHAKE256, little-endian (log entry 40). -/
def planCheck (h ranks : List Nat) (nsig : Nat) (desc : List Nat) : BitVec 16 :=
  let w0 := h.getD 0 0
  let img := [w0 - bits w0 25 16 * 2 ^ 16, 0, 0, 0] ++ h.drop 4 ++ ranks ++ List.replicate (2 * nsig) 0
  let kept := if desc.isEmpty then [] else keptDescriptor desc
  BitVec.ofNat 16 (leNat (shake256 ((img ++ kept).flatMap (leBytes 8)) 2))

/-- Step 4 before step 5: a page of the result region that is not writable, else the first page that does not translate. -/
def resultPages (s : State) (tid ea n : Nat) : Except TrapInfo (State × List (Nat × Nat × Nat)) :=
  let p := partyOf s tid
  match spansOf s p .global .wr ea n with
  | .ok (s1, xs) => .ok (s1, pagesOf xs)
  | .error e =>
    let starts := (List.range (n / 65536 + 2)).map fun i => if i == 0 then ea else (ea / 65536 + i) * 65536
    match (starts.filter fun a => a < ea + n).findSome? fun a =>
        match spansOf s p .global .wr a 1 with
        | .error f => if f.1.1 == cProtection.toNat then some f else none
        | .ok _ => none with
    | some f => .error (engTrap f)
    | none => .error (engTrap e)

/-- CLPLAN's checks for a load, in the order of R472. -/
def planLoad (s : State) (tid a slot : Nat) : PlanRes :=
  let die := dieOfThr s tid
  let g := wgOf s (thr s tid).wg
  if a % 64 != 0 then .trap (trapOf cMisaligned (some a))
  else match imageWords s s tid a 8 with
    | .error r => r
    | .ok (s1, h) =>
      let n := bits (h.getD 0 0) 9 0 + 1
      let nr := (n + 3) / 4
      let nsig := h.getD 4 0
      match imageWords s s1 tid (a + 64) nr with
      | .error r => r
      | .ok (s2, rws) =>
        match imageWords s s2 tid (a + 64 + 8 * nr) (if nsig ≤ 8 then 2 * nsig else 0) with
        | .error r => r
        | .ok (s3, sws) =>
          let ranks := rankEntries rws n
          let coll := bits (h.getD 0 0) 34 32 == opCollate
          if headerBad s3 die h ranks then .trap (trapOf cIllegalField none)
          else match signalPlaces s3 tid sws nsig with
            | .error i => .trap i
            | .ok (_, none) => .trap (trapOf cIllegalField none)
            | .ok (s4, some sigs) =>
              match imageWords s s4 tid (h.getD 3 0) (if coll then 8 else 0) with
              | .error r => r
              | .ok (s5, desc) =>
                if coll && imageBad desc then .trap (trapOf cIllegalField none)
                else if (planIn s5 die slot).any fun p => p.context != g.context then .trap (trapOf cProtection none)
                else match resultPages s5 tid (h.getD 1 0) (h.getD 2 0) with
                  | .error i => .trap i
                  | .ok (s6, pages) =>
                    .load s6
                      { context := g.context, asid := g.asid, words := h.map (BitVec.ofNat 64)
                        ranks := ranks.map fun e => (e % 2 ^ 10, e / 2 ^ 10 % 4), sigs
                        desc := desc.map (BitVec.ofNat 64), pchk := planCheck h rws nsig desc, pages, early := [] }

/-- Whether sends use a slot. -/
def slotBusy (s : State) (die slot : Nat) : Bool := (dieOf s die).coll.sends.any fun y => y.plan == slot

/-- The operations of a CLPLAN: load, and free with A = g0. -/
def planLoads : Nat := 0
def planFrees : Nat := 1

/-- CLPLAN for its issue: it completes, traps, or goes on waiting for the image or for the slot's sends. -/
def planEffect (op : Nat) (s : State) (tid a b : Nat) : OnceRes :=
  let die := dieOfThr s tid
  if 2 ^ 8 ≤ b then .trap (trapOf cIllegalField none)
  else if op == planFrees then
    if (planIn s die b).any fun p => p.context != (wgOf s (thr s tid).wg).context then .trap (trapOf cProtection none)
    else if slotBusy s die b then .ask s
    else .ok (modColl s die fun c => { c with plans := tdel c.plans b })
  else match planLoad s tid a b with
    | .trap i => .trap i
    | .ask s1 => .ask s1
    | .load s1 p => if slotBusy s die b then .ask s else .ok (modColl s1 die fun c => { c with plans := tset c.plans b p })

/-- The suspension of a CLPLAN (R249 code 12), its variants numbered as those of class 0x8. -/
def planWait (var a b : Nat) : Wait := { sketchWait var a b .latchOnly with code := 12 }

/-- CLPLAN (R472): once for its issue, whose threads are suspended until the slot is loaded or free. -/
def execClplan (o : Ops) (_m : M7) (s : State) : Host.Outcome State Fault Refusal :=
  matrixLane o [(o.a, .word), (o.b, .word)] (fun s0 s tid lead =>
    let op := if o.a == .reg (.g 0) then planFrees else planLoads
    let a := srcN (thr s0 lead) o.a
    let b := srcN (thr s0 lead) o.b
    let later : LaneRes := .wait s (planWait (if tid == lead then waitOnce + op else waitMate) a b)
    match planEffect op s0 lead a b with
    | .trap i => .trap i
    | .ask _ => later
    | .ok _ =>
      if tid == lead then
        match planEffect op s lead a b with
        | .ok s1 => .wait s1 (finishedWait 12)
        | _ => later
      else .wait s (finishedWait 12)) s

/-- The test of a suspension with code 12. -/
def planTest (s : State) (tid : Nat) (w : Wait) : WaitRes :=
  if w.var == 0 then .done s
  else if w.var == waitMate then .no s
  else match planEffect (w.var - waitOnce) s tid w.a.toNat w.b.toNat with
    | .ok s1 => .done s1
    | .trap i => .trap i
    | .ask s1 => .ask s1

/-! ### CLSEND (R473) -/

/-- ILLEGAL_FIELD of B and C; `coll` for COLLATE. -/
def sendFieldsBad (b c : Nat) (coll : Bool) : Bool :=
  2 ^ 43 ≤ b || 2 ^ 55 ≤ c ||
  (if coll then b % 2 ^ 28 != 0 || c % 2 ^ 32 != 0 else c % 2 ^ 32 == 0 || 2 ^ 24 < c % 2 ^ 32)

/-- The source of a send, its chunk count checked, or its trap. -/
def sendSource (s : State) (tid a count : Nat) (p : Plan) : Except TrapInfo (State × SendSrc) :=
  if planOp p == opCollate then
    match regionOf s tid a with
    | .here k r =>
      if !regionsAgree r (planRegion p) then .error (trapOf cSkMismatch (some a)) else .ok (s, .region k)
    | _ => .error (trapOf cProtection (some a))
  else if planOp p == opCopy && planMe p != planRoot p then .ok (s, .none)
  else match spansOf s (partyOf s tid) .global .rd a (count * chunkBytes p) with
    | .error e => .error (engTrap e)
    | .ok (s1, xs) => .ok (s1, .memory (BitVec.ofNat 64 a) (pagesOf xs))

/-- A send handed to the die's unit. Chunks whose result came before it wait for nothing. -/
def addSend (s : State) (die slot : Nat) (p : Plan) (first count : Nat) (src : SendSrc) (wait task : Option (BitVec 14)) :
    State :=
  let chunks := if planOp p == opCollate then List.range (cellChunks p + 1) else (List.range count).map fun i => first + i
  let idle := planOp p == opCopy && planMe p != planRoot p
  modColl s die fun c =>
    { c with
      nextSend := c.nextSend + 1
      plans := tset c.plans slot { p with early := p.early.filter fun x => !chunks.contains x }
      sends := c.sends ++ [{ id := c.nextSend, plan := slot, context := p.context, gen := genOf s p.context, asid := p.asid, first, count, src, wait
                             task, started := false, todo := if idle || planOp p == opCollate then [] else chunks
                             left := chunks.filter (fun x => !p.early.contains x), dead := false, got := [] }] }

/-- CLSEND: each thread in turn releases and hands its send on. -/
def execClsend (o : Ops) (_m : M7) (s : State) : Host.Outcome State Fault Refusal :=
  laneOp o [(o.a, .word), (o.b, .word), (o.c, .word)] (fun s0 s tid =>
    let t := thr s tid
    let (a, b, c) := (srcN t o.a, srcN t o.b, srcN t o.c)
    let die := dieOfThr s tid
    let slot := bits c 39 32
    let mine := (planIn s die slot).filter fun p => p.context == (wgOf s t.wg).context
    let coll := mine.any fun p => planOp p == opCollate
    let first := b % 2 ^ 28
    let count := c % 2 ^ 32
    outsideTx s tid
      (if (if mine.isNone then 2 ^ 43 ≤ b || 2 ^ 55 ≤ c else sendFieldsBad b c coll) then .trap (trapOf cIllegalField none)
       else if mine.any fun p => !coll && planRlen p < (first + count) * chunkBytes p then .trap (trapOf cIllegalField none)
       else if a % 64 != 0 then .trap (trapOf cMisaligned (some a))
       else match mine with
         | none => .trap (trapOf cProtection none)
         | some p =>
           match sendSource s tid a count p with
           | .error i => .trap i
           | .ok (s1, src) =>
             if releaseWaits s0 tid true then .hold postedHold
             else .done (addSend s1 die slot p first count src
               (if bit b 42 then some (BitVec.ofNat 14 (b / 2 ^ 28)) else none)
               (if bit c 54 then some (BitVec.ofNat 14 (c / 2 ^ 40)) else none)))) s

end Sys2Proof.Machine
end

