-- ==== Sys2Proof/Machine/Arrivals.lean ====
section
/-! DEFINITION. Packets that arrive at the module: stubs, writes at their home, requests and responses, ordered flows and
collective packets (R441, R445 to R453, R467, R470). -/

namespace Sys2Proof.Machine

/-! ### Writes at their home (R446, R449) -/

/-- The address range that a request or a write carries (log entry 27). -/
def packetRange (p : Packet) : Nat := p.aux.toNat / 2 ^ 33 % 64

/-- The byte enables of payload flit i (R440). -/
def flitMask (p : Packet) (i : Nat) : Nat :=
  let first := if i == 0 then p.fmask.toNat else 2 ^ 32 - 1
  let last := if i + 1 == p.payload.length then p.lmask.toNat else 2 ^ 32 - 1
  first &&& last

/-- The lowest enabled byte of a mask. -/
def lowByte (mask : Nat) : Nat := ((List.range 32).find? fun j => bit mask j).getD 0

/-- The enabled bytes of a flit written to its sector. -/
def writeFlit (s : State) (loc mask : Nat) (w : Wide) : State :=
  let s1 := if mask == 2 ^ 32 - 1 then writeBytes s loc (leBytes 32 w.toNat)
    else (List.range 32).foldl (fun st j =>
      if bit mask j then writeBytes st (loc + j) [BitVec.ofNat 8 (w.toNat / 2 ^ (8 * j))] else st) s
  (List.range 4).foldl (fun st g => if mask / 2 ^ (8 * g) % 2 ^ 8 != 0 then noteStore st (loc + 8 * g) 8 else st) s1

/-- The place of a packet's address as its home sees it. -/
def packetPlace (s : State) (p : Packet) : Place :=
  { loc := paLoc s p.addr.toNat, global := true, pa := p.addr.toNat, range := packetRange p, sketch := 0, remote := false,
    window := false }

/-- A posted write or engine write applied: window, reservations (R399), line events, bytes and poison. -/
def applyWrite (s : State) (p : Packet) : Except Nat State :=
  let pl := packetPlace s p
  let n := 32 * p.payload.length
  match windowOf s pl.pa with
  | some (d, off) =>
    let lo := lowByte (flitMask p 0)
    if p.payload.length != 1 || lo % 8 != 0 || flitMask p 0 != 255 * 2 ^ lo then .error cMisaligned.toNat
    else .ok (windowWrite s d (off + lo) (payloadNat p / 2 ^ (8 * lo) % 2 ^ 64) (.thread (p.aux.toNat % 4096)))
  | none =>
    if reservedCells s pl.loc n then .error cProtection.toNat
    else match engineLines s pl n true with
      | .error c => .error c
      | .ok s1 =>
        let s2 := (List.range p.payload.length).foldl (fun st i =>
          writeFlit st (pl.loc + 32 * i) (flitMask p i) (p.payload.getD i 0)) s1
        .ok (if p.poisoned then (List.range p.payload.length).foldl (fun st i =>
          if flitMask p i == 0 then st else addPoison st (pl.loc / 32 + i)) s2 else s2)

/-- A sketch insert applied to the home die's partial (R382, R400), if its address lies in a region (R370). -/
def applyInsert (s : State) (p : Packet) : Except Nat State :=
  match regionAt s (p.addr.toNat + p.aux.toNat % 32) with
  | none => .error cProtection.toNat
  | some (k, r) =>
    let v := payloadNat p
    insertOn s k r r.home (packetRange p) (v % 2 ^ 64) (v / 2 ^ 64 % 2 ^ 32) none

/-- The fields of an RMW request's AUX (log entry 27). -/
def rmwFmt (p : Packet) : Fmt := (fmtOf (BitVec.ofNat 6 (p.aux.toNat / 32 % 64))).getD .b64
def rmwKind (p : Packet) : Nat := p.aux.toNat / 2 ^ 11 % 4
def rmwCount (p : Packet) : Nat := p.aux.toNat / 2 ^ 13 % 64

/-- Operand i of an RMW request: of a request its operands, of the posted RED its payload (R439, R440). -/
def rmwWord (p : Packet) (i : Nat) : Nat :=
  if p.cls == 2 then payloadNat p / 2 ^ (64 * i) % 2 ^ 64 else (p.operands.getD i 0).toNat

/-- The operations of an RMW request on a value, in order (R51): the old values and the last new one. -/
def rmwRun (p : Packet) (v : Nat) : List Nat × Nat :=
  let ty := rmwFmt p
  let word := rmwWord p
  (List.range (rmwCount p)).foldl (fun acc i =>
    let x := acc.2
    let y := match rmwKind p with
      | 1 => casNew x (word (2 * i)) (word (2 * i + 1))
      | 2 => barArrive x
      | _ => atomNew ty (BitVec.ofNat 5 p.aux.toNat) x (word i)
    (acc.1 ++ [x], y)) ([], v)

/-- An RMW request applied: the state and the old values. -/
def applyRmw (s : State) (p : Packet) : Except Nat (State × List Nat) :=
  let pl := packetPlace s p
  let off := lowByte p.fmask.toNat
  let size := fmtWidth (rmwFmt p) / 8
  match windowOf s pl.pa with
  | some (d, w) =>
    let (olds, v) := rmwRun p (windowRead s d (w + off))
    .ok (windowWrite s d (w + off) v (.thread (p.aux.toNat / 2 ^ 19 % 4096)), olds)
  | none =>
    let l := pl.loc + off
    if reservedCells s l size then .error cProtection.toNat
    else match lineAccess s none pl.pa pl.range true with
      | .error c => .error c
      | .ok s1 =>
        let old := leNat (loadBytes s1 l size)
        if poisoned s1 l size then .error cPoison.toNat
        else if rmwKind p == 2 && barBad old then .error cBarCount.toNat
        else
          let (olds, v) := rmwRun p old
          .ok (storeBytes s1 l (leBytes size v), olds)

/-- A posted packet applied at its home. -/
def applyPosted (s : State) (p : Packet) : Except Nat State :=
  if p.type == tySketch then applyInsert s p
  else if p.type == tyRmwReq then
    match applyRmw s p with
    | .ok r => .ok r.1
    | .error c => .error c
  else applyWrite s p

/-- Whether a write of this source and TAG is among the last 4,096 applied (R449). -/
def wasApplied (s : State) (p : Packet) : Bool := (tgetD s.fabric.applied (srcKey p) []).contains p.tag

/-- An applied write's TAG is kept. -/
def noteApplied (s : State) (p : Packet) : State :=
  let f := s.fabric
  { s with fabric := { f with applied := tset f.applied (srcKey p) ((p.tag :: tgetD f.applied (srcKey p) []).take 4096) } }

/-- A posted packet at its home: applied unless it is a duplicate, and acknowledged (R446, R449). -/
def homeWrite (s : State) (port : Nat) (p : Packet) : State :=
  if wasApplied s p then ack s port p 0
  else match applyPosted s p with
    | .ok s1 => ack (noteApplied s1 p) port p 0
    | .error c => ack s port p c

/-- Whether a packet is a posted write, RED, engine write or sketch insert (R439, R446). -/
def isPosted (p : Packet) : Bool :=
  p.type == tyPosted || p.type == tyEngine || p.type == tySketch || (p.type == tyRmwReq && p.cls == 2)

/-- Whether this module is a packet's destination, and for a memory packet its home. -/
def forUs (s : State) (p : Packet) : Bool :=
  p.dmod.toNat == moduleNumber s && (p.type == tyCollective || p.type == tyService || p.type == tyReadResp ||
    homeModule p.addr.toNat == moduleNumber s)

/-! ### Ordered flows (R451) -/

/-- The key of a packet's flow. -/
def flowKey (p : Packet) : Nat := srcKey p * 256 + p.flow.toNat

def flowOf (s : State) (key : Nat) : Flow :=
  (s.fabric.flows.find? fun f => f.key == key).getD { key, expect := 0, window := [] }

def setFlow (s : State) (f : Flow) : State :=
  { s with fabric := { s.fabric with flows := f :: s.fabric.flows.filter fun g => g.key != f.key } }

/-- A packet delivered in its turn: the state after, or none while its unit cannot hold it (R470). A service message's effect
is the management core's (log entry 41). -/
def deliver (s : State) (port : Nat) (p : Packet) : Option State :=
  if p.type == tyCollective then
    match unitTake s p.ddie.toNat p with
    | none => none
    | some (s1, status) => some (ack (pumpUnits s1) port p status)
  else if isPosted p then some (homeWrite s port p)
  else if p.type == tyReadResp then some (takeResponse s port p)
  else some (ack s port p 0)

/-- Delivers from slot 0 while it holds a whole packet. -/
def pumpFlow (s : State) (port key fuel : Nat) : State :=
  match fuel with
  | 0 => s
  | n + 1 =>
    let f := flowOf s key
    match tget f.window f.expect.toNat with
    | none => s
    | some p =>
      if p.trimmed then s
      else match deliver s port p with
        | some s1 =>
          pumpFlow (setFlow s1 { f with expect := f.expect + 1, window := tdel f.window f.expect.toNat }) port key n
        | none =>
          -- R470: trimmed on arrival, counted and recalled; its slot holds the stub
          addStub (countTrim (setFlow s { f with window := tset f.window f.expect.toNat (stubOf p) }) port p.cls) port p

/-- An ordered packet or stub arrives (R451). -/
def arriveOrdered (s : State) (port : Nat) (p : Packet) : State :=
  let f := flowOf s (flowKey p)
  let d := (p.seq - f.expect).toNat
  if d ≤ 255 then
    let held := match tget f.window p.seq.toNat with
      | some q => !q.trimmed
      | none => false
    if p.trimmed then
      if held then s else addStub (setFlow s { f with window := tset f.window p.seq.toNat p }) port p
    else if held then s
    else pumpFlow (setFlow s { f with window := tset f.window p.seq.toNat p }) port f.key 256
  else if d ≤ 32767 then if p.trimmed then addStub s port p else addStub (countTrim s port p.cls) port p
  else ack s port p 0

/-- ORDERED_PACKET_ARRIVAL (R451). -/
def execOrderedPacketArrival (port : Nat) (p : Packet) (s : State) : Host.Outcome State Fault Refusal :=
  if 16 ≤ port then .fault .noSuchUnit
  else if badHeader p then .next (discard s port)
  else if !p.ord || !forUs s p then .next s
  else .next (arriveOrdered s port p)

/-- COLLECTIVE_PACKET_ARRIVAL (R451, R467): a collective packet is a member of its plan's ordered flow. -/
def execCollectivePacketArrival (port : Nat) (p : Packet) (s : State) : Host.Outcome State Fault Refusal :=
  if 16 ≤ port then .fault .noSuchUnit
  else if badHeader p then .next (discard s port)
  else if p.type != tyCollective || !p.ord || !forUs s p then .next s
  else .next (arriveOrdered s port p)

/-- POSTED_WRITE_APPLY (R446): an ordered one takes its turn in its flow. -/
def execPostedWriteApply (port : Nat) (p : Packet) (s : State) : Host.Outcome State Fault Refusal :=
  if 16 ≤ port then .fault .noSuchUnit
  else if badHeader p then .next (discard s port)
  else if !isPosted p || p.trimmed || !forUs s p then .next s
  else .next (if p.ord then arriveOrdered s port p else homeWrite s port p)

/-- STUB_ARRIVAL (R447, R451). -/
def execStubArrival (port : Nat) (p : Packet) (s : State) : Host.Outcome State Fault Refusal :=
  if 16 ≤ port then .fault .noSuchUnit
  else if badHeader p then .next (discard s port)
  else if !p.trimmed then .next s
  else .next (if p.ord then arriveOrdered s port p else addStub s port p)

/-! ### Requests at their home (R439, R446, R452) -/

/-- What a request is answered: the state, the payload, the status, whether the data is poisoned, and the operands of the
answer (log entry 27). -/
structure Answer where
  st : State
  flits : List Wide
  status : Nat
  bad : Bool
  operands : List Nat := []

/-- A request refused with a cause. -/
def refusal (s : State) (c : BitVec 8) : Answer := { st := s, flits := [], status := c.toNat, bad := false }

/-- A plain read of a sector (AUX kind 0). -/
def serveSector (s : State) (p : Packet) : Answer :=
  let pl := packetPlace s p
  match windowOf s pl.pa with
  | some (d, off) =>
    let lo := lowByte p.fmask.toNat
    { st := s, flits := [BitVec.ofNat 256 (windowRead s d (off + lo) * 2 ^ (8 * lo))], status := 0, bad := false }
  | none =>
    if reservedCells s pl.loc 32 then refusal s cProtection
    else match lineAccess s none pl.pa pl.range false with
      | .error c => refusal s (BitVec.ofNat 8 c)
      | .ok s1 =>
        { st := s1, flits := [BitVec.ofNat 256 (leNat (loadBytes s1 pl.loc 32))], status := 0, bad := poisoned s1 pl.loc 32 }

/-- The exact address of a request: its sector's, and the first byte that its enables name. -/
def exactAddr (p : Packet) : Nat := p.addr.toNat + lowByte p.fmask.toNat

/-- A status word or a status load of a region (AUX kinds 2 to 9, 10; log entry 27). -/
def serveStatus (s : State) (p : Packet) (kind : Nat) : Answer :=
  match regionAt s (exactAddr p) with
  | none => { st := s, flits := [0], status := 0, bad := false, operands := [noRegionWord] }
  | some (k, r) =>
    match regionFault s r r.home (packetRange p) 9 with
    | some c => refusal s (BitVec.ofNat 8 c)
    | none =>
      let (x, r1) := seenState r r.home (kind == 10)
      let v := if kind == 10 then statusWord r x * 2 ^ (8 * lowByte p.fmask.toNat) else skStatWord r x (kind - 2)
      { st := regionEvent (setRegion s k r1) r r.home (packetRange p) 9, flits := [BitVec.ofNat 256 v], status := 0, bad := false }

/-- One query of a combined request: its state, its answer and its operand word, the flag in bit 0, in bit 1 that no region
is there, and a cause in [15:8]. -/
def serveQuery (range : Nat) (s : State) (pa key : Nat) : State × Nat × Nat :=
  match regionAt s pa with
  | none => (s, 0, noRegionWord)
  | some (k, r) =>
    match queryTrap s r r.home range key with
    | some c => (s, 0, c.toNat * 2 ^ 8)
    | none =>
      let (x, r1) := seenState r r.home false
      (regionEvent (setRegion s k r1) r r.home range 9, skQuery r x key, if x.sat then 1 else 0)

/-- The queries of one LDK issue, all answered in one step (AUX kind 1; R412; log entry 27). -/
def serveQueries (s : State) (p : Packet) : Answer :=
  let (s1, vs, fs) := (List.range (p.operands.length / 2)).foldl (fun acc i =>
    let (st, v, f) := serveQuery (packetRange p) acc.1 (p.operands.getD (2 * i) 0).toNat (p.operands.getD (2 * i + 1) 0).toNat
    (st, acc.2.1 ++ [v], acc.2.2 ++ [f])) ((s, [], []) : State × List Nat × List Nat)
  { st := s1, flits := flitsOfWords vs, status := 0, bad := false, operands := fs }

/-- An engine's read of up to eight sectors (AUX kinds 16 to 23; R438, R439); a refusal keeps the read's length, since class
5 has 1 to 8 flits. -/
def serveEngine (s : State) (p : Packet) (n : Nat) : Answer :=
  let pl := packetPlace s p
  let none_ (c : Nat) : Answer := { st := s, flits := List.replicate n 0, status := c, bad := false }
  match windowOf s pl.pa with
  | some (d, off) =>
    { st := s, status := 0, bad := false
      flits := (List.range n).map fun i =>
        BitVec.ofNat 256 (leNat ((List.range 4).flatMap fun j => leBytes 8 (windowRead s d (off + 32 * i + 8 * j)))) }
  | none =>
    if reservedCells s pl.loc (32 * n) then none_ cProtection.toNat
    else match engineLines s pl (32 * n) false with
      | .error c => none_ c
      | .ok s1 =>
        { st := s1, status := 0, bad := poisoned s1 pl.loc (32 * n)
          flits := (List.range n).map fun i => BitVec.ofNat 256 (leNat (loadBytes s1 (pl.loc + 32 * i) 32)) }

/-- Whether a read request is an engine's, answered in class 5. -/
def engineRead (p : Packet) : Bool := p.type == tyReadReq && 16 ≤ p.aux.toNat % 2 ^ 33 && p.aux.toNat % 2 ^ 33 < 24

/-- A read request served. -/
def serveRead (s : State) (p : Packet) : Answer :=
  let kind := p.aux.toNat % 2 ^ 33
  if kind == 0 then serveSector s p
  else if kind == 1 then serveQueries s p
  else if kind ≤ 10 then serveStatus s p kind
  else if engineRead p then serveEngine s p (kind - 15)
  else refusal s cIllegalField

/-- The region of this module with its base at a physical address (R406 to R409). -/
def regionBaseAt (s : State) (pa : Nat) : Option (Nat × Region) := s.regions.find? fun e => regionPa e.2 0 == pa

/-- A region's answer that gives its state (R409). -/
def serveSource (s : State) (k : Nat) (r : Region) (agree : List Nat) : Answer :=
  if agreeWords r != agree then refusal s cSkMismatch
  else match partsFault s r 10 with
    | some c => refusal s (BitVec.ofNat 8 c)
    | none =>
      let (s1, x) := sourceState s k r
      { st := s1, flits := [0], status := 0, bad := false, operands := (stateWords x).length :: stateWords x }

/-- A state merged at a destination that still agrees (R388). -/
def serveMerge (s : State) (k : Nat) (r : Region) (ws : List Nat) : Answer :=
  if agreeWords r != ws.take 3 then refusal s cSkMismatch
  else match regionFault s r r.home r.range 10 with
    | some c => refusal s (BitVec.ofNat 8 c)
    | none => { st := mergeInto s k r (wordsState (ws.drop 3)), flits := [0], status := 0, bad := false }

/-- A deletion asked by another module, on the home die's partial (R382, R404). -/
def serveDelete (s : State) (p : Packet) : Answer :=
  match regionAt s (exactAddr p) with
  | none => refusal s cProtection
  | some (k, r) =>
    if r.kind != 1 || !r.cnt then refusal s cSkNodel
    else match regionFault s r r.home r.range 8 with
      | some c => refusal s (BitVec.ofNat 8 c)
      | none =>
        { st := regionEvent (setPart s k r r.home (skDelete r (partOf r r.home) (p.operands.getD 0 0).toNat)) r r.home r.range 8
          flits := [0], status := 0, bad := false }

/-- The image of a region that a binding of another module has inserted into (R385). -/
def serveImage (s : State) (p : Packet) : Answer :=
  match regionAt s (exactAddr p) with
  | none => refusal s cProtection
  | some (k, r) => { st := imageRegion s k r, flits := [0], status := 0, bad := false }

/-- An operation on a region of this module, asked by another (R404, R406 to R409; log entry 27): all but a deletion and an
image name its base. -/
def serveSketch (s : State) (p : Packet) : Answer :=
  let op := p.aux.toNat % 16
  let ws := p.operands.map BitVec.toNat
  if op == reqSkdel then serveDelete s p
  else if op == reqImage then serveImage s p
  else match regionBaseAt s (exactAddr p) with
    | none => refusal s cProtection
    | some (k, r) =>
      let act (f : State → Nat → Region → State) : Answer :=
        match partsFault s r 10 with
        | some c => refusal s (BitVec.ofNat 8 c)
        | none => { st := f s k r, flits := [0], status := 0, bad := false }
      if op == reqSkfold then if foldable r then act foldRegion else refusal s cIllegalField
      else if op == reqSkseal then act sealRegion
      else if op == reqSkopen then act openRegion
      else if op == reqSkclr then act clearRegion
      else if op == reqSkfree then act freeRegion
      else if op == reqDescribe then { st := s, flits := [0], status := 0, bad := false, operands := agreeWords r }
      else if op == reqSource then serveSource s k r ws
      else if op == reqMerge then serveMerge s k r ws
      else refusal s cIllegalField

/-- An RMW request served. -/
def serveRmw (s : State) (p : Packet) : Answer :=
  if bit p.aux.toNat 39 then serveSketch s p
  else match applyRmw s p with
    | .error c => refusal s (BitVec.ofNat 8 c)
    | .ok (s1, olds) => { st := s1, flits := flitsOfWords olds, status := 0, bad := false }

/-- A coherence probe: PW when AUX bit 0 is set, else PR, at every holder of the line (R419; log entry 27). -/
def serveProbe (s : State) (p : Packet) : Answer :=
  let line := p.addr.toNat / 64
  let ev := if bit p.aux.toNat 0 then 4 else 3
  match (holdersOf s line).findSome? fun h => (heldEntry s h line ev).bind entryFault with
  | some c => refusal s (BitVec.ofNat 8 c)
  | none =>
    { st := (holdersOf s line).foldl (fun st h => lineEvent st h line ev) s, flits := [], status := 0, bad := false }

/-- A response to a request: TAG, SPORT and status in AUX (log entry 27); one without payload is not kept (R446). The answer
to an engine's read is of class 5, on its die's ordered flow (R437, R439). -/
def respond (s : State) (p : Packet) (ty : BitVec 5) (a : Answer) : State :=
  let bulk := engineRead p
  let die := homeDie p.addr.toNat
  let q : Packet :=
    { Packet.blank with
      dmod := p.smod, ddie := p.sport.extractLsb' 2 2, cls := if bulk then 5 else 1, ord := bulk
      flow := if bulk then BitVec.ofNat 8 answerFlow else 0, operands := a.operands.map (BitVec.ofNat 64), len := BitVec.ofNat 4 a.flits.length, type := ty
      addr := p.addr, lmask := BitVec.ofNat 32 (2 ^ 32 - 1), fmask := BitVec.ofNat 32 (2 ^ 32 - 1)
      aux := BitVec.ofNat 40 (p.tag.toNat + p.sport.toNat * 2 ^ 16 + a.status % 256 * 2 ^ 24)
      payload := a.flits, poisoned := a.bad }
  let port := if bulk then flowPort die answerFlow p.smod.toNat else leastPort s die
  if a.flits.isEmpty then sendPlain s port q else (sendFrom s port q .response 0).1

/-- The response to an applied RMW request that has not been acknowledged (R449). -/
def keptResponse (s : State) (p : Packet) : Option (Nat × Kept) :=
  s.fabric.ports.findSome? fun e =>
    (e.2.kept.find? fun k => k.owner == .response && k.pkt.dmod == p.smod &&
      k.pkt.aux.toNat % 2 ^ 20 == p.tag.toNat + p.sport.toNat * 2 ^ 16).map fun k => (e.1, k)

/-- A request served and answered; an RMW is never applied twice. -/
def homeRequest (s : State) (p : Packet) : State :=
  if p.type == tyReadReq then
    let a := serveRead s p
    respond a.st p tyReadResp a
  else if p.type == tyRmwReq then
    if wasApplied s p then
      match keptResponse s p with
      | some (port, k) => resend s port k
      | none => s
    else
      let a := serveRmw s p
      respond (if a.status == 0 then noteApplied a.st p else a.st) p tyRmwResp a
  else
    let a := serveProbe s p
    respond a.st p 8 a

/-- READ_REQUEST_ARRIVAL: a read, RMW or probe request at its home; it waits while the buffer of a port of the home die is
full (R446). -/
def execReadRequestArrival (port : Nat) (p : Packet) (s : State) : Host.Outcome State Fault Refusal :=
  if 16 ≤ port then .fault .noSuchUnit
  else if badHeader p then .next (discard s port)
  else if !(p.type == tyReadReq || (p.type == tyRmwReq && p.cls == 0) || p.type == 7) || !forUs s p then .next s
  else if portsFull s (homeDie p.addr.toNat) then .next s
  else .next (homeRequest s p)

/-- READ_RESPONSE_ARRIVAL (R446): a response reaches the requester. -/
def execReadResponseArrival (port : Nat) (p : Packet) (s : State) : Host.Outcome State Fault Refusal :=
  if 16 ≤ port then .fault .noSuchUnit
  else if badHeader p then .next (discard s port)
  else if !(p.type == tyReadResp || p.type == tyRmwResp || p.type == 8) || p.trimmed then .next s
  else .next (if p.ord then arriveOrdered s port p else takeResponse s port p)

end Sys2Proof.Machine
end

