-- ==== Sys2Proof/Machine/Annex.lean ====
section
/-! DEFINITION. The annex port and its guest: queues, completions, translations, cache messages, fencing, and AXPUSH, AXREAP,
AXFENCE (R484 to R499). -/

namespace Sys2Proof.Machine

/-! ### Queues (R486 to R488) -/

/-- A queue of the port. -/
def axQueue (s : State) (n : Nat) : Option AxQueue := tget s.annex.queues n

/-- A queue changed. -/
def modAxQueue (s : State) (n : Nat) (f : AxQueue → AxQueue) : State :=
  match axQueue s n with
  | none => s
  | some q => modAnnex s fun a => { a with queues := tset a.queues n (f q) }

def axCv (ws : List Word) : Bool := bit (cfgWord ws 1) 17
def axTask (ws : List Word) : Nat := bits (cfgWord ws 1) 31 18

/-- A packet that the port completes itself: a nonzero RZ field, or AQS or RLS 6 or 7 (R488). -/
def axBad (ws : List Word) : Bool :=
  let (w0, w1) := (cfgWord ws 0, cfgWord ws 1)
  bits w0 63 48 != 0 || bits w1 63 33 != 0 || bits w1 8 0 != 0 || 6 ≤ bits w1 12 10 || 6 ≤ bits w1 16 14

/-- The accesses of the port, which sits on die 1, for a queue's context. -/
def axWriter (ctx : Nat) (owner : Owner) : Writer := { die := 1, flow := 0, owner, context := ctx }

/-- The port as it serves a queue. -/
def axServer (s : State) (q : AxQueue) : Server :=
  let (asid, priv) := ctxSpace s q.context
  { w := axWriter q.context (.header 68 q.ring.loc), asid, priv, chain := false, size := 64 }

/-- The words of a completion record (R487). -/
def axOutcome (k status cause gsub gdw : Nat) : List Word :=
  [status % 2 ^ 8 + cause % 2 ^ 8 * 2 ^ 8 + gsub % 2 ^ 16 * 2 ^ 16 + gdw % 2 ^ 32 * 2 ^ 32, k].map (BitVec.ofNat 64)

/-- Whether the port holds a packet. -/
def axHeld (s : State) (n k : Nat) : Bool := s.annex.packets.any fun p => p.queue == n && p.k == k

/-- A packet changed. -/
def modPacket (s : State) (n k : Nat) (f : AxPacket → AxPacket) : State :=
  modAnnex s fun a => { a with packets := a.packets.map fun p => if p.queue == n && p.k == k then f p else p }

/-- Guest writes that the port has accepted and that have not performed: those numbered below n, or all (R492, R499). -/
def guestWritesOut (s : State) (n : Option Nat) : Bool :=
  s.fabric.ports.any fun p => p.2.kept.any fun k => match k.owner with
    | .guest i => n.all fun b => i < b
    | _ => false

def guestWrites (s : State) : Bool := guestWritesOut s none

/-- Packet k of a queue has completed: the task, then ACC (R487). -/
def axFinish (s : State) (n k : Nat) (q : AxQueue) (p : Place) (ws : List Word) : State :=
  let s1 := modAnnex s fun a => { a with packets := a.packets.filter fun x => !(x.queue == n && x.k == k) }
  let s2 := sendDecIf s1 (axCv ws) (axTask ws)
  let (s3, r) := completeEntry s2 (axServer s q).w p q.ring k
  modAxQueue s3 n fun x => { x with ring := r }

/-- A packet whose outcome is known goes on: the guest's writes accepted before, its record, then its end, each once and in
this order (R487, R492). -/
def axSettle (s : State) (n k : Nat) : State :=
  match axQueue s n, s.annex.packets.find? fun p => p.queue == n && p.k == k with
  | some q, some x =>
    let v := axServer s q
    match ringPlaceOf s v.asid v.priv q.ring.loc with
    | none => s
    | some (s1, p) =>
      if guestWritesOut s (some x.behind) then s
      else
        let owner := Owner.packet n k
        settleJob s1 owner x.st (fun st ws => putRecord st v (axWriter q.context owner) p k ws)
          (fun st => modPacket st n k fun y => match y.st with
            | .ending _ ws => { y with st := .ending true ws }
            | _ => y)
          fun st _ => axFinish st n k q p x.words
  | _, _ => s

/-- The packets of a queue whose outcome is known go on. -/
def axSettleAll (s : State) (n : Nat) : State :=
  (s.annex.packets.filter fun p => p.queue == n).foldl (fun st p => axSettle st n p.k) s

/-- Packet k of a queue has its outcome. -/
def axDone (s : State) (n k : Nat) (ws : List Word) (status cause gsub gdw behind : Nat) : State :=
  let st : JobState := .ending false (axOutcome k status cause gsub gdw)
  let s1 := if axHeld s n k then modPacket s n k fun p => { p with st, behind }
    else modAnnex s fun a =>
      { a with packets := a.packets ++ [{ queue := n, k, words := ws, parked := false, since := s.clock, st, behind }] }
  axSettle s1 n k

/-- Whether packet k of a queue has completed (R32). -/
def axCompleted (s : State) (q : AxQueue) (cell k : Nat) : Bool :=
  q.ring.done.contains k || sub48 (hdrAcc s cell) k < 2 ^ 47

/-- The next packet in entry order that has neither been fetched nor completed, up to a limit: the guest fetches it
(R488). -/
def axNext (s : State) (n : Nat) (q : AxQueue) (cell k lim fuel : Nat) : Option Nat :=
  match fuel with
  | 0 => none
  | f + 1 =>
    if k == lim then none
    else
      let k1 := (k + 1) % 2 ^ 48
      if axCompleted s q cell k1 || axHeld s n k1 then axNext s n q cell k1 lim f else some k1

/-- STATUS 4 and ANNEX_FENCED for every published packet of a queue that is not complete; an outcome that the port accepted
before the fence stands (R494 step 3, R495). A packet of another module's ring is completed once it has been read. -/
def fenceQueue (s : State) (n : Nat) : State :=
  match axQueue s n with
  | none => s
  | some q =>
    let v := axServer s q
    match freshHead s v q.ring.loc with
    | .due s1 p =>
      let pub := hdrPub s1 p.loc
      let m := min (sub48 pub (hdrAcc s1 p.loc)) (2 ^ hdrLogn s1 p.loc)
      let first := hdrAcc s1 p.loc + 1
      let s2 := (List.range m).foldl (fun st i =>
        let k := (first + i) % 2 ^ 48
        match axQueue st n with
        | none => st
        | some y =>
          if axCompleted st y p.loc k then st
          else match st.annex.packets.find? fun x => x.queue == n && x.k == k with
            | some x => match x.st with
              | .ending _ _ => st
              | _ => axDone st n k x.words 4 cAnnexFenced.toNat 0 0 0
            | none =>
              match ringEntry st v y.ring.loc p k with
              | .ok (st1, ws) => axDone st1 n k ws 4 cAnnexFenced.toNat 0 0 0
              | .error (.waits st1) => st1
              | .error (.fault _) => axDone st n k [] 4 cAnnexFenced.toNat 0 0 0) (dropAsks s1 v.w.owner)
      modAxQueue (putTaken s2 v.w p pub) n fun x => { x with known := BitVec.ofNat 48 pub }
    | .waits s1 | .idle s1 => s1
    | .none | .bad _ _ => s

/-- Every queue's packets completed for a fence. -/
def fenceQueues (s : State) : State := (tkeys s.annex.queues).foldl fenceQueue s

/-! ### Fencing (R436, R494) -/

/-- A line that the guest holds, at a fence: a copy is dropped, a line with write permission is poisoned at its home (R436). -/
def settleGuestLine (s : State) (line : Nat) : State :=
  let range := lineRange s holderG line
  let wr := permOf (rangeTable s range) (lineState s holderG line) == 2
  let l := paLoc s (64 * line)
  let s1 := setLine s holderG line range 0
  if isRemote s (64 * line) then s1
  else if wr then addPoison (addPoison s1 (l / 32)) (l / 32 + 1) else s1

/-- The lines that a holder holds. -/
def linesOf (s : State) (holder : Nat) : List Nat :=
  (s.coh.lines.filter fun e => e.1 / 2 ^ 46 == holder).map fun e => e.1 % 2 ^ 46

/-- The contexts that own an annex queue. -/
def axContexts (s : State) : List Nat := (s.annex.queues.map fun e => e.2.context).eraseDups

/-- The guest is fenced (R494, in its order). -/
def fence (s : State) : State :=
  if s.annex.st != .opened then s
  else
    let s1 := modAnnex s fun a => { a with st := .fenced, inval := [], granted := [] }
    let s2 := (linesOf s1 holderG).foldl settleGuestLine s1
    let s3 := fenceQueues s2
    (axContexts s3).foldl (fun st c =>
      reportNote st c { cause := cAnnexFenced.toNat, sub := none, source := 3, core := none, word1 := none, addr := none
                        w := none }) s3

/-! ### ANNEX_RING_READ and GUEST_PACKET_FETCH (R31, R488) -/

/-- A ring found with more entries than slots (R31). -/
def axOverrun (s : State) (n : Nat) (q : AxQueue) : State :=
  reportNote (modAxQueue s n fun x => { x with ring := { x.ring with faulted := true } }) q.context
    { cause := cQueueOverrun.toNat, sub := none, source := 3, core := none, word1 := none, addr := none, w := none }

/-- The next packet of an open port's queue: signalled with DOORBELL, or completed by the port. -/
def readAnnex (s : State) (n : Nat) (q : AxQueue) (v : Server) (p : Place) : State :=
  let k := (q.known.toNat + 1) % 2 ^ 48
  match ringEntry s v q.ring.loc p k with
  | .error (.waits s1) => s1
  | .error (.fault _) => s
  | .ok (s1, ws) =>
    let s2 := modAxQueue (dropAsks s1 v.w.owner) n fun x => { x with known := BitVec.ofNat 48 k }
    if axBad ws then
      axDone (if hdrTaken s2 p.loc == q.known.toNat then putTaken s2 v.w p k else s2) n k ws 1 0 0xFFFF 0 0
    else modAnnex s2 fun a => { a with out := a.out ++ [.doorbell n (BitVec.ofNat 48 k)] }

/-- ANNEX_RING_READ: the port reads the notify word and takes the next packet in; a fenced port completes it. -/
def execAnnexRingRead (queue : Nat) (s : State) : Host.Outcome State Fault Refusal :=
  if 64 ≤ queue then .fault .noSuchUnit
  else
    let s0 := axSettleAll s queue
    match axQueue s0 queue with
    | none => .next s0
    | some q =>
      let v := axServer s0 q
      if q.ring.faulted then .next s0
      else match freshHead s0 v q.ring.loc with
        | .none | .bad _ _ => .next s0
        | .waits s1 | .idle s1 => .next s1
        | .due s1 p =>
          if hdrPub s1 p.loc == q.known.toNat then .next (dropAsks s1 v.w.owner)
          else if overrun s1 p.loc then .next (axOverrun (dropAsks s1 v.w.owner) queue q)
          else match s1.annex.st with
            | .fenced => .next (fenceQueue s1 queue)
            | .opened => .next (readAnnex s1 queue q v p)
            | _ => .next s1

/-- GUEST_PACKET_FETCH: the guest takes the next signalled packet, and TAKEN follows; of a faulted ring no further entry is
read (R31). -/
def execGuestPacketFetch (queue : Nat) (s : State) : Host.Outcome State Fault Refusal :=
  if 64 ≤ queue then .fault .noSuchUnit
  else if s.annex.st != .opened then .next s
  else match axQueue s queue with
    | none => .next s
    | some q =>
      let v := axServer s q
      if q.ring.faulted then .next s
      else match ringPlaceOf s v.asid v.priv q.ring.loc with
        | none => .next s
        | some (s1, p) =>
          match axNext s1 queue q p.loc (hdrTaken s1 p.loc) q.known.toNat 4097 with
          | none => .next s
          | some k =>
            match ringEntry s1 v q.ring.loc p k with
            | .error (.waits s2) => .next s2
            | .error (.fault _) => .next s
            | .ok (s2, ws) =>
              .next (modAnnex (putTaken (dropAsks s2 v.w.owner) v.w p k) fun a =>
                { a with packets := a.packets ++ [{ queue, k, words := ws, parked := false, since := s.clock }]
                         out := a.out ++ [.packet queue k ws] })

/-! ### COMPLETE (R487, R492, R494) -/

/-- A STATUS and CAUSE that R487 allows. -/
def axStatusOk (status cause : Nat) : Bool :=
  match status with
  | 0 | 1 | 3 => cause == 0
  | 2 => [cPageFault.toNat, cProtection.toNat, cTlbGen.toNat, cWriteOnce.toNat, cPoison.toNat].contains cause
  | 4 => cause == cAnnexFenced.toNat
  | _ => false

/-- COMPLETE: the port holds the record while a guest write that it accepted before has not performed. -/
def execComplete (queue : Nat) (entry : BitVec 48) (status cause : BitVec 8) (gsub : BitVec 16) (gdw : BitVec 32)
    (rzBad : Bool) (s : State) : Host.Outcome State Fault Refusal :=
  if s.annex.st != .opened then .next s
  else if rzBad || !axStatusOk status.toNat cause.toNat then .next (fence s)
  else match s.annex.packets.find? fun p => p.queue == queue && p.k == entry.toNat && !p.parked && p.st == .running with
    | some p => .next (axDone s queue p.k p.words status.toNat cause.toNat gsub.toNat gdw.toNat s.annex.sent)
    | none => .next (fence s)

/-! ### PREEMPT and RESUME (R488, R493) -/

/-- The context of a packet. -/
def axPacketCtx (s : State) (p : AxPacket) : Nat := ((axQueue s p.queue).map fun q => q.context).getD 0

/-- RESUME: a context's parked packets are delivered again, RESUMED set. -/
def axResume (s : State) (ctx : Nat) : State :=
  let mine := s.annex.packets.filter fun p => p.parked && axPacketCtx s p == ctx
  if mine.isEmpty || s.annex.st != .opened then s
  else
    let again (ws : List Word) : List Word := ws.set 1 (ws.getD 1 0 ||| 0x100000000)
    modAnnex s fun a =>
      { a with
        packets := a.packets.map fun p =>
          if mine.contains p then { p with parked := false, words := again p.words, since := s.clock } else p
        out := a.out ++ [.resume ctx] ++ mine.map fun p => .packet p.queue p.k (again p.words) }

/-- A workgroup of a context is saved or about to be. -/
def ctxPreempted (s : State) (ctx : Nat) : Bool :=
  s.wgs.any fun e => e.2.context == ctx && (e.2.st == .saved || (e.2.st == .running && e.2.preempt))

/-- PREEMPT_REPLY: the answer to the port's PREEMPT of a context. No rule says when the port sends PREEMPT, so the reply
stands for both (log entry 42). Unfinished packets park, and RESUME follows once no workgroup of the context is
pre-empted; or they complete with STATUS 3. -/
def execPreemptReply (context : Nat) (resumable : Bool) (s : State) : Host.Outcome State Fault Refusal :=
  if s.annex.st != .opened then .next s
  else if resumable then
    let s1 := modAnnex s fun a =>
      { a with packets := a.packets.map fun p =>
        if axPacketCtx s p == context && p.st == .running then { p with parked := true } else p }
    .next (if ctxPreempted s1 context then s1 else axResume s1 context)
  else .next ((s.annex.packets.filter fun p => axPacketCtx s p == context && p.st == .running).foldl
    (fun st p => axDone st p.queue p.k p.words 3 0 0 0 0) s)

/-! ### Translation (R490, R491) -/

/-- The windows of an ID's contexts that hold an address: whether writes are allowed. -/
def axWindow (s : State) (asid : BitVec 16) (va : Nat) : Option Bool :=
  let ws := (s.annex.queues.filter fun e =>
      match tget s.contexts e.2.context with
      | some c => c.asid == asid
      | none => false).flatMap fun e => e.2.windows
  match ws.filter fun w => w.1 ≤ va && va < w.1 + w.2.1 with
  | [] => none
  | xs => some (xs.any fun w => w.2.2)

/-- The privilege of an ID's contexts that own a queue. -/
def axPriv (s : State) (asid : BitVec 16) : Bool :=
  s.annex.queues.any fun e =>
    match tget s.contexts e.2.context with
    | some c => c.asid == asid && c.priv
    | none => false

/-- Cells of a sketch pool, or of another reservation, that the guest cannot reach (R399). -/
def guestBarred (s : State) (pa : Nat) : Bool := !isRemote s pa && reservedCells s (paLoc s (pa / 64 * 64)) 64

/-- TRANSLATE and its reply. -/
def execTranslate (asid gen : BitVec 16) (va : Word) (s : State) : Host.Outcome State Fault Refusal :=
  let refuse (s1 : State) (c : Nat) : State :=
    modAnnex s1 fun a => { a with out := a.out ++ [.refusal asid gen va (BitVec.ofNat 8 c)] }
  if s.annex.st != .opened then .next s
  else match axWindow s asid va.toNat with
    | none => .next (refuse s cProtection.toNat)
    | some wr =>
      if (spaceEntry s asid.toNat).gen != gen then .next (refuse s cTlbGen.toNat)
      else match translate s asid.toNat (axPriv s asid) va.toNat .rd false with
        | .error e => .next (refuse s e.1)
        | .ok (s1, x) =>
          if guestBarred s1 x.pa then .next (refuse s1 cProtection.toNat) else
          let size := 2 ^ pageBits x.level
          let w := wr && leafW x.leaf
          .next (modAnnex s1 fun a =>
            { a with
              granted := a.granted ++ [{ asid, gen, pa := leafBase x.leaf, size, range := leafRange x.leaf, w }]
              out := a.out ++ [.translation asid gen va (BitVec.ofNat 52 x.pa) size (leafRd x.leaf) w] })

/-- INVAL_ACK: the oldest INVAL of an ID is acknowledged, and translations of another generation are gone. -/
def execInvalAck (asid : BitVec 16) (s : State) : Host.Outcome State Fault Refusal :=
  match s.annex.inval.find? fun e => e.1 == asid with
  | none => .next s
  | some e =>
    .next (modAnnex s fun a =>
      { a with
        inval := a.inval.erase e
        granted := a.granted.filter fun g => g.asid != asid || g.gen == e.2.1 })

/-! ### Cache messages (R489) -/

/-- The event that a message raises (R489). -/
def guestEvent (m : GuestMsg) : Option Nat :=
  match m with
  | .rdShared | .rdCurr => some 0
  | .rdOwn | .rdOwnNoData | .itoMWr | .wrInv => some 1
  | .dirtyEvict | .cleanEvict | .cleanEvictNoData => some 2
  | .clFlush => some 6
  | .other => none

/-- The messages that carry a line's data. -/
def guestWrite (m : GuestMsg) : Bool := m == .itoMWr || m == .wrInv || m == .dirtyEvict

/-- A guest's data reaches its home: here, or as posted writes to another module. -/
def guestStore (s : State) (pa range : Nat) (bs : List Byte) (bad : Bool) : State :=
  if isRemote s pa then
    (List.range ((bs.length + 31) / 32)).foldl (fun st i =>
      let part := (bs.drop (32 * i)).take 32
      let p := { carryRange (postedPacket tyPosted (pa + 32 * i) part) range with poisoned := bad }
      modAnnex (sendFrom st (leastPort st 1) p (.guest st.annex.sent) 0).1 fun a => { a with sent := a.sent + 1 }) s
  else
    let l := paLoc s pa
    let s1 := storeBytes s l bs
    if bad then (sectorsOf l bs.length).foldl addPoison s1 else s1

/-- A read's answer to the guest; of another module's memory it follows the home's. -/
def guestData (s : State) (m : GuestMsg) (pa range : Nat) : State :=
  if m == .rdShared || m == .rdCurr || m == .rdOwn then
    if isRemote s pa then
      match fetchRemote s 1 (guestReader pa) 0 range pa 64 with
      | .waits s1 => modAnnex s1 fun a => { a with reads := a.reads ++ [(pa, range)] }
      | .got _ _ | .refused _ => feedGuest (modAnnex s fun a => { a with reads := a.reads ++ [(pa, range)] })
    else modAnnex s fun a =>
      { a with out := a.out ++ [.data (BitVec.ofNat 52 pa) (loadBytes s (paLoc s pa) 64) (poisoned s (paLoc s pa) 64)] }
  else s

/-- GUEST_CACHE_MESSAGE: a message raises its event under its range's table; a page that no live translation has given the
guest, or an unlisted message, is a breach (R489, R493). A table's fault answers the guest without effect. -/
def execGuestCacheMessage (m : GuestMsg) (pa : BitVec 52) (data : List Byte) (poisoned : Bool) (s : State) :
    Host.Outcome State Fault Refusal :=
  let line := pa.toNat / 64
  let base := 64 * line
  let bs := data.take 64
  if s.annex.st != .opened then .next s
  else match guestEvent m, s.annex.granted.find? fun g => g.pa ≤ base && base < g.pa + g.size && (g.w || !guestWrite m) with
    | some ev, some g =>
      if guestBarred s base then .next s
      else if ev == 0 || ev == 1 then
        match lineAccess s (some holderG) base g.range (ev == 1) with
        | .error _ => .next s
        | .ok s1 => .next (guestData (if guestWrite m && !bs.isEmpty then guestStore s1 base g.range bs poisoned else s1) m base g.range)
      else
        let held := permOf (rangeTable s (lineRange s holderG line)) (lineState s holderG line) == 2
        let s1 := if guestWrite m && held && !bs.isEmpty then guestStore s base g.range bs poisoned else s
        .next (lineEvent s1 holderG line ev)
    | _, _ => .next (fence s)

/-! ### Bounds, training, attestation (R484, R485, R490) -/

/-- Bounds of R490 in core clocks: 2 µs and 100 ms (log entry 6). -/
def invalBound : Nat := 4500
def completeBound : Nat := 225000000

/-- ANNEX_BOUND_EXPIRY: the guest has missed a bound. -/
def execAnnexBoundExpiry (s : State) : Host.Outcome State Fault Refusal :=
  let late := (s.annex.inval.any fun e => e.2.2 + invalBound < s.clock) ||
    s.annex.packets.any fun p => !p.parked && p.st == .running && p.since + completeBound < s.clock
  .next (if late then fence s else s)

/-- ANNEX_TRAINING: the modules that train; a guest that offers only the 68B flit format is refused. -/
def execAnnexTraining (modules : BitVec 8) (flit256 : Bool) (s : State) : Host.Outcome State Fault Refusal :=
  if s.annex.st == .untrained && flit256 && modules != 0 then
    .next (modAnnex s fun a => { a with st := .closed, modules })
  else .next s

/-- GUEST_ATTEST: the port opens to a guest that the firmware manifest lists and whose signature is valid. -/
def execGuestAttest (identity measurement signature : List Byte) (s : State) : Host.Outcome State Fault Refusal :=
  if s.annex.st == .closed && Config.guestListed s.module.image identity measurement &&
      Config.guestSigned identity measurement signature then
    .next (modAnnex s fun a => { a with st := .opened, identity, measurement })
  else .next s

/-! ### Instructions (R496 to R499) -/

/-- The words that AXPUSH writes: SEQ, CONTEXT and PRIO are its own, RZ as given (R486, R497). -/
def axRecord (s : State) (tid k : Nat) (a c : Nat) : List Byte :=
  let w := wgOf s (thr s tid).wg
  let w0 := a % 2 ^ 64
  let own := k % 2 ^ 16 * 2 ^ 16 + w.context % 2 ^ 12 * 2 ^ 32 + w.prio % 16 * 2 ^ 44
  leBytes 8 (w0 % 2 ^ 16 + own + w0 / 2 ^ 48 * 2 ^ 48) ++ (leBytes 32 a).drop 8 ++ leBytes 32 c

/-- AXPUSH (R497): after a fence the packet is published and completed at once (R495). -/
def execAxpush (o : Ops) (_m : M7) (s : State) : Host.Outcome State Fault Refusal :=
  let needs : List (Src × Need) := [(o.a, .raw), (o.b, .word), (o.c, .raw)]
  laneOp o needs (fun s0 s tid =>
    let hdr (i : Nat) : Nat := srcN (thr s0 i) o.b
    let mates := ringMates s0 o needs .global hdr tid
    let lead := mates.headD tid
    let number (i : Nat) : Nat := match ringCheck s0 lead .global (hdr lead) 64 limAcc mates.length false with
      | .ok _ _ v => (v.pub + mates.findIdx (· == i) + 1) % 2 ^ 48
      | _ => 0
    let record (i : Nat) : List Byte := axRecord s i (number i) (srcW (thr s0 i) o.a) (srcW (thr s0 i) o.c)
    outsideTx s tid (publish s0 s tid .global hdr 64 limAcc mates false record o.d
      fun st => if st.annex.st == .fenced then fenceQueues st else st)) s

/-- AXREAP (R498). -/
def execAxreap (o : Ops) (_m : M7) (s : State) : Host.Outcome State Fault Refusal :=
  laneOp o [(o.a, .word), (o.b, .word)] (fun _ s tid =>
    let t := thr s tid
    outsideTx s tid (reap s tid 6 (srcN t o.a) (srcN t o.b) (srcWord t o.b) 64 16 o.d)) s

/-- The test of AXFENCE: the writes that the port had accepted as it issued; after a restore, which keeps no count, all. A
fenced port has none outstanding (R499). -/
def axfenceTest (s : State) (w : Wait) : Bool :=
  s.annex.st == .fenced || !guestWritesOut s (if w.var == 0 then none else some w.var)

/-- AXFENCE (R499): a fence.ar.pkg that also waits for the guest's accepted writes. -/
def execAxfence (o : Ops) (_m : M7) (s : State) : Host.Outcome State Fault Refusal :=
  laneOp o [] (fun s0 s tid =>
    outsideTx s tid
      (if releaseWaits s0 tid true then .hold postedHold
       else if s.annex.st != .fenced && guestWrites s then .wait s { code := 8, a := 0, b := 0, dst := .latchOnly, var := s.annex.sent }
       else .done s)) s

end Sys2Proof.Machine
end

