-- ==== Sys2Proof/Machine/Transact.lean ====
section
/-! DEFINITION. Transactions: TXBEG, TXEND, TXABT, TXST and the commit (R161 to R165, R228 to R230). -/

namespace Sys2Proof.Machine

/-! ### Beginning (R161, R229) -/

/-- The trap of an outermost TXBEG's log area. -/
def logTrap (w : Workgroup) (a : Nat) : Option TrapInfo :=
  if a % 1024 != 0 then some (trapOf cMisaligned (some a))
  else if carrelBytes < a + 16384 || a < w.base * 4096 || (w.base + w.units) * 4096 < a + 16384 then
    some (trapOf cProtection (some a))
  else none

/-- A participant as TXBEG makes it. -/
def newPart (s : State) (tid : Nat) : TxPart :=
  { lane := tidLane tid, depth := 1, nest := (thr s tid).nest, atEnd := false, endDst := .latchOnly }

/-- A transaction of the thread's quire that this very issue has begun. -/
def begunNow (s0 s : State) (tid : Nat) : Option (Nat × Tx) :=
  (wgOf s (tidWg tid)).txs.find? fun e => e.1 / 32 == tidQuire tid && (tget (wgOf s0 (tidWg tid)).txs e.1).isNone

/-- The outermost TXBEG of a thread: it joins the transaction that the issue has begun, or begins it. -/
def joinTx (s0 s : State) (tid : Nat) (d : Dst) (a : Nat) : State :=
  match begunNow s0 s tid with
  | some (k, x) =>
    modWg s (tidWg tid) fun w => { w with txs := tset w.txs k { x with parts := x.parts ++ [newPart s0 tid] } }
  | none =>
    let x : Tx :=
      { logBase := a, beg := insPc s0 tid, dst := d, parts := [newPart s0 tid], log := [], lines := [], reads := [] }
    modWg s (tidWg tid) fun w => { w with txs := tset w.txs (tidQuire tid * 32 + tidLane tid) x }

/-- A participant changed. -/
def modPart (s : State) (tid : Nat) (f : TxPart → TxPart) : State :=
  match txOf s tid with
  | none => s
  | some x => setTx s tid { x with parts := x.parts.map fun p => if p.lane == tidLane tid then f p else p }

/-- The nesting depth of a thread, 0 outside a transaction. -/
def txDepth (s : State) (tid : Nat) : Nat :=
  match txOf s tid with
  | none => 0
  | some x => match x.parts.find? fun p => p.lane == tidLane tid with
    | some p => p.depth
    | none => 0

/-- TXBEG (R161, R229): a nested one only deepens, and a 16th level aborts with code 8. -/
def execTxbeg (o : Ops) (_m : M5) (s : State) : Host.Outcome State Fault Refusal :=
  laneOp o [(o.a, .word)] (fun s0 s tid =>
    let a := srcN (thr s tid) o.a
    match txDepth s tid with
    | 0 =>
      match logTrap (wgOf s (tidWg tid)) a with
      | some i => .trap i
      | none => .done (writeDst (joinTx s0 s tid o.d a) tid o.d 0)
    | n =>
      if 15 ≤ n then .done (txAbortBy s tid 8 0)
      else .done (modPart s tid fun p => { p with depth := n + 1 })) s

/-! ### Ending (R163, R229) -/

/-- The wait of the outermost TXEND: code 9, over when the commit units are done. -/
def txWait : Wait := { code := 9, a := 0, b := 0, dst := .latchOnly, var := 0 }

/-- TXEND (R163, R229). -/
def execTxend (o : Ops) (_m : M5) (s : State) : Host.Outcome State Fault Refusal :=
  laneOp o [] (fun _ s tid =>
    match txDepth s tid with
    | 0 => .done (writeDst s tid o.d 0)
    | 1 => .wait (modPart s tid fun p => { p with atEnd := true, endDst := o.d }) txWait
    | n => .done (modPart s tid fun p => { p with depth := n - 1 })) s

/-- TXABT (R165, R229). -/
def execTxabt (o : Ops) (m : M5) (s : State) : Host.Outcome State Fault Refusal :=
  laneOp o [] (fun _ s tid =>
    if (txOf s tid).isSome then .done (txAbortBy s tid 4 (bits m.off.toNat 7 0)) else .done s) s

/-- The status word of TXST (R230). -/
def txStatus (s : State) (tid : Nat) : Nat :=
  match txOf s tid with
  | none => 0
  | some x => txDepth s tid % 16 + x.lines.length % 128 * 2 ^ 4 + x.reads.length % 256 * 2 ^ 11

/-- TXST (R230). -/
def execTxst (o : Ops) (_m : M5) (s : State) : Host.Outcome State Fault Refusal :=
  laneOp o [] (fun _ s tid => .done (resultG s tid 2 o.d (txStatus s tid))) s

/-! ### The commit (R163) -/

/-- A transaction that its commit units may take: every participant stands in the outermost TXEND with its posted writes
acknowledged (R163, R454). -/
def commitDue (s : State) (wg key : Nat) (x : Tx) : Bool :=
  x.parts.all fun p => p.atEnd && (thr s (tidOf wg (key / 32) p.lane)).posted.isEmpty

/-- Whether a recorded line still has its value, compared where it was read. -/
def lineMatches (s : State) (e : Nat × List Byte) : Bool := readBytes s (paLoc s (e.1 * 64)) 64 == e.2

/-- Whether a written line takes the commit's write under its range's table (R429): the table's own entry decides. -/
def lineTakes (s : State) (core : Option Nat) (line range : Nat) : Bool :=
  match lineAccess s core (line * 64) range true with
  | .ok _ => true
  | .error _ => false

/-- The bytes of a log written in one step; a sector written whole loses its poison (R207). -/
def applyLog (s : State) (log : FMap Byte) : State :=
  let whole (sec : Nat) : Bool := (List.range 32).all fun i => (tget log (32 * sec + i)).isSome
  { s with
    mem := log.foldl (fun m e => Memory.set m e.1 e.2) s.mem
    poison := s.poison.filter fun sec => !whole sec }

/-- The signal words that a log meets, each once (R478). -/
def logSignals (s : State) (log : FMap Byte) : List Nat :=
  s.dies.flatMap fun d => d.2.coll.plans.flatMap fun p =>
    (p.2.sigs.filter fun x => (List.range 8).any fun i => (tget log (x.2.1 + i)).isSome).map fun x => x.2.2.toNat

/-- One participant after a commit: 0 in the destination of its TXEND, past the instruction. -/
def commitPart (wg key : Nat) (s : State) (p : TxPart) : State :=
  let tid := tidOf wg (key / 32) p.lane
  wakeThread (writeDst s tid p.endDst 0) tid

/-- The commit: every recorded line is compared; on a match all logged writes are applied in one step, else the
transaction aborts with code 1. A line that its table no longer lets be written counts as a conflict (log entry 29). -/
def commitTx (s : State) (wg key : Nat) (x : Tx) : State :=
  let who := (txTids wg key x).head?.map fun i => (thr s i).core
  if x.reads.all (lineMatches s) && x.lines.all (fun l => lineTakes s who l.1 l.2) then
    let s1 := x.lines.foldl (fun st l =>
      match lineAccess st who (l.1 * 64) l.2 true with
      | .ok st' => st'
      | .error _ => st) s
    let s2 := (logSignals s1 x.log).foldl sendDec (applyLog s1 x.log)
    let s3 := modWg s2 wg fun w => { w with txs := tdel w.txs key }
    x.parts.foldl (commitPart wg key) s3
  else txAbort s wg key 1 0 []

/-- TX_COMMIT: the first transaction of the quire whose participants have all issued TXEND (R163). -/
def execTxCommit (wg quire : Nat) (s : State) : Host.Outcome State Fault Refusal :=
  match (wgOf s wg).txs.find? fun e => e.1 / 32 == quire && commitDue s wg e.1 e.2 with
  | some (k, x) => .next (commitTx s wg k x)
  | none => .next s

end Sys2Proof.Machine
end

