-- ==== Sys2Proof/Machine/Wake.lean ====
section
/-! DEFINITION. What reaches a core from outside its issue: ends of suspensions, late results, wakes, line fetches, the choice
of a gathering, watchdogs, soft errors, and words of an unassigned opcode (R73, R88, R140, R153 to R157, R258). -/

namespace Sys2Proof.Machine

/-! ### The tests of suspensions (R249) -/

/-- The test of NVREAP and AXREAP on their saved operands; the window of R361 was checked at issue. -/
def waitReapTest (s : State) (tid : Nat) (w : Wait) : WaitRes :=
  reapTest s tid w.a.toNat (w.b.toNat % 2 ^ 48) 64 (if w.code == 5 && bit w.b.toNat 63 then 32 else 16) w.dst false

/-- A test that a fact decides. -/
def factTest (s : State) (b : Bool) : WaitRes := if b then .done s else .no s

/-- The threads that a hold of posted writes suspends together (R480). -/
def heldMates (s : State) (tid : Nat) : List Nat :=
  (s.threads.filter fun e => e.2.wg == (thr s tid).wg && e.2.pc == (thr s tid).pc && e.2.wait == (thr s tid).wait).map Prod.fst

/-- The space of a publishing hold. -/
def holdSpace (w : Wait) : Space :=
  if w.var == holdCarrelRing then .carrel else if w.var == holdRcarrelRing then .rcarrel else .global

/-- The test of a hold, code 63. -/
def holdTest (s : State) (tid : Nat) (w : Wait) : WaitRes :=
  if w.var == holdPosted then factTest s (!(heldMates s tid).any fun i => releaseWaits s i true)
  else if w.var == holdDepset then factTest s (!depsetWaits s tid)
  else if w.var == holdMatrix then .no s
  else factTest s (ringRoom s tid (holdSpace w) w)

/-- The test of a suspension. -/
def waitTest (s : State) (tid : Nat) (w : Wait) : WaitRes :=
  match w.code with
  | 0 => waitAccTest s tid (w.var == 1) w.a w.b
  | 1 => waitDepTest s w.a
  | 2 => waitNbarTest s tid w.a w.b
  | 3 => barwTest s tid (barSpace w.var) w.a.toNat w.b.toNat
  | 4 => catwTest s tid w.a.toNat w.b.toNat w.dst
  | 5 | 6 => waitReapTest s tid w
  | 7 => factTest s (thr s tid).posted.isEmpty
  | 8 => factTest s (axfenceTest s w)
  | 11 => sketchTest s tid w
  | 12 => planTest s tid w
  | 13 => tlbgenTest s w.a w.b
  | 63 => holdTest s tid w
  | _ => .done s

/-- A suspension whose instruction has had no effect and issues again. -/
def issuesAgain (w : Wait) : Bool := w.code == 63 && w.var != holdDepset

/-- The threads whose lost writes a suspension waits for: those of a FLUSHP, a held release, the release of a class 0x8
operation, or a commit (R455, R480). -/
def lossMates (s : State) (tid : Nat) (w : Wait) : List Nat :=
  if w.code == 7 then [tid]
  else if w.code == 63 && w.var == holdPosted then heldMates s tid
  else if w.code == 11 && waitOnce ≤ w.var then tid :: issueMates s tid
  else if w.code == 9 then
    match txEntry s tid with
    | none => []
    | some e => txTids (tidWg tid) e.1 e.2
  else []

/-- A release or a FLUSHP that waits on a lost write stops the workgroup and reports FABRIC_LOST (R455). -/
def loseWait (s : State) (tid : Nat) : State :=
  let t := thr s tid
  let (sub, s1) := orFree s none
  let (addr, s2) := orFree s1 none
  stopThread (report s2 (wgOf s t.wg).context (laneRec s2 tid cFabricLost.toNat (sub % 256) t.pc.toNat addr)) tid cFabricLost

/-- A thread whose suspension may be over: it goes on, issues again, traps, commits, or still waits (R154, R198). What an
operation of its issue ends, it ends for every thread of the issue (R394, R472). A test that does not hold asks another
module afresh the next time. -/
def wakeStep (s : State) (tid : Nat) : State :=
  match (thr s tid).wait with
  | none => s
  | some w =>
    if (wgOf s (tidWg tid)).st != .running then s
    else if (lossMates s tid w).any fun i => (thr s i).posted.any Posted.lost then loseWait s tid
    else if w.code == 9 then
      match txEntry s tid with
      | none => s
      | some (k, x) => if commitDue s (tidWg tid) k x then commitTx s (tidWg tid) k x else s
    else
      let mates := tid :: issueMates s tid
      match waitTest s tid w with
      | .done s1 => if issuesAgain w then reissueThread s1 tid else mates.foldl wakeThread s1
      | .trap i => mates.foldl (fun st j => wakeTrap st j i) s
      | .ask s1 => s1
      | .no _ | .abort _ => clearMarks s tid

/-- Every suspended thread of a core is tested, in ascending order. -/
def wakeCore (s : State) (c : Nat) : State :=
  ((liveThreads s c).filter fun i => (thr s i).wait.isSome).foldl wakeStep s

/-- THREAD_WAKE: a thread whose event holds (R154). -/
def execThreadWake (tid : Nat) (s : State) : Host.Outcome State Fault Refusal := .next (wakeStep s tid)

/-! ### Leaving the gated state (R154, R155) -/

/-- The earlier of two events of WAKE_WHY: the lowest code, then the lowest quire. -/
def firstEvent (a b : Nat × Nat × Word) : Nat × Nat × Word :=
  if b.1 < a.1 || (b.1 == a.1 && b.2.1 < a.2.1) then b else a

/-- The word of WAKE_WHY. -/
def wakeWhyWord (e : Nat × Nat × Word) : Word := BitVec.ofNat 64 (e.1 % 16 + e.2.1 % 8 * 2 ^ 4 + e.2.2.toNat % 2 ^ 56 * 2 ^ 8)

/-- A gated core with an event leaves the gated state and writes WAKE_WHY. -/
def ungate (s : State) (c : Nat) : State :=
  let x := coreOf s c
  match x.events with
  | [] => s
  | e :: rest =>
    if x.gated then
      modCore s c fun y => { y with gated := false, events := [], wakeWhy := wakeWhyWord (rest.foldl firstEvent e) }
    else s

/-- CORE_UNGATE. -/
def execCoreUngate (core : Nat) (s : State) : Host.Outcome State Fault Refusal :=
  if 256 ≤ core then .fault .noSuchUnit else .next (ungate s core)

/-! ### Results that arrive (R73) -/

/-- Whether every piece of a result has its answer. -/
def pendReady (p : Pend) : Bool := p.pieces.all fun q => q.val.isSome

/-- Bit 64 of the one piece of an LDK: the saturation flag (R214). -/
def pendFlag (p : Pend) : Bool := p.pieces.any fun q => bit (q.val.getD 0) 64

/-- A register with one bit set to a flag. -/
def writeFlag (s : State) (tid : Nat) (f : Option (Reg × Nat)) (on : Bool) : State :=
  match f with
  | some (.g n, b) =>
    let old := (readG (thr s tid) n.toNat).toNat
    let v := old - (if bit old b then 2 ^ b else 0) + (if on then 2 ^ b else 0)
    writeReg s tid (.g n) (BitVec.ofNat 256 v) 0
  | _ => s

/-- A result arrives: the destination is written, and its latch becomes valid unless it has been cleared since. -/
def deliverResult (s : State) (tid : Nat) (p : Pend) : State :=
  let v : Wide := BitVec.ofNat 256 (piecesValue p.pieces)
  let s1 := modThr s tid fun t =>
    let t1 := { t with pend := t.pend.erase p }
    if p.live then setLatch t1 p.k ⟨.valid, p.wide, v, if p.wide then p.tag else 0⟩ else t1
  let s2 := match p.dst with
    | .reg r => writeReg s1 tid r v p.tag
    | .latchOnly => s1
  writeFlag s2 tid p.flag (pendFlag p)

/-- The oldest result of a pipe that waits for a thread, when it has its answer. -/
def nextResult (s : State) (tid k : Nat) : Option Pend :=
  match (thr s tid).pend.find? fun p => p.k == k with
  | some p => if pendReady p then some p else none
  | none => none

/-- LATCH_RESULT_ARRIVAL. -/
def execLatchResultArrival (tid : Nat) (k : BitVec 2) (s : State) : Host.Outcome State Fault Refusal :=
  match nextResult s tid k.toNat with
  | some p => .next (deliverResult s tid p)
  | none => .next s

/-- Every result of a thread that has its answer arrives. -/
def deliverAll (s : State) (tid : Nat) : State :=
  ((thr s tid).pend.filter fun p => p.k < 4 && pendReady p).foldl (fun st p => deliverResult st tid p) s

/-! ### LINE_FETCH and GATHERING_SELECT (R77, R140) -/

/-- The fetch unit asks the home of a thread's line for it, unless the line is here or asked for (R77, R438). -/
def askLine (s : State) (i : Nat) : State :=
  let line := lineOf (thr s i).pc
  if lineCached s i then s
  else match placeOf s (partyOf s i) .global line 64 .fetch with
    | .error _ => s
    | .ok (s1, p) =>
      if p.remote then
        sendAsk (dieOfCore (thr s i).core) (fetchOwner s i line) (wgOf s (tidWg i)).context p.range s1 (p.pa, 2)
      else s

/-- LINE_FETCH: the core's fetch unit reads a line for a thread that stands in it. A fault is left to the issue that needs
the line (R255). -/
def execLineFetch (core : Nat) (pc : Pc) (s : State) : Host.Outcome State Fault Refusal :=
  if 256 ≤ core then .fault .noSuchUnit
  else match (liveThreads s core).find? fun i => lineOf (thr s i).pc == lineOf pc with
    | none => .next s
    | some i =>
      match fetchLine s i (lineOf pc) with
      | .ok (s1, _) => .next s1
      | .error f => .next (if f == lineAway then askLine s i else s)

/-- GATHERING_SELECT: a core that has no gathering chooses one (R140). -/
def execGatheringSelect (core : Nat) (s : State) : Host.Outcome State Fault Refusal :=
  if 256 ≤ core then .fault .noSuchUnit
  else if !(coreOf s core).gath.isEmpty || (coreOf s core).gated then .next s
  else match choose s core with
    | .ready s1 g => .next (modCore s1 core fun x => { x with gath := g })
    | .absent _ | .idle => .next s

/-! ### WATCHDOG_EXPIRY (R157) -/

/-- Whether a workgroup's watchdog has reached its limit. -/
def watchdogUp (w : Workgroup) : Bool :=
  w.st == .running && !w.preempt && w.wdogLimit != 0 && w.wdogLimit * 1024 ≤ w.wdog

/-- WATCHDOG_EXPIRY: the workgroup stops, and the context hears of it; the record names W and the core, and of the parts that
belong to a lane nothing is stated (log entry 10). -/
def execWatchdogExpiry (wg : Nat) (s : State) : Host.Outcome State Fault Refusal :=
  let w := wgOf s wg
  if watchdogUp w then
    let (x, s1) := drawFree s
    let (pc, s2) := drawFree s1
    let (addr, s3) := drawFree s2
    let v := x.toNat
    .next (stopWg (report s3 w.context
      { cause := cWatchdog.toNat, sub := v % 256, source := 0, core := w.core, lane := v / 2 ^ 16 % 32,
        quire := v / 2 ^ 24 % 8, word1 := pc.toNat, addr := addr.toNat, w := w.w }) wg cWatchdog)
  else .next s

/-! ### ECC_ERROR (R258, R289) -/

/-- An element added to a list once. -/
def addOnce {α : Type} [BEq α] (xs : List α) (x : α) : List α := if xs.contains x then xs else x :: xs

/-- The registers that hold bits of a thread. -/
def threadReg (r : Reg) : Bool :=
  match r with
  | .g n => n != 0
  | .v _ | .xv _ => true
  | _ => false

/-- ECC_ERROR: a correctable error is corrected in place; an uncorrectable one poisons a sector, marks a register or a latch
until it is read or written, or sets a tile's error flag. -/
def execEccError (t : EccTarget) (s : State) : Host.Outcome State Fault Refusal :=
  match t with
  | .correctable => .next s
  | .sector loc => .next (addPoison s (sectorOf loc))
  | .reg tid r =>
    if (tget s.threads tid).isSome && threadReg r then
      .next (modThr s tid fun x => { x with eccRegs := addOnce x.eccRegs r })
    else .next s
  | .latch tid k =>
    if (tget s.threads tid).isSome then .next (modThr s tid fun x => { x with eccLatches := addOnce x.eccLatches k.toNat })
    else .next s
  | .tile core r =>
    if 256 ≤ core then .fault .noSuchUnit
    else match r with
      | .t n => .next (modMx s core fun x => { x with err := addOnce x.err n.toNat })
      | .a n => .next (modMx s core fun x => { x with err := addOnce x.err (16 + n.toNat) })
      | _ => .next s

/-! ### UNASSIGNED_OPCODE (R88, R91) -/

/-- A word of an opcode that is not assigned: ILLEGAL_OP at decode for every thread of the gathering. -/
def execUnassignedOpcode (_w : Code) (s : State) : Host.Outcome State Fault Refusal := trapAll s (decodeTrap cIllegalOp)

end Sys2Proof.Machine
end

