-- ==== Sys2Proof/Machine/Place.lean ====
section
/-! DEFINITION. Placing workgroups: bind and launch records, the conditions of placement, arbitration, the start of a
workgroup, and requests for pre-emption (R118 to R120, R122 to R130, R267, R270, R317, R510). -/

namespace Sys2Proof.Machine

/-! ### The launch record (R118, R119) -/

def launchQuires (ws : List Word) : Nat := bits (cfgWord ws 0) 19 16
def launchRole (ws : List Word) (s : Nat) : Nat := bits (cfgWord ws 0) (21 + 2 * s) (20 + 2 * s)
def launchEntry (ws : List Word) : Nat := cfgWord ws 1 % 2 ^ 56
def launchGx (ws : List Word) : Nat := bits (cfgWord ws 2) 15 0
def launchGy (ws : List Word) : Nat := bits (cfgWord ws 2) 31 16
def launchGz (ws : List Word) : Nat := bits (cfgWord ws 2) 47 32
def launchArgs (ws : List Word) : Nat := cfgWord ws 3 % 2 ^ 56
def launchSeed (ws : List Word) : Nat := bits (cfgWord ws 4) 31 0
def launchWdog (ws : List Word) : Nat := bits (cfgWord ws 4) 55 32
def launchCarrel (ws : List Word) : Nat := bits (cfgWord ws 5) 7 0
def launchPrio (ws : List Word) : Nat := bits (cfgWord ws 5) 11 8
def launchContext (ws : List Word) : Nat := bits (cfgWord ws 8) 11 0

/-- A reserved field of a launch record is not zero. -/
def launchRz (ws : List Word) : Bool :=
  let w (i : Nat) : Nat := cfgWord ws i
  bits (w 0) 63 36 != 0 || [1, 3, 4, 6].any (fun i => bits (w i) 63 56 != 0) || bits (w 2) 63 48 != 0 ||
  bits (w 5) 63 40 != 0 || bits (w 7) 63 28 != 0 || bit (w 7) 14 || bits (w 8) 63 12 != 0 ||
  (List.range 7).any fun i => w (9 + i) != 0

/-- A record that is consumed and not run (R119). -/
def launchBad (ws : List Word) : Bool :=
  launchRz ws || launchQuires ws == 0 || 8 < launchQuires ws || launchGx ws == 0 || launchGy ws == 0 || launchGz ws == 0 ||
  launchWdog ws == 0 || launchPrio ws == 0 || 11 < launchPrio ws || 192 < launchCarrel ws || launchContext ws == 0

/-- Role codes of R118. -/
def roleOf (n : Nat) : Role :=
  match n with
  | 0 => .general
  | 1 => .copy
  | 2 => .matrix
  | _ => .epilogue
def roleCode (r : Role) : Nat :=
  match r with
  | .general => 0
  | .copy => 1
  | .matrix => 2
  | .epilogue => 3

/-- The roles of a workgroup's quires. -/
def launchRoles (ws : List Word) : List Role := (List.range (launchQuires ws)).map fun s => roleOf (launchRole ws s)

/-- Carrel units of a workgroup: its default copy ring takes one at least (R317). -/
def launchUnits (ws : List Word) : Nat := max 1 (launchCarrel ws)

/-- A role that owns the matrix engine (R267). -/
def ownsEngine (rs : List Role) : Bool := rs.any fun r => r == .matrix || r == .epilogue

/-- Coordinates of workgroup W. -/
def coordOf (ws : List Word) (w : Nat) : Nat × Nat × Nat :=
  (w % launchGx ws, w / launchGx ws % launchGy ws, w / launchGx ws / launchGy ws)

/-! ### The bind record (R122) -/

def bindMask (ws : List Word) : Nat := bits (cfgWord ws 0) 13 10
def bindPrio (ws : List Word) : Nat := bits (cfgWord ws 0) 7 4
def bindContext (ws : List Word) : Nat := bits (cfgWord ws 0) 25 14
def bindAsid (ws : List Word) : Nat := bits (cfgWord ws 0) 41 26
def bindDet (ws : List Word) : Bool := bit (cfgWord ws 0) 9
def bindPriv (ws : List Word) : Bool := bit (cfgWord ws 0) 8
def bindCores (ws : List Word) : Nat := cfgWord ws 2
/-- The budget of role r: QMAX [3:0], g code [7:4], v code [10:8]. -/
def bindBudget (ws : List Word) (r : Nat) : Nat := bits (cfgWord ws 3) (15 + 16 * r) (16 * r)

/-! ### Homes (R124) -/

/-- The placement hash of workgroup W. -/
def placeHash (launch : List Word) (w : Nat) : Nat :=
  let (x, y, z) := coordOf launch w
  (x * 0x9E3B + y * 0x85EB + z * 0xC2B3) % 2 ^ 16

/-- The dies of a mask. -/
def maskDies (m : Nat) : List Nat := (List.range 4).filter fun d => bit m d

/-- The home die of workgroup W. -/
def homeDieOf (bind launch : List Word) (w : Nat) : Nat :=
  let ds := maskDies (bindMask bind)
  ds.getD (placeHash launch w % max 1 ds.length) 0

/-- The home quadrant of workgroup W. -/
def homeQuadrant (launch : List Word) (w : Nat) : Nat := placeHash launch w / 2 ^ 8 % 4

/-! ### Workgroups that have ended (R121, R157, R293) -/

/-- A ring of a workgroup holds entries that its engine has not read in. -/
def ringPending (s : State) (r : Ring) : Bool :=
  !r.faulted && (let (asid, priv) := ringAsid s r.wg
    match ringPlaceOf s asid priv r.loc with
    | some (s1, p) => hdrPub s1 p.loc != hdrTaken s1 p.loc
    | none => false)

/-- Work that a workgroup has published or issued and that has not completed. -/
def wgBusy (s : State) (k : Nat) : Bool :=
  ((coreOf s (wgOf s k).core).mx.queue.any fun it => it.tids.any fun i => tidWg i == k) ||
  s.quads.any fun q =>
    (q.2.slips.any fun x => x.wg == k) || (q.2.chans.any fun c => c.2.any fun x => x.wg == k) ||
    (q.2.rings.any fun r => r.wg == k && ringPending s r) || q.2.chains.any fun r => r.wg == k && ringPending s r

/-- Every thread of a workgroup has exited. -/
def allExited (s : State) (k : Nat) : Bool := (threadsOfWg s k).all fun i => (thr s i).exited

/-- A workgroup has ended: stopped or exited, with nothing of its work left. -/
def wgOver (s : State) (e : Nat × Workgroup) : Bool :=
  (e.2.st == .stopped || (e.2.st == .running && allExited s e.1)) && !wgBusy s e.1

/-! ### The conditions of placement (R125, R134, R267, R510) -/

/-- The workgroups that take up room on a core. -/
def residents (s : State) (c : Nat) : List (Nat × Workgroup) :=
  s.wgs.filter fun e => e.2.core == c && (e.2.st == .running || e.2.st == .stopped) && !wgOver s e

/-- A core's engine without an owner: its catalog is zero from the owner's end on (R278). -/
def unowned (s : State) (e : Nat × Core) : Nat × Core :=
  if !e.2.mx.catalog.isEmpty && !((residents s e.1).any fun r => r.2.owner) then
    (e.1, { e.2 with mx := { e.2.mx with catalog := [] } })
  else e

/-- The catalogs whose owner has ended are zero (R278). -/
def sweepCatalogs (s : State) : State := { s with cores := s.cores.map (unowned s) }

/-- How many of some quires have a role. -/
def roleCount (rs : List Role) (r : Role) : Nat := (rs.filter (· == r)).length

/-- A run of carrel units that no resident uses. -/
def unitsFree (rs : List (Nat × Workgroup)) (base units : Nat) : Bool :=
  base + units ≤ 192 && rs.all fun e => !overlap base units e.2.base e.2.units

/-- What a workgroup asks of a core: its roles, units, mode, and the place of its region when that is fixed. -/
structure Needs where
  roles : List Role
  units : Nat
  det : Bool
  at_ : Option Nat
  deriving DecidableEq, Repr

/-- The place of its region on a core: the lowest that is free (log entry 11). -/
def regionPlace (rs : List (Nat × Workgroup)) (n : Needs) : Option Nat :=
  match n.at_ with
  | some b => if unitsFree rs b n.units then some b else none
  | none => (List.range 192).find? fun b => unitsFree rs b n.units

/-- Whether a core can take a workgroup of a binding, and where its carrel region would lie. -/
def qualifies (s : State) (die : Nat) (bind : List Word) (n : Needs) (c : Nat) : Option Nat :=
  let rs := residents s c
  let quires := rs.flatMap fun e => e.2.roles
  if dieOfCore c == die && bit (bindCores bind) (c % 64) && quires.length + n.roles.length ≤ 8 &&
      ([Role.general, .copy, .matrix, .epilogue].all fun r =>
        roleCount quires r + roleCount n.roles r ≤ bindBudget bind (roleCode r) % 16) &&
      (!n.det || rs.isEmpty) && !(rs.any fun e => e.2.det) &&
      (!ownsEngine n.roles || (!(rs.any fun e => e.2.owner) && (slipOn s c).isNone)) then
    regionPlace rs n
  else none

/-- The core that R125 chooses: the lowest that qualifies in the home quadrant, else the lowest that qualifies. -/
def pickCore (s : State) (die : Nat) (bind : List Word) (n : Needs) (quadrant : Nat) : Option Nat :=
  let cs := (List.range 64).map fun i => 64 * die + i
  let home := cs.filter fun c => c % 64 / 16 == quadrant
  match home.find? fun c => (qualifies s die bind n c).isSome with
  | some c => some c
  | none => cs.find? fun c => (qualifies s die bind n c).isSome

/-! ### The carrel image record (R510) -/

/-- The dispatcher's party for a binding (R23). -/
def bindParty (die : Nat) (bind : List Word) : Party := engineParty none die (bindAsid bind) (bindPriv bind)

/-- The dispatcher of a die as it reads the image records of a binding's kernels. -/
def recordReader (die : Nat) (bind : List Word) (line : Nat) : Owner :=
  .header (592 + die) (.global (bindContext bind) (BitVec.ofNat 64 line))

/-- The line before an entry line; none when its page does not translate. -/
def recordPlace (s : State) (die : Nat) (bind launch : List Word) : Option (Nat × State × Place) :=
  let line := launchEntry launch / 64 * 64
  if line == 0 then none
  else match placeOf s (bindParty die bind) .global (line - 64) 64 .rd with
    | .error _ => none
    | .ok (s1, p) => some (line - 64, s1, p)

/-- The carrel image record before an entry line: image address, image length, section length. -/
def imageRecord (s : State) (die : Nat) (bind launch : List Word) : Option (Nat × Nat × Nat) :=
  (recordPlace s die bind launch).bind fun r =>
    let bytes := if r.2.2.remote then (farLine r.2.1 (recordReader die bind r.1)).toOption.map Prod.snd
      else some (readBytes r.2.1 r.2.2.loc 64)
    bytes.bind fun bs =>
      let ws : List Word := (List.range 8).map fun i => BitVec.ofNat 64 (leNat ((bs.drop (8 * i)).take 8))
      if cfgWord ws 7 / 2 ^ 32 == 0x6A55 * 2 ^ 9 then some (cfgWord ws 0, cfgWord ws 1, cfgWord ws 2) else none

/-- The read of an image record on another module, which a placement waits for. -/
def recordAway (s : State) (die : Nat) (bind launch : List Word) : Option State :=
  match recordPlace s die bind launch with
  | none => none
  | some (line, s1, p) =>
    if !p.remote then none
    else match farLine s1 (recordReader die bind line) with
      | .error (0, _) => some (sendAsk die (recordReader die bind line) (bindContext bind) p.range s1 (p.pa, 2))
      | _ => none

/-- The image record's section passes the workgroup's region: the launch is refused. -/
def imageRefused (launch : List Word) (r : Option (Nat × Nat × Nat)) : Bool :=
  match r with
  | some (_, _, n) => launchUnits launch * 4096 < 0x1000 + n
  | none => false

/-- What a new workgroup of a binding asks of a core. -/
def needsOf (s : State) (die : Nat) (b : BindSlot) : Needs :=
  { roles := launchRoles b.launch, units := launchUnits b.launch, det := bindDet b.words
    at_ := (imageRecord s die b.words b.launch).map fun _ => 0 }

/-! ### Arbitration (R128) -/

/-- The saved workgroup W of a binding on a die (R131). -/
def savedWg (s : State) (die slot w : Nat) : Option (Nat × Workgroup) :=
  s.wgs.find? fun e => e.2.st == .saved && e.2.die == die && e.2.slot == slot && e.2.w == w

/-- What the head of a share asks of a core: a saved workgroup asks for its own region again (log entry 11). -/
def headNeeds (s : State) (die slot : Nat) (b : BindSlot) (w : Nat) : Needs :=
  match savedWg s die slot w with
  | some e => { roles := e.2.roles, units := e.2.units, det := e.2.det, at_ := some e.2.base }
  | none => needsOf s die b

/-- Whether the head of a binding's share can go to a core, or its launch must be refused. -/
def headFits (s : State) (die slot : Nat) (b : BindSlot) (c : Nat) : Bool :=
  match b.share with
  | [] => false
  | w :: _ =>
    (qualifies s die b.words (headNeeds s die slot b w) c).isSome ||
      ((savedWg s die slot w).isNone && imageRefused b.launch (imageRecord s die b.words b.launch))

/-- The candidates of a level for a core. -/
def candidates (s : State) (die c p : Nat) : List (Nat × BindSlot) :=
  (dieOf s die).slots.filter fun e => bindPrio e.2.words == p && headFits s die e.1 e.2 c

/-- Slots in order after a level's pointer. -/
def slotOrder (s : State) (die p : Nat) (cs : List (Nat × BindSlot)) : List (Nat × BindSlot) :=
  match tget (dieOf s die).rr p with
  | none => cs
  | some last => after Prod.fst last cs

/-- The winner among candidates: the largest AGE, the first in slot order among equals. -/
def oldest (cs : List (Nat × BindSlot)) : Option (Nat × BindSlot) :=
  match cs with
  | [] => none
  | c :: rest => some (rest.foldl (fun b x => if b.2.age < x.2.age then x else b) c)

/-- The binding that a freed core goes to: the one whose request for a pre-emption an exit has met (R132). -/
def requesterOf (s : State) (die c : Nat) : Option (Nat × BindSlot) :=
  (coreOf s c).requester.bind fun k =>
    (dieOf s die).slots.find? fun e => e.1 == k && !e.2.preemptsFor.isEmpty && headFits s die e.1 e.2 c

/-- The binding that may place on a core: its level, the candidates of that level and the winner. -/
def arbitrate (s : State) (die c : Nat) : Option (Nat × List (Nat × BindSlot) × (Nat × BindSlot)) :=
  match requesterOf s die c with
  | some b => some (bindPrio b.2.words, candidates s die c (bindPrio b.2.words), b)
  | none =>
    (List.range 12).findSome? fun p =>
      let cs := candidates s die c p
      (oldest (slotOrder s die p cs)).map fun b => (p, cs, b)

/-- A bind slot changed. -/
def modSlot (s : State) (die slot : Nat) (f : BindSlot → BindSlot) : State :=
  match tget (dieOf s die).slots slot with
  | none => s
  | some b => modDie s die fun d => { d with slots := tset d.slots slot (f b) }

/-- AGE and RR after a choice; the winner's share loses its head. -/
def chosen (s : State) (die p : Nat) (cs : List (Nat × BindSlot)) (b : Nat × BindSlot) : State :=
  let s1 := cs.foldl (fun st c => if c.1 == b.1 then st else modSlot st die c.1 fun x => { x with age := min (x.age + 1) 255 }) s
  let w := b.2.share.headD 0
  let s2 := modSlot s1 die b.1 fun x =>
    { x with age := 0, share := x.share.tail, preemptsFor := x.preemptsFor.filter (· != w) }
  modDie s2 die fun d => { d with rr := tset d.rr p b.1 }

/-! ### Starting a workgroup (R62, R120, R235, R270, R317, R510) -/

/-- SR_SEED of a thread (R120). -/
def seedOf (seed w s lane : Nat) : BitVec 32 :=
  let v := BitVec.ofNat 32 seed ^^^ BitVec.ofNat 32 (w * 0x9E3779B9) ^^^ BitVec.ofNat 32 ((s * 32 + lane) * 0x85EBCA6B)
  if v == 0 then 1 else v

/-- A thread as the dispatcher starts it. -/
def startThread (core wg w base : Nat) (launch : List Word) (s lane : Nat) : Thread :=
  let (x, y, z) := coordOf launch w
  { blankThread with
    core, wg, quire := s, lane, exited := false
    pc := BitVec.ofNat 56 (launchEntry launch)
    g := [(1, BitVec.ofNat 64 (launchArgs launch)), (2, BitVec.ofNat 64 w),
          (3, BitVec.ofNat 64 (z * 2 ^ 32 + y * 2 ^ 16 + x)), (4, BitVec.ofNat 64 (s * 32 + lane))]
    srSeed := seedOf (launchSeed launch) w s lane
    cqhdr := BitVec.ofNat 14 (base * 64) }

/-- A workgroup as the dispatcher starts it. -/
def startedWg (s : State) (die slot w core base : Nat) (b : BindSlot) : Workgroup :=
  let (x, y, z) := coordOf b.launch w
  { blankWg with
    die, slot, w, x, y, z, core, base
    units := launchUnits b.launch
    roles := launchRoles b.launch
    gcount := (List.range 4).map fun r => 8 * (bits (bindBudget b.words r) 7 4 + 1)
    vcount := (List.range 4).map fun r => 4 * (bits (bindBudget b.words r) 10 8 + 1)
    context := bindContext b.words
    asid := BitVec.ofNat 16 (bindAsid b.words)
    priv := bindPriv b.words
    prio := bindPrio b.words
    det := bindDet b.words
    wdogLimit := launchWdog b.launch
    pbound := cfgWord b.words 4 % 2 ^ 16
    owner := ownsEngine (launchRoles b.launch)
    st := .running
    order := s.nextWg }

/-- Cells without content. -/
def clearCells (s : State) (l n : Nat) : State :=
  { s with
    mem := s.mem.filter fun c => !(l ≤ c.1 && c.1 < l + n)
    poison := s.poison.filter fun sec => !(l / 32 ≤ sec && sec < (l + n) / 32) }

/-- The matrix engine as a new owner finds it (R270). -/
def freshEngine (s : State) (c : Nat) : State :=
  modMx (clearCells (clearCells s (ttileLoc c 0 0) (16 * 10240)) (accumLoc c 0) (8 * 65536)) c fun _ => Matrix.reset

/-- The default copy ring (R317). -/
def defaultRing (s : State) (c base : Nat) : State :=
  let r := 4096 * base
  writeBytes s (carrelLoc c r)
    (leBytes 8 0 ++ leBytes 8 0 ++ leBytes 8 0 ++ leBytes 8 (r + 0x400) ++ leBytes 8 6 ++ List.replicate 24 0)

/-- A read of the core's fetch unit in an address space. -/
def fetchOf (c asid : Nat) (o : Owner) : Bool :=
  match o with
  | .header k (.global a _) => k == 4096 + c && a == asid
  | _ => false

/-- Lines of an address space leave a core's instruction cache, those on their way from other modules with them (R62). -/
def dropLines (s : State) (c asid : Nat) : State :=
  let s1 := modCore s c fun x => { x with icache := x.icache.filter fun e => e.1 / 2 ^ 56 != asid }
  let f := s1.fabric
  if f.asks.any fun a => fetchOf c asid a.owner then
    { s1 with fabric := { f with asks := f.asks.filter fun a => !fetchOf c asid a.owner } }
  else s1

/-- A record of the dispatcher (R252). -/
def dispatchNote (s : State) (ctx core w : Nat) (f : FaultCode) (addr : Nat) : State :=
  reportNote s ctx { cause := f.1, sub := f.2, source := 4, core := some core, word1 := none, addr := some addr, w := some w }

/-- The dispatcher of a die as it reads for a core. -/
def imageReader (die core : Nat) (bind : List Word) : Writer :=
  { die, flow := 0, owner := .header (70 + core) (.global (bindContext bind) 0), context := bindContext bind }

/-- The image's bytes. -/
def imageBytes (s : State) (die core : Nat) (bind : List Word) (r : Nat × Nat × Nat) :
    Except EngStop (State × List Byte × List Bool) :=
  match spansOf s (bindParty die bind) .global .rd r.1 (min r.2.1 r.2.2) with
  | .error e => .error (.fault e)
  | .ok (s1, xs) => readSpans s1 (imageReader die core bind) xs

/-- The image copied to carrel offset 0x1000 and the rest of the section zeroed; a read that faults stops the workgroup
(log entry 12). -/
def copyImage (s : State) (die core wg : Nat) (bind : List Word) (r : Nat × Nat × Nat) : State :=
  let w := wgOf s wg
  match imageBytes s die core bind r with
  | .error (.fault e) => haltNow (dispatchNote s w.context core w.w e.1 e.2) wg (BitVec.ofNat 8 e.1.1)
  | .error (.waits s1) => s1
  | .ok (s2, bs, bad) =>
    let l := carrelLoc core 0x1000
    dropAsks (spreadPoison (writeBytes s2 l (bs ++ List.replicate (r.2.2 - bs.length) 0)) l bad) (imageReader die core bind).owner

/-- The reads of an image on another module, whose answers a placement waits for; none when the image is here. -/
def imageAway (s : State) (die core : Nat) (b : BindSlot) : Option State :=
  match (imageRecord s die b.words b.launch).map (imageBytes s die core b.words) with
  | some (.error (.waits s1)) => some s1
  | _ => none

/-- The entry slot's TARGET bit (R81): a clear one is reported, and the workgroup does not run. -/
def checkEntry (s : State) (core wg : Nat) (launch : List Word) : State :=
  let entry := launchEntry launch
  let w := wgOf s wg
  if w.st == .running && targetClear s (tidOf wg 0 0) (BitVec.ofNat 56 entry) then
    haltNow (dispatchNote s w.context core w.w (cBadTarget.toNat, none) entry) wg cBadTarget
  else s

/-- A workgroup placed on a core. -/
def startWg (s : State) (die slot w core base : Nat) (b : BindSlot) : State :=
  let wg := s.nextWg
  let s1 := if ownsEngine (launchRoles b.launch) then freshEngine s core else s
  let s2 := setWg { s1 with nextWg := wg + 1 } wg (startedWg s1 die slot w core base b)
  let s3 := (List.range (launchQuires b.launch)).foldl (fun st q =>
    (List.range 32).foldl (fun st l => setThr st (tidOf wg q l) (startThread core wg w base b.launch q l)) st) s2
  let s4 := dropLines (defaultRing s3 core base) core (bindAsid b.words)
  let s5 := match imageRecord s4 die b.words b.launch with
    | some r => copyImage s4 die core wg b.words r
    | none => s4
  let s6 := match recordPlace s5 die b.words b.launch with
    | some (line, _, p) => if p.remote then dropAsks s5 (recordReader die b.words line) else s5
    | none => s5
  noteWake (modCore (checkEntry s6 core wg b.launch) core fun x => { x with requester := none }) core (7, 0, 0)

/-- A launch refused at placement: no share of it is left on any die (R510). -/
def refuseLaunch (s : State) (slot : Nat) (b : BindSlot) : State :=
  (maskDies (bindMask b.words)).foldl (fun st d => modSlot st d slot fun x => { x with share := [], refused := true }) s

/-- WORKGROUP_PLACE: the distributor of a core's die arbitrates for it and places the winner's first workgroup, when this is
the core that R125 chooses; a saved workgroup waits for its restore. -/
def execWorkgroupPlace (core : Nat) (s : State) : Host.Outcome State Fault Refusal :=
  let die := dieOfCore core
  if 256 ≤ core then .fault .noSuchUnit
  else match arbitrate s die core with
    | none => .next s
    | some (p, cs, b) =>
      let w := b.2.share.headD 0
      let n := needsOf s die b.2
      if (savedWg s die b.1 w).isSome then .next s
      else if let some s1 := recordAway s die b.2.words b.2.launch then .next s1
      else if imageRefused b.2.launch (imageRecord s die b.2.words b.2.launch) then .next (refuseLaunch s b.1 b.2)
      else if pickCore s die b.2.words n (homeQuadrant b.2.launch w) != some core then .next s
      else match qualifies s die b.2.words n core with
        | none => .next s
        | some base =>
          match imageAway s die core b.2 with
          | some s1 => .next s1
          | none => .next (startWg (chosen s die p cs b) die b.1 w core base b.2)

/-! ### PREEMPTION_REQUEST and FORCED_SAVE (R129, R130) -/

/-- A pre-emption is in progress on a core: none is once the last quire of its workgroup has exited (R132). -/
def preempting (s : State) (c : Nat) : Bool :=
  s.wgs.any fun e => e.2.core == c && e.2.st == .running && e.2.preempt && !allExited s e.1

/-- The workgroups that a binding may pre-empt. -/
def victims (s : State) (die : Nat) (b : BindSlot) : List (Nat × Workgroup) :=
  s.wgs.filter fun e =>
    e.2.st == .running && dieOfCore e.2.core == die && bit (bindCores b.words) (e.2.core % 64) &&
    bindPrio b.words < e.2.prio && !preempting s e.2.core && !wgOver s e

/-- The victim: the highest level number, then the most recently placed. -/
def worstOf (es : List (Nat × Workgroup)) : Option (Nat × Workgroup) :=
  match es with
  | [] => none
  | e :: rest =>
    some (rest.foldl (fun b x =>
      if b.2.prio < x.2.prio || (b.2.prio == x.2.prio && b.2.order < x.2.order) then x else b) e)

/-- The waiting workgroup of a share that triggers: none while some core can take the share's head. -/
def trigger (s : State) (die slot : Nat) (b : BindSlot) : Option Nat :=
  match b.share with
  | [] => none
  | w :: _ =>
    if (List.range 64).any fun i => (qualifies s die b.words (headNeeds s die slot b w) (64 * die + i)).isSome then none
    else b.share.find? fun x => !b.preemptsFor.contains x

/-- The quires that a request stops at their next boundary: all but those of the matrix role. -/
def boundaryQuires (rs : List Role) : List Nat := (List.range rs.length).filter fun q => rs.getD q .general != .matrix

/-- The quires that a request stops at once: in deterministic mode a workgroup stops as a whole, and one with a quire of the
matrix role runs on as a whole (R264; log entry 88). -/
def stopsAtOnce (w : Workgroup) : List Nat := if w.det && w.roles.contains .matrix then [] else boundaryQuires w.roles

/-- A request of a bind slot that reaches a workgroup's core. -/
def requestPreempt (s : State) (slot wg : Nat) : State :=
  let s1 := modWg s wg fun w => { w with preempt := true, preemptAt := s.clock, atPoint := stopsAtOnce w }
  noteWake (modCore s1 (wgOf s wg).core fun x => { x with requester := some slot }) (wgOf s wg).core (6, 0, 0)

/-- PREEMPTION_REQUEST: a binding that no core can take pre-empts a workgroup of a higher level number on a core. -/
def execPreemptionRequest (die slot core : Nat) (s : State) : Host.Outcome State Fault Refusal :=
  if 4 ≤ die || 32 ≤ slot || 256 ≤ core then .fault .noSuchUnit
  else match tget (dieOf s die).slots slot with
    | none => .next s
    | some b =>
      match trigger s die slot b, worstOf (victims s die b) with
      | some w, some v =>
        if v.2.core == core then
          .next (requestPreempt (modSlot s die slot fun x => { x with preemptsFor := x.preemptsFor ++ [w] }) slot v.1)
        else .next s
      | _, _ => .next s

/-- Core clocks in a microsecond at 2.25 GHz (log entry 6). -/
def clocksPerUs : Nat := 2250

/-- FORCED_SAVE: PBOUND after the request, the matrix quires that have not reached a PPOINT stop at their next boundary. -/
def execForcedSave (wg : Nat) (s : State) : Host.Outcome State Fault Refusal :=
  let w := wgOf s wg
  let all := List.range w.roles.length
  if w.st == .running && w.preempt && w.preemptAt + w.pbound * clocksPerUs ≤ s.clock && !(all.all w.atPoint.contains) then
    .next (setWg s wg { w with atPoint := all, forced := true })
  else .next s

end Sys2Proof.Machine
end

