-- ==== Sys2Proof/Machine/Save.lean ====
section
/-! DEFINITION. Saving a pre-empted workgroup and restoring it: the context save area, the replay block, the matrix block,
the refill of the folio (R130 to R132, R247 to R251, R276, R288 to R291, R456). -/

namespace Sys2Proof.Machine

/-! ### The layout of the save area (R248) -/

/-- g and v counts of a quire's role. -/
def regCounts (w : Workgroup) (quire : Nat) : Nat × Nat :=
  let r := roleCode (w.roles.getD quire .general)
  (w.gcount.getD r 128, w.vcount.getD r 32)

/-- Bytes of a quire's thread block. -/
def blockSize (w : Workgroup) (quire : Nat) : Nat := 512 + 64 * ((regCounts w quire).1 + (regCounts w quire).2 + 8)

/-- Offset of a quire's first thread block. -/
def blocksFrom (w : Workgroup) (quire : Nat) : Nat := 512 + ((List.range quire).map fun q => 32 * blockSize w q).sum

/-- Up to the next 4 KiB boundary. -/
def pageUp (n : Nat) : Nat := (n + 4095) / 4096 * 4096

def carrelPart (w : Workgroup) : Nat := pageUp (blocksFrom w w.roles.length)
def matrixPart (w : Workgroup) : Nat := carrelPart w + w.units * 4096
def replayPart (w : Workgroup) : Nat := matrixPart w + if w.owner then 676 * 1024 else 0

/-! ### Saving threads -/

/-- A wait that is saved as waiting: not a hold, and not one of codes 10 to 13 (R249). -/
def savedWait (w : Wait) : Bool := w.code < 10

/-- The status word of a thread block. -/
def threadStatusWord (s : State) (tid : Nat) : Nat :=
  let t := thr s tid
  let waiting := match t.wait with
    | some w => if savedWait w then 2 + w.code * 4 else 0
    | none => 0
  let log := match txOf s tid with
    | some x => x.logBase
    | none => 0
  (if t.exited then 1 else 0) + waiting + txStatus s tid * 2 ^ 8 + log * 2 ^ 32

/-- The system registers of a thread block, in order. -/
def blockSelectors : List Nat := [0x022, 0x020, 0x021, 0x001, 0x002, 0x003, 0x040, 0x041]

/-- A thread block. -/
def threadBlock (s : State) (tid : Nat) : List Byte :=
  let t := thr s tid
  let n := regCounts (wgOf s t.wg) t.quire
  let (a, b, paired) := match t.wait with
    | some w => if savedWait w then (w.a.toNat, w.b.toNat, w.paired) else (0, 0, false)
    | none => (0, 0, false)
  frameBytes t t.pc paired ++ (blockSelectors.flatMap fun sel => leBytes 8 (readSys s tid sel)) ++
    leBytes 8 (threadStatusWord s tid) ++ leBytes 8 a ++ leBytes 8 b ++ List.replicate 168 0 ++
    ((List.range n.1).flatMap fun i => regSlot t (.g (BitVec.ofNat 7 i))) ++
    ((List.range n.2).flatMap fun i => regSlot t (.v (BitVec.ofNat 5 i))) ++
    (List.range 8).flatMap fun i => regSlot t (.xv (BitVec.ofNat 3 i))

/-- The header of the area. -/
def areaHeader (w : Workgroup) (live : Nat) : List Byte :=
  leBytes 8 (w.roles.length * 2 ^ 40 + live * 2 ^ 16 + (if w.det then 4 else 0) + (if w.forced then 2 else 0) + 1) ++
  leBytes 8 w.w ++ leBytes 8 w.wdog ++ leBytes 8 (if w.det then w.retired.toNat else 0) ++
  leBytes 8 (w.turn % 8 * 2 ^ 8 + w.core) ++ List.replicate 216 0

/-- The named barriers of the area. -/
def areaBarriers (w : Workgroup) : List Byte :=
  (List.range 16).flatMap fun n =>
    let x := nbarOf w n
    leBytes 8 (x.phase.toNat + x.arrived % 512 * 2 ^ 16 + x.expected % 512 * 2 ^ 25)

/-- The threads of a quire, by lane. -/
def quireTids (wg q : Nat) : List Nat := (List.range 32).map (tidOf wg q)

/-! ### Saving the matrix engine (R288 to R291) -/

/-- The tiles saved: all after a forced save, or when no quire is of the matrix role (R290). -/
def liveTiles (w : Workgroup) : Nat :=
  if !w.owner then 0 else if w.forced || !w.roles.contains .matrix then 2 ^ 24 - 1 else w.live.toNat

/-- Writes bytes into the area, their sectors poisoned when they come from a flagged tile. -/
def putTile (s : State) (l : Nat) (bs : List Byte) (bad : Bool) : State :=
  let s1 := writeBytes s l bs
  if bad then (sectorsOf l bs.length).foldl addPoison s1 else s1

/-- A t-tile saved. -/
def saveT (s : State) (c l n : Nat) : State :=
  putTile s (l + 10240 * n) (readBytes s (ttileLoc c n 0) 10240) ((coreOf s c).mx.err.contains n)

/-- An a-tile saved as a drain reads it; its marks are cleared. -/
def saveA (s : State) (c l n : Nat) : State :=
  let src := accumLoc c (65536 * n)
  let bs := (List.range 16384).flatMap fun k => leBytes 4 (drainCode s src (marksAt s c n) k)
  let s1 := putTile s (l + 163840 + 65536 * n) bs ((coreOf s c).mx.err.contains (16 + n))
  modMx s1 c fun q => { q with marks := tdel q.marks n }

/-- The record area at +672 KiB (R291). -/
def recordArea (s : State) (c : Nat) : List Byte :=
  let m := (coreOf s c).mx
  ((List.range 16).flatMap fun n => leBytes 8 (tgetD m.ttag n 0).toNat) ++
  ((List.range 8).flatMap fun _ => leBytes 8 0x011) ++
  ((List.range 64).flatMap fun e => leBytes 8 (catOf s c e)) ++
  ((List.range 8).flatMap fun i => leBytes 8 (cfgWord m.epi i)) ++
  ((List.range 8).flatMap fun i => leBytes 8 (cfgWord m.route i)) ++
  ((List.range 16).flatMap fun i => (List.range 4).flatMap fun j => leBytes 8 (cfgWord (tgetD m.fills i []) j)) ++
  List.replicate 2752 0

/-- The matrix block written at a cell. -/
def saveMatrix (s : State) (c l live : Nat) : State :=
  let s1 := (List.range 16).foldl (fun st n => if bit live n then saveT st c l n else st) s
  let s2 := (List.range 8).foldl (fun st n => if bit live (16 + n) then saveA st c l n else st) s1
  writeBytes s2 (l + 688128) (recordArea s2 c)

/-! ### Replay records (R250) -/

/-- A replay record's 32 bytes. -/
def replayRecord (engine entry ring state csize chunk faddr cause : Nat) : List Byte :=
  leBytes 8 (entry % 2 ^ 48 + engine * 2 ^ 48) ++ leBytes 8 (ring % 2 ^ 56) ++
  leBytes 8 (chunk % 2 ^ 32 + csize * 2 ^ 32 + state * 2 ^ 48) ++ leBytes 8 (cause + faddr % 2 ^ 56 * 2 ^ 8)

/-- The record of a copy entry: chunks of 4 KiB (R322, R326). -/
def copyRecord (x : CopyRun) : List Byte :=
  match x.st with
  | .parked cause _ addr _ => replayRecord 0 x.k x.hdr 2 64 x.chunk addr.toNat cause.toNat
  | _ => replayRecord 0 x.k x.hdr 3 64 x.chunk 0 0

/-- The address of a chain's header: a global address, or an rcarrel one. -/
def chainAddr (r : RingLoc) : Nat :=
  match r with
  | .carrel c off => c % 64 * 2 ^ 20 + off
  | .global _ va => va.toNat

/-- The record of a slip. -/
def slipRecord (x : Slip) : List Byte :=
  match x.st with
  | .parked cause addr _ => replayRecord 6 x.k (chainAddr x.ring) 2 0 0 addr.toNat cause.toNat
  | _ => replayRecord 6 x.k (chainAddr x.ring) 3 0 0 0 0

/-- The copy entries of a workgroup on a quad, by channel. -/
def wgRuns (s : State) (quad wg : Nat) : List CopyRun :=
  ((quadOf s quad).chans.flatMap fun c => c.2).filter fun x => x.wg == wg

/-- The slips of a workgroup on a quad. -/
def wgSlips (s : State) (quad wg : Nat) : List Slip := (quadOf s quad).slips.filter fun x => x.wg == wg

/-- The replay block: copy entries, then slips (log entry 13). -/
def replayBlock (s : State) (quad wg : Nat) : List Byte :=
  let bs := (wgRuns s quad wg).flatMap copyRecord ++ (wgSlips s quad wg).flatMap slipRecord
  (bs ++ List.replicate 8192 0).take 8192

/-! ### WORKGROUP_SAVE (R130, R132, R247, R290, R456) -/

/-- A slip that runs and can still make a step. -/
def slipMoves (s : State) (quad : Nat) (x : Slip) : Bool :=
  match x.st with
  | .drained _ _ => true
  | .running _ =>
    slipGlobal x.words || slipSteps x.words ≤ x.step ||
      (match slipTile s quad x x.step with
       | .hold => false
       | _ => true)
  | _ => false

/-- What a workgroup's threads must have finished before a save (R247): instructions that wait for another module, and
suspensions of codes 10 to 13 that complete before it. A suspension that is saved tests afresh after the restore. -/
def threadSettled (t : Thread) : Bool :=
  match t.wait with
  | some w => savedWait w || w.code == 63
  | none => t.pend.all fun p => p.k < 4

/-- A quire that a pre-emption has stopped, or whose threads have all exited. -/
def quireStopped (s : State) (wg q : Nat) : Bool :=
  (wgOf s wg).atPoint.contains q || (quireTids wg q).all fun i => (thr s i).exited

/-- Whether a workgroup can be saved now. -/
def saveReady (s : State) (wg : Nat) : Bool :=
  let w := wgOf s wg
  let quad := quadOfCore w.core
  let mx := (coreOf s w.core).mx
  w.st == .running && w.preempt && !allExited s wg && (List.range w.roles.length).all (quireStopped s wg) &&
  (threadsOfWg s wg).all (fun i => threadSettled (thr s i) && (thr s i).posted.isEmpty) &&
  !(mx.queue.any fun it => it.tids.any fun i => tidWg i == wg) &&
  !(w.owner && (List.range 64).any fun e => catState (catOf s w.core e) == catDraining) &&
  !((wgSlips s quad wg).any (slipMoves s quad)) &&
  (wgRuns s quad wg).all fun x =>
    !copyInFlight s quad (x.core * 2 ^ 20 + x.hdr) x.k && match x.st with
      | .finished _ _ => false
      | _ => true

/-- A hold has had no effect: its thread issues the instruction again after the restore (R249). -/
def dropHold (s : State) (tid : Nat) : State :=
  match (thr s tid).wait with
  | some w =>
    if savedWait w then s
    else
      let s1 := modThr s tid fun t => { t with wait := none }
      { s1 with quads := s1.quads.map fun q =>
          (q.1, { q.2 with msgs := q.2.msgs.filter fun m => match m with
            | .set _ _ i => i != tid
            | .dec _ => true }) }
  | none => s

/-- The area written. -/
def writeArea (s : State) (wg area : Nat) : State :=
  let w := wgOf s wg
  let l := paLoc s area
  let live := liveTiles w
  let src := carrelLoc w.core (4096 * w.base)
  let n := 4096 * w.units
  let s1 := writeBytes s l (areaHeader w live ++ areaBarriers w ++ List.replicate 128 0)
  let s2 := (List.range w.roles.length).foldl (fun st q =>
    writeBytes st (l + blocksFrom w q) ((quireTids wg q).flatMap (threadBlock s))) s1
  let s3 := spreadPoison (writeBytes s2 (l + carrelPart w) (readBytes s src n)) (l + carrelPart w) (poisonMask s src n)
  let s4 := if w.owner then saveMatrix s3 w.core (l + matrixPart w) live else s3
  writeBytes s4 (l + replayPart w) (replayBlock s (quadOfCore w.core) wg)

/-- What waits in the core's engine for the workgroup is no longer there: held instructions and the places of its copy
entries. -/
def leaveEngine (s : State) (wg : Nat) : State :=
  let w := wgOf s wg
  let quad := quadOfCore w.core
  modMx s w.core fun m =>
    { m with
      held := m.held.filter fun h => !(h.tids.any fun i => tidWg i == wg)
      queue := m.queue.filter fun it => match it.work with
        | .accum q _ hdr k => !(q == quad && (wgRuns s quad wg).any fun x => x.core == w.core && x.hdr == hdr && x.k == k)
        | .ins _ => true }

/-! ### The workgroup's engine work while it is saved (R131, R251) -/

/-- A place in the carrel region of a workgroup. -/
def ownPlace (w : Workgroup) (core : Nat) (r : RingLoc) : Bool :=
  match r with
  | .carrel c off => c == core && inCarrelRegion w off 64
  | .global _ _ => false

/-- A slip that stays with its quad while its workgroup is saved: it runs on an engine, or its chain is in memory. -/
def slipStays (w : Workgroup) (x : Slip) : Bool :=
  (match x.st with
   | .running _ => true
   | _ => false) || !ownPlace w w.core x.ring

/-- The copy rings, entries, chains and slips of a saved workgroup leave their quad, whose channels and rings another
workgroup may now use. They are kept under the number 64 + wg. -/
def stowWork (s : State) (wg : Nat) : State :=
  let w := wgOf s wg
  let a := quadOfCore w.core
  let old := quadOf s a
  let goes (r : Ring) : Bool := r.wg == wg && ownPlace w w.core r.loc
  let kept (x : Slip) : Bool := x.wg != wg || slipStays w x
  let s1 := modQuad s a fun q =>
    { q with
      chans := q.chans.map fun c => (c.1, c.2.filter fun x => x.wg != wg)
      rings := q.rings.filter fun r => !goes r
      chains := q.chains.filter fun r => !goes r
      slips := q.slips.filter kept }
  setQuad s1 (64 + wg)
    { Quad.reset with
      chans := old.chans.map fun c => (c.1, c.2.filter fun x => x.wg == wg)
      rings := old.rings.filter goes
      chains := old.chains.filter goes
      slips := old.slips.filter fun x => !kept x }

/-- The workgroup leaves its core for the head of its binding's share, or stops when a fault met it on the way (R131, R132). -/
def leaveCore (s : State) (wg area : Nat) : State :=
  let w := wgOf s wg
  let s1 := modCore s w.core fun x => { x with gath := x.gath.filter fun i => tidWg i != wg }
  if w.cause != 0 then haltNow s1 wg w.cause
  else
    let s2 := setWg (stowWork (leaveEngine (modCore s1 w.core fun x => { x with requester := none }) wg) wg) wg
      { w with st := .saved, area := BitVec.ofNat 52 area, leftCore := w.core }
    regate (modSlot s2 w.die w.slot fun b => { b with share := w.w :: b.share }) w.core

/-- WORKGROUP_SAVE: the save unit writes the area and frees the core. A thread's write declared lost stops the workgroup
instead (R456). -/
def execWorkgroupSave (wg : Nat) (area : BitVec 52) (s : State) : Host.Outcome State Fault Refusal :=
  let w := wgOf s wg
  let lost := (threadsOfWg s wg).find? fun i => (thr s i).posted.any Posted.lost
  if w.st != .running || !w.preempt then .next s
  else match lost with
    | some i => .next (haltNow (loseWait s i) wg cFabricLost)
    | none =>
      if !saveReady s wg || area.toNat % 4096 != 0 then .next s
      else
        let s1 := (threadsOfWg s wg).foldl (fun st i => clearMarks (dropHold (deliverAll st i) i) i) s
        .next (leaveCore (writeArea s1 wg area.toNat) wg area.toNat)

/-! ### Restoring threads -/

/-- A doubleword of some bytes. -/
def wordIn (bs : List Byte) (off : Nat) : Nat := leNat ((bs.drop off).take 8)

/-- The registers of some slots. -/
def slotWords (bs : List Byte) (off n : Nat) : List (Nat × Nat) :=
  (List.range n).map fun i => (leNat ((bs.drop (off + 64 * i)).take 32), wordIn bs (off + 64 * i + 32) % 512)

/-- A thread as its block gives it; none when the resume state is malformed. What no block holds (CQHDR, the destination of
a wait) the thread has kept. -/
def threadOf (w : Workgroup) (core : Nat) (t : Thread) (bs : List Byte) : Option Thread :=
  let n := regCounts w t.quire
  let sys (i : Nat) : Nat := wordIn bs (256 + 8 * i)
  let status := wordIn bs 320
  let gs := slotWords bs 512 n.1
  let vs := slotWords bs (512 + 64 * n.1) n.2
  let xs := slotWords bs (512 + 64 * (n.1 + n.2)) 8
  let kept : Wait := t.wait.getD { code := 0, a := 0, b := 0, dst := .latchOnly, var := 0 }
  match frameState (bs.take 256) with
  | none => none
  | some (pc, nest, ls) =>
    some (restoreLatches
      { t with
        core, pc, nest
        cfp := BitVec.ofNat 13 (sys 0 / 2 ^ 7)
        srSeed := BitVec.ofNat 32 (sys 1)
        fstat := BitVec.ofNat 3 (sys 2)
        trapCause := BitVec.ofNat 18 (sys 3)
        trapPc := slotPc (sys 4)
        trapAddr := BitVec.ofNat 64 (sys 5)
        trapVecPc := slotPc (sys 6 / 8 * 8)
        trapVecEn := bit (sys 6) 0
        trapFrame := BitVec.ofNat 12 (sys 7 / 2 ^ 8)
        hmode := bit (sys 7) 0
        exited := bit status 0
        wait := if bit status 1 then
            some { kept with code := bits status 7 2, a := BitVec.ofNat 64 (wordIn bs 328), b := BitVec.ofNat 64 (wordIn bs 336),
                             paired := bit (wordIn bs 8) 5 }
          else none
        g := (List.range n.1).map fun i => (i, BitVec.ofNat 64 (gs.getD i (0, 0)).1)
        v := (List.range n.2).map fun i => (i, ⟨BitVec.ofNat 256 (vs.getD i (0, 0)).1, BitVec.ofNat 9 (vs.getD i (0, 0)).2⟩)
        xv := BitVec.ofNat 64 ((List.range 8).map fun i => (xs.getD i (0, 0)).1 % 256 * 2 ^ (8 * i)).sum } ls)

/-- The threads of a quire read from their blocks; the flag says that one was malformed. -/
def restoreQuire (s : State) (wg core l q : Nat) : State × Bool :=
  let w := wgOf s wg
  (List.range 32).foldl (fun acc lane =>
    let tid := tidOf wg q lane
    match threadOf w core (thr acc.1 tid) (readBytes s (l + blocksFrom w q + lane * blockSize w q) (blockSize w q)) with
    | some t => (setThr acc.1 tid t, acc.2)
    | none => (modThr acc.1 tid fun t => { t with core }, true)) (s, false)

/-! ### Restoring the matrix engine (R200, R276, R291) -/

/-- A t-tile restored. -/
def restoreT (s : State) (c l n : Nat) : State :=
  let src := l + 10240 * n
  setTileErr (writeBytes s (ttileLoc c n 0) (readBytes s src 10240)) c n (poisoned s src 10240)

/-- An a-tile restored. -/
def restoreA (s : State) (c l n : Nat) : State :=
  let src := l + 163840 + 65536 * n
  setTileErr (writeBytes s (accumLoc c (65536 * n)) (readBytes s src 65536)) c (16 + n) (poisoned s src 65536)

/-- What a restore refuses in the record area (R291). -/
def recordBad (s : State) (r : Nat) : Bool :=
  let w (i : Nat) : Nat := readWord s (r + 8 * i)
  let cat (e : Nat) : Nat := w (24 + e)
  let fill (i j : Nat) : Nat := w (104 + 4 * i + j)
  let config (base : Nat) : List Word := (List.range 8).map fun i => BitVec.ofNat 64 (w (base + i))
  epiRz (config 88) || routeBad (config 96) || ((List.range 24).any fun n => 2 ^ 9 ≤ w n) ||
  ((List.range 64).any fun e => bits (cat e) 43 32 != 0 || bits (cat e) 10 0 != 0 ||
    (cat e != 0 && (bits (cat e) 19 11 == 0 || 256 < bits (cat e) 19 11))) ||
  ((List.range 16).any fun i => bits (fill i 0) 63 56 != 0 || bits (fill i 2) 63 42 != 0 || bits (fill i 2) 29 25 != 0 ||
    bits (fill i 2) 14 1 != 0 || fill i 3 != 0 || 24 < bits (fill i 2) 24 20 + bits (fill i 2) 19 15) ||
  (List.range 344).any fun i => w (168 + i) != 0

/-- The fill-source records of a record area, by region. -/
def fillsAt (s : State) (r : Nat) : FMap (List Word) :=
  (List.range 16).map fun i => (i, (List.range 4).map fun j => BitVec.ofNat 64 (readWord s (r + 8 * (104 + 4 * i + j))))

/-- The record area read back. -/
def restoreRecords (s : State) (c r live : Nat) : State :=
  let w (i : Nat) : Nat := readWord s (r + 8 * i)
  modMx s c fun m =>
    { m with
      ttag := ((List.range 16).filter fun n => bit live n).map fun n => (n, BitVec.ofNat 9 (w n))
      catalog := ((List.range 64).filter fun e => w (24 + e) != 0).map fun e => (e, BitVec.ofNat 64 (w (24 + e)))
      epi := (List.range 8).map fun i => BitVec.ofNat 64 (w (88 + i))
      route := (List.range 8).map fun i => BitVec.ofNat 64 (w (96 + i))
      fills := fillsAt s r }

/-- The rows that the valid records of some fills cover: region, row of the fill, record. -/
def filledRows (fills : FMap (List Word)) : List (Nat × Nat × List Word) :=
  (fills.filter fun e => bit (cfgWord e.2 2) 0).flatMap fun e =>
    (List.range (bits (cfgWord e.2 2) 19 15)).map fun n => (e.1, n, e.2)

/-- The matrix engine as it reads for a refill. -/
def refillReader (s : State) (c wg : Nat) : Writer :=
  let ctx := (wgOf s wg).context
  { die := dieOfCore c, flow := 0, owner := .header (326 + c) (.global ctx 0), context := ctx }

/-- Row n of a fill record read again (R276). -/
def refillBytes (s : State) (c wg n : Nat) (rec_ : List Word) : Except EngStop (State × List Byte × List Bool) :=
  let w := wgOf s wg
  let sp := (spaceOf (BitVec.ofNat 3 (bits (cfgWord rec_ 2) 41 39))).getD .global
  match spansOfRuns s (engineParty (some c) (dieOfCore c) w.asid.toNat w.priv) sp .rd
      (rowRuns (cfgWord rec_ 0) (cfgWord rec_ 1) n) with
  | .error e => .error (.fault e)
  | .ok (s1, xs) => readSpans s1 (refillReader s c wg) xs

/-- The reads of other modules that a refill waits for; none when every answer is here. -/
def refillAway (s : State) (c wg r : Nat) : Option State :=
  let (s1, away) := (filledRows (fillsAt s r)).foldl (fun (acc : State × Bool) x =>
    match refillBytes acc.1 c wg x.2.1 x.2.2 with
    | .error (.waits s1) => (s1, true)
    | _ => acc) (s, false)
  if away then some s1 else none

/-- The address of byte i of some runs. -/
def addrIn (runs : List (Nat × Nat)) (i : Nat) : Nat :=
  match runs with
  | [] => 0
  | r :: rest => if i < r.2 then r.1 + i else addrIn rest (i - r.2)

/-- One row of a refill: poisoned when its read faults or meets poison, with a record of SOURCE 1 (R242, R276). -/
def refillRow (s : State) (c wg i n : Nat) (rec_ : List Word) : State :=
  let w := wgOf s wg
  let w2 := cfgWord rec_ 2
  let row := 24 * i + bits w2 24 20 + n
  let note (st : State) (e : EngFault) : State :=
    reportNote st w.context
      { cause := e.1.1, sub := e.1.2, source := 1, core := some c, word1 := none, addr := some e.2, w := some w.w }
  match refillBytes s c wg n rec_ with
  | .error (.fault e) => note (modMx s c fun m => { m with rowGood := m.rowGood.filter (· != row) }) e
  | .error (.waits s1) => s1
  | .ok (s1, bs, bad) =>
    let s2 := putRow s1 c row (BitVec.ofNat 9 (bits w2 38 30)) bs (bad.any id)
    match bad.findIdx? id with
    | some k => note s2 ((cPoison.toNat, none), addrIn (rowRuns (cfgWord rec_ 0) (cfgWord rec_ 1) n) k)
    | none => s2

/-- The refill of a folio: the rows that valid records cover; every other row stays poisoned. -/
def refillFolio (s : State) (c wg : Nat) : State :=
  dropAsks ((filledRows (coreOf s c).mx.fills).foldl (fun st x => refillRow st c wg x.1 x.2.1 x.2.2) s)
    (refillReader s c wg).owner

/-- The matrix block restored. -/
def restoreMatrix (s : State) (c l live : Nat) : State :=
  let s1 := (List.range 16).foldl (fun st n => if bit live n then restoreT st c l n else st) (freshEngine s c)
  let s2 := (List.range 8).foldl (fun st n => if bit live (16 + n) then restoreA st c l n else st) s1
  restoreRecords s2 c (l + 688128) live

/-! ### The workgroup's engine work on its new core (R251) -/

/-- A copy entry that names the new core. -/
def movedRun (core : Nat) (x : CopyRun) : CopyRun :=
  { x with core, bound := if !x.bound.isEmpty && copyDst x.words == .carrel && !copyMc x.words then [core] else x.bound }

/-- A place of a workgroup, as it moves with the carrel image. -/
def movedLoc (w : Workgroup) (core : Nat) (r : RingLoc) : RingLoc :=
  match r with
  | .carrel _ off => if ownPlace w w.leftCore r then .carrel core off else r
  | .global _ _ => r

/-- A slip that names the new core. -/
def movedSlip (w : Workgroup) (core : Nat) (x : Slip) : Slip :=
  let w3 := cfgWord x.words 3
  { x with
    ring := movedLoc w core x.ring
    words := x.words.set 3 (BitVec.ofNat 64 (w3 - bits w3 33 32 * 2 ^ 32 + core % 4 * 2 ^ 32)) }

/-- The rings, entries, chains and slips of a workgroup go to the engines that serve its new core: those that were stowed,
and those that stayed with the quad it left. -/
def moveWork (s : State) (wg core : Nat) : State :=
  let w := wgOf s wg
  let a := quadOfCore w.leftCore
  let b := quadOfCore core
  let old := quadOf s a
  let away := quadOf s (64 + wg)
  let ring (r : Ring) : Ring := { r with loc := movedLoc w core r.loc }
  let s1 := modQuad s a fun q =>
    { q with
      rings := q.rings.filter fun r => r.wg != wg
      chains := q.chains.filter fun r => r.wg != wg
      slips := q.slips.filter fun x => x.wg != wg }
  let s2 := { s1 with quads := tdel s1.quads (64 + wg) }
  let s3 := modQuad s2 b fun q =>
    { q with
      rings := q.rings ++ ((old.rings.filter fun r => r.wg == wg) ++ away.rings).map ring
      chains := q.chains ++ ((old.chains.filter fun r => r.wg == wg) ++ away.chains).map ring
      slips := q.slips ++ ((old.slips.filter fun x => x.wg == wg) ++ away.slips).map (movedSlip w core) }
  away.chans.foldl (fun st c => modChan st b c.1 fun xs => c.2.map (movedRun core) ++ xs) s3

/-- The places of a workgroup's copy entries in its engine's queue (R325). -/
def placeRuns (s : State) (wg core : Nat) : State :=
  let quad := quadOfCore core
  (wgRuns s quad wg).foldl (fun st x =>
    if takesPlace st core wg x.words then
      modMx st core fun m =>
        { m with queue := m.queue ++ [{ work := .accum quad (copyChan x.words) x.hdr x.k, tids := [],
                                        a := tileMask (copyTiles x.words), b := 0, c := 0, xv := 0, pages := [], words := [] }] }
    else st) s

/-! ### WORKGROUP_RESTORE (R131, R276, R291) -/

/-- The workgroup's own data read back: counts, TURN, barriers. -/
def restoredWg (s : State) (w : Workgroup) (core l : Nat) : Workgroup :=
  let bar (n : Nat) : NBar :=
    let v := readWord s (l + 256 + 8 * n)
    ⟨BitVec.ofNat 16 v, bits v 24 16, bits v 33 25⟩
  { w with
    core, st := .running, preempt := false, forced := false, live := 0, atPoint := [], order := s.nextWg
    wdog := readWord s (l + 16)
    retired := if w.det then BitVec.ofNat 64 (readWord s (l + 24)) else w.retired
    turn := bits (readWord s (l + 32)) 10 8
    nbars := (List.range 16).map fun n => (n, bar n) }

/-- The record area of a saved workgroup. -/
def recordsOf (s : State) (w : Workgroup) : Nat := paLoc s w.area.toNat + matrixPart w + 688128

/-- Poison in the parts of an area that the restore reads as numbers: header, barriers, thread blocks and records. What it
copies takes the poison along (R258). -/
def areaPoisoned (s : State) (w : Workgroup) : Bool :=
  poisoned s (paLoc s w.area.toNat) (blocksFrom w w.roles.length) || (w.owner && poisoned s (recordsOf s w) 4096)

/-- A workgroup restored on a core. A malformed block or record area stops it with ILLEGAL_FIELD (R291). DESIGN CHOICE: a
poisoned one stops it with POISON, whose record R242 calls for (log entry 89). -/
def restoreWg (s : State) (wg core : Nat) : State :=
  let w := wgOf s wg
  let l := paLoc s w.area.toNat
  let live := bits (readWord s l) 39 16
  let s1 := setWg { s with nextWg := s.nextWg + 1 } wg (restoredWg s w core l)
  let (s2, bad) := (List.range w.roles.length).foldl (fun acc q =>
    let r := restoreQuire acc.1 wg core l q
    (r.1, acc.2 || r.2)) (s1, false)
  let src := l + carrelPart w
  let dst := carrelLoc core (4096 * w.base)
  let n := 4096 * w.units
  let s3 := spreadPoison (writeBytes s2 dst (readBytes s2 src n)) dst (poisonMask s2 src n)
  let r := recordsOf s w
  let stops (cause : BitVec 8) : State :=
    haltNow (moveWork (dispatchNote s3 w.context core w.w (cause.toNat, none) r) wg core) wg cause
  if areaPoisoned s w then stops cPoison
  else if bad || (w.owner && recordBad s3 r) then
    stops cIllegalField
  else
    let s4 := if w.owner then refillFolio (restoreMatrix s3 core (l + matrixPart w) live) core wg else s3
    let s5 := placeRuns (moveWork s4 wg core) wg core
    noteWake (modCore (axResume s5 w.context) core fun x => { x with requester := none }) core (7, 0, 0)

/-- The core that a restore takes: the one the workgroup left, when it qualifies, else R125's choice. -/
def restoreCore (s : State) (e : Nat × Workgroup) (b : BindSlot) : Option Nat :=
  let n : Needs := { roles := e.2.roles, units := e.2.units, det := e.2.det, at_ := some e.2.base }
  if (qualifies s e.2.die b.words n e.2.leftCore).isSome then some e.2.leftCore
  else pickCore s e.2.die b.words n (homeQuadrant b.launch e.2.w)

/-- A slip of the workgroup still runs: it stays with its quad. -/
def slipsRun (s : State) (wg core : Nat) : Bool :=
  (wgSlips s (quadOfCore (wgOf s wg).leftCore) wg).any (fun x => match x.st with
    | .running _ => true
    | _ => false) && quadOfCore core != quadOfCore (wgOf s wg).leftCore

/-- WORKGROUP_RESTORE: a saved workgroup at the head of its share returns to a core of its die. -/
def execWorkgroupRestore (wg core : Nat) (s : State) : Host.Outcome State Fault Refusal :=
  let w := wgOf s wg
  if 256 ≤ core then .fault .noSuchUnit
  else if w.st != .saved || slipsRun s wg core then .next s
  else match arbitrate s w.die core with
    | none => .next s
    | some (p, cs, b) =>
      if b.1 == w.slot && b.2.share.head? == some w.w && restoreCore s (wg, w) b.2 == some core then
        match if w.owner && !recordBad s (recordsOf s w) then refillAway s core wg (recordsOf s w) else none with
        | some s1 => .next s1
        | none => .next (restoreWg (chosen s w.die p cs b) wg core)
      else .next s

end Sys2Proof.Machine
end

