-- ==== Sys2Proof/Machine/Launch.lean ====
section
/-! DEFINITION. Launch queues, bind records, stealing, and the completion of a binding (R114 to R123, R126, R127, R385,
R481). -/

namespace Sys2Proof.Machine

/-! ### Completion words (R119, R121) -/

/-- The completion word written at an address of a context. -/
def putDone (s : State) (die ctx asid : Nat) (priv : Bool) (va v : Nat) : State :=
  let fail (st : State) (e : EngFault) : State :=
    reportNote st ctx { cause := e.1.1, sub := e.1.2, source := 4, core := none, word1 := none, addr := some e.2, w := none }
  match spansOf s (engineParty none die asid priv) .global .wr va 8 with
  | .error e => fail s e
  | .ok (s1, xs) =>
    match writeSpans s1 { die, flow := 0, owner := .service, context := ctx } xs (leBytes 8 v) [] with
    | .error e => fail s1 e
    | .ok s2 => s2

/-- The completion word of a launch. -/
def writeDone (s : State) (die asid : Nat) (priv : Bool) (ws : List Word) (status : Nat) : State :=
  putDone s die (launchContext ws) asid priv (cfgWord ws 6 % 2 ^ 56) (cfgWord ws 0 % 2 ^ 16 + status * 2 ^ 16)

/-- What follows the word: the task, then the interrupt. -/
def afterDone (s : State) (ws : List Word) : State :=
  let w7 := cfgWord ws 7
  let s1 := sendDecIf s (bit w7 15) (bits w7 13 0)
  if bit w7 16 then raiseMsi s1 (bits w7 27 17) else s1

/-- A record that is consumed and not run completes in the address space of the context it names. DESIGN CHOICE: for context
0, and one that does not exist, that is address space 0, unprivileged (log entry 14). -/
def refuseRecord (s : State) (die : Nat) (ws : List Word) (status : Nat) : State :=
  let (asid, priv) := ctxSpace s (launchContext ws)
  afterDone (writeDone s die asid priv ws status) ws

/-! ### LAUNCH_QUEUE_POLL and LAUNCH_QUEUE_RESUME (R114 to R117) -/

/-- A queue of a die changed. -/
def modQueue (s : State) (die queue : Nat) (f : LaunchQueue → LaunchQueue) : State :=
  match tget (dieOf s die).queues queue with
  | none => s
  | some q => modDie s die fun d => { d with queues := tset d.queues queue (f q) }

/-- A lap: the queue faults with QUEUE_OVERRUN (R117). -/
def lapQueue (s : State) (die queue cell : Nat) : State :=
  let w := readWord s (cell + 24)
  let s1 := writeWord s (cell + 24) (if bit w 4 then w else w + 2 ^ 4)
  raiseMsi (modQueue s1 die queue fun q => { q with halted := true }) (bits w 16 6)

/-- A record consumed: DRP advances, and the record goes to the management core, or completes with STATUS 3 (R116, R119). -/
def consume (s : State) (die queue cell drp pa : Nat) : State :=
  let ws := wordsAt s (paLoc s pa) 16
  let s1 := writeWord s (cell + 8) ((drp + 1) % 2 ^ 48)
  if launchBad ws then refuseRecord s1 die ws 3
  else modDie s1 die fun d => { d with consumed := d.consumed ++ [{ pa, queue, words := ws }] }

/-- The dispatcher of a die takes records: the boot chain has reached its last step (R517). -/
def dispatcherOn (s : State) (die : Nat) : Bool := (dieOf s die).bootstat.toNat % 256 == 7

/-- LAUNCH_QUEUE_POLL. DESIGN CHOICE: a queue whose LOGN is outside 4 to 12 is served as one of 2^LOGN records (log entry
49). -/
def execLaunchQueuePoll (die queue : Nat) (s : State) : Host.Outcome State Fault Refusal :=
  if 4 ≤ die || 16 ≤ queue then .fault .noSuchUnit
  else match tget (dieOf s die).queues queue with
    | none => .next s
    | some q =>
      let cell := paLoc s q.hdr
      let cfg := readWord s (cell + 24)
      let n := 2 ^ (cfg % 16)
      let drp := readWord s (cell + 8) % 2 ^ 48
      let m := sub48 (readWord s cell % 2 ^ 48) drp
      if !dispatcherOn s die || q.halted || !bit cfg 5 || m == 0 then .next s
      else if n < m then .next (lapQueue s die queue cell)
      else
        let pa := readWord s (cell + 16) % 2 ^ 52 + 128 * (drp % n)
        let seq := readWord s (paLoc s pa) % 2 ^ 16
        let e := drp % 2 ^ 16
        if seq == e then .next (consume s die queue cell drp pa)
        else if seq == (e + 2 ^ 16 - n) % 2 ^ 16 then .next s
        else .next (lapQueue s die queue cell)

/-- LAUNCH_QUEUE_RESUME: a halted queue whose HALT reads 0. -/
def execLaunchQueueResume (die queue : Nat) (s : State) : Host.Outcome State Fault Refusal :=
  if 4 ≤ die || 16 ≤ queue then .fault .noSuchUnit
  else match tget (dieOf s die).queues queue with
    | none => .next s
    | some q =>
      if q.halted && !bit (readWord s (paLoc s q.hdr + 24)) 4 then
        .next (modQueue s die queue fun x => { x with halted := false })
      else .next s

/-! ### BIND_RECORD_WRITE (R122, R123) -/

/-- What makes the mailbox refuse a bind record. -/
def bindBad (die : Nat) (ws : List Word) (live : Bool) : Bool :=
  let w0 := cfgWord ws 0
  bits w0 63 42 != 0 || bits w0 3 1 != 0 || bits (cfgWord ws 1) 63 52 != 0 ||
  ((List.range 4).any fun r => bits (bindBudget ws r) 15 11 != 0) || bits (cfgWord ws 4) 63 16 != 0 ||
  ((List.range 3).any fun i => cfgWord ws (5 + i) != 0) ||
  11 < bindPrio ws || (bindPrio ws == 0 && bindContext ws != 0) || (bit (bindMask ws) die && bindCores ws == 0) ||
  (bit w0 0 && live)

/-- The workgroups of a launch that are homed on a die, in ascending order (R124). -/
def homeShare (die : Nat) (bind launch : List Word) : List Nat :=
  (List.range (launchGx launch * launchGy launch * launchGz launch)).filter fun w => homeDieOf bind launch w == die

/-- A binding that becomes valid on a die. -/
def newBind (s : State) (die slot : Nat) (ws : List Word) : State :=
  let pa := cfgWord ws 1 % 2 ^ 52
  let launch := wordsAt s (paLoc s pa) 16
  let mine := (dieOf s die).consumed.any fun r => r.pa == pa
  let b : BindSlot :=
    { words := ws, launch, homeQueue := mine, age := 0
      share := if bit (bindMask ws) die then homeShare die ws launch else []
      completed := false, refused := false, noneFrom := [], stealTag := none, preemptsFor := [] }
  modDie s die fun d => { d with consumed := d.consumed.filter fun r => r.pa != pa, slots := tset d.slots slot b }

/-- BIND_RECORD_WRITE: a refused record changes no slot, and the mailbox returns ILLEGAL_FIELD. A record without VALID clears its slot once the binding has
completed (R123). -/
def execBindRecordWrite (die slot : Nat) (rec_ : BindWords) (s : State) : Host.Outcome State Fault Refusal :=
  if 4 ≤ die || 32 ≤ slot then .fault .noSuchUnit
  else
    let old := tget (dieOf s die).slots slot
    let returns (st : State) (c : BitVec 8) : State := modDie st die fun d => { d with bindCause := c }
    if bindBad die rec_ old.isSome then .next (returns s cIllegalField)
    else if bit (cfgWord rec_ 0) 0 then .next (returns (newBind s die slot rec_) 0)
    else match old with
      | some b => .next (returns (if b.completed then modDie s die fun d => { d with slots := tdel d.slots slot } else s) 0)
      | none => .next (returns s 0)

/-! ### Stealing (R126, R127) -/

/-- The other dies of a binding in the order a thief asks them. -/
def stealOrder (die : Nat) (b : BindSlot) : List Nat :=
  ([1, 2, 3].map fun k => (die + k) % 4).filter fun d => bit (bindMask b.words) d

/-- Whether a die has a core that could take a new workgroup of a binding. -/
def couldTake (s : State) (die : Nat) (b : BindSlot) : Bool :=
  (List.range 64).any fun i => (qualifies s die b.words (needsOf s die b) (64 * die + i)).isSome

/-- The victim that a thief asks next, when it may ask. -/
def stealFrom (s : State) (die : Nat) (b : BindSlot) : Option Nat :=
  if b.share.isEmpty && b.stealTag.isNone && !b.completed && !b.refused && couldTake s die b then
    (stealOrder die b).find? fun d => !b.noneFrom.contains d
  else none

/-- A victim's answer: the high end of what has not been placed there, and what is left. Saved workgroups stay (R131). -/
def stealAnswer (s : State) (die slot : Nat) (b : BindSlot) : List Nat × List Nat :=
  let free := b.share.filter fun w => (savedWg s die slot w).isNone
  let n := min 8 ((free.length + 1) / 2)
  let given := free.drop (free.length - n)
  (given, b.share.filter fun w => !given.contains w)

/-- STEAL_REQ: a thief whose share is empty asks the next die of the mask, which answers once. -/
def execStealReq (thief slot victim : Nat) (s : State) : Host.Outcome State Fault Refusal :=
  if 4 ≤ thief || 32 ≤ slot || 4 ≤ victim then .fault .noSuchUnit
  else match tget (dieOf s thief).slots slot, tget (dieOf s victim).slots slot with
    | some b, some v =>
      if stealFrom s thief b != some victim then .next s
      else
        let tag := (dieOf s thief).nextTag
        let (given, left) := stealAnswer s victim slot v
        let msg : StealMsg := if given.isEmpty then .none slot tag victim else .give slot tag given
        let s1 := modSlot s thief slot fun x => { x with stealTag := some tag }
        let s2 := modSlot s1 victim slot fun x => { x with share := left }
        .next (modDie s2 thief fun d => { d with nextTag := (tag + 1) % 256, steal := d.steal ++ [msg] })
    | _, _ => .next s

/-- STEAL_GIVE reaches the thief. DESIGN CHOICE: what it gives comes before what has returned to the thief's share in the
meantime (log entry 91). -/
def execStealGive (thief slot : Nat) (s : State) : Host.Outcome State Fault Refusal :=
  if 4 ≤ thief || 32 ≤ slot then .fault .noSuchUnit
  else
    let mine (m : StealMsg) : Bool := match m with
      | .give k _ _ => k == slot
      | .none _ _ _ => false
    match (dieOf s thief).steal.find? mine with
    | some (.give k t ws) =>
      let s1 := modDie s thief fun d => { d with steal := d.steal.erase (.give k t ws) }
      .next (modSlot s1 thief slot fun b => { b with share := ws ++ b.share, stealTag := none })
    | _ => .next s

/-- STEAL_NONE reaches the thief. DESIGN CHOICE: a die that has answered so is not asked again for this binding, also after
another die has given (log entry 90). -/
def execStealNone (thief slot : Nat) (s : State) : Host.Outcome State Fault Refusal :=
  if 4 ≤ thief || 32 ≤ slot then .fault .noSuchUnit
  else
    let mine (m : StealMsg) : Bool := match m with
      | .none k _ _ => k == slot
      | .give _ _ _ => false
    match (dieOf s thief).steal.find? mine with
    | some (.none k t v) =>
      let s1 := modDie s thief fun d => { d with steal := d.steal.erase (.none k t v) }
      .next (modSlot s1 thief slot fun b => { b with noneFrom := b.noneFrom ++ [v], stealTag := none })
    | _ => .next s

/-! ### BINDING_COMPLETE (R121, R385, R481) -/

/-- The workgroups that a binding has placed. -/
def bindingWgs (s : State) (slot mask : Nat) : List (Nat × Workgroup) :=
  s.wgs.filter fun e => e.2.slot == slot && bit mask e.2.die

/-- The address of a binding's launch record. -/
def launchPa (b : BindSlot) : Nat := cfgWord b.words 1 % 2 ^ 52

/-- Whether a queue of a die gave the launch of a binding: its slot says so, or the die still keeps the consumed record,
because the binding's mask leaves it out. -/
def gaveLaunch (s : State) (slot : Nat) (b : BindSlot) (d : Nat) : Bool :=
  ((tget (dieOf s d).slots slot).any fun x => x.homeQueue && launchPa x == launchPa b) ||
  ((dieOf s d).consumed.any fun r => r.pa == launchPa b)

/-- The die that completes a binding: the queue's, or the first of the mask for a launch of no queue. -/
def completesAt (s : State) (slot : Nat) (b : BindSlot) : Option Nat :=
  match (List.range 4).find? (gaveLaunch s slot b) with
  | some d => some d
  | none => (maskDies (bindMask b.words)).head?

/-- The binding of a slot that a die is to complete: its own, or that of a mask which leaves the die out. -/
def bindingAt (s : State) (die slot : Nat) : Option BindSlot :=
  ((die :: List.range 4).filterMap fun d => tget (dieOf s d).slots slot).find? fun b =>
    !b.completed && completesAt s slot b == some die

/-- Changes the slots of a binding on every die. -/
def modBinding (s : State) (slot : Nat) (b : BindSlot) (f : BindSlot → BindSlot) : State :=
  (List.range 4).foldl (fun st d => modSlot st d slot fun x => if launchPa x == launchPa b then f x else x) s

/-- Every share is empty and no work is on its way. -/
def sharesEmpty (s : State) (slot : Nat) (b : BindSlot) : Bool :=
  (maskDies (bindMask b.words)).all fun d => match tget (dieOf s d).slots slot with
    | some x => x.share.isEmpty && x.stealTag.isNone
    | none => false

/-- Every workgroup has ended, and every posted write of its threads is acknowledged or lost (R481). -/
def wgsDone (s : State) (ws : List (Nat × Workgroup)) : Bool :=
  ws.all fun e => wgOver s e && (threadsOfWg s e.1).all fun i => (thr s i).posted.all Posted.lost

/-- STATUS of a binding. -/
def bindingStatus (s : State) (b : BindSlot) (ws : List (Nat × Workgroup)) : Nat :=
  if b.refused then 3
  else if ws.any fun e => e.2.st == .stopped || (threadsOfWg s e.1).any fun i => !(thr s i).posted.isEmpty then 1
  else 0

/-- The collated state of every unsealed region of this module that the binding inserted into, written to its memory (R385). -/
def collateUsed (s : State) (slot mask : Nat) : State :=
  let mine (u : Nat × Nat) : Bool := u.2 == slot && bit mask u.1
  s.regions.foldl (fun st e =>
    if e.2.users.any mine then imageRegion st e.1 { e.2 with users := e.2.users.filter fun u => !mine u } else st) s

/-- Who asks for the images of a binding's regions on other modules. -/
def imageAsker (die slot : Nat) : Owner := .header (582 + die) (.global slot 0)

/-- Asks another module once for the image of the region that an address lies in. -/
def askImage (die slot ctx : Nat) (s : State) (pa : Nat) : State :=
  if (s.fabric.asks.any fun a => a.owner == imageAsker die slot && a.pa == pa) || portsFull s die then s
  else
    let port := leastPort s die
    let (s1, tag) := sendFrom s port (sketchRequest reqImage pa []) (imageAsker die slot) ctx
    let f := s1.fabric
    { s1 with fabric := { f with asks := f.asks ++
      [{ owner := imageAsker die slot, pa, sectors := 0, port, tag, val := none, poisoned := false, fault := 0 }] } }

/-- The addresses on other modules that the threads of a binding have inserted at. -/
def farRegions (s : State) (slot : Nat) (b : BindSlot) : List Nat :=
  (maskDies (bindMask b.words)).flatMap fun d => ((tget (dieOf s d).slots slot).map fun x => x.farUses).getD []

/-- The images of a binding's regions have been written: those of this module, and of other modules as their homes say. -/
def imagesDone (s : State) (die slot : Nat) (b : BindSlot) : Bool :=
  !inFlight s .service && (farRegions s slot b).all fun pa =>
    s.fabric.asks.any fun a => a.owner == imageAsker die slot && a.pa == pa && a.val.isSome

/-- What is left of a binding's workgroups goes: threads, rings, the catalog of an engine they owned (R278). -/
def dropWgs (s : State) (ws : List (Nat × Workgroup)) : State :=
  let ks := ws.map Prod.fst
  let s1 := ws.foldl (fun st e => if e.2.owner && (residents st e.2.core).all (fun r => !r.2.owner || ks.contains r.1) then
      modMx st e.2.core fun m => { m with catalog := [] }
    else st) s
  { s1 with
    wgs := s1.wgs.filter fun e => !ks.contains e.1
    threads := s1.threads.filter fun e => !ks.contains e.2.wg
    quads := s1.quads.map fun q =>
      (q.1, { q.2 with rings := q.2.rings.filter fun r => !ks.contains r.wg
                       chains := q.2.chains.filter fun r => !ks.contains r.wg }) }

/-- The images of the regions that a binding inserted into are written, or on their way. -/
def writeImages (s : State) (die slot : Nat) (b : BindSlot) : State :=
  (farRegions s slot b).foldl (askImage die slot (bindContext b.words)) (collateUsed s slot (bindMask b.words))

/-- The completion word of a binding; what is left of its workgroups goes. -/
def wordBinding (s : State) (die slot : Nat) (b : BindSlot) : State :=
  let ws := bindingWgs s slot (bindMask b.words)
  let s1 := writeDone (dropAsks s (imageAsker die slot)) die (bindAsid b.words) (bindPriv b.words) b.launch (bindingStatus s b ws)
  modBinding (dropWgs s1 ws) slot b fun x => { x with worded := true }

/-- The binding of a slot completed on every die: its word has been acknowledged. -/
def finishBinding (s : State) (die slot : Nat) (b : BindSlot) : State :=
  let s1 := modDie s die fun d => { d with consumed := d.consumed.filter fun r => r.pa != launchPa b }
  modBinding (afterDone s1 b.launch) slot b fun x => { x with completed := true }

/-- A binding goes on towards its completion: the images, the word, then the task and the interrupt, each when what comes
before it has been acknowledged (R121, R385, R456). -/
def settleBinding (s : State) (die slot : Nat) (b : BindSlot) : State :=
  let s1 := if b.worded then s else writeImages s die slot b
  if !b.worded && !imagesDone s1 die slot b then s1
  else
    let s2 := if b.worded then s1 else wordBinding s1 die slot b
    if inFlight s2 .service then s2 else finishBinding s2 die slot b

/-- A consumed record that firmware refuses completes with STATUS 2. -/
def refuseConsumed (s : State) (die i : Nat) : State :=
  match (dieOf s die).consumed[i]? with
  | none => s
  | some r => refuseRecord (modDie s die fun d => { d with consumed := d.consumed.erase r }) die r.words 2

/-- BINDING_COMPLETE: the dispatcher of the queue's die completes a binding whose workgroups have all ended. A number from 32
on names a consumed record, the (slot − 32)-th, that firmware refuses (log entry 15). -/
def execBindingComplete (die slot : Nat) (s : State) : Host.Outcome State Fault Refusal :=
  if 4 ≤ die then .fault .noSuchUnit
  else if 32 ≤ slot then .next (refuseConsumed s die (slot - 32))
  else match bindingAt s die slot with
    | none => .next s
    | some b =>
      if sharesEmpty s slot b && wgsDone s (bindingWgs s slot (bindMask b.words)) then .next (settleBinding s die slot b)
      else .next s

end Sys2Proof.Machine
end

