-- ==== Sys2Proof/Machine/Bring.lean ====
section
/-! DEFINITION. Events of the concordance controllers, accesses of the host and of SSDs, power, the boot chain, and writes of
the management-core windows (R135, R259, R341, R419, R433, R435, R513 to R523). -/

namespace Sys2Proof.Machine

/-! ### Events at a holder (R419) -/

/-- An event of a holder's line under its range's table: the entry's messages, then the next state, and a line that DATA 6
freezes. -/
def holderEvent (s : State) (holder line ev : Nat) : State :=
  match tget s.coh.lines (lineKey holder line) with
  | none => s
  | some v =>
    let range := v / 8
    let t := entryOf (rangeTable s range) (v % 8) ev
    freeze (setLine (lineMessages s (some holder) line range ev t) holder line range t.next) t line

/-- The holders: cores, the guest, the host, the partials of the dies. -/
def holderCount : Nat := 262

/-- An event row at a holder. -/
def atHolder (s : State) (holder line ev : Nat) : Host.Outcome State Fault Refusal :=
  if holderCount ≤ holder then .fault .noSuchUnit else .next (holderEvent s holder line ev)

/-- COHERENCE_EV: an eviction. -/
def execCoherenceEv (holder line : Nat) (s : State) : Host.Outcome State Fault Refusal := atHolder s holder line 2
/-- COHERENCE_PR: a probe for a read by another holder. -/
def execCoherencePr (holder line : Nat) (s : State) : Host.Outcome State Fault Refusal := atHolder s holder line 3
/-- COHERENCE_PW: a probe for a write by another holder. -/
def execCoherencePw (holder line : Nat) (s : State) : Host.Outcome State Fault Refusal := atHolder s holder line 4
/-- COHERENCE_UP: an arriving update. -/
def execCoherenceUp (holder line : Nat) (s : State) : Host.Outcome State Fault Refusal := atHolder s holder line 5
/-- COHERENCE_FL: a flush. -/
def execCoherenceFl (holder line : Nat) (s : State) : Host.Outcome State Fault Refusal := atHolder s holder line 6

/-- COHERENCE_BI: a back-invalidation of a line that the host holds, under CXL 3.1 alone. It yields to a host request in
flight (R435). -/
def execCoherenceBi (line : Nat) (hostBusy : Bool) (s : State) : Host.Outcome State Fault Refusal :=
  .next (if s.module.cxl31 && !hostBusy then holderEvent s holderH line 7 else s)

/-- A directory takes the notice that a quad has been supplied with a line: its entry names the quad, which still holds a line
of the region. -/
def takeNotice (s : State) (line quad : Nat) : State :=
  if placeHolds s.coh quad (line / 8) then modCoh (dirRoom s (4 * quad) line) fun c => addSharer c (4 * quad) line else s

/-- NOTICE_ACKNOWLEDGE: the oldest notice of a die's directory is acknowledged (R433). -/
def execNoticeAcknowledge (die : Nat) (s : State) : Host.Outcome State Fault Refusal :=
  if 4 ≤ die then .fault .noSuchUnit
  else match (dieOf s die).notices with
    | [] => .next s
    | n :: rest => .next (modDie (takeNotice s n.1 n.2.2) die fun d => { d with notices := rest })

/-! ### HOST_ACCESS (R259, R341, R435, R523) -/

/-- The range of a line as its holders know it; a host access names no leaf (log entry 19). -/
def knownRange (s : State) (line : Nat) : Nat :=
  match s.coh.lines.find? fun e => e.1 % 2 ^ 46 == line % 2 ^ 46 with
  | some e => e.2 / 8
  | none => 0

/-- The holder that a host-side access is made by: the host under CXL 3.1, else none. -/
def hostHolder (s : State) (who : HostParty) : Option Nat :=
  match who with
  | .host => if s.module.cxl31 then some holderH else none
  | .ssd _ _ => none

/-- The line events of n bytes from a physical address. -/
def hostLines (s : State) (h : Option Nat) (pa n : Nat) (write : Bool) : Except Nat State :=
  (List.range ((pa + n - 1) / 64 - pa / 64 + 1)).foldl (fun acc i =>
    match acc with
    | .error c => .error c
    | .ok st => lineAccess st h ((pa / 64 + i) * 64) (knownRange st (pa / 64 + i)) write) (.ok s)

/-- An SSD whose command is in flight. -/
def ssdKnown (s : State) (who : HostParty) : Bool :=
  match who with
  | .host => true
  | .ssd die cid => (dieOf s die).reqs.any fun r => r.st == .submitted && r.cid == cid

/-- Poison served to an SSD is kept for its request's record (R259). -/
def servePoison (s : State) (who : HostParty) : State :=
  match who with
  | .host => s
  | .ssd die cid =>
    modDie s die fun d =>
      { d with reqs := d.reqs.map fun r => if r.st == .submitted && r.cid == cid then { r with poison := true } else r }

/-- Data that leaves the module for the host side, marked when a sector of it is poisoned (R259). -/
def hostReply (s : State) (who : HostParty) (pa : Nat) (bs : List Byte) (bad : Bool) : State :=
  modModule s fun m => { m with replies := m.replies ++ [(who, pa, bs, bad)] }

/-- A read by the host side. -/
def hostRead (s : State) (who : HostParty) (pa n : Nat) : State :=
  match hostLines s (hostHolder s who) pa n false with
  | .error _ => s
  | .ok s1 =>
    let bad := poisoned s1 (paLoc s1 pa) n
    hostReply (if bad then servePoison s1 who else s1) who pa (loadBytes s1 (paLoc s1 pa) n) bad

/-- A write by the host side; marked data poisons the sectors it writes. -/
def hostWrite (s : State) (who : HostParty) (pa : Nat) (bs : List Byte) (bad : Bool) : State :=
  match hostLines s (hostHolder s who) pa bs.length true with
  | .error _ => s
  | .ok s1 =>
    let s2 := storeBytes s1 (paLoc s1 pa) bs
    if bad then (sectorsOf (paLoc s1 pa) bs.length).foldl addPoison s2 else s2

/-- HOST_ACCESS: a read or write of this module's memory from the host side. In a management-core window only an aligned
access of eight bytes has an effect; cells that firmware has reserved are out of reach. -/
def execHostAccess (who : HostParty) (write : Bool) (pa : BitVec 52) (size : Nat) (data : List Byte) (poisoned : Bool)
    (s : State) : Host.Outcome State Fault Refusal :=
  let a := pa.toNat
  let bs := data.take size
  if !ssdKnown s who || size == 0 || isRemote s a || reservedCells s (paLoc s a) size then .next s
  else match windowOf s a with
    | some (d, off) =>
      if size != 8 || off % 8 != 0 then .next s
      else if write then (if bs.length == 8 then .next (windowWrite s d off (leNat bs) .host) else .next s)
      else .next (hostReply s who a (leBytes 8 (windowRead s d off)) false)
    | none =>
      if write then (if bs.isEmpty then .next s else .next (hostWrite s who a bs poisoned))
      else .next (hostRead s who a size)

/-! ### Writes of a window by the host (R521 to R523) -/

/-- MODID_WRITE: the first write stands (R522). -/
def execModidWrite (die : Nat) (value : Word) (s : State) : Host.Outcome State Fault Refusal :=
  if 4 ≤ die then .fault .noSuchUnit else .next (windowWrite s die 0 value.toNat .host)

/-- REGISTER_WRITE: an aligned doubleword of a die's window. -/
def execRegisterWrite (die off : Nat) (value : Word) (s : State) : Host.Outcome State Fault Refusal :=
  if 4 ≤ die then .fault .noSuchUnit
  else if off % 8 != 0 then .next s
  else .next (windowWrite s die off value.toNat .host)

/-! ### Power (R513 to R516) -/

/-- The rails in power-up order. -/
def railOrder : List Rail := [.vaux, .vio, .vsram, .vcore, .vddq]

/-- BOOTSTAT of every die. -/
def setBootstat (s : State) (code detail : Nat) : State :=
  (List.range 4).foldl (fun st d => modDie st d fun x => { x with bootstat := BitVec.ofNat 16 (code + detail % 256 * 256) }) s

/-- A module reset: everything as after reset but what lies outside the device: the firmware replacement waiting to take
effect, the interrupts raised so far, the host's error vector, and the model's own data. -/
def resetModule (s : State) : State :=
  { State.reset with
    schedule := s.schedule, delays := s.delays, draws := s.draws
    module := { State.reset.module with nextImage := s.module.nextImage, msi := s.module.msi, hostError := s.module.hostError,
                                        stacksPa := s.module.stacksPa, replies := s.module.replies } }

/-- POWER_UP: the rails start in order; one that fails holds every die in reset, BOOTSTAT naming it in a number of its own
(log entry 23). -/
def execPowerUp (fail : Option Rail) (s : State) : Host.Outcome State Fault Refusal :=
  if !s.module.rails.isEmpty then .next s
  else match fail with
    | none => .next (modModule (resetModule s) fun m => { m with rails := railOrder })
    | some r =>
      let (d, s1) := drawFree (resetModule s)
      .next (setBootstat (modModule s1 fun m => { m with rails := railOrder.takeWhile (· != r), held := true }) 0x81 d.toNat)

/-- POWER_DOWN: the rails stop in the reverse order; nothing is left. -/
def execPowerDown (s : State) : Host.Outcome State Fault Refusal :=
  .next (modModule (resetModule s) fun m => { m with rails := [], held := false })

/-- RAIL_FAULT: a rail leaves tolerance or a die passes 105 °C: every workgroup stops, the host's error vector is raised, the
module is reset, and nothing is written for work in flight. -/
def execRailFault (_overheat : Bool) (s : State) : Host.Outcome State Fault Refusal :=
  if s.module.rails.isEmpty then .next s
  else .next (modModule (resetModule s) fun m => { m with hostError := true })

/-- THROTTLE: it changes timing only (R514). -/
def execThrottle (on : Bool) (s : State) : Host.Outcome State Fault Refusal :=
  .next (modModule s fun m => { m with throttled := on })

/-! ### The boot chain (R135, R517 to R522) -/

/-- BOOTSTAT.CODE of die 0. -/
def bootCode (s : State) : Nat := (dieOf s 0).bootstat.toNat % 256

/-- Steps 1 to 5: none of them has run yet. -/
def bootFirst (s : State) (b : BootInput) : State :=
  let image := if s.module.nextImage.isEmpty then b.image else s.module.nextImage
  if !Config.imageSigned image then setBootstat (modModule s fun m => { m with recovery := true }) 0x82 0
  else
    let s1 := modModule s fun m => { m with image, nextImage := [], recovery := false }
    if !b.memoryOk then setBootstat s1 0x83 b.memoryDetail.toNat
    else
      let s2 := modModule s1 fun m =>
        { m with booted := true, poolBanks := min 512 (Config.imagePoolBanks image), cxl31 := b.cxl31, die2Pcie := b.pcie2Ok }
      if b.pcie0Ok then setBootstat s2 0x05 0 else setBootstat s2 0x85 0

/-- Steps 6 and 7, once MODID has been written: a port whose neighbour has the same MODULE stays down and ends the chain with
0x86 (log entry 17). -/
def bootLast (s : State) (b : BootInput) : State :=
  let s1 := (List.range 16).foldl (fun st p =>
    if b.dupPorts.contains p then st else modPort st p fun x => { x with up := true }) s
  match b.dupPorts.find? fun p => p < 16 with
  | some p => setBootstat s1 0x86 p
  | none => setBootstat s1 0x07 0

/-- Step 6 awaits MODID. -/
def bootAwaits (s : State) (b : BootInput) : State :=
  if bootCode s == 5 && (dieOf s 0).modid.getLsbD 10 then bootLast s b else s

/-- BOOT_CHAIN: the loader's steps as far as they go. -/
def execBootChain (b : BootInput) (s : State) : Host.Outcome State Fault Refusal :=
  if s.module.rails != railOrder || s.module.held then .next s
  else if bootCode s ≤ 1 && !s.module.booted then .next (bootAwaits (bootFirst s b) b)
  else .next (bootAwaits s b)

/-- FIRMWARE_REPLACEMENT: in recovery the loader takes a signed image; it takes effect at the next module reset (R135). -/
def execFirmwareReplacement (image : List Byte) (s : State) : Host.Outcome State Fault Refusal :=
  if s.module.recovery && Config.imageSigned image then .next (modModule s fun m => { m with nextImage := image })
  else .next s

end Sys2Proof.Machine
end

