-- ==== Sys2Proof/Machine/Control.lean ====
section
/-! DEFINITION. Class 0x3: transfers, calls, loops, waits, exit, pre-emption points and software traps (R191 to R201). -/

namespace Sys2Proof.Machine

/-! ### Transfers (R81, R87, R148, R192) -/

/-- A transfer to a target under R81. -/
def transfer (s s' : State) (tid : Nat) (target : Pc) : LaneRes :=
  if targetClear s tid target then .trap (badTarget target) else .jump s' target

/-- The state of a branch: the levels that do not hold its target pop (R148), which is progress (R156). -/
def branchPop (s : State) (tid : Nat) (target : Pc) : State :=
  let t := thr s tid
  let nest := popTo t.nest target
  if nest.length == t.nest.length then s else progress (modThr s tid fun t => { t with nest }) t.wg

/-- A branch to a target. -/
def branchTo (s : State) (tid : Nat) (target : Pc) : LaneRes := transfer s (branchPop s tid target) tid target

/-- The PC that a register's value names, none when R87 calls for BAD_TARGET. -/
def regTarget (v : Nat) : Option Pc := if 2 ^ 56 ≤ v || 4 < v % 64 then none else some (BitVec.ofNat 56 v)

/-- A transfer to the PC in operand A. -/
def viaRegister (s : State) (tid : Nat) (a : Src) (go : Pc → LaneRes) : LaneRes :=
  let v := srcN (thr s tid) a
  match regTarget v with
  | none => .trap (trapOf cBadTarget (some v))
  | some pc => go pc

/-- BRA (R192). -/
def execBra (o : Ops) (m : M3) (s : State) : Host.Outcome State Fault Refusal :=
  laneOp o [] (fun _ s tid => branchTo s tid (targetPc (insPc s tid) m.target)) s

/-- BRX (R192). -/
def execBrx (o : Ops) (_m : M3) (s : State) : Host.Outcome State Fault Refusal :=
  laneOp o [(o.a, .word)] (fun _ s tid => viaRegister s tid o.a (branchTo s tid)) s

/-! ### Calls (R149 to R151, R193) -/

/-- The bytes of a call frame. -/
def callFrame (t : Thread) (ret : Pc) : List Byte :=
  leBytes 8 ret.toNat ++ leBytes 8 t.nest.length ++ nestBytes t.nest ++ leBytes 16 0

/-- A call to a target: the frame at CFP.FRAME·128 − 128, an empty nest, and the transfer. DESIGN CHOICE: the frame's
PROTECTION comes before the check of the target's TARGET bit (log entry 66). -/
def callTo (s : State) (tid : Nat) (target : Pc) : LaneRes :=
  let t := thr s tid
  let f := t.cfp.toNat
  if f == 0 then .trap (trapOf cProtection none)
  else if carrelBytes < f * 128 then .trap (trapOf cProtection (some (f * 128 - 128)))
  else
    let s1 := storeBytes s (carrelLoc t.core (f * 128 - 128)) (callFrame t (nextSlot (insPc s tid)))
    transfer s (progress (modThr s1 tid fun t => { t with cfp := t.cfp - 1, nest := [] }) t.wg) tid target

/-- CALL (R193). -/
def execCall (o : Ops) (m : M3) (s : State) : Host.Outcome State Fault Refusal :=
  laneOp o [] (fun _ s tid => callTo s tid (targetPc (insPc s tid) m.target)) s

/-- CALLX (R193). -/
def execCallx (o : Ops) (_m : M3) (s : State) : Host.Outcome State Fault Refusal :=
  laneOp o [(o.a, .word)] (fun _ s tid => viaRegister s tid o.a (callTo s tid)) s

/-- What a call frame holds: none when R151 calls for ILLEGAL_FIELD. -/
def readFrame (bs : List Byte) : Option (Nat × List LoopLevel) :=
  let ret := leNat (bs.take 8)
  let depth := leNat ((bs.drop 8).take 8)
  if 2 ^ 56 ≤ ret || 8 ≤ depth || leNat (bs.drop 112) != 0 then none
  else (nestOf depth ((bs.drop 16).take 96)).map fun nest => (ret, nest)

/-- RET (R149, R151, R193). -/
def execRet (o : Ops) (_m : M3) (s : State) : Host.Outcome State Fault Refusal :=
  laneOp o [] (fun _ s tid =>
    let t := thr s tid
    let off := t.cfp.toNat * 128
    if carrelBytes < off + 128 then .trap (trapOf cProtection (some off))
    else if poisoned s (carrelLoc t.core off) 128 then .trap (trapOf cPoison (some off))
    else match readFrame (loadBytes s (carrelLoc t.core off) 128) with
      | none => .trap (trapOf cIllegalField none)
      | some (ret, nest) =>
        match regTarget ret with
        | none => .trap (trapOf cBadTarget (some ret))
        | some pc => transfer s (progress (modThr s tid fun t => { t with cfp := t.cfp + 1, nest }) t.wg) tid pc) s

/-! ### Loops (R147, R194, R196) -/

/-- LOOP (R194): a target before START is illegal at decode. -/
def execLoop (o : Ops) (m : M3) (s : State) : Host.Outcome State Fault Refusal :=
  laneOpWith (fun s tid => decide (targetPc (insPc s tid) m.target < nextSlot (insPc s tid))) o
    (fun _ _ => [(o.a, .word)]) (fun _ s tid =>
      let t := thr s tid
      let stop := targetPc (insPc s tid) m.target
      let count := srcN t o.a % 2 ^ 32
      if count == 0 then .jump s (nextSlot stop)
      else if 4 ≤ t.nest.length then .trap (trapOf cLoopDepth none)
      else .done (modThr s tid fun t =>
        { t with nest := ⟨nextSlot (insPc s tid), stop, BitVec.ofNat 32 count⟩ :: t.nest })) s

/-- LEXIT (R147, R196). -/
def execLexit (o : Ops) (_m : M3) (s : State) : Host.Outcome State Fault Refusal :=
  laneOp o [] (fun _ s tid =>
    let t := thr s tid
    match t.nest with
    | [] => .trap (trapOf cLoopDepth none)
    | l :: rest => .jump (progress (modThr s tid fun t => { t with nest := rest }) t.wg) (nextSlot l.stop)) s

/-- The level that LCNT names, 0 the innermost (R196). -/
def lcntLevel (m : M3) : Nat := bits m.var.toNat 1 0

/-- LCNT (R196). -/
def execLcnt (o : Ops) (m : M3) (s : State) : Host.Outcome State Fault Refusal :=
  laneOp o [] (fun _ s tid =>
    match (thr s tid).nest[lcntLevel m]? with
    | none => .trap (trapOf cLoopDepth none)
    | some l => .done (writeDst s tid o.d l.count.toNat)) s

/-- LCNT, set (R196): a count of 0 is taken as 1. -/
def execLcntSet (o : Ops) (m : M3) (s : State) : Host.Outcome State Fault Refusal :=
  laneOp o [(o.a, .word)] (fun _ s tid =>
    let t := thr s tid
    match t.nest[lcntLevel m]? with
    | none => .trap (trapOf cLoopDepth none)
    | some l =>
      let count := max 1 (srcN t o.a % 2 ^ 32)
      .done (modThr s tid fun t =>
        { t with nest := t.nest.set (lcntLevel m) { l with count := BitVec.ofNat 32 count } })) s

/-! ### Exit, yield, no operation (R90, R197, R199) -/

/-- EXIT (R197): the thread ends; inside a transaction it aborts with code 7. -/
def execExit (o : Ops) (_m : M3) (s : State) : Host.Outcome State Fault Refusal :=
  laneOp o [] (fun _ s tid =>
    if (txOf s tid).isSome then .done (txAbortBy s tid 7 0)
    else .done (progress (modThr s tid fun t => { clearLatches t with exited := true, pend := [] }) (thr s tid).wg)) s

/-- YIELD (R199). -/
def execYield (o : Ops) (_m : M3) (s : State) : Host.Outcome State Fault Refusal :=
  laneOp o [] (fun _ s tid => if (txOf s tid).isSome then .done (txAbortBy s tid 7 0) else .yield s) s

/-- NOP (R90). -/
def execNop (o : Ops) (_m : M3) (s : State) : Host.Outcome State Fault Refusal := laneOp o [] (fun _ s _ => .done s) s

/-! ### Waits (R198) -/

/-- WAIT .acc: B the header, or the copy ring when B is g0. -/
def execWaitAcc (o : Ops) (_m : M3) (s : State) : Host.Outcome State Fault Refusal :=
  laneOp o [(o.a, .word), (o.b, .word)] (fun _ s tid =>
    let t := thr s tid
    let own := o.b == .reg (.g 0)
    let a : Word := BitVec.ofNat 64 (srcN t o.a % 2 ^ 48)
    let b : Word := if own then 0 else srcWord t o.b
    if (txOf s tid).isSome then .done (txAbortBy s tid 7 0)
    else if b.toNat % 64 != 0 then .trap (trapOf cMisaligned (some b.toNat))
    else waitOn { code := 0, a, b, dst := .latchOnly, var := if own then 1 else 0 } (waitAccTest s tid own a b)) s

/-- WAIT .dep. -/
def execWaitDep (o : Ops) (_m : M3) (s : State) : Host.Outcome State Fault Refusal :=
  laneOp o [(o.a, .word), (o.b, .word)] (fun _ s tid =>
    let a := srcWord (thr s tid) o.a
    if (txOf s tid).isSome then .done (txAbortBy s tid 7 0)
    else if 2 ^ 14 ≤ a.toNat then .trap (trapOf cIllegalField none)
    else waitOn { code := 1, a, b := 0, dst := .latchOnly, var := 0 } (waitDepTest s a)) s

/-- WAIT .nbar. -/
def execWaitNbar (o : Ops) (_m : M3) (s : State) : Host.Outcome State Fault Refusal :=
  laneOp o [(o.a, .word), (o.b, .word)] (fun _ s tid =>
    let t := thr s tid
    let a := srcWord t o.a
    let b : Word := BitVec.ofNat 64 (srcN t o.b % 2 ^ 16)
    if (txOf s tid).isSome then .done (txAbortBy s tid 7 0)
    else if 2 ^ 4 ≤ a.toNat then .trap (trapOf cIllegalField none)
    else waitOn { code := 2, a, b, dst := .latchOnly, var := 0 } (waitNbarTest s tid a b)) s

/-! ### Pre-emption points and software traps (R200, R201) -/

/-- A quire of the matrix role at its PPOINT: it stops, and the tiles of the mask are saved (R130, R200). In deterministic mode
the whole workgroup stops at this one boundary (R264); where it has another quire of the role, which stands at no point of
its own, every tile is saved. DESIGN CHOICE: log entry 88. -/
def pointReached (w : Workgroup) (q : Nat) (mask : BitVec 24) : Workgroup :=
  if w.det then
    { w with atPoint := List.range w.roles.length
             live := if (w.roles.filter (· == .matrix)).length == 1 then w.live ||| mask else BitVec.allOnes 24 }
  else { w with atPoint := w.atPoint ++ [q], live := w.live ||| mask }

/-- PPOINT (R200): with a pre-emption pending, a quire of the matrix role stops after it. -/
def execPpoint (o : Ops) (m : M3) (s : State) : Host.Outcome State Fault Refusal :=
  laneOp o [] (fun _ s tid =>
    let w := wgOf s (tidWg tid)
    if w.roles.getD (tidQuire tid) .general == .matrix && w.preempt && !w.atPoint.contains (tidQuire tid) then
      .yield (modWg s (tidWg tid) fun w => pointReached w (tidQuire tid) m.target)
    else .done s) s

/-- A software trap with a code: the handler resumes at the slot after the instruction (R201). -/
def softTrap (cause : BitVec 8) (m : M3) (s : State) (tid : Nat) : LaneRes :=
  .trap { trapOf cause (some m.target.toNat) with pc := some (nextSlot (insPc s tid)) }

/-- TRAP (R201). -/
def execTrap (o : Ops) (m : M3) (s : State) : Host.Outcome State Fault Refusal :=
  laneOp o [] (fun _ s tid => softTrap cSoftware m s tid) s

/-- BKPT (R201). -/
def execBkpt (o : Ops) (m : M3) (s : State) : Host.Outcome State Fault Refusal :=
  laneOp o [] (fun _ s tid => softTrap cBreakpoint m s tid) s

end Sys2Proof.Machine
end

