-- ==== Sys2Proof/Machine/Convert.lean ====
section
/-! DEFINITION. Class 0x2: conversion and format instructions (R185 to R190). -/

namespace Sys2Proof.Machine

/-- The conversion of one element: Encode(Dt, Decode(St, x), M) with the xv register that the subfield names on both
sides (R185). -/
def convert (m : M2) (xv : Nat) (draw raw : Nat) : Nat × BitVec 3 :=
  encodeNum m.dt xv m.rnd m.sat (isIN m.st) draw (decodeNum m.st xv raw)

/-- The xv register that a conversion reads: the one its subfield names when a side is f4x (R185). -/
def convertXv (m : M2) : List Nat := if m.dt == .f4x || m.st == .f4x then [m.xv.toNat] else []

/-- CVT (R185). -/
def execCvt (o : Ops) (m : M2) (s : State) : Host.Outcome State Fault Refusal :=
  laneOp o [(o.a, .word)] (fun _ s tid =>
    let t := thr s tid
    let (c, fl) := convert m (readXv t m.xv.toNat) (drawOf t m.rnd) (low (fmtWidth m.st) (srcN t o.a))
    withXv t o (convertXv m) (.done (resultG (setFlags (setThr s tid (afterDraw t m.rnd)) tid fl) tid 3 o.d c))) s

/-- VCVT (R186): the window's elements in ascending order, every other element zero. -/
def execVcvt (o : Ops) (m : M2) (s : State) : Host.Outcome State Fault Refusal :=
  laneOp o [(o.a, .typed m.st)] (fun _ s tid =>
    let t := thr s tid
    let ns := elemCount m.st
    let nd := elemCount m.dt
    let n := min ns nd
    let p := m.var.toNat
    let src := if nd < ns then p * n else 0
    let dst := if ns < nd then p * n else 0
    let a := srcW t o.a
    let one (i draw : Nat) : Nat × BitVec 3 := convert m (readXv t m.xv.toNat) draw (elemAt m.st a (src + i))
    let (es, fl, t1) := drawElems m.rnd n one t
    withXv t o (convertXv m) (.done (resultV (setFlags (setThr s tid t1) tid fl) tid 3 o.d
      (packElems m.dt (List.replicate dst 0 ++ es)) (tagOf m.dt (if m.dt == .f4x then m.xv.toNat else 0))))) s

/-- The largest exponent of a QUANT format (R187). -/
def quantEmax (t : Fmt) : Int :=
  match t with
  | .f8e4 => 8
  | .f8e5 => 15
  | .f6e3 => 4
  | _ => 2

/-- QUANT.scale's code for eight f32 values (R187). -/
def quantScaleCode (dt : Fmt) (xs : List Num) : Nat :=
  if xs.any fun x => match x with
    | .fin _ _ _ => false
    | _ => true
  then 0xFF
  else
    let top := xs.foldl (fun (acc : Option Int) x =>
      match x with
      | .fin _ m e => if m == 0 then acc else
          let l := (Nat.log2 m : Int) + e
          match acc with
          | some a => some (max a l)
          | none => some l
      | _ => acc) none
    match top with
    | none => 0
    | some l => (min (max (l - quantEmax dt + 127) 0) 254).toNat

/-- The eight f32 elements of a vector source. -/
def f32Elems (v : Nat) : List Num := (List.range 8).map fun i => decodeFloat .f32 (elemAt .f32 v i)

/-- QUANT, scale form (R187). -/
def execQuantScale (o : Ops) (m : M2) (s : State) : Host.Outcome State Fault Refusal :=
  laneOp o [(o.a, .typed .f32)] (fun _ s tid =>
    .done (resultG s tid 3 o.d (quantScaleCode m.dt (f32Elems (srcW (thr s tid) o.a))))) s

/-- QUANT, codes form (R187): the window takes a_i · 2^(127−c), the rest comes from C; c = 0xFF encodes NaNs. -/
def execQuantCodes (o : Ops) (m : M2) (s : State) : Host.Outcome State Fault Refusal :=
  let fromC := o.c != .reg (.g 0)
  laneOp o [(o.a, .typed .f32), (o.b, .word), (o.c, if fromC then .typed m.dt else .word)] (fun _ s tid =>
    let t := thr s tid
    let c := srcN t o.b % 256
    let p := m.var.toNat / 2
    let xs := f32Elems (srcW t o.a)
    let one (i draw : Nat) : Nat × BitVec 3 :=
      let x := if c == 0xFF then .nan false else scale2 (xs.getD i (.nan false)) (127 - (c : Int))
      encodeNum m.dt 0 m.rnd false false draw x
    let (es, fl, t1) := drawElems m.rnd 8 one t
    let base := if fromC then srcW t o.c else 0
    let all := (List.range (elemCount m.dt)).map fun i =>
      if p * 8 ≤ i && i < p * 8 + 8 then es.getD (i - p * 8) 0 else elemAt m.dt base i
    .done (resultV (setFlags (setThr s tid t1) tid fl) tid 3 o.d (packElems m.dt all) (tagOf m.dt 0))) s

/-- DEQ (R188): the scale and zero point come from B; the group size is not checked. -/
def execDeq (o : Ops) (m : M2) (s : State) : Host.Outcome State Fault Refusal :=
  laneOp o [(o.a, .raw), (o.b, .word)] (fun _ s tid =>
    let t := thr s tid
    let n := elemCount m.dt
    let b := srcN t o.b
    let one (i draw : Nat) : Nat × BitVec 3 :=
      let code := elemAt m.st (srcW t o.a) (m.var.toNat * n + i)
      let x := if isQ m.st then decodeQ code (b % 2 ^ 16) (if isQ4 m.st then bits b 19 16 else bits b 23 16)
        else decodeBs m.st code (bits b (8 * (i / 8) + 7) (8 * (i / 8)))
      encodeNum m.dt 0 m.rnd false false draw x
    let (es, fl, t1) := drawElems m.rnd n one t
    .done (resultV (setFlags (setThr s tid t1) tid fl) tid 3 o.d (packElems m.dt es) (tagOf m.dt 0))) s

/-- PACK (R189): the low halves of A and B. -/
def execPack (o : Ops) (m : M2) (s : State) : Host.Outcome State Fault Refusal :=
  laneOp o [(o.a, .typed m.dt), (o.b, .typed m.dt)] (fun _ s tid =>
    let t := thr s tid
    let h := elemCount m.dt / 2
    let half (x : Src) : List Nat := (List.range h).map (elemAt m.dt (srcW t x))
    .done (resultV s tid 3 o.d (packElems m.dt (half o.a ++ half o.b)) (tagOf m.dt 0))) s

/-- UNPACK (R189): one half of A, zero above. -/
def execUnpack (o : Ops) (m : M2) (s : State) : Host.Outcome State Fault Refusal :=
  laneOp o [(o.a, .typed m.dt)] (fun _ s tid =>
    let h := elemCount m.dt / 2
    let es := (List.range h).map fun i => elemAt m.dt (srcW (thr s tid) o.a) (m.var.toNat * h + i)
    .done (resultV s tid 3 o.d (packElems m.dt es) (tagOf m.dt 0))) s

/-- TAG (R190): the data copied with a new tag; a t-tile is retagged in place and no latch is written. -/
def execTag (o : Ops) (m : M2) (s : State) : Host.Outcome State Fault Refusal :=
  let tag := tagOf m.dt m.xv.toNat
  match o.a with
  | .reg (.t n) =>
    laneOp o [] (fun s0 s tid =>
      let c := (thr s tid).core
      if tileQueued s0 c n.toNat true then .stall s0
      else .done (modMx s c fun x => { x with ttag := tset x.ttag n.toNat tag })) s
  | _ => laneOp o [(o.a, .raw)] (fun _ s tid =>
      .done (result s tid 3 o.d true (srcWide (thr s tid) o.a) tag)) s

/-- TAGQ (R190): an a-tile is always f32 (R103); a 64-bit latch gives 0. -/
def execTagq (o : Ops) (m : M2) (s : State) : Host.Outcome State Fault Refusal :=
  let _ := m
  laneOp o [(o.a, .either)] (fun s0 s tid =>
    let t := thr s tid
    match o.a with
    | .reg (.t n) =>
      if tileQueued s0 t.core n.toNat false then .stall s0
      else .done (resultG s tid 3 o.d (tileTag s t.core n.toNat).toNat)
    | .reg (.a _) => .done (resultG s tid 3 o.d 0x011)
    | x => .done (resultG s tid 3 o.d (srcTag t x).toNat)) s

/-- XVSET (R190). -/
def execXvset (o : Ops) (m : M2) (s : State) : Host.Outcome State Fault Refusal :=
  let _ := m
  laneOp o [(o.a, .word)] (fun _ s tid => .done (resultG s tid 3 o.d (srcN (thr s tid) o.a % 256))) s

end Sys2Proof.Machine
end

