-- ==== Sys2Proof/Machine/Mailbox.lean ====
section
/-! DEFINITION. The commands of the management mailbox (R414 to R423, R485, R519, R523 to R527). -/

namespace Sys2Proof.Machine

/-! ### A command (R523 to R527) -/

/-- A command word of a die's mailbox. -/
def mbCmd (s : State) (die i : Nat) : Nat := ((dieOf s die).mbox.cmd.getD i 0).toNat

/-- The command's operation code and the context it acts for. -/
def mbOpc (s : State) (die : Nat) : Nat := mbCmd s die 0 % 256
def mbContext (s : State) (die : Nat) : Nat := bits (mbCmd s die 0) 31 20

/-- What a command ends with: its new state, CAUSE and DETAIL; a refused command changes nothing. -/
inductive MbRes where
  | done (s : State) (detail : Nat)
  | refused (cause : BitVec 8) (detail : Nat)
  /-- The command still waits. -/
  | later

/-- MBSTAT written, the command over, and MBVEC raised (R524). -/
def mbFinish (s : State) (die : Nat) (seq : BitVec 16) (cause detail : Nat) : State :=
  let c0 := mbCmd s die 0
  let stat := seq.toNat + cause % 256 * 2 ^ 16 + 2 ^ 24 + detail % 2 ^ 32 * 2 ^ 32
  let s1 := modDie s die fun d => { d with mbox := { d.mbox with stat := BitVec.ofNat 64 stat, pending := none } }
  if bit c0 8 then raiseMsi s1 (bits c0 19 9) else s1

/-- MBDATA from an offset on is zero. -/
def mbdataClear (s : State) (die from_ : Nat) : Bool :=
  !(s.mem.any fun c => mbdataLoc die from_ ≤ c.1 && c.1 < mbdataLoc die 0x2000)

/-- Command words from number i on are zero. -/
def wordsClear (s : State) (die i : Nat) : Bool := (List.range 8).all fun j => j < i || mbCmd s die j == 0

/-- Whether a thread issues for another context than its own (R526). -/
def foreign (s : State) (die : Nat) (by_ : Issuer) : Bool :=
  match by_ with
  | .host => false
  | .thread c => c != mbContext s die

/-- A command of a die runs when its doorbell has been taken, firmware runs, and its code is the row's. `home` is the die that
R525 names, `words` how many command words the row names, `data` how many bytes of MBDATA. -/
def mbRun (die : Nat) (seq : BitVec 16) (by_ : Issuer) (opc : Nat) (home : Option Nat) (words data : Nat)
    (bad : Bool) (act : State → MbRes) (s : State) : Host.Outcome State Fault Refusal :=
  if 4 ≤ die then .fault .noSuchUnit
  else if (dieOf s die).mbox.pending != some (seq, by_) || !s.module.booted || mbOpc s die != opc then .next s
  else
    let s1 := s
    if bits (mbCmd s die 0) 63 32 != 0 || (home.isSome && home != some die) || bad || !wordsClear s die words ||
        !mbdataClear s die data then .next (mbFinish s1 die seq cIllegalField.toNat 0)
    else if foreign s die by_ then .next (mbFinish s1 die seq cProtection.toNat 0)
    else match act s1 with
      | .done s2 d => .next (mbFinish s2 die seq 0 d)
      | .refused c d => .next (mbFinish s1 die seq c.toNat d)
      | .later => .next s

/-- A refusal with ILLEGAL_FIELD. -/
def mbIllegal : MbRes := .refused cIllegalField 0
/-- A refusal with PROTECTION. -/
def mbDenied : MbRes := .refused cProtection 0

/-- A physical address of 52 bits, aligned. -/
def physBad (a align : Nat) : Bool := 2 ^ 52 ≤ a || a % align != 0

/-- A virtual ring header: 56 bits, aligned to 64 bytes. -/
def ringHdrBad (a : Nat) : Bool := 2 ^ 56 ≤ a || a % 64 != 0

/-- A context that a command names, held by the context it acts for. -/
def withContext (s : State) (die ctx : Nat) (r : MbRes) : MbRes :=
  if (tget s.contexts ctx).isNone then mbIllegal else if ctx != mbContext s die then mbDenied else r

/-! ### CTXNEW, CTXEND, ASSET -/

/-- CTXNEW. -/
def execCtxnew (die : Nat) (seq : BitVec 16) (by_ : Issuer) (s : State) : Host.Outcome State Fault Refusal :=
  let w1 := mbCmd s die 1
  let (base, logn, ctl) := (mbCmd s die 2, mbCmd s die 3, mbCmd s die 4)
  mbRun die seq by_ 0x01 (some 0) 5 0
    (2 ^ 30 ≤ w1 || w1 % 2 ^ 12 == 0 || physBad base 32 || logn < 4 || 12 < logn || physBad ctl 16)
    (fun s =>
      if (tget s.contexts (w1 % 2 ^ 12)).isSome then mbDenied
      else .done { s with contexts := tset s.contexts (w1 % 2 ^ 12)
                            { asid := BitVec.ofNat 16 (bits w1 27 12), priv := bit w1 28, det := bit w1 29, ringBase := base,
                              logn, ctl } } 0) s

/-- A ring of a context whose PUB equals its ACC. -/
def ringIdle (s : State) (r : Ring) : Bool :=
  let (asid, priv) := ctxSpace s (ringCtx r)
  match ringPlaceOf s asid priv r.loc with
  | some (s1, p) => hdrPub s1 p.loc == hdrAcc s1 p.loc
  | none => true

/-- Everything of a context has completed: bindings, rings, sends, annex packets. -/
def contextIdle (s : State) (ctx : Nat) : Bool :=
  (s.dies.all fun d =>
    (d.2.slots.all fun b => bindContext b.2.words != ctx || b.2.completed) &&
    (d.2.pairs.all fun p => p.2.context != ctx || ringIdle s p.2.ring) &&
    (d.2.cardRings.all fun r => r.2.context != ctx || ringIdle s r.2.ring) &&
    d.2.coll.sends.all fun x => x.context != ctx) &&
  (s.annex.queues.all fun q => q.2.context != ctx || ringIdle s q.2.ring) &&
  s.annex.packets.all fun p => axPacketCtx s p != ctx

/-- A context's plans, rings and regions freed, and the context ended. -/
def endContext (s : State) (ctx : Nat) : State :=
  let s1 := s.regions.foldl (fun st e => if e.2.context == ctx then freeRegion st e.1 e.2 else st) s
  { s1 with
    contexts := tdel s1.contexts ctx
    dies := s1.dies.map fun d =>
      (d.1, { d.2 with
        pairs := d.2.pairs.filter fun p => p.2.context != ctx
        cardRings := d.2.cardRings.filter fun r => r.2.context != ctx
        coll := { d.2.coll with plans := d.2.coll.plans.filter fun p => p.2.context != ctx } })
    annex := { s1.annex with queues := s1.annex.queues.filter fun q => q.2.context != ctx } }

/-- CTXEND. -/
def execCtxend (die : Nat) (seq : BitVec 16) (by_ : Issuer) (s : State) : Host.Outcome State Fault Refusal :=
  let w1 := mbCmd s die 1
  mbRun die seq by_ 0x02 (some 0) 2 0 (2 ^ 12 ≤ w1)
    (fun s => withContext s die w1 (if contextIdle s w1 then .done (endContext s w1) 0 else .later)) s

/-- ASSET. -/
def execAsset (die : Nat) (seq : BitVec 16) (by_ : Issuer) (s : State) : Host.Outcome State Fault Refusal :=
  let (id, root) := (mbCmd s die 1, mbCmd s die 2)
  mbRun die seq by_ 0x03 (some 0) 3 0 (2 ^ 16 ≤ id || physBad root (2 ^ 20))
    (fun s => .done { s with spaces := tset s.spaces id { spaceEntry s id with root := some root } } 0) s

/-! ### LQREG, LQFREE, FREPLY -/

/-- LQREG: the header's granule is homed on this die. -/
def execLqreg (die : Nat) (seq : BitVec 16) (by_ : Issuer) (s : State) : Host.Outcome State Fault Refusal :=
  let (i, hdr) := (mbCmd s die 1, mbCmd s die 2)
  mbRun die seq by_ 0x04 none 3 0 (16 ≤ i || physBad hdr 64 || homeDie hdr != die || isRemote s hdr)
    (fun s => .done (modDie s die fun d => { d with queues := tset d.queues i { hdr, halted := false } }) 0) s

/-- LQFREE. -/
def execLqfree (die : Nat) (seq : BitVec 16) (by_ : Issuer) (s : State) : Host.Outcome State Fault Refusal :=
  let i := mbCmd s die 1
  mbRun die seq by_ 0x05 none 2 0 (16 ≤ i)
    (fun s => .done (modDie s die fun d => { d with queues := tdel d.queues i }) 0) s

/-- A parked copy entry that a reply names: its quad, and the entry. -/
def parkedRun (s : State) (ctx : Nat) (idx : Word) : Option (Nat × CopyRun) :=
  s.quads.findSome? fun q => ((q.2.chans.flatMap fun c => c.2).find? fun x =>
    (wgOf s x.wg).context == ctx && match x.st with
      | .parked _ _ _ i => i == idx
      | _ => false).map fun x => (q.1, x)

/-- A parked slip that a reply names. -/
def parkedSlip (s : State) (ctx : Nat) (idx : Word) : Option (Nat × Slip) :=
  s.quads.findSome? fun q => (q.2.slips.find? fun x =>
    (wgOf s x.wg).context == ctx && match x.st with
      | .parked _ _ i => i == idx
      | _ => false).map fun x => (q.1, x)

/-- Whether the entry that a reply names belongs to a saved workgroup: its carrel and catalog are away, and an ABANDON waits
for the restore. -/
def parkedAway (s : State) (ctx : Nat) (idx : Word) : Bool :=
  (match parkedRun s ctx idx with
   | some x => !wgServed s x.2.wg
   | none => false) ||
  (match parkedSlip s ctx idx with
   | some x => !wgServed s x.2.wg
   | none => false)

/-- A parked job. -/
def jobParked (st : JobState) (idx : Word) : Bool :=
  match st with
  | .parked _ _ i => i == idx
  | _ => false

/-- A parked request that a reply names. -/
def parkedReq (s : State) (ctx : Nat) (idx : Word) : Option (Nat × NvReq) :=
  s.dies.findSome? fun d => (d.2.reqs.find? fun r =>
    jobParked r.st idx && ((tget d.2.pairs r.pair).map fun p => p.context) == some ctx).map fun r => (d.1, r)

/-- A parked card that a reply names. -/
def parkedCard (s : State) (ctx : Nat) (idx : Word) : Option (Nat × Card) :=
  s.dies.findSome? fun d => (d.2.cards.find? fun c =>
    jobParked c.st idx && ((tget d.2.cardRings c.ring).map fun r => r.context) == some ctx).map fun c => (d.1, c)

/-- A reply to a copy entry (R251). -/
def replyRun (s : State) (quad : Nat) (x : CopyRun) (abandon : Bool) : State :=
  match x.st with
  | .parked cause sub _ _ =>
    if abandon then endRun s quad x (cause.toNat, some sub.toNat)
    else modChan s quad (copyChan x.words) fun xs => xs.map fun y =>
      if y.hdr == x.hdr && y.core == x.core && y.k == x.k then { y with st := .running } else y
  | _ => s

/-- A reply to a slip (R284): it is queued again from its first K-step, or ends. -/
def replySlip (s : State) (quad : Nat) (x : Slip) (abandon : Bool) : State :=
  if abandon then endSlip s quad x else modSlip s quad x fun y => { y with st := .queued, step := 0 }

/-- The cause a job is parked with. -/
def jobCause (st : JobState) : Nat :=
  match st with
  | .parked c _ _ => c.toNat
  | _ => 0

/-- A reply to a request: submitted again, or abandoned with ESTAT 4 (R356). -/
def replyReq (s : State) (die : Nat) (r : NvReq) (abandon : Bool) : State :=
  if abandon then completeReq s die r 4 (jobCause r.st) 0 0
  else modDie s die fun d =>
    { d with reqs := d.reqs.map fun y => if y.pair == r.pair && y.k == r.k then { y with st := .running } else y }

/-- A reply to a card: run again, or abandoned (R359). -/
def replyCard (s : State) (die : Nat) (c : Card) (abandon : Bool) : State :=
  if abandon then completeCard s die c stAbandoned (jobCause c.st) 0 0 0 else modCard s die c fun y => { y with st := .running }

/-- The entry that a reply names, answered; none when nothing is parked under that index. -/
def replyTo (s : State) (ctx : Nat) (idx : Word) (abandon : Bool) : Option State :=
  match parkedRun s ctx idx with
  | some (q, x) => some (replyRun s q x abandon)
  | none =>
    match parkedSlip s ctx idx with
    | some (q, x) => some (replySlip s q x abandon)
    | none =>
      match parkedReq s ctx idx with
      | some (d, r) => some (replyReq s d r abandon)
      | none => (parkedCard s ctx idx).map fun x => replyCard s x.1 x.2 abandon

/-- FREPLY. -/
def execFreply (die : Nat) (seq : BitVec 16) (by_ : Issuer) (s : State) : Host.Outcome State Fault Refusal :=
  let (ctx, idx, w3) := (mbCmd s die 1, mbCmd s die 2, mbCmd s die 3)
  mbRun die seq by_ 0x06 none 4 0 (2 ^ 12 ≤ ctx || 2 ≤ w3)
    (fun s => withContext s die ctx
      (if w3 == 1 && parkedAway s ctx (BitVec.ofNat 64 idx) then .later
       else match replyTo s ctx (BitVec.ofNat 64 idx) (w3 == 1) with
       | some s1 => .done s1 0
       | none => mbIllegal)) s

/-! ### QPBIND, CARDBIND, AXBIND, UNBIND -/

/-- A ring in a context's memory, as its engine first finds it. -/
def boundRing (ctx hdr : Nat) : Ring := { loc := .global ctx (BitVec.ofNat 64 hdr), wg := 0, done := [], faulted := false }

/-- A ring bound: nothing that an engine has known of its header counts. -/
def freshRing (s : State) (ctx hdr : Nat) : State :=
  let (asid, priv) := ctxSpace s ctx
  forgetHead s asid priv (boundRing ctx hdr).loc

/-- A number that is free, or that a context holds: another's is denied, its own is refused (log entry 17). -/
def whenFree (s : State) (die : Nat) (holder : Option Nat) (r : MbRes) : MbRes :=
  match holder with
  | none => r
  | some c => if c == mbContext s die then mbIllegal else mbDenied

/-- QPBIND. -/
def execQpbind (die : Nat) (seq : BitVec 16) (by_ : Issuer) (s : State) : Host.Outcome State Fault Refusal :=
  let (w1, w2, w3, w4, w5) := (mbCmd s die 1, mbCmd s die 2, mbCmd s die 3, mbCmd s die 4, mbCmd s die 5)
  let n := w1 % 64
  let ctx := w1 / 64
  mbRun die seq by_ 0x07 none 6 0
    (2 ^ 18 ≤ w1 || 2 ^ 42 ≤ w2 || w3 < 1000 || 60000000 < w3 || 2 ^ 16 ≤ w4 || ringHdrBad w5)
    (fun s => withContext s die ctx (whenFree s die ((tget (dieOf s die).pairs n).map fun p => p.context)
      (let p : QueuePair := ⟨ctx, BitVec.ofNat 32 w2, bits w2 41 32 + 1, w3, BitVec.ofNat 16 w4, boundRing ctx w5, []⟩
       .done (modDie (freshRing s ctx w5) die fun d => { d with pairs := tset d.pairs n p }) 0))) s

/-- CARDBIND. -/
def execCardbind (die : Nat) (seq : BitVec 16) (by_ : Issuer) (s : State) : Host.Outcome State Fault Refusal :=
  let (w1, w2) := (mbCmd s die 1, mbCmd s die 2)
  let n := w1 % 64
  let ctx := w1 / 64
  mbRun die seq by_ 0x08 none 3 0 (2 ^ 18 ≤ w1 || ringHdrBad w2)
    (fun s => withContext s die ctx (whenFree s die ((tget (dieOf s die).cardRings n).map fun r => r.context)
      (.done (modDie (freshRing s ctx w2) die fun d => { d with cardRings := tset d.cardRings n { context := ctx, ring := boundRing ctx w2 } }) 0))) s

/-- A window of AXBIND: base, length, writes allowed. -/
def axbindWindow (s : State) (die i : Nat) : Nat × Nat × Bool :=
  let v := readWord s (mbdataLoc die (16 * i + 8))
  (readWord s (mbdataLoc die (16 * i)), v % 2 ^ 32, bit v 32)

/-- A window that AXBIND refuses. -/
def windowBad (s : State) (die i : Nat) : Bool :=
  let (base, len, _) := axbindWindow s die i
  2 ^ 56 ≤ base || base % 65536 != 0 || len % 65536 != 0 || 2 ^ 33 ≤ readWord s (mbdataLoc die (16 * i + 8))

/-- AXBIND: the guest has been told of no packet after TAKEN. -/
def execAxbind (die : Nat) (seq : BitVec 16) (by_ : Issuer) (s : State) : Host.Outcome State Fault Refusal :=
  let (w1, w2, w3) := (mbCmd s die 1, mbCmd s die 2, mbCmd s die 3)
  let n := w1 % 64
  let ctx := w1 / 64
  mbRun die seq by_ 0x09 (some 1) 4 (16 * min 8 w3)
    (2 ^ 18 ≤ w1 || ringHdrBad w2 || 8 < w3 || (List.range (min 8 w3)).any (windowBad s die))
    (fun s => withContext s die ctx (whenFree s die ((tget s.annex.queues n).map fun q => q.context)
      (let ring := boundRing ctx w2
       let (asid, priv) := ctxSpace s ctx
       let known := match ringPlaceOf (freshRing s ctx w2) asid priv ring.loc with
         | some (s1, p) => hdrTaken s1 p.loc
         | none => 0
       let q : AxQueue := { context := ctx, ring, windows := (List.range w3).map (axbindWindow s die), known := BitVec.ofNat 48 known }
       .done (modAnnex (freshRing s ctx w2) fun a => { a with queues := tset a.queues n q }) 0))) s

/-- A bound ring that is idle goes; the rest waits or is refused. -/
def unbindRing (s : State) (die : Nat) (r : Option (Nat × Ring)) (gone : State) : MbRes :=
  match r with
  | none => mbIllegal
  | some (ctx, ring) => if ctx != mbContext s die then mbDenied else if ringIdle s ring then .done gone 0 else .later

/-- UNBIND. -/
def execUnbind (die : Nat) (seq : BitVec 16) (by_ : Issuer) (s : State) : Host.Outcome State Fault Refusal :=
  let w1 := mbCmd s die 1
  let n := w1 / 4
  mbRun die seq by_ 0x0A none 2 0 (2 ^ 8 ≤ w1 || w1 % 4 == 3 || (w1 % 4 == 2 && die != 1))
    (fun s =>
      let d := dieOf s die
      if w1 % 4 == 0 then
        unbindRing s die ((tget d.pairs n).map fun p => (p.context, p.ring)) (modDie s die fun d => { d with pairs := tdel d.pairs n })
      else if w1 % 4 == 1 then
        unbindRing s die ((tget d.cardRings n).map fun p => (p.context, p.ring))
          (modDie s die fun d => { d with cardRings := tdel d.cardRings n })
      else
        unbindRing s die ((tget s.annex.queues n).map fun p => (p.context, p.ring))
          (modAnnex s fun a => { a with queues := tdel a.queues n })) s

/-! ### The verifier (R417 to R423) -/

/-- A refusal of the verifier: the check, the state, whether it failed on the header, and the event. -/
structure Reject where
  check : Nat
  state : Nat
  hdr : Bool
  event : Nat
  deriving DecidableEq, Repr

/-- Bits [25:8] of the refusal word (R422). -/
def Reject.detail (r : Reject) (range : Nat) : Nat :=
  r.check + r.state * 2 ^ 4 + (if r.hdr then 2 ^ 7 else 0) + r.event * 2 ^ 8 + range * 2 ^ 12

/-- The states and events of a table, in order. -/
def tableCells (t : Table) : List (Nat × Nat) := (List.range (t.nsm1 + 1)).flatMap fun st => (List.range 16).map fun ev => (st, ev)

/-- The word of an entry. -/
def entryWord (t : Table) (c : Nat × Nat) : Nat := (t.entries.getD (16 * c.1 + c.2) 0).toNat

/-- The first entry that fails a check. -/
def firstBad (t : Table) (check : Nat) (bad : Nat × Nat → Bool) : Option Reject :=
  ((tableCells t).find? bad).map fun c => ⟨check, c.1, false, c.2⟩

/-- Check 1 of an entry: defined, NEXT within the states, RZ fields zero. Every DATA and MSG code is assigned (R418). -/
def entryMalformed (t : Table) (c : Nat × Nat) : Bool :=
  let w := entryWord t c
  !bit w 0 || t.nsm1 < bits w 31 29 || bits w 25 24 != 0 || bits w 17 1 != 0

/-- Check 2 of an entry (R421). -/
def entryUnguarded (t : Table) (c : Nat × Nat) : Bool :=
  let e := entryOf t c.1 c.2
  (permOf t e.next == 2 && permOf t c.1 != 2 && !bit e.msg 0 && !bit e.msg 1) ||
  (permOf t c.1 == 2 && (c.2 == 3 || c.2 == 4) && permOf t e.next == 2)

/-- The states from which state 0 is reached in at most n steps. -/
def reachZero (t : Table) (n : Nat) : List Nat :=
  match n with
  | 0 => [0]
  | m + 1 =>
    let r := reachZero t m
    (List.range (t.nsm1 + 1)).filter fun st => r.contains st || (List.range 16).any fun ev => r.contains (entryOf t st ev).next

/-- Check 3: the first state that does not reach state 0; it has no event. -/
def unreachable (t : Table) : Option Reject :=
  ((List.range (t.nsm1 + 1)).find? fun st => !(reachZero t 8).contains st).map fun st => ⟨3, st, false, 0⟩

/-- Check 4: what a table with DATA 4, DATA 7 or c asks of its range's PROP. -/
def propMismatch (t : Table) (prop : Bool) : Option Reject :=
  firstBad t 4 fun c =>
    let e := entryOf t c.1 c.2
    (e.data == 4 && !prop) || ((e.data == 7 || bit e.msg 4) && prop)

/-- The checks of an image with its header words, in order. -/
def verify (t : Table) (headerRz : Bool) : Option Reject :=
  if !headerRz then some ⟨1, 0, true, 0⟩
  else match firstBad t 1 (entryMalformed t) with
    | some r => some r
    | none =>
      match firstBad t 2 (entryUnguarded t) with
      | some r => some r
      | none => unreachable t

/-- A table image of 576 bytes (R417), and whether its header's RZ fields are zero. -/
def imageTable (bs : List Byte) : Table × Bool :=
  let w (i : Nat) : Nat := leNat ((bs.drop (8 * i)).take 8)
  ({ nsm1 := w 0 % 8, perm := BitVec.ofNat 16 (w 1)
     entries := (List.range 128).map fun i => BitVec.ofNat 32 (leNat ((bs.drop (64 + 4 * i)).take 4))
     hash := shake256 bs 64 },
   w 0 < 8 && w 1 < 2 ^ 16 && (List.range 6).all fun i => w (2 + i) == 0)

/-- TABLE_REJECT. -/
def mbReject (r : Reject) (range : Nat) : MbRes := .refused cTableReject (r.detail range)

/-- RBIND: check 4, then the change of R423, whose flush comes first. -/
def execRbind (die : Nat) (seq : BitVec 16) (by_ : Issuer) (s : State) : Host.Outcome State Fault Refusal :=
  let (r, d) := (mbCmd s die 1, mbCmd s die 2)
  mbRun die seq by_ 0x0B (some 0) 3 0 (64 ≤ r || 2 ^ 8 ≤ d || bits d 5 4 != 0)
    (fun s =>
      let change : MbRes :=
        .done (modCoh (if rangeValid s r && rangeSlot s r != d % 16 then flushRange s r else s) fun c =>
          { c with ranges := tset c.ranges r (BitVec.ofNat 64 d) }) 0
      match tableOf s (d % 16) with
      | none => if bit d 7 then mbIllegal else change
      | some t =>
        match propMismatch t (bit d 6) with
        | some e => mbReject e r
        | none => change) s

/-- A slot that a valid range names. -/
def slotNamed (s : State) (slot : Nat) : Bool := (List.range 64).any fun r => rangeValid s r && rangeSlot s r == slot

/-- TLOAD. -/
def execTload (die : Nat) (seq : BitVec 16) (by_ : Issuer) (s : State) : Host.Outcome State Fault Refusal :=
  let (slot, pa) := (mbCmd s die 1, mbCmd s die 2)
  mbRun die seq by_ 0x0C (some 0) 3 0 (16 ≤ slot || slot < 5 || physBad pa 64 || slotNamed s slot)
    (fun s =>
      let bs := readBytes s (paLoc s pa) 576
      let (t, rz) := imageTable bs
      if !(Config.manifestHashes s.module.image).contains t.hash then mbReject ⟨0, 0, false, 0⟩ 0
      else match verify t rz with
        | some r => mbReject r 0
        | none => .done (modCoh s fun c => { c with tables := tset c.tables slot t }) 0) s

/-! ### ATTEST, GRESET, unknown commands -/

/-- n bytes of a field: what is given, then zeros. -/
def fieldBytes (n : Nat) (bs : List Byte) : List Byte := (bs ++ List.replicate n 0).take n

/-- The report without its signature (R519; log entry 18). -/
def reportBody (s : State) (nonce : List Byte) : List Byte :=
  nonce ++ shake256 s.module.image 64 ++
  ((List.range 11).flatMap fun i => fieldBytes 64 (match tget s.coh.tables (5 + i) with
    | some t => t.hash
    | none => [])) ++
  fieldBytes 64 s.annex.identity ++ fieldBytes 64 s.annex.measurement ++ leBytes 8 (dieOf s 0).modid.toNat

/-- ATTEST: the report goes to MBDATA, its length to DETAIL. -/
def execAttest (die : Nat) (seq : BitVec 16) (by_ : Issuer) (s : State) : Host.Outcome State Fault Refusal :=
  mbRun die seq by_ 0x0D (some 0) 1 32 false
    (fun s =>
      let body := reportBody s (readBytes s (mbdataLoc die 0) 32)
      let full := body ++ fieldBytes 3309 (Config.attestSign body)
      .done (writeBytes s (mbdataLoc die 0) full) full.length) s

/-- GRESET: the guest is reset, a fence ends, and its queues must be bound again; its attestation follows as an event of its
own (log entry 17). -/
def execGreset (die : Nat) (seq : BitVec 16) (by_ : Issuer) (s : State) : Host.Outcome State Fault Refusal :=
  mbRun die seq by_ 0x0E (some 1) 1 0 false
    (fun s =>
      let s1 := fence s
      if s1.annex.st == .untrained then .done s1 0
      else .done (modAnnex s1 fun a =>
        { a with st := .closed, queues := [], packets := [], inval := [], granted := [], reads := [], identity := [], measurement := [] }) 0) s

/-- A command whose code R525 does not list is refused (R526). -/
def execUnknownMailboxCommand (die : Nat) (seq : BitVec 16) (by_ : Issuer) (s : State) : Host.Outcome State Fault Refusal :=
  let opc := mbOpc s die
  if opc == 0 || 0x0E < opc then mbRun die seq by_ opc none 8 0x2000 true (fun _ => mbIllegal) s
  else if 4 ≤ die then .fault .noSuchUnit
  else .next s

end Sys2Proof.Machine
end

