-- ==== Sys2Proof/Machine/Vector.lean ====
section
/-! DEFINITION. Class 0x1: vector instructions and XSHF (R178, R181 to R184). -/

namespace Sys2Proof.Machine

/-- An element-wise vector operation: the float function under the float types, the integer one under the integer types
(R181). -/
def vecOp (ff : Num → Num → Num → Exact) (fi : Int → Int → Int → Int) (useC : Bool) (o : Ops) (m : M1) (s : State) :
    Host.Outcome State Fault Refusal :=
  let bs := m.var.getLsbD 0
  laneOp o [(o.a, .typed m.ty), (o.b, needB m.ty bs), (o.c, if useC then .typed m.ty else .word)] (fun _ s tid =>
    let t := thr s tid
    let a := srcW t o.a
    let c := srcW t o.c
    let elem (i draw : Nat) : Nat × BitVec 3 :=
      let x := elemAt m.ty a i
      let y := elemB t m.ty o.b bs i
      let z := elemAt m.ty c i
      if isF m.ty then
        roundExact m.ty m.rnd m.sat draw (ff (decodeFloat m.ty x) (decodeFloat m.ty y) (decodeFloat m.ty z))
      else (fitInt m.ty m.sat (fi (intOf m.ty x) (intOf m.ty y) (intOf m.ty z)), 0)
    let (es, fl, t1) := drawElems m.rnd (elemCount m.ty) elem t
    .done (resultV (setFlags (setThr s tid t1) tid fl) tid 1 o.d (packElems m.ty es) (tagOf m.ty 0))) s

/-- VADD (R181). -/
def execVadd (o : Ops) (m : M1) (s : State) : Host.Outcome State Fault Refusal :=
  vecOp (fun a b _ => exactly (addNum m.rnd a b)) (fun a b _ => a + b) false o m s
/-- VSUB (R181). -/
def execVsub (o : Ops) (m : M1) (s : State) : Host.Outcome State Fault Refusal :=
  vecOp (fun a b _ => exactly (addNum m.rnd a (negNum b))) (fun a b _ => a - b) false o m s
/-- VMUL (R181). -/
def execVmul (o : Ops) (m : M1) (s : State) : Host.Outcome State Fault Refusal :=
  vecOp (fun a b _ => exactly (mulNum a b)) (fun a b _ => a * b) false o m s
/-- VFMA (R181). -/
def execVfma (o : Ops) (m : M1) (s : State) : Host.Outcome State Fault Refusal :=
  vecOp (fun a b c => exactly (fmaNum m.rnd a b c)) (fun a b c => a * b + c) true o m s
/-- VMIN (R181). -/
def execVmin (o : Ops) (m : M1) (s : State) : Host.Outcome State Fault Refusal :=
  vecOp (fun a b _ => exactly (minNum a b)) (fun a b _ => min a b) false o m s
/-- VMAX (R181). -/
def execVmax (o : Ops) (m : M1) (s : State) : Host.Outcome State Fault Refusal :=
  vecOp (fun a b _ => exactly (maxNum a b)) (fun a b _ => max a b) false o m s

/-- The result type of VDOT and VSUM (R182). -/
def dotType (ty : Fmt) : Fmt := if ty == .f64 then .f64 else .f32

/-- A 64-bit integer result, wrapped or clamped to the signed or unsigned range (R182). -/
def fit64 (ty : Fmt) (sat : Bool) (v : Int) : Nat := fitInt (if isI ty then .i64 else .n64) sat v

/-- A sum of terms rounded once, with INVALID when a term was invalid or a signalling NaN (R182). -/
def sumExact (mode : Rnd) (ts : List (Num × Bool)) : Exact :=
  let (v, inv) := sumNums mode (ts.map Prod.fst)
  ⟨v, false, inv || ts.any Prod.snd⟩

/-- VDOT and VSUM share the rounding of their sum: the terms of one thread, as floats and as an integer. -/
def sumOp (terms : Thread → List (Num × Bool)) (total : Thread → Int) (needs : List (Src × Need)) (o : Ops) (m : M1)
    (s : State) : Host.Outcome State Fault Refusal :=
  laneOp o needs (fun _ s tid =>
    let t := thr s tid
    let (c, fl) := if isIN m.ty then (fit64 m.ty m.sat (total t), 0)
      else roundExact (dotType m.ty) m.rnd m.sat (drawOf t m.rnd) (sumExact m.rnd (terms t))
    .done (resultG (setFlags (setThr s tid (afterDraw t m.rnd)) tid fl) tid 1 o.d c)) s

/-- VDOT (R182): the products and C, rounded once. -/
def execVdot (o : Ops) (m : M1) (s : State) : Host.Outcome State Fault Refusal :=
  let n := elemCount m.ty
  sumOp
    (fun t =>
      let c := decodeFloat (dotType m.ty) (low (fmtWidth (dotType m.ty)) (srcN t o.c))
      ((List.range n).map fun i =>
        mulNum (decodeFloat m.ty (elemAt m.ty (srcW t o.a) i)) (decodeFloat m.ty (elemAt m.ty (srcW t o.b) i))) ++
        [(c, isSig c)])
    (fun t => (List.range n).foldl (fun acc i =>
        acc + intOf m.ty (elemAt m.ty (srcW t o.a) i) * intOf m.ty (elemAt m.ty (srcW t o.b) i))
      (intOf (if isI m.ty then .i64 else .n64) (srcN t o.c)))
    [(o.a, .typed m.ty), (o.b, .typed m.ty), (o.c, .word)] o m s

/-- VSUM (R182): the elements, rounded once. -/
def execVsum (o : Ops) (m : M1) (s : State) : Host.Outcome State Fault Refusal :=
  let n := elemCount m.ty
  sumOp
    (fun t => (List.range n).map fun i =>
      let x := decodeFloat m.ty (elemAt m.ty (srcW t o.a) i)
      (x, isSig x))
    (fun t => (List.range n).foldl (fun acc i => acc + intOf m.ty (elemAt m.ty (srcW t o.a) i)) 0)
    [(o.a, .typed m.ty)] o m s

/-- VCMP (R183): bit i is the condition on the elements i. -/
def execVcmp (o : Ops) (m : M1) (s : State) : Host.Outcome State Fault Refusal :=
  let bs := m.var.getLsbD 0
  laneOp o [(o.a, .typed m.ty), (o.b, needB m.ty bs)] (fun _ s tid =>
    let t := thr s tid
    let one (i : Nat) : Bool × Bool :=
      let x := elemAt m.ty (srcW t o.a) i
      let y := elemB t m.ty o.b bs i
      if isF m.ty then floatCond m.ty m.cond.toNat x y else (intCond m.ty m.cond.toNat x y, false)
    let rs := (List.range (elemCount m.ty)).map one
    let mask := rs.foldr (fun r acc => 2 * acc + (if r.1 then 1 else 0)) 0
    .done (resultG (setFlags s tid (invalidFlag (rs.any Prod.snd))) tid 1 o.d mask)) s

/-- VSEL (R183): element i of A where bit i of C is set. -/
def execVsel (o : Ops) (m : M1) (s : State) : Host.Outcome State Fault Refusal :=
  laneOp o [(o.a, .typed m.ty), (o.b, .typed m.ty), (o.c, .word)] (fun _ s tid =>
    let t := thr s tid
    let es := (List.range (elemCount m.ty)).map fun i =>
      elemAt m.ty (srcW t (if bit (srcN t o.c) i then o.a else o.b)) i
    .done (resultV s tid 1 o.d (packElems m.ty es) (tagOf m.ty 0))) s

/-- The source lane of XSHF: none when it is no lane (R184). The lane value is unsigned. -/
def shuffleLane (mode l k : Nat) : Option Nat :=
  let r := match mode with
    | 0 => some k
    | 1 => if k ≤ l then some (l - k) else none
    | 2 => some (l + k)
    | _ => some (l ^^^ k)
  match r with
  | some x => if x < 32 then some x else none
  | none => none

/-- XSHF (R144, R184): the value and tag of the source lane when it is in the operand set, else the thread's own. -/
def execXshf (o : Ops) (m : M1) (s : State) : Host.Outcome State Fault Refusal :=
  let imm := m.var.getLsbD 2
  let vector := movesVector o true
  laneOpWith (fun _ _ => false) o
    (fun s tid => [(o.a, if vector (thr s tid) then .raw else .word), (o.b, .word)]) (fun s0 s tid =>
    let t := thr s tid
    let k := if imm then bits m.var.toNat 7 3 else srcN t o.b
    let src := match shuffleLane (m.var.toNat % 4) t.lane k with
      | some l =>
        let i := tidOf t.wg t.quire l
        if (operandSet s0 tid o.gd).contains i then i else tid
      | none => tid
    let from_ := if src == tid then t else thr s0 src
    if vector t then .done (result s tid 1 o.d true (srcWide from_ o.a) (srcTag from_ o.a))
    else .done (resultG s tid 1 o.d (low (fmtWidth m.ty) (srcN from_ o.a)))) s

/-- VBCAST (R183): the low w bits of A in every element, tagged with the type. -/
def execVbcast (o : Ops) (m : M1) (s : State) : Host.Outcome State Fault Refusal :=
  laneOp o [(o.a, .word)] (fun _ s tid =>
    let es := List.replicate (elemCount m.ty) (low (fmtWidth m.ty) (srcN (thr s tid) o.a))
    .done (resultV s tid 1 o.d (packElems m.ty es) ((0 : BitVec 3) ++ fmtCode m.ty))) s

end Sys2Proof.Machine
end

