-- ==== Sys2Proof/Machine/Dispatch.lean ====
section
/-! DEFINITION. The meaning of every instruction, one arm a constructor. -/

namespace Sys2Proof.Machine

/-- The meaning of an instruction. -/
def exec (i : Instr) (s : State) : Host.Outcome State Fault Refusal :=
  match i with
  | .iadd o m => Sys2Proof.Machine.execIadd o m s
  | .isub o m => Sys2Proof.Machine.execIsub o m s
  | .imul o m => Sys2Proof.Machine.execImul o m s
  | .imulhi o m => Sys2Proof.Machine.execImulhi o m s
  | .imad o m => Sys2Proof.Machine.execImad o m s
  | .idiv o m => Sys2Proof.Machine.execIdiv o m s
  | .irem o m => Sys2Proof.Machine.execIrem o m s
  | .ineg o m => Sys2Proof.Machine.execIneg o m s
  | .iabs o m => Sys2Proof.Machine.execIabs o m s
  | .imin o m => Sys2Proof.Machine.execImin o m s
  | .imax o m => Sys2Proof.Machine.execImax o m s
  | .icmp o m => Sys2Proof.Machine.execIcmp o m s
  | .isel o m => Sys2Proof.Machine.execIsel o m s
  | .and o m => Sys2Proof.Machine.execAnd o m s
  | .or o m => Sys2Proof.Machine.execOr o m s
  | .xor o m => Sys2Proof.Machine.execXor o m s
  | .andn o m => Sys2Proof.Machine.execAndn o m s
  | .not o m => Sys2Proof.Machine.execNot o m s
  | .shl o m => Sys2Proof.Machine.execShl o m s
  | .shr o m => Sys2Proof.Machine.execShr o m s
  | .sar o m => Sys2Proof.Machine.execSar o m s
  | .rotl o m => Sys2Proof.Machine.execRotl o m s
  | .bfx o m => Sys2Proof.Machine.execBfx o m s
  | .bfi o m => Sys2Proof.Machine.execBfi o m s
  | .popc o m => Sys2Proof.Machine.execPopc o m s
  | .clz o m => Sys2Proof.Machine.execClz o m s
  | .ctz o m => Sys2Proof.Machine.execCtz o m s
  | .brev o m => Sys2Proof.Machine.execBrev o m s
  | .perm o m => Sys2Proof.Machine.execPerm o m s
  | .bset o m => Sys2Proof.Machine.execBset o m s
  | .bclr o m => Sys2Proof.Machine.execBclr o m s
  | .btst o m => Sys2Proof.Machine.execBtst o m s
  | .lea o m => Sys2Proof.Machine.execLea o m s
  | .mov o m => Sys2Proof.Machine.execMov o m s
  | .movi o imm => Sys2Proof.Machine.execMovi o imm s
  | .hash o m => Sys2Proof.Machine.execHash o m s
  | .crc o m => Sys2Proof.Machine.execCrc o m s
  | .fadd o m => Sys2Proof.Machine.execFadd o m s
  | .fsub o m => Sys2Proof.Machine.execFsub o m s
  | .fmul o m => Sys2Proof.Machine.execFmul o m s
  | .ffma o m => Sys2Proof.Machine.execFfma o m s
  | .fmin o m => Sys2Proof.Machine.execFmin o m s
  | .fmax o m => Sys2Proof.Machine.execFmax o m s
  | .fabs o m => Sys2Proof.Machine.execFabs o m s
  | .fneg o m => Sys2Proof.Machine.execFneg o m s
  | .fcmp o m => Sys2Proof.Machine.execFcmp o m s
  | .fclass o m => Sys2Proof.Machine.execFclass o m s
  | .frcp o m => Sys2Proof.Machine.execFrcp o m s
  | .frsq o m => Sys2Proof.Machine.execFrsq o m s
  | .fsqrt o m => Sys2Proof.Machine.execFsqrt o m s
  | .fdiv o m => Sys2Proof.Machine.execFdiv o m s
  | .fexp2 o m => Sys2Proof.Machine.execFexp2 o m s
  | .flog2 o m => Sys2Proof.Machine.execFlog2 o m s
  | .fsin o m => Sys2Proof.Machine.execFsin o m s
  | .fcos o m => Sys2Proof.Machine.execFcos o m s
  | .vadd o m => Sys2Proof.Machine.execVadd o m s
  | .vsub o m => Sys2Proof.Machine.execVsub o m s
  | .vmul o m => Sys2Proof.Machine.execVmul o m s
  | .vfma o m => Sys2Proof.Machine.execVfma o m s
  | .vmin o m => Sys2Proof.Machine.execVmin o m s
  | .vmax o m => Sys2Proof.Machine.execVmax o m s
  | .vdot o m => Sys2Proof.Machine.execVdot o m s
  | .vsum o m => Sys2Proof.Machine.execVsum o m s
  | .vcmp o m => Sys2Proof.Machine.execVcmp o m s
  | .vsel o m => Sys2Proof.Machine.execVsel o m s
  | .xshf o m => Sys2Proof.Machine.execXshf o m s
  | .vbcast o m => Sys2Proof.Machine.execVbcast o m s
  | .cvt o m => Sys2Proof.Machine.execCvt o m s
  | .vcvt o m => Sys2Proof.Machine.execVcvt o m s
  | .quantScale o m => Sys2Proof.Machine.execQuantScale o m s
  | .quantCodes o m => Sys2Proof.Machine.execQuantCodes o m s
  | .deq o m => Sys2Proof.Machine.execDeq o m s
  | .pack o m => Sys2Proof.Machine.execPack o m s
  | .unpack o m => Sys2Proof.Machine.execUnpack o m s
  | .tag o m => Sys2Proof.Machine.execTag o m s
  | .tagq o m => Sys2Proof.Machine.execTagq o m s
  | .xvset o m => Sys2Proof.Machine.execXvset o m s
  | .bra o m => Sys2Proof.Machine.execBra o m s
  | .brx o m => Sys2Proof.Machine.execBrx o m s
  | .call o m => Sys2Proof.Machine.execCall o m s
  | .callx o m => Sys2Proof.Machine.execCallx o m s
  | .ret o m => Sys2Proof.Machine.execRet o m s
  | .loop o m => Sys2Proof.Machine.execLoop o m s
  | .lexit o m => Sys2Proof.Machine.execLexit o m s
  | .lcnt o m => Sys2Proof.Machine.execLcnt o m s
  | .lcntSet o m => Sys2Proof.Machine.execLcntSet o m s
  | .exit o m => Sys2Proof.Machine.execExit o m s
  | .waitAcc o m => Sys2Proof.Machine.execWaitAcc o m s
  | .waitDep o m => Sys2Proof.Machine.execWaitDep o m s
  | .waitNbar o m => Sys2Proof.Machine.execWaitNbar o m s
  | .yield o m => Sys2Proof.Machine.execYield o m s
  | .ppoint o m => Sys2Proof.Machine.execPpoint o m s
  | .nop o m => Sys2Proof.Machine.execNop o m s
  | .trap o m => Sys2Proof.Machine.execTrap o m s
  | .bkpt o m => Sys2Proof.Machine.execBkpt o m s
  | .ld o m => Sys2Proof.Machine.execLd o m s
  | .st o m => Sys2Proof.Machine.execSt o m s
  | .stWide o m => Sys2Proof.Machine.execStWide o m s
  | .ldv o m => Sys2Proof.Machine.execLdv o m s
  | .stv o m => Sys2Proof.Machine.execStv o m s
  | .ldx o m => Sys2Proof.Machine.execLdx o m s
  | .stx o m => Sys2Proof.Machine.execStx o m s
  | .ldk o m => Sys2Proof.Machine.execLdk o m s
  | .pfetch o m => Sys2Proof.Machine.execPfetch o m s
  | .fence o m => Sys2Proof.Machine.execFence o m s
  | .promo o m => Sys2Proof.Machine.execPromo o m s
  | .cflush o m => Sys2Proof.Machine.execCflush o m s
  | .atom o m => Sys2Proof.Machine.execAtom o m s
  | .red o m => Sys2Proof.Machine.execRed o m s
  | .cas o m => Sys2Proof.Machine.execCas o m s
  | .bari o m => Sys2Proof.Machine.execBari o m s
  | .bara o m => Sys2Proof.Machine.execBara o m s
  | .barw o m => Sys2Proof.Machine.execBarw o m s
  | .nbar o m => Sys2Proof.Machine.execNbar o m s
  | .vote o m => Sys2Proof.Machine.execVote o m s
  | .elect o m => Sys2Proof.Machine.execElect o m s
  | .txbeg o m => Sys2Proof.Machine.execTxbeg o m s
  | .txend o m => Sys2Proof.Machine.execTxend o m s
  | .txabt o m => Sys2Proof.Machine.execTxabt o m s
  | .txst o m => Sys2Proof.Machine.execTxst o m s
  | .mfs o m => Sys2Proof.Machine.execMfs o m s
  | .mts o m => Sys2Proof.Machine.execMts o m s
  | .tret o m => Sys2Proof.Machine.execTret o m s
  | .tlbgen o m => Sys2Proof.Machine.execTlbgen o m s
  | .rdcnt o m => Sys2Proof.Machine.execRdcnt o m s
  | .detm o m => Sys2Proof.Machine.execDetm o m s
  | .halt o m => Sys2Proof.Machine.execHalt o m s
  | .ctxsv o m => Sys2Proof.Machine.execCtxsv o m s
  | .ctxld o m => Sys2Proof.Machine.execCtxld o m s
  | .mma o m => Sys2Proof.Machine.execMma o m s
  | .mfolio o m => Sys2Proof.Machine.execMfolio o m s
  | .mldt o m => Sys2Proof.Machine.execMldt o m s
  | .mstt o m => Sys2Proof.Machine.execMstt o m s
  | .mzero o m => Sys2Proof.Machine.execMzero o m s
  | .mdrainSt o m => Sys2Proof.Machine.execMdrainSt o m s
  | .mdrainAdd o m => Sys2Proof.Machine.execMdrainAdd o m s
  | .mdrainRoute o m => Sys2Proof.Machine.execMdrainRoute o m s
  | .mdrainCat o m => Sys2Proof.Machine.execMdrainCat o m s
  | .mdrainFree o m => Sys2Proof.Machine.execMdrainFree o m s
  | .mepi o m => Sys2Proof.Machine.execMepi o m s
  | .mroute o m => Sys2Proof.Machine.execMroute o m s
  | .mslip o m => Sys2Proof.Machine.execMslip o m s
  | .catq o m => Sys2Proof.Machine.execCatq o m s
  | .catw o m => Sys2Proof.Machine.execCatw o m s
  | .catsetDef o m => Sys2Proof.Machine.execCatsetDef o m s
  | .catsetPub o m => Sys2Proof.Machine.execCatsetPub o m s
  | .cqpub o m => Sys2Proof.Machine.execCqpub o m s
  | .depset o m => Sys2Proof.Machine.execDepset o m s
  | .depq o m => Sys2Proof.Machine.execDepq o m s
  | .nvsub o m => Sys2Proof.Machine.execNvsub o m s
  | .nvreapReq o m => Sys2Proof.Machine.execNvreapReq o m s
  | .nvreapCard o m => Sys2Proof.Machine.execNvreapCard o m s
  | .jcard o m => Sys2Proof.Machine.execJcard o m s
  | .accq o m => Sys2Proof.Machine.execAccq o m s
  | .bop o m => Sys2Proof.Machine.execBop o m s
  | .bred o m => Sys2Proof.Machine.execBred o m s
  | .bsort o m => Sys2Proof.Machine.execBsort o m s
  | .btopk o m => Sys2Proof.Machine.execBtopk o m s
  | .skdef o m => Sys2Proof.Machine.execSkdef o m s
  | .skdel o m => Sys2Proof.Machine.execSkdel o m s
  | .skstat o m => Sys2Proof.Machine.execSkstat o m s
  | .skfold o m => Sys2Proof.Machine.execSkfold o m s
  | .skseal o m => Sys2Proof.Machine.execSkseal o m s
  | .sksealOpen o m => Sys2Proof.Machine.execSksealOpen o m s
  | .skclr o m => Sys2Proof.Machine.execSkclr o m s
  | .skclrFree o m => Sys2Proof.Machine.execSkclrFree o m s
  | .collate o m => Sys2Proof.Machine.execCollate o m s
  | .flushp o m => Sys2Proof.Machine.execFlushp o m s
  | .trimq o m => Sys2Proof.Machine.execTrimq o m s
  | .clplan o m => Sys2Proof.Machine.execClplan o m s
  | .clsend o m => Sys2Proof.Machine.execClsend o m s
  | .bwset o m => Sys2Proof.Machine.execBwset o m s
  | .rcpace o m => Sys2Proof.Machine.execRcpace o m s
  | .axpush o m => Sys2Proof.Machine.execAxpush o m s
  | .axreap o m => Sys2Proof.Machine.execAxreap o m s
  | .axfence o m => Sys2Proof.Machine.execAxfence o m s
  | .unassignedOpcode w => Sys2Proof.Machine.execUnassignedOpcode w s
  | .lineFetch core pc => Sys2Proof.Machine.execLineFetch core pc s
  | .gatheringSelect core => Sys2Proof.Machine.execGatheringSelect core s
  | .latchResultArrival tid k => Sys2Proof.Machine.execLatchResultArrival tid k s
  | .threadWake tid => Sys2Proof.Machine.execThreadWake tid s
  | .coreUngate core => Sys2Proof.Machine.execCoreUngate core s
  | .watchdogExpiry wg => Sys2Proof.Machine.execWatchdogExpiry wg s
  | .txCommit wg quire => Sys2Proof.Machine.execTxCommit wg quire s
  | .launchQueuePoll die queue => Sys2Proof.Machine.execLaunchQueuePoll die queue s
  | .launchQueueResume die queue => Sys2Proof.Machine.execLaunchQueueResume die queue s
  | .bindRecordWrite die slot rec => Sys2Proof.Machine.execBindRecordWrite die slot rec s
  | .workgroupPlace core => Sys2Proof.Machine.execWorkgroupPlace core s
  | .stealReq thief slot victim => Sys2Proof.Machine.execStealReq thief slot victim s
  | .stealGive thief slot => Sys2Proof.Machine.execStealGive thief slot s
  | .stealNone thief slot => Sys2Proof.Machine.execStealNone thief slot s
  | .bindingComplete die slot => Sys2Proof.Machine.execBindingComplete die slot s
  | .preemptionRequest die slot core => Sys2Proof.Machine.execPreemptionRequest die slot core s
  | .forcedSave wg => Sys2Proof.Machine.execForcedSave wg s
  | .workgroupSave wg area => Sys2Proof.Machine.execWorkgroupSave wg area s
  | .workgroupRestore wg core => Sys2Proof.Machine.execWorkgroupRestore wg core s
  | .eccError t => Sys2Proof.Machine.execEccError t s
  | .copyRingRead quad => Sys2Proof.Machine.execCopyRingRead quad s
  | .copyChannelStart quad ch => Sys2Proof.Machine.execCopyChannelStart quad ch s
  | .copyChunk quad ch => Sys2Proof.Machine.execCopyChunk quad ch s
  | .copyEntryComplete quad ch => Sys2Proof.Machine.execCopyEntryComplete quad ch s
  | .matrixAccept core => Sys2Proof.Machine.execMatrixAccept core s
  | .matrixExecute core => Sys2Proof.Machine.execMatrixExecute core s
  | .slipRead quad => Sys2Proof.Machine.execSlipRead quad s
  | .slipDispatch quad => Sys2Proof.Machine.execSlipDispatch quad s
  | .slipKstep core => Sys2Proof.Machine.execSlipKstep core s
  | .slipComplete core => Sys2Proof.Machine.execSlipComplete core s
  | .depDecrement quad => Sys2Proof.Machine.execDepDecrement quad s
  | .depsetApply quad => Sys2Proof.Machine.execDepsetApply quad s
  | .nvmeRequestSubmit die pair => Sys2Proof.Machine.execNvmeRequestSubmit die pair s
  | .nvmeCompletion die cid status dw0 => Sys2Proof.Machine.execNvmeCompletion die cid status dw0 s
  | .nvmeTimeout die cid => Sys2Proof.Machine.execNvmeTimeout die cid s
  | .jobCardStart die ring => Sys2Proof.Machine.execJobCardStart die ring s
  | .jobCardComplete die ring => Sys2Proof.Machine.execJobCardComplete die ring s
  | .coherenceEv holder line => Sys2Proof.Machine.execCoherenceEv holder line s
  | .coherencePr holder line => Sys2Proof.Machine.execCoherencePr holder line s
  | .coherencePw holder line => Sys2Proof.Machine.execCoherencePw holder line s
  | .coherenceUp holder line => Sys2Proof.Machine.execCoherenceUp holder line s
  | .coherenceFl holder line => Sys2Proof.Machine.execCoherenceFl holder line s
  | .coherenceBi line hostBusy => Sys2Proof.Machine.execCoherenceBi line hostBusy s
  | .switchPacketArrival port p => Sys2Proof.Machine.execSwitchPacketArrival port p s
  | .stubArrival port p => Sys2Proof.Machine.execStubArrival port p s
  | .recallSend port => Sys2Proof.Machine.execRecallSend port s
  | .recallArrival port p => Sys2Proof.Machine.execRecallArrival port p s
  | .postedWriteApply port p => Sys2Proof.Machine.execPostedWriteApply port p s
  | .ackArrival port p => Sys2Proof.Machine.execAckArrival port p s
  | .resendTimeout port tag => Sys2Proof.Machine.execResendTimeout port tag s
  | .orderedPacketArrival port p => Sys2Proof.Machine.execOrderedPacketArrival port p s
  | .readRequestArrival port p => Sys2Proof.Machine.execReadRequestArrival port p s
  | .readResponseArrival port p => Sys2Proof.Machine.execReadResponseArrival port p s
  | .sendStart die send => Sys2Proof.Machine.execSendStart die send s
  | .collectivePacketArrival port p => Sys2Proof.Machine.execCollectivePacketArrival port p s
  | .sendComplete die send => Sys2Proof.Machine.execSendComplete die send s
  | .annexRingRead queue => Sys2Proof.Machine.execAnnexRingRead queue s
  | .translate asid gen va => Sys2Proof.Machine.execTranslate asid gen va s
  | .invalAck asid => Sys2Proof.Machine.execInvalAck asid s
  | .complete queue entry status cause gsub gdw rzBad => Sys2Proof.Machine.execComplete queue entry status cause gsub gdw rzBad s
  | .preemptReply context resumable => Sys2Proof.Machine.execPreemptReply context resumable s
  | .guestCacheMessage m pa data poisoned => Sys2Proof.Machine.execGuestCacheMessage m pa data poisoned s
  | .annexBoundExpiry => Sys2Proof.Machine.execAnnexBoundExpiry s
  | .annexTraining modules flit256 => Sys2Proof.Machine.execAnnexTraining modules flit256 s
  | .guestAttest identity measurement signature => Sys2Proof.Machine.execGuestAttest identity measurement signature s
  | .hostAccess who write pa size data poisoned => Sys2Proof.Machine.execHostAccess who write pa size data poisoned s
  | .powerUp fail => Sys2Proof.Machine.execPowerUp fail s
  | .railFault overheat => Sys2Proof.Machine.execRailFault overheat s
  | .throttle on => Sys2Proof.Machine.execThrottle on s
  | .bootChain b => Sys2Proof.Machine.execBootChain b s
  | .firmwareReplacement image => Sys2Proof.Machine.execFirmwareReplacement image s
  | .modidWrite die value => Sys2Proof.Machine.execModidWrite die value s
  | .registerWrite die off value => Sys2Proof.Machine.execRegisterWrite die off value s
  | .ctxnew die seq by_ => Sys2Proof.Machine.execCtxnew die seq by_ s
  | .ctxend die seq by_ => Sys2Proof.Machine.execCtxend die seq by_ s
  | .asset die seq by_ => Sys2Proof.Machine.execAsset die seq by_ s
  | .lqreg die seq by_ => Sys2Proof.Machine.execLqreg die seq by_ s
  | .lqfree die seq by_ => Sys2Proof.Machine.execLqfree die seq by_ s
  | .freply die seq by_ => Sys2Proof.Machine.execFreply die seq by_ s
  | .qpbind die seq by_ => Sys2Proof.Machine.execQpbind die seq by_ s
  | .cardbind die seq by_ => Sys2Proof.Machine.execCardbind die seq by_ s
  | .axbind die seq by_ => Sys2Proof.Machine.execAxbind die seq by_ s
  | .unbind die seq by_ => Sys2Proof.Machine.execUnbind die seq by_ s
  | .rbind die seq by_ => Sys2Proof.Machine.execRbind die seq by_ s
  | .tload die seq by_ => Sys2Proof.Machine.execTload die seq by_ s
  | .attest die seq by_ => Sys2Proof.Machine.execAttest die seq by_ s
  | .greset die seq by_ => Sys2Proof.Machine.execGreset die seq by_ s
  | .guestPacketFetch queue => Sys2Proof.Machine.execGuestPacketFetch queue s
  | .powerDown => Sys2Proof.Machine.execPowerDown s
  | .noticeAcknowledge die => Sys2Proof.Machine.execNoticeAcknowledge die s
  | .unknownMailboxCommand die seq by_ => Sys2Proof.Machine.execUnknownMailboxCommand die seq by_ s

end Sys2Proof.Machine
end

