-- ==== Sys2Proof/Machine/Issue.lean ====
section
/-! DEFINITION. One issue of a core: the checks of R91, the decoding of the slots of the unit, and their execution. -/

namespace Sys2Proof.Machine

/-- The meaning of the word in a slot: decoded and executed, or ILLEGAL_FIELD (R91 item 5). -/
def execWord (w : Code) (s : State) : Host.Outcome State Fault Refusal :=
  match decode w with
  | .ok i => exec i s
  | .error _ => trapAll s (decodeTrap cIllegalField)

/-- The word of a slot of a line (R65). -/
def slotWord (line : List Byte) (i : Nat) : Code := wordOfBytes (slotBytes line i)

/-- Runs the unit at slot i of a line: a trap of the line's checks, a pair, or one instruction (R78, R79, R91). A PC
whose slot is above 4 names no slot and is ILLEGAL_FIELD. DESIGN CHOICE: a thread that TRET puts at slot j + 1 of a
pair, where no TARGET check is made, issues that slot alone (log entry 78). -/
def runUnit (line : List Byte) (pc : Pc) (s : State) : Host.Outcome State Fault Refusal :=
  let i := slotOf pc
  if 4 < i then trapAll s (decodeTrap cIllegalField)
  else match lineTrap line i with
    | some (c, j) =>
      trapAll s { decodeTrap c with pc := if j == i then none else some (pc - 1) }
    | none =>
      if pairBit line i then
        runPair ((gathering s).length + 1) (execWord (slotWord line i)) (execWord (slotWord line (i + 1))) s []
      else execWord (slotWord line i) s

/-- A unit that opens: an abort that has redirected a thread of the gathering is over. -/
def openUnit (s : State) : State :=
  (gathering s).foldl (fun st i => if (thr st i).moved then modThr st i fun t => { t with moved := false } else st) s

/-- The issue of a core's gathering: its line from the instruction cache (R77), a fetch fault taken at the slot with
TRAP_ADDR the PC (R255), then the unit. A line of another module that has left the cache is asked for. -/
def issueGathering (s : State) : Host.Outcome State Fault Refusal :=
  let s0 := openUnit
    { s with issue := { member := .single, traps := [], stall := false, hold := none, group := gathering s } }
  match gathering s0 with
  | [] => .next s0
  | i :: _ =>
    let pc := (thr s0 i).pc
    match fetchLine s0 i (lineOf pc) with
    | .error f =>
      if f == lineAway then .next (askLine s0 i)
      else trapAll (dropAsks s0 (fetchOwner s0 i (lineOf pc))) (trapCode f pc.toNat)
    | .ok (s1, line) => runUnit line pc s1

/-- An issue part of whose effects is already under way: a request sent, a barrier joined, an instruction handed over. -/
def midIssue (s : State) : Bool := (gathering s).any fun i => (thr s i).pend.any fun p => 4 ≤ p.k

/-- A gathering of deterministic mode is its quire's own again at its next turn (R134, R264). -/
def keepGathering (s : State) : State :=
  match gathering s with
  | [] => s
  | i :: _ =>
    let g := gathering s
    if (wgOf s (tidWg i)).det then modWg s (tidWg i) fun w => { w with detGath := tset w.detGath (tidQuire i) g } else s

/-- A gathering at an instruction boundary gives up the quires that a pre-emption holds (R130): their latches stand until
they are saved, or until their threads issue again (R75). -/
def atBoundary (s : State) : State :=
  if midIssue s || !(gathering s).any (quireHeld s) then s
  else
    let s0 := keepGathering s
    let s1 := ((gathering s).filter (quireHeld s)).foldl (fun st i => modThr st i fun t => { t with latchKeep := true }) s0
    modCore s1 s.cur fun x => { x with gath := x.gath.filter fun i => !quireHeld s i }

/-- A gathering that stalls takes the results that have their answers (R73). -/
def takeResults (r : Host.Outcome State Fault Refusal) : Host.Outcome State Fault Refusal :=
  match r with
  | .next s => if s.issue.stall then .next ((gathering s).foldl deliverAll s) else .next s
  | x => x

/-- The lines of another module that a core's threads wait for are asked for (R140, R438). -/
def askLines (s : State) : State := (issuable s s.cur).foldl askLine s

/-- A core between gatherings: its waits are tested, an event ends its gated state (R154, R155), and its fetch unit asks for
the lines of other modules. -/
def betweenGroups (s : State) : State := askLines (ungate (wakeCore s s.cur) s.cur)

/-- A core without a gathering chooses one and issues it; when no path is ready their lines are fetched (R140). A core
with nothing to issue leaves the next step to the next core (log entry 4). -/
def issueChosen (s : State) : Host.Outcome State Fault Refusal :=
  let c := s.cur
  match if (coreOf s c).gated then .idle else choose s c with
  | .ready s1 g => takeResults (issueGathering (modCore s1 c fun x => { x with gath := g }))
  | .absent s1 => .next s1
  | .idle => .next { s with cur := (c + 1) % 256 }

/-- One turn of a core: it goes on with its gathering, or chooses one. -/
def issueCore (s : State) : Host.Outcome State Fault Refusal :=
  let s1 := atBoundary s
  if (gathering s1).isEmpty then issueChosen (betweenGroups s1) else takeResults (issueGathering s1)

end Sys2Proof.Machine
end

