-- ==== Sys2Proof/Machine/Step.lean ====
section
/-! DEFINITION. One step of the module: the clock, then the turn of the schedule. -/

namespace Sys2Proof.Machine

/-- One cycle of the arithmetic clock and the delay that the state's data adds (log entry 6): CYCLES, the watchdog of every
running workgroup (R156), the packets that wait in the data queues of the ports (R437), and the catalogs whose owner has
ended (R278). -/
def tick (s : State) : State :=
  let n := 1 + s.delays.headD 0
  drainPorts
    { sweepCatalogs s with
      clock := s.clock + n
      delays := s.delays.tail
      wgs := s.wgs.map fun e => if e.2.st == .running && !e.2.preempt then (e.1, { e.2 with wdog := e.2.wdog + n }) else e } n

/-- The workgroup whose watchdog has reached its limit (R157). -/
def watchdogDue (s : State) : Option Nat := (s.wgs.find? fun e => watchdogUp e.2 && !wgOver s e).map Prod.fst

/-- The turn that a step takes, and the state without it (log entry 4). -/
def takeTurn (s : State) : Turn × State :=
  match s.schedule with
  | [] => (.issue s.cur, s)
  | t :: rest => (t, { s with schedule := rest })

/-- One turn: an event row's step, or the issue of a core. An instruction word is no event. -/
def runTurn (t : Turn) (s : State) : Host.Outcome State Fault Refusal :=
  match t with
  | .event i => if (encode i).isSome then .next s else exec i s
  | .issue c => if c < 256 then issueCore { s with cur := c } else .fault .noSuchUnit

/-- One step. -/
def step (s : State) : Host.Outcome State Fault Refusal :=
  let s1 := tick s
  match watchdogDue s1 with
  | some wg => exec (.watchdogExpiry wg) s1
  | none => runTurn (takeTurn s1).1 (takeTurn s1).2

/-! ### The next instruction, placed for a fetch (log entry 3) -/

/-- The workgroup that stands for a loaded program: one thread, privileged, of the matrix role, with full budgets. -/
def loadedWg : Workgroup :=
  { blankWg with roles := [.matrix], gcount := [128, 128, 128, 128], vcount := [32, 32, 32, 32], priv := true,
                 owner := true, units := 192, st := .running }

/-- Its thread, at slot 0 of line 0. -/
def loadedThread : Thread := { blankThread with exited := false }

/-- A line whose slot i holds a word: the slot a target, no pair, the parity as R77 calls for. -/
def lineWith (i : Nat) (w : Code) : List Byte :=
  let body := List.replicate (12 * i) 0 ++ bytesOfWord w ++ List.replicate (48 - 12 * i) 0
  let low := body ++ leBytes 3 (2 ^ i)
  low ++ [BitVec.ofNat 8 (parityOf (low ++ [0]))]

/-- A core with a gathering: the one it has, or a loaded thread. -/
def withGathering (s : State) : State :=
  if (gathering s).isEmpty then
    let s1 := setThr (setWg s s.nextWg { loadedWg with core := s.cur, die := dieOfCore s.cur })
      (tidOf s.nextWg 0 0) { loadedThread with core := s.cur, wg := s.nextWg }
    modCore { s1 with nextWg := s.nextWg + 1 } s.cur fun x => { x with gath := [tidOf s.nextWg 0 0], gated := false }
  else s

/-- The instruction placed where the next step fetches. -/
def State.withFetchWord (s : State) (nbits w : Nat) : State :=
  let s1 := withGathering { s with schedule := [] }
  match gathering s1 with
  | [] => s1
  | i :: _ =>
    let t := thr s1 i
    let key := icacheKey (wgOf s1 t.wg).asid.toNat (lineOf t.pc)
    let line := lineWith (slotOf t.pc) (BitVec.ofNat 96 (w % 2 ^ min nbits 96))
    modCore s1 s1.cur fun x => { x with icache := tset x.icache key line }

end Sys2Proof.Machine
end

