-- ==== Sys2Proof/Safety.lean ====
section
/-! DEFINITION. What a safe step is, and the terms in which the statements speak of an issue: a gathering that nothing holds
up, and what an instruction that completes leaves of it. -/

namespace Sys2Proof

/-- A step that goes on: neither a fault nor a refusal. -/
def goesOn (s : Machine.State) : Prop := ∃ t, Machine.step s = .next t

end Sys2Proof

namespace Sys2Proof.Machine

/-- A thread that issues with nothing in its way: it runs and waits for nothing, no result is on its way to it (R73), no
register or latch of it holds a soft error (R258), and no loop level ends at its slot (R15). -/
structure Clear (t : Thread) : Prop where
  runs : t.moved = false ∧ t.exited = false ∧ t.wait = none
  noKept : t.latchKeep = false
  noPend : t.pend = []
  noEcc : t.eccRegs = [] ∧ t.eccLatches = []
  noEnd : ∀ l rest, t.nest = l :: rest → l.stop ≠ t.pc

/-- A gathering of the core that issues, about to issue one instruction on its own (R79: no member of a pair). -/
structure Ready (s : State) : Prop where
  alone : s.issue.member = .single
  fresh : s.issue.traps = [] ∧ s.issue.waits = []
  group : unitGroup s = gathering s
  some : gathering s ≠ []
  once : (gathering s).Nodup
  clear : ∀ i ∈ gathering s, Clear (thr s i)

/-- The operands pass the checks of R138 and R167: every register is within the budget of its quire, and every thread whose
guard is true finds its sources as they are needed. -/
def Readable (s : State) (o : Ops) (needs : List (Src × Need)) : Prop :=
  ∀ i ∈ gathering s, opsBeyond (wgOf s (tidWg i)) (tidQuire i) o = false ∧
    (guardTrue (thr s i) o.gd = true → operandTrap (thr s i) needs = none)

/-- A thread past its instruction, its latches aside (R66, R73). -/
def landed (t : Thread) : Thread := clearLatches { t with pc := nextSlot t.pc }

/-- Everything outside the gathering's threads stands as before: memory and its poison, the other threads, the engines and
every other unit; only RETIRED (R234), the turn of deterministic mode (R134), and the grouping stage and clock gating of the
cores may differ. -/
structure Elsewhere (s u : State) : Prop where
  rest : u = { s with threads := u.threads, wgs := u.wgs, cores := u.cores, issue := u.issue }
  threads : ∀ j, j ∉ gathering s → clearLatches (thr u j) = clearLatches (thr s j)
  wgs : ∀ k, { wgOf u k with retired := 0, turn := 0, detGath := [] } = { wgOf s k with retired := 0, turn := 0, detGath := [] }
  cores : ∀ c, (coreOf u c).mx = (coreOf s c).mx ∧ (coreOf u c).icache = (coreOf s c).icache

/-- An instruction that completes for every thread of its gathering: a thread whose guard is true is changed by `f`, one whose
guard is false only goes on to the next slot (R11), and nothing else of the machine changes. -/
def Completes (i : Instr) (s : State) (gd : Guard) (f : Nat → Thread → Thread) : Prop :=
  ∃ u, exec i s = .next u ∧ Elsewhere s u ∧
    ∀ j ∈ gathering s, clearLatches (thr u j) = landed (if guardTrue (thr s j) gd then f j (thr s j) else thr s j)

/-! ### Parts of threads -/

/-- Where a thread stands after its part of an instruction: at the next slot, where it is (it has ended, R197), at the target of
a transfer (R141), or suspended (R141). -/
inductive Go where
  | next
  | stay
  | jump (pc : Pc)
  | wait (w : Wait)
  deriving DecidableEq, Repr

/-- A thread that goes on so. -/
def goes (g : Go) (t : Thread) : Thread :=
  match g with
  | .next => { t with pc := nextSlot t.pc }
  | .stay => t
  | .jump pc => { t with pc }
  | .wait w => { t with wait := some w }

/-- A suspension as its thread keeps it: with the issue that began it, and the one instruction that this adds to RETIRED. -/
def Go.kept (s : State) (g : Go) : Go :=
  match g with
  | .wait w => .wait (suspended s 1 1 w)
  | x => x

/-- The parts of the threads of `g` one after the other (R167), each whose guard is true. -/
def turns (s : State) (gd : Guard) (part : State → Nat → State) (g : List Nat) : State :=
  g.foldl (fun st i => if guardTrue (thr s i) gd then part st i else st) s

/-- `P` holds at each turn: for every thread whose guard is true, of the state that the parts of the threads before it leave. -/
def AtTurns (s : State) (gd : Guard) (part : State → Nat → State) (P : State → Nat → Prop) : Prop :=
  ∀ before i after, gathering s = before ++ i :: after → guardTrue (thr s i) gd = true → P (turns s gd part before) i

/-- `u` is `v` with the gathering's threads gone on; besides, only latches (R146), RETIRED (R234), the turn of deterministic
mode (R134), the grouping stage and the clock gating of the cores may differ. -/
structure Passed (s v u : State) (go : Nat → Go) : Prop where
  rest : u = { v with threads := u.threads, wgs := u.wgs, cores := u.cores, issue := u.issue }
  threads : ∀ j, clearLatches (thr u j) = clearLatches (if j ∈ gathering s then goes (go j) (thr v j) else thr v j)
  wgs : ∀ k, { wgOf u k with retired := 0, turn := 0, detGath := [] } = { wgOf v k with retired := 0, turn := 0, detGath := [] }
  cores : ∀ c, (coreOf u c).mx = (coreOf v c).mx ∧ (coreOf u c).icache = (coreOf v c).icache

/-- An instruction that completes: each thread whose guard is true makes its part of it and goes on as `go` says, and one whose
guard is false only goes on to the next slot (R11). -/
def Runs (i : Instr) (s : State) (gd : Guard) (part : State → Nat → State) (go : Nat → Go) : Prop :=
  ∃ u, exec i s = .next u ∧
    Passed s (turns s gd part (gathering s)) u (fun j => if guardTrue (thr s j) gd then (go j).kept s else .next)

/-! ### Accesses (R205, R208) -/

/-- An access of a thread outside every transaction that reaches cells of this module at `l`: it is aligned, its address has a
place that is no mailbox window, no sketch page and no other module's, no posted write of the thread to its line is in flight
(R453), no access of a matrix instruction of the thread to the same bytes is queued (R269), and the table of its line's range admits it (R419). `u` is the state in which it reads or writes the cells. -/
def Reaches (s : State) (i : Nat) (space : Space) (ea size : Nat) (acc : Acc) (l : Nat) (u : State) : Prop :=
  ea % size = 0 ∧ txOf s i = none ∧ ∃ v p, placeOf s (partyOf s i) space ea size acc = .ok (v, p) ∧ p.loc = l ∧
    p.remote = false ∧ p.window = false ∧ p.sketch = 0 ∧ lineBusy s i p (acc != .rd) = false ∧
    if p.global then lineAccess v (some (thr s i).core) p.pa p.range (acc == .wr) = .ok u else u = v

/-- A thread whose releases wait for nothing: none of its posted writes is in flight (R45) and no matrix instruction that it
issued and that touches memory is queued (R269). -/
def Quiet (s : State) (i : Nat) : Prop := (thr s i).posted = [] ∧ queuedAccess s i = false

/-! ### Traps (R244) -/

/-- The first byte of a thread's trap frame. -/
def frameLoc (t : Thread) : Nat := carrelLoc t.core (t.trapFrame.toNat * 256)

/-- A thread that a trap is delivered to: its vector is enabled, no handler runs, its frame lies in the carrel and in no log
area of a running transaction (R165), and it takes part in no transaction. -/
def Vectored (s : State) (i : Nat) : Prop :=
  (thr s i).trapVecEn = true ∧ (thr s i).hmode = false ∧ (thr s i).trapFrame.toNat * 256 + 256 ≤ carrelBytes ∧
    txEntry s i = none ∧ logsMet s (frameLoc (thr s i)) 256 = []

/-- A thread after a trap has been delivered (R244), its TRAP_CAUSE and TRAP_ADDR as given. -/
def trapped (t : Thread) (cause : BitVec 18) (pc : Pc) (addr : Word) : Thread :=
  { clearLatches t with trapCause := cause, trapPc := pc, trapAddr := addr, hmode := true, nest := [],
                        pc := slotPc t.trapVecPc.toNat, latchKeep := false }

/-- The threads of the gathering that `who` names trap with a cause, and the others go on. TRAP_ADDR is stated where the manual
states it (R243; none: any value), and SUB likewise. The frame holds the thread as it was, with the address at which it resumes.
Nothing else changes but the free values drawn. -/
def Traps (i : Instr) (s : State) (who : Nat → Bool) (cause : BitVec 8) (sub : Option (BitVec 8)) (addr : Nat → Option Word)
    (pc : Nat → Pc) (decode : Bool) : Prop :=
  ∃ u, exec i s = .next u ∧
    (∀ j ∈ gathering s, who j = true → ∃ (c : BitVec 18) (a : Word), clearLatches (thr u j) = trapped (thr s j) c (pc j) a ∧
      c.setWidth 8 = cause ∧ c.getLsbD 17 = decode ∧ c.getLsbD 16 = false ∧ (∀ x, sub = some x → c.extractLsb' 8 8 = x) ∧
      ∀ x, addr j = some x → a = x) ∧
    (∀ j ∈ gathering s, who j = false → clearLatches (thr u j) = landed (thr s j)) ∧
    (∀ j, j ∉ gathering s → clearLatches (thr u j) = clearLatches (thr s j)) ∧
    (Memory.wf s.mem = true → ∀ j ∈ gathering s, who j = true →
      (∀ k ∈ gathering s, k ≠ j → who k = true →
        frameLoc (thr s k) + 256 ≤ frameLoc (thr s j) ∨ frameLoc (thr s j) + 256 ≤ frameLoc (thr s k)) →
      readBytes u (frameLoc (thr s j)) 256 = frameBytes (thr s j) (pc j) false) ∧
    (∀ l, (∀ j ∈ gathering s, who j = true → l < frameLoc (thr s j) ∨ frameLoc (thr s j) + 256 ≤ l) →
      Memory.get u.mem l = Memory.get s.mem l) ∧
    (∀ k, { wgOf u k with retired := 0, turn := 0, detGath := [] } = { wgOf s k with retired := 0, turn := 0, detGath := [] }) ∧
    (∀ c, (coreOf u c).mx = (coreOf s c).mx ∧ (coreOf u c).icache = (coreOf s c).icache) ∧
    u = { s with threads := u.threads, wgs := u.wgs, cores := u.cores, issue := u.issue, mem := u.mem, poison := u.poison, draws := u.draws }

/-! ### Results -/

/-- A register of a thread written (R70): g0 stays zero. -/
def putReg (t : Thread) (r : Reg) (v : Wide) (tag : FTag) : Thread :=
  match r with
  | .g n => if n == 0 then t else { t with g := tset t.g n.toNat (v.setWidth 64) }
  | .v n => { t with v := tset t.v n.toNat ⟨v, tag⟩ }
  | .xv n => setXv t n.toNat (v.toNat % 256)
  | _ => t

/-- A destination written: no register when write-back is suppressed (R72). -/
def put (t : Thread) (d : Dst) (v : Wide) (tag : FTag) : Thread :=
  match d with
  | .reg r => putReg t r v tag
  | .latchOnly => t

/-- A 64-bit result. -/
def putG (t : Thread) (d : Dst) (v : Nat) : Thread := put t d ((BitVec.ofNat 64 v).setWidth 256) 0

/-! ### Fetches (R77, R255) -/

/-- A state that opens an issue: the unit's own data as at its start. -/
def opened (u : State) : State := { u with issue := { member := .single, traps := [], stall := false, hold := none, group := gathering u } }

/-- The PC at which the gathering of the core that issues stands. -/
def gatheringPc (u : State) : Pc :=
  match gathering u with
  | [] => 0
  | i :: _ => (thr u i).pc

/-- `line` is what the fetch of the gathering's line finds (R77, R255), and `v` is the state after it; no abort has redirected a
thread of the gathering (R164). -/
def Fetched (u v : State) (line : List Byte) : Prop :=
  ∃ i rest, gathering u = i :: rest ∧ (∀ j ∈ gathering u, (thr u j).moved = false) ∧
    fetchLine u i (lineOf (thr u i).pc) = .ok (v, line)

/-! ### Mailbox commands (R523 to R526) -/

/-- A command that a die's management core runs: its doorbell has been taken, it is written to the die that R525 names, its
words and MBDATA bytes past its operands are zero (R525), and its issuer may act for its context (R526). -/
structure Commands (s : State) (die : Nat) (seq : BitVec 16) (by_ : Issuer) (opc : Nat) (home : Option Nat) (words data : Nat) : Prop where
  die_lt : die < 4
  booted : s.module.booted = true
  taken : (dieOf s die).mbox.pending = some (seq, by_)
  code : mbOpc s die = opc
  high : bits (mbCmd s die 0) 63 32 = 0
  home : ∀ h, home = some h → die = h
  words : wordsClear s die words = true
  data : mbdataClear s die data = true
  own : foreign s die by_ = false

/-- A command that completes with a cause and a detail in MBSTAT (R523, R524), leaving a state of which `p` holds. -/
def Replied (i : Instr) (s : State) (die : Nat) (seq : BitVec 16) (cause detail : Nat) (p : State → Prop) : Prop :=
  ∃ t, exec i s = .next t ∧ (dieOf t die).mbox.pending = none ∧
    (dieOf t die).mbox.stat = BitVec.ofNat 64 (seq.toNat + cause * 2 ^ 16 + 2 ^ 24 + detail * 2 ^ 32) ∧ p t

end Sys2Proof.Machine
end

