-- ==== Sys2Proof/Certificates/Slice0/Obligations.lean ====
section
/-! DEFINITION. What the model is to be proved to do: one statement for each group of rules. -/

open Sys2Proof Sys2Proof.Machine

/-- When no watchdog is due, a step whose turn is an event row runs exec of that row, and a step whose turn is the
issue of a core runs exec of the instruction that the slot at the PC of its gathering decodes to, in the state that
the fetch leaves, and for a pair the two instructions by runPair; a stalled gathering then takes the results that have
arrived (R73). A core without a gathering first takes the one that the choice of R140 gives. Which turn comes next is
the data of the schedule: the model's choice (log entry 4). Rests on 04_instruction_word.md: R65, R66, R78, R91,
07_lane_engine.md: R140, 10_lane_faults_translation.md: R255. -/
def Obligations.StepRunsDecoded : Prop :=
  ∀ (s s1 : State), watchdogDue (tick s) = none →
    (∀ i, takeTurn (tick s) = (.event i, s1) → encode i = none → step s = exec i s1) ∧
    (∀ c, takeTurn (tick s) = (.issue c, s1) → c < 256 →
      let u : State := { s1 with cur := c }
      let runs (u v : State) (line : List Byte) : Prop :=
        let k := slotOf (gatheringPc u)
        k ≤ 4 → lineTrap line k = none →
          (∀ i, pairBit line k = false → decode (slotWord line k) = .ok i → step s = takeResults (exec i v)) ∧
          (∀ i j, pairBit line k = true → decode (slotWord line k) = .ok i → decode (slotWord line (k + 1)) = .ok j →
            step s = takeResults (runPair ((gathering v).length + 1) (exec i) (exec j) v []))
      (∀ v line, (∀ i ∈ gathering u, quireHeld u i = false) → Fetched (opened u) v line → runs u v line) ∧
      (gathering u = [] → (coreOf (betweenGroups u) (betweenGroups u).cur).gated = false →
        ∀ t g v line, choose (betweenGroups u) (betweenGroups u).cur = .ready t g →
          let w := modCore t (betweenGroups u).cur fun x => { x with gath := g }
          Fetched (opened w) v line → runs w v line))

/-- Twelve words, four of them given in the manual's worked line and the others written field by field from the layout
of an instruction word, decode to MOVI, EXIT, NOP, IADD, VADD, BRA, LD, ST (wide), MFS, the unassigned point 0x025,
and for the all-zero word to an illegal field. Rests on 04_instruction_word.md: R65, R67, R68, R85, R88, R103, the
worked line. -/
def Obligations.DecodeWords : Prop :=
  let always : Guard := ⟨0, 0, true⟩
  let g (n : BitVec 7) : Src := .reg (.g n)
  decode 0x08800102000000000000002A = .ok (.movi ⟨always, .reg (.g 2), g 0, g 0, g 0⟩ 0x2A) ∧
  decode 0x088001030000000FFFFFFFFF = .ok (.movi ⟨always, .reg (.g 3), g 0, g 0, g 0⟩ 0xFFFFFFFFF) ∧
  decode 0x320001000000000000000000 = .ok (.exit ⟨always, .reg (.g 0), g 0, g 0, g 0⟩ ⟨0, .rlx, .core, 0⟩) ∧
  decode 0x330001000000000000000000 = .ok (.nop ⟨always, .reg (.g 0), g 0, g 0, g 0⟩ ⟨0, .rlx, .core, 0⟩) ∧
  decode (0x000#10 ++ 9#7 ++ 3#6 ++ 0#1 ++ 5#8 ++ 0#1 ++ 6#9 ++ 0x102#9 ++ 0#9 ++ 0x03#6 ++ 0#5 ++ 1#1 ++ 0#1 ++ 0#23) =
    .ok (.iadd ⟨⟨9, 3, false⟩, .reg (.g 5), g 6, .latch 2, g 0⟩ ⟨.i32, 0, true, none⟩) ∧
  decode (0x060#10 ++ 0#7 ++ 0#6 ++ 1#1 ++ 129#8 ++ 0#1 ++ 130#9 ++ 131#9 ++ 0#9 ++ 0x11#6 ++ 2#3 ++ 1#1 ++ 0#5 ++ 0#21) =
    .ok (.vadd ⟨always, .reg (.v 1), .reg (.v 2), .reg (.v 3), g 0⟩ ⟨.f32, .rd, true, 0, 0⟩) ∧
  decode (0x0C0#10 ++ 7#7 ++ 63#6 ++ 0#1 ++ 0#8 ++ 0#1 ++ 0#9 ++ 0#9 ++ 0#9 ++ 0#6 ++ 0#2 ++ 0#3 ++ 0#1 ++ 0x1FFFFF#21 ++ 4#3) =
    .ok (.bra ⟨⟨7, 63, false⟩, .reg (.g 0), g 0, g 0, g 0⟩ ⟨0, .rlx, .core, 0xFFFFFC⟩) ∧
  decode (0x100#10 ++ 0#7 ++ 0#6 ++ 1#1 ++ 8#8 ++ 0#1 ++ 9#9 ++ 0#9 ++ 0#9 ++ 0x04#6 ++ 1#2 ++ 3#3 ++ 0#3 ++ 0x3FFFF8#22) =
    .ok (.ld ⟨always, .reg (.g 8), g 9, g 0, g 0⟩ ⟨.i64, .acq, .pkg, .global, 0x3FFFF8⟩) ∧
  decode (0x101#10 ++ 0#7 ++ 0#6 ++ 1#1 ++ 0#8 ++ 0#1 ++ 9#9 ++ 10#9 ++ 11#9 ++ 0x0A#6 ++ 0#2 ++ 0#3 ++ 1#3 ++ 16#22) =
    .ok (.stWide ⟨always, .reg (.g 0), g 9, g 10, g 11⟩ ⟨.b64, .rlx, .core, .carrel, 16⟩) ∧
  decode (0x2C0#10 ++ 0#7 ++ 0#6 ++ 1#1 ++ 8#8 ++ 0#1 ++ 0#9 ++ 0#9 ++ 0#9 ++ 0#6 ++ 0#2 ++ 0#3 ++ 0#1 ++ 0x013#12 ++ 0#12) =
    .ok (.mfs ⟨always, .reg (.g 8), g 0, g 0, g 0⟩ ⟨0, .rlx, .core, 0x013000⟩) ∧
  decode (0x025#10 ++ 0#86) = .ok (.unassignedOpcode (0x025#10 ++ 0#86)) ∧
  decode 0 = .error .illegalField

/-- For every well-formed instruction that has a word, of every family and with every operand and modifier at every
value the encoding admits, decode of its word is the instruction. Rests on 04_instruction_word.md: R65 to R69, R84 to
R88. -/
def Obligations.EncodeThenDecode : Prop :=
  ∀ (i : Instr) (w : Code), wf i = true → encode i = some w → decode w = .ok i

/-- For every 96-bit word: whatever it decodes to is well-formed and is encoded by exactly that word, so that no bit
is dropped; and a word of a point that the opcode map does not assign decodes to nothing but the unassigned-opcode
instruction. Rests on 04_instruction_word.md: R65 to R69, R84 to R88. -/
def Obligations.DecodeThenEncode : Prop :=
  ∀ (w : Code), (∀ i, decode w = .ok i → encode i = some w ∧ wf i = true) ∧
    (∀ i, i ≠ .unassignedOpcode w → opAssigned (w.extractLsb' 86 10).toNat = false → decode w ≠ .ok i)

/-- At reset PAIRGAP, BASE and CAP are 32, 8 and 16, TRIM_BASE is 0x60 in every byte, MODID, BOOTSTAT, L2CAP and the
mailbox registers are 0, only range 0 is valid and names table slot 0 without propagation, every core is clock-gated
with WAKE_WHY and RETIRED 0 and no gathering, CYCLES is 0, and there is no thread, workgroup, context or region. That
memory then reads 0 everywhere and is in canonical form is the model's choice (log entry 2), as is that no workgroup
or context exists (log entry 3). Rests on 20_concordance_tables.md: R414, table of range descriptors,
21_links_trimming.md: R444, R461, 07_lane_engine.md: R153, WAKE_WHY, 09_lane_instructions_memory.md: R234,
27_module_bringup.md: R521, R523. -/
def Obligations.ResetState : Prop :=
  let r := State.reset
  (r.fabric.pairGap = 32 ∧ r.fabric.base = 8 ∧ r.fabric.cap = 16) ∧
  (∀ d, (dieOf r d).trimBase = 0x6060606060606060 ∧ (dieOf r d).modid = 0 ∧ (dieOf r d).bootstat = 0 ∧ (dieOf r d).l2cap = 0 ∧
    (dieOf r d).mbox.cmd = List.replicate 8 0 ∧ (dieOf r d).mbox.door = 0 ∧ (dieOf r d).mbox.stat = 0) ∧
  (∀ n, rangeValid r n = decide (n = 0)) ∧ rangeSlot r 0 = 0 ∧ rangeProp r 0 = false ∧
  (∀ c, (coreOf r c).wakeWhy = 0 ∧ (coreOf r c).retired = 0 ∧ (coreOf r c).gated = true ∧ gathering { r with cur := c } = []) ∧
  r.clock = 0 ∧ r.threads = [] ∧ r.wgs = [] ∧ r.contexts = [] ∧ r.regions = [] ∧
  Memory.wf r.mem = true ∧ (∀ l, Memory.get r.mem l = 0)

/-- From every state whose memory is in canonical form, an instruction whose word is of class 0x0, 0x1 or 0x2
(unassigned points among them) that answers a next state leaves memory in canonical form, on every path: completion, a
trap taken by a handler, a trap that stops the workgroup and writes fault records. The canonical form is the model's
representation of memory (log entry 2). Rests on 08_lane_instructions_compute.md: R167, R171,
10_lane_faults_translation.md: R244, R252. -/
def Obligations.ComputeKeepsMemoryCanonical : Prop :=
  ∀ (i : Instr) (w : Code) (s t : State), encode i = some w → (w.extractLsb' 92 4).toNat < 3 → exec i s = .next t →
    Memory.wf s.mem = true → Memory.wf t.mem = true

/-- A result makes its pipe's latch valid with its width and tag (0x000 for 64 bits) and leaves the other latches; it
writes the named register and no other of the thread's general registers, nothing under write-back suppress, and a
write to g0 changes nothing, g0 reading zero. No other thread and nothing else changes. A MOVI that completes below
slot 4 leaves l0 valid for the threads whose guard is true and every other latch as it was; at slot 4 it leaves all
four latches of every thread of the gathering cleared. Rests on 04_instruction_word.md: R70, R72, R73,
05_number_formats.md: R101. -/
def Obligations.ResultsAndLatches : Prop :=
  (∀ (s : State) (i k : Nat) (d : Dst) (wide : Bool) (v : Wide) (tag : FTag), k < 4 →
    let t := thr s i
    let u := thr (result s i k d wide v tag) i
    latchOf u k = ⟨.valid, wide, v, if wide then tag else 0⟩ ∧
    (∀ j, j < 4 → j ≠ k → latchOf u j = latchOf t j) ∧
    (t.eccRegs = [] → clearLatches u = clearLatches (put t d v tag)) ∧
    (∀ j, j ≠ i → thr (result s i k d wide v tag) j = thr s j) ∧
    result s i k d wide v tag = { s with threads := (result s i k d wide v tag).threads } ∧
    srcWord t (.reg (.g 0)) = 0 ∧ put t (.reg (.g 0)) v tag = t ∧ put t .latchOnly v tag = t ∧
    (∀ n : BitVec 7, n ≠ 0 → srcWord (put t (.reg (.g n)) v tag) (.reg (.g n)) = v.setWidth 64) ∧
    (∀ n m : BitVec 7, m ≠ n → srcWord (put t (.reg (.g n)) v tag) (.reg (.g m)) = srcWord t (.reg (.g m))) ∧
    (∀ n : BitVec 5, srcWide (put t (.reg (.v n)) v tag) (.reg (.v n)) = v ∧ srcTag (put t (.reg (.v n)) v tag) (.reg (.v n)) = tag)) ∧
  (∀ (s u : State) (o : Ops) (imm : BitVec 36) (k : Nat), Ready s → Readable s o [] →
    (∀ j ∈ gathering s, slotOf (thr s j).pc = k ∧ (thr s j).core = s.cur ∧ (wgOf s (tidWg j)).st = .running) →
    exec (.movi o imm) s = .next u → ∀ j ∈ gathering s,
      (k < 4 → latchOf (thr u j) 0 = (if guardTrue (thr s j) o.gd then ⟨.valid, false, (imm.signExtend 64).setWidth 256, 0⟩
          else latchOf (thr s j) 0) ∧
        ∀ n, n < 4 → n ≠ 0 → latchOf (thr u j) n = latchOf (thr s j) n) ∧
      (k = 4 → ∀ n, n < 4 → latchOf (thr u j) n = Latch.reset))

/-- A NOP that issues changes nothing of its threads but the PC, nothing of memory or any unit, and adds 1 to RETIRED
of the core; its fields other than the opcode and the guard must be zero to be well-formed; and the all-zero word is
refused at decode with ILLEGAL_FIELD. Rests on R90. -/
def Obligations.NopRetires : Prop :=
  (∀ (s : State) (o : Ops) (m : M3), Ready s → Readable s o [] →
    (Completes (.nop o m) s o.gd fun _ t => t) ∧
    ∃ u, exec (.nop o m) s = .next u ∧ (coreOf u s.cur).retired = (coreOf s s.cur).retired + 1 ∧
      u.mem = s.mem) ∧
  (∀ (o : Ops) (m : M3), wf (.nop o m) = true ↔ o.d = .reg (.g 0) ∧ o.a = .reg (.g 0) ∧ o.b = .reg (.g 0) ∧ o.c = .reg (.g 0) ∧
    mods3 m = 0) ∧
  decode 0 = .error .illegalField

/-- When the grouping stage of a core chooses a gathering, it is not empty, each of its threads can issue on that core
(it runs and is not suspended), and outside deterministic mode its threads share one PC and one workgroup and come
from at most two quires. Rests on 07_lane_engine.md: R139, R140, R142. -/
def Obligations.GatheringChoice : Prop :=
  ∀ (s t : State) (c : Nat) (g : List Nat), choose s c = .ready t g →
    g ≠ [] ∧ (∀ i ∈ g, i ∈ issuable s c) ∧
    (∀ i ∈ issuable s c, (thr s i).core = c ∧ (thr s i).exited = false ∧ (thr s i).wait = none) ∧
    ((∀ i ∈ issuable s c, (wgOf s (tidWg i)).det = false) →
      (∀ i ∈ g, ∀ j ∈ g, (thr s i).pc = (thr s j).pc ∧ tidWg i = tidWg j) ∧
      ∃ p q, (∀ i ∈ g, quireKey i = p ∨ quireKey i = q))

/-- IADD, ISUB, IMUL, IMULHI, IMAD, IREM, INEG, IABS, IMIN, IMAX, IDIV, ICMP and ISEL complete for every gathering
that issues freely with readable operands, and each thread whose guard is true has its destination written with the
value of the table: the exact value wrapped, or clamped under .sat; division by zero and overflow as R173 gives; ICMP
0 or 1; ISEL by bit 0 of C. Nothing else changes: memory, the other threads, every other register and every other unit
stand as before (Completes, Elsewhere). Rests on 08_lane_instructions_compute.md: R172, R173,
08_lane_instructions_compute.md: R170. -/
def Obligations.IntegerResults : Prop :=
  (∀ (s : State) (o : Ops) (m : M0), Ready s → Readable s o (wordNeeds o) →
    let A (t : Thread) : Int := intOf m.ty (srcN t o.a)
    let B (t : Thread) : Int := intOf m.ty (opB t o m)
    let C (t : Thread) : Int := intOf m.ty (srcN t o.c)
    let gives (i : Instr) (v : Thread → Int) : Prop :=
      Completes i s o.gd fun _ t => putG t o.d (fitInt m.ty m.sat (v t))
    gives (.iadd o m) (fun t => A t + B t) ∧
    gives (.isub o m) (fun t => A t - B t) ∧
    gives (.imul o m) (fun t => A t * B t) ∧
    gives (.imulhi o m) (fun t => A t * B t / 2 ^ fmtWidth m.ty) ∧
    gives (.imad o m) (fun t => A t * B t + C t) ∧
    gives (.irem o m) (fun t => if B t = 0 then A t else A t - B t * (A t).tdiv (B t)) ∧
    gives (.ineg o m) (fun t => - A t) ∧
    gives (.iabs o m) (fun t => |A t|) ∧
    gives (.imin o m) (fun t => min (A t) (B t)) ∧
    gives (.imax o m) (fun t => max (A t) (B t))) ∧
  (∀ (s : State) (o : Ops) (m : M0), Ready s → Readable s o (wordNeeds o) →
    let A (t : Thread) : Int := intOf m.ty (srcN t o.a)
    let B (t : Thread) : Int := intOf m.ty (opB t o m)
    let w := fmtWidth m.ty
    let gives (i : Instr) (v : Thread → Nat) : Prop := Completes i s o.gd fun _ t => putG t o.d (v t)
    gives (.idiv o m) (fun t => if B t = 0 then 2 ^ w - 1 else fitInt m.ty m.sat ((A t).tdiv (B t))) ∧
    gives (.icmp o m) (fun t => match m.cond.toNat with
      | 0 => if A t = B t then 1 else 0
      | 1 => if A t ≠ B t then 1 else 0
      | 2 => if A t < B t then 1 else 0
      | 3 => if A t ≤ B t then 1 else 0
      | 4 => if B t < A t then 1 else 0
      | 5 => if B t ≤ A t then 1 else 0
      | 6 => 0
      | _ => 1) ∧
    gives (.isel o m) (fun t => if srcN t o.c % 2 = 1 then srcN t o.a % 2 ^ w else opB t o m % 2 ^ w))

/-- AND, OR, XOR, ANDN and NOT give the bitwise value of the low w bits, and SHL, SHR, SAR and ROTL shift them by
Int(b) mod 128 (0 or copies of the sign at or beyond the width, rotation mod w). Nothing else changes: memory, the
other threads, every other register and every other unit stand as before (Completes, Elsewhere). Rests on
08_lane_instructions_compute.md: R172, R173. -/
def Obligations.LogicAndShiftResults : Prop :=
  (∀ (s : State) (o : Ops) (m : M0), Ready s → Readable s o (wordNeeds o) →
    let w := fmtWidth m.ty
    let A (t : Thread) : BitVec w := BitVec.ofNat w (srcN t o.a)
    let B (t : Thread) : BitVec w := BitVec.ofNat w (opB t o m)
    let gives (i : Instr) (v : Thread → BitVec w) : Prop := Completes i s o.gd fun _ t => putG t o.d (v t).toNat
    gives (.and o m) (fun t => A t &&& B t) ∧
    gives (.or o m) (fun t => A t ||| B t) ∧
    gives (.xor o m) (fun t => A t ^^^ B t) ∧
    gives (.andn o m) (fun t => A t &&& ~~~(B t)) ∧
    gives (.not o m) (fun t => ~~~(A t))) ∧
  (∀ (s : State) (o : Ops) (m : M0), Ready s → Readable s o (wordNeeds o) →
    let w := fmtWidth m.ty
    let A (t : Thread) : BitVec w := BitVec.ofNat w (srcN t o.a)
    let count (t : Thread) : Nat := (intOf m.ty (opB t o m) % 128).toNat
    let gives (i : Instr) (v : Thread → BitVec w) : Prop := Completes i s o.gd fun _ t => putG t o.d (v t).toNat
    gives (.shl o m) (fun t => A t <<< count t) ∧
    gives (.shr o m) (fun t => A t >>> count t) ∧
    gives (.sar o m) (fun t => (A t).sshiftRight (count t)) ∧
    gives (.rotl o m) (fun t => (A t).rotateLeft (count t)))

/-- BFX and BFI take position and length from B as R173 gives; POPC, CLZ, CTZ, BREV, BSET, BCLR, BTST and LEA give the
values of the table, each described bit by bit. Nothing else changes: memory, the other threads, every other register
and every other unit stand as before (Completes, Elsewhere). Rests on 08_lane_instructions_compute.md: R172, R173. -/
def Obligations.FieldAndBitResults : Prop :=
  (∀ (s : State) (o : Ops) (m : M0), Ready s → Readable s o (wordNeeds o) →
    let w := fmtWidth m.ty
    let A (t : Thread) : Nat := srcN t o.a % 2 ^ w
    let p (t : Thread) : Nat := opB t o m % 64
    let n (t : Thread) : Nat := min 64 (opB t o m / 64 % 128)
    (Completes (.bfx o m) s o.gd fun _ t => putG t o.d
      (if n t = 0 then 0
       else if isI m.ty then intCode w (toSigned (n t) (A t / 2 ^ p t)) else A t / 2 ^ p t % 2 ^ n t % 2 ^ w)) ∧
    ∃ v : Thread → Nat, (Completes (.bfi o m) s o.gd fun _ t => putG t o.d (v t)) ∧
      ∀ t i, (v t).testBit i = (decide (i < w) &&
        if p t ≤ i ∧ i < p t + n t then ((srcN t o.c).testBit (i - p t) && decide (i - p t < w)) else (srcN t o.a).testBit i)) ∧
  (∀ (s : State) (o : Ops) (m : M0), Ready s → Readable s o (wordNeeds o) →
    let w := fmtWidth m.ty
    let A (t : Thread) : Nat := srcN t o.a
    let B (t : Thread) : Nat := opB t o m
    let at_ (t : Thread) : Nat := (intOf m.ty (B t) % (w : Int)).toNat
    let gives (i : Instr) (v : Thread → Nat) : Prop := Completes i s o.gd fun _ t => putG t o.d (v t)
    gives (.popc o m) (fun t => ((List.range w).filter fun i => (A t).testBit i).length) ∧
    (∃ v, gives (.clz o m) v ∧ ∀ t, v t ≤ w ∧ (∀ i, w - v t ≤ i → i < w → (A t).testBit i = false) ∧
      (v t < w → (A t).testBit (w - 1 - v t) = true)) ∧
    (∃ v, gives (.ctz o m) v ∧ ∀ t, v t ≤ w ∧ (∀ i, i < v t → (A t).testBit i = false) ∧
      (v t < w → (A t).testBit (v t) = true)) ∧
    (∃ v, gives (.brev o m) v ∧ ∀ t i, (v t).testBit i = (decide (i < w) && (A t).testBit (w - 1 - i))) ∧
    (∃ v, gives (.bset o m) v ∧ ∀ t i, (v t).testBit i = (decide (i < w) && ((A t).testBit i || decide (i = at_ t)))) ∧
    (∃ v, gives (.bclr o m) v ∧ ∀ t i, (v t).testBit i = (decide (i < w) && ((A t).testBit i && decide (i ≠ at_ t)))) ∧
    gives (.btst o m) (fun t => if (A t).testBit (at_ t) then 1 else 0) ∧
    gives (.lea o m) (fun t => (A t + B t * 2 ^ (m.cond.toNat % 8)) % 2 ^ w))

/-- MOV copies the low w bits, or all 256 bits and the tag of a vector; MOVI gives its sign-extended immediate; PERM
picks bytes of B and A by the nibbles of C; HASH gives both hash forms; CRC feeds the bytes of b into the running
register. Nothing else changes: memory, the other threads, every other register and every other unit stand as before
(Completes, Elsewhere). Rests on 08_lane_instructions_compute.md: R172, R174, R175, R176. -/
def Obligations.MovesHashesAndChecks : Prop :=
  ∀ (s : State) (o : Ops) (m : M0), Ready s →
    let w := fmtWidth m.ty
    let A (t : Thread) : Nat := srcN t o.a
    let B (t : Thread) : Nat := opB t o m
    let C (t : Thread) : Nat := srcN t o.c
    ((∀ i ∈ gathering s, opsBeyond (wgOf s (tidWg i)) (tidQuire i) o = false ∧ (guardTrue (thr s i) o.gd = true →
        operandTrap (thr s i) [(o.a, if movesVector o (m.ty == .b64) (thr s i) then .raw else .word)] = none)) →
      Completes (.mov o m) s o.gd fun _ t =>
        if movesVector o (m.ty == .b64) t then put t o.d (srcWide t o.a) (srcTag t o.a) else putG t o.d (A t % 2 ^ w)) ∧
    (∀ imm, Readable s o [] → Completes (.movi o imm) s o.gd fun _ t => putG t o.d (imm.signExtend 64).toNat) ∧
    (Readable s o (wordNeeds o) →
      (m.ty = .b64 → ∃ v : Thread → Nat, (Completes (.perm o m) s o.gd fun _ t => putG t o.d (v t)) ∧ ∀ t i, v t < 2 ^ 64 ∧
        (i < 8 → v t / 256 ^ i % 256 = (A t + B t * 2 ^ 64) / 256 ^ (C t / 16 ^ i % 16) % 256)) ∧
      (m.ty = .n64 → Completes (.hash o m) s o.gd fun _ t => putG t o.d ((B t * A t + C t) % 2 ^ 64)) ∧
      (m.ty = .n32 → Completes (.hash o m) s o.gd fun _ t =>
        let l := if C t % 64 = 0 ∨ 32 < C t % 64 then 32 else C t % 64
        putG t o.d ((B t % 2 ^ 32 * ((A t ^^^ (A t / 2 ^ 32)) % 2 ^ 32) + B t / 2 ^ 32) % 2 ^ 32 / 2 ^ (32 - l))) ∧
      Completes (.crc o m) s o.gd fun _ t => putG t o.d
        ((List.range (w / 8)).foldl (fun c i => crcByte m.cond.toNat c (B t / 2 ^ (8 * i) % 256))
          (A t % 2 ^ crcWidth m.cond.toNat)))

/-- FADD, FSUB, FMUL, FFMA, FMIN, FMAX, FABS, FNEG, FRCP, FRSQ, FSQRT, FDIV, FEXP2, FLOG2, FSIN and FCOS round their
exact value once in the instruction's mode, set the sticky flags of FSTAT that the rounding raises, and advance
SR_SEED only under .rs. The transcendental functions are rounded from an approximation of bounded error, and FABS and
FNEG of a signalling NaN raise INVALID: the model's readings (log entries 8 and 43). Nothing else changes: memory, the
other threads, every other register and every other unit stand as before (Completes, Elsewhere). Rests on
08_lane_instructions_compute.md: R177, R178, R179, 05_number_formats.md: R106 to R110. -/
def Obligations.FloatArithmeticResults : Prop :=
  ∀ (s : State) (o : Ops) (m : M1), Ready s → Readable s o (wordNeeds o) →
    let A (t : Thread) : Machine.Num := decodeFloat m.ty (srcN t o.a % 2 ^ fmtWidth m.ty)
    let B (t : Thread) : Machine.Num := decodeFloat m.ty (srcN t o.b % 2 ^ fmtWidth m.ty)
    let C (t : Thread) : Machine.Num := decodeFloat m.ty (srcN t o.c % 2 ^ fmtWidth m.ty)
    let gives (i : Instr) (x : Thread → Exact) : Prop := Completes i s o.gd fun _ t =>
      let r := roundExact m.ty m.rnd m.sat (drawOf t m.rnd) (x t)
      putG { afterDraw t m.rnd with fstat := t.fstat ||| r.2 } o.d r.1
    gives (.fadd o m) (fun t => exactly (addNum m.rnd (A t) (B t))) ∧
    gives (.fsub o m) (fun t => exactly (addNum m.rnd (A t) (negNum (B t)))) ∧
    gives (.fmul o m) (fun t => exactly (mulNum (A t) (B t))) ∧
    gives (.ffma o m) (fun t => exactly (fmaNum m.rnd (A t) (B t) (C t))) ∧
    gives (.fmin o m) (fun t => exactly (minNum (A t) (B t))) ∧
    gives (.fmax o m) (fun t => exactly (maxNum (A t) (B t))) ∧
    gives (.fabs o m) (fun t => exactly (absNum (A t), isSig (A t))) ∧
    gives (.fneg o m) (fun t => exactly (negNum (A t), isSig (A t))) ∧
    gives (.frcp o m) (fun t => rcpNum (A t)) ∧
    gives (.frsq o m) (fun t => rsqNum (A t)) ∧
    gives (.fsqrt o m) (fun t => sqrtNum (A t)) ∧
    gives (.fdiv o m) (fun t => divNum (A t) (B t)) ∧
    gives (.fexp2 o m) (fun t => exp2Num (A t)) ∧
    gives (.flog2 o m) (fun t => log2Num (A t)) ∧
    gives (.fsin o m) (fun t => sinNum (A t)) ∧
    gives (.fcos o m) (fun t => cosNum (A t))

/-- FCLASS writes a mask with exactly one of bits 0 to 9 set, by the class of its operand in the order of the manual.
FCMP writes 0 or 1 by its condition, with the results and the INVALID flag that a NaN operand gives. Nothing else
changes: memory, the other threads, every other register and every other unit stand as before (Completes, Elsewhere).
Rests on R180. -/
def Obligations.FloatCompareAndClass : Prop :=
  ∀ (s : State) (o : Ops) (m : M1), Ready s → Readable s o (wordNeeds o) →
    let a (t : Thread) : Nat := srcN t o.a % 2 ^ fmtWidth m.ty
    let A (t : Thread) : Machine.Num := decodeFloat m.ty (a t)
    let B (t : Thread) : Machine.Num := decodeFloat m.ty (srcN t o.b % 2 ^ fmtWidth m.ty)
    let c := m.cond.toNat
    (Completes (.fcmp o m) s o.gd fun _ t =>
      if isNan (A t) || isNan (B t) then
        putG { t with fstat := t.fstat ||| if isSig (A t) || isSig (B t) || (2 ≤ c && c ≤ 5) then flagInvalid else 0 } o.d
          (if c = 1 ∨ c = 6 then 1 else 0)
      else putG t o.d (match c with
        | 0 => if cmpNum (A t) (B t) = 0 then 1 else 0
        | 1 => if cmpNum (A t) (B t) ≠ 0 then 1 else 0
        | 2 => if cmpNum (A t) (B t) < 0 then 1 else 0
        | 3 => if cmpNum (A t) (B t) ≤ 0 then 1 else 0
        | 4 => if 0 < cmpNum (A t) (B t) then 1 else 0
        | 5 => if 0 ≤ cmpNum (A t) (B t) then 1 else 0
        | 6 => 0
        | _ => 1)) ∧
    ∃ n : Thread → Nat, (Completes (.fclass o m) s o.gd fun _ t => putG t o.d (2 ^ n t)) ∧ ∀ t,
      match A t with
      | .inf sg => n t = if sg then 0 else 7
      | .nan sg => n t = if sg then 8 else 9
      | .fin sg k _ =>
        (k = 0 → n t = if sg then 3 else 4) ∧
        (k ≠ 0 → a t % 2 ^ signBit m.ty / 2 ^ (floatShape m.ty).man = 0 → n t = if sg then 2 else 5) ∧
        (k ≠ 0 → a t % 2 ^ signBit m.ty / 2 ^ (floatShape m.ty).man ≠ 0 → n t = if sg then 1 else 6)

/-- VADD, VSUB, VMUL, VFMA, VMIN and VMAX act on each element, float elements rounded once with draws in ascending
order, integer elements wrapped or clamped, B an element or the scalar under BS; the result carries the type's tag.
That VMIN and VMAX take a draw under .rs is a reading (log entry 44). Nothing else changes: memory, the other threads,
every other register and every other unit stand as before (Completes, Elsewhere). Rests on
08_lane_instructions_compute.md: R181, 05_number_formats.md: R107. -/
def Obligations.VectorArithmeticResults : Prop :=
  ∀ (s : State) (o : Ops) (m : M1), Ready s →
    let bs := m.var.getLsbD 0
    let A (t : Thread) (i : Nat) : Nat := elemAt m.ty (srcW t o.a) i
    let B (t : Thread) (i : Nat) : Nat := if bs then srcN t o.b % 2 ^ fmtWidth m.ty else elemAt m.ty (srcW t o.b) i
    let C (t : Thread) (i : Nat) : Nat := elemAt m.ty (srcW t o.c) i
    let gives (i : Instr) (ff : Machine.Num → Machine.Num → Machine.Num → Exact) (fi : Int → Int → Int → Int) : Prop :=
      Completes i s o.gd fun _ t =>
        let one (i draw : Nat) : Nat × BitVec 3 :=
          if isF m.ty then roundExact m.ty m.rnd m.sat draw
            (ff (decodeFloat m.ty (A t i)) (decodeFloat m.ty (B t i)) (decodeFloat m.ty (C t i)))
          else (fitInt m.ty m.sat (fi (intOf m.ty (A t i)) (intOf m.ty (B t i)) (intOf m.ty (C t i))), 0)
        let r := drawElems m.rnd (elemCount m.ty) one t
        put { r.2.2 with fstat := t.fstat ||| r.2.1 } o.d (BitVec.ofNat 256 (packElems m.ty r.1)) (tagOf m.ty 0)
    (Readable s o [(o.a, .typed m.ty), (o.b, needB m.ty bs), (o.c, .word)] →
      gives (.vadd o m) (fun a b _ => exactly (addNum m.rnd a b)) (fun a b _ => a + b) ∧
      gives (.vsub o m) (fun a b _ => exactly (addNum m.rnd a (negNum b))) (fun a b _ => a - b) ∧
      gives (.vmul o m) (fun a b _ => exactly (mulNum a b)) (fun a b _ => a * b) ∧
      gives (.vmin o m) (fun a b _ => exactly (minNum a b)) (fun a b _ => min a b) ∧
      gives (.vmax o m) (fun a b _ => exactly (maxNum a b)) (fun a b _ => max a b)) ∧
    (Readable s o [(o.a, .typed m.ty), (o.b, needB m.ty bs), (o.c, .typed m.ty)] →
      gives (.vfma o m) (fun a b c => exactly (fmaNum m.rnd a b c)) (fun a b c => a * b + c))

/-- VDOT and VSUM round the exact sum of their terms once for the float types, and give the exact integer sum modulo
2^64 or clamped for .i8 and .n8. That the integer forms take a draw under .rs is a reading (log entry 44). Nothing
else changes: memory, the other threads, every other register and every other unit stand as before (Completes,
Elsewhere). Rests on 08_lane_instructions_compute.md: R182. -/
def Obligations.VectorSums : Prop :=
  ∀ (s : State) (o : Ops) (m : M1), Ready s →
    let n := elemCount m.ty
    let rt : Fmt := if m.ty = .f64 then .f64 else .f32
    let A (t : Thread) (i : Nat) : Nat := elemAt m.ty (srcW t o.a) i
    let B (t : Thread) (i : Nat) : Nat := elemAt m.ty (srcW t o.b) i
    let c (t : Thread) : Machine.Num := decodeFloat rt (srcN t o.c % 2 ^ fmtWidth rt)
    let floats (i : Instr) (terms : Thread → List (Machine.Num × Bool)) : Prop := Completes i s o.gd fun _ t =>
      let sum := sumNums m.rnd ((terms t).map Prod.fst)
      let r := roundExact rt m.rnd m.sat (drawOf t m.rnd) ⟨sum.1, false, sum.2 || (terms t).any Prod.snd⟩
      putG { afterDraw t m.rnd with fstat := t.fstat ||| r.2 } o.d r.1
    let ints (i : Instr) (total : Thread → Int) : Prop := Completes i s o.gd fun _ t =>
      putG (afterDraw t m.rnd) o.d (fitInt (if isI m.ty then .i64 else .n64) m.sat (total t))
    (Readable s o [(o.a, .typed m.ty), (o.b, .typed m.ty), (o.c, .word)] →
      (isIN m.ty = false → floats (.vdot o m) fun t =>
        (List.range n).map (fun i => mulNum (decodeFloat m.ty (A t i)) (decodeFloat m.ty (B t i))) ++ [(c t, isSig (c t))]) ∧
      (isIN m.ty = true → ints (.vdot o m) fun t =>
        ((List.range n).map fun i => intOf m.ty (A t i) * intOf m.ty (B t i)).sum +
          intOf (if isI m.ty then .i64 else .n64) (srcN t o.c))) ∧
    (Readable s o [(o.a, .typed m.ty)] →
      (isIN m.ty = false → floats (.vsum o m) fun t =>
        (List.range n).map fun i => (decodeFloat m.ty (A t i), isSig (decodeFloat m.ty (A t i)))) ∧
      (isIN m.ty = true → ints (.vsum o m) fun t => ((List.range n).map fun i => intOf m.ty (A t i)).sum))

/-- VCMP sets bit i of its result by the condition of elements i, and INVALID as one of them asks; VSEL picks elements
by the bits of C; VBCAST repeats a scalar; XSHF takes a register value of the source lane of its mode, or of its own
lane where that lane takes no part. The lane value of XSHF is read as unsigned (log entry 43). Nothing else changes:
memory, the other threads, every other register and every other unit stand as before (Completes, Elsewhere). Rests on
08_lane_instructions_compute.md: R170, R183, R184. -/
def Obligations.VectorCompareSelectShuffle : Prop :=
  ∀ (s : State) (o : Ops) (m : M1), Ready s →
    let bs := m.var.getLsbD 0
    let n := elemCount m.ty
    let A (t : Thread) (i : Nat) : Nat := elemAt m.ty (srcW t o.a) i
    let B (t : Thread) (i : Nat) : Nat := if bs then srcN t o.b % 2 ^ fmtWidth m.ty else elemAt m.ty (srcW t o.b) i
    (Readable s o [(o.a, .typed m.ty), (o.b, needB m.ty bs)] →
      ∃ (mask : Thread → Nat) (inv : Thread → Bool),
        (Completes (.vcmp o m) s o.gd fun _ t =>
          putG { t with fstat := t.fstat ||| if inv t then flagInvalid else 0 } o.d (mask t)) ∧
        ∀ t, (∀ i, (mask t).testBit i = (decide (i < n) &&
          if isF m.ty then (floatCond m.ty m.cond.toNat (A t i) (B t i)).1 else intCond m.ty m.cond.toNat (A t i) (B t i))) ∧
          (inv t = true ↔ isF m.ty = true ∧ ∃ i < n, (floatCond m.ty m.cond.toNat (A t i) (B t i)).2 = true)) ∧
    (Readable s o [(o.a, .typed m.ty), (o.b, .typed m.ty), (o.c, .word)] →
      Completes (.vsel o m) s o.gd fun _ t => put t o.d (BitVec.ofNat 256 (packElems m.ty ((List.range n).map fun i =>
        if (srcN t o.c).testBit i then A t i else elemAt m.ty (srcW t o.b) i))) (tagOf m.ty 0)) ∧
    (Readable s o [(o.a, .word)] →
      Completes (.vbcast o m) s o.gd fun _ t => put t o.d (BitVec.ofNat 256 (packElems m.ty
        (List.replicate n (srcN t o.a % 2 ^ fmtWidth m.ty)))) ((0 : BitVec 3) ++ fmtCode m.ty)) ∧
    ((∀ i ∈ gathering s, opsBeyond (wgOf s (tidWg i)) (tidQuire i) o = false ∧ (guardTrue (thr s i) o.gd = true →
        operandTrap (thr s i) [(o.a, if movesVector o true (thr s i) then .raw else .word), (o.b, .word)] = none)) →
      Completes (.xshf o m) s o.gd fun j t =>
        let k := if m.var.getLsbD 2 then m.var.toNat / 8 % 32 else srcN t o.b
        let lane : Option Nat := match m.var.toNat % 4 with
          | 0 => some k
          | 1 => if k ≤ t.lane then some (t.lane - k) else none
          | 2 => some (t.lane + k)
          | _ => some (t.lane ^^^ k)
        let src := match lane with
          | some l => if l < 32 ∧ tidOf t.wg t.quire l ∈ operandSet s j o.gd then tidOf t.wg t.quire l else j
          | none => j
        if movesVector o true t then put t o.d (srcWide (thr s src) o.a) (srcTag (thr s src) o.a)
        else putG t o.d (srcN (thr s src) o.a % 2 ^ fmtWidth m.ty))

/-- CVT, VCVT, both forms of QUANT, DEQ, PACK, UNPACK, TAG (register and tile form), TAGQ and XVSET write the values
and tags of their rules, drawing and raising flags as each encoding does; TAG and TAGQ of a t-tile act so once no queued matrix
instruction writes the tile or, for TAG, reads it. Nothing else changes: memory, the other
threads, every other register and every other unit stand as before (Completes, Elsewhere). Rests on
08_lane_instructions_compute.md: R185 to R190, 05_number_formats.md: R104, R109. -/
def Obligations.ConversionResults : Prop :=
  ∀ (s : State) (o : Ops) (m : M2), Ready s →
    let vector (i : Instr) (n : Nat) (one : Thread → Nat → Nat → Nat × BitVec 3) (place : Thread → List Nat → List Nat)
        (tag : FTag) : Prop :=
      Completes i s o.gd fun _ t =>
        let r := drawElems m.rnd n (one t) t
        put { r.2.2 with fstat := t.fstat ||| r.2.1 } o.d (BitVec.ofNat 256 (packElems m.dt (place t r.1))) tag
    let ns := elemCount m.st
    let nd := elemCount m.dt
    let p := m.var.toNat
    let f32s (t : Thread) : List Machine.Num := (List.range 8).map fun i => decodeFloat .f32 (elemAt .f32 (srcW t o.a) i)
    (Readable s o [(o.a, .word)] → Completes (.cvt o m) s o.gd fun _ t =>
      let r := encodeNum m.dt (readXv t m.xv.toNat) m.rnd m.sat (isIN m.st) (drawOf t m.rnd)
        (decodeNum m.st (readXv t m.xv.toNat) (srcN t o.a % 2 ^ fmtWidth m.st))
      putG { afterDraw t m.rnd with fstat := t.fstat ||| r.2 } o.d r.1) ∧
    (Readable s o [(o.a, .typed m.st)] → vector (.vcvt o m) (min ns nd)
      (fun t i draw => encodeNum m.dt (readXv t m.xv.toNat) m.rnd m.sat (isIN m.st) draw
        (decodeNum m.st (readXv t m.xv.toNat) (elemAt m.st (srcW t o.a) ((if nd < ns then p * min ns nd else 0) + i))))
      (fun _ es => List.replicate (if ns < nd then p * min ns nd else 0) 0 ++ es)
      (tagOf m.dt (if m.dt = .f4x then m.xv.toNat else 0))) ∧
    (Readable s o [(o.a, .typed .f32)] →
      Completes (.quantScale o m) s o.gd fun _ t => putG t o.d (quantScaleCode m.dt (f32s t))) ∧
    (Readable s o [(o.a, .typed .f32), (o.b, .word), (o.c, if o.c = .reg (.g 0) then .word else .typed m.dt)] →
      vector (.quantCodes o m) 8
        (fun t i draw =>
          let c := srcN t o.b % 256
          encodeNum m.dt 0 m.rnd false false draw
            (if c = 255 then .nan false else scale2 ((f32s t).getD i (.nan false)) (127 - (c : Int))))
        (fun t es => (List.range nd).map fun i =>
          if p / 2 * 8 ≤ i ∧ i < p / 2 * 8 + 8 then es.getD (i - p / 2 * 8) 0
          else elemAt m.dt (if o.c = .reg (.g 0) then 0 else srcW t o.c) i)
        (tagOf m.dt 0)) ∧
    (Readable s o [(o.a, .raw), (o.b, .word)] → vector (.deq o m) nd
      (fun t i draw =>
        let code := elemAt m.st (srcW t o.a) (p * nd + i)
        let b := srcN t o.b
        encodeNum m.dt 0 m.rnd false false draw
          (if isQ m.st then decodeQ code (b % 2 ^ 16) (if isQ4 m.st then b / 2 ^ 16 % 16 else b / 2 ^ 16 % 256)
           else decodeBs m.st code (b / 2 ^ (8 * (i / 8)) % 256)))
      (fun _ es => es) (tagOf m.dt 0)) ∧
    (Readable s o [(o.a, .typed m.dt), (o.b, .typed m.dt)] → Completes (.pack o m) s o.gd fun _ t =>
      put t o.d (BitVec.ofNat 256 (packElems m.dt ((List.range (nd / 2)).map (elemAt m.dt (srcW t o.a)) ++
        (List.range (nd / 2)).map (elemAt m.dt (srcW t o.b))))) (tagOf m.dt 0)) ∧
    (Readable s o [(o.a, .typed m.dt)] → Completes (.unpack o m) s o.gd fun _ t =>
      put t o.d (BitVec.ofNat 256 (packElems m.dt ((List.range (nd / 2)).map fun i =>
        elemAt m.dt (srcW t o.a) (p * (nd / 2) + i)))) (tagOf m.dt 0)) ∧
    (Readable s o [(o.a, .either)] → (∀ n, o.a = .reg (.t n) → ∀ i ∈ gathering s, guardTrue (thr s i) o.gd = true →
        tileQueued s (thr s i).core n.toNat false = false) → Completes (.tagq o m) s o.gd fun j t => putG t o.d
      (match o.a with
        | .reg (.t n) => tileTag s (thr s j).core n.toNat
        | .reg (.a _) => 0x011
        | x => srcTag t x).toNat) ∧
    (Readable s o [(o.a, .word)] → Completes (.xvset o m) s o.gd fun _ t => putG t o.d (srcN t o.a % 256)) ∧
    ((∀ n, o.a ≠ .reg (.t n)) → Readable s o [(o.a, .raw)] → Completes (.tag o m) s o.gd fun _ t =>
      put t o.d (srcWide t o.a) (tagOf m.dt m.xv.toNat)) ∧
    (∀ n, o.a = .reg (.t n) → Readable s o [] → (∀ i ∈ gathering s, guardTrue (thr s i) o.gd = true →
        tileQueued s (thr s i).core n.toNat true = false) → Runs (.tag o m) s o.gd
      (fun st i => modMx st (thr s i).core fun x => { x with ttag := tset x.ttag n.toNat (tagOf m.dt m.xv.toNat) })
      (fun _ => .next))

/-- BRA and BRX complete for every thread whose guard is true with its PC at the target, if the target is a marked
slot; the loop levels whose range does not hold the target are popped, innermost first, and the others stay. The
target of a field is the displaced line and the slot. What the parts of the threads do is all that changes; a thread
whose guard is false only goes on (Runs, Passed). Rests on 08_lane_instructions_compute.md: R191, R192,
04_instruction_word.md: R81, R87, 07_lane_engine.md: R148. -/
def Obligations.Branches : Prop :=
  (∀ (s : State) (o : Ops) (m : M3), Ready s → Readable s o [] →
    let target (i : Nat) : Pc := targetPc (thr s i).pc m.target
    AtTurns s o.gd (fun st i => branchPop st i (target i)) (fun st i => targetClear st i (target i) = false) →
    Runs (.bra o m) s o.gd (fun st i => branchPop st i (target i)) fun i => .jump (target i)) ∧
  (∀ (s : State) (o : Ops) (m : M3), Ready s → Readable s o [(o.a, .word)] →
    let target (i : Nat) : Pc := BitVec.ofNat 56 (srcN (thr s i) o.a)
    (∀ i ∈ gathering s, srcN (thr s i) o.a < 2 ^ 56 ∧ srcN (thr s i) o.a % 64 ≤ 4) →
    AtTurns s o.gd (fun st i => branchPop st i (target i)) (fun st i => targetClear st i (target i) = false) →
    Runs (.brx o m) s o.gd (fun st i => branchPop st i (target i)) fun i => .jump (target i)) ∧
  (∀ (pc : Pc) (t : BitVec 24), ((pc.toNat / 64 : Nat) : Int) + (t.extractLsb' 3 21).toInt ∈ Set.Ico (0 : Int) (2 ^ 50) →
    ((targetPc pc t).toNat : Int) = ((pc.toNat / 64 : Nat) + (t.extractLsb' 3 21).toInt) * 64 + (t.toNat % 8 : Nat)) ∧
  (∀ (nest : List LoopLevel) (target : Pc), ∃ gone, nest = gone ++ popTo nest target ∧
    (∀ l ∈ gone, ¬(l.start ≤ target ∧ target ≤ l.stop)) ∧
    (∀ l rest, popTo nest target = l :: rest → l.start ≤ target ∧ target ≤ l.stop)) ∧
  (∀ (s : State) (i : Nat) (target : Pc), (thr (branchPop s i target) i).nest = popTo (thr s i).nest target)

/-- CALL and CALLX write the 128-byte frame of the return address and loop nest below CFP, lower FRAME by one, empty
the nest and transfer; RET reads the frame at CFP, raises FRAME, and restores PC and nest; what a call has written
reads back as it was, PC bits [5:3] of the loop levels zero. What the parts of the threads do is all that changes; a thread whose guard is false only goes on
(Runs, Passed). Rests on 07_lane_engine.md: R149, R150, R151, 08_lane_instructions_compute.md: R193,
04_instruction_word.md: R81. -/
def Obligations.CallsAndReturns : Prop :=
  let callPart (s : State) (st : State) (i : Nat) : State :=
    let t := thr s i
    progress (modThr (storeBytes st (carrelLoc t.core (t.cfp.toNat * 128 - 128)) (callFrame t (nextSlot t.pc))) i
      fun t => { t with cfp := t.cfp - 1, nest := [] }) t.wg
  let callable (s : State) (target : Nat → Pc) (st : State) (i : Nat) : Prop :=
    let t := thr s i
    t.cfp ≠ 0 ∧ t.cfp.toNat * 128 ≤ carrelBytes ∧ logsMet st (carrelLoc t.core (t.cfp.toNat * 128 - 128)) 128 = [] ∧
      targetClear st i (target i) = false
  (∀ (s : State) (o : Ops) (m : M3), Ready s → Readable s o [] →
    let target (i : Nat) : Pc := targetPc (thr s i).pc m.target
    AtTurns s o.gd (callPart s) (callable s target) →
    Runs (.call o m) s o.gd (callPart s) fun i => .jump (target i)) ∧
  (∀ (s : State) (o : Ops) (m : M3), Ready s → Readable s o [(o.a, .word)] →
    let target (i : Nat) : Pc := BitVec.ofNat 56 (srcN (thr s i) o.a)
    (∀ i ∈ gathering s, srcN (thr s i) o.a < 2 ^ 56 ∧ srcN (thr s i) o.a % 64 ≤ 4) →
    AtTurns s o.gd (callPart s) (callable s target) →
    Runs (.callx o m) s o.gd (callPart s) fun i => .jump (target i)) ∧
  (∀ (s : State) (o : Ops) (m : M3) (ret : Nat → Pc) (nest : Nat → List LoopLevel), Ready s → Readable s o [] →
    let off (i : Nat) : Nat := (thr s i).cfp.toNat * 128
    let part (st : State) (i : Nat) : State :=
      progress (modThr st i fun t => { t with cfp := t.cfp + 1, nest := nest i }) (thr s i).wg
    (∀ i ∈ gathering s, guardTrue (thr s i) o.gd = true → off i + 128 ≤ carrelBytes ∧
      poisoned s (carrelLoc (thr s i).core (off i)) 128 = false ∧ (ret i).toNat % 64 ≤ 4 ∧
      readFrame (loadBytes s (carrelLoc (thr s i).core (off i)) 128) = some ((ret i).toNat, nest i)) →
    AtTurns s o.gd part (fun st i => targetClear st i (ret i) = false) →
    Runs (.ret o m) s o.gd part fun i => .jump (ret i)) ∧
  (∀ (t : Thread) (ret : Pc), t.nest.length ≤ 4 → readFrame (callFrame t ret) =
    some (ret.toNat, t.nest.map fun l => { l with start := slotPc l.start.toNat, stop := slotPc l.stop.toNat }))

/-- LOOP pushes a level, or with count 0 goes on past the body; LEXIT pops the innermost level and goes on past it;
LCNT reads the remaining count of a level and LCNT.set replaces it, at least 1; at a loop end the count falls by one
and the thread goes back to the start, or at 1 the level is popped. What the parts of the threads do is all that
changes; a thread whose guard is false only goes on (Runs, Passed). Rests on 07_lane_engine.md: R147, R152,
08_lane_instructions_compute.md: R194, R195, R196. -/
def Obligations.Loops : Prop :=
  (∀ (s : State) (o : Ops) (m : M3), Ready s → Readable s o [(o.a, .word)] →
    let stop (i : Nat) : Pc := targetPc (thr s i).pc m.target
    let count (i : Nat) : Nat := srcN (thr s i) o.a % 2 ^ 32
    (∀ i ∈ gathering s, nextSlot (thr s i).pc ≤ stop i ∧ (thr s i).pc ≠ stop i ∧ (guardTrue (thr s i) o.gd = true → (thr s i).nest.length < 4)) →
    Runs (.loop o m) s o.gd
      (fun st i => if count i = 0 then st else
        modThr st i fun t => { t with nest := ⟨nextSlot t.pc, stop i, BitVec.ofNat 32 (count i)⟩ :: t.nest })
      fun i => if count i = 0 then .jump (nextSlot (stop i)) else .next) ∧
  (∀ (s : State) (o : Ops) (m : M3) (top : Nat → LoopLevel) (rest : Nat → List LoopLevel), Ready s → Readable s o [] →
    (∀ i ∈ gathering s, guardTrue (thr s i) o.gd = true → (thr s i).nest = top i :: rest i) →
    Runs (.lexit o m) s o.gd (fun st i => progress (modThr st i fun t => { t with nest := rest i }) (thr s i).wg)
      fun i => .jump (nextSlot (top i).stop)) ∧
  (∀ (s : State) (o : Ops) (m : M3) (level : Nat → LoopLevel), Ready s → Readable s o [] →
    (∀ i ∈ gathering s, guardTrue (thr s i) o.gd = true → (thr s i).nest[m.var.toNat % 4]? = some (level i)) →
    Completes (.lcnt o m) s o.gd fun i t => putG t o.d (level i).count.toNat) ∧
  (∀ (s : State) (o : Ops) (m : M3) (level : Nat → LoopLevel), Ready s → Readable s o [(o.a, .word)] →
    (∀ i ∈ gathering s, guardTrue (thr s i) o.gd = true → (thr s i).nest[m.var.toNat % 4]? = some (level i)) →
    Runs (.lcntSet o m) s o.gd
      (fun st i => modThr st i fun t =>
        { t with nest := t.nest.set (m.var.toNat % 4) ⟨(level i).start, (level i).stop, BitVec.ofNat 32 (max 1 (srcN (thr s i) o.a % 2 ^ 32))⟩ })
      fun _ => .next) ∧
  (∀ (s : State) (i : Nat) (l : LoopLevel) (rest : List LoopLevel) (next : Pc), (thr s i).nest = l :: rest →
    loopEnd s i [l.stop] next =
      if l.count = 1 then .ok (next, rest, true, false)
      else if targetClear s i l.start then .error l.start
      else .ok (l.start, { l with count := l.count - 1 } :: rest, false, true))

/-- EXIT ends its thread, YIELD and NOP change nothing but the PC, PPOINT records the point of a quire of a pre-empted
workgroup, and in deterministic mode one of all its quires, with every tile live when another quire has the matrix role too (the
model's choice, log entry 88); WAIT.dep, WAIT.nbar and WAIT.acc go on at once when their event has happened and otherwise suspend the
thread with the code and values that the wait is tested by. That B of WAIT.dep must be zero is a reading of R69 (log
entry 38). What the parts of the threads do is all that changes; a thread whose guard is false only goes on (Runs,
Passed). Rests on 08_lane_instructions_compute.md: R197 to R201, 07_lane_engine.md: R153, R160,
02_engines_together.md: R33. -/
def Obligations.ExitYieldAndWaits : Prop :=
  (∀ (s : State) (o : Ops) (m : M3), Ready s → Readable s o [] →
    Completes (.nop o m) s o.gd (fun _ t => t) ∧
    ((∀ i ∈ gathering s, guardTrue (thr s i) o.gd = true → txOf s i = none) →
      Completes (.yield o m) s o.gd (fun _ t => t) ∧
      Runs (.exit o m) s o.gd
        (fun st i => progress (modThr st i fun t => { clearLatches t with exited := true, pend := [] }) (thr s i).wg)
        fun _ => .stay) ∧
    ((∀ i ∈ gathering s, guardTrue (thr s i) o.gd = true →
        (wgOf s (tidWg i)).preempt = false ∨ (wgOf s (tidWg i)).roles.getD (tidQuire i) .general ≠ .matrix) →
      Completes (.ppoint o m) s o.gd (fun _ t => t)) ∧
    ((∀ i ∈ gathering s, guardTrue (thr s i) o.gd = true →
        (wgOf s (tidWg i)).preempt = true ∧ (wgOf s (tidWg i)).roles.getD (tidQuire i) .general = .matrix ∧
        tidQuire i ∉ (wgOf s (tidWg i)).atPoint) →
      Runs (.ppoint o m) s o.gd
        (fun st i => if tidQuire i ∈ (wgOf st (tidWg i)).atPoint then st else modWg st (tidWg i) fun w =>
          if w.det then
            { w with
              atPoint := List.range w.roles.length
              live := if w.roles.count .matrix = 1 then w.live ||| m.target else BitVec.allOnes 24 }
          else { w with atPoint := w.atPoint ++ [tidQuire i], live := w.live ||| m.target })
        fun _ => .next)) ∧
  (∀ (s : State) (o : Ops) (m : M3), Ready s → Readable s o [(o.a, .word), (o.b, .word)] →
    (∀ i ∈ gathering s, guardTrue (thr s i) o.gd = true → txOf s i = none) →
    let A (i : Nat) : Word := srcWord (thr s i) o.a
    ((∀ i ∈ gathering s, guardTrue (thr s i) o.gd = true → (A i).toNat < 2 ^ 14) →
      Runs (.waitDep o m) s o.gd (fun st _ => st) fun i =>
        if (taskOf s (A i).toNat).count = 0 then .next
        else .wait { code := 1, a := A i, b := 0, dst := .latchOnly, var := 0 }) ∧
    ((∀ i ∈ gathering s, guardTrue (thr s i) o.gd = true → (A i).toNat < 16) →
      Runs (.waitNbar o m) s o.gd (fun st _ => st) fun i =>
        let b := srcN (thr s i) o.b % 2 ^ 16
        let phase := (nbarOf (wgOf s (tidWg i)) (A i).toNat).phase.toNat
        if (phase + 2 ^ 16 - b) % 2 ^ 16 < 2 ^ 15 then .next
        else .wait { code := 2, a := A i, b := BitVec.ofNat 64 b, dst := .latchOnly, var := 0 }) ∧
    (o.b = .reg (.g 0) → (∀ i ∈ gathering s, guardTrue (thr s i) o.gd = true →
        logsMet s (carrelLoc (thr s i).core ((thr s i).cqhdr.toNat * 64 + 16)) 8 = [] ∧ queuedAccess s i = false ∧
        (thr s i).cqhdr.toNat * 64 + 24 ≤ carrelBytes ∧
        poisoned s (carrelLoc (thr s i).core ((thr s i).cqhdr.toNat * 64 + 16)) 8 = false) →
      Runs (.waitAcc o m) s o.gd (fun st _ => st) fun i =>
        let acc := readWord s (carrelLoc (thr s i).core ((thr s i).cqhdr.toNat * 64 + 16)) % 2 ^ 48
        let x := (A i).toNat % 2 ^ 48
        if (acc + 2 ^ 48 - x) % 2 ^ 48 < 2 ^ 47 then .next
        else .wait { code := 0, a := BitVec.ofNat 64 x, b := 0, dst := .latchOnly, var := 1 }) ∧
    (∀ (after : State → Nat → State) (loc value : Nat → Nat), o.b ≠ .reg (.g 0) →
      let B (i : Nat) : Word := srcWord (thr s i) o.b
      AtTurns s o.gd after (fun st i => (B i).toNat % 64 = 0 ∧
        Reaches st i .global ((B i).toNat + 16) 8 .rd (loc i) (after st i) ∧ poisoned (after st i) (loc i) 8 = false ∧
        leNat (loadBytes (after st i) (loc i) 8) = value i) →
      Runs (.waitAcc o m) s o.gd after fun i =>
        let x := (A i).toNat % 2 ^ 48
        if (value i % 2 ^ 48 + 2 ^ 48 - x) % 2 ^ 48 < 2 ^ 47 then .next
        else .wait { code := 0, a := BitVec.ofNat 64 x, b := B i, dst := .latchOnly, var := 0 }))

/-- TRAP and BKPT take their trap for each thread whose guard is true, TRAP_ADDR the code and the thread to resume
after the instruction; a word of an unassigned point traps ILLEGAL_OP for the whole gathering, marked as a decode
trap. The frame holds the thread as it was, TRAP_CAUSE, TRAP_PC and TRAP_ADDR are set, the nest is empty and the PC is
at the vector; memory outside the frames stands. SUB, and TRAP_ADDR of ILLEGAL_OP, are free values (log entry 10).
Rests on 08_lane_instructions_compute.md: R201, 04_instruction_word.md: R88, R91, 10_lane_faults_translation.md: R242
to R245. -/
def Obligations.SoftwareAndOpcodeTraps : Prop :=
  (∀ (s : State) (o : Ops) (m : M3), Ready s → Readable s o [] →
    (∀ i ∈ gathering s, guardTrue (thr s i) o.gd = true → Vectored s i) →
    let traps (i : Instr) (cause : BitVec 8) : Prop :=
      Traps i s (fun j => guardTrue (thr s j) o.gd) cause none (fun _ => some (m.target.setWidth 64))
        (fun j => nextSlot (thr s j).pc) false
    traps (.trap o m) cSoftware ∧ traps (.bkpt o m) cBreakpoint) ∧
  (∀ (s : State) (w : Code), Ready s → (∀ i ∈ gathering s, Vectored s i) →
    Traps (.unassignedOpcode w) s (fun _ => true) cIllegalOp none (fun _ => none) (fun j => (thr s j).pc) true)

/-- MTS of TRIM_BASE, TLBGEN, HALT, CTXSV, CTXLD, BWSET and RCPACE, issued by threads whose context is not privileged,
take PROTECTION at the instruction and have none of their effect; threads whose guard is false go on. SUB and
TRAP_ADDR are free values (log entry 10). Rests on 04_instruction_word.md: R89, 09_lane_instructions_memory.md: R232,
R237, R239, R240, 21_links_trimming.md: R460, R461, 10_lane_faults_translation.md: R243 to R245. -/
def Obligations.PrivilegedInstructionsTrap : Prop :=
  ∀ (s : State) (o : Ops) (m : M7), Ready s →
    (∀ i ∈ gathering s, guardTrue (thr s i) o.gd = true → privOf s i = false ∧ txOf s i = none ∧ Vectored s i) →
    let traps (i : Instr) (needs : List (Src × Need)) : Prop := Readable s o needs →
      Traps i s (fun j => guardTrue (thr s j) o.gd) cProtection none (fun _ => none) (fun j => (thr s j).pc) false
    (m.low.toNat / 2 ^ 12 % 2 ^ 12 = 0x031 → traps (.mts o m) [(o.a, .word)]) ∧
    traps (.tlbgen o m) [(o.a, .word)] ∧
    traps (.halt o m) [] ∧
    traps (.ctxsv o m) [(o.a, .word), (o.b, .either)] ∧
    traps (.ctxld o m) [(o.a, .word)] ∧
    traps (.bwset o m) [(o.a, .word), (o.b, .word)] ∧
    traps (.rcpace o m) [(o.a, .word)]

/-- LD, ST, the wide ST, LDV, STV, ATOM, RED and CAS whose address is no multiple of their size trap MISALIGNED for
each thread whose guard is true, TRAP_ADDR the address, with no access made. SUB is a free value (log entry 10). Rests
on 09_lane_instructions_memory.md: R204, R205, 10_lane_faults_translation.md: R243 to R245. -/
def Obligations.MisalignedAccessesTrap : Prop :=
  ∀ (s : State) (o : Ops), Ready s →
    (∀ i ∈ gathering s, guardTrue (thr s i) o.gd = true → Vectored s i) →
    let traps (i : Instr) (needs : List (Src × Need)) (ea : Nat → Nat) (size : Nat) : Prop :=
      Readable s o needs →
      (∀ j ∈ gathering s, guardTrue (thr s j) o.gd = true → ea j % size ≠ 0) →
      Traps i s (fun j => guardTrue (thr s j) o.gd) cMisaligned none (fun j => some (BitVec.ofNat 64 (ea j)))
        (fun j => (thr s j).pc) false
    (∀ m : M4,
      let ea (i : Nat) : Nat := (srcWord (thr s i) o.a + m.off.signExtend 64).toNat
      traps (.ld o m) [(o.a, .word)] ea (fmtWidth m.ty / 8) ∧
      traps (.st o m) [(o.a, .word), (o.b, .word)] ea (fmtWidth m.ty / 8) ∧
      traps (.stWide o m) [(o.a, .word), (o.b, .word), (o.c, .word)] ea 16 ∧
      traps (.ldv o m) [(o.a, .word)] ea 32 ∧
      traps (.stv o m) [(o.a, .word), (o.b, .typed m.ty)] ea 32) ∧
    (∀ m : M5,
      let ea (i : Nat) : Nat := (srcWord (thr s i) o.a + m.off.signExtend 64).toNat
      traps (.atom o m) [(o.a, .word), (o.b, .word), (o.c, .word)] ea (fmtWidth m.ty / 8) ∧
      traps (.red o m) [(o.a, .word), (o.b, .word), (o.c, .word)] ea (fmtWidth m.ty / 8) ∧
      traps (.cas o m) [(o.a, .word), (o.b, .word), (o.c, .word)] ea (fmtWidth m.ty / 8))

/-- An aligned access inside the carrel, outside any transaction and with no matrix instruction of the thread queued that
touches memory, reaches the byte of the thread's own core; an
rcarrel access reaches the byte of the core that the address names on the thread's die, so that both names of one byte
are one location. Rests on 02_engines_together.md: R24, R25, R26, 09_lane_instructions_memory.md: R203. -/
def Obligations.CarrelAccesses : Prop :=
  ∀ (st : State) (i ea size : Nat) (acc : Acc), txOf st i = none → queuedAccess st i = false → 0 < size → ea % size = 0 →
    (ea < carrelBytes → Reaches st i .carrel ea size acc (carrelLoc (thr st i).core ea) st) ∧
    (ea < 2 ^ 26 → ea % 2 ^ 20 < carrelBytes →
      Reaches st i .rcarrel ea size acc (carrelLoc ((thr st i).core / 64 * 64 + ea / 2 ^ 20) (ea % 2 ^ 20)) st)

/-- LD and LDV that reach their cells give the bytes there, little-endian, zero-extended, or as a vector with the
type's tag (bits 255:252 zero under f6e3). What the parts of the threads do is all that changes; a thread whose guard
is false only goes on (Runs, Passed). Rests on 09_lane_instructions_memory.md: R203 to R210. -/
def Obligations.LoadResults : Prop :=
  ∀ (s : State) (o : Ops) (m : M4) (after : State → Nat → State) (loc : Nat → Nat), Ready s → Readable s o [(o.a, .word)] →
    let ea (i : Nat) : Nat := (srcWord (thr s i) o.a + m.off.signExtend 64).toNat
    let reads (size : Nat) (st : State) (i : Nat) : Prop :=
      Reaches st i m.space (ea i) size .rd (loc i) (after st i) ∧ poisoned (after st i) (loc i) size = false
    let size := fmtWidth m.ty / 8
    let ld (st : State) (i : Nat) : State := resultG (after st i) i 2 o.d (leNat (loadBytes (after st i) (loc i) size))
    let ldv (st : State) (i : Nat) : State :=
      let v := leNat (loadBytes (after st i) (loc i) 32)
      resultV (after st i) i 2 o.d (if m.ty = .f6e3 then v % 2 ^ 252 else v) (tagOf m.ty 0)
    (AtTurns s o.gd ld (reads size) → Runs (.ld o m) s o.gd ld fun _ => .next) ∧
    (AtTurns s o.gd ldv (reads 32) → Runs (.ldv o m) s o.gd ldv fun _ => .next)

/-- ST, the wide ST and STV that reach their cells store the low bytes of their data at the computed place; every
location outside the stored bytes of the gathering reads as before. What the parts of the threads do is all that
changes; a thread whose guard is false only goes on (Runs, Passed). Rests on 09_lane_instructions_memory.md: R203 to
R210. -/
def Obligations.StoreResults : Prop :=
  ∀ (s : State) (o : Ops) (m : M4) (after : State → Nat → State) (loc : Nat → Nat), Ready s →
    (releases m.ord = true → ∀ i ∈ gathering s, Quiet s i) →
    let ea (i : Nat) : Nat := (srcWord (thr s i) o.a + m.off.signExtend 64).toNat
    let stores (i : Instr) (needs : List (Src × Need)) (size : Nat) (data : Thread → List Byte) : Prop :=
      let part (st : State) (j : Nat) : State := storeBytes (after st j) (loc j) (data (thr s j))
      Readable s o needs →
      AtTurns s o.gd part (fun st j => Reaches st j m.space (ea j) size .wr (loc j) (after st j) ∧
        logsMet (after st j) (loc j) size = []) →
      (Runs i s o.gd part fun _ => .next) ∧
      (AtTurns s o.gd part (fun st j => (after st j).mem = st.mem) →
        ∀ l, (∀ j ∈ gathering s, guardTrue (thr s j) o.gd = true → l < loc j ∨ loc j + size ≤ l) →
          Memory.get (turns s o.gd part (gathering s)).mem l = Memory.get s.mem l)
    stores (.st o m) [(o.a, .word), (o.b, .word)] (fmtWidth m.ty / 8) (fun t => leBytes (fmtWidth m.ty / 8) (srcN t o.b)) ∧
    stores (.stWide o m) [(o.a, .word), (o.b, .word), (o.c, .word)] 16 (fun t => leBytes 8 (srcN t o.b) ++ leBytes 8 (srcN t o.c)) ∧
    stores (.stv o m) [(o.a, .word), (o.b, .typed m.ty)] 32 (fun t => leBytes 32 (srcW t o.b))

/-- LDX loads and STX stores one element for each index, in ascending order, at A plus offset plus the index times the
size; LDK of a region whose query event and image let the query through asks the sketch state at its scope for the key, writes the
answer and the saturation flag into a bit of gC, and raises the query event. What the parts of the threads do is all that changes; a thread whose guard is false only
goes on (Runs, Passed). Rests on 09_lane_instructions_memory.md: R212, R213, R214, 17_stacks_sketches.md: R375 to
R383, 18_stacks_instructions.md: R402. -/
def Obligations.GathersScattersKeyedLoads : Prop :=
  (∀ (s : State) (o : Ops) (m : M4) (loc : Nat → Nat → Nat), Ready s →
    let size := fmtWidth m.ty / 8
    let n := elemCount m.ty
    let ea (i e : Nat) : Nat :=
      ((((srcWord (thr s i) o.a + m.off.signExtend 64).toNat : Int) +
        toSigned (fmtWidth m.ty) (elemAt m.ty (srcW (thr s i) o.b) e) * size) % 2 ^ 64).toNat
    (∀ (at_ : State → Nat → Nat → State), Readable s o [(o.a, .word), (o.b, .raw)] →
      let part (st : State) (i : Nat) : State :=
        resultV (at_ st i n) i 2 o.d (packElems m.ty ((List.range n).map fun e =>
          leNat (loadBytes (at_ st i (e + 1)) (loc i e) size))) (tagOf m.ty 0)
      AtTurns s o.gd part (fun st i => at_ st i 0 = st ∧ ∀ e < n,
        Reaches (at_ st i e) i m.space (ea i e) size .rd (loc i e) (at_ st i (e + 1)) ∧
          poisoned (at_ st i (e + 1)) (loc i e) size = false) →
      Runs (.ldx o m) s o.gd part fun _ => .next) ∧
    (∀ (checked at_ : State → Nat → Nat → State) (into : State → Nat → Nat → State),
      Readable s o [(o.a, .word), (o.b, .raw), (o.c, .typed m.ty)] →
      (releases m.ord = true → ∀ i ∈ gathering s, Quiet s i) →
      let part (st : State) (i : Nat) : State := at_ st i n
      AtTurns s o.gd part (fun st i => checked st i 0 = st ∧ at_ st i 0 = checked st i n ∧ ∀ e < n,
        (∃ l u, Reaches (checked st i e) i m.space (ea i e) size .wr l u ∧
          ∃ p, placeOf (checked st i e) (partyOf (checked st i e) i) m.space (ea i e) size .wr = .ok (checked st i (e + 1), p)) ∧
        Reaches (at_ st i e) i m.space (ea i e) size .wr (loc i e) (into st i e) ∧
        logsMet (into st i e) (loc i e) size = [] ∧
        at_ st i (e + 1) = storeBytes (into st i e) (loc i e) (leBytes size (elemAt m.ty (srcW (thr s i) o.c) e))) →
      Runs (.stx o m) s o.gd part fun _ => .next)) ∧
  (∀ (s : State) (o : Ops) (m : M4) (at_ : State → Nat → State) (place : Nat → Place) (slot : Nat → Nat)
    (region : State → Nat → Region), Ready s → Readable s o [(o.a, .word), (o.b, .word)] →
    let ea (i : Nat) : Nat := (srcWord (thr s i) o.a + (m.off.extractLsb' 0 16).signExtend 64).toNat
    let d (i : Nat) : Nat := (thr s i).core / 64
    let part (st : State) (i : Nat) : State :=
      let r := region st i
      let seen := seenState r (d i) (m.scope == .die)
      let queried := regionEvent (setRegion (at_ st i) (slot i) seen.2) r (d i) (place i).range 9
      setFlagBit (resultG queried i 2 o.d (skQuery r seen.1 (srcN (thr s i) o.b))) i o.c (m.off.toNat / 2 ^ 16) seen.1.sat
    AtTurns s o.gd part (fun st i => ea i % 8 = 0 ∧ txOf st i = none ∧
      placeOf st (partyOf st i) .global (ea i) 8 .rd = .ok (at_ st i, place i) ∧ (place i).sketch ≠ 0 ∧
      (place i).remote = false ∧ regionAt (at_ st i) (place i).pa = some (slot i, region st i) ∧
      queryTrap (at_ st i) (region st i) (d i) (place i).range (srcN (thr s i) o.b) = none) →
    Runs (.ldk o m) s o.gd part fun _ => .next)

/-- PFETCH and FENCE complete without effect on memory or registers (FENCE.rel once no posted write is in flight and no access of
a matrix instruction is queued);
PROMO flushes the lines of the named core and suspends until done; CFLUSH flushes the line at its scope. In a machine
whose accesses take effect at once a fence only goes on (log entry 1). What the parts of the threads do is all that
changes; a thread whose guard is false only goes on (Runs, Passed). Rests on 09_lane_instructions_memory.md: R215 to
R218, 20_concordance_tables.md: R434. -/
def Obligations.HintsFencesFlushes : Prop :=
  ∀ (s : State) (o : Ops) (m : M4), Ready s →
    (Readable s o [(o.a, .word)] → Completes (.pfetch o m) s o.gd fun _ t => t) ∧
    (Readable s o [] → (∀ i ∈ gathering s, guardTrue (thr s i) o.gd = true → txOf s i = none ∧
        (m.ord = .rel ∨ m.ord = .ar → Quiet s i)) →
      Completes (.fence o m) s o.gd fun _ t => t) ∧
    (Readable s o [(o.a, .word)] →
      let v (i : Nat) : Nat := srcN (thr s i) o.a
      (∀ i ∈ gathering s, guardTrue (thr s i) o.gd = true → v i < 256 ∧ match m.scope with
        | .core => (thr s i).core = v i
        | .quad => (thr s i).core / 4 = v i / 4
        | .die => (thr s i).core / 64 = v i / 64
        | _ => True) →
      Runs (.promo o m) s o.gd (fun st i => flushHolder st (v i)) fun _ => .wait (finishedWait 10)) ∧
    (∀ (at_ : State → Nat → State) (place : Nat → Place), Readable s o [(o.a, .word)] →
      let ea (i : Nat) : Nat := (srcWord (thr s i) o.a + m.off.signExtend 64).toNat
      let part (st : State) (i : Nat) : State :=
        if (place i).global then flushLine (at_ st i) ((place i).pa / 64) (holderIn m.scope (thr s i).core) else at_ st i
      AtTurns s o.gd part (fun st i => placeOf st (partyOf st i) m.space (ea i) 1 .flush = .ok (at_ st i, place i)) →
      Runs (.cflush o m) s o.gd part fun _ => .next)

/-- ATOM and CAS return the old value and store the new one, RED stores only. The threads that name one address make one access:
their operations act on the value in ascending order, each thread gets what its own step returns, and the last value is stored.
The operations add, minimum, maximum,
and, or, exclusive-or, exchange, wrapping increment and decrement give the values of the table. What the parts of the
threads do is all that changes; a thread whose guard is false only goes on (Runs, Passed). Rests on
09_lane_instructions_memory.md: R219, R220, R221. -/
def Obligations.AtomicResults : Prop :=
  (∀ (s : State) (o : Ops) (m : M5) (after : State → Nat → State) (loc old : Nat → Nat), Ready s →
    Readable s o [(o.a, .word), (o.b, .word), (o.c, .word)] →
    let size := fmtWidth m.ty / 8
    let ea (i : Nat) : Nat := (srcWord (thr s i) o.a + m.off.signExtend 64).toNat
    let arg (x : Src) (i : Nat) : Nat := srcN (thr s i) x % 2 ^ fmtWidth m.ty
    (∀ i ∈ gathering s, guardTrue (thr s i) o.gd = true → txOf s i = none ∧ ea i % size = 0 ∧
      (releases m.ord = true → Quiet s i)) →
    let mates (i : Nat) : List Nat := (gathering s).filter fun j => guardTrue (thr s j) o.gd && ea j == ea i
    let first (i : Nat) : Prop := (mates i).head? = some i
    let seen (new : Nat → Nat → Nat) (i : Nat) : Nat :=
      ((mates i).takeWhile (· != i)).foldl (fun v j => new j v) (old (ea i))
    let stored (new : Nat → Nat → Nat) (st : State) (i : Nat) : State :=
      if first i then storeBytes (after st i) (loc i) (leBytes size ((mates i).foldl (fun v j => new j v) (old (ea i))))
      else after st i
    let reaches (st : State) (i : Nat) : Prop :=
      if first i then
        Reaches st i m.space (ea i) size .wr (loc i) (after st i) ∧ poisoned (after st i) (loc i) size = false ∧
          logsMet (after st i) (loc i) size = [] ∧ leNat (loadBytes (after st i) (loc i) size) = old (ea i)
      else ∃ p, placeOf st (partyOf st i) m.space (ea i) size .wr = .ok (after st i, p) ∧ p.window = false ∧ p.sketch = 0 ∧
        p.remote = false ∧ lineBusy st i p = false
    let result (i : Instr) (new : Nat → Nat → Nat) : Prop :=
      let part (st : State) (j : Nat) : State := resultG (stored new st j) j 2 o.d (seen new j)
      AtTurns s o.gd part reaches → Runs i s o.gd part fun _ => .next
    result (.atom o m) (fun i x => atomNew m.ty m.op x (arg o.b i)) ∧
    result (.cas o m) (fun i x => if x = arg o.b i then arg o.c i else x) ∧
    (let part := stored fun i x => atomNew m.ty m.op x (arg o.b i)
     AtTurns s o.gd part reaches → Runs (.red o m) s o.gd part fun _ => .next)) ∧
  (∀ (ty : Fmt) (x y : Nat), let w := fmtWidth ty
    (isIN ty = true → atomNew ty 0 x y = (x + y) % 2 ^ w ∧
      atomNew ty 1 x y = (if intOf ty x < intOf ty y then x else y) ∧
      atomNew ty 2 x y = (if intOf ty x < intOf ty y then y else x)) ∧
    atomNew ty 3 x y = x &&& y ∧ atomNew ty 4 x y = x ||| y ∧ atomNew ty 5 x y = x ^^^ y ∧ atomNew ty 6 x y = y ∧
    atomNew ty 7 x y = (if x < y then x + 1 else 0) ∧
    atomNew ty 8 x y = (if x = 0 ∨ y < x then y else x - 1))

/-- BARI writes a barrier object; BARA counts an arrival, completes the phase at the expected count, and returns the
phase it arrived in, the threads that name one object arriving in ascending order in one access; BARW goes on when the phase has passed and otherwise suspends; NBAR counts an arrival at a named
barrier of the workgroup in the same way. What the parts of the threads do is all that changes; a thread whose guard
is false only goes on (Runs, Passed). Rests on 07_lane_engine.md: R158, R159, R160, 09_lane_instructions_memory.md:
R222 to R226. -/
def Obligations.Barriers : Prop :=
  (∀ (s : State) (o : Ops) (m : M5) (after : State → Nat → State) (loc : Nat → Nat), Ready s →
    let ea (i : Nat) : Nat := (srcWord (thr s i) o.a + m.off.signExtend 64).toNat
    let object (phase expected arrived : Nat) : Nat := phase + 2 ^ 16 * expected + 2 ^ 32 * arrived
    (Readable s o [(o.a, .word), (o.b, .word), (o.c, .word)] →
      (releases m.ord = true → ∀ i ∈ gathering s, Quiet s i) →
      let part (st : State) (i : Nat) : State :=
        storeBytes (after st i) (loc i) (leBytes 8 (object (srcN (thr s i) o.b % 2 ^ 16) (srcN (thr s i) o.c % 2 ^ 16) 0))
      AtTurns s o.gd part (fun st i => srcN (thr s i) o.c % 2 ^ 16 ≠ 0 ∧
        Reaches st i m.space (ea i) 8 .wr (loc i) (after st i) ∧ logsMet (after st i) (loc i) 8 = []) →
      Runs (.bari o m) s o.gd part fun _ => .next) ∧
    (∀ (old : Nat → Nat), Readable s o [(o.a, .word)] →
      (∀ i ∈ gathering s, guardTrue (thr s i) o.gd = true → Quiet s i ∧ txOf s i = none ∧ ea i % 8 = 0 ∧
        ∀ v p, placeOf s (partyOf s i) m.space (ea i) 8 .wr = .ok (v, p) →
          p.remote = false ∧ barBad (leNat (loadBytes v p.loc 8)) = false) →
      let arrive (v : Nat) : Nat :=
        let phase := v % 2 ^ 16
        let expected := v / 2 ^ 16 % 2 ^ 16
        let arrived := (v / 2 ^ 32 + 1) % 2 ^ 16
        if arrived = expected then object ((phase + 1) % 2 ^ 16) expected 0 else object phase expected arrived
      let mates (i : Nat) : List Nat := (gathering s).filter fun j => guardTrue (thr s j) o.gd && ea j == ea i
      let first (i : Nat) : Prop := (mates i).head? = some i
      let part (st : State) (i : Nat) : State :=
        let stored := if first i then
            storeBytes (after st i) (loc i) (leBytes 8 ((mates i).foldl (fun v _ => arrive v) (old (ea i))))
          else after st i
        let seen := ((mates i).takeWhile (· != i)).foldl (fun v _ => arrive v) (old (ea i))
        progress (writeDst stored i o.d (seen % 2 ^ 16)) (thr s i).wg
      AtTurns s o.gd part (fun st i =>
        if first i then
          Reaches st i m.space (ea i) 8 .wr (loc i) (after st i) ∧ poisoned (after st i) (loc i) 8 = false ∧
            logsMet (after st i) (loc i) 8 = [] ∧ leNat (loadBytes (after st i) (loc i) 8) = old (ea i)
        else ∃ p, placeOf st (partyOf st i) m.space (ea i) 8 .wr = .ok (after st i, p) ∧ p.window = false ∧ p.sketch = 0 ∧
          p.remote = false ∧ poisoned (after st i) p.loc 8 = false ∧ lineBusy st i p = false) →
      Runs (.bara o m) s o.gd part fun _ => .next) ∧
    (∀ (value : Nat → Nat), Readable s o [(o.a, .word), (o.b, .word)] → (m.space = .carrel ∨ m.space = .global) →
      AtTurns s o.gd after (fun st i => Reaches st i m.space (ea i) 8 .rd (loc i) (after st i) ∧
        poisoned (after st i) (loc i) 8 = false ∧ leNat (loadBytes (after st i) (loc i) 8) = value i ∧ value i < 2 ^ 48) →
      Runs (.barw o m) s o.gd after fun i =>
        let p := srcN (thr s i) o.b % 2 ^ 16
        if (value i % 2 ^ 16 + 2 ^ 16 - p) % 2 ^ 16 < 2 ^ 15 then .next
        else .wait { code := 3, a := BitVec.ofNat 64 (ea i), b := BitVec.ofNat 64 p, dst := .latchOnly,
                     var := if m.space = .carrel then 1 else 0 })) ∧
  (∀ (s : State) (o : Ops) (m : M5), Ready s → Readable s o [(o.a, .word), (o.b, .word)] →
    let n (i : Nat) : Nat := srcN (thr s i) o.a
    let count (i : Nat) : Nat := srcN (thr s i) o.b
    let bar (st : State) (i : Nat) : NBar := tgetD (wgOf st (thr s i).wg).nbars (n i) ⟨0, 0, 0⟩
    let part (st : State) (i : Nat) : State :=
      let b := bar st i
      let new : NBar := if b.arrived + 1 = count i then ⟨b.phase + 1, 0, 0⟩ else ⟨b.phase, b.arrived + 1, count i⟩
      progress (writeDst (modWg st (thr s i).wg fun w => { w with nbars := tset w.nbars (n i) new }) i o.d b.phase.toNat)
        (thr s i).wg
    AtTurns s o.gd part (fun st i => txOf st i = none ∧ Quiet s i ∧ n i < 16 ∧ 1 ≤ count i ∧ count i ≤ 256 ∧
      ((bar st i).expected = 0 ∨ (bar st i).expected = count i)) →
    Runs (.nbar o m) s o.gd part fun _ => .next)

/-- VOTE gives the lanes whose bit is set, whether any or all have it set, or whether all values are equal, over the
threads of the quire whose guard is true; ELECT gives 1 to the first of them and 0 to the others. Nothing else
changes: memory, the other threads, every other register and every other unit stand as before (Completes, Elsewhere).
Rests on 09_lane_instructions_memory.md: R227, 07_lane_engine.md: R144. -/
def Obligations.Votes : Prop :=
  ∀ (s : State) (o : Ops) (m : M5), Ready s →
    let set (i : Nat) : List Nat := (gathering s).filter fun j => tidQuire j == tidQuire i && guardTrue (thr s j) o.gd
    let b (j : Nat) : Bool := (srcN (thr s j) o.a).testBit (m.off.toNat % 64)
    (Readable s o [(o.a, .word)] →
      (m.op = 0 → (∀ j ∈ gathering s, ∀ k ∈ gathering s, tidWg j = tidWg k) → ∃ v : Nat → Nat,
        (Completes (.vote o m) s o.gd fun i t => putG t o.d (v i)) ∧
        ∀ i k, (v i).testBit k = decide (∃ j ∈ set i, b j = true ∧ tidLane j = k)) ∧
      (m.op = 1 → Completes (.vote o m) s o.gd fun i t => putG t o.d (if ∃ j ∈ set i, b j = true then 1 else 0)) ∧
      (m.op = 2 → Completes (.vote o m) s o.gd fun i t => putG t o.d (if ∀ j ∈ set i, b j = true then 1 else 0)) ∧
      (m.op = 3 → Completes (.vote o m) s o.gd fun i t => putG t o.d
        (if ∀ j ∈ set i, ∀ k ∈ set i, srcN (thr s j) o.a = srcN (thr s k) o.a then 1 else 0))) ∧
    (Readable s o [] → Completes (.elect o m) s o.gd fun i t => putG t o.d (if (set i).head? = some i then 1 else 0))

/-- TXBEG opens or deepens a transaction, TXEND waits for the commit or lowers the depth, TXABT aborts with its code
and restores the nest, TXST gives depth and counts; a commit with unchanged reads, whose written lines their tables admit, writes every logged byte and no other. How a transaction is keyed and which threads join one is the model's choice (log entry 37). What the parts of
the threads do is all that changes; a thread whose guard is false only goes on (Runs, Passed). Rests on
07_lane_engine.md: R161 to R166, 09_lane_instructions_memory.md: R228 to R230. -/
def Obligations.Transactions : Prop :=
  (∀ (s : State) (o : Ops) (m : M5), Ready s →
    let a (i : Nat) : Nat := srcN (thr s i) o.a
    let depth (d : Nat → Nat) : Prop := ∀ i ∈ gathering s, guardTrue (thr s i) o.gd = true → txDepth s i = d i
    let entry (i : Nat) (x : Option Tx) : Prop := txOf s i = x
    (Readable s o [(o.a, .word)] →
      (let part (st : State) (i : Nat) : State := writeDst (joinTx s st i o.d (a i)) i o.d 0
       AtTurns s o.gd part (fun st i => txOf st i = none ∧ a i % 1024 = 0 ∧ a i + 16384 ≤ carrelBytes ∧
         (wgOf st (tidWg i)).base * 4096 ≤ a i ∧
         a i + 16384 ≤ ((wgOf st (tidWg i)).base + (wgOf st (tidWg i)).units) * 4096) →
       Runs (.txbeg o m) s o.gd part fun _ => .next) ∧
      (∀ d : Nat → Nat,
        let part (st : State) (i : Nat) : State := modPart st i fun p => { p with depth := d i + 1 }
        AtTurns s o.gd part (fun st i => txDepth st i = d i ∧ 1 ≤ d i ∧ d i < 15) → Runs (.txbeg o m) s o.gd part fun _ => .next)) ∧
    (Readable s o [] →
      (depth (fun _ => 0) → Completes (.txend o m) s o.gd fun _ t => putG t o.d 0) ∧
      (let part (st : State) (i : Nat) : State := modPart st i fun p => { p with atEnd := true, endDst := o.d }
       AtTurns s o.gd part (fun st i => txDepth st i = 1) → Runs (.txend o m) s o.gd part
         fun _ => .wait { code := 9, a := 0, b := 0, dst := .latchOnly, var := 0 }) ∧
      (∀ d : Nat → Nat,
        let part (st : State) (i : Nat) : State := modPart st i fun p => { p with depth := d i - 1 }
        AtTurns s o.gd part (fun st i => txDepth st i = d i ∧ 2 ≤ d i) → Runs (.txend o m) s o.gd part fun _ => .next) ∧
      ((∀ i ∈ gathering s, guardTrue (thr s i) o.gd = true → entry i none) → Completes (.txabt o m) s o.gd fun _ t => t) ∧
      (∀ i k x p, gathering s = [i] → guardTrue (thr s i) o.gd = true → txEntry s i = some (k, x) → x.parts = [p] →
        targetClear (txAbort s (tidWg i) k 4 (m.off.toNat % 256) [i]) i (nextSlot x.beg) = false →
        ∃ u, exec (.txabt o m) s = .next u ∧ u.mem = s.mem ∧
          (wgOf u (tidWg i)).txs = tdel (wgOf s (tidWg i)).txs k ∧
          clearLatches (thr u i) = clearLatches
            (putG { thr s i with nest := p.nest, pc := nextSlot x.beg } x.dst (4 + m.off.toNat % 256 * 256))) ∧
      (∀ x : Nat → Option Tx, (∀ i ∈ gathering s, guardTrue (thr s i) o.gd = true → entry i (x i)) →
        Completes (.txst o m) s o.gd fun i t => putG t o.d (match x i with
          | none => 0
          | some y => txDepth s i % 16 + y.lines.length % 128 * 2 ^ 4 + y.reads.length % 256 * 2 ^ 11))) ∧
    (∀ (st : State) (i : Nat) (d : Dst) (l : Nat), begunNow s st i = none →
      let new : Tx := ⟨l, (thr s i).pc, d, [⟨tidLane i, 1, (thr s i).nest, false, .latchOnly⟩], [], [], []⟩
      joinTx s st i d l = modWg st (tidWg i) fun w => { w with txs := tset w.txs (tidQuire i * 32 + tidLane i) new }) ∧
    (∀ (st : State) (i : Nat) (d : Dst) (l k : Nat) (x : Tx), begunNow s st i = some (k, x) →
      let more : Tx := { x with parts := x.parts ++ [⟨tidLane i, 1, (thr s i).nest, false, .latchOnly⟩] }
      joinTx s st i d l = modWg st (tidWg i) fun w => { w with txs := tset w.txs k more })) ∧
  (∀ (s : State) (wg quire k : Nat) (x : Tx), Memory.wf s.mem = true →
    (wgOf s wg).txs.find? (fun e => e.1 / 32 == quire && commitDue s wg e.1 e.2) = some (k, x) →
    (∀ e ∈ x.reads, readBytes s (paLoc s (e.1 * 64)) 64 = e.2) →
    (∀ e ∈ x.lines, lineTakes s ((txTids wg k x).head?.map fun i => (thr s i).core) e.1 e.2 = true) →
    (x.log.map Prod.fst).Nodup → (∀ p ∈ x.parts, (thr s (tidOf wg (k / 32) p.lane)).nest = []) →
    ∃ t, exec (.txCommit wg quire) s = .next t ∧ (wgOf t wg).txs = tdel (wgOf s wg).txs k ∧
      Memory.wf t.mem = true ∧
      (∀ l b, tget x.log l = some b → Memory.get t.mem l = b) ∧
      ∀ l, tget x.log l = none → Memory.get t.mem l = Memory.get s.mem l)

/-- MFS reads each of the system registers of the table in its layout, RDCNT CYCLES, RETIRED or the watchdog count,
DETM the deterministic-mode counts; MTS writes the writable fields of each register, clears FSTAT bits by writing
ones, ignores read-only registers, and writes TRIM_BASE for a privileged thread. The cycle count is the model's clock
(log entry 6). Nothing else changes: memory, the other threads, every other register and every other unit stand as
before (Completes, Elsewhere). Rests on 09_lane_instructions_memory.md: R231 to R236, 10_lane_faults_translation.md:
R243, 07_lane_engine.md: R150, R155, 06_dispatch_engine.md: R133. -/
def Obligations.SystemRegisters : Prop :=
  (∀ (s : State) (o : Ops) (m : M7), Ready s → Readable s o [] →
    let w (t : Thread) : Workgroup := wgOf s t.wg
    let retired (t : Thread) : Word := if (w t).det then (w t).retired else (coreOf s t.core).retired
    let cycles (t : Thread) : Nat := if (w t).det then (retired t).toNat else s.clock % 2 ^ 64
    let detCtl (t : Thread) : Nat := (w t).turn % 8 * 2 + if (w t).det then 1 else 0
    (Completes (.mfs o m) s o.gd fun _ t => putG t o.d (match m.low.toNat / 2 ^ 12 % 2 ^ 12 with
      | 0x001 => t.trapCause.toNat
      | 0x002 => t.trapPc.toNat
      | 0x003 => t.trapAddr.toNat
      | 0x010 => (coreOf s t.core).wakeWhy.toNat
      | 0x011 => detCtl t
      | 0x012 => (retired t).toNat
      | 0x013 => cycles t
      | 0x014 => (w t).context % 4096 * 2 ^ 16 + t.quire % 8 * 2 ^ 13 + t.lane % 32 * 2 ^ 8 + t.core % 256
      | 0x020 => t.srSeed.toNat
      | 0x021 => t.fstat.toNat
      | 0x022 => t.cfp.toNat * 2 ^ 7
      | 0x030 => t.xv.toNat
      | 0x031 => (dieOf s (t.core / 64)).trimBase.toNat
      | 0x040 => t.trapVecPc.toNat + if t.trapVecEn then 1 else 0
      | 0x041 => t.trapFrame.toNat * 2 ^ 8 + if t.hmode then 1 else 0
      | 0x042 => t.cqhdr.toNat * 2 ^ 6
      | _ => 0)) ∧
    ((∀ i ∈ gathering s, guardTrue (thr s i) o.gd = true → txOf s i = none) →
      (Completes (.rdcnt o m) s o.gd fun _ t => putG t o.d (match m.var.toNat with
        | 0 => cycles t
        | 1 => (retired t).toNat
        | _ => if (w t).det then 0 else (w t).wdog % 2 ^ 64)) ∧
      (Completes (.detm o m) s o.gd fun _ t => putG t o.d
        (if (w t).det then (retired t).toNat % 2 ^ 56 * 2 ^ 8 + detCtl t else 0)))) ∧
  (∀ (s : State) (o : Ops) (m : M7), Ready s → Readable s o [(o.a, .word)] →
    (∀ i ∈ gathering s, guardTrue (thr s i) o.gd = true → txOf s i = none) →
    let sel := m.low.toNat / 2 ^ 12 % 2 ^ 12
    let v (t : Thread) : Word := srcWord t o.a
    (sel ≠ 0x031 → Completes (.mts o m) s o.gd fun _ t => match sel with
      | 0x001 => { t with trapCause := (v t).setWidth 18 }
      | 0x002 => { t with trapPc := (v t).extractLsb' 6 50 ++ 0#3 ++ (v t).extractLsb' 0 3 }
      | 0x003 => { t with trapAddr := v t }
      | 0x020 => { t with srSeed := if (v t).setWidth 32 = 0#32 then 1 else (v t).setWidth 32 }
      | 0x021 => { t with fstat := t.fstat &&& ~~~((v t).setWidth 3) }
      | 0x022 => { t with cfp := (v t).extractLsb' 7 13 }
      | 0x030 => { t with xv := v t }
      | 0x040 => { t with trapVecPc := (v t).extractLsb' 3 53 ++ 0#3, trapVecEn := (v t).getLsbD 0 }
      | 0x041 => { t with trapFrame := (v t).extractLsb' 8 12 }
      | 0x042 => { t with cqhdr := (v t).extractLsb' 6 14 }
      | _ => t) ∧
    (sel = 0x031 → (∀ i ∈ gathering s, guardTrue (thr s i) o.gd = true → privOf s i = true) →
      Runs (.mts o m) s o.gd (fun st i => modDie st ((thr s i).core / 64) fun d => { d with trimBase := v (thr s i) })
        fun _ => .next))

/-- TRET in the handler reads the frame of its thread, restores PC, loop nest and latches, and leaves the handler
mode; the frame written for a thread is 256 bytes and reads back to the PC and the nest, PC bits [5:3] zero, and the latches it
was written from. Nothing else changes: memory, the other threads, every other register and every other unit stand as before
(Completes, Elsewhere). Rests on 10_lane_faults_translation.md: R245, R246, 09_lane_instructions_memory.md: R238,
04_instruction_word.md: R75. -/
def Obligations.TrapReturn : Prop :=
  (∀ (s : State) (o : Ops) (m : M7) (pc : Nat → Pc) (nest : Nat → List LoopLevel) (ls : Nat → List Latch), Ready s →
    Readable s o [] →
    let frame (i : Nat) : Nat := frameLoc (thr s i)
    (∀ i ∈ gathering s, guardTrue (thr s i) o.gd = true → txOf s i = none ∧ (thr s i).hmode = true ∧
      (thr s i).trapFrame.toNat * 256 + 256 ≤ carrelBytes ∧ poisoned s (frame i) 256 = false ∧
      frameState (loadBytes s (frame i) 256) = some (pc i, nest i, ls i)) →
    ∃ u, exec (.tret o m) s = .next u ∧ Elsewhere s u ∧
      ∀ j ∈ gathering s,
        (guardTrue (thr s j) o.gd = true →
          clearLatches (thr u j) = clearLatches { thr s j with hmode := false, pc := pc j, nest := nest j, latchKeep := true } ∧
          [(thr u j).l0, (thr u j).l1, (thr u j).l2, (thr u j).l3] = (List.range 4).map fun k => (ls j).getD k Latch.reset) ∧
        (guardTrue (thr s j) o.gd = false → clearLatches (thr u j) = landed (thr s j))) ∧
  (∀ (t : Thread) (pc : Pc) (paired : Bool), t.nest.length ≤ 4 →
    let kept (l : Latch) : Latch :=
      if l.st = .valid then ⟨.valid, l.wide, if l.wide then l.val else (l.val.setWidth 64).setWidth 256, l.tag⟩ else Latch.reset
    (frameBytes t pc paired).length = 256 ∧
      frameState (frameBytes t pc paired) = some (slotPc pc.toNat,
      t.nest.map fun l => { l with start := slotPc l.start.toNat, stop := slotPc l.stop.toNat }, [kept t.l0, kept t.l1, kept t.l2, kept t.l3]))

/-- TLBGEN raises the generation of the named address space, so that no older translation is hit, and waits for the
guest; HALT stops the workgroup with HALTED; CTXSV stores a register with its kind and tag in a 64-byte slot and CTXLD
loads one. That CTXLD takes any tag for g and xv is a reading (log entry 53). What the parts of the threads do is all
that changes; a thread whose guard is false only goes on (Runs, Passed). Rests on 09_lane_instructions_memory.md:
R237, R239, R240, 10_lane_faults_translation.md: R253, R256. -/
def Obligations.PrivilegedSystemInstructions : Prop :=
  (∀ (s : State) (o : Ops) (m : M7), Ready s →
    (∀ i ∈ gathering s, guardTrue (thr s i) o.gd = true → privOf s i = true ∧ txOf s i = none) →
    (∀ (gen : Nat → BitVec 16), Readable s o [(o.a, .word)] →
      let a (i : Nat) : Nat := srcN (thr s i) o.a
      let raised (st : State) (i : Nat) : State := invalGuest (raiseGen st (a i)) (a i)
      let part (st : State) (i : Nat) : State := writeDst (raised st i) i o.d (gen i).toNat
      AtTurns s o.gd part (fun st i => a i < 2 ^ 16 ∧ Quiet s i ∧ gen i = (spaceEntry st (a i)).gen + 1) →
      Runs (.tlbgen o m) s o.gd part fun i =>
        .wait { code := 13, a := BitVec.ofNat 64 (a i), b := (gen i).setWidth 64, dst := .latchOnly, var := 0 }) ∧
    (Readable s o [] → Runs (.halt o m) s o.gd (fun st i => haltWg st i) fun _ => .next) ∧
    (∀ st i, (wgOf st (tidWg i)).st = .running → (wgOf st (tidWg i)).preempt = false →
      (wgOf (haltWg st i) (tidWg i)).st = .stopped ∧ (wgOf (haltWg st i) (tidWg i)).cause = cHalted) ∧
    (∀ st a, (spaceEntry (raiseGen st a) a).gen = (spaceEntry st a).gen + 1 ∧
      (∀ b, b ≠ a → spaceEntry (raiseGen st a) b = spaceEntry st b) ∧
      ∀ va, tlbHit (raiseGen st a) a va = none ∨
        ∃ e ∈ st.tlb, e.asid.toNat = a ∧ e.gen = (spaceEntry st a).gen + 1 ∧ (spaceEntry st a).gen ≠ 0xFFFF)) ∧
  (∀ (s : State) (o : Ops) (m : M7) (r : Reg) (after : State → Nat → State) (loc : Nat → Nat), Ready s →
    (∀ i ∈ gathering s, guardTrue (thr s i) o.gd = true → privOf s i = true) →
    let ea (i : Nat) : Nat := srcN (thr s i) o.a
    let kind : Nat := match r with
      | .g _ => 0
      | .v _ => 1
      | _ => 2
    let held : Prop := match r with
      | .g _ | .v _ | .xv _ => True
      | _ => False
    let slot (value tag : Nat) : List Byte := leBytes 32 value ++ leBytes 8 (kind * 2 ^ 16 + tag) ++ List.replicate 24 0
    (o.b = .reg r → held → Readable s o [(o.a, .word), (o.b, .either)] →
      let tag (i : Nat) : Nat := match r with
        | .v n => (readV (thr s i) n.toNat).tag.toNat
        | _ => 0
      let part (st : State) (i : Nat) : State := storeBytes (after st i) (loc i) (slot (srcW (thr s i) o.b) (tag i))
      AtTurns s o.gd part (fun st i => Reaches st i .global (ea i) 64 .wr (loc i) (after st i) ∧
        logsMet (after st i) (loc i) 64 = []) →
      Runs (.ctxsv o m) s o.gd part fun _ => .next) ∧
    (∀ (value : Nat → Nat) (tag : Nat → Nat), o.d = .reg r → held → Readable s o [(o.a, .word)] →
      let part (st : State) (i : Nat) : State :=
        writeReg (after st i) i r (BitVec.ofNat 256 (value i)) (BitVec.ofNat 9 (tag i))
      let width : Nat := match r with
        | .g _ => 64
        | .v _ => 256
        | _ => 8
      AtTurns s o.gd part (fun st i => Reaches st i .global (ea i) 64 .rd (loc i) (after st i) ∧
        poisoned (after st i) (loc i) 64 = false ∧ value i < 2 ^ width ∧ tag i < 2 ^ 9 ∧
        loadBytes (after st i) (loc i) 64 = slot (value i) (tag i)) →
      Runs (.ctxld o m) s o.gd part fun _ => .next))

/-- A class 0x6 tile instruction that can be accepted joins the end of its engine's queue once for the gathering, with
its operands, pages and words, once no sector that it computes on has still to be asked of another module; while it cannot be
accepted it waits for acceptance. CATQ reads a catalog entry, CATW goes on when the
state asked for holds, CATSET defines or publishes an entry. What the parts of the threads do is all that changes; a
thread whose guard is false only goes on (Runs, Passed). Rests on 13_matrix_instructions.md: R292 to R295, R304, R307,
R311 to R313, 12_matrix_engine.md: R266 to R269, R277 to R280. -/
def Obligations.MatrixAndCatalogInstructions : Prop :=
  (∀ (s : State) (o : Ops) (m : M6) (u : State) (xs : List (MRuns × List Span)), Ready s → Readable s o (matrixNeeds o) →
    (∀ j ∈ gathering s, guardTrue (thr s j) o.gd = true → txOf s j = none) →
    let tids := (gathering s).filter fun j => guardTrue (thr s j) o.gd
    let lead := tids.headD 0
    let t := thr s lead
    let A : Word := srcWord t o.a
    let B : Word := srcWord t o.b
    let C : Word := srcWord t o.c
    let admitted (i : Instr) : Prop := canAccept s t.core i A.toNat B.toNat = true ∧
      checkPlan s lead i (planOf s t.core (wgOf s (tidWg lead)).context i A.toNat B.toNat C.toNat) = .ok (u, xs) ∧
      ∀ q ∈ xs, q.1.sour = true → ∀ x ∈ q.2, x.place.remote = false
    let accepts (i : Instr) (v : State) (words : List Word) : Prop :=
      Runs i s o.gd
        (fun st j => if j = lead then enqueue (dropAsks v (.thread lead)) t.core (itemOf s tids i A B C xs words) else st)
        fun _ => .next
    let waits (i : Instr) : Prop := canAccept s t.core i A.toNat B.toNat = false →
      Runs i s o.gd (fun st j => if j = lead then modMx st t.core fun q => { q with held := q.held ++ [⟨i, tids, A, B, C⟩] } else st)
        fun _ => .wait matrixWait
    (∀ i ∈ [Instr.mma o m, .mfolio o m, .mldt o m, .mstt o m, .mzero o m, .mdrainSt o m, .mdrainAdd o m, .mdrainRoute o m,
        .mdrainCat o m, .mdrainFree o m], (admitted i → accepts i u []) ∧ waits i) ∧
    (∀ (v : State) (ws : List Word), configWords u lead (spaceIn m) A.toNat (pagesOf (xs.flatMap Prod.snd)) = (v, ws) →
      (admitted (.mepi o m) → epiBad ws = false → accepts (.mepi o m) v (epiStored ws)) ∧
      (admitted (.mroute o m) → routeBad ws = false → accepts (.mroute o m) v ws)) ∧
    waits (.mepi o m) ∧ waits (.mroute o m) ∧
    (∀ i words, let x := itemOf s tids i A B C xs words
      x.work = .ins i ∧ x.tids = tids ∧ x.a = A ∧ x.b = B ∧ x.c = C ∧ x.words = words ∧ x.xv = t.xv) ∧
    (∀ (v : State) (core : Nat) (x : MItem), (coreOf (enqueue v core x) core).mx.queue = (coreOf v core).mx.queue ++ [x])) ∧
  (∀ (s : State) (o : Ops) (m : M6), Ready s → Readable s o (matrixNeeds o) →
    let tids := (gathering s).filter fun j => guardTrue (thr s j) o.gd
    let lead := tids.headD 0
    let t := thr s lead
    let e := srcN t o.a
    let old (core : Nat) : Nat := (tgetD (coreOf s core).mx.catalog e 0).toNat
    (∀ j ∈ gathering s, guardTrue (thr s j) o.gd = true → txOf s j = none) →
    (wgOf s (tidWg lead)).owner = true → e < 64 →
    (Completes (.catq o m) s o.gd fun _ x => putG x o.d (old t.core)) ∧
    (let which := m.var.toNat / 2 ^ 21 % 2 ^ 2
     let met (j : Nat) : Bool := catMet which (old (thr s j).core)
     Runs (.catw o m) s o.gd (fun st j => if met j then writeDst st j o.d (old (thr s j).core) else st) fun j =>
       if met j then .next else .wait { code := 4, a := BitVec.ofNat 64 e, b := BitVec.ofNat 64 which, dst := o.d, var := 0 }) ∧
    (defBad (wgOf s t.wg) (old t.core) (srcN t o.b) = false →
      Runs (.catsetDef o m) s o.gd (fun st j => if j = lead then setCat st t.core e (srcN t o.b) else st) fun _ => .next) ∧
    (catState (old t.core) = catEmpty → catLen (old t.core) ≠ 0 →
      (∀ j ∈ gathering s, guardTrue (thr s j) o.gd = true → Quiet s j) →
      Runs (.catsetPub o m) s o.gd (fun st j => if j = lead then catFilled st t.core e none else st) fun _ => .next) ∧
    (∀ (v : Nat), catMet 0 v = decide (catState v = catReady ∨ (catState v = catEmpty ∧ catFault v = true)) ∧
      ∀ which, which ≠ 0 → catMet which v = decide (catState v = catEmpty)))

/-- A held instruction is accepted when it can be and its thread goes on; MMA gives every element of the a-tile the
sum of the old element and the products, with the marks of both operands; MZERO clears a tile and its error flag; MEPI
and MROUTE store their words. Each takes one item from the queue and changes no other byte. Rests on
12_matrix_engine.md: R265 to R272, 13_matrix_instructions.md: R293, R296 to R298, R303, R304, R307. -/
def Obligations.MatrixEngineSteps : Prop :=
  ∀ (s : State) (core : Nat), core < 256 → Memory.wf s.mem = true →
    (∀ h : MHeld, (coreOf s core).mx.held = [h] →
      let v := modMx s core fun q => { q with held := [] }
      (tryAccept v h.tids h.ins h.a h.b h.c = .held → exec (.matrixAccept core) s = .next s) ∧
      (∀ i u x w, h.tids = [i] → tryAccept v h.tids h.ins h.a h.b h.c = .go u x → (thr u i).wait = some w → w.paired = false →
        (thr u i).nest = [] →
        ∃ t, exec (.matrixAccept core) s = .next t ∧ (coreOf t core).mx.queue = (coreOf u core).mx.queue ++ [x] ∧
          (thr t i).wait = none ∧ (thr t i).pc = nextSlot (thr u i).pc ∧ t.mem = u.mem)) ∧
    (∀ (x : MItem) (rest : List MItem), (coreOf s core).mx.queue = x :: rest → portsFull s (dieOfCore core) = false →
      (∀ (o : Ops) (m : M6) (n : BitVec 3), x.work = .ins (.mma o m) → o.d = .reg (.a n) →
        let r := mmaRow m x.b.toNat
        let v := catOf s core (x.a.toNat % 64)
        ∀ l, (if mmaCat m then carrelLoc core (catBase v) = l else ∃ k : BitVec 4, o.a = .reg (.t k) ∧ ttileLoc core k.toNat 0 = l) →
          let rows := imageRows s l m.ta (xvFor x.xv x.tagA)
          let cols := folioCols s core m.tb (xvFor x.xv x.tagB) r (if m.var.getLsbD 12 then 1 else 0) (kOf m.ta)
          let dst := accumLoc core (65536 * n.toNat)
          ∃ t, exec (.matrixExecute core) s = .next t ∧ (coreOf t core).mx.queue = rest ∧
            (∀ i j, i < 128 → j < 128 → tileElem t dst (128 * i + j) =
              mmaElement (if m.ovw then none else some (tileElem s dst (128 * i + j)))
                (termsOf (rows.getD i []) (cols.getD j [])) % 2 ^ 32) ∧
            (marksAt t core n.toNat).row = (if m.ovw then 0 else (marksAt s core n.toNat).row) ||| marksOf rows ∧
            (marksAt t core n.toNat).col = (if m.ovw then 0 else (marksAt s core n.toNat).col) ||| marksOf cols ∧
            ∀ k, k < dst ∨ dst + 65536 ≤ k → Memory.get t.mem k = Memory.get s.mem k) ∧
      (∀ (o : Ops) (m : M6) (n : BitVec 3), x.work = .ins (.mzero o m) → o.d = .reg (.a n) →
        let dst := accumLoc core (65536 * n.toNat)
        ∃ t, exec (.matrixExecute core) s = .next t ∧ (coreOf t core).mx.queue = rest ∧
          (∀ k, Memory.get t.mem k = if dst ≤ k ∧ k < dst + 65536 then 0 else Memory.get s.mem k) ∧
          (coreOf t core).mx.err.contains (16 + n.toNat) = false) ∧
      (∀ (o : Ops) (m : M6), x.work = .ins (.mepi o m) → ∃ t, exec (.matrixExecute core) s = .next t ∧
        (coreOf t core).mx.queue = rest ∧ (coreOf t core).mx.epi = x.words ∧ t.mem = s.mem) ∧
      (∀ (o : Ops) (m : M6), x.work = .ins (.mroute o m) → ∃ t, exec (.matrixExecute core) s = .next t ∧
        (coreOf t core).mx.queue = rest ∧ (coreOf t core).mx.route = x.words ∧ t.mem = s.mem))

/-- Each thread whose guard is true writes its record to the slot of its rank among those of its ring and receives its
accession number; the last of them writes the notify word. MSLIP publishes one call slip for the gathering and binds
its chain. The ring has room, lies in this module with its slots, and no other publication to it is under way. Two names of one
header name one ring. What the parts of the threads do is all that changes; a thread
whose guard is false only goes on (Runs, Passed). Rests on 15_copy_storage_instructions.md: R348, R349, R360,
13_matrix_instructions.md: R308, R310, 25_annex.md: R497, 02_engines_together.md: R18, R29, R30. -/
def Obligations.Publishing : Prop :=
  (∀ (s : State) (o : Ops) (view : Nat → RingView), Ready s → (∀ e ∈ s.wgs, e.2.txs = []) →
    (∀ j ∈ gathering s, guardTrue (thr s j) o.gd = true → Quiet s j) →
    let publishes (i : Instr) (needs : List (Src × Need)) (space : Space) (hdr : Nat → Nat) (size limOff : Nat) (own : Bool)
        (record : (Nat → Nat) → State → Nat → List Byte) (bound : State → Nat → State) : Prop :=
      -- the threads that name the ring of thread j, and its rank among them
      let named (j : Nat) : List Nat :=
        (gathering s).filter fun k => guardTrue (thr s k) o.gd && ringKey s space k (hdr k) == ringKey s space j (hdr j)
      let lead (j : Nat) : Nat := (named j).headD j
      let rank (j : Nat) : Nat := (named j).findIdx (· == j)
      let number (j : Nat) : Nat := ((view j).pub + rank j + 1) % 2 ^ 48
      Readable s o needs →
      (∀ j ∈ gathering s, guardTrue (thr s j) o.gd = true → ∃ x p,
        ringCheck s (lead j) space (hdr (lead j)) size limOff (named j).length own = .ok x p (view j) ∧
        publishesFar s (lead j) space p (view j) size (named j).length = false ∧ publishing s p (fun _ => true) = false ∧
        ((view j).pub + 2 ^ 48 - (view j).lim) % 2 ^ 48 + (named j).length ≤ 2 ^ (view j).logn) →
      Runs i s o.gd (fun st j =>
        let m := (named j).length
        let slot := ((view j).base + size * (((view j).pub + rank j) % 2 ^ (view j).logn)) % 2 ^ 64
        let written := writeDst (putBytes st j space slot (record number st j)) j o.d (number j)
        if rank j + 1 = m then bound (putBytes written j space (hdr j) (leBytes 8 (((view j).pub + m) % 2 ^ 48))) j
        else written) fun _ => .next
    let header (j : Nat) : Nat := srcN (thr s j) o.b
    let both (_ : Nat → Nat) (_st : State) (j : Nat) : List Byte := leBytes 32 (srcW (thr s j) o.a) ++ leBytes 32 (srcW (thr s j) o.c)
    let needs : List (Src × Need) := [(o.a, .raw), (o.b, .word), (o.c, .raw)]
    ∀ m : M7,
    publishes (.cqpub o m) [(o.a, .raw)] .carrel (fun j => (thr s j).cqhdr.toNat * 64) 32 8 true
      (fun _ _ j => leBytes 32 (srcW (thr s j) o.a))
      (fun st j => bindCopyRing st (thr s j).core ((thr s j).cqhdr.toNat * 64) (tidWg j)) ∧
    publishes (.nvsub o m) needs .global header 64 16 false both (fun st _ => st) ∧
    publishes (.jcard o m) needs .global header 64 16 false both (fun st _ => st) ∧
    (s.annex.st ≠ .fenced → publishes (.axpush o m) needs .global header 64 16 false
      (fun number st j => axRecord st j (number j) (srcW (thr s j) o.a) (srcW (thr s j) o.c))
      (fun st _ => st))) ∧
  (∀ (s : State) (o : Ops) (m : M6) (view : RingView) (x : State) (p : Place), Ready s → Readable s o [(o.a, .raw), (o.b, .word)] →
    (∀ e ∈ s.wgs, e.2.txs = []) →
    let tids := (gathering s).filter fun j => guardTrue (thr s j) o.gd
    let lead := tids.headD 0
    let t := thr s lead
    let b := srcN t o.b
    let local_ := b.testBit 63
    let space : Space := if local_ then .rcarrel else .global
    let ea := if local_ then b % 2 ^ 63 else b
    let loc : RingLoc := if local_ then .carrel (t.core / 64 * 64 + b % 2 ^ 26 / 2 ^ 20) (b % 2 ^ 20)
      else .global (wgOf s (tidWg lead)).context (BitVec.ofNat 64 b)
    Quiet s lead →
    (local_ = true → (t.core / 64 * 64 + b % 2 ^ 26 / 2 ^ 20) / 4 = t.core / 4) →
    (∀ v q, laneCheck s lead space ea 64 .rd false = .ok (v, q) → chainElsewhere v (t.core / 4) (headLoc q) = false) →
    ringCheck s lead space ea 32 8 1 false = .ok x p view → publishesFar s lead space p view 32 1 = false →
    publishing s p (fun _ => true) = false →
    (view.pub + 2 ^ 48 - view.lim) % 2 ^ 48 + 1 ≤ 2 ^ view.logn →
    Runs (.mslip o m) s o.gd (fun st j =>
      if j = lead then
        let slot := (view.base + 32 * (view.pub % 2 ^ view.logn)) % 2 ^ 64
        let written := writeDst (putBytes st j space slot (slipBytes t.core (srcW t o.a))) j o.d ((view.pub + 1) % 2 ^ 48)
        bindChain (putBytes written j space ea (leBytes 8 ((view.pub + 1) % 2 ^ 48))) (t.core / 4) (tidWg lead) loc p
          (boundChain s p.loc) ((view.pub + 1) % 2 ^ 48)
      else writeDst st j o.d ((view.pub + 1) % 2 ^ 48)) fun _ => .next)

/-- DEPSET sends its value to the task's scheduler and holds until it is applied; DEPQ reads a counter and UNDERRUN;
ACCQ reads a ring's frontier; NVREAP (both forms) and AXREAP return the record once it is written and otherwise
suspend. What the parts of the threads do is all that changes; a thread whose guard is false only goes on (Runs,
Passed). Rests on 15_copy_storage_instructions.md: R350, R351, R352, R361, 25_annex.md: R498. -/
def Obligations.TasksAndReaping : Prop :=
  (∀ (s : State) (o : Ops) (m : M7), Ready s →
    (∀ j ∈ gathering s, guardTrue (thr s j) o.gd = true → txOf s j = none) →
    let a (j : Nat) : Nat := srcN (thr s j) o.a
    (Readable s o [(o.a, .word), (o.b, .word)] →
      (∀ j ∈ gathering s, guardTrue (thr s j) o.gd = true → a j < 2 ^ 14 ∧ srcN (thr s j) o.b < 2 ^ 16 ∧
        (releases m.ord = true → Quiet s j)) →
      Runs (.depset o m) s o.gd (fun st j => modQuad st (a j / 2 ^ 8) fun q =>
        { q with msgs := q.msgs ++ [.set (a j % 2 ^ 8) ((srcWord (thr s j) o.b).setWidth 16) j] })
        fun _ => .wait { code := 63, a := 0, b := 0, dst := .latchOnly, var := holdDepset }) ∧
    (Readable s o [(o.a, .word)] →
      ((∀ j ∈ gathering s, guardTrue (thr s j) o.gd = true → a j < 2 ^ 14) →
        Completes (.depq o m) s o.gd fun j t =>
          let k := tgetD (quadOf s (a j / 2 ^ 8)).tasks (a j % 2 ^ 8) Task.reset
          putG t o.d (k.count.toNat + if k.under then 2 ^ 16 else 0)) ∧
      (∀ (after : State → Nat → State) (loc : Nat → Nat),
        let part (st : State) (j : Nat) : State :=
          writeDst (after st j) j o.d (leNat (loadBytes (after st j) (loc j) 8) % 2 ^ 48)
        AtTurns s o.gd part (fun st j =>
          (if o.a = .reg (.g 0) then Reaches st j .carrel ((thr s j).cqhdr.toNat * 64 + 16) 8 .rd (loc j) (after st j)
           else a j % 64 = 0 ∧ Reaches st j .global (a j + 16) 8 .rd (loc j) (after st j)) ∧
          poisoned (after st j) (loc j) 8 = false) →
        Runs (.accq o m) s o.gd part fun _ => .next))) ∧
  (∀ (s : State) (o : Ops) (m : M7) (at_ : State → Nat → Nat → State) (loc w : Nat → Nat → Nat), Ready s →
    Readable s o [(o.a, .word), (o.b, .word)] →
    (∀ j ∈ gathering s, guardTrue (thr s j) o.gd = true → txOf s j = none) →
    let hdr (j : Nat) : Nat := srcN (thr s j) o.a
    let k (j : Nat) : Nat := srcN (thr s j) o.b
    let logn (j : Nat) : Nat := w j 4 % 2 ^ 5
    -- the record's address: past the ring's slots, by the number of the entry
    let record (size : Nat) (j : Nat) : Nat :=
      w j 3 + 64 * 2 ^ logn j + size * ((k j + 2 ^ 48 - 1) % 2 ^ 48 % 2 ^ logn j)
    -- the words read: five of the header, the record's last, then the record
    let addr (size : Nat) (j e : Nat) : Nat :=
      if e < 5 then hdr j + 8 * e
      else if e = 5 then (record size j + size - 8) % 2 ^ 64
      else (record size j % 2 ^ 64 + 8 * (e - 6)) % 2 ^ 64
    let reads (size n : Nat) (st : State) (j : Nat) : Prop := at_ st j 0 = st ∧ ∀ e < n,
      Reaches (at_ st j e) j .global (addr size j e) 8 .rd (loc j e) (at_ st j (e + 1)) ∧
        poisoned (at_ st j (e + 1)) (loc j e) 8 = false ∧ leNat (loadBytes (at_ st j (e + 1)) (loc j e) 8) = w j e
    let open_ (j : Nat) : Prop := hdr j % 64 = 0 ∧ k j < 2 ^ 48 ∧ (w j 0 % 2 ^ 48 + 2 ^ 48 - k j) % 2 ^ 48 < 2 ^ logn j
    let reaps (i : Instr) (code size : Nat) (b : Nat → Word) : Prop :=
      (let part (st : State) (j : Nat) : State := writeDst (at_ st j (6 + size / 8)) j o.d
         (((List.range (size / 8)).map fun e => w j (6 + e) * 2 ^ (64 * e)).sum)
       AtTurns s o.gd part (fun st j => open_ j ∧ reads size (6 + size / 8) st j ∧ w j 5 % 2 ^ 48 = k j) →
       Runs i s o.gd part fun _ => .next) ∧
      (let part (st : State) (j : Nat) : State := at_ st j 6
       AtTurns s o.gd part (fun st j => open_ j ∧ reads size 6 st j ∧ 2 ^ 47 ≤ (w j 5 % 2 ^ 48 + 2 ^ 48 - k j) % 2 ^ 48) →
       Runs i s o.gd part fun j => .wait { code, a := srcWord (thr s j) o.a, b := b j, dst := o.d, var := 0 })
    reaps (.nvreapReq o m) 5 16 (fun j => srcWord (thr s j) o.b) ∧
    reaps (.nvreapCard o m) 5 32 (fun j => srcWord (thr s j) o.b ||| 0x8000000000000000) ∧
    reaps (.axreap o m) 6 16 (fun j => srcWord (thr s j) o.b))

/-- A scheduler polls its chains, reads in the next slip of one in a carrel or faults the ring on an overrun, dispatches a slip
whose task is met to a free engine of the quad, runs its K-steps, and completes it once the writes of its drain are
acknowledged; a decrement lowers a counter or sets UNDERRUN at
zero, and a set writes it and releases the waiting thread. Rests on 12_matrix_engine.md: R281 to R284,
13_matrix_instructions.md: R308, R309, 02_engines_together.md: R31, R35. -/
def Obligations.CallSlipsAndTasks : Prop :=
  ∀ (s : State) (quad : Nat), quad < 64 →
    (∀ (k c off : Nat) (r : Ring), slipsAhead s (quadOf s quad) < 32 →
      let u := pollChains s quad
      nextChain u quad = some (k, r) → r.loc = .carrel c off → Memory.wf u.mem = true →
      let cell := carrelLoc c off
      let e := (hdrTaken u cell + 1) % 2 ^ 48
      let ea := hdrBase u cell + 32 * slotIndex e (hdrLogn u cell)
      let ws := wordsAt u (carrelLoc (c / 64 * 64 + ea % 2 ^ 26 / 2 ^ 20) (ea % 2 ^ 20)) 4
      (overrun u cell = true → ∃ t, exec (.slipRead quad) s = .next t ∧
        ∀ y ∈ (quadOf t quad).chains, y.loc = r.loc → y.faulted = true) ∧
      (overrun u cell = false → slipBad quad ws = false → logsMet u (cell + 8) 8 = [] →
        ∃ t, exec (.slipRead quad) s = .next t ∧ hdrTaken t cell = e ∧
          (quadOf t quad).slips = (quadOf u quad).slips ++ [⟨r.loc, e, ws, r.wg, .waiting, 0⟩])) ∧
    (∀ (x : Slip) (c : Nat), (quadOf s quad).slips = [x] → x.st = .waiting ∨ x.st = .queued → wgServed s x.wg = true →
      slipMet s x.words = true → slipBad quad x.words = false → engineFor (quadOf s quad) quad x.words = some c →
      ∃ t, exec (.slipDispatch quad) s = .next t ∧ (quadOf t quad).slips = [{ x with st := .running c, step := 0 }] ∧
        t.mem = s.mem) ∧
    (∀ x : Slip, (quadOf s quad).slips = [x] → x.st = .waiting → slipMet s x.words = false →
      ∃ t, exec (.slipDispatch quad) s = .next t ∧ (quadOf t quad).slips = [x] ∧ t.mem = s.mem) ∧
    (∀ (core : Nat) (x : Slip), core < 256 → slipOn s core = some x →
      (slipSteps x.words ≤ x.step → exec (.slipKstep core) s = .next s) ∧
      (∀ bs, x.st = .running core → x.step < slipSteps x.words → slipGlobal x.words = false →
        slipTile s (quadOfCore core) x x.step = .image s bs →
        let mx := (coreOf s core).mx
        let b := slipB x.words
        let r := slipRow x.words x.step
        rowTagBad mx r b = false → (hasScale b = true → tgetD mx.rowTag (r + 1) 0 = 0 ∧ mx.rowGood.contains (r + 1) = true) →
        mx.rowGood.contains r = true →
        ∃ t, exec (.slipKstep core) s = .next t ∧ slipOn t core = some { x with step := x.step + 1 }) ∧
      (∀ u flags, x.st = .running core → slipSteps x.words ≤ x.step → drainSlip s core x = .done u flags →
        portsFull s (dieOfCore core) = false → inFlight (dropAsks u (.slip x.ring x.k)) (.slip x.ring x.k) = false →
        bit (cfgWord x.words 3) 30 = false →
        ∃ t, exec (.slipComplete core) s = .next t ∧
          ∀ y ∈ (quadOf t (quadOfCore core)).slips, ¬ (y.ring = x.ring ∧ y.k = x.k ∧ y.wg = x.wg)) ∧
      (∀ flags, x.st = .drained core flags → inFlight s (.slip x.ring x.k) = true →
        ∃ t, exec (.slipComplete core) s = .next t ∧ slipOn t core = some x ∧ t.mem = s.mem ∧
          (quadOf t (quadOfCore core)).tasks = (quadOf s (quadOfCore core)).tasks) ∧
      (x.st = .running core → slipSteps x.words ≤ x.step → drainSlip s core x = .hold →
        exec (.slipComplete core) s = .next s)) ∧
    (∀ (k : Nat) (rest : List TaskMsg), (quadOf s quad).msgs = .dec k :: rest →
      let old := tgetD (quadOf s quad).tasks k Task.reset
      ∃ t, exec (.depDecrement quad) s = .next t ∧ (quadOf t quad).msgs = rest ∧
        tgetD (quadOf t quad).tasks k Task.reset = if old.count = 0 then ⟨0, true⟩ else ⟨old.count - 1, old.under⟩) ∧
    (∀ (k tid : Nat) (v : BitVec 16) (rest : List TaskMsg), (quadOf s quad).msgs = .set k v tid :: rest →
      (∀ w, (thr s tid).wait = some w → w.code = 63 ∧ w.var = holdDepset ∧ w.paired = false ∧ (thr s tid).nest = []) →
      ∃ t, exec (.depsetApply quad) s = .next t ∧ (quadOf t quad).msgs = rest ∧
        tgetD (quadOf t quad).tasks k Task.reset = ⟨v, false⟩ ∧ (thr t tid).wait = none)

/-- The engine reads in the next entry of a ring or faults the ring, starts a channel's entry or ends it with its
fault, moves one chunk or parks on a translation fault, and completes an entry: status word, accession frontier by
R32, and the entry leaves the channel. Rests on 14_copy_storage_engine.md: R315 to R328,
15_copy_storage_instructions.md: R344, R345, R346, 02_engines_together.md: R31, R32, R36. -/
def Obligations.CopyEngineSteps : Prop :=
  ∀ s : State, Memory.wf s.mem = true →
    (∀ (quad k core off : Nat) (r : Ring), quad < 64 → nextRing s (quadOf s quad) = some (k, r) → r.loc = .carrel core off →
      let cell := carrelLoc core off
      let w := wgOf s r.wg
      let e := (hdrTaken s cell + 1) % 2 ^ 48
      let ws := wordsAt s (carrelLoc core (hdrBase s cell + 32 * slotIndex e (hdrLogn s cell))) 4
      (overrun s cell = true ∨ inCarrelRegion w off 64 = false →
        ∃ t, exec (.copyRingRead quad) s = .next t ∧
          ∀ y ∈ (quadOf t quad).rings, y.loc = r.loc → y.wg = r.wg → y.faulted = true) ∧
      (overrun s cell = false → inCarrelRegion w off 64 = true → ringInRegion w (copyView s r) = true →
        copyCv ws = false → takesPlace s core r.wg ws = false → logsMet s (cell + 8) 8 = [] →
        ∃ t x, exec (.copyRingRead quad) s = .next t ∧ hdrTaken t cell = e ∧
          tgetD (quadOf t quad).chans (copyChan ws) [] = tgetD (quadOf s quad).chans (copyChan ws) [] ++ [x] ∧
          x.words = ws ∧ x.k = e ∧ x.core = core ∧ x.hdr = off ∧ x.wg = r.wg ∧ x.st = .queued ∧ x.chunk = 0 ∧ x.pos = 0)) ∧
    (∀ (quad ch : Nat) (x : CopyRun), quad < 64 → ch < 8 → headRun s quad ch = some x → copyChan x.words = ch →
      wgServed s x.wg = true →
      (x.st = .queued → copyCv x.words = false →
        (∀ c, copyFault s x.core x.wg x.words = some c → ∃ t y sub, exec (.copyChannelStart quad ch) s = .next t ∧
          headRun t quad ch = some y ∧ y.st = .finished c sub ∧ t.mem = s.mem) ∧
        (copyFault s x.core x.wg x.words = none → runDone x = false →
          ∃ t, exec (.copyChannelStart quad ch) s = .next t ∧ headRun t quad ch = some { x with st := .running } ∧
            t.mem = s.mem) ∧
        (copyFault s x.core x.wg x.words = none → runDone x = true →
          ∃ t y, exec (.copyChannelStart quad ch) s = .next t ∧ headRun t quad ch = some y ∧ y.st = .finished 0 0)) ∧
      (x.st = .running → accumWaits s quad x = false → portsFull s (quad / 16) = false →
        let plan := if copyXp x.words = 0 then plainChunk x else blockChunk x
        (∀ s1 bs bad s2 os s3 y, chunkReads s quad x plan.reads = .ok (s1, bs, bad) → chunkOuts s1 x plan.writes = .ok (s2, os) →
          chunkWrites s2 quad x os bs bad = .ok (s3, y) →
          let z := { y with chunk := x.chunk + 1, pos := x.pos + plan.len }
          runDone z = false →
          ∃ t, exec (.copyChunk quad ch) s = .next t ∧ headRun t quad ch = some z ∧ t.mem = s3.mem) ∧
        (∀ e, chunkReads s quad x plan.reads = .error (.fault e) → parks e.1 = true →
          ∃ t y sub idx, exec (.copyChunk quad ch) s = .next t ∧ headRun t quad ch = some y ∧
            y = { x with st := .parked (BitVec.ofNat 8 e.1.1) sub (BitVec.ofNat 64 e.2) idx })) ∧
      (∀ cause sub r, x.st = .finished cause sub → copyInFlight s quad (x.core * 2 ^ 20 + x.hdr) x.k = false →
        bit (ctrlOf x.words) 27 = false →
        (quadOf s quad).rings.find? (fun y => y.loc == .carrel x.core x.hdr && y.wg == x.wg) = some r →
        let cell := carrelLoc x.core x.hdr
        let l := statusCell s x.core cell x.k
        let done := if r.done.contains x.k then r.done else r.done ++ [x.k]
        (l + 4 ≤ cell ∨ cell + 64 ≤ l) → logsMet s l 4 = [] → logsMet s (cell + 16) 8 = [] →
        ∃ t, exec (.copyEntryComplete quad ch) s = .next t ∧
          readNat t l 4 = (if cause = 0 ∧ x.poison = true then cPoison.toNat else cause.toNat) + sub.toNat * 256 ∧
          hdrAcc t cell = frontier (hdrAcc s cell) done (done.length + 1) ∧
          tgetD (quadOf t quad).chans ch [] = (tgetD (quadOf s quad).chans ch []).drop 1))

/-- Of a queue pair or card ring that has settled what is over and read in what is published: a ready request is submitted with
its command, namespace, PRP entries and block fields; a completion or timeout gives it its ESTAT, and it is over once its writes
and its record are acknowledged; a ready card starts, and gets its outcome when its input has run; the copying job gives its
input's status, and a short literal-only LZ4 block decodes to its literals. The SSD's page size, the address of a PRP list and
what a timed-out command leaves are the model's (log entries 23 and 84). Rests on 14_copy_storage_engine.md: R331 to R343,
15_copy_storage_instructions.md: R353 to R360. -/
def Obligations.StorageSteps : Prop :=
  (∀ (s : State) (die : Nat), die < 4 →
    (∀ (pair : Nat) (q : QueuePair) (r : NvReq) (u : State) (xs : List Span), pair < 64 →
      tget (dieOf (settleReqs s die pair) die).pairs pair = some q →
      let v := readRequestIn (settleReqs s die pair) die pair q
      ((dieOf v die).reqs.filter fun y => y.pair == pair && y.st == .submitted).length < q.depth →
      storageOut v die = false → (dieOf v die).reqs.find? (nvReady v pair) = some r →
      spansOf v (storageParty v die q.context) .global (if nvWrites r.words then .wr else .rd) (nvBuf r.words) (nvLen r.words) =
        .ok (u, xs) →
      let pages := nvPages xs
      let dword (y : NvReq) (i : Nat) : Nat := (y.sqe.getD i 0).toNat
      ∃ t y, exec (.nvmeRequestSubmit die pair) s = .next t ∧ y ∈ (dieOf t die).reqs ∧ y.pair = pair ∧ y.k = r.k ∧
        y.st = .submitted ∧ y.words = r.words ∧ y.prp = pages.drop 1 ∧
        y.sqe.getD 0 0 = BitVec.ofNat 32 (nvOpc r.words + y.cid * 2 ^ 16) ∧ y.sqe.getD 1 0 = q.nsid ∧
        dword y 6 = pages.headD 0 % 2 ^ 32 ∧ dword y 7 = pages.headD 0 / 2 ^ 32 % 2 ^ 32 ∧
        (∀ a b, pages = [a, b] → dword y 8 = b % 2 ^ 32 ∧ dword y 9 = b / 2 ^ 32 % 2 ^ 32) ∧
        (nvOpc r.words ≠ 0 → nvOpc r.words ≠ 9 → y.sqe.getD 10 0 = BitVec.ofNat 32 (nvSlba r.words) ∧
          y.sqe.getD 11 0 = BitVec.ofNat 32 (nvSlba r.words / 2 ^ 32) ∧
          y.sqe.getD 12 0 = BitVec.ofNat 32 (nvNlb r.words + if nvFua r.words then 2 ^ 30 else 0))) ∧
    (∀ (cid : Nat) (status : BitVec 15) (dw0 : BitVec 32) (r : NvReq) (q : QueuePair),
      (dieOf s die).reqs.find? (fun y => y.st == .submitted && y.cid == cid) = some r →
      tget (dieOf s die).pairs r.pair = some q → bit (cfgWord r.words 0) 39 = false →
      let owner := reqOwner die r
      let server := storageServer s die q.ring
      let ending (ws : List Word) : NvReq := { r with st := .ending false ws }
      -- the record goes out in state u to the ring at p, and w is the state after it
      let recorded (b : State) (ws : List Word) (u w : State) (p : Place) : Prop :=
        ringPlaceOf (modReq b die r fun _ => ending ws) server.asid server.priv q.ring.loc = some (u, p) ∧
          inFlight u owner = false ∧ putRecord u server (storageWriter die q.context owner) p r.k ws = some w ∧
          inFlight w owner = false
      let ended (t : State) (estat : Nat) : Prop :=
        (∀ y ∈ (dieOf t die).reqs, ¬ (y.pair = r.pair ∧ y.k = r.k)) ∧
        ∃ p rest, tget (dieOf t die).pairs r.pair = some p ∧ p.past = (r.k, estat, r.words) :: rest
      (let estat := if status.toNat % 256 ≠ 0 then 1 else if r.poison then 5 else 0
       let ws := reqRecord r.k estat (if r.poison then cPoison.toNat else 0) status.toNat dw0.toNat
       (∀ u w p, recorded s ws u w p → ∃ t, exec (.nvmeCompletion die cid status dw0) s = .next t ∧ ended t estat) ∧
       (∀ u p, ringPlaceOf (modReq s die r fun _ => ending ws) server.asid server.priv q.ring.loc = some (u, p) →
         inFlight u owner = true →
         ∃ t, exec (.nvmeCompletion die cid status dw0) s = .next t ∧ ending ws ∈ (dieOf t die).reqs ∧ t.mem = u.mem)) ∧
      (let (d, b) := drawFree s
       ∀ u w p, recorded b (reqRecord r.k 2 0 (d.toNat / 2 ^ 32) d.toNat) u w p →
         ∃ t, exec (.nvmeTimeout die cid) s = .next t ∧ ended t 2)) ∧
    (∀ (ring : Nat) (q : CardRing) (c : Card), ring < 64 → tget (dieOf s die).cardRings ring = some q →
      let v := readCardIn s die ring q
      (dieOf v die).cards.find? (cardReady v ring) = some c →
      ∃ t, exec (.jobCardStart die ring) s = .next t ∧ { c with st := .running } ∈ (dieOf t die).cards) ∧
    (∀ (ring : Nat) (q : CardRing) (c : Card) (a n : Nat) (good : Bool), ring < 64 →
      let v := settleCards s die ring
      tget (dieOf v die).cardRings ring = some q → (dieOf v die).cards.find? (cardEnds ring) = some c →
      c.input = some (a, n, good) → portsFull v die = false →
      let outcome (ws : List Word) : Prop := ∃ t, exec (.jobCardComplete die ring) s = .next t ∧
        ∀ y ∈ (dieOf t die).cards, y.ring = c.ring → y.k = c.k → ∃ b, y.st = .ending b ws
      (good = false → outcome (cardRecord c.k stInput 0 0 0 0)) ∧
      (∀ u r check, good = true → runCard v die q.context c a n = .done u r check →
        outcome (cardRecord c.k r.status (if r.status = stPoison then cPoison.toNat else 0) r.out.length r.inOff check)))) ∧
  ((∀ (ws : List Word) (x dict : Input), cardJob ws = 0 → (∀ b ∈ x.bad, b = false) → x.lost = 0 →
    (runJob ws x dict).status = stDone ∧ (runJob ws x dict).out = [] ∧ (runJob ws x dict).inOff = x.bytes.length) ∧
  (∀ (ws : List Word) (x dict : Input) (b : Nat), cardJob ws = 0 → x.bad.findIdx? id = some b → b < x.bytes.length →
    (runJob ws x dict).status = stPoison ∧ (runJob ws x dict).inOff = b) ∧
  (∀ (bs : List Byte) (dict : Input) (cap : Nat), 0 < bs.length → bs.length < 15 → bs.length ≤ cap →
    let x : Input := .clean (BitVec.ofNat 8 (16 * bs.length) :: bs)
    (lz4Decode x dict cap).status = stDone ∧ (lz4Decode x dict cap).out = bs))

/-- BOP combines two rows or a row and a scalar element by element, BRED reduces a row, BSORT and BTOPK write a row's
numbers in order and count the NaNs; the order is a sorted arrangement of exactly the numbers. The rows lie in one
bank of the thread's die. What the parts of the threads do is all that changes; a thread whose guard is false only
goes on (Runs, Passed). Rests on 18_stacks_instructions.md: R393 to R398, 17_stacks_sketches.md: R365 to R368. -/
def Obligations.BankInstructions : Prop :=
  (∀ (s : State) (o : Ops) (m : M7), Ready s → Readable s o [(o.a, .word), (o.b, .word), (o.c, .word)] →
    let ty := bankType m
    let w := fmtWidth ty / 8
    let op := m.low.toNat / 2 ^ 20 % 2 ^ 4
    let desc := m.low.getLsbD 20
    let n (j : Nat) : Nat := srcN (thr s j) o.c % 2 ^ 32
    let k (j : Nat) : Nat := srcN (thr s j) o.c / 2 ^ 32
    let a (j : Nat) : Nat := srcN (thr s j) o.a
    let b (j : Nat) : Nat := srcN (thr s j) o.b
    let row (st : State) (j off count : Nat) : List Nat := bankRead st ((thr s j).core / 64) ty off count
    let write (st : State) (j off : Nat) (es : List Nat) : State :=
      storeBytes st (6 * 2 ^ 60 + (thr s j).core / 64 * 2 ^ 31 + off) (es.flatMap (leBytes w))
    -- a row that lies in one bank, aligned, inside the stacks, in no reserved bank, and free of poison where it is read
    let good (st : State) (j off count : Nat) (read : Bool) : Prop :=
      off % w = 0 ∧ off % 0x200000 + count * fmtWidth ty / 8 ≤ 0x200000 ∧ off + count * fmtWidth ty / 8 ≤ 0x60000000 ∧
      reservedCells st (stacksLoc ((thr s j).core / 64) off) (count * fmtWidth ty / 8) = false ∧
      (read = true → poisoned st (stacksLoc ((thr s j).core / 64) off) (count * fmtWidth ty / 8) = false)
    let runs (i : Instr) (part : State → Nat → State) (P : State → Nat → Prop) : Prop :=
      AtTurns s o.gd part (fun st j => txOf st j = none ∧ (releases m.ord = true → Quiet s j) ∧
        1 ≤ n j ∧ n j ≤ 65536 ∧ P st j) →
      Runs i s o.gd part fun _ => .wait { code := 11, a := 0, b := 0, dst := .latchOnly, var := 0 }
    let scalar := m.low.getLsbD 19
    runs (.bop o m) (fun st j => write st j (a j) (List.zipWith (bankOp op ty) (row st j (a j) (n j))
        (if scalar then List.replicate (n j) (b j % 2 ^ fmtWidth ty) else row st j (b j) (n j))))
      (fun st j => k j = 0 ∧ good st j (a j) (n j) true ∧ (scalar = false → good st j (b j) (n j) true)) ∧
    runs (.bred o m) (fun st j => writeDst st j o.d (bankReduce op ty (row st j (a j) (n j))))
      (fun st j => k j = 0 ∧ good st j (a j) (n j) true) ∧
    runs (.bsort o m) (fun st j =>
        let r := bankOrder ty desc (row st j (b j) (n j))
        writeDst (write st j (a j) (bankFill ty (n j) r.1)) j o.d r.2)
      (fun st j => k j = 0 ∧ good st j (a j) (n j) false ∧ good st j (b j) (n j) true) ∧
    runs (.btopk o m) (fun st j =>
        let r := bankOrder ty desc (row st j (b j) (n j))
        writeDst (write st j (a j) (bankFill ty (k j) r.1)) j o.d r.2)
      (fun st j => 1 ≤ k j ∧ k j ≤ n j ∧ good st j (a j) (k j) false ∧ good st j (b j) (n j) true)) ∧
  (∀ (ty : Fmt) (desc : Bool) (es : List Nat),
    let number (e : Nat) : Bool := !(isF ty && isNan (decodeFloat ty e))
    let r := bankOrder ty desc es
    r.1.Perm (es.filter number) ∧ r.2 = (es.filter fun e => !number e).length ∧
      (isIN ty = true → r.1.Pairwise fun x y => if desc then intOf ty y ≤ intOf ty x else intOf ty x ≤ intOf ty y) ∧
      ∀ n, (bankFill ty n r.1).length = n ∧ (bankFill ty n r.1).take r.1.length = r.1.take n)

/-- SKDEF, SKFOLD, both forms of SKSEAL and SKCLR and COLLATE act once for the gathering on the region named; sealing
keeps the collated image, clearing empties every partial and SATURATED, folding halves the range, freeing removes the
region, merging changes the home partial alone; a filter answers 1 for an inserted key and a counting sketch never
more than any of the key's cells. Which region slot is used is the model's choice (log entry 35). What the parts of
the threads do is all that changes; a thread whose guard is false only goes on (Runs, Passed). Rests on
18_stacks_instructions.md: R394, R395, R403, R406 to R409, 17_stacks_sketches.md: R369 to R392. -/
def Obligations.SketchRegionInstructions : Prop :=
  (∀ (s : State) (o : Ops) (m : M7) (slot : Nat) (r : Region), Ready s →
    (∀ j ∈ gathering s, guardTrue (thr s j) o.gd = true → txOf s j = none ∧ Quiet s j) →
    let lead := ((gathering s).filter fun j => guardTrue (thr s j) o.gd).headD 0
    let a := srcN (thr s lead) o.a
    let b := srcN (thr s lead) o.b
    let runs (i : Instr) (u : State) : Prop := Runs i s o.gd (fun st j => if j = lead then u else st) fun _ =>
      .wait { code := 11, a := 0, b := 0, dst := .latchOnly, var := 0 }
    (Readable s o [(o.a, .word)] → regionBase s (wgOf s (thr s lead).wg).asid.toNat a = some (slot, r) →
      partsFault s r 10 = none →
      (foldable r = true → runs (.skfold o m) (foldRegion s slot r)) ∧
      runs (.skseal o m) (sealRegion s slot r) ∧
      runs (.sksealOpen o m) (partsEvent (setRegion s slot { r with isSealed := false }) r 10) ∧
      runs (.skclr o m) (clearRegion s slot r) ∧
      runs (.skclrFree o m) (freeRegion s slot r)) ∧
    (∀ (from_ : Nat) (x : Region), Readable s o [(o.a, .word), (o.b, .word)] → a % 64 = 0 → b % 64 = 0 → a ≠ b →
      regionBase s (wgOf s (thr s lead).wg).asid.toNat a = some (slot, r) →
      regionBase s (wgOf s (thr s lead).wg).asid.toNat b = some (from_, x) → regionsAgree r x = true →
      let s1 := (sourceState s from_ x).1
      let d := (tget s1.regions slot).getD r
      partsFault s x 10 = none → regionFault s1 d d.home d.range 10 = none →
      runs (.collate o m) (mergeInto s1 slot d (if x.isSealed then x.image else collated x))) ∧
    (∀ (at_ : Nat → State) (loc w : Nat → Nat) (v : State) (pages : List (Nat × Nat)) (range : Nat),
      Readable s o [(o.a, .word), (o.b, .word)] → a % 64 = 0 → b % 64 = 0 → a < 2 ^ 56 →
      let ws := (List.range 8).map w
      let asid := (wgOf v (thr v lead).wg).asid
      let kind := w 0 % 2 ^ 3
      let size := skBytesAt kind ((w 0).testBit 3) (w 0 / 2 ^ 16 % 2 ^ 3) (w 0 / 2 ^ 4 % 2 ^ 6)
      at_ 0 = s → (∀ e < 8, Reaches (at_ e) lead .global (b + 8 * e) 8 .rd (loc e) (at_ (e + 1)) ∧
        poisoned (at_ (e + 1)) (loc e) 8 = false ∧ leNat (loadBytes (at_ (e + 1)) (loc e) 8) = w e) →
      imageBad ws = false → regionPages (at_ 8) (partyOf (at_ 8) lead) a size kind = some (v, pages, range) →
      regionBase v asid.toNat a = none → freeSlot v = some slot → poolUsed v + size ≤ v.module.poolBanks * 0x200000 →
      let new := newRegion (wgOf v (thr v lead).wg).context asid a
        (match pages with
          | [] => 0
          | p :: _ => homeDie (p.2 + a % 65536)) range pages ws
      runs (.skdef o m) (postImage (setParts (zeroRegion v new size) slot new fun _ => freshState new) new size))) ∧
  (∀ (s : State) (k : Nat) (r : Region),
    (∃ r', tget (sealRegion s k r).regions k = some r' ∧ r'.isSealed = true ∧ r'.image = collated r ∧
      r'.csat = (collated r).sat ∧ r'.parts = r.parts) ∧
    (∃ r', tget (clearRegion s k r).regions k = some r' ∧ r'.isSealed = false ∧ r'.csat = false ∧ r'.lcur = r.lcur ∧
      ∀ d < 4, partOf r' d = freshState { r with isSealed := false, csat := false, image := SkState.reset, parts := [] }) ∧
    (∃ r', tget (foldRegion s k r).regions k = some r' ∧ r'.lcur = r.lcur - 1 ∧ r'.l0 = r.l0 ∧
      ∀ d < 4, partOf r' d = foldState r (partOf r d)) ∧
    (freeRegion s k r).regions = tdel s.regions k ∧
    (∀ x, ∃ r', tget (mergeInto s k r x).regions k = some r' ∧ partOf r' r.home = skMerge r (partOf r r.home) x ∧
      ∀ d, d ≠ r.home → partOf r' d = partOf r d) ∧
    (∀ x key weight, r.kind = 1 → r.cnt = false → weight ≠ 0 → skQuery r (skInsert r x key weight) key = 1) ∧
    (∀ x key, r.kind = 2 → ∀ i ∈ hashCells r key, skQuery r x key ≤ cellAt x.cells i))

/-- SKDEL deletes its key from the die's partial of a counting filter, and SKSTAT reads a status word of the state at
its scope; both raise their line event and suspend the thread until done. What the parts of the threads do is all that
changes; a thread whose guard is false only goes on (Runs, Passed). Rests on 18_stacks_instructions.md: R394, R404,
R405, 17_stacks_sketches.md: R375, R383. -/
def Obligations.SketchDeleteAndStatus : Prop :=
  ∀ (s : State) (o : Ops) (m : M7) (at_ : State → Nat → State) (place : Nat → Place) (slot : Nat → Nat)
    (region : State → Nat → Region), Ready s →
    let ea (j : Nat) : Nat := srcN (thr s j) o.a
    let die (j : Nat) : Nat := (thr s j).core / 64
    let found (acc : Acc) (st : State) (j : Nat) : Prop := txOf st j = none ∧ ea j % 8 = 0 ∧
      placeOf st (partyOf st j) .global (ea j) 8 acc = .ok (at_ st j, place j) ∧ (place j).sketch ≠ 0 ∧
      (place j).remote = false ∧ regionAt (at_ st j) (place j).pa = some (slot j, region st j) ∧
      -- the entry of the range's table admits the event (R418)
      regionFault (at_ st j) (region st j) (die j) (place j).range (if acc = .wr then 8 else 9) = none
    let runs (i : Instr) (part : State → Nat → State) (P : State → Nat → Prop) : Prop := AtTurns s o.gd part P →
      Runs i s o.gd part fun _ => .wait { code := 11, a := 0, b := 0, dst := .latchOnly, var := 0 }
    (Readable s o [(o.a, .word), (o.b, .word)] → runs (.skdel o m) (fun st j =>
        let r := region st j
        regionEvent (setPart (at_ st j) (slot j) r (die j) (skDelete r (partOf r (die j)) (srcN (thr s j) o.b))) r (die j)
          (place j).range 8)
      (fun st j => found .wr st j ∧ (releases m.ord = true → Quiet s j) ∧ (region st j).kind = 1 ∧
        (region st j).cnt = true)) ∧
    (Readable s o [(o.a, .word)] → runs (.skstat o m) (fun st j =>
        let r := region st j
        let seen := seenState r (die j) (m.scope == .die)
        writeDst (regionEvent (setRegion (at_ st j) (slot j) seen.2) r (die j) (place j).range 9) j o.d
          (skStatWord r seen.1 (m.low.toNat % 8)))
      (fun st j => found .rd st j))

/-- FLUSHP goes on when no posted write of the thread is in flight, AXFENCE when no guest write that the port has accepted is, or
the port is fenced, and otherwise they suspend; TRIMQ reads the trim
counter of a port and class; BWSET sets the class weights of the named ports and RCPACE the recall pacing, for a
privileged thread and legal operands. What the parts of the threads do is all that changes; a thread whose guard is
false only goes on (Runs, Passed). Rests on 21_links_trimming.md: R457 to R461, 25_annex.md: R499. -/
def Obligations.LinkInstructions : Prop :=
  ∀ (s : State) (o : Ops) (m : M7), Ready s →
    (∀ j ∈ gathering s, guardTrue (thr s j) o.gd = true → txOf s j = none) →
    let a (j : Nat) : Nat := srcN (thr s j) o.a
    (Readable s o [] →
      (Runs (.flushp o m) s o.gd (fun st _ => st) fun j =>
        if (thr s j).posted = [] then .next else .wait { code := 7, a := 0, b := 0, dst := .latchOnly, var := 0 }) ∧
      ((∀ j ∈ gathering s, guardTrue (thr s j) o.gd = true → Quiet s j) →
        Runs (.axfence o m) s o.gd (fun st _ => st) fun _ =>
          if s.annex.st ≠ .fenced ∧ guestWrites s = true then
            .wait { code := 8, a := 0, b := 0, dst := .latchOnly, var := s.annex.sent }
          else .next)) ∧
    (Readable s o [(o.a, .word)] → (∀ j ∈ gathering s, guardTrue (thr s j) o.gd = true → a j < 2 ^ 7) →
      Completes (.trimq o m) s o.gd fun j t => putG t o.d (tgetD (portOf s (a j % 16)).trims (a j / 16) 0).toNat) ∧
    ((∀ j ∈ gathering s, guardTrue (thr s j) o.gd = true → privOf s j = true) →
      (Readable s o [(o.a, .word), (o.b, .word)] →
        let weight (j k : Nat) : Nat := srcN (thr s j) o.b / 2 ^ (8 * k) % 2 ^ 8
        (∀ j ∈ gathering s, guardTrue (thr s j) o.gd = true → a j < 2 ^ 16 ∧ (∀ k < 8, weight j k ≤ 64) ∧ weight j 3 = 0 ∧
          weight j 4 = 0 ∧ ((List.range 8).map (weight j)).sum = 64) →
        Runs (.bwset o m) s o.gd (fun st j => (List.range 16).foldl (fun st port =>
          if (a j).testBit port then modPort st port fun x => { x with weights := (List.range 8).map (weight j) } else st) st)
          fun _ => .next) ∧
      (Readable s o [(o.a, .word)] →
        let base (j : Nat) : Nat := a j / 2 ^ 12 % 2 ^ 5
        let cap (j : Nat) : Nat := a j / 2 ^ 17 % 2 ^ 5
        (∀ j ∈ gathering s, guardTrue (thr s j) o.gd = true → a j < 2 ^ 22 ∧ 4 ≤ base j ∧ base j ≤ cap j ∧ cap j ≤ 16) →
        Runs (.rcpace o m) s o.gd (fun st j =>
          { st with fabric := { st.fabric with pairGap := a j % 2 ^ 12, base := base j, cap := cap j } }) fun _ => .next))

/-- CLPLAN loads or frees a plan slot, once for the gathering; CLSEND adds one send with its range, source and tasks;
a send starts once its task is met and there is room, and completes when nothing of it is left; a dead send, or one
whose task is not met, does not start. What the parts of the threads do is all that changes; a thread whose guard is
false only goes on (Runs, Passed). Rests on 22_collectives.md: R462 to R477. -/
def Obligations.Collectives : Prop :=
  (∀ (s : State) (o : Ops) (m : M7), Ready s →
    (∀ j ∈ gathering s, guardTrue (thr s j) o.gd = true → txOf s j = none) →
    (Readable s o [(o.a, .word), (o.b, .word)] →
      let lead := ((gathering s).filter fun j => guardTrue (thr s j) o.gd).headD 0
      let t := thr s lead
      let die := t.core / 64
      let slot := srcN t o.b
      slot < 2 ^ 8 → slotBusy s die slot = false →
      (∀ u p, o.a ≠ .reg (.g 0) → planLoad s lead (srcN t o.a) slot = .load u p →
        Runs (.clplan o m) s o.gd (fun st j => if j = lead then modColl u die fun c => { c with plans := tset c.plans slot p } else st)
          fun _ => .wait (finishedWait 12)) ∧
      (o.a = .reg (.g 0) → (∀ p, planIn s die slot = some p → p.context = (wgOf s t.wg).context) →
        Runs (.clplan o m) s o.gd (fun st j => if j = lead then modColl st die fun c => { c with plans := tdel c.plans slot } else st)
          fun _ => .wait (finishedWait 12))) ∧
    (∀ (p : Nat → Plan) (at_ : State → Nat → State) (src : Nat → SendSrc), Readable s o [(o.a, .word), (o.b, .word), (o.c, .word)] →
      let a (j : Nat) : Nat := srcN (thr s j) o.a
      let b (j : Nat) : Nat := srcN (thr s j) o.b
      let c (j : Nat) : Nat := srcN (thr s j) o.c
      let die (j : Nat) : Nat := (thr s j).core / 64
      let slot (j : Nat) : Nat := c j / 2 ^ 32 % 2 ^ 8
      let first (j : Nat) : Nat := b j % 2 ^ 28
      let count (j : Nat) : Nat := c j % 2 ^ 32
      let part (st : State) (j : Nat) : State := addSend (at_ st j) (die j) (slot j) (p j) (first j) (count j) (src j)
        (if (b j).testBit 42 then some (BitVec.ofNat 14 (b j / 2 ^ 28)) else none)
        (if (c j).testBit 54 then some (BitVec.ofNat 14 (c j / 2 ^ 40)) else none)
      AtTurns s o.gd part (fun st j => Quiet s j ∧ planIn st (die j) (slot j) = some (p j) ∧
        (p j).context = (wgOf st (thr s j).wg).context ∧ sendFieldsBad (b j) (c j) (planOp (p j) == opCollate) = false ∧
        (planOp (p j) ≠ opCollate → (first j + count j) * chunkBytes (p j) ≤ planRlen (p j)) ∧ a j % 64 = 0 ∧
        sendSource st j (a j) (count j) (p j) = .ok (at_ st j, src j)) →
      Runs (.clsend o m) s o.gd part fun _ => .next)) ∧
  (∀ (s : State) (die : Nat) (y : Send) (p : Plan), die < 4 →
    (dieOf s die).coll.sends.find? (fun z => z.id == y.id) = some y → planIn s die y.plan = some p →
    (y.dead = true ∨ taskMet s y.wait.isSome (y.wait.getD 0).toNat = false → exec (.sendStart die y.id) s = .next s) ∧
    (y.dead = false → portsFull s die = false → sendRoom s die p y = true →
      taskMet s y.wait.isSome (y.wait.getD 0).toNat = true → y.todo = [] → (∀ k, y.src ≠ .region k) →
      (∀ d ∈ s.dies, d.2.coll.inbox = []) →
      ∃ t, exec (.sendStart die y.id) s = .next t ∧ t.mem = s.mem ∧
        ∀ z ∈ (dieOf t die).coll.sends, z.id = y.id → z.started = true) ∧
    (y.started = true → y.dead = false → y.todo = [] → y.left = [] → sendInFlight s die y (planWrites p) = false →
      y.task = none →
      ∃ t, exec (.sendComplete die y.id) s = .next t ∧ (∀ z ∈ (dieOf t die).coll.sends, z.id ≠ y.id) ∧ t.mem = s.mem) ∧
    (y.left ≠ [] → exec (.sendComplete die y.id) s = .next s))

/-- A packet with a bad header only counts as a link error; headers pass, data queues or is trimmed and counted; a
stub waits for its recall; a recall resends; an acknowledgement frees the kept packet and the posted write; a posted
write writes its bytes once; ordered packets wait for their turn; a collective packet is absorbed and acknowledged, a right
operand waiting at its node for the left one; a read request is answered with the bytes; a response is acknowledged and
reaches what waits for it; a lost packet is resent at most four times. The layout of AUX of a response and the clock of the
bounds are the model's choices (log entries 27 and 6). Rests on 21_links_trimming.md: R440 to R456, 22_collectives.md: R467,
R468. -/
def Obligations.PacketSteps : Prop :=
  ∀ (s : State) (port : Nat) (p : Packet), port < 16 →
    (badHeader p = true →
      ∀ i ∈ [Instr.switchPacketArrival port p, .stubArrival port p, .recallArrival port p, .postedWriteApply port p,
        .ackArrival port p, .orderedPacketArrival port p, .readRequestArrival port p, .readResponseArrival port p,
        .collectivePacketArrival port p],
      ∃ t, exec i s = .next t ∧ t = { s with fabric := t.fabric } ∧
        portOf t port = { portOf s port with linkErrors := (portOf s port).linkErrors + 1 }) ∧
    (badHeader p = false →
      (headerLane p = true → ∃ t, exec (.switchPacketArrival port p) s = .next t ∧
        t = { s with fabric := t.fabric } ∧ t.fabric.out = s.fabric.out ++ [p] ∧ portOf t port = portOf s port) ∧
      (headerLane p = false → mustTrim s port p = false → ∃ t, exec (.switchPacketArrival port p) s = .next t ∧
        (portOf t port).dataQ = (portOf s port).dataQ ++ [p] ∧ t.fabric.out = s.fabric.out) ∧
      (mustTrim s port p = true → headerLane p = false → ∃ t, exec (.switchPacketArrival port p) s = .next t ∧
        t.fabric.out = s.fabric.out ++ [{ p with trimmed := true, payload := [] }] ∧
        tgetD (portOf t port).trims p.cls.toNat 0 = tgetD (portOf s port).trims p.cls.toNat 0 + 1 ∧
        (portOf t port).dataQ = (portOf s port).dataQ) ∧
      (p.trimmed = true → p.ord = false → ∃ t, exec (.stubArrival port p) s = .next t ∧
        (portOf t port).stubs = (portOf s port).stubs ++
          [⟨{ p with trimmed := true, payload := [] },
            fabricNow s + 2 ^ min s.fabric.cap (s.fabric.base + p.trims.toNat), s.fabric.pairGap⟩]) ∧
      (∀ k, p.type = tyRecall → keptOf s port p.tag = some k → ∃ t y, exec (.recallArrival port p) s = .next t ∧
        y ∈ (portOf t port).kept ∧ y.pkt.tag = p.tag ∧ y.since = s.clock ∧
        y.pkt.trims = if k.pkt.trims = 15 then 15 else k.pkt.trims + 1) ∧
      (∀ k, p.type = tyAck → p.aux.toNat % 256 = 0 → keptOf s port p.tag = some k →
        ∃ t, exec (.ackArrival port p) s = .next t ∧ (∀ y ∈ (portOf t port).kept, y.pkt.tag ≠ p.tag) ∧
          (∀ e ∈ t.threads, ∀ y ∈ e.2.posted, ¬ (y.port = port ∧ y.tag = p.tag)) ∧ t.mem = s.mem) ∧
      (isPosted p = true → p.ord = false → p.trimmed = false → forUs s p = true → wasApplied s p = true →
        ∃ t, exec (.postedWriteApply port p) s = .next t ∧ t.mem = s.mem ∧ t.threads = s.threads) ∧
      (∀ w, (p.type = tyPosted ∨ p.type = tyEngine) → p.ord = false → p.trimmed = false → forUs s p = true → wasApplied s p = false →
        windowOf s p.addr.toNat = none → reservedCells s (paLoc s p.addr.toNat) 32 = false → p.payload = [w] →
        p.fmask = 0xFFFFFFFF → p.lmask = 0xFFFFFFFF → Memory.wf s.mem = true →
        (∃ u, engineLines s (packetPlace s p) 32 true = .ok u) →
        (∀ e ∈ s.wgs, e.2.txs = []) →
        ∃ t, exec (.postedWriteApply port p) s = .next t ∧ readNat t (paLoc s p.addr.toNat) 32 = w.toNat ∧
          wasApplied t p = true ∧
          ∀ l, l < paLoc s p.addr.toNat ∨ paLoc s p.addr.toNat + 32 ≤ l → Memory.get t.mem l = Memory.get s.mem l) ∧
      (p.ord = true → forUs s p = true → p.trimmed = false →
        let f := flowOf s (flowKey p)
        let d := (p.seq - f.expect).toNat
        (0 < d → d ≤ 255 → tget f.window p.seq.toNat = none → tget f.window f.expect.toNat = none →
          ∃ t, exec (.orderedPacketArrival port p) s = .next t ∧ t.mem = s.mem ∧
            (flowOf t (flowKey p)).expect = f.expect ∧ tget (flowOf t (flowKey p)).window p.seq.toNat = some p) ∧
        (32767 < d → ∃ t, exec (.orderedPacketArrival port p) s = .next t ∧ t.mem = s.mem ∧
          flowOf t (flowKey p) = f) ∧
        (p.type = tyCollective → ∀ v, d = 0 → f.window = [] →
          unitTake (setFlow s { f with window := [(p.seq.toNat, p)] }) p.ddie.toNat p = some v →
          exec (.collectivePacketArrival port p) s =
            .next (setFlow (ack (pumpUnits v.1) port p v.2) { f with expect := f.expect + 1, window := [] })) ∧
        -- a right operand of a node that this rank hosts waits there for the left one (R467)
        (∀ q e rest, p.type = tyCollective → d = 0 → f.window = [] →
          let die := p.ddie.toNat
          let slot := p.addr.toNat / 2 ^ 44
          let chunk := p.addr.toNat % 2 ^ 28
          let split := p.aux.toNat / 2 ^ 30
          planIn s die slot = some q → q.pchk.toNat = p.addr.toNat / 2 ^ 28 % 2 ^ 16 → portsFull s die = false →
          packetRoute p = e :: rest → e / 2 ^ 13 ≠ 0 → e / 2 ^ 13 ≠ opCopy → nodeRoom s die slot chunk split = true →
          (∀ y ∈ (dieOf s die).coll.operands, ¬ (y.plan = slot ∧ y.chunk = chunk ∧ y.split = split ∧ y.left = true)) →
          (∀ y ∈ s.dies, y.2.coll.inbox = []) →
          ∃ t, exec (.collectivePacketArrival port p) s = .next t ∧ t.mem = s.mem ∧
            (dieOf t die).coll.operands = (dieOf s die).coll.operands ++
              [{ plan := slot, chunk := chunk, split := split, left := false, payload := p.payload, route := rest }] ∧
            (flowOf t (flowKey p)).expect = f.expect + 1 ∧
            t.fabric.out = s.fabric.out ++ [answerTo s p 3 tyAck 0])) ∧
      (p.type = tyReadReq → forUs s p = true → portsFull s (homeDie p.addr.toNat) = false → p.aux.toNat % 2 ^ 33 = 0 →
        windowOf s p.addr.toNat = none → reservedCells s (paLoc s p.addr.toNat) 32 = false → (∀ e ∈ s.wgs, e.2.txs = []) →
        (∃ u, lineAccess s none p.addr.toNat (packetRange p) false = .ok u) →
        ∃ t q k, exec (.readRequestArrival port p) s = .next t ∧ t.mem = s.mem ∧
          k ∈ (portOf t (leastPort s (homeDie p.addr.toNat))).kept ∧ k.owner = .response ∧ k.pkt = q ∧
          q.dmod = p.smod ∧ q.type = tyReadResp ∧ q.payload = [BitVec.ofNat 256 (readNat s (paLoc s p.addr.toNat) 32)] ∧
          q.aux.toNat % 2 ^ 16 = p.tag.toNat) ∧
      (∀ k, p.type = tyReadResp → p.ord = false → p.trimmed = false → p.payload = [] →
        keptOf s port (BitVec.ofNat 16 (p.aux.toNat % 2 ^ 16)) = some k →
        ∃ t, exec (.readResponseArrival port p) s = .next t ∧ t.mem = s.mem ∧
          ∀ y ∈ (portOf t port).kept, y.pkt.tag ≠ BitVec.ofNat 16 (p.aux.toNat % 2 ^ 16)) ∧
      -- a response with its data: it is acknowledged, its request is over, and whatever waits for the request has the answer
      (let tag : BitVec 16 := BitVec.ofNat 16 (p.aux.toNat % 2 ^ 16)
       (p.type = tyReadResp ∨ p.type = tyRmwResp) → p.ord = false → p.trimmed = false → p.payload ≠ [] →
        p.poisoned = false → p.aux.toNat / 2 ^ 24 % 256 = 0 → (keptOf s port tag).isSome = true → s.annex.reads = [] →
        ∃ t, exec (.readResponseArrival port p) s = .next t ∧ t = { s with threads := t.threads, fabric := t.fabric } ∧
          t.fabric.out = s.fabric.out ++ [answerTo s p 3 tyAck 0] ∧
          (portOf t port).kept = (portOf s port).kept.filter (fun y => y.pkt.tag != tag) ∧
          (∀ i, (thr t i).pend = (thr s i).pend.map fun q =>
            { q with pieces := q.pieces.map fun x =>
                if x.val = none ∧ x.port = port ∧ x.tag = tag then { x with val := some (answerNat p), fault := 0 } else x }) ∧
          t.fabric.asks = s.fabric.asks.map fun x =>
            if x.val = none ∧ x.port = port ∧ x.tag = tag then
              { x with val := some p.payload, poisoned := false, fault := 0 }
            else x)) ∧
    (∀ k, nextRecall s port = some k → ∃ t, exec (.recallSend port) s = .next t ∧
      (portOf t port).stubs = (portOf s port).stubs.erase k ∧
      t.fabric.out.length = s.fabric.out.length + 1) ∧
    (∀ (tag : BitVec 16) (k : Kept), keptOf s port tag = some k →
      (s.clock < k.since + 450000 → exec (.resendTimeout port tag) s = .next s) ∧
      (k.since + 450000 ≤ s.clock → k.resends < 4 → ∃ t y, exec (.resendTimeout port tag) s = .next t ∧
        y ∈ (portOf t port).kept ∧ y = { k with resends := k.resends + 1, since := s.clock }) ∧
      (∀ i, k.since + 450000 ≤ s.clock → 4 ≤ k.resends → k.owner = .thread i →
        ∃ t, exec (.resendTimeout port tag) s = .next t ∧ (∀ y ∈ (portOf t port).kept, y.pkt.tag ≠ tag) ∧
          ∀ e ∈ t.threads, ∀ y ∈ e.2.posted, y.port = port → y.tag = tag → y.lost = true))

/-- EV, PR, PW, UP, FL and, on a CXL 3.1 host link, BI at the only holder of a line move that holder's state to NEXT
of the entry of its range's table and change nothing else; a BI that meets a host request in flight yields. Rests on
20_concordance_tables.md: R417 to R419, R431 to R436. -/
def Obligations.CoherenceEvents : Prop :=
  ∀ (s : State) (holder line v : Nat), holder < 262 → tget s.coh.lines (lineKey holder line) = some v →
    s.coh.lines.Pairwise (fun a b => a.1 < b.1) → (∀ h ∈ holdersOf s line, h = holder) →
    let moves (i : Instr) (ev : Nat) : Prop := ∃ t, exec i s = .next t ∧ t = { s with coh := t.coh } ∧
      lineState t holder line = (entryOf (rangeTable s (v / 8)) (v % 8) ev).next ∧
      ∀ h l, lineKey h l ≠ lineKey holder line → lineState t h l = lineState s h l
    moves (.coherenceEv holder line) 2 ∧ moves (.coherencePr holder line) 3 ∧ moves (.coherencePw holder line) 4 ∧
    moves (.coherenceUp holder line) 5 ∧ moves (.coherenceFl holder line) 6 ∧
    (holder = holderH → s.module.cxl31 = true → moves (.coherenceBi line false) 7) ∧
    exec (.coherenceBi line true) s = .next s

/-- The entries and permissions of the invalidate, update, migratory and write-once tables are those of the manual,
events 0 to 15 of every state (a stay for those the tables leave out), and every vendor table passes the verifier's
checks of one image. Rests on R424, R425, R426. -/
def Obligations.VendorTables : Prop :=
  let row (slot st : Nat) : List Trans := (List.range 16).map (entryOf (vendorTable slot) st)
  let stay (st : Nat) : Trans := ⟨st, 0, 0⟩
  (row 0 0 = [⟨1, 1, 4⟩, ⟨2, 1, 5⟩] ++ List.replicate 6 (stay 0) ++ List.replicate 3 ⟨0, 0, 32⟩ ++ List.replicate 5 (stay 0) ∧
   row 0 1 = [stay 1, ⟨2, 0, 5⟩, ⟨0, 0, 0⟩, stay 1, ⟨0, 0, 0⟩, stay 1, ⟨0, 0, 0⟩, ⟨0, 0, 0⟩] ++ List.replicate 3 ⟨0, 0, 32⟩ ++
     List.replicate 5 (stay 1) ∧
   row 0 2 = [stay 2, stay 2, ⟨0, 3, 0⟩, ⟨1, 3, 0⟩, ⟨0, 3, 0⟩, stay 2, ⟨0, 3, 0⟩, ⟨0, 3, 0⟩] ++ List.replicate 3 ⟨0, 0, 32⟩ ++
     List.replicate 5 (stay 2) ∧
   (vendorTable 0).nsm1 = 2 ∧ [0, 1, 2].map (permOf (vendorTable 0)) = [0, 1, 2]) ∧
  (row 1 0 = [⟨1, 1, 4⟩, ⟨0, 4, 4⟩] ++ List.replicate 6 (stay 0) ++ List.replicate 3 ⟨0, 0, 32⟩ ++ List.replicate 5 (stay 0) ∧
   row 1 1 = [stay 1, ⟨1, 4, 4⟩, ⟨0, 0, 0⟩, stay 1, stay 1, ⟨1, 5, 0⟩, ⟨0, 0, 0⟩, ⟨0, 0, 0⟩] ++ List.replicate 3 ⟨0, 0, 32⟩ ++
     List.replicate 5 (stay 1) ∧
   (vendorTable 1).nsm1 = 1 ∧ [0, 1].map (permOf (vendorTable 1)) = [0, 1]) ∧
  (row 2 0 = [⟨1, 1, 6⟩, ⟨1, 1, 6⟩] ++ List.replicate 6 (stay 0) ++ List.replicate 3 ⟨0, 0, 32⟩ ++ List.replicate 5 (stay 0) ∧
   row 2 1 = [stay 1, stay 1, ⟨0, 3, 0⟩, ⟨0, 2, 0⟩, ⟨0, 2, 0⟩, stay 1, ⟨0, 3, 0⟩, ⟨0, 3, 0⟩] ++ List.replicate 3 ⟨0, 0, 32⟩ ++
     List.replicate 5 (stay 1) ∧
   (vendorTable 2).nsm1 = 1 ∧ [0, 1].map (permOf (vendorTable 2)) = [0, 2]) ∧
  (row 3 0 = [⟨1, 1, 4⟩, ⟨0, 6, 5⟩] ++ List.replicate 6 (stay 0) ++ List.replicate 3 ⟨0, 0, 32⟩ ++ [⟨0, 0, 8⟩] ++
     List.replicate 4 (stay 0) ∧
   row 3 1 = [stay 1, ⟨0, 6, 5⟩, ⟨0, 0, 0⟩, stay 1, ⟨0, 0, 0⟩, stay 1, ⟨0, 0, 0⟩, ⟨0, 0, 0⟩] ++ List.replicate 3 ⟨1, 0, 32⟩ ++
     [⟨1, 0, 8⟩] ++ List.replicate 4 (stay 1) ∧
   (vendorTable 3).nsm1 = 1 ∧ [0, 1].map (permOf (vendorTable 3)) = [0, 1]) ∧
  (∀ slot < 5, verify (vendorTable slot) true = none)

/-- With h the hash of the coordinates and D the number of set bits of DIEMASK, the home die is that of the (h mod
D)-th set bit, counting from 0, and the home quadrant is h shifted right by 8, mod 4. Rests on R124. -/
def Obligations.PlacementHash : Prop :=
  ∀ (bind launch : List Word) (w : Nat), bindMask bind ≠ 0 →
    ∀ x y z, coordOf launch w = (x, y, z) →
      let h := (x * 0x9E3B + y * 0x85EB + z * 0xC2B3) % 2 ^ 16
      let D := ((List.range 4).filter fun d => (bindMask bind).testBit d).length
      let home := homeDieOf bind launch w
      home < 4 ∧ (bindMask bind).testBit home = true ∧
      ((List.range home).filter fun d => (bindMask bind).testBit d).length = h % D ∧
      homeQuadrant launch w = h / 2 ^ 8 % 4

/-- A dispatcher consumes the next record, halts on an overrun and resumes; a bind record opens or closes a slot, or is
refused with ILLEGAL_FIELD and changes no slot; a
placed workgroup's threads start at the entry with the registers of R125; a steal moves half of a share, at most 8; a
completed binding's workgroups and threads are gone. That a workgroup that has ended stands until its binding completes
is the model's choice (log entry 48). The completion is stated for a binding whose images and word need no acknowledgement
of another module. Rests on 06_dispatch_engine.md: R114 to
R128. -/
def Obligations.LaunchAndPlacement : Prop :=
  ∀ s : State,
    (∀ (die queue : Nat) (q : LaunchQueue), die < 4 → queue < 16 → tget (dieOf s die).queues queue = some q →
      let cell := paLoc s q.hdr
      let cfg := readWord s (cell + 24)
      let n := 2 ^ (cfg % 16)
      let drp := readWord s (cell + 8) % 2 ^ 48
      let m := sub48 (readWord s cell % 2 ^ 48) drp
      let pa := readWord s (cell + 16) % 2 ^ 52 + 128 * (drp % n)
      let seq := readWord s (paLoc s pa) % 2 ^ 16
      (dieOf s die).bootstat.toNat % 256 = 7 → q.halted = false → bit cfg 5 = true →
      (m = 0 → exec (.launchQueuePoll die queue) s = .next s) ∧
      (n < m → ∃ t, exec (.launchQueuePoll die queue) s = .next t ∧
        tget (dieOf t die).queues queue = some { q with halted := true } ∧
        t.module.msi = s.module.msi ++ [bits cfg 16 6]) ∧
      (m ≠ 0 → m ≤ n → seq = (drp % 2 ^ 16 + 2 ^ 16 - n) % 2 ^ 16 → seq ≠ drp % 2 ^ 16 →
        exec (.launchQueuePoll die queue) s = .next s) ∧
      (m ≠ 0 → m ≤ n → seq = drp % 2 ^ 16 → launchBad (wordsAt s (paLoc s pa) 16) = false → Memory.wf s.mem = true →
        ∃ t, exec (.launchQueuePoll die queue) s = .next t ∧ readWord t (cell + 8) = (drp + 1) % 2 ^ 48 ∧
          (dieOf t die).consumed = (dieOf s die).consumed ++ [⟨pa, queue, wordsAt s (paLoc s pa) 16⟩])) ∧
    (∀ (die queue : Nat) (q : LaunchQueue), die < 4 → queue < 16 → tget (dieOf s die).queues queue = some q →
      q.halted = true →
      (bit (readWord s (paLoc s q.hdr + 24)) 4 = true → exec (.launchQueueResume die queue) s = .next s) ∧
      (bit (readWord s (paLoc s q.hdr + 24)) 4 = false → ∃ t, exec (.launchQueueResume die queue) s = .next t ∧
        t = { s with dies := t.dies } ∧ tget (dieOf t die).queues queue = some { q with halted := false })) ∧
    (∀ (die slot : Nat) (r : BindWords), die < 4 → slot < 32 →
      (bits (cfgWord r 0) 63 42 ≠ 0 ∨ 11 < bindPrio r ∨ (bindPrio r = 0 ∧ bindContext r ≠ 0) ∨
        (bit (cfgWord r 0) 0 = true ∧ (tget (dieOf s die).slots slot).isSome = true) →
        exec (.bindRecordWrite die slot r) s = .next (modDie s die fun d => { d with bindCause := cIllegalField })) ∧
      (bindBad die r (tget (dieOf s die).slots slot).isSome = false →
        (bit (cfgWord r 0) 0 = true → ∃ t b, exec (.bindRecordWrite die slot r) s = .next t ∧
          tget (dieOf t die).slots slot = some b ∧ b.words = r ∧ (dieOf t die).bindCause = 0 ∧
          b.launch = wordsAt s (paLoc s (cfgWord r 1 % 2 ^ 52)) 16 ∧ b.completed = false ∧ b.age = 0 ∧
          b.share = if bit (bindMask r) die then homeShare die r b.launch else []) ∧
        (∀ b, bit (cfgWord r 0) 0 = false → tget (dieOf s die).slots slot = some b → b.completed = true →
          ∃ t, exec (.bindRecordWrite die slot r) s = .next t ∧ (dieOf t die).slots = tdel (dieOf s die).slots slot))) ∧
    (∀ (core p base w : Nat) (cs : List (Nat × BindSlot)) (slot : Nat) (b : BindSlot), core < 256 →
      let die := dieOfCore core
      arbitrate s die core = some (p, cs, (slot, b)) → b.share.head? = some w → savedWg s die slot w = none →
      recordAway s die b.words b.launch = none → imageAway s die core b = none →
      imageRefused b.launch (imageRecord s die b.words b.launch) = false →
      pickCore s die b.words (needsOf s die b) (homeQuadrant b.launch w) = some core →
      qualifies s die b.words (needsOf s die b) core = some base →
      ∃ t, exec (.workgroupPlace core) s = .next t ∧ t.nextWg = s.nextWg + 1 ∧
        ∀ q l, q < launchQuires b.launch → l < 32 →
          let x := thr t (tidOf s.nextWg q l)
          let (cx, cy, cz) := coordOf b.launch w
          x.core = core ∧ x.wg = s.nextWg ∧ x.quire = q ∧ x.lane = l ∧ x.exited = false ∧ x.wait = none ∧ x.nest = [] ∧
          x.pc = BitVec.ofNat 56 (launchEntry b.launch) ∧ readG x 1 = BitVec.ofNat 64 (launchArgs b.launch) ∧
          readG x 2 = BitVec.ofNat 64 w ∧ readG x 3 = BitVec.ofNat 64 (cz * 2 ^ 32 + cy * 2 ^ 16 + cx) ∧
          readG x 4 = BitVec.ofNat 64 (q * 32 + l) ∧ (∀ n, n = 0 ∨ 4 < n → readG x n = 0) ∧
          x.srSeed = seedOf (launchSeed b.launch) w q l ∧ x.cqhdr = BitVec.ofNat 14 (base * 64)) ∧
    (∀ (thief slot victim : Nat) (b v : BindSlot), thief < 4 → slot < 32 → victim < 4 →
      tget (dieOf s thief).slots slot = some b → tget (dieOf s victim).slots slot = some v →
      stealFrom s thief b = some victim →
      let free := v.share.filter fun w => (savedWg s victim slot w).isNone
      let given := free.drop (free.length - min 8 ((free.length + 1) / 2))
      let tag := (dieOf s thief).nextTag
      ∃ t, exec (.stealReq thief slot victim) s = .next t ∧
        tget (dieOf t thief).slots slot = some { b with stealTag := some tag } ∧
        tget (dieOf t victim).slots slot = some { v with share := v.share.filter fun w => !given.contains w } ∧
        (dieOf t thief).steal = (dieOf s thief).steal ++ [if given = [] then .none slot tag victim else .give slot tag given]) ∧
    (∀ (thief slot tag : Nat) (ws : List Nat) (rest : List StealMsg) (b : BindSlot), thief < 4 → slot < 32 →
      (dieOf s thief).steal = .give slot tag ws :: rest → tget (dieOf s thief).slots slot = some b →
      ∃ t, exec (.stealGive thief slot) s = .next t ∧ (dieOf t thief).steal = rest ∧
        tget (dieOf t thief).slots slot = some { b with share := ws ++ b.share, stealTag := none }) ∧
    (∀ (thief slot tag victim : Nat) (rest : List StealMsg) (b : BindSlot), thief < 4 → slot < 32 →
      (dieOf s thief).steal = .none slot tag victim :: rest → tget (dieOf s thief).slots slot = some b →
      ∃ t, exec (.stealNone thief slot) s = .next t ∧ (dieOf t thief).steal = rest ∧
        tget (dieOf t thief).slots slot = some { b with noneFrom := b.noneFrom ++ [victim], stealTag := none }) ∧
    (∀ (die slot : Nat) (b : BindSlot), die < 4 → slot < 32 → bindingAt s die slot = some b → b.worded = false →
      sharesEmpty s slot b = true →
      let mask := bindMask b.words
      let imaged := writeImages s die slot b
      wgsDone s (bindingWgs s slot mask) = true → imagesDone imaged die slot b = true →
      inFlight (wordBinding imaged die slot b) .service = false →
      ∃ t, exec (.bindingComplete die slot) s = .next t ∧
        (∀ d < 4, ∀ y, tget (dieOf t d).slots slot = some y → launchPa y = launchPa b → y.completed = true) ∧
        ∀ f ∈ bindingWgs s slot mask, (∀ e ∈ t.wgs, e.1 ≠ f.1) ∧ ∀ e ∈ t.threads, e.2.wg ≠ f.1)

/-- A request marks the victim of lowest urgency, latest placed; a forced save comes only after PBOUND; a save stores
the workgroup and returns it to the head of its share; a restore places it again with its watchdog. The clocks of a
microsecond, and that the restored workgroup asks for its own carrel region, that a poisoned area stops it, and that a deterministic workgroup with a matrix quire stops as a whole are
the model's choices (log entries 6, 11, 89 and 88). Rests on 06_dispatch_engine.md: R129 to R132, 10_lane_faults_translation.md: R247, R248. -/
def Obligations.Preemption : Prop :=
  ∀ s : State,
    (∀ (die slot core w : Nat) (b : BindSlot) (v : Nat × Workgroup), die < 4 → slot < 32 → core < 256 →
      tget (dieOf s die).slots slot = some b → trigger s die slot b = some w → worstOf (victims s die b) = some v →
      v.2.core = core →
      v ∈ victims s die b ∧
      (∀ x ∈ victims s die b, x.2.prio < v.2.prio ∨ (x.2.prio = v.2.prio ∧ x.2.order ≤ v.2.order)) ∧
      ∃ t, exec (.preemptionRequest die slot core) s = .next t ∧
        wgOf t v.1 = { wgOf s v.1 with preempt := true, preemptAt := s.clock, atPoint := stopsAtOnce (wgOf s v.1) } ∧
        (∀ q, (stopsAtOnce (wgOf s v.1)).contains q = (decide (q < (wgOf s v.1).roles.length) &&
          (wgOf s v.1).roles.getD q .general != .matrix && !((wgOf s v.1).det && (wgOf s v.1).roles.contains .matrix))) ∧
        tget (dieOf t die).slots slot = some { b with preemptsFor := b.preemptsFor ++ [w] }) ∧
    (∀ wg : Nat,
      let w := wgOf s wg
      w.st = .running → w.preempt = true → (∃ q < w.roles.length, w.atPoint.contains q = false) →
      (s.clock < w.preemptAt + w.pbound * 2250 → exec (.forcedSave wg) s = .next s) ∧
      (w.preemptAt + w.pbound * 2250 ≤ s.clock → ∃ t, exec (.forcedSave wg) s = .next t ∧
        wgOf t wg = { w with atPoint := List.range w.roles.length, forced := true } ∧ t = { s with wgs := t.wgs })) ∧
    (∀ (wg : Nat) (area : BitVec 52),
      let w := wgOf s wg
      (∀ i ∈ threadsOfWg s wg, (thr s i).posted = []) → saveReady s wg = true → area.toNat % 4096 = 0 → w.cause = 0 →
      ∃ t, exec (.workgroupSave wg area) s = .next t ∧
        wgOf t wg = { w with st := .saved, area := area, leftCore := w.core } ∧
        (∀ b, tget (dieOf s w.die).slots w.slot = some b →
          tget (dieOf t w.die).slots w.slot = some { b with share := w.w :: b.share })) ∧
    (∀ (wg core p : Nat) (cs : List (Nat × BindSlot)) (b : BindSlot), core < 256 →
      let w := wgOf s wg
      w.st = .saved → slipsRun s wg core = false → w.owner = false →
      arbitrate s w.die core = some (p, cs, (w.slot, b)) → b.share.head? = some w.w →
      restoreCore s (wg, w) b = some core →
      ∃ t, exec (.workgroupRestore wg core) s = .next t ∧ (wgOf t wg).core = core ∧ (wgOf t wg).preempt = false ∧
        (wgOf t wg).wdog = readWord s (paLoc s w.area.toNat + 16) ∧
        ((wgOf t wg).st = .running ∨ ((wgOf t wg).st = .stopped ∧
          ((wgOf t wg).cause = cIllegalField ∨ (areaPoisoned s w = true ∧ (wgOf t wg).cause = cPoison)))))

/-- A line fetch fills the instruction cache, a selection sets the gathering, an arriving result reaches its register
and, if it still stands, its latch; a wake goes on exactly when its event has happened; an ungated core records the
first event; a watchdog stops a workgroup at its limit and not before; an uncorrectable error marks exactly the
sector, register, latch or tile named. Rests on 07_lane_engine.md: R140, R153 to R157, 04_instruction_word.md: R73,
R77, 10_lane_faults_translation.md: R258. -/
def Obligations.CoreEvents : Prop :=
  (∀ s : State,
    (∀ (core : Nat) (pc : Pc) (i : Nat) (u : State) (bs : List Byte), core < 256 →
      (liveThreads s core).find? (fun j => lineOf (thr s j).pc == lineOf pc) = some i →
      let key := icacheKey (wgOf s (thr s i).wg).asid.toNat (lineOf pc)
      tget (coreOf s (thr s i).core).icache key = none → fetchMemory s i (lineOf pc) = .ok (u, bs) →
      ∃ t, exec (.lineFetch core pc) s = .next t ∧ t.mem = u.mem ∧
        (coreOf t (thr s i).core).icache = cacheLine (coreOf u (thr s i).core).icache key bs) ∧
    (∀ (core : Nat) (u : State) (g : List Nat), core < 256 → (coreOf s core).gath = [] → (coreOf s core).gated = false →
      choose s core = .ready u g →
      ∃ t, exec (.gatheringSelect core) s = .next t ∧ (coreOf t core).gath = g ∧ t.threads = u.threads) ∧
    (∀ (tid : Nat) (k : BitVec 2) (p : Pend), nextResult s tid k.toNat = some p → p.flag = none →
      let v : Wide := BitVec.ofNat 256 (piecesValue p.pieces)
      ∃ t, exec (.latchResultArrival tid k) s = .next t ∧ t.mem = s.mem ∧
        (thr t tid).pend.length + 1 = (thr s tid).pend.length ∧
        (p.live = true → latchOf (thr t tid) k.toNat = ⟨.valid, p.wide, v, if p.wide then p.tag else 0⟩) ∧
        (∀ n : BitVec 7, n ≠ 0 → p.dst = .reg (.g n) → readG (thr t tid) n.toNat = v.setWidth 64) ∧
        (∀ n : BitVec 5, p.dst = .reg (.v n) → readV (thr t tid) n.toNat = ⟨v, p.tag⟩)) ∧
    (∀ tid : Nat, (thr s tid).wait = none → exec (.threadWake tid) s = .next s) ∧
    (∀ (tid : Nat) (w : Wait), (thr s tid).wait = some w → w.code = 1 → w.paired = false → (thr s tid).nest = [] →
      (wgOf s (tidWg tid)).st = .running → (∀ p ∈ (thr s tid).pend, p.k < 4) → issueMates s tid = [] →
      ((taskOf s w.a.toNat).count ≠ 0 → exec (.threadWake tid) s = .next s) ∧
      ((taskOf s w.a.toNat).count = 0 → ∃ t, exec (.threadWake tid) s = .next t ∧
        thr t tid = { thr s tid with wait := none, undo := none, pc := nextSlot (thr s tid).pc } ∧ t.mem = s.mem)) ∧
    (∀ (core : Nat) (e : Nat × Nat × Word) (rest : List (Nat × Nat × Word)), core < 256 → (coreOf s core).gated = true →
      (coreOf s core).events = e :: rest →
      ∃ t x, exec (.coreUngate core) s = .next t ∧ x ∈ e :: rest ∧
        (∀ y ∈ e :: rest, x.1 < y.1 ∨ (x.1 = y.1 ∧ x.2.1 ≤ y.2.1)) ∧
        (coreOf t core).gated = false ∧ (coreOf t core).events = [] ∧
        (coreOf t core).wakeWhy = BitVec.ofNat 64 (x.1 % 16 + x.2.1 % 8 * 2 ^ 4 + x.2.2.toNat % 2 ^ 56 * 2 ^ 8)) ∧
    (∀ wg : Nat,
      let w := wgOf s wg
      w.st = .running → w.preempt = false → w.wdogLimit ≠ 0 →
      (w.wdog < w.wdogLimit * 1024 → exec (.watchdogExpiry wg) s = .next s) ∧
      (w.wdogLimit * 1024 ≤ w.wdog → ∃ t, exec (.watchdogExpiry wg) s = .next t ∧ (wgOf t wg).st = .stopped ∧
        (wgOf t wg).cause = cWatchdog ∧ t.threads = s.threads))) ∧
  (∀ s : State,
    exec (.eccError .correctable) s = .next s ∧
    (∀ l : Nat, ∃ t, exec (.eccError (.sector l)) s = .next t ∧ t = { s with poison := t.poison } ∧
      ∀ sec, t.poison.contains sec = (sec == l / 32 || s.poison.contains sec)) ∧
    (∀ (tid : Nat) (r : Reg), (tget s.threads tid).isSome = true → threadReg r = true →
      ∃ t, exec (.eccError (.reg tid r)) s = .next t ∧ t = { s with threads := t.threads } ∧
        (∀ j, j ≠ tid → thr t j = thr s j) ∧ thr t tid = { thr s tid with eccRegs := (thr t tid).eccRegs } ∧
        ∀ q, (thr t tid).eccRegs.contains q = (q == r || (thr s tid).eccRegs.contains q)) ∧
    (∀ (tid : Nat) (k : BitVec 2), (tget s.threads tid).isSome = true →
      ∃ t, exec (.eccError (.latch tid k)) s = .next t ∧ t = { s with threads := t.threads } ∧
        (∀ j, j ≠ tid → thr t j = thr s j) ∧ thr t tid = { thr s tid with eccLatches := (thr t tid).eccLatches } ∧
        ∀ q, (thr t tid).eccLatches.contains q = (q == k.toNat || (thr s tid).eccLatches.contains q)) ∧
    (∀ (core : Nat) (n : BitVec 4), core < 256 →
      ∃ t, exec (.eccError (.tile core (.t n))) s = .next t ∧ t = { s with cores := t.cores } ∧
        ∀ q, (coreOf t core).mx.err.contains q = (q == n.toNat || (coreOf s core).mx.err.contains q)) ∧
    (∀ (core : Nat) (n : BitVec 3), core < 256 →
      ∃ t, exec (.eccError (.tile core (.a n))) s = .next t ∧ t = { s with cores := t.cores } ∧
        ∀ q, (coreOf t core).mx.err.contains q = (q == 16 + n.toNat || (coreOf s core).mx.err.contains q)))

/-- The port tells the guest of entries, hands out packets, answers translations inside a window of the current
generation and refuses others, fences on a breach or a missed bound, completes packets once the guest's writes have
performed, parks packets on pre-emption, trains and attests. The clocks of the bounds, and that one reply stands for
PREEMPT and its answer, are the model's choices (log entries 6 and 42). Rests on 25_annex.md: R484 to R494. -/
def Obligations.AnnexSteps : Prop :=
  ∀ s : State,
    (∀ (n : Nat) (q : AxQueue) (s1 : State) (p : Place), n < 64 → q.ring.faulted = false →
      -- the packets of the queue whose outcome is known go on first
      let u := axSettleAll s n
      let v := axServer u q
      let k := (q.known.toNat + 1) % 2 ^ 48
      axQueue u n = some q → freshHead u v q.ring.loc = .due s1 p → hdrPub s1 p.loc ≠ q.known.toNat →
      (overrun s1 p.loc = true → ∃ t y, exec (.annexRingRead n) s = .next t ∧ axQueue t n = some y ∧ y.ring.faulted = true) ∧
      (overrun s1 p.loc = false → s1.annex.st = .opened →
        (∀ s2 ws, ringEntry s1 v q.ring.loc p k = .ok (s2, ws) → axBad ws = false →
          ∃ t, exec (.annexRingRead n) s = .next t ∧ t.mem = s2.mem ∧
            t.annex.out = u.annex.out ++ [.doorbell n (BitVec.ofNat 48 k)] ∧
            axQueue t n = some { q with known := BitVec.ofNat 48 k }) ∧
        (∀ s2, ringEntry s1 v q.ring.loc p k = .error (.waits s2) → exec (.annexRingRead n) s = .next s2))) ∧
    (∀ (n : Nat) (q : AxQueue) (s1 s2 : State) (p : Place) (k : Nat) (ws : List Word), n < 64 → s.annex.st = .opened →
      axQueue s n = some q →
      let v := axServer s q
      ringPlaceOf s v.asid v.priv q.ring.loc = some (s1, p) →
      (q.ring.faulted = true → exec (.guestPacketFetch n) s = .next s) ∧
      (q.ring.faulted = false → axNext s1 n q p.loc (hdrTaken s1 p.loc) q.known.toNat 4097 = some k → k < 2 ^ 48 →
        ringEntry s1 v q.ring.loc p k = .ok (s2, ws) → Memory.wf s2.mem = true → logsMet s2 (p.loc + 8) 8 = [] →
        (p.remote = true ∨ ∃ y, engineLines (dropAsks s2 v.w.owner) p 24 true = .ok y) →
        ∃ t, exec (.guestPacketFetch n) s = .next t ∧ hdrTaken t p.loc = k ∧
          t.annex.out = s.annex.out ++ [.packet n k ws] ∧
          t.annex.packets = s.annex.packets ++ [{ queue := n, k := k, words := ws, parked := false, since := s.clock }])) ∧
    (∀ (n : Nat) (q : AxQueue) (x : AxPacket) (status cause : BitVec 8) (gsub : BitVec 16) (gdw : BitVec 32) (entry : BitVec 48),
      s.annex.st = .opened → axQueue s n = some q →
      s.annex.packets.find? (fun y => y.queue == n && y.k == entry.toNat && !y.parked && y.st == .running) = some x →
      let complete : Instr := .complete n entry status cause gsub gdw false
      let v := axServer s q
      let owner := Owner.packet n x.k
      let ws := axOutcome x.k status.toNat cause.toNat gsub.toNat gdw.toNat
      -- the packet with its outcome, which waits for the guest's writes accepted before
      let b := modPacket s n x.k fun y => { y with st := .ending false ws, behind := s.annex.sent }
      (axStatusOk status.toNat cause.toNat = true →
        (guestWritesOut s (some s.annex.sent) = true → exec complete s = .next b) ∧
        (∀ u w p, guestWritesOut s (some s.annex.sent) = false → ringPlaceOf b v.asid v.priv q.ring.loc = some (u, p) →
          inFlight u owner = false → putRecord u v (axWriter q.context owner) p x.k ws = some w → inFlight w owner = false →
          ∃ t, exec complete s = .next t ∧ t.annex.st = .opened ∧ ∀ y ∈ t.annex.packets, ¬ (y.queue = n ∧ y.k = x.k))) ∧
      (axStatusOk status.toNat cause.toNat = false → ∃ t, exec complete s = .next t ∧ t.annex.st = .fenced ∧
        t.annex.granted = [])) ∧
    (∀ (asid gen : BitVec 16) (va : Word), s.annex.st = .opened →
      (axWindow s asid va.toNat = none → ∃ t, exec (.translate asid gen va) s = .next t ∧ t = { s with annex := t.annex } ∧
        t.annex.out = s.annex.out ++ [.refusal asid gen va cProtection] ∧ t.annex.granted = s.annex.granted) ∧
      (∀ wr, axWindow s asid va.toNat = some wr → (spaceEntry s asid.toNat).gen ≠ gen →
        ∃ t, exec (.translate asid gen va) s = .next t ∧ t = { s with annex := t.annex } ∧
          t.annex.out = s.annex.out ++ [.refusal asid gen va cTlbGen]) ∧
      (∀ wr u x, axWindow s asid va.toNat = some wr → (spaceEntry s asid.toNat).gen = gen →
        translate s asid.toNat (axPriv s asid) va.toNat .rd false = .ok (u, x) → guestBarred u x.pa = false →
        ∃ t g, exec (.translate asid gen va) s = .next t ∧ t.mem = u.mem ∧ t.annex.granted = u.annex.granted ++ [g] ∧
          g.asid = asid ∧ g.gen = gen ∧ g.pa = leafBase x.leaf ∧ g.w = (wr && leafW x.leaf))) ∧
    (∀ (asid gen : BitVec 16) (c : Nat), s.annex.inval.find? (fun e => e.1 == asid) = some (asid, gen, c) →
      ∃ t, exec (.invalAck asid) s = .next t ∧ t = { s with annex := t.annex } ∧
        t.annex.inval = s.annex.inval.erase (asid, gen, c) ∧
        ∀ g ∈ t.annex.granted, g ∈ s.annex.granted ∧ (g.asid = asid → g.gen = gen)) ∧
    (∀ context : Nat, s.annex.st = .opened → ctxPreempted s context = true →
      ∃ t, exec (.preemptReply context true) s = .next t ∧ t = { s with annex := t.annex } ∧
        ∀ p ∈ t.annex.packets, axPacketCtx s p = context → p.st = .running → p.parked = true) ∧
    (∀ (m : GuestMsg) (pa : BitVec 52) (data : List Byte) (poisoned : Bool), s.annex.st = .opened →
      let base := 64 * (pa.toNat / 64)
      let granted := s.annex.granted.find? fun g => g.pa ≤ base && base < g.pa + g.size && (g.w || !guestWrite m)
      (guestEvent m = none ∨ granted = none → ∃ t, exec (.guestCacheMessage m pa data poisoned) s = .next t ∧
        t.annex.st = .fenced) ∧
      (∀ g u, m = .rdShared ∨ m = .rdCurr ∨ m = .rdOwn → granted = some g → isRemote s base = false →
        guestBarred s base = false →
        lineAccess s (some holderG) base g.range (m == .rdOwn) = .ok u →
        ∃ t, exec (.guestCacheMessage m pa data poisoned) s = .next t ∧ t.mem = s.mem ∧ t.coh = u.coh ∧
          t.annex.out = s.annex.out ++ [.data (BitVec.ofNat 52 base) (loadBytes u (paLoc u base) 64) (Machine.poisoned u (paLoc u base) 64)])) ∧
    (let late := (∃ e ∈ s.annex.inval, e.2.2 + 4500 < s.clock) ∨
       ∃ p ∈ s.annex.packets, p.parked = false ∧ p.st = .running ∧ p.since + 225000000 < s.clock
     (¬ late → exec .annexBoundExpiry s = .next s) ∧
     (late → s.annex.st = .opened → ∃ t, exec .annexBoundExpiry s = .next t ∧ t.annex.st = .fenced)) ∧
    (∀ modules : BitVec 8, s.annex.st = .untrained → modules ≠ 0 →
      exec (.annexTraining modules false) s = .next s ∧
      ∃ t, exec (.annexTraining modules true) s = .next t ∧
        t = { s with annex := { s.annex with st := .closed, modules := modules } }) ∧
    (∀ identity measurement signature : List Byte, s.annex.st = .closed →
      (Config.guestListed s.module.image identity measurement = false ∨ Config.guestSigned identity measurement signature = false →
        exec (.guestAttest identity measurement signature) s = .next s) ∧
      (Config.guestListed s.module.image identity measurement = true → Config.guestSigned identity measurement signature = true →
        ∃ t, exec (.guestAttest identity measurement signature) s = .next t ∧
          t = { s with annex := { s.annex with st := .opened, identity := identity, measurement := measurement } }))

/-- Power-up brings the rails up in order or holds the dies; power-down and a rail fault reset the module; the boot
chain stops at the step that fails or goes on to 5 and 7; a signed replacement waits for the next reset; MODID is
written once; register writes reach the mailbox; a host write stores its bytes and no others. Rests on
27_module_bringup.md: R513 to R523, 06_dispatch_engine.md: R135, 10_lane_faults_translation.md: R259. -/
def Obligations.ModuleSteps : Prop :=
  ∀ s : State,
    (s.module.rails = [] →
      (∃ t, exec (.powerUp none) s = .next t ∧ t.module.rails = [.vaux, .vio, .vsram, .vcore, .vddq] ∧ t.mem = [] ∧
        t.wgs = [] ∧ t.threads = [] ∧ t.contexts = [] ∧ t.module.held = false) ∧
      ∀ r, ∃ t, exec (.powerUp (some r)) s = .next t ∧ t.module.held = true ∧ r ∉ t.module.rails ∧
        ∀ d < 4, (dieOf t d).bootstat.toNat % 256 = 0x81) ∧
    (∃ t, exec .powerDown s = .next t ∧ t.module.rails = [] ∧ t.mem = [] ∧ t.wgs = []) ∧
    (∀ overheat : Bool, s.module.rails ≠ [] → ∃ t, exec (.railFault overheat) s = .next t ∧ t.module.hostError = true ∧
      t.mem = [] ∧ t.wgs = [] ∧ t.threads = []) ∧
    (∀ on : Bool, exec (.throttle on) s = .next { s with module := { s.module with throttled := on } }) ∧
    (∀ b : BootInput, s.module.rails = [.vaux, .vio, .vsram, .vcore, .vddq] → s.module.held = false → bootCode s ≤ 1 →
      s.module.booted = false → (dieOf s 0).modid.getLsbD 10 = false →
      let image := if s.module.nextImage = [] then b.image else s.module.nextImage
      let ends (code : Nat) : Prop := ∃ t, exec (.bootChain b) s = .next t ∧ ∀ d < 4, (dieOf t d).bootstat.toNat % 256 = code
      (Config.imageSigned image = false → ends 0x82) ∧
      (Config.imageSigned image = true →
        (b.memoryOk = false → ends 0x83) ∧
        (b.memoryOk = true → b.pcie0Ok = false → ends 0x85) ∧
        (b.memoryOk = true → b.pcie0Ok = true → ends 0x05))) ∧
    (∀ b : BootInput, s.module.rails = [.vaux, .vio, .vsram, .vcore, .vddq] → s.module.held = false → bootCode s = 5 →
      (dieOf s 0).modid.getLsbD 10 = true → b.dupPorts = [] →
      ∃ t, exec (.bootChain b) s = .next t ∧ (∀ d < 4, (dieOf t d).bootstat.toNat % 256 = 7) ∧ ∀ p < 16, (portOf t p).up = true) ∧
    (∀ image : List Byte,
      (s.module.recovery = true → Config.imageSigned image = true → ∃ t, exec (.firmwareReplacement image) s = .next t ∧
        t = { s with module := { s.module with nextImage := image } }) ∧
      (s.module.recovery = false ∨ Config.imageSigned image = false → exec (.firmwareReplacement image) s = .next s)) ∧
    (∀ (die : Nat) (value : Word), die < 4 →
      ((dieOf s 0).modid.getLsbD 10 = true → exec (.modidWrite die value) s = .next s) ∧
      ((dieOf s 0).modid.getLsbD 10 = false → ∃ t, exec (.modidWrite die value) s = .next t ∧ t = { s with dies := t.dies } ∧
        ∀ d < 4, (dieOf t d).modid = BitVec.ofNat 11 (1024 + value.toNat % 1024))) ∧
    (∀ (die off : Nat) (value : Word), die < 4 →
      (off % 8 ≠ 0 → exec (.registerWrite die off value) s = .next s) ∧
      (off = 8 ∨ off = 0x10 ∨ off = 0x148 → exec (.registerWrite die off value) s = .next s) ∧
      (∀ i, i < 8 → off = 0x100 + 8 * i → (dieOf s die).mbox.cmd.length = 8 →
        ∃ t, exec (.registerWrite die off value) s = .next t ∧ t = { s with dies := t.dies } ∧
          (dieOf t die).mbox.cmd.getD i 0 = if i = 0 then BitVec.ofNat 64 (value.toNat % 2 ^ 32) else value) ∧
      (off = 0x140 → (dieOf s die).mbox.pending = none →
        (BitVec.ofNat 16 value.toNat = BitVec.ofNat 16 ((dieOf s die).mbox.stat.toNat % 2 ^ 16 + 1) →
          ∃ t, exec (.registerWrite die off value) s = .next t ∧
            (dieOf t die).mbox.pending = some (BitVec.ofNat 16 value.toNat, .host)) ∧
        (BitVec.ofNat 16 value.toNat ≠ BitVec.ofNat 16 ((dieOf s die).mbox.stat.toNat % 2 ^ 16 + 1) →
          ∃ t, exec (.registerWrite die off value) s = .next t ∧ (dieOf t die).mbox.pending = none))) ∧
    (∀ die : Nat, die < 4 → ∃ t, exec (.noticeAcknowledge die) s = .next t ∧
      t = { s with dies := t.dies, coh := t.coh } ∧
      (dieOf t die).notices = (dieOf s die).notices.drop 1) ∧
    (∀ (pa : BitVec 52) (data : List Byte) (size : Nat), data.length = size → 0 < size → isRemote s pa.toNat = false →
      reservedCells s (paLoc s pa.toNat) size = false → windowOf s pa.toNat = none → Memory.wf s.mem = true →
      (∀ e ∈ s.wgs, e.2.txs = []) → (∃ u, hostLines s (hostHolder s .host) pa.toNat size true = .ok u) →
      ∃ t, exec (.hostAccess .host true pa size data false) s = .next t ∧ readBytes t (paLoc s pa.toNat) size = data ∧
        ∀ l, l < paLoc s pa.toNat ∨ paLoc s pa.toNat + size ≤ l → Memory.get t.mem l = Memory.get s.mem l)

/-- Each command with legal operands has its effect and writes MBSTAT with cause 0 and its detail; a CTXNEW of an
existing context is refused with PROTECTION, an unlisted or unverified table with TABLE_REJECT, an unknown command
with ILLEGAL_FIELD, and a command that must wait does nothing yet. Where two refusals apply, and what a reset of the
guest leaves, are the model's choices (log entry 17). Rests on 27_module_bringup.md: R523 to R527,
20_concordance_tables.md: R420 to R423. -/
def Obligations.MailboxCommands : Prop :=
  ∀ (s : State) (die : Nat) (seq : BitVec 16) (by_ : Issuer),
    let w (i : Nat) : Nat := mbCmd s die i
    let ctx := mbContext s die
    let runs (opc : Nat) (home : Option Nat) (words data : Nat) : Prop := Commands s die seq by_ opc home words data
    let known : Prop := (tget s.contexts ctx).isSome = true
    (runs 0x01 (some 0) 5 0 → w 1 < 2 ^ 30 → w 1 % 2 ^ 12 ≠ 0 → w 2 < 2 ^ 52 → w 2 % 32 = 0 → 4 ≤ w 3 → w 3 ≤ 12 →
      w 4 < 2 ^ 52 → w 4 % 16 = 0 →
      (tget s.contexts (w 1 % 2 ^ 12) = none → Replied (.ctxnew die seq by_) s die seq 0 0 fun t =>
        tget t.contexts (w 1 % 2 ^ 12) =
          some ⟨BitVec.ofNat 16 (bits (w 1) 27 12), bit (w 1) 28, bit (w 1) 29, w 2, w 3, w 4⟩) ∧
      ((tget s.contexts (w 1 % 2 ^ 12)).isSome = true →
        Replied (.ctxnew die seq by_) s die seq cProtection.toNat 0 fun t => t.contexts = s.contexts)) ∧
    (runs 0x02 (some 0) 2 0 → w 1 = ctx → known →
      (contextIdle s ctx = true → Replied (.ctxend die seq by_) s die seq 0 0 fun t => t.contexts = tdel s.contexts ctx) ∧
      (contextIdle s ctx = false → exec (.ctxend die seq by_) s = .next s)) ∧
    (runs 0x03 (some 0) 3 0 → w 1 < 2 ^ 16 → w 2 < 2 ^ 52 → w 2 % 2 ^ 20 = 0 →
      Replied (.asset die seq by_) s die seq 0 0 fun t =>
        spaceEntry t (w 1) = { spaceEntry s (w 1) with root := some (w 2) }) ∧
    (runs 0x04 none 3 0 → w 1 < 16 → w 2 < 2 ^ 52 → w 2 % 64 = 0 → homeDie (w 2) = die → isRemote s (w 2) = false →
      Replied (.lqreg die seq by_) s die seq 0 0 fun t => tget (dieOf t die).queues (w 1) = some ⟨w 2, false⟩) ∧
    (runs 0x05 none 2 0 → w 1 < 16 →
      Replied (.lqfree die seq by_) s die seq 0 0 fun t => (dieOf t die).queues = tdel (dieOf s die).queues (w 1)) ∧
    (runs 0x06 none 4 0 → w 1 = ctx → known → w 3 = 0 →
      (∀ q x cause sub addr idx, parkedRun s ctx (BitVec.ofNat 64 (w 2)) = some (q, x) → x.st = .parked cause sub addr idx →
        Replied (.freply die seq by_) s die seq 0 0 fun t =>
          tgetD (quadOf t q).chans (copyChan x.words) [] = (tgetD (quadOf s q).chans (copyChan x.words) []).map fun y =>
            if y.hdr == x.hdr && y.core == x.core && y.k == x.k then { y with st := .running } else y) ∧
      (parkedRun s ctx (BitVec.ofNat 64 (w 2)) = none → ∀ q x, parkedSlip s ctx (BitVec.ofNat 64 (w 2)) = some (q, x) →
        Replied (.freply die seq by_) s die seq 0 0 fun t =>
          (quadOf t q).slips = (quadOf s q).slips.map fun y =>
            if y.ring == x.ring && y.k == x.k && y.wg == x.wg then { y with st := .queued, step := 0 } else y) ∧
      (replyTo s ctx (BitVec.ofNat 64 (w 2)) false = none →
        Replied (.freply die seq by_) s die seq cIllegalField.toNat 0 fun t => t.quads = s.quads)) ∧
    (runs 0x07 none 6 0 → w 1 / 64 = ctx → ctx < 2 ^ 12 → known → w 2 < 2 ^ 42 → 1000 ≤ w 3 → w 3 ≤ 60000000 → w 4 < 2 ^ 16 →
      w 5 < 2 ^ 56 → w 5 % 64 = 0 → tget (dieOf s die).pairs (w 1 % 64) = none →
      Replied (.qpbind die seq by_) s die seq 0 0 fun t => tget (dieOf t die).pairs (w 1 % 64) =
        some ⟨ctx, BitVec.ofNat 32 (w 2), bits (w 2) 41 32 + 1, w 3, BitVec.ofNat 16 (w 4),
          ⟨.global ctx (BitVec.ofNat 64 (w 5)), 0, [], false⟩, []⟩) ∧
    (runs 0x08 none 3 0 → w 1 / 64 = ctx → ctx < 2 ^ 12 → known → w 2 < 2 ^ 56 → w 2 % 64 = 0 →
      tget (dieOf s die).cardRings (w 1 % 64) = none →
      Replied (.cardbind die seq by_) s die seq 0 0 fun t => tget (dieOf t die).cardRings (w 1 % 64) =
        some ⟨ctx, ⟨.global ctx (BitVec.ofNat 64 (w 2)), 0, [], false⟩⟩) ∧
    (runs 0x09 (some 1) 4 0 → w 1 / 64 = ctx → ctx < 2 ^ 12 → known → w 2 < 2 ^ 56 → w 2 % 64 = 0 → w 3 = 0 →
      tget s.annex.queues (w 1 % 64) = none →
      Replied (.axbind die seq by_) s die seq 0 0 fun t => ∃ q, tget t.annex.queues (w 1 % 64) = some q ∧ q.context = ctx ∧
        q.windows = [] ∧ q.ring = ⟨.global ctx (BitVec.ofNat 64 (w 2)), 0, [], false⟩) ∧
    (runs 0x0A none 2 0 → w 1 < 2 ^ 8 → w 1 % 4 = 0 → ∀ p, tget (dieOf s die).pairs (w 1 / 4) = some p → p.context = ctx →
      (ringIdle s p.ring = true → Replied (.unbind die seq by_) s die seq 0 0 fun t =>
        (dieOf t die).pairs = tdel (dieOf s die).pairs (w 1 / 4)) ∧
      (ringIdle s p.ring = false → exec (.unbind die seq by_) s = .next s)) ∧
    (runs 0x0B (some 0) 3 0 → w 1 < 64 → w 2 < 2 ^ 8 → bits (w 2) 5 4 = 0 →
      (∀ t, tableOf s (w 2 % 16) = some t → propMismatch t (bit (w 2) 6) = none →
        Replied (.rbind die seq by_) s die seq 0 0 fun u => rangeDesc u (w 1) = w 2) ∧
      (∀ t e, tableOf s (w 2 % 16) = some t → propMismatch t (bit (w 2) 6) = some e →
        Replied (.rbind die seq by_) s die seq cTableReject.toNat (e.detail (w 1) % 2 ^ 32) fun u => u.coh = s.coh)) ∧
    (runs 0x0C (some 0) 3 0 → 5 ≤ w 1 → w 1 < 16 → w 2 < 2 ^ 52 → w 2 % 64 = 0 → slotNamed s (w 1) = false →
      let img := imageTable (readBytes s (paLoc s (w 2)) 576)
      ((Config.manifestHashes s.module.image).contains img.1.hash = false →
        Replied (.tload die seq by_) s die seq cTableReject.toNat 0 fun u => u.coh = s.coh) ∧
      ((Config.manifestHashes s.module.image).contains img.1.hash = true →
        (verify img.1 img.2 = none → Replied (.tload die seq by_) s die seq 0 0 fun u =>
          tget u.coh.tables (w 1) = some img.1) ∧
        ∀ e, verify img.1 img.2 = some e → Replied (.tload die seq by_) s die seq cTableReject.toNat (e.detail 0 % 2 ^ 32)
          fun u => u.coh = s.coh)) ∧
    (runs 0x0D (some 0) 1 32 → Memory.wf s.mem = true →
      let body := reportBody s (readBytes s (mbdataLoc die 0) 32)
      let report := body ++ fieldBytes 3309 (Config.attestSign body)
      Replied (.attest die seq by_) s die seq 0 (report.length % 2 ^ 32) fun t =>
        readBytes t (mbdataLoc die 0) report.length = report) ∧
    (runs 0x0E (some 1) 1 0 → s.annex.st = .closed ∨ s.annex.st = .fenced →
      Replied (.greset die seq by_) s die seq 0 0 fun t => t.annex.st = .closed ∧ t.annex.queues = [] ∧ t.annex.packets = [] ∧
        t.annex.granted = []) ∧
    (∀ opc, (opc = 0 ∨ 0x0E < opc) → die < 4 → s.module.booted = true → (dieOf s die).mbox.pending = some (seq, by_) →
      mbOpc s die = opc →
      Replied (.unknownMailboxCommand die seq by_) s die seq cIllegalField.toNat 0 fun t => t.mem = s.mem ∧ t.contexts = s.contexts)
end

