-- ==== Sys2Proof/Laws/Tables.lean ====
section
/-! SUPPORT. Laws of the sparse tables: what a lookup answers after a write or a removal. -/

namespace Sys2Proof.Machine

/-- A lookup after a write answers the written value at its key and the old one elsewhere. -/
theorem tget_tset {α : Type} (m : FMap α) (k j : Nat) (a : α) :
    tget (tset m k a) j = if k = j then some a else tget m j := by
  induction m with
  | nil => by_cases h : k = j <;> simp [tset, tget, h]
  | cons e rest ih =>
    obtain ⟨i, b⟩ := e
    by_cases h1 : i = k
    · subst h1
      by_cases h2 : i = j <;> simp [tset, tget, h2]
    · by_cases h2 : k < i
      · have e : tset ((i, b) :: rest) k a = (k, a) :: (i, b) :: rest := by simp [tset, h1, h2]
        rw [e]
        by_cases h3 : k = j <;> simp [tget, h3]
      · by_cases h3 : i = j
        · subst h3
          simp [tset, tget, h1, h2, Ne.symm h1]
        · simp [tset, tget, h1, h2, h3, ih]

/-- The same with a default. -/
theorem tgetD_tset {α : Type} (m : FMap α) (k j : Nat) (a d : α) :
    tgetD (tset m k a) j d = if k = j then a else tgetD m j d := by
  by_cases h : k = j <;> simp [tgetD, tget_tset, h]

@[simp] theorem tgetD_tset_self {α : Type} (m : FMap α) (k : Nat) (a d : α) : tgetD (tset m k a) k d = a := by
  simp [tgetD_tset]

@[simp] theorem tget_tset_self {α : Type} (m : FMap α) (k : Nat) (a : α) : tget (tset m k a) k = some a := by
  simp [tget_tset]

/-- A write at one key leaves every other key alone. -/
theorem tgetD_tset_ne {α : Type} (m : FMap α) {k j : Nat} (a d : α) (h : k ≠ j) : tgetD (tset m k a) j d = tgetD m j d := by
  simp [tgetD_tset, h]

/-- A removal leaves every other key alone. -/
theorem tget_tdel_ne {α : Type} (m : FMap α) {k j : Nat} (h : k ≠ j) : tget (tdel m k) j = tget m j := by
  induction m with
  | nil => rfl
  | cons e rest ih =>
    obtain ⟨i, b⟩ := e
    by_cases h1 : i = k
    · subst h1
      simp [tdel, tget, h]
    · have e : tdel ((i, b) :: rest) k = (i, b) :: tdel rest k := by simp [tdel, h1]
      rw [e]
      by_cases h3 : i = j <;> simp [tget, h3, ih]

/-! ### Units after a write -/

theorem thr_setThr (s : State) (i j : Nat) (t : Thread) : thr (setThr s i t) j = if i = j then t else thr s j := by
  simp [thr, setThr, tgetD_tset]

theorem thr_modThr (s : State) (i j : Nat) (f : Thread → Thread) :
    thr (modThr s i f) j = if i = j then f (thr s i) else thr s j := by simp [modThr, thr_setThr]

theorem wgOf_setWg (s : State) (i j : Nat) (w : Workgroup) : wgOf (setWg s i w) j = if i = j then w else wgOf s j := by
  simp [wgOf, setWg, tgetD_tset]

theorem wgOf_modWg (s : State) (i j : Nat) (f : Workgroup → Workgroup) :
    wgOf (modWg s i f) j = if i = j then f (wgOf s i) else wgOf s j := by simp [modWg, wgOf_setWg]

theorem coreOf_setCore (s : State) (i j : Nat) (x : Core) : coreOf (setCore s i x) j = if i = j then x else coreOf s j := by
  simp [coreOf, setCore, tgetD_tset]

theorem coreOf_modCore (s : State) (i j : Nat) (f : Core → Core) :
    coreOf (modCore s i f) j = if i = j then f (coreOf s i) else coreOf s j := by simp [modCore, coreOf_setCore]

theorem quadOf_setQuad (s : State) (i j : Nat) (x : Quad) : quadOf (setQuad s i x) j = if i = j then x else quadOf s j := by
  simp [quadOf, setQuad, tgetD_tset]

theorem quadOf_modQuad (s : State) (i j : Nat) (f : Quad → Quad) :
    quadOf (modQuad s i f) j = if i = j then f (quadOf s i) else quadOf s j := by simp [modQuad, quadOf_setQuad]

theorem dieOf_setDie (s : State) (i j : Nat) (x : Die) : dieOf (setDie s i x) j = if i = j then x else dieOf s j := by
  simp [dieOf, setDie, tgetD_tset]

theorem dieOf_modDie (s : State) (i j : Nat) (f : Die → Die) :
    dieOf (modDie s i f) j = if i = j then f (dieOf s i) else dieOf s j := by simp [modDie, dieOf_setDie]

theorem portOf_setPort (s : State) (i j : Nat) (x : Port) : portOf (setPort s i x) j = if i = j then x else portOf s j := by
  simp [portOf, setPort, tgetD_tset]

theorem portOf_modPort (s : State) (i j : Nat) (f : Port → Port) :
    portOf (modPort s i f) j = if i = j then f (portOf s i) else portOf s j := by simp [modPort, portOf_setPort]

end Sys2Proof.Machine
end

