-- ==== Sys2Proof/Laws/Memory.lean ====
section
/-! SUPPORT. Laws of memory: a read after a write, and that every write keeps the canonical form. -/

namespace Sys2Proof.Machine

/-! ### The canonical form -/

theorem Memory.wfFrom_mono {m : Memory} {j k : Nat} (h : Memory.wfFrom m k = true) (hjk : j ≤ k) :
    Memory.wfFrom m j = true := by
  cases m with
  | nil => rfl
  | cons e rest =>
    obtain ⟨a, b⟩ := e
    simp only [Memory.wfFrom, Bool.and_eq_true, decide_eq_true_eq] at h ⊢
    exact ⟨⟨by omega, h.1.2⟩, h.2⟩

/-- Every location below the form's bound reads blank. -/
theorem Memory.get_below {m : Memory} {k a : Nat} (h : Memory.wfFrom m k = true) (ha : a < k) :
    Memory.get m a = Memory.blank := by
  induction m generalizing k with
  | nil => rfl
  | cons e rest ih =>
    obtain ⟨j, b⟩ := e
    simp only [Memory.wfFrom, Bool.and_eq_true, decide_eq_true_eq] at h
    have hj : j ≠ a := by omega
    simp only [Memory.get, beq_iff_eq, if_neg hj]
    exact ih h.2 (by omega)

/-- A write of one byte keeps the form. -/
theorem Memory.wfFrom_set {m : Memory} {k a : Nat} (v : Byte) (h : Memory.wfFrom m k = true) (hk : k ≤ a) :
    Memory.wfFrom (Memory.set m a v) k = true := by
  induction m generalizing k with
  | nil =>
    by_cases hv : v = Memory.blank <;> simp [Memory.set, Memory.wfFrom, hv, hk]
  | cons e rest ih =>
    obtain ⟨j, b⟩ := e
    simp only [Memory.wfFrom, Bool.and_eq_true, decide_eq_true_eq] at h
    by_cases h1 : j = a
    · subst h1
      by_cases hv : v = Memory.blank
      · simpa [Memory.set, hv] using Memory.wfFrom_mono h.2 (by omega)
      · simp [Memory.set, Memory.wfFrom, hv, h.2, hk]
    · by_cases h2 : a < j
      · by_cases hv : v = Memory.blank
        · simp [Memory.set, Memory.wfFrom, hv, h1, h2, h.1.1, h.1.2, h.2]
        · have : a + 1 ≤ j := by omega
          simp [Memory.set, Memory.wfFrom, hv, h1, h2, hk, this, h.1.2, h.2]
      · have := ih h.2 (by omega : j + 1 ≤ a)
        simp [Memory.set, Memory.wfFrom, h1, h2, h.1.1, h.1.2, this]

theorem Memory.wf_set {m : Memory} (a : Nat) (v : Byte) (h : Memory.wf m = true) : Memory.wf (Memory.set m a v) = true :=
  Memory.wfFrom_set v h (Nat.zero_le a)

theorem Memory.wf_setList {m : Memory} (a : Nat) (bs : List Byte) (h : Memory.wf m = true) :
    Memory.wf (Memory.setList m a bs) = true := by
  induction bs generalizing m a with
  | nil => exact h
  | cons b rest ih => exact ih (a + 1) (Memory.wf_set a b h)

/-! ### Reading after writing -/

/-- A write leaves every other location alone. -/
theorem Memory.get_set_ne (m : Memory) {a b : Nat} (v : Byte) (h : a ≠ b) : Memory.get (Memory.set m a v) b = Memory.get m b := by
  induction m with
  | nil => by_cases hv : v = Memory.blank <;> simp [Memory.set, Memory.get, hv, h]
  | cons e rest ih =>
    obtain ⟨j, c⟩ := e
    by_cases h1 : j = a
    · subst h1
      by_cases hv : v = Memory.blank <;> simp [Memory.set, Memory.get, hv, h]
    · by_cases h2 : a < j
      · by_cases hv : v = Memory.blank <;> simp [Memory.set, Memory.get, hv, h1, h2, h]
      · have e : Memory.set ((j, c) :: rest) a v = (j, c) :: Memory.set rest a v := by simp [Memory.set, h1, h2]
        rw [e]
        by_cases h3 : j = b <;> simp [Memory.get, h3, ih]

theorem Memory.get_setFrom {m : Memory} {k a : Nat} (v : Byte) (h : Memory.wfFrom m k = true) (hk : k ≤ a) :
    Memory.get (Memory.set m a v) a = v := by
  induction m generalizing k with
  | nil => by_cases hv : v = Memory.blank <;> simp [Memory.set, Memory.get, hv]
  | cons e rest ih =>
    obtain ⟨j, b⟩ := e
    simp only [Memory.wfFrom, Bool.and_eq_true, decide_eq_true_eq] at h
    by_cases h1 : j = a
    · subst h1
      by_cases hv : v = Memory.blank
      · simpa [Memory.set, hv] using Memory.get_below h.2 (by omega)
      · simp [Memory.set, Memory.get, hv]
    · by_cases h2 : a < j
      · by_cases hv : v = Memory.blank
        · have : Memory.get rest a = Memory.blank := Memory.get_below h.2 (by omega)
          simp [Memory.set, Memory.get, hv, h1, h2, this]
        · simp [Memory.set, Memory.get, hv, h1, h2]
      · simpa [Memory.set, Memory.get, h1, h2] using ih h.2 (by omega)

/-- A read after a write to the same location gives the value written. -/
theorem Memory.get_set_self {m : Memory} (a : Nat) (v : Byte) (h : Memory.wf m = true) :
    Memory.get (Memory.set m a v) a = v := Memory.get_setFrom v h (Nat.zero_le a)

/-- Bytes written at rising locations leave every location outside them alone. -/
theorem Memory.get_setList_out (m : Memory) {a b : Nat} (bs : List Byte) (h : b < a ∨ a + bs.length ≤ b) :
    Memory.get (Memory.setList m a bs) b = Memory.get m b := by
  induction bs generalizing m a with
  | nil => rfl
  | cons x rest ih =>
    simp only [List.length_cons] at h
    rw [Memory.setList, ih _ (by omega), Memory.get_set_ne _ _ (by omega)]

/-- Bytes written at rising locations read back. -/
theorem Memory.get_setList_in {m : Memory} {a i : Nat} (bs : List Byte) (hm : Memory.wf m = true) (h : i < bs.length) :
    Memory.get (Memory.setList m a bs) (a + i) = bs[i] := by
  induction bs generalizing m a i with
  | nil => simp at h
  | cons x rest ih =>
    cases i with
    | zero => rw [Memory.setList, Memory.get_setList_out _ _ (by omega)]; simpa using Memory.get_set_self a x hm
    | succ i =>
      have := ih (m := Memory.set m a x) (a := a + 1) (i := i) (Memory.wf_set a x hm) (by simpa using h)
      rw [Memory.setList, List.getElem_cons_succ, ← this]
      congr 1
      omega

/-- A run of cells written and read back. -/
theorem Memory.getList_setList {m : Memory} (a : Nat) (bs : List Byte) (hm : Memory.wf m = true) :
    Memory.getList (Memory.setList m a bs) a bs.length = bs := by
  apply List.ext_getElem
  · simp [Memory.getList]
  · intro i h1 h2
    simpa [Memory.getList] using Memory.get_setList_in bs hm h2

/-! ### The operations on State -/

theorem writeBytes_wf {s : State} (l : Nat) (bs : List Byte) (h : Memory.wf s.mem = true) :
    Memory.wf (writeBytes s l bs).mem = true := Memory.wf_setList l bs h

theorem writeNat_wf {s : State} (l n v : Nat) (h : Memory.wf s.mem = true) : Memory.wf (writeNat s l n v).mem = true :=
  writeBytes_wf l _ h

theorem writeWord_wf {s : State} (l v : Nat) (h : Memory.wf s.mem = true) : Memory.wf (writeWord s l v).mem = true :=
  writeNat_wf l 8 v h

/-- The reset state's memory is in canonical form. -/
theorem reset_mem_wf : Memory.wf State.reset.mem = true := rfl

/-- Bytes written read back. -/
theorem readBytes_writeBytes {s : State} (l : Nat) (bs : List Byte) (h : Memory.wf s.mem = true) :
    readBytes (writeBytes s l bs) l bs.length = bs := Memory.getList_setList l bs h

/-- Bytes written leave every cell outside them alone. -/
theorem get_writeBytes_out (s : State) {l b : Nat} (bs : List Byte) (h : b < l ∨ l + bs.length ≤ b) :
    Memory.get (writeBytes s l bs).mem b = Memory.get s.mem b := Memory.get_setList_out s.mem bs h

theorem leNat_leBytes (n v : Nat) : leNat (leBytes n v) = v % 2 ^ (8 * n) := by
  induction n generalizing v with
  | zero => simp [leBytes, leNat, Nat.mod_one]
  | succ n ih =>
    have hsplit : leBytes (n + 1) v = BitVec.ofNat 8 v :: leBytes n (v / 256) := by
      unfold leBytes
      rw [List.range_succ_eq_map]
      simp only [List.map_cons, Nat.mul_zero, Nat.pow_zero, Nat.div_one, List.map_map, List.cons.injEq, true_and]
      apply List.map_congr_left
      intro i _
      have hp : (2 : Nat) ^ (8 * (i + 1)) = 256 * 2 ^ (8 * i) := by rw [Nat.mul_succ, Nat.pow_add, Nat.mul_comm]
      simp only [Function.comp_apply, hp, Nat.div_div_eq_div_mul]
    rw [hsplit, leNat, ih, BitVec.toNat_ofNat, show 8 * (n + 1) = 8 + 8 * n by omega, Nat.pow_add,
      show (2 : Nat) ^ 8 = 256 by norm_num, Nat.mod_mul]

/-- A doubleword written reads back modulo 2^64. -/
theorem readWord_writeWord {s : State} (l v : Nat) (h : Memory.wf s.mem = true) :
    readWord (writeWord s l v) l = v % 2 ^ 64 := by
  have hl : (leBytes 8 v).length = 8 := by simp [leBytes]
  have := readBytes_writeBytes l (leBytes 8 v) h
  rw [hl] at this
  rw [readWord, readNat, writeWord, writeNat, this, leNat_leBytes]

end Sys2Proof.Machine
end

