-- ==== Sys2Proof/Laws/State.lean ====
section
/-! SUPPORT. What each update of the state leaves alone, one lemma a field, and the field it changes. -/

namespace Sys2Proof.Machine

/-! ### setThr -/

@[simp] theorem setThr_schedule (s : State) (i : Nat) (x : Thread) : (setThr s i x).schedule = s.schedule := rfl
@[simp] theorem setThr_delays (s : State) (i : Nat) (x : Thread) : (setThr s i x).delays = s.delays := rfl
@[simp] theorem setThr_clock (s : State) (i : Nat) (x : Thread) : (setThr s i x).clock = s.clock := rfl
@[simp] theorem setThr_cur (s : State) (i : Nat) (x : Thread) : (setThr s i x).cur = s.cur := rfl
@[simp] theorem setThr_issue (s : State) (i : Nat) (x : Thread) : (setThr s i x).issue = s.issue := rfl
@[simp] theorem setThr_draws (s : State) (i : Nat) (x : Thread) : (setThr s i x).draws = s.draws := rfl
@[simp] theorem setThr_mem (s : State) (i : Nat) (x : Thread) : (setThr s i x).mem = s.mem := rfl
@[simp] theorem setThr_poison (s : State) (i : Nat) (x : Thread) : (setThr s i x).poison = s.poison := rfl
@[simp] theorem setThr_wgs (s : State) (i : Nat) (x : Thread) : (setThr s i x).wgs = s.wgs := rfl
@[simp] theorem setThr_nextWg (s : State) (i : Nat) (x : Thread) : (setThr s i x).nextWg = s.nextWg := rfl
@[simp] theorem setThr_cores (s : State) (i : Nat) (x : Thread) : (setThr s i x).cores = s.cores := rfl
@[simp] theorem setThr_quads (s : State) (i : Nat) (x : Thread) : (setThr s i x).quads = s.quads := rfl
@[simp] theorem setThr_dies (s : State) (i : Nat) (x : Thread) : (setThr s i x).dies = s.dies := rfl
@[simp] theorem setThr_spaces (s : State) (i : Nat) (x : Thread) : (setThr s i x).spaces = s.spaces := rfl
@[simp] theorem setThr_tlb (s : State) (i : Nat) (x : Thread) : (setThr s i x).tlb = s.tlb := rfl
@[simp] theorem setThr_coh (s : State) (i : Nat) (x : Thread) : (setThr s i x).coh = s.coh := rfl
@[simp] theorem setThr_regions (s : State) (i : Nat) (x : Thread) : (setThr s i x).regions = s.regions := rfl
@[simp] theorem setThr_fabric (s : State) (i : Nat) (x : Thread) : (setThr s i x).fabric = s.fabric := rfl
@[simp] theorem setThr_annex (s : State) (i : Nat) (x : Thread) : (setThr s i x).annex = s.annex := rfl
@[simp] theorem setThr_contexts (s : State) (i : Nat) (x : Thread) : (setThr s i x).contexts = s.contexts := rfl
@[simp] theorem setThr_module (s : State) (i : Nat) (x : Thread) : (setThr s i x).module = s.module := rfl

/-! ### modThr -/

@[simp] theorem modThr_schedule (s : State) (i : Nat) (f : Thread → Thread) : (modThr s i f).schedule = s.schedule := rfl
@[simp] theorem modThr_delays (s : State) (i : Nat) (f : Thread → Thread) : (modThr s i f).delays = s.delays := rfl
@[simp] theorem modThr_clock (s : State) (i : Nat) (f : Thread → Thread) : (modThr s i f).clock = s.clock := rfl
@[simp] theorem modThr_cur (s : State) (i : Nat) (f : Thread → Thread) : (modThr s i f).cur = s.cur := rfl
@[simp] theorem modThr_issue (s : State) (i : Nat) (f : Thread → Thread) : (modThr s i f).issue = s.issue := rfl
@[simp] theorem modThr_draws (s : State) (i : Nat) (f : Thread → Thread) : (modThr s i f).draws = s.draws := rfl
@[simp] theorem modThr_mem (s : State) (i : Nat) (f : Thread → Thread) : (modThr s i f).mem = s.mem := rfl
@[simp] theorem modThr_poison (s : State) (i : Nat) (f : Thread → Thread) : (modThr s i f).poison = s.poison := rfl
@[simp] theorem modThr_wgs (s : State) (i : Nat) (f : Thread → Thread) : (modThr s i f).wgs = s.wgs := rfl
@[simp] theorem modThr_nextWg (s : State) (i : Nat) (f : Thread → Thread) : (modThr s i f).nextWg = s.nextWg := rfl
@[simp] theorem modThr_cores (s : State) (i : Nat) (f : Thread → Thread) : (modThr s i f).cores = s.cores := rfl
@[simp] theorem modThr_quads (s : State) (i : Nat) (f : Thread → Thread) : (modThr s i f).quads = s.quads := rfl
@[simp] theorem modThr_dies (s : State) (i : Nat) (f : Thread → Thread) : (modThr s i f).dies = s.dies := rfl
@[simp] theorem modThr_spaces (s : State) (i : Nat) (f : Thread → Thread) : (modThr s i f).spaces = s.spaces := rfl
@[simp] theorem modThr_tlb (s : State) (i : Nat) (f : Thread → Thread) : (modThr s i f).tlb = s.tlb := rfl
@[simp] theorem modThr_coh (s : State) (i : Nat) (f : Thread → Thread) : (modThr s i f).coh = s.coh := rfl
@[simp] theorem modThr_regions (s : State) (i : Nat) (f : Thread → Thread) : (modThr s i f).regions = s.regions := rfl
@[simp] theorem modThr_fabric (s : State) (i : Nat) (f : Thread → Thread) : (modThr s i f).fabric = s.fabric := rfl
@[simp] theorem modThr_annex (s : State) (i : Nat) (f : Thread → Thread) : (modThr s i f).annex = s.annex := rfl
@[simp] theorem modThr_contexts (s : State) (i : Nat) (f : Thread → Thread) : (modThr s i f).contexts = s.contexts := rfl
@[simp] theorem modThr_module (s : State) (i : Nat) (f : Thread → Thread) : (modThr s i f).module = s.module := rfl

/-! ### setWg -/

@[simp] theorem setWg_schedule (s : State) (i : Nat) (x : Workgroup) : (setWg s i x).schedule = s.schedule := rfl
@[simp] theorem setWg_delays (s : State) (i : Nat) (x : Workgroup) : (setWg s i x).delays = s.delays := rfl
@[simp] theorem setWg_clock (s : State) (i : Nat) (x : Workgroup) : (setWg s i x).clock = s.clock := rfl
@[simp] theorem setWg_cur (s : State) (i : Nat) (x : Workgroup) : (setWg s i x).cur = s.cur := rfl
@[simp] theorem setWg_issue (s : State) (i : Nat) (x : Workgroup) : (setWg s i x).issue = s.issue := rfl
@[simp] theorem setWg_draws (s : State) (i : Nat) (x : Workgroup) : (setWg s i x).draws = s.draws := rfl
@[simp] theorem setWg_mem (s : State) (i : Nat) (x : Workgroup) : (setWg s i x).mem = s.mem := rfl
@[simp] theorem setWg_poison (s : State) (i : Nat) (x : Workgroup) : (setWg s i x).poison = s.poison := rfl
@[simp] theorem setWg_threads (s : State) (i : Nat) (x : Workgroup) : (setWg s i x).threads = s.threads := rfl
@[simp] theorem setWg_nextWg (s : State) (i : Nat) (x : Workgroup) : (setWg s i x).nextWg = s.nextWg := rfl
@[simp] theorem setWg_cores (s : State) (i : Nat) (x : Workgroup) : (setWg s i x).cores = s.cores := rfl
@[simp] theorem setWg_quads (s : State) (i : Nat) (x : Workgroup) : (setWg s i x).quads = s.quads := rfl
@[simp] theorem setWg_dies (s : State) (i : Nat) (x : Workgroup) : (setWg s i x).dies = s.dies := rfl
@[simp] theorem setWg_spaces (s : State) (i : Nat) (x : Workgroup) : (setWg s i x).spaces = s.spaces := rfl
@[simp] theorem setWg_tlb (s : State) (i : Nat) (x : Workgroup) : (setWg s i x).tlb = s.tlb := rfl
@[simp] theorem setWg_coh (s : State) (i : Nat) (x : Workgroup) : (setWg s i x).coh = s.coh := rfl
@[simp] theorem setWg_regions (s : State) (i : Nat) (x : Workgroup) : (setWg s i x).regions = s.regions := rfl
@[simp] theorem setWg_fabric (s : State) (i : Nat) (x : Workgroup) : (setWg s i x).fabric = s.fabric := rfl
@[simp] theorem setWg_annex (s : State) (i : Nat) (x : Workgroup) : (setWg s i x).annex = s.annex := rfl
@[simp] theorem setWg_contexts (s : State) (i : Nat) (x : Workgroup) : (setWg s i x).contexts = s.contexts := rfl
@[simp] theorem setWg_module (s : State) (i : Nat) (x : Workgroup) : (setWg s i x).module = s.module := rfl

/-! ### modWg -/

@[simp] theorem modWg_schedule (s : State) (i : Nat) (f : Workgroup → Workgroup) : (modWg s i f).schedule = s.schedule := rfl
@[simp] theorem modWg_delays (s : State) (i : Nat) (f : Workgroup → Workgroup) : (modWg s i f).delays = s.delays := rfl
@[simp] theorem modWg_clock (s : State) (i : Nat) (f : Workgroup → Workgroup) : (modWg s i f).clock = s.clock := rfl
@[simp] theorem modWg_cur (s : State) (i : Nat) (f : Workgroup → Workgroup) : (modWg s i f).cur = s.cur := rfl
@[simp] theorem modWg_issue (s : State) (i : Nat) (f : Workgroup → Workgroup) : (modWg s i f).issue = s.issue := rfl
@[simp] theorem modWg_draws (s : State) (i : Nat) (f : Workgroup → Workgroup) : (modWg s i f).draws = s.draws := rfl
@[simp] theorem modWg_mem (s : State) (i : Nat) (f : Workgroup → Workgroup) : (modWg s i f).mem = s.mem := rfl
@[simp] theorem modWg_poison (s : State) (i : Nat) (f : Workgroup → Workgroup) : (modWg s i f).poison = s.poison := rfl
@[simp] theorem modWg_threads (s : State) (i : Nat) (f : Workgroup → Workgroup) : (modWg s i f).threads = s.threads := rfl
@[simp] theorem modWg_nextWg (s : State) (i : Nat) (f : Workgroup → Workgroup) : (modWg s i f).nextWg = s.nextWg := rfl
@[simp] theorem modWg_cores (s : State) (i : Nat) (f : Workgroup → Workgroup) : (modWg s i f).cores = s.cores := rfl
@[simp] theorem modWg_quads (s : State) (i : Nat) (f : Workgroup → Workgroup) : (modWg s i f).quads = s.quads := rfl
@[simp] theorem modWg_dies (s : State) (i : Nat) (f : Workgroup → Workgroup) : (modWg s i f).dies = s.dies := rfl
@[simp] theorem modWg_spaces (s : State) (i : Nat) (f : Workgroup → Workgroup) : (modWg s i f).spaces = s.spaces := rfl
@[simp] theorem modWg_tlb (s : State) (i : Nat) (f : Workgroup → Workgroup) : (modWg s i f).tlb = s.tlb := rfl
@[simp] theorem modWg_coh (s : State) (i : Nat) (f : Workgroup → Workgroup) : (modWg s i f).coh = s.coh := rfl
@[simp] theorem modWg_regions (s : State) (i : Nat) (f : Workgroup → Workgroup) : (modWg s i f).regions = s.regions := rfl
@[simp] theorem modWg_fabric (s : State) (i : Nat) (f : Workgroup → Workgroup) : (modWg s i f).fabric = s.fabric := rfl
@[simp] theorem modWg_annex (s : State) (i : Nat) (f : Workgroup → Workgroup) : (modWg s i f).annex = s.annex := rfl
@[simp] theorem modWg_contexts (s : State) (i : Nat) (f : Workgroup → Workgroup) : (modWg s i f).contexts = s.contexts := rfl
@[simp] theorem modWg_module (s : State) (i : Nat) (f : Workgroup → Workgroup) : (modWg s i f).module = s.module := rfl

/-! ### setCore -/

@[simp] theorem setCore_schedule (s : State) (i : Nat) (x : Core) : (setCore s i x).schedule = s.schedule := rfl
@[simp] theorem setCore_delays (s : State) (i : Nat) (x : Core) : (setCore s i x).delays = s.delays := rfl
@[simp] theorem setCore_clock (s : State) (i : Nat) (x : Core) : (setCore s i x).clock = s.clock := rfl
@[simp] theorem setCore_cur (s : State) (i : Nat) (x : Core) : (setCore s i x).cur = s.cur := rfl
@[simp] theorem setCore_issue (s : State) (i : Nat) (x : Core) : (setCore s i x).issue = s.issue := rfl
@[simp] theorem setCore_draws (s : State) (i : Nat) (x : Core) : (setCore s i x).draws = s.draws := rfl
@[simp] theorem setCore_mem (s : State) (i : Nat) (x : Core) : (setCore s i x).mem = s.mem := rfl
@[simp] theorem setCore_poison (s : State) (i : Nat) (x : Core) : (setCore s i x).poison = s.poison := rfl
@[simp] theorem setCore_threads (s : State) (i : Nat) (x : Core) : (setCore s i x).threads = s.threads := rfl
@[simp] theorem setCore_wgs (s : State) (i : Nat) (x : Core) : (setCore s i x).wgs = s.wgs := rfl
@[simp] theorem setCore_nextWg (s : State) (i : Nat) (x : Core) : (setCore s i x).nextWg = s.nextWg := rfl
@[simp] theorem setCore_quads (s : State) (i : Nat) (x : Core) : (setCore s i x).quads = s.quads := rfl
@[simp] theorem setCore_dies (s : State) (i : Nat) (x : Core) : (setCore s i x).dies = s.dies := rfl
@[simp] theorem setCore_spaces (s : State) (i : Nat) (x : Core) : (setCore s i x).spaces = s.spaces := rfl
@[simp] theorem setCore_tlb (s : State) (i : Nat) (x : Core) : (setCore s i x).tlb = s.tlb := rfl
@[simp] theorem setCore_coh (s : State) (i : Nat) (x : Core) : (setCore s i x).coh = s.coh := rfl
@[simp] theorem setCore_regions (s : State) (i : Nat) (x : Core) : (setCore s i x).regions = s.regions := rfl
@[simp] theorem setCore_fabric (s : State) (i : Nat) (x : Core) : (setCore s i x).fabric = s.fabric := rfl
@[simp] theorem setCore_annex (s : State) (i : Nat) (x : Core) : (setCore s i x).annex = s.annex := rfl
@[simp] theorem setCore_contexts (s : State) (i : Nat) (x : Core) : (setCore s i x).contexts = s.contexts := rfl
@[simp] theorem setCore_module (s : State) (i : Nat) (x : Core) : (setCore s i x).module = s.module := rfl

/-! ### modCore -/

@[simp] theorem modCore_schedule (s : State) (i : Nat) (f : Core → Core) : (modCore s i f).schedule = s.schedule := rfl
@[simp] theorem modCore_delays (s : State) (i : Nat) (f : Core → Core) : (modCore s i f).delays = s.delays := rfl
@[simp] theorem modCore_clock (s : State) (i : Nat) (f : Core → Core) : (modCore s i f).clock = s.clock := rfl
@[simp] theorem modCore_cur (s : State) (i : Nat) (f : Core → Core) : (modCore s i f).cur = s.cur := rfl
@[simp] theorem modCore_issue (s : State) (i : Nat) (f : Core → Core) : (modCore s i f).issue = s.issue := rfl
@[simp] theorem modCore_draws (s : State) (i : Nat) (f : Core → Core) : (modCore s i f).draws = s.draws := rfl
@[simp] theorem modCore_mem (s : State) (i : Nat) (f : Core → Core) : (modCore s i f).mem = s.mem := rfl
@[simp] theorem modCore_poison (s : State) (i : Nat) (f : Core → Core) : (modCore s i f).poison = s.poison := rfl
@[simp] theorem modCore_threads (s : State) (i : Nat) (f : Core → Core) : (modCore s i f).threads = s.threads := rfl
@[simp] theorem modCore_wgs (s : State) (i : Nat) (f : Core → Core) : (modCore s i f).wgs = s.wgs := rfl
@[simp] theorem modCore_nextWg (s : State) (i : Nat) (f : Core → Core) : (modCore s i f).nextWg = s.nextWg := rfl
@[simp] theorem modCore_quads (s : State) (i : Nat) (f : Core → Core) : (modCore s i f).quads = s.quads := rfl
@[simp] theorem modCore_dies (s : State) (i : Nat) (f : Core → Core) : (modCore s i f).dies = s.dies := rfl
@[simp] theorem modCore_spaces (s : State) (i : Nat) (f : Core → Core) : (modCore s i f).spaces = s.spaces := rfl
@[simp] theorem modCore_tlb (s : State) (i : Nat) (f : Core → Core) : (modCore s i f).tlb = s.tlb := rfl
@[simp] theorem modCore_coh (s : State) (i : Nat) (f : Core → Core) : (modCore s i f).coh = s.coh := rfl
@[simp] theorem modCore_regions (s : State) (i : Nat) (f : Core → Core) : (modCore s i f).regions = s.regions := rfl
@[simp] theorem modCore_fabric (s : State) (i : Nat) (f : Core → Core) : (modCore s i f).fabric = s.fabric := rfl
@[simp] theorem modCore_annex (s : State) (i : Nat) (f : Core → Core) : (modCore s i f).annex = s.annex := rfl
@[simp] theorem modCore_contexts (s : State) (i : Nat) (f : Core → Core) : (modCore s i f).contexts = s.contexts := rfl
@[simp] theorem modCore_module (s : State) (i : Nat) (f : Core → Core) : (modCore s i f).module = s.module := rfl

/-! ### modMx -/

@[simp] theorem modMx_schedule (s : State) (i : Nat) (f : Matrix → Matrix) : (modMx s i f).schedule = s.schedule := rfl
@[simp] theorem modMx_delays (s : State) (i : Nat) (f : Matrix → Matrix) : (modMx s i f).delays = s.delays := rfl
@[simp] theorem modMx_clock (s : State) (i : Nat) (f : Matrix → Matrix) : (modMx s i f).clock = s.clock := rfl
@[simp] theorem modMx_cur (s : State) (i : Nat) (f : Matrix → Matrix) : (modMx s i f).cur = s.cur := rfl
@[simp] theorem modMx_issue (s : State) (i : Nat) (f : Matrix → Matrix) : (modMx s i f).issue = s.issue := rfl
@[simp] theorem modMx_draws (s : State) (i : Nat) (f : Matrix → Matrix) : (modMx s i f).draws = s.draws := rfl
@[simp] theorem modMx_mem (s : State) (i : Nat) (f : Matrix → Matrix) : (modMx s i f).mem = s.mem := rfl
@[simp] theorem modMx_poison (s : State) (i : Nat) (f : Matrix → Matrix) : (modMx s i f).poison = s.poison := rfl
@[simp] theorem modMx_threads (s : State) (i : Nat) (f : Matrix → Matrix) : (modMx s i f).threads = s.threads := rfl
@[simp] theorem modMx_wgs (s : State) (i : Nat) (f : Matrix → Matrix) : (modMx s i f).wgs = s.wgs := rfl
@[simp] theorem modMx_nextWg (s : State) (i : Nat) (f : Matrix → Matrix) : (modMx s i f).nextWg = s.nextWg := rfl
@[simp] theorem modMx_quads (s : State) (i : Nat) (f : Matrix → Matrix) : (modMx s i f).quads = s.quads := rfl
@[simp] theorem modMx_dies (s : State) (i : Nat) (f : Matrix → Matrix) : (modMx s i f).dies = s.dies := rfl
@[simp] theorem modMx_spaces (s : State) (i : Nat) (f : Matrix → Matrix) : (modMx s i f).spaces = s.spaces := rfl
@[simp] theorem modMx_tlb (s : State) (i : Nat) (f : Matrix → Matrix) : (modMx s i f).tlb = s.tlb := rfl
@[simp] theorem modMx_coh (s : State) (i : Nat) (f : Matrix → Matrix) : (modMx s i f).coh = s.coh := rfl
@[simp] theorem modMx_regions (s : State) (i : Nat) (f : Matrix → Matrix) : (modMx s i f).regions = s.regions := rfl
@[simp] theorem modMx_fabric (s : State) (i : Nat) (f : Matrix → Matrix) : (modMx s i f).fabric = s.fabric := rfl
@[simp] theorem modMx_annex (s : State) (i : Nat) (f : Matrix → Matrix) : (modMx s i f).annex = s.annex := rfl
@[simp] theorem modMx_contexts (s : State) (i : Nat) (f : Matrix → Matrix) : (modMx s i f).contexts = s.contexts := rfl
@[simp] theorem modMx_module (s : State) (i : Nat) (f : Matrix → Matrix) : (modMx s i f).module = s.module := rfl

/-! ### setQuad -/

@[simp] theorem setQuad_schedule (s : State) (i : Nat) (x : Quad) : (setQuad s i x).schedule = s.schedule := rfl
@[simp] theorem setQuad_delays (s : State) (i : Nat) (x : Quad) : (setQuad s i x).delays = s.delays := rfl
@[simp] theorem setQuad_clock (s : State) (i : Nat) (x : Quad) : (setQuad s i x).clock = s.clock := rfl
@[simp] theorem setQuad_cur (s : State) (i : Nat) (x : Quad) : (setQuad s i x).cur = s.cur := rfl
@[simp] theorem setQuad_issue (s : State) (i : Nat) (x : Quad) : (setQuad s i x).issue = s.issue := rfl
@[simp] theorem setQuad_draws (s : State) (i : Nat) (x : Quad) : (setQuad s i x).draws = s.draws := rfl
@[simp] theorem setQuad_mem (s : State) (i : Nat) (x : Quad) : (setQuad s i x).mem = s.mem := rfl
@[simp] theorem setQuad_poison (s : State) (i : Nat) (x : Quad) : (setQuad s i x).poison = s.poison := rfl
@[simp] theorem setQuad_threads (s : State) (i : Nat) (x : Quad) : (setQuad s i x).threads = s.threads := rfl
@[simp] theorem setQuad_wgs (s : State) (i : Nat) (x : Quad) : (setQuad s i x).wgs = s.wgs := rfl
@[simp] theorem setQuad_nextWg (s : State) (i : Nat) (x : Quad) : (setQuad s i x).nextWg = s.nextWg := rfl
@[simp] theorem setQuad_cores (s : State) (i : Nat) (x : Quad) : (setQuad s i x).cores = s.cores := rfl
@[simp] theorem setQuad_dies (s : State) (i : Nat) (x : Quad) : (setQuad s i x).dies = s.dies := rfl
@[simp] theorem setQuad_spaces (s : State) (i : Nat) (x : Quad) : (setQuad s i x).spaces = s.spaces := rfl
@[simp] theorem setQuad_tlb (s : State) (i : Nat) (x : Quad) : (setQuad s i x).tlb = s.tlb := rfl
@[simp] theorem setQuad_coh (s : State) (i : Nat) (x : Quad) : (setQuad s i x).coh = s.coh := rfl
@[simp] theorem setQuad_regions (s : State) (i : Nat) (x : Quad) : (setQuad s i x).regions = s.regions := rfl
@[simp] theorem setQuad_fabric (s : State) (i : Nat) (x : Quad) : (setQuad s i x).fabric = s.fabric := rfl
@[simp] theorem setQuad_annex (s : State) (i : Nat) (x : Quad) : (setQuad s i x).annex = s.annex := rfl
@[simp] theorem setQuad_contexts (s : State) (i : Nat) (x : Quad) : (setQuad s i x).contexts = s.contexts := rfl
@[simp] theorem setQuad_module (s : State) (i : Nat) (x : Quad) : (setQuad s i x).module = s.module := rfl

/-! ### modQuad -/

@[simp] theorem modQuad_schedule (s : State) (i : Nat) (f : Quad → Quad) : (modQuad s i f).schedule = s.schedule := rfl
@[simp] theorem modQuad_delays (s : State) (i : Nat) (f : Quad → Quad) : (modQuad s i f).delays = s.delays := rfl
@[simp] theorem modQuad_clock (s : State) (i : Nat) (f : Quad → Quad) : (modQuad s i f).clock = s.clock := rfl
@[simp] theorem modQuad_cur (s : State) (i : Nat) (f : Quad → Quad) : (modQuad s i f).cur = s.cur := rfl
@[simp] theorem modQuad_issue (s : State) (i : Nat) (f : Quad → Quad) : (modQuad s i f).issue = s.issue := rfl
@[simp] theorem modQuad_draws (s : State) (i : Nat) (f : Quad → Quad) : (modQuad s i f).draws = s.draws := rfl
@[simp] theorem modQuad_mem (s : State) (i : Nat) (f : Quad → Quad) : (modQuad s i f).mem = s.mem := rfl
@[simp] theorem modQuad_poison (s : State) (i : Nat) (f : Quad → Quad) : (modQuad s i f).poison = s.poison := rfl
@[simp] theorem modQuad_threads (s : State) (i : Nat) (f : Quad → Quad) : (modQuad s i f).threads = s.threads := rfl
@[simp] theorem modQuad_wgs (s : State) (i : Nat) (f : Quad → Quad) : (modQuad s i f).wgs = s.wgs := rfl
@[simp] theorem modQuad_nextWg (s : State) (i : Nat) (f : Quad → Quad) : (modQuad s i f).nextWg = s.nextWg := rfl
@[simp] theorem modQuad_cores (s : State) (i : Nat) (f : Quad → Quad) : (modQuad s i f).cores = s.cores := rfl
@[simp] theorem modQuad_dies (s : State) (i : Nat) (f : Quad → Quad) : (modQuad s i f).dies = s.dies := rfl
@[simp] theorem modQuad_spaces (s : State) (i : Nat) (f : Quad → Quad) : (modQuad s i f).spaces = s.spaces := rfl
@[simp] theorem modQuad_tlb (s : State) (i : Nat) (f : Quad → Quad) : (modQuad s i f).tlb = s.tlb := rfl
@[simp] theorem modQuad_coh (s : State) (i : Nat) (f : Quad → Quad) : (modQuad s i f).coh = s.coh := rfl
@[simp] theorem modQuad_regions (s : State) (i : Nat) (f : Quad → Quad) : (modQuad s i f).regions = s.regions := rfl
@[simp] theorem modQuad_fabric (s : State) (i : Nat) (f : Quad → Quad) : (modQuad s i f).fabric = s.fabric := rfl
@[simp] theorem modQuad_annex (s : State) (i : Nat) (f : Quad → Quad) : (modQuad s i f).annex = s.annex := rfl
@[simp] theorem modQuad_contexts (s : State) (i : Nat) (f : Quad → Quad) : (modQuad s i f).contexts = s.contexts := rfl
@[simp] theorem modQuad_module (s : State) (i : Nat) (f : Quad → Quad) : (modQuad s i f).module = s.module := rfl

/-! ### setDie -/

@[simp] theorem setDie_schedule (s : State) (i : Nat) (x : Die) : (setDie s i x).schedule = s.schedule := rfl
@[simp] theorem setDie_delays (s : State) (i : Nat) (x : Die) : (setDie s i x).delays = s.delays := rfl
@[simp] theorem setDie_clock (s : State) (i : Nat) (x : Die) : (setDie s i x).clock = s.clock := rfl
@[simp] theorem setDie_cur (s : State) (i : Nat) (x : Die) : (setDie s i x).cur = s.cur := rfl
@[simp] theorem setDie_issue (s : State) (i : Nat) (x : Die) : (setDie s i x).issue = s.issue := rfl
@[simp] theorem setDie_draws (s : State) (i : Nat) (x : Die) : (setDie s i x).draws = s.draws := rfl
@[simp] theorem setDie_mem (s : State) (i : Nat) (x : Die) : (setDie s i x).mem = s.mem := rfl
@[simp] theorem setDie_poison (s : State) (i : Nat) (x : Die) : (setDie s i x).poison = s.poison := rfl
@[simp] theorem setDie_threads (s : State) (i : Nat) (x : Die) : (setDie s i x).threads = s.threads := rfl
@[simp] theorem setDie_wgs (s : State) (i : Nat) (x : Die) : (setDie s i x).wgs = s.wgs := rfl
@[simp] theorem setDie_nextWg (s : State) (i : Nat) (x : Die) : (setDie s i x).nextWg = s.nextWg := rfl
@[simp] theorem setDie_cores (s : State) (i : Nat) (x : Die) : (setDie s i x).cores = s.cores := rfl
@[simp] theorem setDie_quads (s : State) (i : Nat) (x : Die) : (setDie s i x).quads = s.quads := rfl
@[simp] theorem setDie_spaces (s : State) (i : Nat) (x : Die) : (setDie s i x).spaces = s.spaces := rfl
@[simp] theorem setDie_tlb (s : State) (i : Nat) (x : Die) : (setDie s i x).tlb = s.tlb := rfl
@[simp] theorem setDie_coh (s : State) (i : Nat) (x : Die) : (setDie s i x).coh = s.coh := rfl
@[simp] theorem setDie_regions (s : State) (i : Nat) (x : Die) : (setDie s i x).regions = s.regions := rfl
@[simp] theorem setDie_fabric (s : State) (i : Nat) (x : Die) : (setDie s i x).fabric = s.fabric := rfl
@[simp] theorem setDie_annex (s : State) (i : Nat) (x : Die) : (setDie s i x).annex = s.annex := rfl
@[simp] theorem setDie_contexts (s : State) (i : Nat) (x : Die) : (setDie s i x).contexts = s.contexts := rfl
@[simp] theorem setDie_module (s : State) (i : Nat) (x : Die) : (setDie s i x).module = s.module := rfl

/-! ### modDie -/

@[simp] theorem modDie_schedule (s : State) (i : Nat) (f : Die → Die) : (modDie s i f).schedule = s.schedule := rfl
@[simp] theorem modDie_delays (s : State) (i : Nat) (f : Die → Die) : (modDie s i f).delays = s.delays := rfl
@[simp] theorem modDie_clock (s : State) (i : Nat) (f : Die → Die) : (modDie s i f).clock = s.clock := rfl
@[simp] theorem modDie_cur (s : State) (i : Nat) (f : Die → Die) : (modDie s i f).cur = s.cur := rfl
@[simp] theorem modDie_issue (s : State) (i : Nat) (f : Die → Die) : (modDie s i f).issue = s.issue := rfl
@[simp] theorem modDie_draws (s : State) (i : Nat) (f : Die → Die) : (modDie s i f).draws = s.draws := rfl
@[simp] theorem modDie_mem (s : State) (i : Nat) (f : Die → Die) : (modDie s i f).mem = s.mem := rfl
@[simp] theorem modDie_poison (s : State) (i : Nat) (f : Die → Die) : (modDie s i f).poison = s.poison := rfl
@[simp] theorem modDie_threads (s : State) (i : Nat) (f : Die → Die) : (modDie s i f).threads = s.threads := rfl
@[simp] theorem modDie_wgs (s : State) (i : Nat) (f : Die → Die) : (modDie s i f).wgs = s.wgs := rfl
@[simp] theorem modDie_nextWg (s : State) (i : Nat) (f : Die → Die) : (modDie s i f).nextWg = s.nextWg := rfl
@[simp] theorem modDie_cores (s : State) (i : Nat) (f : Die → Die) : (modDie s i f).cores = s.cores := rfl
@[simp] theorem modDie_quads (s : State) (i : Nat) (f : Die → Die) : (modDie s i f).quads = s.quads := rfl
@[simp] theorem modDie_spaces (s : State) (i : Nat) (f : Die → Die) : (modDie s i f).spaces = s.spaces := rfl
@[simp] theorem modDie_tlb (s : State) (i : Nat) (f : Die → Die) : (modDie s i f).tlb = s.tlb := rfl
@[simp] theorem modDie_coh (s : State) (i : Nat) (f : Die → Die) : (modDie s i f).coh = s.coh := rfl
@[simp] theorem modDie_regions (s : State) (i : Nat) (f : Die → Die) : (modDie s i f).regions = s.regions := rfl
@[simp] theorem modDie_fabric (s : State) (i : Nat) (f : Die → Die) : (modDie s i f).fabric = s.fabric := rfl
@[simp] theorem modDie_annex (s : State) (i : Nat) (f : Die → Die) : (modDie s i f).annex = s.annex := rfl
@[simp] theorem modDie_contexts (s : State) (i : Nat) (f : Die → Die) : (modDie s i f).contexts = s.contexts := rfl
@[simp] theorem modDie_module (s : State) (i : Nat) (f : Die → Die) : (modDie s i f).module = s.module := rfl

/-! ### modColl -/

@[simp] theorem modColl_schedule (s : State) (i : Nat) (f : Collective → Collective) : (modColl s i f).schedule = s.schedule := rfl
@[simp] theorem modColl_delays (s : State) (i : Nat) (f : Collective → Collective) : (modColl s i f).delays = s.delays := rfl
@[simp] theorem modColl_clock (s : State) (i : Nat) (f : Collective → Collective) : (modColl s i f).clock = s.clock := rfl
@[simp] theorem modColl_cur (s : State) (i : Nat) (f : Collective → Collective) : (modColl s i f).cur = s.cur := rfl
@[simp] theorem modColl_issue (s : State) (i : Nat) (f : Collective → Collective) : (modColl s i f).issue = s.issue := rfl
@[simp] theorem modColl_draws (s : State) (i : Nat) (f : Collective → Collective) : (modColl s i f).draws = s.draws := rfl
@[simp] theorem modColl_mem (s : State) (i : Nat) (f : Collective → Collective) : (modColl s i f).mem = s.mem := rfl
@[simp] theorem modColl_poison (s : State) (i : Nat) (f : Collective → Collective) : (modColl s i f).poison = s.poison := rfl
@[simp] theorem modColl_threads (s : State) (i : Nat) (f : Collective → Collective) : (modColl s i f).threads = s.threads := rfl
@[simp] theorem modColl_wgs (s : State) (i : Nat) (f : Collective → Collective) : (modColl s i f).wgs = s.wgs := rfl
@[simp] theorem modColl_nextWg (s : State) (i : Nat) (f : Collective → Collective) : (modColl s i f).nextWg = s.nextWg := rfl
@[simp] theorem modColl_cores (s : State) (i : Nat) (f : Collective → Collective) : (modColl s i f).cores = s.cores := rfl
@[simp] theorem modColl_quads (s : State) (i : Nat) (f : Collective → Collective) : (modColl s i f).quads = s.quads := rfl
@[simp] theorem modColl_spaces (s : State) (i : Nat) (f : Collective → Collective) : (modColl s i f).spaces = s.spaces := rfl
@[simp] theorem modColl_tlb (s : State) (i : Nat) (f : Collective → Collective) : (modColl s i f).tlb = s.tlb := rfl
@[simp] theorem modColl_coh (s : State) (i : Nat) (f : Collective → Collective) : (modColl s i f).coh = s.coh := rfl
@[simp] theorem modColl_regions (s : State) (i : Nat) (f : Collective → Collective) : (modColl s i f).regions = s.regions := rfl
@[simp] theorem modColl_fabric (s : State) (i : Nat) (f : Collective → Collective) : (modColl s i f).fabric = s.fabric := rfl
@[simp] theorem modColl_annex (s : State) (i : Nat) (f : Collective → Collective) : (modColl s i f).annex = s.annex := rfl
@[simp] theorem modColl_contexts (s : State) (i : Nat) (f : Collective → Collective) : (modColl s i f).contexts = s.contexts := rfl
@[simp] theorem modColl_module (s : State) (i : Nat) (f : Collective → Collective) : (modColl s i f).module = s.module := rfl

/-! ### setPort -/

@[simp] theorem setPort_schedule (s : State) (i : Nat) (x : Port) : (setPort s i x).schedule = s.schedule := rfl
@[simp] theorem setPort_delays (s : State) (i : Nat) (x : Port) : (setPort s i x).delays = s.delays := rfl
@[simp] theorem setPort_clock (s : State) (i : Nat) (x : Port) : (setPort s i x).clock = s.clock := rfl
@[simp] theorem setPort_cur (s : State) (i : Nat) (x : Port) : (setPort s i x).cur = s.cur := rfl
@[simp] theorem setPort_issue (s : State) (i : Nat) (x : Port) : (setPort s i x).issue = s.issue := rfl
@[simp] theorem setPort_draws (s : State) (i : Nat) (x : Port) : (setPort s i x).draws = s.draws := rfl
@[simp] theorem setPort_mem (s : State) (i : Nat) (x : Port) : (setPort s i x).mem = s.mem := rfl
@[simp] theorem setPort_poison (s : State) (i : Nat) (x : Port) : (setPort s i x).poison = s.poison := rfl
@[simp] theorem setPort_threads (s : State) (i : Nat) (x : Port) : (setPort s i x).threads = s.threads := rfl
@[simp] theorem setPort_wgs (s : State) (i : Nat) (x : Port) : (setPort s i x).wgs = s.wgs := rfl
@[simp] theorem setPort_nextWg (s : State) (i : Nat) (x : Port) : (setPort s i x).nextWg = s.nextWg := rfl
@[simp] theorem setPort_cores (s : State) (i : Nat) (x : Port) : (setPort s i x).cores = s.cores := rfl
@[simp] theorem setPort_quads (s : State) (i : Nat) (x : Port) : (setPort s i x).quads = s.quads := rfl
@[simp] theorem setPort_dies (s : State) (i : Nat) (x : Port) : (setPort s i x).dies = s.dies := rfl
@[simp] theorem setPort_spaces (s : State) (i : Nat) (x : Port) : (setPort s i x).spaces = s.spaces := rfl
@[simp] theorem setPort_tlb (s : State) (i : Nat) (x : Port) : (setPort s i x).tlb = s.tlb := rfl
@[simp] theorem setPort_coh (s : State) (i : Nat) (x : Port) : (setPort s i x).coh = s.coh := rfl
@[simp] theorem setPort_regions (s : State) (i : Nat) (x : Port) : (setPort s i x).regions = s.regions := rfl
@[simp] theorem setPort_annex (s : State) (i : Nat) (x : Port) : (setPort s i x).annex = s.annex := rfl
@[simp] theorem setPort_contexts (s : State) (i : Nat) (x : Port) : (setPort s i x).contexts = s.contexts := rfl
@[simp] theorem setPort_module (s : State) (i : Nat) (x : Port) : (setPort s i x).module = s.module := rfl

/-! ### modPort -/

@[simp] theorem modPort_schedule (s : State) (i : Nat) (f : Port → Port) : (modPort s i f).schedule = s.schedule := rfl
@[simp] theorem modPort_delays (s : State) (i : Nat) (f : Port → Port) : (modPort s i f).delays = s.delays := rfl
@[simp] theorem modPort_clock (s : State) (i : Nat) (f : Port → Port) : (modPort s i f).clock = s.clock := rfl
@[simp] theorem modPort_cur (s : State) (i : Nat) (f : Port → Port) : (modPort s i f).cur = s.cur := rfl
@[simp] theorem modPort_issue (s : State) (i : Nat) (f : Port → Port) : (modPort s i f).issue = s.issue := rfl
@[simp] theorem modPort_draws (s : State) (i : Nat) (f : Port → Port) : (modPort s i f).draws = s.draws := rfl
@[simp] theorem modPort_mem (s : State) (i : Nat) (f : Port → Port) : (modPort s i f).mem = s.mem := rfl
@[simp] theorem modPort_poison (s : State) (i : Nat) (f : Port → Port) : (modPort s i f).poison = s.poison := rfl
@[simp] theorem modPort_threads (s : State) (i : Nat) (f : Port → Port) : (modPort s i f).threads = s.threads := rfl
@[simp] theorem modPort_wgs (s : State) (i : Nat) (f : Port → Port) : (modPort s i f).wgs = s.wgs := rfl
@[simp] theorem modPort_nextWg (s : State) (i : Nat) (f : Port → Port) : (modPort s i f).nextWg = s.nextWg := rfl
@[simp] theorem modPort_cores (s : State) (i : Nat) (f : Port → Port) : (modPort s i f).cores = s.cores := rfl
@[simp] theorem modPort_quads (s : State) (i : Nat) (f : Port → Port) : (modPort s i f).quads = s.quads := rfl
@[simp] theorem modPort_dies (s : State) (i : Nat) (f : Port → Port) : (modPort s i f).dies = s.dies := rfl
@[simp] theorem modPort_spaces (s : State) (i : Nat) (f : Port → Port) : (modPort s i f).spaces = s.spaces := rfl
@[simp] theorem modPort_tlb (s : State) (i : Nat) (f : Port → Port) : (modPort s i f).tlb = s.tlb := rfl
@[simp] theorem modPort_coh (s : State) (i : Nat) (f : Port → Port) : (modPort s i f).coh = s.coh := rfl
@[simp] theorem modPort_regions (s : State) (i : Nat) (f : Port → Port) : (modPort s i f).regions = s.regions := rfl
@[simp] theorem modPort_annex (s : State) (i : Nat) (f : Port → Port) : (modPort s i f).annex = s.annex := rfl
@[simp] theorem modPort_contexts (s : State) (i : Nat) (f : Port → Port) : (modPort s i f).contexts = s.contexts := rfl
@[simp] theorem modPort_module (s : State) (i : Nat) (f : Port → Port) : (modPort s i f).module = s.module := rfl

/-! ### modAnnex -/

@[simp] theorem modAnnex_schedule (s : State) (f : Annex → Annex) : (modAnnex s f).schedule = s.schedule := rfl
@[simp] theorem modAnnex_delays (s : State) (f : Annex → Annex) : (modAnnex s f).delays = s.delays := rfl
@[simp] theorem modAnnex_clock (s : State) (f : Annex → Annex) : (modAnnex s f).clock = s.clock := rfl
@[simp] theorem modAnnex_cur (s : State) (f : Annex → Annex) : (modAnnex s f).cur = s.cur := rfl
@[simp] theorem modAnnex_issue (s : State) (f : Annex → Annex) : (modAnnex s f).issue = s.issue := rfl
@[simp] theorem modAnnex_draws (s : State) (f : Annex → Annex) : (modAnnex s f).draws = s.draws := rfl
@[simp] theorem modAnnex_mem (s : State) (f : Annex → Annex) : (modAnnex s f).mem = s.mem := rfl
@[simp] theorem modAnnex_poison (s : State) (f : Annex → Annex) : (modAnnex s f).poison = s.poison := rfl
@[simp] theorem modAnnex_threads (s : State) (f : Annex → Annex) : (modAnnex s f).threads = s.threads := rfl
@[simp] theorem modAnnex_wgs (s : State) (f : Annex → Annex) : (modAnnex s f).wgs = s.wgs := rfl
@[simp] theorem modAnnex_nextWg (s : State) (f : Annex → Annex) : (modAnnex s f).nextWg = s.nextWg := rfl
@[simp] theorem modAnnex_cores (s : State) (f : Annex → Annex) : (modAnnex s f).cores = s.cores := rfl
@[simp] theorem modAnnex_quads (s : State) (f : Annex → Annex) : (modAnnex s f).quads = s.quads := rfl
@[simp] theorem modAnnex_dies (s : State) (f : Annex → Annex) : (modAnnex s f).dies = s.dies := rfl
@[simp] theorem modAnnex_spaces (s : State) (f : Annex → Annex) : (modAnnex s f).spaces = s.spaces := rfl
@[simp] theorem modAnnex_tlb (s : State) (f : Annex → Annex) : (modAnnex s f).tlb = s.tlb := rfl
@[simp] theorem modAnnex_coh (s : State) (f : Annex → Annex) : (modAnnex s f).coh = s.coh := rfl
@[simp] theorem modAnnex_regions (s : State) (f : Annex → Annex) : (modAnnex s f).regions = s.regions := rfl
@[simp] theorem modAnnex_fabric (s : State) (f : Annex → Annex) : (modAnnex s f).fabric = s.fabric := rfl
@[simp] theorem modAnnex_contexts (s : State) (f : Annex → Annex) : (modAnnex s f).contexts = s.contexts := rfl
@[simp] theorem modAnnex_module (s : State) (f : Annex → Annex) : (modAnnex s f).module = s.module := rfl

/-! ### modModule -/

@[simp] theorem modModule_schedule (s : State) (f : Module → Module) : (modModule s f).schedule = s.schedule := rfl
@[simp] theorem modModule_delays (s : State) (f : Module → Module) : (modModule s f).delays = s.delays := rfl
@[simp] theorem modModule_clock (s : State) (f : Module → Module) : (modModule s f).clock = s.clock := rfl
@[simp] theorem modModule_cur (s : State) (f : Module → Module) : (modModule s f).cur = s.cur := rfl
@[simp] theorem modModule_issue (s : State) (f : Module → Module) : (modModule s f).issue = s.issue := rfl
@[simp] theorem modModule_draws (s : State) (f : Module → Module) : (modModule s f).draws = s.draws := rfl
@[simp] theorem modModule_mem (s : State) (f : Module → Module) : (modModule s f).mem = s.mem := rfl
@[simp] theorem modModule_poison (s : State) (f : Module → Module) : (modModule s f).poison = s.poison := rfl
@[simp] theorem modModule_threads (s : State) (f : Module → Module) : (modModule s f).threads = s.threads := rfl
@[simp] theorem modModule_wgs (s : State) (f : Module → Module) : (modModule s f).wgs = s.wgs := rfl
@[simp] theorem modModule_nextWg (s : State) (f : Module → Module) : (modModule s f).nextWg = s.nextWg := rfl
@[simp] theorem modModule_cores (s : State) (f : Module → Module) : (modModule s f).cores = s.cores := rfl
@[simp] theorem modModule_quads (s : State) (f : Module → Module) : (modModule s f).quads = s.quads := rfl
@[simp] theorem modModule_dies (s : State) (f : Module → Module) : (modModule s f).dies = s.dies := rfl
@[simp] theorem modModule_spaces (s : State) (f : Module → Module) : (modModule s f).spaces = s.spaces := rfl
@[simp] theorem modModule_tlb (s : State) (f : Module → Module) : (modModule s f).tlb = s.tlb := rfl
@[simp] theorem modModule_coh (s : State) (f : Module → Module) : (modModule s f).coh = s.coh := rfl
@[simp] theorem modModule_regions (s : State) (f : Module → Module) : (modModule s f).regions = s.regions := rfl
@[simp] theorem modModule_fabric (s : State) (f : Module → Module) : (modModule s f).fabric = s.fabric := rfl
@[simp] theorem modModule_annex (s : State) (f : Module → Module) : (modModule s f).annex = s.annex := rfl
@[simp] theorem modModule_contexts (s : State) (f : Module → Module) : (modModule s f).contexts = s.contexts := rfl

/-! ### modCoh -/

@[simp] theorem modCoh_schedule (s : State) (f : Coherence → Coherence) : (modCoh s f).schedule = s.schedule := rfl
@[simp] theorem modCoh_delays (s : State) (f : Coherence → Coherence) : (modCoh s f).delays = s.delays := rfl
@[simp] theorem modCoh_clock (s : State) (f : Coherence → Coherence) : (modCoh s f).clock = s.clock := rfl
@[simp] theorem modCoh_cur (s : State) (f : Coherence → Coherence) : (modCoh s f).cur = s.cur := rfl
@[simp] theorem modCoh_issue (s : State) (f : Coherence → Coherence) : (modCoh s f).issue = s.issue := rfl
@[simp] theorem modCoh_draws (s : State) (f : Coherence → Coherence) : (modCoh s f).draws = s.draws := rfl
@[simp] theorem modCoh_mem (s : State) (f : Coherence → Coherence) : (modCoh s f).mem = s.mem := rfl
@[simp] theorem modCoh_poison (s : State) (f : Coherence → Coherence) : (modCoh s f).poison = s.poison := rfl
@[simp] theorem modCoh_threads (s : State) (f : Coherence → Coherence) : (modCoh s f).threads = s.threads := rfl
@[simp] theorem modCoh_wgs (s : State) (f : Coherence → Coherence) : (modCoh s f).wgs = s.wgs := rfl
@[simp] theorem modCoh_nextWg (s : State) (f : Coherence → Coherence) : (modCoh s f).nextWg = s.nextWg := rfl
@[simp] theorem modCoh_cores (s : State) (f : Coherence → Coherence) : (modCoh s f).cores = s.cores := rfl
@[simp] theorem modCoh_quads (s : State) (f : Coherence → Coherence) : (modCoh s f).quads = s.quads := rfl
@[simp] theorem modCoh_dies (s : State) (f : Coherence → Coherence) : (modCoh s f).dies = s.dies := rfl
@[simp] theorem modCoh_spaces (s : State) (f : Coherence → Coherence) : (modCoh s f).spaces = s.spaces := rfl
@[simp] theorem modCoh_tlb (s : State) (f : Coherence → Coherence) : (modCoh s f).tlb = s.tlb := rfl
@[simp] theorem modCoh_regions (s : State) (f : Coherence → Coherence) : (modCoh s f).regions = s.regions := rfl
@[simp] theorem modCoh_fabric (s : State) (f : Coherence → Coherence) : (modCoh s f).fabric = s.fabric := rfl
@[simp] theorem modCoh_annex (s : State) (f : Coherence → Coherence) : (modCoh s f).annex = s.annex := rfl
@[simp] theorem modCoh_contexts (s : State) (f : Coherence → Coherence) : (modCoh s f).contexts = s.contexts := rfl
@[simp] theorem modCoh_module (s : State) (f : Coherence → Coherence) : (modCoh s f).module = s.module := rfl

/-! ### writeBytes -/

@[simp] theorem writeBytes_schedule (s : State) (l : Nat) (bs : List Byte) : (writeBytes s l bs).schedule = s.schedule := rfl
@[simp] theorem writeBytes_delays (s : State) (l : Nat) (bs : List Byte) : (writeBytes s l bs).delays = s.delays := rfl
@[simp] theorem writeBytes_clock (s : State) (l : Nat) (bs : List Byte) : (writeBytes s l bs).clock = s.clock := rfl
@[simp] theorem writeBytes_cur (s : State) (l : Nat) (bs : List Byte) : (writeBytes s l bs).cur = s.cur := rfl
@[simp] theorem writeBytes_issue (s : State) (l : Nat) (bs : List Byte) : (writeBytes s l bs).issue = s.issue := rfl
@[simp] theorem writeBytes_draws (s : State) (l : Nat) (bs : List Byte) : (writeBytes s l bs).draws = s.draws := rfl
@[simp] theorem writeBytes_threads (s : State) (l : Nat) (bs : List Byte) : (writeBytes s l bs).threads = s.threads := rfl
@[simp] theorem writeBytes_wgs (s : State) (l : Nat) (bs : List Byte) : (writeBytes s l bs).wgs = s.wgs := rfl
@[simp] theorem writeBytes_nextWg (s : State) (l : Nat) (bs : List Byte) : (writeBytes s l bs).nextWg = s.nextWg := rfl
@[simp] theorem writeBytes_cores (s : State) (l : Nat) (bs : List Byte) : (writeBytes s l bs).cores = s.cores := rfl
@[simp] theorem writeBytes_quads (s : State) (l : Nat) (bs : List Byte) : (writeBytes s l bs).quads = s.quads := rfl
@[simp] theorem writeBytes_dies (s : State) (l : Nat) (bs : List Byte) : (writeBytes s l bs).dies = s.dies := rfl
@[simp] theorem writeBytes_spaces (s : State) (l : Nat) (bs : List Byte) : (writeBytes s l bs).spaces = s.spaces := rfl
@[simp] theorem writeBytes_tlb (s : State) (l : Nat) (bs : List Byte) : (writeBytes s l bs).tlb = s.tlb := rfl
@[simp] theorem writeBytes_coh (s : State) (l : Nat) (bs : List Byte) : (writeBytes s l bs).coh = s.coh := rfl
@[simp] theorem writeBytes_regions (s : State) (l : Nat) (bs : List Byte) : (writeBytes s l bs).regions = s.regions := rfl
@[simp] theorem writeBytes_fabric (s : State) (l : Nat) (bs : List Byte) : (writeBytes s l bs).fabric = s.fabric := rfl
@[simp] theorem writeBytes_annex (s : State) (l : Nat) (bs : List Byte) : (writeBytes s l bs).annex = s.annex := rfl
@[simp] theorem writeBytes_contexts (s : State) (l : Nat) (bs : List Byte) : (writeBytes s l bs).contexts = s.contexts := rfl
@[simp] theorem writeBytes_module (s : State) (l : Nat) (bs : List Byte) : (writeBytes s l bs).module = s.module := rfl

/-! ### The unit that an update reaches -/

@[simp] theorem thr_setThr_self (s : State) (i : Nat) (x : Thread) : thr (setThr s i x) i = x := by simp [thr_setThr]
@[simp] theorem thr_modThr_self (s : State) (i : Nat) (f : Thread → Thread) : thr (modThr s i f) i = f (thr s i) := by
  simp [thr_modThr]
@[simp] theorem wgOf_setWg_self (s : State) (i : Nat) (x : Workgroup) : wgOf (setWg s i x) i = x := by simp [wgOf_setWg]
@[simp] theorem wgOf_modWg_self (s : State) (i : Nat) (f : Workgroup → Workgroup) : wgOf (modWg s i f) i = f (wgOf s i) := by
  simp [wgOf_modWg]
@[simp] theorem coreOf_setCore_self (s : State) (i : Nat) (x : Core) : coreOf (setCore s i x) i = x := by simp [coreOf_setCore]
@[simp] theorem coreOf_modCore_self (s : State) (i : Nat) (f : Core → Core) : coreOf (modCore s i f) i = f (coreOf s i) := by
  simp [coreOf_modCore]
@[simp] theorem quadOf_setQuad_self (s : State) (i : Nat) (x : Quad) : quadOf (setQuad s i x) i = x := by simp [quadOf_setQuad]
@[simp] theorem quadOf_modQuad_self (s : State) (i : Nat) (f : Quad → Quad) : quadOf (modQuad s i f) i = f (quadOf s i) := by
  simp [quadOf_modQuad]
@[simp] theorem dieOf_setDie_self (s : State) (i : Nat) (x : Die) : dieOf (setDie s i x) i = x := by simp [dieOf_setDie]
@[simp] theorem dieOf_modDie_self (s : State) (i : Nat) (f : Die → Die) : dieOf (modDie s i f) i = f (dieOf s i) := by
  simp [dieOf_modDie]
@[simp] theorem portOf_setPort_self (s : State) (i : Nat) (x : Port) : portOf (setPort s i x) i = x := by simp [portOf_setPort]
@[simp] theorem portOf_modPort_self (s : State) (i : Nat) (f : Port → Port) : portOf (modPort s i f) i = f (portOf s i) := by
  simp [portOf_modPort]

/-! ### Units that another kind of update leaves alone -/

@[simp] theorem thr_setWg (s : State) (j : Nat) (i : Nat) (x : Workgroup) : thr (setWg s i x) j = thr s j := rfl
@[simp] theorem thr_modWg (s : State) (j : Nat) (i : Nat) (f : Workgroup → Workgroup) : thr (modWg s i f) j = thr s j := rfl
@[simp] theorem thr_setCore (s : State) (j : Nat) (i : Nat) (x : Core) : thr (setCore s i x) j = thr s j := rfl
@[simp] theorem thr_modCore (s : State) (j : Nat) (i : Nat) (f : Core → Core) : thr (modCore s i f) j = thr s j := rfl
@[simp] theorem thr_modMx (s : State) (j : Nat) (i : Nat) (f : Matrix → Matrix) : thr (modMx s i f) j = thr s j := rfl
@[simp] theorem thr_setQuad (s : State) (j : Nat) (i : Nat) (x : Quad) : thr (setQuad s i x) j = thr s j := rfl
@[simp] theorem thr_modQuad (s : State) (j : Nat) (i : Nat) (f : Quad → Quad) : thr (modQuad s i f) j = thr s j := rfl
@[simp] theorem thr_setDie (s : State) (j : Nat) (i : Nat) (x : Die) : thr (setDie s i x) j = thr s j := rfl
@[simp] theorem thr_modDie (s : State) (j : Nat) (i : Nat) (f : Die → Die) : thr (modDie s i f) j = thr s j := rfl
@[simp] theorem thr_modColl (s : State) (j : Nat) (i : Nat) (f : Collective → Collective) : thr (modColl s i f) j = thr s j := rfl
@[simp] theorem thr_setPort (s : State) (j : Nat) (i : Nat) (x : Port) : thr (setPort s i x) j = thr s j := rfl
@[simp] theorem thr_modPort (s : State) (j : Nat) (i : Nat) (f : Port → Port) : thr (modPort s i f) j = thr s j := rfl
@[simp] theorem thr_modAnnex (s : State) (j : Nat) (f : Annex → Annex) : thr (modAnnex s f) j = thr s j := rfl
@[simp] theorem thr_modModule (s : State) (j : Nat) (f : Module → Module) : thr (modModule s f) j = thr s j := rfl
@[simp] theorem thr_modCoh (s : State) (j : Nat) (f : Coherence → Coherence) : thr (modCoh s f) j = thr s j := rfl
@[simp] theorem thr_writeBytes (s : State) (j : Nat) (l : Nat) (bs : List Byte) : thr (writeBytes s l bs) j = thr s j := rfl
@[simp] theorem wgOf_setThr (s : State) (j : Nat) (i : Nat) (x : Thread) : wgOf (setThr s i x) j = wgOf s j := rfl
@[simp] theorem wgOf_modThr (s : State) (j : Nat) (i : Nat) (f : Thread → Thread) : wgOf (modThr s i f) j = wgOf s j := rfl
@[simp] theorem wgOf_setCore (s : State) (j : Nat) (i : Nat) (x : Core) : wgOf (setCore s i x) j = wgOf s j := rfl
@[simp] theorem wgOf_modCore (s : State) (j : Nat) (i : Nat) (f : Core → Core) : wgOf (modCore s i f) j = wgOf s j := rfl
@[simp] theorem wgOf_modMx (s : State) (j : Nat) (i : Nat) (f : Matrix → Matrix) : wgOf (modMx s i f) j = wgOf s j := rfl
@[simp] theorem wgOf_setQuad (s : State) (j : Nat) (i : Nat) (x : Quad) : wgOf (setQuad s i x) j = wgOf s j := rfl
@[simp] theorem wgOf_modQuad (s : State) (j : Nat) (i : Nat) (f : Quad → Quad) : wgOf (modQuad s i f) j = wgOf s j := rfl
@[simp] theorem wgOf_setDie (s : State) (j : Nat) (i : Nat) (x : Die) : wgOf (setDie s i x) j = wgOf s j := rfl
@[simp] theorem wgOf_modDie (s : State) (j : Nat) (i : Nat) (f : Die → Die) : wgOf (modDie s i f) j = wgOf s j := rfl
@[simp] theorem wgOf_modColl (s : State) (j : Nat) (i : Nat) (f : Collective → Collective) : wgOf (modColl s i f) j = wgOf s j := rfl
@[simp] theorem wgOf_setPort (s : State) (j : Nat) (i : Nat) (x : Port) : wgOf (setPort s i x) j = wgOf s j := rfl
@[simp] theorem wgOf_modPort (s : State) (j : Nat) (i : Nat) (f : Port → Port) : wgOf (modPort s i f) j = wgOf s j := rfl
@[simp] theorem wgOf_modAnnex (s : State) (j : Nat) (f : Annex → Annex) : wgOf (modAnnex s f) j = wgOf s j := rfl
@[simp] theorem wgOf_modModule (s : State) (j : Nat) (f : Module → Module) : wgOf (modModule s f) j = wgOf s j := rfl
@[simp] theorem wgOf_modCoh (s : State) (j : Nat) (f : Coherence → Coherence) : wgOf (modCoh s f) j = wgOf s j := rfl
@[simp] theorem wgOf_writeBytes (s : State) (j : Nat) (l : Nat) (bs : List Byte) : wgOf (writeBytes s l bs) j = wgOf s j := rfl
@[simp] theorem coreOf_setThr (s : State) (j : Nat) (i : Nat) (x : Thread) : coreOf (setThr s i x) j = coreOf s j := rfl
@[simp] theorem coreOf_modThr (s : State) (j : Nat) (i : Nat) (f : Thread → Thread) : coreOf (modThr s i f) j = coreOf s j := rfl
@[simp] theorem coreOf_setWg (s : State) (j : Nat) (i : Nat) (x : Workgroup) : coreOf (setWg s i x) j = coreOf s j := rfl
@[simp] theorem coreOf_modWg (s : State) (j : Nat) (i : Nat) (f : Workgroup → Workgroup) : coreOf (modWg s i f) j = coreOf s j := rfl
@[simp] theorem coreOf_setQuad (s : State) (j : Nat) (i : Nat) (x : Quad) : coreOf (setQuad s i x) j = coreOf s j := rfl
@[simp] theorem coreOf_modQuad (s : State) (j : Nat) (i : Nat) (f : Quad → Quad) : coreOf (modQuad s i f) j = coreOf s j := rfl
@[simp] theorem coreOf_setDie (s : State) (j : Nat) (i : Nat) (x : Die) : coreOf (setDie s i x) j = coreOf s j := rfl
@[simp] theorem coreOf_modDie (s : State) (j : Nat) (i : Nat) (f : Die → Die) : coreOf (modDie s i f) j = coreOf s j := rfl
@[simp] theorem coreOf_modColl (s : State) (j : Nat) (i : Nat) (f : Collective → Collective) : coreOf (modColl s i f) j = coreOf s j := rfl
@[simp] theorem coreOf_setPort (s : State) (j : Nat) (i : Nat) (x : Port) : coreOf (setPort s i x) j = coreOf s j := rfl
@[simp] theorem coreOf_modPort (s : State) (j : Nat) (i : Nat) (f : Port → Port) : coreOf (modPort s i f) j = coreOf s j := rfl
@[simp] theorem coreOf_modAnnex (s : State) (j : Nat) (f : Annex → Annex) : coreOf (modAnnex s f) j = coreOf s j := rfl
@[simp] theorem coreOf_modModule (s : State) (j : Nat) (f : Module → Module) : coreOf (modModule s f) j = coreOf s j := rfl
@[simp] theorem coreOf_modCoh (s : State) (j : Nat) (f : Coherence → Coherence) : coreOf (modCoh s f) j = coreOf s j := rfl
@[simp] theorem coreOf_writeBytes (s : State) (j : Nat) (l : Nat) (bs : List Byte) : coreOf (writeBytes s l bs) j = coreOf s j := rfl
@[simp] theorem quadOf_setThr (s : State) (j : Nat) (i : Nat) (x : Thread) : quadOf (setThr s i x) j = quadOf s j := rfl
@[simp] theorem quadOf_modThr (s : State) (j : Nat) (i : Nat) (f : Thread → Thread) : quadOf (modThr s i f) j = quadOf s j := rfl
@[simp] theorem quadOf_setWg (s : State) (j : Nat) (i : Nat) (x : Workgroup) : quadOf (setWg s i x) j = quadOf s j := rfl
@[simp] theorem quadOf_modWg (s : State) (j : Nat) (i : Nat) (f : Workgroup → Workgroup) : quadOf (modWg s i f) j = quadOf s j := rfl
@[simp] theorem quadOf_setCore (s : State) (j : Nat) (i : Nat) (x : Core) : quadOf (setCore s i x) j = quadOf s j := rfl
@[simp] theorem quadOf_modCore (s : State) (j : Nat) (i : Nat) (f : Core → Core) : quadOf (modCore s i f) j = quadOf s j := rfl
@[simp] theorem quadOf_modMx (s : State) (j : Nat) (i : Nat) (f : Matrix → Matrix) : quadOf (modMx s i f) j = quadOf s j := rfl
@[simp] theorem quadOf_setDie (s : State) (j : Nat) (i : Nat) (x : Die) : quadOf (setDie s i x) j = quadOf s j := rfl
@[simp] theorem quadOf_modDie (s : State) (j : Nat) (i : Nat) (f : Die → Die) : quadOf (modDie s i f) j = quadOf s j := rfl
@[simp] theorem quadOf_modColl (s : State) (j : Nat) (i : Nat) (f : Collective → Collective) : quadOf (modColl s i f) j = quadOf s j := rfl
@[simp] theorem quadOf_setPort (s : State) (j : Nat) (i : Nat) (x : Port) : quadOf (setPort s i x) j = quadOf s j := rfl
@[simp] theorem quadOf_modPort (s : State) (j : Nat) (i : Nat) (f : Port → Port) : quadOf (modPort s i f) j = quadOf s j := rfl
@[simp] theorem quadOf_modAnnex (s : State) (j : Nat) (f : Annex → Annex) : quadOf (modAnnex s f) j = quadOf s j := rfl
@[simp] theorem quadOf_modModule (s : State) (j : Nat) (f : Module → Module) : quadOf (modModule s f) j = quadOf s j := rfl
@[simp] theorem quadOf_modCoh (s : State) (j : Nat) (f : Coherence → Coherence) : quadOf (modCoh s f) j = quadOf s j := rfl
@[simp] theorem quadOf_writeBytes (s : State) (j : Nat) (l : Nat) (bs : List Byte) : quadOf (writeBytes s l bs) j = quadOf s j := rfl
@[simp] theorem dieOf_setThr (s : State) (j : Nat) (i : Nat) (x : Thread) : dieOf (setThr s i x) j = dieOf s j := rfl
@[simp] theorem dieOf_modThr (s : State) (j : Nat) (i : Nat) (f : Thread → Thread) : dieOf (modThr s i f) j = dieOf s j := rfl
@[simp] theorem dieOf_setWg (s : State) (j : Nat) (i : Nat) (x : Workgroup) : dieOf (setWg s i x) j = dieOf s j := rfl
@[simp] theorem dieOf_modWg (s : State) (j : Nat) (i : Nat) (f : Workgroup → Workgroup) : dieOf (modWg s i f) j = dieOf s j := rfl
@[simp] theorem dieOf_setCore (s : State) (j : Nat) (i : Nat) (x : Core) : dieOf (setCore s i x) j = dieOf s j := rfl
@[simp] theorem dieOf_modCore (s : State) (j : Nat) (i : Nat) (f : Core → Core) : dieOf (modCore s i f) j = dieOf s j := rfl
@[simp] theorem dieOf_modMx (s : State) (j : Nat) (i : Nat) (f : Matrix → Matrix) : dieOf (modMx s i f) j = dieOf s j := rfl
@[simp] theorem dieOf_setQuad (s : State) (j : Nat) (i : Nat) (x : Quad) : dieOf (setQuad s i x) j = dieOf s j := rfl
@[simp] theorem dieOf_modQuad (s : State) (j : Nat) (i : Nat) (f : Quad → Quad) : dieOf (modQuad s i f) j = dieOf s j := rfl
@[simp] theorem dieOf_setPort (s : State) (j : Nat) (i : Nat) (x : Port) : dieOf (setPort s i x) j = dieOf s j := rfl
@[simp] theorem dieOf_modPort (s : State) (j : Nat) (i : Nat) (f : Port → Port) : dieOf (modPort s i f) j = dieOf s j := rfl
@[simp] theorem dieOf_modAnnex (s : State) (j : Nat) (f : Annex → Annex) : dieOf (modAnnex s f) j = dieOf s j := rfl
@[simp] theorem dieOf_modModule (s : State) (j : Nat) (f : Module → Module) : dieOf (modModule s f) j = dieOf s j := rfl
@[simp] theorem dieOf_modCoh (s : State) (j : Nat) (f : Coherence → Coherence) : dieOf (modCoh s f) j = dieOf s j := rfl
@[simp] theorem dieOf_writeBytes (s : State) (j : Nat) (l : Nat) (bs : List Byte) : dieOf (writeBytes s l bs) j = dieOf s j := rfl
@[simp] theorem portOf_setThr (s : State) (j : Nat) (i : Nat) (x : Thread) : portOf (setThr s i x) j = portOf s j := rfl
@[simp] theorem portOf_modThr (s : State) (j : Nat) (i : Nat) (f : Thread → Thread) : portOf (modThr s i f) j = portOf s j := rfl
@[simp] theorem portOf_setWg (s : State) (j : Nat) (i : Nat) (x : Workgroup) : portOf (setWg s i x) j = portOf s j := rfl
@[simp] theorem portOf_modWg (s : State) (j : Nat) (i : Nat) (f : Workgroup → Workgroup) : portOf (modWg s i f) j = portOf s j := rfl
@[simp] theorem portOf_setCore (s : State) (j : Nat) (i : Nat) (x : Core) : portOf (setCore s i x) j = portOf s j := rfl
@[simp] theorem portOf_modCore (s : State) (j : Nat) (i : Nat) (f : Core → Core) : portOf (modCore s i f) j = portOf s j := rfl
@[simp] theorem portOf_modMx (s : State) (j : Nat) (i : Nat) (f : Matrix → Matrix) : portOf (modMx s i f) j = portOf s j := rfl
@[simp] theorem portOf_setQuad (s : State) (j : Nat) (i : Nat) (x : Quad) : portOf (setQuad s i x) j = portOf s j := rfl
@[simp] theorem portOf_modQuad (s : State) (j : Nat) (i : Nat) (f : Quad → Quad) : portOf (modQuad s i f) j = portOf s j := rfl
@[simp] theorem portOf_setDie (s : State) (j : Nat) (i : Nat) (x : Die) : portOf (setDie s i x) j = portOf s j := rfl
@[simp] theorem portOf_modDie (s : State) (j : Nat) (i : Nat) (f : Die → Die) : portOf (modDie s i f) j = portOf s j := rfl
@[simp] theorem portOf_modColl (s : State) (j : Nat) (i : Nat) (f : Collective → Collective) : portOf (modColl s i f) j = portOf s j := rfl
@[simp] theorem portOf_modAnnex (s : State) (j : Nat) (f : Annex → Annex) : portOf (modAnnex s f) j = portOf s j := rfl
@[simp] theorem portOf_modModule (s : State) (j : Nat) (f : Module → Module) : portOf (modModule s f) j = portOf s j := rfl
@[simp] theorem portOf_modCoh (s : State) (j : Nat) (f : Coherence → Coherence) : portOf (modCoh s f) j = portOf s j := rfl
@[simp] theorem portOf_writeBytes (s : State) (j : Nat) (l : Nat) (bs : List Byte) : portOf (writeBytes s l bs) j = portOf s j := rfl

end Sys2Proof.Machine
end

