-- ==== Sys2Proof/Laws/Lane.lean ====
section
/-! SUPPORT. What an instruction of the lane engine does when nothing holds its gathering up: one law for every instruction
whose effect on a thread is a change of that thread. -/

namespace Sys2Proof.Machine

/-! ### Threads -/

theorem tset_tset {α : Type} (m : FMap α) (k : Nat) (a b : α) : tset (tset m k a) k b = tset m k b := by
  induction m with
  | nil => simp [tset]
  | cons e rest ih =>
    obtain ⟨i, x⟩ := e
    by_cases h1 : i = k
    · simp [tset, h1]
    · by_cases h2 : k < i
      · simp [tset, h1, h2]
      · simp [tset, h1, h2, ih]

theorem modThr_modThr (s : State) (i : Nat) (f g : Thread → Thread) :
    modThr (modThr s i f) i g = modThr s i (fun t => g (f t)) := by
  simp only [modThr, thr_setThr_self]
  simp [setThr, tset_tset]

@[simp] theorem clearLatches_setLatch (t : Thread) (k : Nat) (l : Latch) : clearLatches (setLatch t k l) = clearLatches t := by
  have h : ∀ p : Pend, { (if p.k == k then { p with live := false } else p) with live := false } = { p with live := false } := by
    intro p
    split <;> rfl
  unfold setLatch clearLatches
  split <;> simp only [List.map_map, Function.comp_def, h]

@[simp] theorem clearLatches_idem (t : Thread) : clearLatches (clearLatches t) = clearLatches t := by
  simp [clearLatches]

/-- A thread whose latches are cleared twice, once before its PC changes. -/
theorem clearLatches_pc (t : Thread) (pc : Pc) : clearLatches { clearLatches t with pc } = clearLatches { t with pc } := by
  simp [clearLatches]

/-! ### The fold over a gathering -/

/-- The threads of a gathering for which `p` holds, each changed by `F`. -/
def changeAll (p : Nat → Bool) (F : Nat → Thread → Thread) (s : State) (g : List Nat) : State :=
  g.foldl (fun st i => if p i then modThr st i (F i) else st) s

theorem thr_changeAll_out (p : Nat → Bool) (F : Nat → Thread → Thread) (s : State) (g : List Nat) {j : Nat} (h : j ∉ g) :
    thr (changeAll p F s g) j = thr s j := by
  induction g generalizing s with
  | nil => rfl
  | cons i rest ih =>
    simp only [List.mem_cons, not_or] at h
    rw [changeAll, List.foldl_cons, ← changeAll, ih _ h.2]
    split
    · rw [thr_modThr, if_neg (Ne.symm h.1)]
    · rfl

theorem thr_changeAll_in (p : Nat → Bool) (F : Nat → Thread → Thread) (s : State) (g : List Nat) {j : Nat} (hn : g.Nodup)
    (h : j ∈ g) : thr (changeAll p F s g) j = if p j then F j (thr s j) else thr s j := by
  induction g generalizing s with
  | nil => simp at h
  | cons i rest ih =>
    simp only [List.nodup_cons] at hn
    rw [changeAll, List.foldl_cons, ← changeAll]
    rcases List.mem_cons.mp h with rfl | h'
    · rw [thr_changeAll_out _ _ _ _ hn.1]
      split <;> simp
    · have : i ≠ j := fun e => hn.1 (e ▸ h')
      rw [ih _ hn.2 h']
      by_cases hp : p i = true <;> simp [hp, thr_modThr, this]

/-- Only the threads change. -/
theorem changeAll_frame (p : Nat → Bool) (F : Nat → Thread → Thread) (s : State) (g : List Nat) :
    changeAll p F s g = { s with threads := (changeAll p F s g).threads } := by
  induction g generalizing s with
  | nil => rfl
  | cons i rest ih =>
    rw [changeAll, List.foldl_cons, ← changeAll, ih]
    split <;> rfl

/-! ### The end of a unit -/

theorem clearLatches_thr_switchLatches (s : State) (c : Nat) (g : List Nat) (det : Bool) (j : Nat) :
    clearLatches (thr (switchLatches s c g det) j) = clearLatches (thr s j) := by
  have key : ∀ m : FMap Thread,
      clearLatches (tgetD (m.map fun e =>
        if e.2.core == c && (!det || g.contains e.1) && !e.2.latchKeep then (e.1, clearLatches e.2) else e) j blankThread) =
      clearLatches (tgetD m j blankThread) := by
    intro m
    induction m with
    | nil => rfl
    | cons e rest ih =>
      obtain ⟨i, t⟩ := e
      simp only [List.map_cons]
      split <;> by_cases h : i = j <;> simp_all [tgetD, tget]
  exact key s.threads

/-- `u` differs from `s` only in latches, in the grouping stage, the clock gating and the counts of the cores, and in RETIRED
and the turn of the workgroups. -/
structure Calm (s u : State) : Prop where
  threads : ∀ j, clearLatches (thr u j) = clearLatches (thr s j)
  wgs : ∀ k, { wgOf u k with retired := 0, turn := 0, detGath := [] } = { wgOf s k with retired := 0, turn := 0, detGath := [] }
  cores : ∀ c, (coreOf u c).mx = (coreOf s c).mx ∧ (coreOf u c).icache = (coreOf s c).icache
  rest : u = { s with threads := u.threads, wgs := u.wgs, cores := u.cores, issue := u.issue }

theorem Calm.refl (s : State) : Calm s s := ⟨fun _ => rfl, fun _ => rfl, fun _ => ⟨rfl, rfl⟩, rfl⟩

theorem Calm.trans {s t u : State} (h1 : Calm s t) (h2 : Calm t u) : Calm s u where
  threads j := (h2.threads j).trans (h1.threads j)
  wgs k := (h2.wgs k).trans (h1.wgs k)
  cores c := ⟨(h2.cores c).1.trans (h1.cores c).1, (h2.cores c).2.trans (h1.cores c).2⟩
  rest := by
    rw [h2.rest, h1.rest]

theorem Calm.core (s : State) (c : Nat) (f : Core → Core) (h : ∀ x, (f x).mx = x.mx ∧ (f x).icache = x.icache) :
    Calm s (modCore s c f) where
  threads _ := rfl
  wgs _ := rfl
  cores k := by
    rw [coreOf_modCore]
    split
    · rename_i e; subst e; exact h _
    · exact ⟨rfl, rfl⟩
  rest := rfl

theorem Calm.wg (s : State) (i : Nat) (f : Workgroup → Workgroup)
    (h : ∀ w, { f w with retired := 0, turn := 0, detGath := [] } = { w with retired := 0, turn := 0, detGath := [] }) :
    Calm s (modWg s i f) where
  threads _ := rfl
  wgs k := by
    rw [wgOf_modWg]
    split
    · rename_i e; subst e; exact h _
    · rfl
  cores _ := ⟨rfl, rfl⟩
  rest := rfl

theorem Calm.regate (s : State) (c : Nat) : Calm s (regate s c) := by
  unfold Machine.regate
  split
  · split
    · exact Calm.refl s
    · exact Calm.core s c _ fun _ => ⟨rfl, rfl⟩
  · exact Calm.refl s

theorem Calm.switchLatches (s : State) (c : Nat) (g : List Nat) (det : Bool) : Calm s (switchLatches s c g det) :=
  ⟨clearLatches_thr_switchLatches s c g det, fun _ => rfl, fun _ => ⟨rfl, rfl⟩, rfl⟩

theorem Calm.issue (s : State) (x : Issue) : Calm s { s with issue := x } := ⟨fun _ => rfl, fun _ => rfl, fun _ => ⟨rfl, rfl⟩, rfl⟩

theorem Calm.retire (s : State) (c : Nat) (g : List Nat) (n : Nat) : Calm s (retire s c g n) := by
  unfold Machine.retire
  cases g with
  | nil => exact Calm.core s c _ fun _ => ⟨rfl, rfl⟩
  | cons i rest =>
    refine Calm.trans ?_ (Calm.wg _ _ _ fun _ => rfl)
    exact Calm.core s c _ fun _ => ⟨rfl, rfl⟩

theorem Calm.settle (s : State) (c : Nat) (g rest : List Nat) (sw : Bool) : Calm s (settle s c g rest sw) := by
  have h1 : ∀ d : Bool, Calm s (if sw then Machine.switchLatches s c g d else s) := by
    intro d
    cases sw
    · exact Calm.refl s
    · exact Calm.switchLatches s c g d
  unfold Machine.settle
  by_cases hd : detGathering s g = true
  · simp only [hd, if_true]
    refine (h1 true).trans ?_
    cases g with
    | nil => exact Calm.refl _
    | cons i r =>
      refine Calm.trans ?_ (Calm.regate _ c)
      refine Calm.trans ?_ (Calm.core _ c _ fun _ => ⟨rfl, rfl⟩)
      exact Calm.wg _ _ _ fun _ => rfl
  · simp only [hd, if_false, Bool.false_eq_true]
    refine (h1 false).trans ?_
    refine Calm.trans ?_ (Calm.regate _ c)
    exact Calm.core _ c _ fun _ => ⟨rfl, rfl⟩

/-! ### The law -/

theorem openIssue_ready (s : State) (hs : Ready s) : openIssue s = s := by
  have : ∀ g : List Nat, g ⊆ gathering s →
      g.foldl (fun st i => if (thr st i).latchKeep then modThr st i fun t => { t with latchKeep := false } else st) s = s := by
    intro g
    induction g with
    | nil => intro _; rfl
    | cons i rest ih =>
      intro hg
      have hk := (hs.clear i (hg (List.mem_cons_self ..))).noKept
      rw [List.foldl_cons, hk]
      exact ih fun x hx => hg (List.mem_cons_of_mem _ hx)
  exact this _ fun _ h => h

/-! ### The law for parts that change more than their thread -/

/-- What one thread's part of an instruction answers, in the terms of `Runs`. -/
def Answers (r : LaneRes) (v : State) (go : Go) : Prop :=
  match r, go with
  | .done s', .next => s' = v
  | .done s', .stay => s' = v
  | .yield s', .next => s' = v
  | .jump s' pc, .jump pc' => s' = v ∧ pc = pc'
  | .wait s' w, .wait w' => s' = v ∧ w = w'
  | _, _ => False

/-- A thread as its part leaves it, where it goes on as `go` says; `t` is the thread before. -/
def Fit (t t' : Thread) (go : Go) : Prop :=
  t'.moved = false ∧ t'.pend = [] ∧
    match go with
    | .next => t'.exited = false ∧ t'.pc = t.pc ∧ ∀ l rest, t'.nest = l :: rest → l.stop ≠ t.pc
    | .stay => t'.exited = true
    | .jump _ => t'.exited = false
    | .wait _ => t'.exited = false ∧ ∀ l rest, t'.nest = l :: rest → l.stop ≠ t.pc

theorem turns_nil (s : State) (gd : Guard) (part : State → Nat → State) : turns s gd part [] = s := rfl

theorem turns_snoc (s : State) (gd : Guard) (part : State → Nat → State) (g : List Nat) (i : Nat) :
    turns s gd part (g ++ [i]) =
      if guardTrue (thr s i) gd then part (turns s gd part g) i else turns s gd part g := by
  simp [turns]

/-- Each part leaves the other threads of the gathering alone. -/
def Local (s : State) (gd : Guard) (part : State → Nat → State) : Prop :=
  AtTurns s gd part fun st i => ∀ j, j ≠ i → thr (part st i) j = thr st j

theorem thr_turns_out (s : State) (gd : Guard) (part : State → Nat → State) (hl : Local s gd part) :
    ∀ before after : List Nat, gathering s = before ++ after → ∀ j, j ∉ before → thr (turns s gd part before) j = thr s j := by
  intro before
  induction before using List.reverseRecOn with
  | nil => intros; rfl
  | append_singleton xs x ih =>
    intro after hg j hj
    simp only [List.mem_append, List.mem_singleton, not_or] at hj
    have hg' : gathering s = xs ++ x :: after := by simp [hg]
    rw [turns_snoc]
    split
    · rename_i h
      rw [hl xs x after hg' h j hj.2]
      exact ih _ hg' j hj.1
    · exact ih _ hg' j hj.1

/-- A thread after all turns is as its own turn left it. -/
theorem thr_turns_in (s : State) (gd : Guard) (part : State → Nat → State) (hl : Local s gd part) (hn : (gathering s).Nodup)
    {before after : List Nat} {i : Nat} (hg : gathering s = before ++ i :: after) :
    thr (turns s gd part (gathering s)) i =
      if guardTrue (thr s i) gd then thr (part (turns s gd part before) i) i else thr s i := by
  have key : ∀ mid rest : List Nat, after = mid ++ rest →
      thr (turns s gd part (before ++ i :: mid)) i =
        if guardTrue (thr s i) gd then thr (part (turns s gd part before) i) i else thr s i := by
    intro mid
    induction mid using List.reverseRecOn with
    | nil =>
      intro rest _
      rw [turns_snoc]
      split
      · rfl
      · refine thr_turns_out s gd part hl before (i :: after) hg i ?_
        rw [hg] at hn
        exact fun h => (List.nodup_append.mp hn).2.2 i h i (List.mem_cons_self ..) rfl
    | append_singleton xs x ih =>
      intro rest hm
      have hne : i ≠ x := by
        rintro rfl
        rw [hg, hm] at hn
        have := (List.nodup_append.mp hn).2.1
        simp at this
      have h1 := ih ([x] ++ rest) (by simp [hm])
      rw [show before ++ i :: (xs ++ [x]) = (before ++ i :: xs) ++ [x] by simp, turns_snoc]
      by_cases hx : guardTrue (thr s x) gd = true
      · rw [if_pos hx, hl (before ++ i :: xs) x rest (by simp [hg, hm]) hx i hne]
        exact h1
      · rw [if_neg hx]
        exact h1
  have := key after [] (by simp)
  rwa [← hg] at this

/-- What the parts of `g` ask for, one kind of thing: `f` gives it, if any. -/
def asked {α : Type} (s : State) (gd : Guard) (go : Nat → Go) (f : Go → Option α) (g : List Nat) : List (Nat × α) :=
  g.filterMap fun i => if guardTrue (thr s i) gd then (f (go i)).map (i, ·) else none

/-- The target of a transfer, and the wait of a suspension. -/
def Go.pc? : Go → Option Pc
  | .jump pc => some pc
  | _ => none
def Go.wait? : Go → Option Wait
  | .wait w => some w
  | _ => none

theorem asked_snoc {α : Type} (s : State) (gd : Guard) (go : Nat → Go) (f : Go → Option α) (g : List Nat) (i : Nat) :
    asked s gd go f (g ++ [i]) = asked s gd go f g ++ asked s gd go f [i] := by simp [asked]

theorem find_asked {α : Type} (s : State) (gd : Guard) (go : Nat → Go) (f : Go → Option α) (g : List Nat) {i : Nat}
    (hi : i ∈ g) :
    (asked s gd go f g).find? (fun x => x.1 == i) =
      if guardTrue (thr s i) gd then (f (go i)).map (i, ·) else none := by
  rw [asked, List.find?_filterMap]
  have hp : ∀ a, ((if guardTrue (thr s a) gd then (f (go a)).map (a, ·) else none).any fun x => x.1 == i) = true ↔
      a = i ∧ guardTrue (thr s i) gd = true ∧ (f (go i)).isSome = true := by
    intro a
    by_cases hg : guardTrue (thr s a) gd = true
    · cases h : f (go a) with
      | none => simp [hg]; rintro rfl _; simp [h]
      | some x =>
        simp only [hg, if_true, Option.map_some, Option.any_some, beq_iff_eq]
        exact ⟨by rintro rfl; simp [hg, h], fun h => h.1⟩
    · simp [hg]
      rintro rfl h; exact absurd h hg
  cases hf : g.find? (fun a => (if guardTrue (thr s a) gd then (f (go a)).map (a, ·) else none).any fun x => x.1 == i) with
  | none =>
    have := List.find?_eq_none.mp hf i hi
    rw [hp] at this
    simp only [true_and, not_and] at this
    simp only [Option.bind_none]
    split
    · rename_i hg
      have := this hg
      cases h : f (go i) <;> simp_all
    · rfl
  | some a =>
    have := (hp a).mp (List.find?_some (p := fun a => (if guardTrue (thr s a) gd then (f (go a)).map (a, ·) else none).any fun x => x.1 == i) hf)
    rw [← this.1]
    rfl

theorem loopEnd_noEnd {st : State} {i : Nat} {pc next : Pc} (h : ∀ l rest, (thr st i).nest = l :: rest → l.stop ≠ pc) :
    loopEnd st i [pc] next = .ok (next, (thr st i).nest, false, false) := by
  unfold loopEnd
  simp only
  split
  · rename_i e; rw [e]
  · rename_i l r e
    simp [h l r e]

/-- What `lanePart` builds of a gathering. -/
theorem foldl_lanePart_turns (s : State) (o : Ops) (needs : State → Nat → List (Src × Need))
    (body : State → State → Nat → LaneRes) (part : State → Nat → State) (go : Nat → Go) (hs : Ready s)
    (hl : Local s o.gd part)
    (hneeds : AtTurns s o.gd part fun st i => operandTrap (thr st i) (needs st i) = none)
    (hbody : AtTurns s o.gd part fun st i => Answers (body s st i) (part st i) (go i))
    (hissue : AtTurns s o.gd part fun st i => (part st i).issue = st.issue)
    (hfit : AtTurns s o.gd part fun st i => Fit (thr s i) (thr (part st i) i) (go i))
    (g rest : List Nat) (hg : gathering s = g ++ rest) :
    ∃ sw, g.foldl (lanePart s o needs body) { st := s, traps := [], jumps := [], waits := [], hold := none, stall := none, switch := false } =
      { st := turns s o.gd part g, traps := [], jumps := asked s o.gd go Go.pc? g, waits := asked s o.gd go Go.wait? g,
        hold := none, stall := none, switch := sw } ∧ (turns s o.gd part g).issue = s.issue := by
  induction g using List.reverseRecOn generalizing rest with
  | nil => exact ⟨false, rfl, rfl⟩
  | append_singleton xs i ih =>
    have hg' : gathering s = xs ++ i :: rest := by simp [hg]
    obtain ⟨sw, hx, hi⟩ := ih (i :: rest) hg'
    have hgi : i ∈ gathering s := by simp [hg']
    have hni : i ∉ xs := by
      have := hs.once
      rw [hg'] at this
      exact fun h => (List.nodup_append.mp this).2.2 i h i (List.mem_cons_self ..) rfl
    have hti : thr (turns s o.gd part xs) i = thr s i := thr_turns_out s o.gd part hl xs _ hg' i hni
    have hc := hs.clear i hgi
    have hecc : ∀ x, srcEcc (thr s i) x = none := by
      intro x
      cases x <;> simp [srcEcc, hc.noEcc.1, hc.noEcc.2]
    have hno : eccHit (thr s i) o = none := by simp [eccHit, hecc]
    rw [List.foldl_append, hx, turns_snoc, asked_snoc, asked_snoc]
    simp only [List.foldl_cons, List.foldl_nil]
    unfold lanePart
    by_cases hgd : guardTrue (thr s i) o.gd = true
    · have hb := hbody xs i rest hg' hgd
      have hn := hneeds xs i rest hg' hgd
      have hf := hfit xs i rest hg' hgd
      have his := hissue xs i rest hg' hgd
      generalize turns s o.gd part xs = st at *
      simp only [hgd, if_true]
      simp only [hti] at hn
      simp only [hti, hc.runs.1, hgd, hn, hno, hi, hs.alone]
      generalize hr : body s st i = r at hb
      cases hgo : go i with
      | next =>
        rw [hgo] at hb hf
        have hle := loopEnd_noEnd (next := nextSlot (insPc s i)) hf.2.2.2.2
        cases r with
        | done s' =>
          refine ⟨sw, ?_, by rw [his, hi]⟩
          simp only [Answers] at hb; subst hb
          simp [unitPcs, hs.alone, hf.1, hf.2.2.1, hle, asked, hgo, hgd, Go.pc?, Go.wait?]
        | yield s' =>
          refine ⟨true, ?_, by rw [his, hi]⟩
          simp only [Answers] at hb; subst hb
          simp [unitPcs, hs.alone, hf.1, hf.2.2.1, hle, asked, hgo, hgd, Go.pc?, Go.wait?]
        | _ => simp [Answers] at hb
      | stay =>
        rw [hgo] at hb hf
        cases r with
        | done s' =>
          refine ⟨sw, ?_, by rw [his, hi]⟩
          simp only [Answers] at hb; subst hb
          have h2 : (thr (part st i) i).exited = true := hf.2.2
          simp [hf.1, h2, asked, hgo, hgd, Go.pc?, Go.wait?]
        | _ => simp [Answers] at hb
      | jump pc =>
        rw [hgo] at hb hf
        cases r with
        | jump s' t =>
          refine ⟨sw, ?_, by rw [his, hi]⟩
          simp only [Answers] at hb; obtain ⟨rfl, rfl⟩ := hb
          simp [asked, hgo, hgd, Go.pc?, Go.wait?]
        | _ => simp [Answers] at hb
      | wait w =>
        rw [hgo] at hb hf
        have hle := loopEnd_noEnd (next := nextSlot (insPc s i)) hf.2.2.2
        cases r with
        | wait s' w' =>
          refine ⟨sw, ?_, by rw [his, hi]⟩
          simp only [Answers] at hb; obtain ⟨rfl, rfl⟩ := hb
          have h2 : (thr (part st i) i).exited = false := hf.2.2.1
          simp [unitPcs, hs.alone, hf.1, h2, hle, asked, hgo, hgd, Go.pc?, Go.wait?]
        | _ => simp [Answers] at hb
    · simp only [Bool.not_eq_true] at hgd
      have hle := loopEnd_noEnd (st := turns s o.gd part xs) (next := nextSlot (insPc s i)) (pc := (thr s i).pc)
        (by rw [hti]; exact hc.noEnd)
      refine ⟨sw, ?_, by simpa [hgd] using hi⟩
      simp [hti, hc.runs.1, hc.runs.2.1, hgd, hecc, hi, hs.alone, unitPcs, hle, asked]

/-- The end of a unit of one instruction whose threads go on as `go` says. -/
theorem finishUnit_go (s st : State) (sw : Bool) (jumps : List (Nat × Pc)) (waits : List (Nat × Wait)) (go : Nat → Go)
    (hs : Ready s) (hjump : ∀ i ∈ gathering s, jumps.find? (fun x => x.1 == i) = (go i).pc?.map (i, ·))
    (hwait : ∀ i ∈ gathering s, waits.find? (fun x => x.1 == i) = (go i).wait?.map (i, ·))
    (hfit : ∀ i ∈ gathering s, Fit (thr s i) (thr st i) (go i)) :
    ∃ t, Calm t (finishUnit s { st, traps := [], jumps, waits, hold := none, stall := none, switch := sw } 1) ∧
      t = changeAll (fun i => go i != .stay) (fun i => goes ((go i).kept s)) st (gathering s) := by
  have hone : ∀ (acc : State) (b : Bool) (i : Nat), i ∈ gathering s → thr acc i = thr st i → go i = .next →
      advance acc i (unitPcs s i) (nextSlot (insPc s i)) = (modThr acc i (goes ((go i).kept s)), false) := by
    intro acc b i hi hai hgo
    have hf := hfit i hi
    rw [hgo] at hf
    unfold advance
    simp only [unitPcs, insPc, hs.alone]
    rw [loopEnd_noEnd (by rw [hai]; exact hf.2.2.2.2)]
    simp [hgo, goes, Go.kept, modThr, hai, hf.2.2.2.1]
  have hfold : ∀ f : State × Bool → Nat → State × Bool,
      (∀ acc b i, i ∈ gathering s → thr acc i = thr st i →
        (f (acc, b) i).1 = if go i != .stay then modThr acc i (goes ((go i).kept s)) else acc) →
      ∀ (g : List Nat) (acc : State) (b : Bool), g ⊆ gathering s → g.Nodup → (∀ i ∈ g, thr acc i = thr st i) →
      (g.foldl f (acc, b)).1 = changeAll (fun i => go i != .stay) (fun i => goes ((go i).kept s)) acc g := by
    intro f hf g
    induction g with
    | nil => intros; rfl
    | cons i rest ih =>
      intro acc b hg hn ha
      have h1 := hf acc b i (hg (List.mem_cons_self ..)) (ha i (List.mem_cons_self ..))
      rw [List.foldl_cons, changeAll, List.foldl_cons, ← changeAll, ← h1]
      refine ih _ _ (fun x hx => hg (List.mem_cons_of_mem _ hx)) (List.nodup_cons.mp hn).2 ?_
      intro j hj
      have : i ≠ j := fun e => (List.nodup_cons.mp hn).1 (e ▸ hj)
      rw [h1]
      split
      · rw [thr_modThr, if_neg this]
        exact ha j (List.mem_cons_of_mem _ hj)
      · exact ha j (List.mem_cons_of_mem _ hj)
  refine ⟨_, ?_, rfl⟩
  have hstay : (gathering s).filter (fun i => !(([] ++ [] : List (Nat × TrapInfo)).any fun x => x.1 == i)) = gathering s := by simp
  unfold finishUnit
  simp only [hs.fresh.1, hs.fresh.2, hs.group, List.nil_append]
  rw [show ([] : List (Nat × TrapInfo)) = [] ++ [] from rfl, hstay]
  simp only [List.append_nil, List.foldl_nil]
  rw [hfold _ (by
    intro acc b i hi hai
    have hf := hfit i hi
    simp only [hai, hf.1, Bool.false_eq_true, if_false, hjump i hi, hwait i hi]
    cases hgo : go i with
    | next =>
      rw [hgo] at hf
      have h2 : (thr st i).exited = false := hf.2.2.1
      simp [h2, Go.pc?, Go.wait?, hone acc b i hi hai hgo, hgo]
    | stay =>
      rw [hgo] at hf
      have h2 : (thr st i).exited = true := hf.2.2
      simp [h2]
    | jump pc =>
      rw [hgo] at hf
      have h2 : (thr st i).exited = false := hf.2.2
      simp [h2, Go.pc?]
      rfl
    | wait w =>
      rw [hgo] at hf
      have h2 : (thr st i).exited = false := hf.2.2.1
      simp [h2, Go.pc?, Go.wait?]
      rfl) (gathering s) st _ (fun _ h => h) hs.once (fun _ _ => rfl)]
  generalize hS : changeAll (fun i => go i != .stay) (fun i => goes ((go i).kept s)) st (gathering s) = t1
  have ht1 : ∀ i ∈ gathering s, (thr t1 i).moved = false ∧ (thr t1 i).pend = [] := by
    intro i hi
    have hf := hfit i hi
    rw [← hS, thr_changeAll_in _ _ _ _ hs.once hi]
    split
    · cases hgo : go i <;> exact ⟨hf.1, hf.2.1⟩
    · exact ⟨hf.1, hf.2.1⟩
  have h3 : ∀ f : State → Nat → State, (∀ i ∈ gathering s, f t1 i = t1) → ∀ g ⊆ gathering s, g.foldl f t1 = t1 := by
    intro f hf g
    induction g with
    | nil => intros; rfl
    | cons i rest ih =>
      intro hg
      rw [List.foldl_cons, hf i (hg (List.mem_cons_self ..))]
      exact ih fun x hx => hg (List.mem_cons_of_mem _ hx)
  rw [h3 _ (by intro i hi; simp [ht1 i hi]) (gathering s) (fun _ h => h)]
  refine Calm.trans (Calm.trans ?_ (Calm.issue _ _)) (Calm.settle _ _ _ _ _)
  exact Calm.retire _ _ _ _

/-- An instruction of the lane engine that each thread of a gathering completes. -/
theorem laneOpWith_runs (s : State) (bad : State → Nat → Bool) (o : Ops) (needs : State → Nat → List (Src × Need))
    (body : State → State → Nat → LaneRes) (part : State → Nat → State) (go : Nat → Go) (hs : Ready s)
    (hb : ∀ i ∈ gathering s, opsBeyond (wgOf s (tidWg i)) (tidQuire i) o = false ∧ bad s i = false)
    (hl : Local s o.gd part)
    (hneeds : AtTurns s o.gd part fun st i => operandTrap (thr st i) (needs st i) = none)
    (hbody : AtTurns s o.gd part fun st i => Answers (body s st i) (part st i) (go i))
    (hissue : AtTurns s o.gd part fun st i => (part st i).issue = st.issue)
    (hfit : AtTurns s o.gd part fun st i => Fit (thr s i) (thr (part st i) i) (go i)) :
    ∃ u, laneOpWith bad o needs body s = .next u ∧
      Passed s (turns s o.gd part (gathering s)) u (fun j => if guardTrue (thr s j) o.gd then (go j).kept s else .next) := by
  have hg : (gathering s).filter (fun i => !(s.issue.traps.any fun x => x.1 == i)) = gathering s := by simp [hs.fresh.1]
  have h1 : ((gathering s).any fun i => opsBeyond (wgOf s (tidWg i)) (tidQuire i) o || bad s i) = false := by
    rw [List.any_eq_false]
    intro i hi
    simp [hb i hi]
  have h2 : ((gathering s).any fun i => mustStall (thr s i) o) = false := by
    rw [List.any_eq_false]
    intro i hi
    simp [mustStall, (hs.clear i hi).noPend]
  obtain ⟨sw, hfold, hiss⟩ := foldl_lanePart_turns s o needs body part go hs hl hneeds hbody hissue hfit (gathering s) [] (by simp)
  have hmem : ∀ i ∈ gathering s, ∃ before after, gathering s = before ++ i :: after := fun i hi => List.append_of_mem hi
  obtain ⟨t, hc, ht⟩ := finishUnit_go s (turns s o.gd part (gathering s)) sw (asked s o.gd go Go.pc? (gathering s))
    (asked s o.gd go Go.wait? (gathering s)) (fun j => if guardTrue (thr s j) o.gd then go j else .next) hs
    (by intro i hi; rw [find_asked _ _ _ _ _ hi]; split <;> rfl)
    (by intro i hi; rw [find_asked _ _ _ _ _ hi]; split <;> rfl)
    (by
      intro i hi
      obtain ⟨before, after, hba⟩ := hmem i hi
      rw [thr_turns_in s o.gd part hl hs.once hba]
      by_cases hgd : guardTrue (thr s i) o.gd = true
      · simp only [hgd, if_true]
        exact hfit before i after hba hgd
      · simp only [hgd, if_false, Bool.false_eq_true]
        have hcl := hs.clear i hi
        exact ⟨hcl.runs.1, hcl.noPend, hcl.runs.2.1, rfl, hcl.noEnd⟩)
  generalize turns s o.gd part (gathering s) = v at *
  have htf : t = { v with threads := t.threads } := by rw [ht]; exact changeAll_frame ..
  refine ⟨finishUnit s { st := v, traps := [], jumps := asked s o.gd go Go.pc? (gathering s), waits := asked s o.gd go Go.wait? (gathering s), hold := none, stall := none, switch := sw } 1, ?_, ⟨?_, ?_, ?_, ?_⟩⟩
  · unfold laneOpWith
    rw [openIssue_ready s hs]
    simp only [hg, h1, h2, Bool.false_eq_true, if_false]
    rw [hfold]
    simp [endPart, trapsPending, hs.alone]
  · rw [hc.rest, htf]
  · intro j
    rw [hc.threads, ht]
    by_cases hj : j ∈ gathering s
    · rw [thr_changeAll_in _ _ _ _ hs.once hj, if_pos hj,
        show (if guardTrue (thr s j) o.gd = true then (go j).kept s else .next) =
          (if guardTrue (thr s j) o.gd = true then go j else .next).kept s by split <;> rfl]
      by_cases hst : (if guardTrue (thr s j) o.gd = true then go j else .next) = .stay
      · simp only [hst, goes, Go.kept]; simp
      · simp [hst]
    · rw [thr_changeAll_out _ _ _ _ hj, if_neg hj]
  · intro k
    rw [hc.wgs, htf]
    rfl
  · intro c
    rw [(hc.cores c).1, (hc.cores c).2, htf]
    exact ⟨rfl, rfl⟩

/-! ### Instructions that change only the threads of their gathering -/

theorem turns_modThr (s : State) (gd : Guard) (F : Nat → Thread → Thread) (g : List Nat) :
    turns s gd (fun st i => modThr st i (F i)) g = { s with threads := (turns s gd (fun st i => modThr st i (F i)) g).threads } := by
  induction g using List.reverseRecOn with
  | nil => rfl
  | append_singleton xs x ih =>
    rw [turns_snoc]
    split
    · rw [ih]; rfl
    · exact ih

/-- An instruction of the lane engine that only changes the threads of a gathering that nothing holds up: it completes, each
thread whose guard is true changed by `F`, and the rest of the machine stands. -/
theorem laneOpWith_completes (s : State) (bad : State → Nat → Bool) (o : Ops) (needs : State → Nat → List (Src × Need))
    (body : State → State → Nat → LaneRes) (F : Nat → Thread → Thread) (hs : Ready s)
    (hb : ∀ i ∈ gathering s, opsBeyond (wgOf s (tidWg i)) (tidQuire i) o = false ∧ bad s i = false)
    (hneeds : ∀ s' i, i ∈ gathering s → thr s' i = thr s i → guardTrue (thr s i) o.gd = true →
      operandTrap (thr s i) (needs s' i) = none)
    (hbody : ∀ s' i, i ∈ gathering s → s' = { s with threads := s'.threads } → thr s' i = thr s i →
      guardTrue (thr s i) o.gd = true → body s s' i = .done (modThr s' i (F i)))
    (hF : ∀ i ∈ gathering s, (F i (thr s i)).moved = false ∧ (F i (thr s i)).exited = false ∧ (F i (thr s i)).pend = [] ∧
      (F i (thr s i)).nest = (thr s i).nest ∧ (F i (thr s i)).pc = (thr s i).pc) :
    ∃ u, laneOpWith bad o needs body s = .next u ∧ Elsewhere s u ∧
      ∀ j ∈ gathering s, clearLatches (thr u j) = landed (if guardTrue (thr s j) o.gd then F j (thr s j) else thr s j) := by
  have hl : Local s o.gd fun st i => modThr st i (F i) := by
    intro before i after _ _ j hj
    rw [thr_modThr, if_neg (Ne.symm hj)]
  have hin : ∀ {before i after}, gathering s = before ++ i :: after →
      i ∈ gathering s ∧ thr (turns s o.gd (fun st i => modThr st i (F i)) before) i = thr s i := by
    intro before i after h
    refine ⟨by simp [h], thr_turns_out s o.gd _ hl before _ h i ?_⟩
    have := hs.once
    rw [h] at this
    exact fun hi => (List.nodup_append.mp this).2.2 i hi i (List.mem_cons_self ..) rfl
  obtain ⟨u, hu, hp⟩ := laneOpWith_runs s bad o needs body (fun st i => modThr st i (F i)) (fun _ => .next) hs hb hl
    (by
      intro before i after h hgd
      obtain ⟨h1, h2⟩ := hin h
      rw [h2]
      exact hneeds _ i h1 h2 hgd)
    (by
      intro before i after h hgd
      obtain ⟨h1, h2⟩ := hin h
      rw [hbody _ i h1 (turns_modThr ..) h2 hgd]
      rfl)
    (by intro before i after _ _; rfl)
    (by
      intro before i after h hgd
      obtain ⟨h1, h2⟩ := hin h
      have hf := hF i h1
      rw [thr_modThr_self, h2]
      refine ⟨hf.1, hf.2.2.1, hf.2.1, hf.2.2.2.2, ?_⟩
      rw [hf.2.2.2.1]
      exact (hs.clear i h1).noEnd)
  have hfr := turns_modThr s o.gd F (gathering s)
  refine ⟨u, hu, ⟨?_, ?_, ?_, ?_⟩, ?_⟩
  · rw [hp.rest, hfr]
  · intro j hj
    rw [hp.threads, if_neg hj, thr_turns_out s o.gd _ hl (gathering s) [] (by simp) j hj]
  · intro k
    rw [hp.wgs, hfr]
    rfl
  · intro c
    rw [(hp.cores c).1, (hp.cores c).2, hfr]
    exact ⟨rfl, rfl⟩
  · intro j hj
    obtain ⟨before, after, hba⟩ := List.append_of_mem hj
    obtain ⟨-, h2⟩ := hin hba
    rw [hp.threads, if_pos hj, thr_turns_in s o.gd _ hl hs.once hba]
    by_cases hgd : guardTrue (thr s j) o.gd = true
    · simp only [hgd, if_true, thr_modThr_self, h2]
      rfl
    · simp only [hgd, if_false, Bool.false_eq_true]
      rfl

/-- The same for an instruction without decode checks of its own, whose operands are readable. -/
theorem laneOp_completes (s : State) (o : Ops) (needs : List (Src × Need)) (body : State → State → Nat → LaneRes)
    (F : Nat → Thread → Thread) (hs : Ready s) (hr : Readable s o needs)
    (hbody : ∀ s' i, i ∈ gathering s → s' = { s with threads := s'.threads } → thr s' i = thr s i →
      guardTrue (thr s i) o.gd = true → body s s' i = .done (modThr s' i (F i)))
    (hF : ∀ i ∈ gathering s, (F i (thr s i)).moved = false ∧ (F i (thr s i)).exited = false ∧ (F i (thr s i)).pend = [] ∧
      (F i (thr s i)).nest = (thr s i).nest ∧ (F i (thr s i)).pc = (thr s i).pc) :
    ∃ u, laneOp o needs body s = .next u ∧ Elsewhere s u ∧
      ∀ j ∈ gathering s, clearLatches (thr u j) = landed (if guardTrue (thr s j) o.gd then F j (thr s j) else thr s j) :=
  laneOpWith_completes s _ o _ body F hs (fun i hi => ⟨(hr i hi).1, rfl⟩) (fun _ i hi _ hgd => (hr i hi).2 hgd) hbody hF

/-! ### Results (R168) -/

/-- A result as a change of its thread: the pipe's latch, and the destination. -/
def resultOn (k : Nat) (d : Dst) (wide : Bool) (v : Wide) (tag : FTag) (t : Thread) : Thread :=
  let t1 := setLatch t k ⟨.valid, wide, v, if wide then tag else 0⟩
  match d with
  | .reg r =>
    let t2 := { t1 with eccRegs := t1.eccRegs.filter (· != r) }
    putReg t2 r v tag
  | .latchOnly => t1

theorem result_eq (s : State) (i k : Nat) (d : Dst) (wide : Bool) (v : Wide) (tag : FTag) :
    result s i k d wide v tag = modThr s i (resultOn k d wide v tag) := by
  cases d with
  | latchOnly => rfl
  | reg r =>
    simp only [result, writeReg, modThr_modThr]
    rfl


/-- A result, up to latches: the destination written. -/
theorem landed_resultOn (k : Nat) (d : Dst) (wide : Bool) (v : Wide) (tag : FTag) (t : Thread) (h : t.eccRegs = []) :
    landed (resultOn k d wide v tag t) = landed (put t d v tag) := by
  have hl : ∀ l, landed (setLatch t k l) = landed t := by
    intro l
    have h1 : nextSlot (setLatch t k l).pc = nextSlot t.pc := by unfold setLatch; split <;> rfl
    unfold landed
    rw [h1, ← clearLatches_pc, clearLatches_setLatch, clearLatches_pc]
  cases d with
  | latchOnly => exact hl _
  | reg r =>
    unfold resultOn put
    have he : (setLatch t k ⟨.valid, wide, v, if wide then tag else 0⟩).eccRegs.filter (· != r) = t.eccRegs := by
      unfold setLatch; split <;> simp [h]
    have hs : ∀ l, ∃ a b c d e p, setLatch t k l = { t with l0 := a, l1 := b, l2 := c, l3 := d, eccLatches := e, pend := p } ∧
        p.map (fun q : Pend => { q with live := false }) = t.pend.map fun q => { q with live := false } := by
      intro l
      have hp : (t.pend.map fun (p : Pend) => if p.k == k then { p with live := false } else p).map (fun q : Pend => { q with live := false }) =
          t.pend.map fun q => { q with live := false } := by
        rw [List.map_map]
        apply List.map_congr_left
        intro q _
        simp only [Function.comp_apply]
        split <;> rfl
      unfold setLatch
      split <;> exact ⟨_, _, _, _, _, _, rfl, hp⟩
    obtain ⟨a, b, c, d, e, p, hs1, hp⟩ := hs ⟨.valid, wide, v, if wide then tag else 0⟩
    simp only [he, hs1]
    cases r with
    | g n => by_cases hn : (n == 0) = true <;> simp only [putReg, landed, clearLatches, hn, hp, h, List.filter_nil, if_true, if_false, Bool.false_eq_true]
    | _ => simp only [putReg, landed, clearLatches, setXv, readXv, hp, h, List.filter_nil]

theorem resultOn_fields (k : Nat) (d : Dst) (wide : Bool) (v : Wide) (tag : FTag) (t : Thread) :
    (resultOn k d wide v tag t).moved = t.moved ∧ (resultOn k d wide v tag t).exited = t.exited ∧
    (t.pend = [] → (resultOn k d wide v tag t).pend = []) ∧ (resultOn k d wide v tag t).nest = t.nest ∧
    (resultOn k d wide v tag t).pc = t.pc := by
  unfold resultOn setLatch putReg setXv
  cases d with
  | latchOnly => split <;> simp
  | reg r => cases r <;> split <;> simp <;> split <;> simp

/-- A change of a thread that a result may follow: flags and draws. -/
def Mild (g : Thread → Thread) : Prop :=
  ∀ t, (g t).moved = t.moved ∧ (g t).exited = t.exited ∧ (g t).pend = t.pend ∧ (g t).nest = t.nest ∧ (g t).pc = t.pc ∧
    (g t).eccRegs = t.eccRegs

/-- An instruction of the lane engine whose effect on a thread is a change `g` and one result. -/
theorem laneOp_result (s : State) (o : Ops) (needs : List (Src × Need)) (body : State → State → Nat → LaneRes) (k : Nat)
    (wide : Bool) (g : Nat → Thread → Thread) (v : Nat → Thread → Wide) (tag : Nat → Thread → FTag) (hs : Ready s)
    (hr : Readable s o needs)
    (hbody : ∀ s' i, i ∈ gathering s → s' = { s with threads := s'.threads } → thr s' i = thr s i →
      guardTrue (thr s i) o.gd = true →
      body s s' i = .done (result (modThr s' i (g i)) i k o.d wide (v i (thr s i)) (tag i (thr s i))))
    (hg : ∀ i, Mild (g i)) :
    ∃ u, laneOp o needs body s = .next u ∧ Elsewhere s u ∧
      ∀ j ∈ gathering s, clearLatches (thr u j) =
        landed (if guardTrue (thr s j) o.gd then put (g j (thr s j)) o.d (v j (thr s j)) (tag j (thr s j)) else thr s j) := by
  obtain ⟨u, hu, he, ht⟩ := laneOp_completes s o needs body
    (fun i t => resultOn k o.d wide (v i (thr s i)) (tag i (thr s i)) (g i t)) hs hr
    (by
      intro s' i hi hs' hti hgd
      rw [hbody s' i hi hs' hti hgd, result_eq, modThr_modThr])
    (by
      intro i hi
      have hc := hs.clear i hi
      have h1 := resultOn_fields k o.d wide (v i (thr s i)) (tag i (thr s i)) (g i (thr s i))
      have h2 := hg i (thr s i)
      refine ⟨h1.1.trans (h2.1.trans hc.runs.1), h1.2.1.trans (h2.2.1.trans hc.runs.2.1), h1.2.2.1 (h2.2.2.1.trans hc.noPend),
        h1.2.2.2.1.trans h2.2.2.2.1, h1.2.2.2.2.trans h2.2.2.2.2.1⟩)
  refine ⟨u, hu, he, fun j hj => ?_⟩
  rw [ht j hj]
  split
  · rw [landed_resultOn]
    rw [(hg j (thr s j)).2.2.2.2.2]
    exact (hs.clear j hj).noEcc.1
  · rfl

end Sys2Proof.Machine
end

