-- ==== Sys2Proof/Laws/Compute.lean ====
section
/-! SUPPORT. What the shared operations of classes 0x0 to 0x2 do for a gathering that nothing holds up: one law an
operation, which the statements about its instructions cite. -/

namespace Sys2Proof.Machine

/-- From a law about a shared operation to a statement about an instruction that is one call of it. -/
theorem completes_of {i : Instr} {s : State} {gd : Guard} {r : Host.Outcome State Fault Refusal} {f : Nat → Thread → Thread}
    (g : Nat → Thread → Thread) (he : exec i s = r) (h : ∃ u, r = .next u ∧ Elsewhere s u ∧
      ∀ j ∈ gathering s, clearLatches (thr u j) = landed (if guardTrue (thr s j) gd then f j (thr s j) else thr s j))
    (hfg : ∀ j ∈ gathering s, guardTrue (thr s j) gd = true → f j (thr s j) = g j (thr s j)) : Completes i s gd g := by
  obtain ⟨u, hu, hel, ht⟩ := h
  refine ⟨u, he.trans hu, hel, fun j hj => ?_⟩
  rw [ht j hj]
  by_cases hg : guardTrue (thr s j) gd = true
  · simp only [hg, if_true, hfg j hj hg]
  · simp only [hg, if_false, Bool.false_eq_true]

/-- The same from `laneOpWith_runs`. -/
theorem runs_of {i : Instr} {s : State} {gd : Guard} {r : Host.Outcome State Fault Refusal} {part : State → Nat → State}
    {go : Nat → Go} (he : exec i s = r) (h : ∃ u, r = .next u ∧
      Passed s (turns s gd part (gathering s)) u (fun j => if guardTrue (thr s j) gd then (go j).kept s else .next)) :
    Runs i s gd part go := by
  obtain ⟨u, hu, hp⟩ := h
  exact ⟨u, he.trans hu, hp⟩

theorem mild_id : Mild fun t => t := fun _ => ⟨rfl, rfl, rfl, rfl, rfl, rfl⟩

theorem afterDraw_mild (mode : Rnd) : Mild fun t => afterDraw t mode := by
  intro t
  unfold afterDraw
  split <;> exact ⟨rfl, rfl, rfl, rfl, rfl, rfl⟩

/-- A thread after n results differs only in its generator (R107). -/
theorem drawElems_thread (mode : Rnd) (n : Nat) (f : Nat → Nat → Nat × BitVec 3) (t : Thread) :
    (drawElems mode n f t).2.2 = { t with srSeed := (drawElems mode n f t).2.2.srSeed } := by
  have key : ∀ (l : List Nat) (acc : List Nat × BitVec 3 × Thread), acc.2.2 = { t with srSeed := acc.2.2.srSeed } →
      (l.foldl (fun (acc : List Nat × BitVec 3 × Thread) i =>
        let t := acc.2.2
        let (c, fl) := f i (drawOf t mode)
        (acc.1 ++ [c], acc.2.1 ||| fl, afterDraw t mode)) acc).2.2 =
      { t with srSeed := (l.foldl (fun (acc : List Nat × BitVec 3 × Thread) i =>
        let t := acc.2.2
        let (c, fl) := f i (drawOf t mode)
        (acc.1 ++ [c], acc.2.1 ||| fl, afterDraw t mode)) acc).2.2.srSeed } := by
    intro l
    induction l with
    | nil => intro acc h; exact h
    | cons i rest ih =>
      intro acc h
      rw [List.foldl_cons]
      refine ih _ ?_
      simp only [afterDraw]
      split
      · rw [h]
      · exact h
  exact key (List.range n) ([], 0, t) rfl

/-- An instruction with a 64-bit result and a change of flags and draws. -/
theorem laneOp_resultG {i : Instr} {s : State} {o : Ops} {needs : List (Src × Need)} {body : State → State → Nat → LaneRes}
    (k : Nat) (g : Nat → Thread → Thread) (v : Nat → Thread → Nat) (he : exec i s = laneOp o needs body s)
    (hs : Ready s) (hr : Readable s o needs)
    (hbody : ∀ s' i, i ∈ gathering s → s' = { s with threads := s'.threads } → thr s' i = thr s i →
      guardTrue (thr s i) o.gd = true → body s s' i = .done (resultG (modThr s' i (g i)) i k o.d (v i (thr s i))))
    (hg : ∀ i, Mild (g i)) : Completes i s o.gd fun j t => putG (g j t) o.d (v j t) :=
  completes_of (f := fun j t => putG (g j t) o.d (v j t)) _ he (laneOp_result s o needs body k false g
    (fun j t => (BitVec.ofNat 64 (v j t)).setWidth 256) (fun _ _ => 0) hs hr hbody hg) fun _ _ _ => rfl

/-- An instruction with a 256-bit result. -/
theorem laneOp_resultV {i : Instr} {s : State} {o : Ops} {needs : List (Src × Need)} {body : State → State → Nat → LaneRes}
    (k : Nat) (g : Nat → Thread → Thread) (v : Nat → Thread → Wide) (tag : Nat → Thread → FTag)
    (he : exec i s = laneOp o needs body s) (hs : Ready s) (hr : Readable s o needs)
    (hbody : ∀ s' i, i ∈ gathering s → s' = { s with threads := s'.threads } → thr s' i = thr s i →
      guardTrue (thr s i) o.gd = true →
      body s s' i = .done (result (modThr s' i (g i)) i k o.d true (v i (thr s i)) (tag i (thr s i))))
    (hg : ∀ i, Mild (g i)) : Completes i s o.gd fun j t => put (g j t) o.d (v j t) (tag j t) :=
  completes_of (f := fun j t => put (g j t) o.d (v j t) (tag j t)) _ he
    (laneOp_result s o needs body k true g v tag hs hr hbody hg) fun _ _ _ => rfl

/-- A result after no other change of the thread. -/
theorem result_id (s : State) (i k : Nat) (d : Dst) (wide : Bool) (v : Wide) (tag : FTag) :
    result (modThr s i fun t => t) i k d wide v tag = result s i k d wide v tag := by
  simp only [result_eq, modThr_modThr]

theorem modThr_congr {s : State} {i : Nat} {f g : Thread → Thread} (h : f (thr s i) = g (thr s i)) :
    modThr s i f = modThr s i g := by simp only [modThr, h]

/-- A thread put back with flags set, as one change. -/
theorem setFlags_setThr (s : State) (i : Nat) (f : Thread → Thread) (fl : BitVec 3) :
    setFlags (setThr s i (f (thr s i))) i fl = modThr s i fun t => { f t with fstat := (f t).fstat ||| fl } :=
  modThr_modThr s i f _

theorem afterDraw_fstat (t : Thread) (mode : Rnd) : (afterDraw t mode).fstat = t.fstat := by
  unfold afterDraw
  split <;> rfl

/-- Class 0x0 (R171, R172). -/
theorem intOp_gives {i : Instr} {s : State} {o : Ops} {m : M0} {f : Nat → Nat → Nat → Nat} {k : Nat} (g : Thread → Nat)
    (he : exec i s = intOp f k o m s) (hs : Ready s) (hr : Readable s o (wordNeeds o))
    (hfg : ∀ t, f (srcN t o.a) (opB t o m) (srcN t o.c) = g t) : Completes i s o.gd fun _ t => putG t o.d (g t) := by
  unfold intOp at he
  refine laneOp_resultG k (fun _ t => t) (fun _ t => g t) he hs hr ?_ fun _ => mild_id
  intro s' i _ _ h _
  simp only [resultG, result_id, h, hfg]

/-- A rounded scalar result (R107, R177). -/
theorem floatOp_gives {i : Instr} {s : State} {o : Ops} {m : M1} {f : Num → Num → Num → Exact} {k : Nat}
    (x : Thread → Exact) (he : exec i s = floatOp f k o m s) (hs : Ready s) (hr : Readable s o (wordNeeds o))
    (hfx : ∀ t, f (decodeFloat m.ty (srcN t o.a % 2 ^ fmtWidth m.ty)) (decodeFloat m.ty (srcN t o.b % 2 ^ fmtWidth m.ty))
      (decodeFloat m.ty (srcN t o.c % 2 ^ fmtWidth m.ty)) = x t) :
    Completes i s o.gd fun _ t =>
      let r := roundExact m.ty m.rnd m.sat (drawOf t m.rnd) (x t)
      putG { afterDraw t m.rnd with fstat := t.fstat ||| r.2 } o.d r.1 := by
  unfold floatOp at he
  refine laneOp_resultG k
    (fun _ t => { afterDraw t m.rnd with fstat := t.fstat ||| (roundExact m.ty m.rnd m.sat (drawOf t m.rnd) (x t)).2 })
    (fun _ t => (roundExact m.ty m.rnd m.sat (drawOf t m.rnd) (x t)).1) he hs hr ?_ fun _ t => afterDraw_mild m.rnd t
  intro s' i _ _ h _
  simp only [low, h, hfx]
  rw [← h, setFlags_setThr _ _ (fun t => afterDraw t m.rnd)]
  congr 2
  exact modThr_congr (by simp only [afterDraw_fstat])

/-- A 256-bit result of elements that take draws in ascending order (R107, R181). -/
theorem laneOp_drawsV {i : Instr} {s : State} {o : Ops} {needs : List (Src × Need)} {body : State → State → Nat → LaneRes}
    (k n : Nat) (mode : Rnd) (one : Thread → Nat → Nat → Nat × BitVec 3) (pack : Thread → List Nat → Nat) (tag : FTag)
    (he : exec i s = laneOp o needs body s) (hs : Ready s) (hr : Readable s o needs)
    (hbody : ∀ s' i, thr s' i = thr s i → body s s' i =
      let r := drawElems mode n (one (thr s i)) (thr s i)
      .done (resultV (setFlags (setThr s' i r.2.2) i r.2.1) i k o.d (pack (thr s i) r.1) tag)) :
    Completes i s o.gd fun _ t =>
      let r := drawElems mode n (one t) t
      put { r.2.2 with fstat := t.fstat ||| r.2.1 } o.d (BitVec.ofNat 256 (pack t r.1)) tag := by
  refine laneOp_resultV k (fun _ t => { (drawElems mode n (one t) t).2.2 with fstat := t.fstat ||| (drawElems mode n (one t) t).2.1 })
    (fun _ t => BitVec.ofNat 256 (pack t (drawElems mode n (one t) t).1)) (fun _ _ => tag) he hs hr ?_ fun _ t => ?_
  · intro s' i _ _ h _
    simp only [hbody s' i h, resultV]
    congr 2
    rw [← h, setFlags_setThr _ _ (fun t => (drawElems mode n (one t) t).2.2)]
    refine modThr_congr ?_
    rw [drawElems_thread]
  · refine ⟨?_, ?_, ?_, ?_, ?_, ?_⟩ <;> simp only <;> rw [drawElems_thread]

end Sys2Proof.Machine
end

