-- ==== Sys2Proof/Laws/Trap.lean ====
section
/-! SUPPORT. Taking a trap (R244): what it does to a thread whose vector is enabled, and what an instruction does whose every
active thread traps. -/

namespace Sys2Proof.Machine

theorem frameBytes_length (t : Thread) (resume : Pc) (paired : Bool) : (frameBytes t resume paired).length = 256 := by
  have h1 : ∀ n v, (leBytes n v).length = n := by simp [leBytes]
  have h2 : (nestBytes t.nest).length = 96 := by
    have : ∀ l : List Nat, ∀ f : Nat → List Byte, (∀ i, (f i).length = 24) → (l.flatMap f).length = 24 * l.length := by
      intro l f hf
      induction l with
      | nil => rfl
      | cons a r ih => simp [hf, ih]; omega
    unfold nestBytes
    rw [this]
    · rfl
    · intro i
      split
      · simp [levelWords, h1]
      · simp
  simp [frameBytes, h1, h2]

theorem orFree_eq (s : State) (v : Option Nat) : ∃ x n, orFree s v = (x, { s with draws := n }) ∧ ∀ y, v = some y → x = y := by
  cases v with
  | none => exact ⟨_, _, rfl, by simp⟩
  | some y => exact ⟨y, s.draws, rfl, by simp⟩

/-- A frame that meets no log area aborts nothing. -/
theorem noteFrames_still (s : State) (tid : Nat) (u : State)
    (h : (thr u tid).hmode = true → logsMet u (carrelLoc (thr u tid).core ((thr u tid).trapFrame.toNat * 256)) 256 = []) :
    noteFrames frameFuel s u [tid] = u := by
  unfold frameFuel noteFrames
  by_cases hc : ((thr u tid).hmode && !(thr s tid).hmode) = true
  · rw [List.filter_cons, if_pos hc, List.filter_nil, List.foldl_cons, List.foldl_nil, h (by simp_all)]
    rfl
  · rw [List.filter_cons, if_neg hc, List.filter_nil, List.foldl_nil]

/-- A trap delivered to a thread whose vector is enabled. -/
theorem takeTrap_vectored (s : State) (tid : Nat) (i : TrapInfo) (paired : Bool) (hv : (thr s tid).trapVecEn = true)
    (hh : (thr s tid).hmode = false) (hf : (thr s tid).trapFrame.toNat * 256 + 256 ≤ carrelBytes)
    (hp : (thr s tid).pend = []) (hl : logsMet s (frameLoc (thr s tid)) 256 = []) :
    ∃ (sub : BitVec 8) (a : Word) (n : Nat), (∀ x, i.sub = some x → sub = x) ∧ (∀ x, i.addr = some x → a = x) ∧
      takeTrap s tid i paired =
        modThr (writeBytes { s with draws := n } (frameLoc (thr s tid))
          (frameBytes (thr s tid) (i.resume.getD (i.pc.getD (thr s tid).pc)) (paired && i.pc.isNone))) tid fun t =>
          trapped t (BitVec.ofNat 18 (i.cause.toNat + sub.toNat * 2 ^ 8 + (if i.second then 2 ^ 16 else 0) +
            if i.decode then 2 ^ 17 else 0)) (i.pc.getD (thr s tid).pc) a := by
  have hle : ¬ carrelBytes < (thr s tid).trapFrame.toNat * 256 + 256 := by omega
  obtain ⟨x, n, hx, hxs⟩ := orFree_eq s (i.sub.map BitVec.toNat)
  obtain ⟨y, m, hy, hys⟩ := orFree_eq { s with draws := n } (i.addr.map BitVec.toNat)
  refine ⟨BitVec.ofNat 8 x, BitVec.ofNat 64 y, m, ?_, ?_, ?_⟩
  · intro b hb
    rw [hxs b.toNat (by simp [hb])]
    simp
  · intro b hb
    rw [hys b.toNat (by simp [hb])]
    simp
  · have he : ∀ u, u = enterTrap s tid i paired → (∃ v g, u = modThr v tid g ∧ v.wgs = s.wgs ∧ (g (thr v tid)).core = (thr s tid).core ∧
        (g (thr v tid)).trapFrame = (thr s tid).trapFrame) → takeTrap s tid i paired = u := by
      rintro u hu ⟨v, g, rfl, h1, h2, h3⟩
      unfold takeTrap
      rw [← hu]
      refine noteFrames_still s tid _ fun _ => ?_
      rw [thr_modThr_self, h2, h3]
      unfold logsMet frameLoc at *
      rw [show (modThr v tid g).wgs = s.wgs from h1]
      exact hl
    refine he _ ?_ ⟨_, _, rfl, rfl, rfl, rfl⟩
    symm
    unfold enterTrap
    simp only [hv, hh, hle, hx, hy, Bool.not_true, Bool.or_self, Bool.false_eq_true, if_false]
    refine modThr_congr ?_
    show _ = trapped (thr s tid) _ _ _
    rw [thr_writeBytes, show thr { s with draws := m } tid = thr s tid from rfl]
    simp [trapped, clearLatches, hp]

/-- The threads of a list each changed in turn, where `f` changes only its thread, memory, poison and the draws. -/
theorem foldl_traps (f : State → Nat → State) (g : List Nat) (s : State) (T : Nat → Thread → Thread → Prop)
    (bytes : Nat → List Byte) (loc : Nat → Nat)
    (hf : ∀ st i, i ∈ g → st.wgs = s.wgs → thr st i = thr s i → ∃ n h, f st i = modThr (writeBytes { st with draws := n } (loc i) (bytes i)) i h ∧
      T i (thr s i) (h (thr s i))) :
    ∀ rest ⊆ g, rest.Nodup → ∀ st : State, st.wgs = s.wgs → (∀ i ∈ rest, thr st i = thr s i) →
      (∀ i ∈ rest, T i (thr s i) (thr (rest.foldl f st) i)) ∧ (∀ i, i ∉ rest → thr (rest.foldl f st) i = thr st i) ∧
      (∀ l, (∀ i ∈ rest, l < loc i ∨ loc i + (bytes i).length ≤ l) →
        Memory.get (rest.foldl f st).mem l = Memory.get st.mem l) ∧
      (Memory.wf st.mem = true → Memory.wf (rest.foldl f st).mem = true ∧ ∀ i ∈ rest, (∀ k ∈ rest, k ≠ i → loc k + (bytes k).length ≤ loc i ∨
        loc i + (bytes i).length ≤ loc k) → readBytes (rest.foldl f st) (loc i) (bytes i).length = bytes i) ∧
      rest.foldl f st = { st with threads := (rest.foldl f st).threads, mem := (rest.foldl f st).mem,
                                  poison := (rest.foldl f st).poison, draws := (rest.foldl f st).draws } := by
  intro rest
  induction rest with
  | nil => intro _ _ st _ _; exact ⟨by simp, by simp, by simp, by simp, rfl⟩
  | cons i r ih =>
    intro hg hnd st hw ht
    obtain ⟨n, h, hfi, hT⟩ := hf st i (hg (List.mem_cons_self ..)) hw (ht i (List.mem_cons_self ..))
    have hir : i ∉ r := (List.nodup_cons.mp hnd).1
    have hst' : ∀ j, j ≠ i → thr (f st i) j = thr st j := by
      intro j hj
      rw [hfi, thr_modThr, if_neg (Ne.symm hj)]
      rfl
    obtain ⟨i1, i2, i3, i4, i5⟩ := ih (fun x hx => hg (List.mem_cons_of_mem _ hx)) (List.nodup_cons.mp hnd).2 (f st i) (by rw [hfi]; exact hw) (by
      intro j hj
      rw [hst' j (fun e => hir (e ▸ hj))]
      exact ht j (List.mem_cons_of_mem _ hj))
    have hself : thr (f st i) i = h (thr s i) := by
      rw [hfi, thr_modThr_self]
      rw [show thr (writeBytes { st with draws := n } (loc i) (bytes i)) i = thr st i from rfl, ht i (List.mem_cons_self ..)]
    rw [List.foldl_cons]
    refine ⟨?_, ?_, ?_, ?_, ?_⟩
    · intro j hj
      rcases List.mem_cons.mp hj with rfl | hj
      · rw [i2 j hir, hself]
        exact hT
      · exact i1 j hj
    · intro j hj
      simp only [List.mem_cons, not_or] at hj
      rw [i2 j hj.2, hst' j hj.1]
    · intro l hl
      rw [i3 l (fun k hk => hl k (List.mem_cons_of_mem _ hk)), hfi]
      exact get_writeBytes_out { st with draws := n } (bytes i) (hl i (List.mem_cons_self ..))
    · intro hwf
      have hwf' : Memory.wf (f st i).mem = true := by
        rw [hfi]
        exact writeBytes_wf (s := { st with draws := n }) (loc i) (bytes i) hwf
      obtain ⟨w1, w2⟩ := i4 hwf'
      refine ⟨w1, ?_⟩
      intro j hj hdis
      rcases List.mem_cons.mp hj with rfl | hj
      · have hget : ∀ a, loc j ≤ a → a < loc j + (bytes j).length →
            Memory.get (r.foldl f (f st j)).mem a = Memory.get (f st j).mem a := by
          intro a ha hb
          refine i3 a fun k hk => ?_
          rcases hdis k (List.mem_cons_of_mem _ hk) (fun e => hir (e ▸ hk)) with h1 | h1 <;> omega
        have h1 : readBytes (r.foldl f (f st j)) (loc j) (bytes j).length = readBytes (f st j) (loc j) (bytes j).length := by
          unfold readBytes Memory.getList
          refine List.map_congr_left fun a ha => ?_
          have := List.mem_range.mp ha
          exact hget _ (by omega) (by omega)
        rw [h1, hfi]
        exact readBytes_writeBytes (s := { st with draws := n }) (loc j) (bytes j) hwf
      · exact w2 j hj fun k hk hne => hdis k (List.mem_cons_of_mem _ hk) hne
    · rw [i5, hfi]
      rfl

theorem thr_advanced (s : State) (g : List Nat) (hs : Ready s) (hg : g ⊆ gathering s) (hn : g.Nodup) (f : State × Bool → Nat → State × Bool)
    (hf : ∀ acc b i, i ∈ g → thr acc i = thr s i → (f (acc, b) i).1 = (advance acc i (unitPcs s i) (nextSlot (insPc s i))).1) (b : Bool) :
    (g.foldl f (s, b)).1 = changeAll (fun _ => true) (fun _ t => { t with pc := nextSlot t.pc }) s g := by
  have key : ∀ r ⊆ g, r.Nodup → ∀ (acc : State) (b : Bool), (∀ i ∈ r, thr acc i = thr s i) →
      (r.foldl f (acc, b)).1 = changeAll (fun _ => true) (fun _ t => { t with pc := nextSlot t.pc }) acc r := by
    intro r
    induction r with
    | nil => intros; rfl
    | cons i rest ih =>
      intro hr hnd acc b ha
      have hi := ha i (List.mem_cons_self ..)
      have hgi := hg (hr (List.mem_cons_self ..))
      have h1 : (f (acc, b) i).1 = modThr acc i fun t => { t with pc := nextSlot t.pc } := by
        rw [hf acc b i (hr (List.mem_cons_self ..)) hi]
        unfold advance
        simp only [unitPcs, insPc, hs.alone]
        rw [loopEnd_noEnd (by rw [hi]; exact (hs.clear i hgi).noEnd)]
        simp [modThr, hi]
      rw [List.foldl_cons, changeAll, List.foldl_cons, ← changeAll]
      simp only [if_true]
      rw [← h1]
      refine ih (fun x hx => hr (List.mem_cons_of_mem _ hx)) (List.nodup_cons.mp hnd).2 _ _ ?_
      intro j hj
      have : i ≠ j := fun e => (List.nodup_cons.mp hnd).1 (e ▸ hj)
      rw [h1, thr_modThr, if_neg this]
      exact ha j (List.mem_cons_of_mem _ hj)
  exact key g (fun _ h => h) hn s b (fun _ _ => rfl)

/-- The fields of TRAP_CAUSE. -/
theorem causeWord_low (cause sb : BitVec 8) (decode : Bool) :
    (BitVec.ofNat 18 (cause.toNat + sb.toNat * 2 ^ 8 + if decode then 2 ^ 17 else 0)).setWidth 8 = cause := by
  apply BitVec.eq_of_toNat_eq
  have := cause.isLt
  have := sb.isLt
  cases decode <;> simp <;> omega

theorem causeWord_sub (cause sb : BitVec 8) (decode : Bool) :
    (BitVec.ofNat 18 (cause.toNat + sb.toNat * 2 ^ 8 + if decode then 2 ^ 17 else 0)).extractLsb' 8 8 = sb := by
  apply BitVec.eq_of_toNat_eq
  have := cause.isLt
  have := sb.isLt
  cases decode <;> simp [BitVec.extractLsb', Nat.shiftRight_eq_div_pow] <;> omega

theorem causeWord_decode (cause sb : BitVec 8) (decode : Bool) :
    (BitVec.ofNat 18 (cause.toNat + sb.toNat * 2 ^ 8 + if decode then 2 ^ 17 else 0)).getLsbD 17 = decode := by
  have := cause.isLt
  have := sb.isLt
  rw [BitVec.getLsbD_ofNat, Nat.testBit_eq_decide_div_mod_eq]
  cases decode <;> simp only [Bool.false_eq_true, if_false, if_true, Nat.reduceLT, decide_true, Bool.true_and,
    decide_eq_false_iff_not, decide_eq_true_eq] <;> omega

theorem causeWord_second (cause sb : BitVec 8) (decode : Bool) :
    (BitVec.ofNat 18 (cause.toNat + sb.toNat * 2 ^ 8 + if decode then 2 ^ 17 else 0)).getLsbD 16 = false := by
  have := cause.isLt
  have := sb.isLt
  rw [BitVec.getLsbD_ofNat, Nat.testBit_eq_decide_div_mod_eq]
  cases decode <;> simp only [Bool.false_eq_true, if_false, if_true, Nat.reduceLT, decide_true, Bool.true_and,
    decide_eq_false_iff_not] <;> omega

theorem clearLatches_trapped (t : Thread) (cause : BitVec 18) (pc : Pc) (a : Word) :
    clearLatches (trapped t cause pc a) = trapped t cause pc a := by
  simp [trapped, clearLatches]

/-- The end of a unit some of whose threads trap, to a vector that is enabled, while nothing else has changed. -/
theorem finishUnit_traps (s : State) (hs : Ready s) (who : Nat → Bool) (info : Nat → TrapInfo) (cause : BitVec 8)
    (sub : Option (BitVec 8)) (addr : Nat → Option Word) (pc : Nat → Pc) (decode : Bool)
    (hv : ∀ j ∈ gathering s, who j = true → Vectored s j)
    (hinfo : ∀ j ∈ gathering s, who j = true → (info j).cause = cause ∧ (info j).sub = sub ∧ (info j).addr = addr j ∧
      (info j).pc.getD (thr s j).pc = pc j ∧ (info j).resume = none ∧ (info j).second = false ∧ (info j).decode = decode)
    (i : Instr) (he : exec i s = .next (finishUnit s ⟨s, ((gathering s).filter who).map fun j => (j, info j), [], [], none, none, false⟩ 1)) :
    Traps i s who cause sub addr pc decode := by
  refine ⟨_, he, ?_⟩
  generalize hG : gathering s = G at *
  have hGn : G.Nodup := hG ▸ hs.once
  have hTn : (G.filter who).Nodup := hGn.filter _
  have hstay : G.filter (fun i => !((((G.filter who).map fun j => (j, info j)) : List (Nat × TrapInfo)).any fun x => x.1 == i)) =
      G.filter fun i => !who i := by
    refine List.filter_congr fun i hi => ?_
    congr 1
    rw [Bool.eq_iff_iff]
    simp [List.any_eq_true]
    exact fun _ => hi
  have hSn : (G.filter fun i => !who i).Nodup := hGn.filter _
  unfold finishUnit
  simp only [hs.group, hG, hs.fresh.1, hs.fresh.2, List.nil_append, hstay]
  have hsub : G.filter (fun i => !who i) ⊆ gathering s := fun x hx => hG ▸ (List.mem_filter.mp hx).1
  rw [thr_advanced s (G.filter fun i => !who i) hs hsub hSn _ (by
    intro acc b i hi hai
    have hc := hs.clear i (hsub hi)
    simp [hai, hc.runs.1, hc.runs.2.1])]
  generalize hA : changeAll (fun _ => true) (fun _ t => { t with pc := nextSlot t.pc }) s (G.filter fun i => !who i) = A
  have hAin : ∀ j ∈ G, who j = false → thr A j = { thr s j with pc := nextSlot (thr s j).pc } := by
    intro j hj hw
    rw [← hA, thr_changeAll_in _ _ _ _ hSn (by simp [hj, hw])]
    rfl
  have hAout : ∀ j, ¬(j ∈ G ∧ who j = false) → thr A j = thr s j := by
    intro j hj
    rw [← hA, thr_changeAll_out]
    simpa using hj
  have hAf : A = { s with threads := A.threads } := by rw [← hA]; exact changeAll_frame ..
  rw [List.foldl_map]
  obtain ⟨f1, f2, f3, f4, f5⟩ := foldl_traps
    (fun st j => trapThread st j (info j) (1 == 2) (((G.filter who).map fun j => (j, info j)).map Prod.fst)) (G.filter who) s
    (fun j t t' => ∃ (c : BitVec 18) (a : Word), t' = trapped t c (pc j) a ∧ c.setWidth 8 = cause ∧ c.getLsbD 17 = decode ∧
      c.getLsbD 16 = false ∧ (∀ x, sub = some x → c.extractLsb' 8 8 = x) ∧ ∀ x, addr j = some x → a = x)
    (fun j => frameBytes (thr s j) (pc j) false) (fun j => frameLoc (thr s j))
    (by
      intro st j hj hw ht
      have hjG : j ∈ G := (List.mem_filter.mp hj).1
      have hwj : who j = true := (List.mem_filter.mp hj).2
      have hc := hs.clear j (hG ▸ hjG)
      obtain ⟨v1, v2, v3, v4, v5⟩ := hv j hjG hwj
      obtain ⟨k1, k2, k3, k4, k5, k6, k7⟩ := hinfo j hjG hwj
      have htx : txEntry st j = none := by
        rw [← v4]
        simp [txEntry, wgOf, hw]
      obtain ⟨sb, a, n, e1, e2, e3⟩ := takeTrap_vectored st j (info j) (1 == 2) (by rw [ht]; exact v1) (by rw [ht]; exact v2)
        (by rw [ht]; exact v3) (by rw [ht]; exact hc.noPend) (by rw [ht]; unfold logsMet at v5 ⊢; rw [hw]; exact v5)
      refine ⟨n, fun t => trapped t (BitVec.ofNat 18 (cause.toNat + sb.toNat * 2 ^ 8 + if decode then 2 ^ 17 else 0)) (pc j) a,
        ?_, ?_⟩
      · unfold trapThread
        simp only [htx, ht, hc.runs.1, Bool.false_eq_true, if_false]
        rw [e3, ht, k4, k5, k1, k6, k7]
        simp
      · refine ⟨_, a, rfl, ?_, ?_, ?_, ?_, ?_⟩
        · exact causeWord_low cause sb decode
        · exact causeWord_decode cause sb decode
        · exact causeWord_second cause sb decode
        · intro x hx
          rw [causeWord_sub, e1 x (by rw [k2, hx])]
        · intro x hx
          exact e2 x (by rw [k3, hx]))
    (G.filter who) (fun _ h => h) hTn A (by rw [hAf]) (by
      intro j hj
      exact hAout j (by simp [(List.mem_filter.mp hj).2]))
  generalize hB : (G.filter who).foldl _ A = B at *
  have hBin : ∀ j ∈ G, who j = false → thr B j = { thr s j with pc := nextSlot (thr s j).pc } := by
    intro j hj hw
    rw [f2 j (by simp [hw]), hAin j hj hw]
  have hB1 : ∀ j ∈ G, (thr B j).moved = false ∧ (thr B j).pend = [] := by
    intro j hj
    have hc := hs.clear j (hG ▸ hj)
    by_cases hw : who j = true
    · obtain ⟨c, a, e, -⟩ := f1 j (List.mem_filter.mpr ⟨hj, hw⟩)
      rw [e]
      exact ⟨hc.runs.1, by simp [trapped, clearLatches, hc.noPend]⟩
    · rw [hBin j hj (by simpa using hw)]
      exact ⟨hc.runs.1, hc.noPend⟩
  have h3 : ∀ f : State → Nat → State, (∀ i ∈ G, f B i = B) → ∀ g ⊆ G, g.foldl f B = B := by
    intro f hf g
    induction g with
    | nil => intros; rfl
    | cons i rest ih =>
      intro hg
      rw [List.foldl_cons, hf i (hg (List.mem_cons_self ..))]
      exact ih fun x hx => hg (List.mem_cons_of_mem _ hx)
  rw [h3 _ (by intro i hi; simp [hB1 i hi]) G (fun _ h => h)]
  have hcalm : ∀ (x : State) (y : Issue) (c : Nat) (g r : List Nat) (sw : Bool), Calm B x →
      Calm B (settle { x with issue := y } c g r sw) :=
    fun x y c g r sw hx => Calm.trans (Calm.trans hx (Calm.issue _ _)) (Calm.settle _ _ _ _ _)
  have hret : ∀ (b : Bool), Calm B (if b then retire B s.cur G 1 else B) := by
    intro b
    cases b
    · exact Calm.refl B
    · exact Calm.retire _ _ _ _
  have hfin := fun y c g r sw => hcalm _ y c g r sw (hret ((G.filter who).map fun j => (j, info j)).isEmpty)
  generalize hu' : settle _ _ _ _ _ = u
  have hu : Calm B u := hu' ▸ hfin _ _ _ _ _
  have hmem : u.mem = B.mem := by rw [hu.rest]
  have hAm : A.mem = s.mem := by rw [hAf]
  have mem_in : ∀ j, j ∈ G → who j = true → j ∈ G.filter who := fun j hj hw => List.mem_filter.mpr ⟨hj, hw⟩
  refine ⟨?_, ?_, ?_, ?_, ?_, ?_, ?_, ?_⟩
  · intro j hj hw
    obtain ⟨c, a, e, h⟩ := f1 j (mem_in j hj hw)
    exact ⟨c, a, by rw [hu.threads, e, clearLatches_trapped], h⟩
  · intro j hj hw
    rw [hu.threads, hBin j hj hw]
    rfl
  · intro j hj
    rw [hu.threads, f2 j (by simp [hj]), hAout j (by simp [hj])]
  · intro hwf j hj hw hdis
    have h := (f4 (hAm ▸ hwf)).2 j (mem_in j hj hw) fun k hk hne => by
      have hk := List.mem_filter.mp hk
      rw [frameBytes_length, frameBytes_length]
      exact hdis k hk.1 hne hk.2
    rw [frameBytes_length] at h
    unfold readBytes at h ⊢
    rw [hmem]
    exact h
  · intro l hl
    rw [hmem, f3 l, hAm]
    intro i hi
    have hi := List.mem_filter.mp hi
    rw [frameBytes_length]
    exact hl i hi.1 hi.2
  · intro k
    rw [hu.wgs]
    have : B.wgs = s.wgs := by rw [f5, hAf]
    simp [wgOf, this]
  · intro c
    have : coreOf B c = coreOf s c := by
      have : B.cores = s.cores := by rw [f5, hAf]
      simp [coreOf, this]
    rw [← this]
    exact hu.cores c
  · rw [hu.rest, f5, hAf]

/-- What traps a thread whose guard is true: its operands, or the instruction's own rule (R167). -/
def TrapsPart (s : State) (needs : State → Nat → List (Src × Need)) (body : State → State → Nat → LaneRes)
    (info : Nat → TrapInfo) (j : Nat) : Prop :=
  (∃ c, operandTrap (thr s j) (needs s j) = some c ∧ info j = trapOf c none) ∨
    (operandTrap (thr s j) (needs s j) = none ∧ ∃ x, body s s j = .trap x ∧ info j = { x with second := false })

theorem foldl_lanePart_traps (s : State) (o : Ops) (needs : State → Nat → List (Src × Need))
    (body : State → State → Nat → LaneRes) (info : Nat → TrapInfo) (hs : Ready s)
    (hb : ∀ j ∈ gathering s, guardTrue (thr s j) o.gd = true → TrapsPart s needs body info j) :
    ∀ g ⊆ gathering s, ∀ acc, g.foldl (lanePart s o needs body) { st := s, traps := acc, jumps := [], waits := [], hold := none, stall := none, switch := false } =
      { st := s, traps := acc ++ (g.filter fun j => guardTrue (thr s j) o.gd).map fun j => (j, info j), jumps := [], waits := [],
        hold := none, stall := none, switch := false } := by
  intro g
  induction g with
  | nil => simp
  | cons j rest ih =>
    intro hg acc
    have hj := hg (List.mem_cons_self ..)
    have hc := hs.clear j hj
    have hecc : ∀ x, srcEcc (thr s j) x = none := by
      intro x
      cases x <;> simp [srcEcc, hc.noEcc.1, hc.noEcc.2]
    have hle := loopEnd_noEnd (st := s) (next := nextSlot (insPc s j)) hc.noEnd
    have hstep : ∃ a, lanePart s o needs body { st := s, traps := acc, jumps := [], waits := [], hold := none, stall := none, switch := false } j =
        { st := s, traps := a, jumps := [], waits := [], hold := none, stall := none, switch := false } ∧
        a = acc ++ if guardTrue (thr s j) o.gd then [(j, info j)] else [] := by
      unfold lanePart
      by_cases hgd : guardTrue (thr s j) o.gd = true
      · rcases hb j hj hgd with ⟨c, h1, h2⟩ | ⟨h1, x, h2, h3⟩
        · refine ⟨_, ?_, rfl⟩
          simp [hgd, hc.runs.1, h1, hs.alone, h2, trapOf]
        · refine ⟨_, ?_, rfl⟩
          simp [hgd, hc.runs.1, h1, h2, hs.alone, h3]
      · simp only [Bool.not_eq_true] at hgd
        refine ⟨_, ?_, rfl⟩
        simp [hgd, hc.runs.1, hc.runs.2.1, hecc, hs.alone, unitPcs, hle]
    obtain ⟨a, e1, e2⟩ := hstep
    rw [List.foldl_cons, e1, ih (fun x hx => hg (List.mem_cons_of_mem _ hx)), e2, List.filter_cons]
    split <;> simp

/-- An instruction of the lane engine that every thread whose guard is true traps. -/
theorem laneOpWith_traps (s : State) (bad : State → Nat → Bool) (o : Ops) (needs : State → Nat → List (Src × Need))
    (body : State → State → Nat → LaneRes) (info : Nat → TrapInfo) (hs : Ready s)
    (hr : ∀ i ∈ gathering s, opsBeyond (wgOf s (tidWg i)) (tidQuire i) o = false ∧ bad s i = false)
    (hb : ∀ j ∈ gathering s, guardTrue (thr s j) o.gd = true → TrapsPart s needs body info j) :
    laneOpWith bad o needs body s = .next (finishUnit s ⟨s, ((gathering s).filter fun j => guardTrue (thr s j) o.gd).map
      fun j => (j, info j), [], [], none, none, false⟩ 1) := by
  have hg : (gathering s).filter (fun i => !(s.issue.traps.any fun x => x.1 == i)) = gathering s := by simp [hs.fresh.1]
  have h1 : ((gathering s).any fun i => opsBeyond (wgOf s (tidWg i)) (tidQuire i) o || bad s i) = false := by
    rw [List.any_eq_false]
    intro i hi
    simp [hr i hi]
  have h2 : ((gathering s).any fun i => mustStall (thr s i) o) = false := by
    rw [List.any_eq_false]
    intro i hi
    simp [mustStall, (hs.clear i hi).noPend]
  have h3 : trapsPending s (((gathering s).filter fun j => guardTrue (thr s j) o.gd).map fun j => (j, info j)) = false := by
    unfold trapsPending
    rw [List.any_eq_false]
    intro x hx
    obtain ⟨j, hj, rfl⟩ := List.mem_map.mp hx
    simp [(hs.clear j (List.mem_filter.mp hj).1).noPend]
  unfold laneOpWith
  rw [openIssue_ready s hs]
  simp only [hg, h1, h2, Bool.false_eq_true, if_false]
  rw [foldl_lanePart_traps s o needs body info hs hb _ (fun _ h => h)]
  simp [endPart, h3, hs.alone]

/-- The same, taken to the threads' vectors. -/
theorem laneOp_traps {i : Instr} {s : State} {o : Ops} {needs : List (Src × Need)} {body : State → State → Nat → LaneRes}
    {info : Nat → TrapInfo} {cause : BitVec 8} {sub : Option (BitVec 8)} {addr : Nat → Option Word} {pc : Nat → Pc}
    (he : exec i s = laneOp o needs body s) (hs : Ready s)
    (hr : ∀ i ∈ gathering s, opsBeyond (wgOf s (tidWg i)) (tidQuire i) o = false)
    (hv : ∀ j ∈ gathering s, guardTrue (thr s j) o.gd = true → Vectored s j)
    (hb : ∀ j ∈ gathering s, guardTrue (thr s j) o.gd = true → TrapsPart s (fun _ _ => needs) body info j)
    (hinfo : ∀ j ∈ gathering s, guardTrue (thr s j) o.gd = true → (info j).cause = cause ∧ (info j).sub = sub ∧
      (info j).addr = addr j ∧ (info j).pc.getD (thr s j).pc = pc j ∧ (info j).resume = none ∧ (info j).second = false ∧
      (info j).decode = false) :
    Traps i s (fun j => guardTrue (thr s j) o.gd) cause sub addr pc false := by
  refine finishUnit_traps s hs _ info cause sub addr pc false hv hinfo i ?_
  rw [he]
  exact laneOpWith_traps s _ o _ body info hs (fun i hi => ⟨hr i hi, rfl⟩) hb

/-- A trap of the whole gathering, taken to the threads' vectors, whatever the guard (R11, R91). -/
theorem trapAll_traps {i : Instr} {s : State} {x : TrapInfo} (he : exec i s = trapAll s x) (hs : Ready s)
    (hv : ∀ j ∈ gathering s, Vectored s j) (hx : x.pc = none ∧ x.resume = none) :
    Traps i s (fun _ => true) x.cause x.sub (fun _ => x.addr) (fun j => (thr s j).pc) x.decode := by
  refine finishUnit_traps s hs _ (fun _ => { x with second := false }) _ _ _ _ _ (fun j hj _ => hv j hj)
    (fun j _ _ => ⟨rfl, rfl, rfl, by simp [hx.1], hx.2, rfl, rfl⟩) i ?_
  rw [he]
  unfold trapAll
  have h3 : trapsPending s ((gathering s).map fun t => (t, { x with second := false })) = false := by
    unfold trapsPending
    rw [List.any_eq_false]
    intro y hy
    obtain ⟨j, hj, rfl⟩ := List.mem_map.mp hy
    simp [(hs.clear j hj).noPend]
  have hf : (gathering s).filter (fun _ => true) = gathering s := by simp
  have hm : (Member.single == Member.second) = false := rfl
  simp [endPart, hs.alone, hs.fresh.1, hm, h3, hf]

end Sys2Proof.Machine
end

