-- ==== Sys2Proof/Laws/Parts.lean ====
section
/-! SUPPORT. Parts of threads that change more than their thread: what a part must leave alone, and the law that turns it into
a statement about an instruction. -/

namespace Sys2Proof.Machine

/-- A thread's part leaves the other threads and the issue alone, and its own thread running. -/
structure Steady (st u : State) (i : Nat) : Prop where
  others : ∀ j, j ≠ i → thr u j = thr st j
  issue : u.issue = st.issue
  moved : (thr u i).moved = (thr st i).moved
  exited : (thr u i).exited = (thr st i).exited
  pend : (thr st i).pend = [] → (thr u i).pend = []

/-- It leaves the loop nest and the PC alone as well. -/
structure Straight (st u : State) (i : Nat) : Prop extends Steady st u i where
  nest : (thr u i).nest = (thr st i).nest
  pc : (thr u i).pc = (thr st i).pc

theorem Straight.refl (st : State) (i : Nat) : Straight st st i := ⟨⟨fun _ _ => rfl, rfl, rfl, rfl, id⟩, rfl, rfl⟩

theorem Steady.trans {a b c : State} {i : Nat} (h1 : Steady a b i) (h2 : Steady b c i) : Steady a c i :=
  ⟨fun j hj => (h2.others j hj).trans (h1.others j hj), h2.issue.trans h1.issue, h2.moved.trans h1.moved,
    h2.exited.trans h1.exited, fun h => h2.pend (h1.pend h)⟩

theorem Straight.trans {a b c : State} {i : Nat} (h1 : Straight a b i) (h2 : Straight b c i) : Straight a c i :=
  ⟨h1.toSteady.trans h2.toSteady, h2.nest.trans h1.nest, h2.pc.trans h1.pc⟩

/-- A change outside the threads and the issue. -/
theorem Straight.of_threads {st u : State} {i : Nat} (h : u.threads = st.threads) (hi : u.issue = st.issue) : Straight st u i := by
  have : ∀ j, thr u j = thr st j := fun j => by simp [thr, h]
  exact ⟨⟨fun j _ => this j, hi, by rw [this], by rw [this], by rw [this]; exact id⟩, by rw [this], by rw [this]⟩

theorem Steady.modThr {st : State} {i : Nat} {f : Thread → Thread} (h : (f (thr st i)).moved = (thr st i).moved)
    (he : (f (thr st i)).exited = (thr st i).exited) (hp : (thr st i).pend = [] → (f (thr st i)).pend = []) :
    Steady st (modThr st i f) i :=
  ⟨fun j hj => by rw [thr_modThr, if_neg (Ne.symm hj)], rfl, by rw [thr_modThr_self, h], by rw [thr_modThr_self, he],
    fun hq => by rw [thr_modThr_self, hp hq]⟩

theorem Straight.modThr {st : State} {i : Nat} {f : Thread → Thread} (h : (f (thr st i)).moved = (thr st i).moved)
    (he : (f (thr st i)).exited = (thr st i).exited) (hp : (thr st i).pend = [] → (f (thr st i)).pend = [])
    (hn : (f (thr st i)).nest = (thr st i).nest) (hc : (f (thr st i)).pc = (thr st i).pc) :
    Straight st (modThr st i f) i :=
  ⟨Steady.modThr h he hp, by rw [thr_modThr_self, hn], by rw [thr_modThr_self, hc]⟩

theorem Straight.modWg (st : State) (i k : Nat) (f : Workgroup → Workgroup) : Straight st (modWg st k f) i :=
  Straight.of_threads rfl rfl

theorem Straight.progress (st : State) (i k : Nat) : Straight st (progress st k) i := Straight.of_threads rfl rfl

theorem Straight.writeReg (st : State) (i : Nat) (r : Reg) (v : Wide) (tag : FTag) : Straight st (writeReg st i r v tag) i := by
  unfold Machine.writeReg
  cases r <;> refine Straight.modThr ?_ ?_ ?_ ?_ ?_ <;> simp only [setXv] <;> (try split) <;> simp

theorem Straight.writeDst (st : State) (i : Nat) (d : Dst) (v : Nat) : Straight st (writeDst st i d v) i := by
  cases d
  · exact Straight.writeReg ..
  · exact Straight.refl ..

theorem Straight.result (st : State) (i k : Nat) (d : Dst) (wide : Bool) (v : Wide) (tag : FTag) :
    Straight st (result st i k d wide v tag) i := by
  have h : ∀ l, Straight st (Machine.modThr st i fun t => setLatch t k l) i := by
    intro l
    refine Straight.modThr ?_ ?_ ?_ ?_ ?_ <;> unfold setLatch <;> split <;> simp
  unfold Machine.result
  cases d
  · exact (h _).trans (Straight.writeReg ..)
  · exact h _

theorem Straight.resultG (st : State) (i k : Nat) (d : Dst) (v : Nat) : Straight st (resultG st i k d v) i := Straight.result ..

theorem Straight.resultV (st : State) (i k : Nat) (d : Dst) (v : Nat) (tag : FTag) : Straight st (resultV st i k d v tag) i :=
  Straight.result ..

/-- The law: parts that are steady, each the answer of its body. `hpart` may use what the statement assumes at each turn. -/
theorem laneOpWith_parts {i : Instr} {s : State} {bad : State → Nat → Bool} {o : Ops} {needs : State → Nat → List (Src × Need)}
    {body : State → State → Nat → LaneRes} {part : State → Nat → State} {go : Nat → Go} {P : State → Nat → Prop}
    (he : exec i s = laneOpWith bad o needs body s) (hs : Ready s)
    (hr : ∀ j ∈ gathering s, opsBeyond (wgOf s (tidWg j)) (tidQuire j) o = false ∧ bad s j = false ∧
      (guardTrue (thr s j) o.gd = true → ∀ st, thr st j = thr s j → operandTrap (thr s j) (needs st j) = none))
    (hP : AtTurns s o.gd part P)
    (hstay : ∀ j, go j ≠ .stay)
    (hpart : ∀ st j, j ∈ gathering s → guardTrue (thr s j) o.gd = true → thr st j = thr s j → st.issue = s.issue → P st j →
      Answers (body s st j) (part st j) (go j) ∧ Steady st (part st j) j ∧
        ((∃ pc, go j = .jump pc) ∨ Straight st (part st j) j)) : Runs i s o.gd part go := by
  -- the turns before a thread leave it and the issue as they were
  have hpre : ∀ before after : List Nat, gathering s = before ++ after →
      (∀ j, j ∉ before → thr (turns s o.gd part before) j = thr s j) ∧ (turns s o.gd part before).issue = s.issue := by
    intro before
    induction before using List.reverseRecOn with
    | nil => intros; exact ⟨fun _ _ => rfl, rfl⟩
    | append_singleton xs x ih =>
      intro after hg
      have hg' : gathering s = xs ++ x :: after := by simp [hg]
      obtain ⟨h1, h2⟩ := ih _ hg'
      have hx : x ∉ xs := by
        have := hs.once
        rw [hg'] at this
        exact fun h => (List.nodup_append.mp this).2.2 x h x (List.mem_cons_self ..) rfl
      rw [turns_snoc]
      split
      · rename_i hgd
        have hst := (hpart _ x (by simp [hg']) hgd (h1 x hx) h2 (hP xs x after hg' hgd)).2.1
        refine ⟨fun j hj => ?_, hst.issue.trans h2⟩
        simp only [List.mem_append, List.mem_singleton, not_or] at hj
        rw [hst.others j hj.2, h1 j hj.1]
      · exact ⟨fun j hj => h1 j (fun h => hj (List.mem_append_left _ h)), h2⟩
  have hin : ∀ {before x after}, gathering s = before ++ x :: after → x ∈ gathering s ∧
      thr (turns s o.gd part before) x = thr s x ∧ (turns s o.gd part before).issue = s.issue := by
    intro before x after hg
    obtain ⟨h1, h2⟩ := hpre before _ hg
    refine ⟨by simp [hg], h1 x ?_, h2⟩
    have := hs.once
    rw [hg] at this
    exact fun h => (List.nodup_append.mp this).2.2 x h x (List.mem_cons_self ..) rfl
  refine runs_of he (laneOpWith_runs s bad o needs body part go hs (fun j hj => ⟨(hr j hj).1, (hr j hj).2.1⟩) ?_ ?_ ?_ ?_ ?_)
  · intro before x after hg hgd j hj
    obtain ⟨h0, h1, h2⟩ := hin hg
    exact (hpart _ x h0 hgd h1 h2 (hP _ _ _ hg hgd)).2.1.others j hj
  · intro before x after hg hgd
    obtain ⟨h0, h1, h2⟩ := hin hg
    rw [h1]
    exact (hr x h0).2.2 hgd _ h1
  · intro before x after hg hgd
    obtain ⟨h0, h1, h2⟩ := hin hg
    exact (hpart _ x h0 hgd h1 h2 (hP _ _ _ hg hgd)).1
  · intro before x after hg hgd
    obtain ⟨h0, h1, h2⟩ := hin hg
    exact (hpart _ x h0 hgd h1 h2 (hP _ _ _ hg hgd)).2.1.issue
  · intro before x after hg hgd
    obtain ⟨h0, h1, h2⟩ := hin hg
    obtain ⟨-, hst, hn⟩ := hpart _ x h0 hgd h1 h2 (hP _ _ _ hg hgd)
    have hc := hs.clear x h0
    have hm : (thr (part (turns s o.gd part before) x) x).moved = false := by rw [hst.moved, h1, hc.runs.1]
    have hx : (thr (part (turns s o.gd part before) x) x).exited = false := by rw [hst.exited, h1, hc.runs.2.1]
    refine ⟨hm, hst.pend (by rw [h1, hc.noPend]), ?_⟩
    rcases hn with ⟨pc, hpc⟩ | hn
    · rw [hpc]; exact hx
    · have hne : ∀ l rest, (thr (part (turns s o.gd part before) x) x).nest = l :: rest → l.stop ≠ (thr s x).pc := by
        rw [hn.nest, h1]; exact hc.noEnd
      cases hgo : go x with
      | next => exact ⟨hx, by rw [hn.pc, h1], hne⟩
      | stay => exact absurd hgo (hstay x)
      | jump pc => exact hx
      | wait w => exact ⟨hx, hne⟩

/-- The law for an instruction with fixed operand needs. -/
theorem laneOp_parts {i : Instr} {s : State} {o : Ops} {needs : List (Src × Need)} {body : State → State → Nat → LaneRes}
    {part : State → Nat → State} {go : Nat → Go} {P : State → Nat → Prop} (he : exec i s = laneOp o needs body s) (hs : Ready s)
    (hr : Readable s o needs) (hP : AtTurns s o.gd part P) (hstay : ∀ j, go j ≠ .stay)
    (hpart : ∀ st j, j ∈ gathering s → guardTrue (thr s j) o.gd = true → thr st j = thr s j → st.issue = s.issue → P st j →
      Answers (body s st j) (part st j) (go j) ∧ Steady st (part st j) j ∧
        ((∃ pc, go j = .jump pc) ∨ Straight st (part st j) j)) : Runs i s o.gd part go :=
  laneOpWith_parts he hs (fun j hj => ⟨(hr j hj).1, rfl, fun hg _ _ => (hr j hj).2 hg⟩) hP hstay hpart

/-- The same for threads that only go on. -/
theorem laneOp_straight {i : Instr} {s : State} {o : Ops} {needs : List (Src × Need)} {body : State → State → Nat → LaneRes}
    {part : State → Nat → State} {P : State → Nat → Prop} (he : exec i s = laneOp o needs body s) (hs : Ready s)
    (hr : Readable s o needs) (hP : AtTurns s o.gd part P)
    (hpart : ∀ st j, j ∈ gathering s → guardTrue (thr s j) o.gd = true → thr st j = thr s j → st.issue = s.issue → P st j →
      (body s st j = .done (part st j) ∨ body s st j = .yield (part st j)) ∧ Straight st (part st j) j) :
    Runs i s o.gd part fun _ => .next :=
  laneOp_parts he hs hr hP (fun _ => by simp) fun st j h1 h2 h3 h4 h5 => by
    obtain ⟨hb, hst⟩ := hpart st j h1 h2 h3 h4 h5
    refine ⟨?_, hst.toSteady, .inr hst⟩
    rcases hb with hb | hb <;> rw [hb] <;> rfl

end Sys2Proof.Machine
end

