-- ==== Sys2Proof/Laws/Access.lean ====
section
/-! SUPPORT. What an access may change beside its cells: the states of lines, the translation cache, a page that its first touch
zeroes. -/

namespace Sys2Proof.Machine

/-! ### Stores that reach a cell (R208) -/

theorem foldl_sendDec_frame (rs : List Nat) : ∀ s : State, rs.foldl sendDec s = { s with quads := (rs.foldl sendDec s).quads } := by
  induction rs with
  | nil => intro s; rfl
  | cons r rest ih => intro s; rw [List.foldl_cons, ih]; rfl

/-- A store that meets no log area changes its cells, lifts the poison of sectors it writes whole, and sends decrements for the
signal words it meets (R478). -/
theorem storeBytes_frame (s : State) (l : Nat) (bs : List Byte) (h : logsMet s l bs.length = []) :
    storeBytes s l bs = { writeBytes s l bs with quads := (storeBytes s l bs).quads } := by
  have h' : logsMet (writeBytes s l bs) l bs.length = [] := h
  unfold storeBytes noteStore
  rw [h']
  exact foldl_sendDec_frame ..

theorem Straight.storeBytes (st : State) (i l : Nat) (bs : List Byte) (h : logsMet st l bs.length = []) :
    Straight st (storeBytes st l bs) i := by
  rw [storeBytes_frame st l bs h]
  exact Straight.of_threads rfl rfl

theorem storeBytes_mem (s : State) (l : Nat) (bs : List Byte) (h : logsMet s l bs.length = []) :
    (storeBytes s l bs).mem = Memory.setList s.mem l bs := by
  rw [storeBytes_frame s l bs h]; rfl

/-! ### Lines (R419) -/

/-- Only the states of lines and what the dies' controllers note differ. -/
def LineOnly (s u : State) : Prop := u = { s with coh := u.coh, dies := u.dies }

theorem LineOnly.refl (s : State) : LineOnly s s := rfl

theorem LineOnly.trans {a b c : State} (h1 : LineOnly a b) (h2 : LineOnly b c) : LineOnly a c := by
  unfold LineOnly at *
  rw [h2, h1]

theorem LineOnly.foldl {α : Type} (f : State → α → State) (hf : ∀ s a, LineOnly s (f s a)) (l : List α) :
    ∀ s, LineOnly s (l.foldl f s) := by
  induction l with
  | nil => exact fun s => LineOnly.refl s
  | cons a r ih => exact fun s => (hf s a).trans (ih (f s a))

theorem setLine_lineOnly (s : State) (h l r st : Nat) : LineOnly s (setLine s h l r st) := rfl

theorem freeze_lineOnly (s : State) (t : Trans) (l : Nat) : LineOnly s (freeze s t l) := by
  unfold freeze
  split <;> rfl

theorem lineEvent_lineOnly (s : State) (h l e : Nat) : LineOnly s (lineEvent s h l e) := by
  unfold lineEvent
  split
  · exact (setLine_lineOnly ..).trans (freeze_lineOnly ..)
  · exact LineOnly.refl s

theorem LineOnly.ite {s t : State} (b : Bool) (h : LineOnly s t) : LineOnly s (if b then t else s) := by
  cases b
  · exact LineOnly.refl s
  · exact h

theorem lineMessages_lineOnly (s : State) (self : Option Nat) (l r e : Nat) (t : Trans) :
    LineOnly s (lineMessages s self l r e t) := by
  unfold lineMessages
  generalize (holdersOf s l).filter _ = os
  dsimp only
  refine LineOnly.trans ?_ (LineOnly.ite _ (LineOnly.foldl _ (fun st a => lineEvent_lineOnly st a l 5) os _))
  refine LineOnly.trans (LineOnly.ite (bit t.msg 0) (LineOnly.foldl _ (fun st a => lineEvent_lineOnly st a l 4) os _)) ?_
  refine LineOnly.ite _ (LineOnly.foldl _ (fun st a => ?_) os _)
  split
  · exact lineEvent_lineOnly ..
  · exact LineOnly.refl _

theorem supplied_lineOnly (s t : State) (c l r : Nat) (x : Trans) : LineOnly t (supplied s t c l r x) := by
  unfold supplied
  split
  · split <;> rfl
  · rfl

theorem filterRoom_lineOnly (s : State) (h l : Nat) : LineOnly s (filterRoom s h l) := by
  unfold filterRoom
  dsimp only
  repeat' split
  all_goals first
    | exact LineOnly.refl s
    | exact LineOnly.foldl _ (fun st i => LineOnly.ite _ (lineEvent_lineOnly st _ _ _)) _ _

theorem l1Room_lineOnly (s : State) (h l : Nat) : LineOnly s (l1Room s h l) := by
  unfold l1Room
  dsimp only
  repeat' split
  all_goals first
    | exact LineOnly.refl s
    | exact lineEvent_lineOnly ..

theorem modCoh_lineOnly (s : State) (f : Coherence → Coherence) : LineOnly s (modCoh s f) := rfl

theorem dirRoom_lineOnly (s : State) (h l : Nat) : LineOnly s (dirRoom s h l) := by
  unfold dirRoom
  dsimp only
  split
  · exact LineOnly.refl s
  · split
    · exact LineOnly.refl s
    · split
      · exact LineOnly.refl s
      · exact (LineOnly.foldl _ (fun st i => LineOnly.foldl _ (fun u x => lineEvent_lineOnly u x _ _) _ _) _ s).trans
          (modCoh_lineOnly ..)

/-- A holder takes a line: rooms are made, then its state is set. -/
theorem takeLine_lineOnly (s : State) (h l r st : Nat) : LineOnly s (takeLine s h l r st) := by
  unfold takeLine
  split
  · exact setLine_lineOnly ..
  · exact (((l1Room_lineOnly s h l).trans (filterRoom_lineOnly _ h l)).trans (dirRoom_lineOnly _ h l)).trans
      (setLine_lineOnly ..)

theorem forwardRead_lineOnly (s : State) (c pa r n q : Nat) : LineOnly s (forwardRead s c pa r n q) := by
  unfold forwardRead
  exact ((l1Room_lineOnly s c (pa / 64)).trans (filterRoom_lineOnly _ c (pa / 64))).trans rfl

/-- An access to a line that its table admits. -/
theorem lineAccess_lineOnly {s u : State} {self : Option Nat} {pa range : Nat} {write : Bool}
    (h : lineAccess s self pa range write = .ok u) : LineOnly s u := by
  unfold lineAccess at h
  dsimp only at h
  generalize entryOf _ _ _ = t at h
  generalize (if write = true then _ else _ : Nat) = ev at h
  split at h
  · cases h; exact forwardRead_lineOnly ..
  · cases h
  · cases h
    refine LineOnly.trans (LineOnly.trans (LineOnly.trans (lineMessages_lineOnly s self (pa / 64) range ev t)
      (LineOnly.ite (match self with
        | some h => !write && (match self with
          | some h => lineState s h (pa / 64)
          | none => 0) == 0 && decide (h < 256) && rangeSlot s range != 4
        | none => false) (supplied_lineOnly s _ (self.getD 0) (pa / 64) range t))) ?_) (freeze_lineOnly ..)
    generalize supplied s _ _ _ _ t = v
    cases self
    · exact LineOnly.refl _
    · exact takeLine_lineOnly ..

theorem LineOnly.straight {s u : State} (h : LineOnly s u) (i : Nat) : Straight s u i := by
  rw [LineOnly] at h
  rw [h]
  exact Straight.of_threads rfl rfl

/-! ### Translation (R253 to R257) -/

/-- Only lines, the translation cache and memory differ: a page zeroed at its first touch. -/
def XlatOnly (s u : State) : Prop := u = { s with coh := u.coh, tlb := u.tlb, mem := u.mem, poison := u.poison }

theorem translate_xlatOnly {s u : State} {asid va : Nat} {priv host : Bool} {acc : Acc} {x : Xlat}
    (h : translate s asid priv va acc host = .ok (u, x)) : XlatOnly s u := by
  unfold translate at h
  split at h
  · split at h
    · cases h
    · cases h
      rfl
  · split at h
    · cases h
    · split at h
      · cases h
      · split at h
        · cases h
        · cases h
          split <;> rfl

theorem guardPlace_same {s u : State} {p q : Place} {size leaf : Nat} (h : guardPlace s p size leaf = .ok (u, q)) :
    u = s ∧ q = p := by
  unfold guardPlace at h
  split at h
  · cases h
  · split at h
    · cases h
    · cases h; exact ⟨rfl, rfl⟩

theorem placeOf_xlatOnly {s u : State} {y : Party} {space : Space} {ea size : Nat} {acc : Acc} {p : Place}
    (h : placeOf s y space ea size acc = .ok (u, p)) : XlatOnly s u := by
  unfold placeOf at h
  split at h
  · split at h
    · cases h
    · split at h
      · cases h
      · rename_i e
        rw [(guardPlace_same h).1]
        exact translate_xlatOnly e
  · split at h
    · cases h
    · split at h
      · cases h
      · rename_i e
        cases h
        exact translate_xlatOnly e
  · split at h
    · split at h
      · cases h
      · cases h; rfl
    · cases h
  · split at h
    · cases h
    · cases h; rfl
  · split at h
    · cases h
    · rw [(guardPlace_same h).1]; rfl
  all_goals cases h

theorem XlatOnly.straight {s u : State} (h : XlatOnly s u) (i : Nat) : Straight s u i := by
  rw [XlatOnly] at h
  rw [h]
  exact Straight.of_threads rfl rfl

theorem XlatOnly.thr {s u : State} (h : XlatOnly s u) (j : Nat) : thr u j = thr s j := by
  rw [XlatOnly] at h
  rw [h]
  rfl

theorem XlatOnly.coreOf {s u : State} (h : XlatOnly s u) (c : Nat) : coreOf u c = coreOf s c := by
  rw [XlatOnly] at h
  rw [h]
  rfl

theorem XlatOnly.txOf {s u : State} (h : XlatOnly s u) (j : Nat) : txOf u j = txOf s j := by
  rw [XlatOnly] at h
  rw [h]
  rfl

/-! ### Accesses that reach their cells -/

theorem Reaches.straight {s u : State} {i : Nat} {space : Space} {ea size : Nat} {acc : Acc} {l : Nat}
    (h : Reaches s i space ea size acc l u) (j : Nat) : Straight s u j := by
  obtain ⟨-, -, v, p, hp, -, -, -, -, -, hl⟩ := h
  refine ((placeOf_xlatOnly hp).straight j).trans ?_
  split at hl
  · exact (lineAccess_lineOnly hl).straight j
  · rw [hl]; exact Straight.refl v j

/-- What an access that reaches its cells leaves alone. -/
theorem Reaches.frame {s u : State} {i : Nat} {space : Space} {ea size : Nat} {acc : Acc} {l : Nat}
    (h : Reaches s i space ea size acc l u) :
    u = { s with coh := u.coh, dies := u.dies, tlb := u.tlb, mem := u.mem, poison := u.poison } := by
  obtain ⟨-, -, v, p, hp, -, -, -, -, -, hl⟩ := h
  have h1 := placeOf_xlatOnly hp
  split at hl
  · have h2 := lineAccess_lineOnly hl
    rw [LineOnly] at h2
    rw [XlatOnly] at h1
    rw [h2, h1]
  · rw [hl, h1]

/-- The checks of R205 pass, and the access goes on at the place. -/
theorem Reaches.check {s u : State} {i : Nat} {space : Space} {ea size : Nat} {acc : Acc} {l : Nat}
    (h : Reaches s i space ea size acc l u) (sketch : Bool) : ∃ v p, laneCheck s i space ea size acc sketch = .ok (v, p) ∧
      p.loc = l ∧ p.remote = false ∧ p.window = false ∧ p.sketch = 0 ∧ lineBusy s i p (acc != .rd) = false ∧ lineBusy v i p (acc != .rd) = false ∧
      txOf s i = none ∧ txOf v i = none ∧ (thr v i).core = (thr s i).core ∧
      (if p.global then lineAccess v (some (thr s i).core) p.pa p.range (acc == .wr) else .ok v) = .ok u := by
  obtain ⟨h1, h2, v, p, hp, h3, h4, h5, h6, h7, hl⟩ := h
  have hx := placeOf_xlatOnly hp
  refine ⟨v, p, ?_, h3, h4, h5, h6, h7, ?_, h2, (hx.txOf i).trans h2, by rw [hx.thr], ?_⟩
  · unfold laneCheck
    simp [h1, hp, h5, h6]
  · rw [← h7]
    unfold lineBusy queuedMeets
    rw [hx.thr, hx.coreOf]
  · split at hl
    · rename_i hg; rw [if_pos hg]; exact hl
    · rename_i hg; rw [if_neg hg, hl]

/-- A load that reaches cells without poison. -/
theorem Reaches.load {s u : State} {i : Nat} {space : Space} {ea size : Nat} {l : Nat}
    (h : Reaches s i space ea size .rd l u) (hp : poisoned u l size = false) (s0 : State) (idx : Nat) :
    laneLoad s0 s i space ea size idx = .ok u (leNat (loadBytes u l size)) := by
  obtain ⟨v, p, h1, rfl, h3, h4, h5, h6, h7, h8, h9, h10, h11⟩ := h.check false
  unfold laneLoad
  simp only [h1]
  unfold loadAt localLoad
  simp only [show (Acc.rd != Acc.rd) = false from rfl] at h7
  simp only [h9, h4, h7, h3, h10, Bool.false_eq_true, if_false]
  simp only [show (Acc.rd == Acc.wr) = false from rfl] at h11
  simp only [h11, hp, Bool.false_eq_true, if_false]

/-- A store that reaches its cells. -/
theorem Reaches.store {s u : State} {i : Nat} {space : Space} {ea : Nat} {bs : List Byte} {l : Nat}
    (h : Reaches s i space ea bs.length .wr l u) (s0 : State) :
    ∃ v p, laneCheck s i space ea bs.length .wr false = .ok (v, p) ∧ storeAt s0 v i space ea p bs = .ok (storeBytes u l bs) 0 := by
  obtain ⟨v, p, h1, rfl, h3, h4, h5, h6, h7, h8, h9, h10, h11⟩ := h.check false
  refine ⟨v, p, h1, ?_⟩
  unfold storeAt localStore
  simp only [show (Acc.wr != Acc.rd) = true from rfl] at h7
  simp only [h9, h4, h7, h3, h10, Bool.false_eq_true, if_false]
  simp only [show (Acc.wr == Acc.wr) = true from rfl] at h11
  simp only [h11]

end Sys2Proof.Machine
end

