-- ==== Sys2Proof/Laws/Encode.lean ====
section
/-! SUPPORT. The fields of a word that has been put together from them (R65, R85, R86). -/

namespace Sys2Proof

open Sys2Proof.Machine

/-! ### Bit fields of concatenations -/

theorem extract_append_hi {n m : Nat} (x : BitVec n) (y : BitVec m) (i k : Nat) (h : m ≤ i) :
    (x ++ y).extractLsb' i k = x.extractLsb' (i - m) k := by
  apply BitVec.eq_of_getLsbD_eq
  intro j hj
  simp only [BitVec.getLsbD_extractLsb', BitVec.getLsbD_append, hj]
  rw [if_neg (by omega)]
  congr 2; omega

theorem extract_append_lo {n m : Nat} (x : BitVec n) (y : BitVec m) (i k : Nat) (h : i + k ≤ m) :
    (x ++ y).extractLsb' i k = y.extractLsb' i k := by
  apply BitVec.eq_of_getLsbD_eq
  intro j hj
  simp only [BitVec.getLsbD_extractLsb', BitVec.getLsbD_append, hj]
  rw [if_pos (by omega)]

theorem extract_whole {n : Nat} (x : BitVec n) : x.extractLsb' 0 n = x := by
  apply BitVec.eq_of_getLsbD_eq
  intro j hj
  simp only [BitVec.getLsbD_extractLsb', hj, Nat.zero_add, decide_true, Bool.true_and]

/-- A field within a field. -/
theorem extract_extract {n : Nat} (x : BitVec n) (i k j l : Nat) (h : j + l ≤ k) :
    (x.extractLsb' i k).extractLsb' j l = x.extractLsb' (i + j) l := by
  apply BitVec.eq_of_getLsbD_eq
  intro b hb
  simp only [BitVec.getLsbD_extractLsb', hb, decide_true, Bool.true_and]
  rw [show decide (j + b < k) = true by simp; omega, Bool.true_and, Nat.add_assoc]

/-- A bit as a field of one bit. -/
theorem getLsbD_extract {n : Nat} (x : BitVec n) (i : Nat) : x.getLsbD i = (x.extractLsb' i 1).getLsbD 0 := by
  simp

theorem bitOf_getLsbD (b : Bool) : (bitOf b).getLsbD 0 = b := by cases b <;> decide

/-! ### Codes -/

theorem fmtOf_fmtCode (t : Fmt) : fmtOf (fmtCode t) = some t := by cases t <;> rfl
theorem rndOf_rndCode (r : Rnd) : rndOf (rndCode r) = some r := by cases r <;> rfl
theorem ordOf_ordCode (r : Order) : ordOf (ordCode r) = r := by cases r <;> rfl
theorem scopeOf_scopeCode (r : Scope) : scopeOf (scopeCode r) = some r := by cases r <;> rfl
theorem spaceOf_spaceCode (r : Space) : spaceOf (spaceCode r) = some r := by cases r <;> rfl

theorem regOf_regCode (r : Reg) : regOf (regCode r) = some r := by
  cases r with
  | g n | v n | t n | a n | xv n => revert n; decide

theorem srcOf_srcCode (x : Src) : srcOf (srcCode x) = some x := by
  cases x with
  | reg r =>
    have h : ((0 : BitVec 1) ++ regCode r).extractLsb' 0 8 = regCode r := (extract_append_lo _ _ _ _ (by decide)).trans (extract_whole _)
    have b : ((0 : BitVec 1) ++ regCode r).getLsbD 8 = false := by
      rw [getLsbD_extract]; exact congrArg (fun z => BitVec.getLsbD z 0) (extract_append_hi (0 : BitVec 1) (regCode r) 8 1 (by decide))
    have e : srcOf ((0 : BitVec 1) ++ regCode r) = some (.reg r) := by
      unfold srcOf
      rw [if_neg (by rw [b]; decide)]
      exact (congrArg (fun z => (regOf z).map Src.reg) h).trans (by rw [regOf_regCode]; rfl)
    exact e
  | latch k => revert k; decide

/-! ### Operand fields -/

section Word
variable (opc : BitVec 10) (o : Ops) (m : BitVec 36)

theorem wordOf_mods : (wordOf opc o m).extractLsb' 0 36 = m :=
  (extract_append_lo _ _ _ _ (by decide)).trans (extract_whole _)

theorem wordOf_c : (wordOf opc o m).extractLsb' 36 9 = srcCode o.c :=
  (extract_append_hi _ _ _ _ (by decide)).trans <| (extract_append_lo _ _ _ _ (by decide)).trans (extract_whole _)

theorem wordOf_b : (wordOf opc o m).extractLsb' 45 9 = srcCode o.b :=
  (extract_append_hi _ _ _ _ (by decide)).trans <| (extract_append_hi _ _ _ _ (by decide)).trans <|
    (extract_append_lo _ _ _ _ (by decide)).trans (extract_whole _)

theorem wordOf_a : (wordOf opc o m).extractLsb' 54 9 = srcCode o.a :=
  (extract_append_hi _ _ _ _ (by decide)).trans <| (extract_append_hi _ _ _ _ (by decide)).trans <|
    (extract_append_hi _ _ _ _ (by decide)).trans <| (extract_append_lo _ _ _ _ (by decide)).trans (extract_whole _)

theorem wordOf_d : (wordOf opc o m).extractLsb' 63 9 = dstCode o.d :=
  (extract_append_hi _ _ _ _ (by decide)).trans <| (extract_append_hi _ _ _ _ (by decide)).trans <|
    (extract_append_hi _ _ _ _ (by decide)).trans <| (extract_append_hi _ _ _ _ (by decide)).trans <|
      (extract_append_lo _ _ _ _ (by decide)).trans (extract_whole _)

theorem wordOf_neg : (wordOf opc o m).extractLsb' 72 1 = bitOf o.gd.neg :=
  (extract_append_hi _ _ _ _ (by decide)).trans <| (extract_append_hi _ _ _ _ (by decide)).trans <|
    (extract_append_hi _ _ _ _ (by decide)).trans <| (extract_append_hi _ _ _ _ (by decide)).trans <|
      (extract_append_hi _ _ _ _ (by decide)).trans <| (extract_append_lo _ _ _ _ (by decide)).trans (extract_whole _)

theorem wordOf_bit : (wordOf opc o m).extractLsb' 73 6 = o.gd.bit :=
  (extract_append_hi _ _ _ _ (by decide)).trans <| (extract_append_hi _ _ _ _ (by decide)).trans <|
    (extract_append_hi _ _ _ _ (by decide)).trans <| (extract_append_hi _ _ _ _ (by decide)).trans <|
      (extract_append_hi _ _ _ _ (by decide)).trans <| (extract_append_hi _ _ _ _ (by decide)).trans <|
        (extract_append_lo _ _ _ _ (by decide)).trans (extract_whole _)

theorem wordOf_reg : (wordOf opc o m).extractLsb' 79 7 = o.gd.reg :=
  (extract_append_hi _ _ _ _ (by decide)).trans <| (extract_append_hi _ _ _ _ (by decide)).trans <|
    (extract_append_hi _ _ _ _ (by decide)).trans <| (extract_append_hi _ _ _ _ (by decide)).trans <|
      (extract_append_hi _ _ _ _ (by decide)).trans <| (extract_append_hi _ _ _ _ (by decide)).trans <|
        (extract_append_hi _ _ _ _ (by decide)).trans <| (extract_append_lo _ _ _ _ (by decide)).trans (extract_whole _)

theorem wordOf_opcode : (wordOf opc o m).extractLsb' 86 10 = opc :=
  (extract_append_hi _ _ _ _ (by decide)).trans <| (extract_append_hi _ _ _ _ (by decide)).trans <|
    (extract_append_hi _ _ _ _ (by decide)).trans <| (extract_append_hi _ _ _ _ (by decide)).trans <|
      (extract_append_hi _ _ _ _ (by decide)).trans <| (extract_append_hi _ _ _ _ (by decide)).trans <|
        (extract_append_hi _ _ _ _ (by decide)).trans <| (extract_append_hi _ _ _ _ (by decide)).trans (extract_whole _)

/-- A field of the modifiers. -/
theorem wordOf_field (i k : Nat) (h : i + k ≤ 36) : (wordOf opc o m).extractLsb' i k = m.extractLsb' i k :=
  extract_append_lo _ _ _ _ h

theorem dstCode_reg (r : Reg) : (dstCode (.reg r)).extractLsb' 0 1 = 0 ∧ (dstCode (.reg r)).extractLsb' 1 8 = regCode r :=
  ⟨(extract_append_lo _ _ _ _ (by decide)).trans (extract_whole _), (extract_append_hi _ _ _ _ (by decide)).trans (extract_whole _)⟩

theorem dstOf_wordOf : dstOf ((wordOf opc o m).getLsbD 63) ((wordOf opc o m).extractLsb' 64 8) = some o.d := by
  have h1 : (wordOf opc o m).extractLsb' 63 1 = (dstCode o.d).extractLsb' 0 1 := by
    rw [← wordOf_d opc o m]; exact (extract_extract _ 63 9 0 1 (by decide)).symm
  have h2 : (wordOf opc o m).extractLsb' 64 8 = (dstCode o.d).extractLsb' 1 8 := by
    rw [← wordOf_d opc o m]; exact (extract_extract _ 63 9 1 8 (by decide)).symm
  rw [getLsbD_extract, h1, h2]
  cases o.d with
  | latchOnly => decide
  | reg r =>
    rw [(dstCode_reg r).1, (dstCode_reg r).2]
    unfold dstOf
    rw [if_neg (by decide), regOf_regCode]; rfl

/-- The operands of a word. -/
theorem opsOf_wordOf : opsOf (wordOf opc o m) = some o := by
  unfold opsOf
  rw [dstOf_wordOf, wordOf_a, wordOf_b, wordOf_c, srcOf_srcCode, srcOf_srcCode, srcOf_srcCode, wordOf_reg, wordOf_bit,
    getLsbD_extract, wordOf_neg, bitOf_getLsbD]

/-! ### Modifiers -/

end Word

theorem fields0_wordOf (opc : BitVec 10) (o : Ops) (m : M0) : fields0 (wordOf opc o (mods0 m)) = some m := by
  have ty : (mods0 m).extractLsb' 30 6 = fmtCode m.ty :=
    (extract_append_hi _ _ _ _ (by decide)).trans <| (extract_append_hi _ _ _ _ (by decide)).trans <|
      (extract_append_hi _ _ _ _ (by decide)).trans (extract_whole _)
  have cond : (mods0 m).extractLsb' 25 5 = m.cond :=
    (extract_append_hi _ _ _ _ (by decide)).trans <| (extract_append_hi _ _ _ _ (by decide)).trans <|
      (extract_append_lo _ _ _ _ (by decide)).trans (extract_whole _)
  have sat : (mods0 m).extractLsb' 24 1 = bitOf m.sat :=
    (extract_append_hi _ _ _ _ (by decide)).trans <| (extract_append_lo _ _ _ _ (by decide)).trans (extract_whole _)
  have low : (mods0 m).extractLsb' 0 24 = (match m.imm with
      | none => (0 : BitVec 24)
      | some v => (1 : BitVec 1) ++ v) := (extract_append_lo _ _ _ _ (by decide)).trans (extract_whole _)
  have i : (wordOf opc o (mods0 m)).extractLsb' 23 1 = ((mods0 m).extractLsb' 0 24).extractLsb' 23 1 :=
    (wordOf_field _ _ _ 23 1 (by decide)).trans (extract_extract _ 0 24 23 1 (by decide)).symm
  have v : (wordOf opc o (mods0 m)).extractLsb' 0 23 = ((mods0 m).extractLsb' 0 24).extractLsb' 0 23 :=
    (wordOf_field _ _ _ 0 23 (by decide)).trans (extract_extract _ 0 24 0 23 (by decide)).symm
  unfold fields0
  rw [wordOf_field _ _ _ 30 6 (by decide), ty, fmtOf_fmtCode, wordOf_field _ _ _ 25 5 (by decide), cond,
    getLsbD_extract _ 24, wordOf_field _ _ _ 24 1 (by decide), sat, bitOf_getLsbD, getLsbD_extract _ 23, i, v, low]
  cases h : m.imm with
  | none => simp [← h]
  | some x =>
    have a : ((1 : BitVec 1) ++ x).extractLsb' 23 1 = 1 := (extract_append_hi _ _ _ _ (by decide)).trans (extract_whole _)
    have b : ((1 : BitVec 1) ++ x).extractLsb' 0 23 = x := (extract_append_lo _ _ _ _ (by decide)).trans (extract_whole _)
    have c : (BitVec.extractLsb' 23 1 (1#1 ++ x)).getLsbD 0 = true := (congrArg (fun z => BitVec.getLsbD z 0) a).trans (by decide)
    have d : BitVec.extractLsb' 0 23 (1#1 ++ x) = x := b
    simp only [BitVec.ofNat_eq_ofNat, c, d]
    simp [← h]

theorem mods1_ty (m : M1) : (mods1 m).extractLsb' 30 6 = fmtCode m.ty :=
  (extract_append_hi _ _ _ _ (by decide)).trans <| (extract_append_hi _ _ _ _ (by decide)).trans <| (extract_append_hi _ _ _ _ (by decide)).trans <| (extract_append_hi _ _ _ _ (by decide)).trans <| extract_whole _

theorem mods1_rnd (m : M1) : (mods1 m).extractLsb' 27 3 = rndCode m.rnd :=
  (extract_append_hi _ _ _ _ (by decide)).trans <| (extract_append_hi _ _ _ _ (by decide)).trans <| (extract_append_hi _ _ _ _ (by decide)).trans <| (extract_append_lo _ _ _ _ (by decide)).trans (extract_whole _)

theorem mods1_sat (m : M1) : (mods1 m).extractLsb' 26 1 = bitOf m.sat :=
  (extract_append_hi _ _ _ _ (by decide)).trans <| (extract_append_hi _ _ _ _ (by decide)).trans <| (extract_append_lo _ _ _ _ (by decide)).trans (extract_whole _)

theorem mods1_cond (m : M1) : (mods1 m).extractLsb' 21 5 = m.cond :=
  (extract_append_hi _ _ _ _ (by decide)).trans <| (extract_append_lo _ _ _ _ (by decide)).trans (extract_whole _)

theorem mods1_var (m : M1) : (mods1 m).extractLsb' 0 21 = m.var :=
  (extract_append_lo _ _ _ _ (by decide)).trans (extract_whole _)

theorem fields1_wordOf (opc : BitVec 10) (o : Ops) (m : M1) : fields1 (wordOf opc o (mods1 m)) = some m := by
  unfold fields1
  simp only [wordOf_field _ _ _ 30 6 (by decide), mods1_ty, wordOf_field _ _ _ 27 3 (by decide), mods1_rnd, getLsbD_extract (wordOf opc o (mods1 m)) 26, wordOf_field _ _ _ 26 1 (by decide), mods1_sat, wordOf_field _ _ _ 21 5 (by decide), mods1_cond, wordOf_field _ _ _ 0 21 (by decide), mods1_var, fmtOf_fmtCode, rndOf_rndCode, bitOf_getLsbD]

theorem mods2_dt (m : M2) : (mods2 m).extractLsb' 30 6 = fmtCode m.dt :=
  (extract_append_hi _ _ _ _ (by decide)).trans <| (extract_append_hi _ _ _ _ (by decide)).trans <| (extract_append_hi _ _ _ _ (by decide)).trans <| (extract_append_hi _ _ _ _ (by decide)).trans <| (extract_append_hi _ _ _ _ (by decide)).trans <| extract_whole _

theorem mods2_st (m : M2) : (mods2 m).extractLsb' 24 6 = fmtCode m.st :=
  (extract_append_hi _ _ _ _ (by decide)).trans <| (extract_append_hi _ _ _ _ (by decide)).trans <| (extract_append_hi _ _ _ _ (by decide)).trans <| (extract_append_hi _ _ _ _ (by decide)).trans <| (extract_append_lo _ _ _ _ (by decide)).trans (extract_whole _)

theorem mods2_rnd (m : M2) : (mods2 m).extractLsb' 21 3 = rndCode m.rnd :=
  (extract_append_hi _ _ _ _ (by decide)).trans <| (extract_append_hi _ _ _ _ (by decide)).trans <| (extract_append_hi _ _ _ _ (by decide)).trans <| (extract_append_lo _ _ _ _ (by decide)).trans (extract_whole _)

theorem mods2_sat (m : M2) : (mods2 m).extractLsb' 20 1 = bitOf m.sat :=
  (extract_append_hi _ _ _ _ (by decide)).trans <| (extract_append_hi _ _ _ _ (by decide)).trans <| (extract_append_lo _ _ _ _ (by decide)).trans (extract_whole _)

theorem mods2_xv (m : M2) : (mods2 m).extractLsb' 17 3 = m.xv :=
  (extract_append_hi _ _ _ _ (by decide)).trans <| (extract_append_lo _ _ _ _ (by decide)).trans (extract_whole _)

theorem mods2_var (m : M2) : (mods2 m).extractLsb' 0 17 = m.var :=
  (extract_append_lo _ _ _ _ (by decide)).trans (extract_whole _)

theorem fields2_wordOf (opc : BitVec 10) (o : Ops) (m : M2) : fields2 (wordOf opc o (mods2 m)) = some m := by
  unfold fields2
  simp only [wordOf_field _ _ _ 30 6 (by decide), mods2_dt, wordOf_field _ _ _ 24 6 (by decide), mods2_st, wordOf_field _ _ _ 21 3 (by decide), mods2_rnd, getLsbD_extract (wordOf opc o (mods2 m)) 20, wordOf_field _ _ _ 20 1 (by decide), mods2_sat, wordOf_field _ _ _ 17 3 (by decide), mods2_xv, wordOf_field _ _ _ 0 17 (by decide), mods2_var, fmtOf_fmtCode, rndOf_rndCode, bitOf_getLsbD]

theorem mods3_var (m : M3) : (mods3 m).extractLsb' 30 6 = m.var :=
  (extract_append_hi _ _ _ _ (by decide)).trans <| (extract_append_hi _ _ _ _ (by decide)).trans <| (extract_append_hi _ _ _ _ (by decide)).trans <| (extract_append_hi _ _ _ _ (by decide)).trans <| extract_whole _

theorem mods3_ord (m : M3) : (mods3 m).extractLsb' 28 2 = ordCode m.ord :=
  (extract_append_hi _ _ _ _ (by decide)).trans <| (extract_append_hi _ _ _ _ (by decide)).trans <| (extract_append_hi _ _ _ _ (by decide)).trans <| (extract_append_lo _ _ _ _ (by decide)).trans (extract_whole _)

theorem mods3_scope (m : M3) : (mods3 m).extractLsb' 25 3 = scopeCode m.scope :=
  (extract_append_hi _ _ _ _ (by decide)).trans <| (extract_append_hi _ _ _ _ (by decide)).trans <| (extract_append_lo _ _ _ _ (by decide)).trans (extract_whole _)

theorem mods3_rz (m : M3) : (mods3 m).extractLsb' 24 1 = (0 : BitVec 1) :=
  (extract_append_hi _ _ _ _ (by decide)).trans <| (extract_append_lo _ _ _ _ (by decide)).trans (extract_whole _)

theorem mods3_target (m : M3) : (mods3 m).extractLsb' 0 24 = m.target :=
  (extract_append_lo _ _ _ _ (by decide)).trans (extract_whole _)

theorem fields3_wordOf (opc : BitVec 10) (o : Ops) (m : M3) : fields3 (wordOf opc o (mods3 m)) = some m := by
  unfold fields3
  simp only [wordOf_field _ _ _ 30 6 (by decide), mods3_var, wordOf_field _ _ _ 28 2 (by decide), mods3_ord, wordOf_field _ _ _ 25 3 (by decide), mods3_scope, getLsbD_extract (wordOf opc o (mods3 m)) 24, wordOf_field _ _ _ 24 1 (by decide), mods3_rz, wordOf_field _ _ _ 0 24 (by decide), mods3_target, ordOf_ordCode, scopeOf_scopeCode]
  rfl

theorem mods4_ty (m : M4) : (mods4 m).extractLsb' 30 6 = fmtCode m.ty :=
  (extract_append_hi _ _ _ _ (by decide)).trans <| (extract_append_hi _ _ _ _ (by decide)).trans <| (extract_append_hi _ _ _ _ (by decide)).trans <| (extract_append_hi _ _ _ _ (by decide)).trans <| extract_whole _

theorem mods4_ord (m : M4) : (mods4 m).extractLsb' 28 2 = ordCode m.ord :=
  (extract_append_hi _ _ _ _ (by decide)).trans <| (extract_append_hi _ _ _ _ (by decide)).trans <| (extract_append_hi _ _ _ _ (by decide)).trans <| (extract_append_lo _ _ _ _ (by decide)).trans (extract_whole _)

theorem mods4_scope (m : M4) : (mods4 m).extractLsb' 25 3 = scopeCode m.scope :=
  (extract_append_hi _ _ _ _ (by decide)).trans <| (extract_append_hi _ _ _ _ (by decide)).trans <| (extract_append_lo _ _ _ _ (by decide)).trans (extract_whole _)

theorem mods4_space (m : M4) : (mods4 m).extractLsb' 22 3 = spaceCode m.space :=
  (extract_append_hi _ _ _ _ (by decide)).trans <| (extract_append_lo _ _ _ _ (by decide)).trans (extract_whole _)

theorem mods4_off (m : M4) : (mods4 m).extractLsb' 0 22 = m.off :=
  (extract_append_lo _ _ _ _ (by decide)).trans (extract_whole _)

theorem fields4_wordOf (opc : BitVec 10) (o : Ops) (m : M4) : fields4 (wordOf opc o (mods4 m)) = some m := by
  unfold fields4
  simp only [wordOf_field _ _ _ 30 6 (by decide), mods4_ty, wordOf_field _ _ _ 28 2 (by decide), mods4_ord, wordOf_field _ _ _ 25 3 (by decide), mods4_scope, wordOf_field _ _ _ 22 3 (by decide), mods4_space, wordOf_field _ _ _ 0 22 (by decide), mods4_off, fmtOf_fmtCode, ordOf_ordCode, scopeOf_scopeCode, spaceOf_spaceCode]

theorem mods5_ty (m : M5) : (mods5 m).extractLsb' 30 6 = fmtCode m.ty :=
  (extract_append_hi _ _ _ _ (by decide)).trans <| (extract_append_hi _ _ _ _ (by decide)).trans <| (extract_append_hi _ _ _ _ (by decide)).trans <| (extract_append_hi _ _ _ _ (by decide)).trans <| (extract_append_hi _ _ _ _ (by decide)).trans <| extract_whole _

theorem mods5_ord (m : M5) : (mods5 m).extractLsb' 28 2 = ordCode m.ord :=
  (extract_append_hi _ _ _ _ (by decide)).trans <| (extract_append_hi _ _ _ _ (by decide)).trans <| (extract_append_hi _ _ _ _ (by decide)).trans <| (extract_append_hi _ _ _ _ (by decide)).trans <| (extract_append_lo _ _ _ _ (by decide)).trans (extract_whole _)

theorem mods5_scope (m : M5) : (mods5 m).extractLsb' 25 3 = scopeCode m.scope :=
  (extract_append_hi _ _ _ _ (by decide)).trans <| (extract_append_hi _ _ _ _ (by decide)).trans <| (extract_append_hi _ _ _ _ (by decide)).trans <| (extract_append_lo _ _ _ _ (by decide)).trans (extract_whole _)

theorem mods5_space (m : M5) : (mods5 m).extractLsb' 22 3 = spaceCode m.space :=
  (extract_append_hi _ _ _ _ (by decide)).trans <| (extract_append_hi _ _ _ _ (by decide)).trans <| (extract_append_lo _ _ _ _ (by decide)).trans (extract_whole _)

theorem mods5_op (m : M5) : (mods5 m).extractLsb' 17 5 = m.op :=
  (extract_append_hi _ _ _ _ (by decide)).trans <| (extract_append_lo _ _ _ _ (by decide)).trans (extract_whole _)

theorem mods5_off (m : M5) : (mods5 m).extractLsb' 0 17 = m.off :=
  (extract_append_lo _ _ _ _ (by decide)).trans (extract_whole _)

theorem fields5_wordOf (opc : BitVec 10) (o : Ops) (m : M5) : fields5 (wordOf opc o (mods5 m)) = some m := by
  unfold fields5
  simp only [wordOf_field _ _ _ 30 6 (by decide), mods5_ty, wordOf_field _ _ _ 28 2 (by decide), mods5_ord, wordOf_field _ _ _ 25 3 (by decide), mods5_scope, wordOf_field _ _ _ 22 3 (by decide), mods5_space, wordOf_field _ _ _ 17 5 (by decide), mods5_op, wordOf_field _ _ _ 0 17 (by decide), mods5_off, fmtOf_fmtCode, ordOf_ordCode, scopeOf_scopeCode, spaceOf_spaceCode]

theorem mods6_ta (m : M6) : (mods6 m).extractLsb' 30 6 = fmtCode m.ta :=
  (extract_append_hi _ _ _ _ (by decide)).trans <| (extract_append_hi _ _ _ _ (by decide)).trans <| (extract_append_hi _ _ _ _ (by decide)).trans <| extract_whole _

theorem mods6_tb (m : M6) : (mods6 m).extractLsb' 24 6 = fmtCode m.tb :=
  (extract_append_hi _ _ _ _ (by decide)).trans <| (extract_append_hi _ _ _ _ (by decide)).trans <| (extract_append_lo _ _ _ _ (by decide)).trans (extract_whole _)

theorem mods6_ovw (m : M6) : (mods6 m).extractLsb' 23 1 = bitOf m.ovw :=
  (extract_append_hi _ _ _ _ (by decide)).trans <| (extract_append_lo _ _ _ _ (by decide)).trans (extract_whole _)

theorem mods6_var (m : M6) : (mods6 m).extractLsb' 0 23 = m.var :=
  (extract_append_lo _ _ _ _ (by decide)).trans (extract_whole _)

theorem fields6_wordOf (opc : BitVec 10) (o : Ops) (m : M6) : fields6 (wordOf opc o (mods6 m)) = some m := by
  unfold fields6
  simp only [wordOf_field _ _ _ 30 6 (by decide), mods6_ta, wordOf_field _ _ _ 24 6 (by decide), mods6_tb, getLsbD_extract (wordOf opc o (mods6 m)) 23, wordOf_field _ _ _ 23 1 (by decide), mods6_ovw, wordOf_field _ _ _ 0 23 (by decide), mods6_var, fmtOf_fmtCode, bitOf_getLsbD]

theorem mods7_var (m : M7) : (mods7 m).extractLsb' 30 6 = m.var :=
  (extract_append_hi _ _ _ _ (by decide)).trans <| (extract_append_hi _ _ _ _ (by decide)).trans <| (extract_append_hi _ _ _ _ (by decide)).trans <| (extract_append_hi _ _ _ _ (by decide)).trans <| extract_whole _

theorem mods7_ord (m : M7) : (mods7 m).extractLsb' 28 2 = ordCode m.ord :=
  (extract_append_hi _ _ _ _ (by decide)).trans <| (extract_append_hi _ _ _ _ (by decide)).trans <| (extract_append_hi _ _ _ _ (by decide)).trans <| (extract_append_lo _ _ _ _ (by decide)).trans (extract_whole _)

theorem mods7_scope (m : M7) : (mods7 m).extractLsb' 25 3 = scopeCode m.scope :=
  (extract_append_hi _ _ _ _ (by decide)).trans <| (extract_append_hi _ _ _ _ (by decide)).trans <| (extract_append_lo _ _ _ _ (by decide)).trans (extract_whole _)

theorem mods7_rz (m : M7) : (mods7 m).extractLsb' 24 1 = (0 : BitVec 1) :=
  (extract_append_hi _ _ _ _ (by decide)).trans <| (extract_append_lo _ _ _ _ (by decide)).trans (extract_whole _)

theorem mods7_low (m : M7) : (mods7 m).extractLsb' 0 24 = m.low :=
  (extract_append_lo _ _ _ _ (by decide)).trans (extract_whole _)

theorem fields7_wordOf (opc : BitVec 10) (o : Ops) (m : M7) : fields7 (wordOf opc o (mods7 m)) = some m := by
  unfold fields7
  simp only [wordOf_field _ _ _ 30 6 (by decide), mods7_var, wordOf_field _ _ _ 28 2 (by decide), mods7_ord, wordOf_field _ _ _ 25 3 (by decide), mods7_scope, getLsbD_extract (wordOf opc o (mods7 m)) 24, wordOf_field _ _ _ 24 1 (by decide), mods7_rz, wordOf_field _ _ _ 0 24 (by decide), mods7_low, ordOf_ordCode, scopeOf_scopeCode]
  rfl

end Sys2Proof
end

