-- ==== Sys2Proof/Tests/Slice0.lean ====
section
/-! SUPPORT. Tests of the model: words that decode, fields that are refused, single steps, and for every obligation with
hypotheses a state and operands that meet them. -/

namespace Sys2Proof.Tests

open Sys2Proof Sys2Proof.Machine

-- The tests run one after another: side by side their evaluations take too many threads.
set_option Elab.async false

/-! ### Words written out from the layout of R65 and the modifier tables of R85 -/

/-- A word field by field, from bit 95 down: opcode, guard register g0, guard bit 0, negate set, D, no write-back
suppress, A, B, C, modifiers (R65). -/
def word (opc : BitVec 10) (d : BitVec 8) (a b c : BitVec 9) (m : BitVec 36) : Code :=
  opc ++ (0 : BitVec 7) ++ (0 : BitVec 6) ++ (1 : BitVec 1) ++ d ++ (0 : BitVec 1) ++ a ++ b ++ c ++ m

/-- The modifiers of class 0x0: type, condition, .sat, I, immediate. -/
def f0 (ty : BitVec 6) (cond : BitVec 5) (sat i : BitVec 1) (imm : BitVec 23) : BitVec 36 := ty ++ cond ++ sat ++ i ++ imm
/-- Class 0x1: type, rounding, .sat, condition, variant. -/
def f1 (ty : BitVec 6) (rnd : BitVec 3) (sat : BitVec 1) (cond : BitVec 5) (var : BitVec 21) : BitVec 36 :=
  ty ++ rnd ++ sat ++ cond ++ var
/-- Class 0x2: Dt, St, rounding, .sat, xv, variant. -/
def f2 (dt st : BitVec 6) (rnd : BitVec 3) (sat : BitVec 1) (xv : BitVec 3) (var : BitVec 17) : BitVec 36 :=
  dt ++ st ++ rnd ++ sat ++ xv ++ var
/-- Classes 0x3 and 0x7 to 0xB: variant, order, scope, a zero bit, the low 24 bits. -/
def f3 (var : BitVec 6) (ord : BitVec 2) (scope : BitVec 3) (low : BitVec 24) : BitVec 36 :=
  var ++ ord ++ scope ++ (0 : BitVec 1) ++ low
/-- Class 0x4: type, order, scope, space, offset. -/
def f4 (ty : BitVec 6) (ord : BitVec 2) (scope space : BitVec 3) (off : BitVec 22) : BitVec 36 :=
  ty ++ ord ++ scope ++ space ++ off
/-- Class 0x5: type, order, scope, space, operation, offset. -/
def f5 (ty : BitVec 6) (ord : BitVec 2) (scope space : BitVec 3) (op : BitVec 5) (off : BitVec 17) : BitVec 36 :=
  ty ++ ord ++ scope ++ space ++ op ++ off
/-- Class 0x6: Ta, Tb, .ovw, variant. -/
def f6 (ta tb : BitVec 6) (ovw : BitVec 1) (var : BitVec 23) : BitVec 36 := ta ++ tb ++ ovw ++ var

/-- The guard that every thread passes: bit 0 of g0, negated. -/
def always : Guard := ⟨0, 0, true⟩
/-- Operands under that guard. -/
def ops (d : Reg) (a b c : Src) : Ops := ⟨always, .reg d, a, b, c⟩
/-- A general source. -/
def gs (n : BitVec 7) : Src := .reg (.g n)
/-- A vector source. -/
def vs (n : BitVec 5) : Src := .reg (.v n)
/-- General operands only. -/
def og (d a b c : BitVec 7) : Ops := ops (.g d) (gs a) (gs b) (gs c)

/-- Each word decodes to its instruction. -/
def decodes (xs : List (Code × Instr)) : Bool := xs.all fun x => decide (decode x.1 = .ok x.2)

theorem test_decode_class0_arithmetic : decodes [
    (word 0x000 5 6 7 0 (f0 0x03 0 1 0 0), .iadd (og 5 6 7 0) ⟨.i32, 0, true, none⟩),
    (word 0x001 5 6 0 0 (f0 0x08 0 0 1 0x7FFFFF), .isub (og 5 6 0 0) ⟨.n64, 0, false, some 0x7FFFFF⟩),
    (word 0x002 5 6 7 0 (f0 0x01 0 0 0 0), .imul (og 5 6 7 0) ⟨.i8, 0, false, none⟩),
    (word 0x003 5 6 7 0 (f0 0x02 0 0 0 0), .imulhi (og 5 6 7 0) ⟨.i16, 0, false, none⟩),
    (word 0x004 5 6 7 8 (f0 0x05 0 1 0 0), .imad (og 5 6 7 8) ⟨.n8, 0, true, none⟩),
    (word 0x005 5 6 7 0 (f0 0x06 0 0 0 0), .idiv (og 5 6 7 0) ⟨.n16, 0, false, none⟩),
    (word 0x006 5 6 7 0 (f0 0x07 0 0 0 0), .irem (og 5 6 7 0) ⟨.n32, 0, false, none⟩),
    (word 0x007 5 6 0 0 (f0 0x04 0 1 0 0), .ineg (og 5 6 0 0) ⟨.i64, 0, true, none⟩),
    (word 0x008 5 6 0 0 (f0 0x03 0 0 0 0), .iabs (og 5 6 0 0) ⟨.i32, 0, false, none⟩),
    (word 0x009 5 6 7 0 (f0 0x03 0 0 0 0), .imin (og 5 6 7 0) ⟨.i32, 0, false, none⟩),
    (word 0x00A 5 6 7 0 (f0 0x07 0 0 0 0), .imax (og 5 6 7 0) ⟨.n32, 0, false, none⟩),
    (word 0x00B 5 6 7 0 (f0 0x03 5 0 0 0), .icmp (og 5 6 7 0) ⟨.i32, 5, false, none⟩),
    (word 0x00C 5 6 7 8 (f0 0x0A 0 0 0 0), .isel (og 5 6 7 8) ⟨.b64, 0, false, none⟩)] = true := by decide +kernel

theorem test_decode_class0_bits : decodes [
    (word 0x00D 127 6 7 0 (f0 0x09 0 0 0 0), .and (og 127 6 7 0) ⟨.b32, 0, false, none⟩),
    (word 0x00E 5 6 7 0 (f0 0x09 0 0 0 0), .or (og 5 6 7 0) ⟨.b32, 0, false, none⟩),
    (word 0x00F 5 6 7 0 (f0 0x0A 0 0 0 0), .xor (og 5 6 7 0) ⟨.b64, 0, false, none⟩),
    (word 0x010 5 6 7 0 (f0 0x0A 0 0 0 0), .andn (og 5 6 7 0) ⟨.b64, 0, false, none⟩),
    (word 0x011 5 6 0 0 (f0 0x0A 0 0 0 0), .not (og 5 6 0 0) ⟨.b64, 0, false, none⟩),
    (word 0x012 5 6 0 0 (f0 0x04 0 0 1 63), .shl (og 5 6 0 0) ⟨.i64, 0, false, some 63⟩),
    (word 0x013 5 6 7 0 (f0 0x08 0 0 0 0), .shr (og 5 6 7 0) ⟨.n64, 0, false, none⟩),
    (word 0x014 5 6 7 0 (f0 0x04 0 0 0 0), .sar (og 5 6 7 0) ⟨.i64, 0, false, none⟩),
    (word 0x015 5 6 7 0 (f0 0x09 0 0 0 0), .rotl (og 5 6 7 0) ⟨.b32, 0, false, none⟩),
    (word 0x016 5 6 0 0 (f0 0x04 0 0 1 0x204), .bfx (og 5 6 0 0) ⟨.i64, 0, false, some 0x204⟩),
    (word 0x017 5 6 7 8 (f0 0x0A 0 0 0 0), .bfi (og 5 6 7 8) ⟨.b64, 0, false, none⟩),
    (word 0x018 5 6 0 0 (f0 0x0A 0 0 0 0), .popc (og 5 6 0 0) ⟨.b64, 0, false, none⟩),
    (word 0x019 5 6 0 0 (f0 0x09 0 0 0 0), .clz (og 5 6 0 0) ⟨.b32, 0, false, none⟩),
    (word 0x01A 5 6 0 0 (f0 0x09 0 0 0 0), .ctz (og 5 6 0 0) ⟨.b32, 0, false, none⟩),
    (word 0x01B 5 6 0 0 (f0 0x09 0 0 0 0), .brev (og 5 6 0 0) ⟨.b32, 0, false, none⟩),
    (word 0x01C 5 6 7 8 (f0 0x0A 0 0 0 0), .perm (og 5 6 7 8) ⟨.b64, 0, false, none⟩),
    (word 0x01D 5 6 7 0 (f0 0x0A 0 0 0 0), .bset (og 5 6 7 0) ⟨.b64, 0, false, none⟩),
    (word 0x01E 5 6 7 0 (f0 0x0A 0 0 0 0), .bclr (og 5 6 7 0) ⟨.b64, 0, false, none⟩),
    (word 0x01F 5 6 7 0 (f0 0x0A 0 0 0 0), .btst (og 5 6 7 0) ⟨.b64, 0, false, none⟩),
    (word 0x020 5 6 7 0 (f0 0x08 3 0 0 0), .lea (og 5 6 7 0) ⟨.n64, 3, false, none⟩),
    (word 0x021 133 134 0 0 (f0 0x0A 0 0 0 0), .mov (ops (.v 5) (vs 6) (gs 0) (gs 0)) ⟨.b64, 0, false, none⟩),
    (word 0x022 2 0 0 0 0x80000002A, .movi (og 2 0 0 0) 0x80000002A),
    (word 0x023 5 6 7 8 (f0 0x07 0 0 0 0), .hash (og 5 6 7 8) ⟨.n32, 0, false, none⟩),
    (word 0x024 5 6 7 0 (f0 0x05 2 0 0 0), .crc (og 5 6 7 0) ⟨.n8, 2, false, none⟩)] = true := by decide +kernel

theorem test_decode_class1_scalar : decodes [
    (word 0x040 5 6 7 0 (f1 0x10 1 1 0 0), .fadd (og 5 6 7 0) ⟨.f64, .rz, true, 0, 0⟩),
    (word 0x041 5 6 7 0 (f1 0x11 2 0 0 0), .fsub (og 5 6 7 0) ⟨.f32, .rd, false, 0, 0⟩),
    (word 0x042 5 6 7 0 (f1 0x12 3 0 0 0), .fmul (og 5 6 7 0) ⟨.f16, .ru, false, 0, 0⟩),
    (word 0x043 5 6 7 8 (f1 0x13 4 0 0 0), .ffma (og 5 6 7 8) ⟨.bf16, .rs, false, 0, 0⟩),
    (word 0x044 5 6 7 0 (f1 0x11 0 0 0 0), .fmin (og 5 6 7 0) ⟨.f32, .rne, false, 0, 0⟩),
    (word 0x045 5 6 7 0 (f1 0x11 0 0 0 0), .fmax (og 5 6 7 0) ⟨.f32, .rne, false, 0, 0⟩),
    (word 0x046 5 6 0 0 (f1 0x11 0 0 0 0), .fabs (og 5 6 0 0) ⟨.f32, .rne, false, 0, 0⟩),
    (word 0x047 5 6 0 0 (f1 0x11 0 0 0 0), .fneg (og 5 6 0 0) ⟨.f32, .rne, false, 0, 0⟩),
    (word 0x048 5 6 7 0 (f1 0x11 0 0 7 0), .fcmp (og 5 6 7 0) ⟨.f32, .rne, false, 7, 0⟩),
    (word 0x049 5 6 0 0 (f1 0x11 0 0 0 0), .fclass (og 5 6 0 0) ⟨.f32, .rne, false, 0, 0⟩),
    (word 0x04A 5 6 0 0 (f1 0x11 1 0 0 0), .frcp (og 5 6 0 0) ⟨.f32, .rz, false, 0, 0⟩),
    (word 0x04B 5 6 0 0 (f1 0x11 1 0 0 0), .frsq (og 5 6 0 0) ⟨.f32, .rz, false, 0, 0⟩),
    (word 0x04C 5 6 0 0 (f1 0x11 1 0 0 0), .fsqrt (og 5 6 0 0) ⟨.f32, .rz, false, 0, 0⟩),
    (word 0x04D 5 6 7 0 (f1 0x11 1 0 0 0), .fdiv (og 5 6 7 0) ⟨.f32, .rz, false, 0, 0⟩),
    (word 0x04E 5 6 0 0 (f1 0x11 1 0 0 0), .fexp2 (og 5 6 0 0) ⟨.f32, .rz, false, 0, 0⟩),
    (word 0x04F 5 6 0 0 (f1 0x11 1 0 0 0), .flog2 (og 5 6 0 0) ⟨.f32, .rz, false, 0, 0⟩),
    (word 0x050 5 6 0 0 (f1 0x11 1 0 0 0), .fsin (og 5 6 0 0) ⟨.f32, .rz, false, 0, 0⟩),
    (word 0x051 5 6 0 0 (f1 0x11 1 0 0 0), .fcos (og 5 6 0 0) ⟨.f32, .rz, false, 0, 0⟩)] = true := by decide +kernel

theorem test_decode_class1_vector : decodes [
    (word 0x060 133 134 135 0 (f1 0x11 1 1 0 0), .vadd (ops (.v 5) (vs 6) (vs 7) (gs 0)) ⟨.f32, .rz, true, 0, 0⟩),
    (word 0x061 133 134 7 0 (f1 0x03 0 0 0 1), .vsub (ops (.v 5) (vs 6) (gs 7) (gs 0)) ⟨.i32, .rne, false, 0, 1⟩),
    (word 0x062 133 134 0x103 0 (f1 0x11 0 0 0 1), .vmul (ops (.v 5) (vs 6) (.latch 3) (gs 0)) ⟨.f32, .rne, false, 0, 1⟩),
    (word 0x063 133 134 135 136 (f1 0x11 0 0 0 0), .vfma (ops (.v 5) (vs 6) (vs 7) (vs 8)) ⟨.f32, .rne, false, 0, 0⟩),
    (word 0x064 133 134 135 0 (f1 0x07 0 0 0 0), .vmin (ops (.v 5) (vs 6) (vs 7) (gs 0)) ⟨.n32, .rne, false, 0, 0⟩),
    (word 0x065 133 134 135 0 (f1 0x07 0 0 0 0), .vmax (ops (.v 5) (vs 6) (vs 7) (gs 0)) ⟨.n32, .rne, false, 0, 0⟩),
    (word 0x066 5 134 135 8 (f1 0x14 0 0 0 0), .vdot (ops (.g 5) (vs 6) (vs 7) (gs 8)) ⟨.f8e4, .rne, false, 0, 0⟩),
    (word 0x067 5 134 0 0 (f1 0x01 0 1 0 0), .vsum (ops (.g 5) (vs 6) (gs 0) (gs 0)) ⟨.i8, .rne, true, 0, 0⟩),
    (word 0x068 5 134 135 0 (f1 0x09 0 0 1 0), .vcmp (ops (.g 5) (vs 6) (vs 7) (gs 0)) ⟨.b32, .rne, false, 1, 0⟩),
    (word 0x069 133 134 135 8 (f1 0x18 0 0 0 0), .vsel (ops (.v 5) (vs 6) (vs 7) (gs 8)) ⟨.f4x, .rne, false, 0, 0⟩),
    (word 0x06A 5 6 0 0 (f1 0x0A 0 0 0 0xFF), .xshf (og 5 6 0 0) ⟨.b64, .rne, false, 0, 0xFF⟩),
    (word 0x06B 133 6 0 0 (f1 0x16 0 0 0 0), .vbcast (ops (.v 5) (gs 6) (gs 0) (gs 0)) ⟨.f6e3, .rne, false, 0, 0⟩)] = true := by decide +kernel

theorem test_decode_class2 : decodes [
    (word 0x080 5 190 0 0 (f2 0x11 0x14 0 0 0 0), .cvt (ops (.g 5) (.reg (.xv 6)) (gs 0) (gs 0)) ⟨.f32, .f8e4, .rne, false, 0, 0⟩),
    (word 0x081 133 134 0 0 (f2 0x18 0x11 4 1 7 7), .vcvt (ops (.v 5) (vs 6) (gs 0) (gs 0)) ⟨.f4x, .f32, .rs, true, 7, 7⟩),
    (word 0x082 5 134 0 0 (f2 0x17 0x11 0 0 0 0), .quantScale (ops (.g 5) (vs 6) (gs 0) (gs 0)) ⟨.f4, .f32, .rne, false, 0, 0⟩),
    (word 0x082 133 134 7 136 (f2 0x14 0x11 0 0 0 7), .quantCodes (ops (.v 5) (vs 6) (gs 7) (vs 8)) ⟨.f8e4, .f32, .rne, false, 0, 7⟩),
    (word 0x083 133 134 7 0 (f2 0x11 0x2E 1 0 0 3), .deq (ops (.v 5) (vs 6) (gs 7) (gs 0)) ⟨.f32, .q8g128, .rz, false, 0, 3⟩),
    (word 0x084 133 134 135 0 (f2 0x02 0x02 0 0 0 0), .pack (ops (.v 5) (vs 6) (vs 7) (gs 0)) ⟨.i16, .i16, .rne, false, 0, 0⟩),
    (word 0x085 133 134 0 0 (f2 0x02 0x02 0 0 0 1), .unpack (ops (.v 5) (vs 6) (gs 0) (gs 0)) ⟨.i16, .i16, .rne, false, 0, 1⟩),
    (word 0x086 165 165 0 0 (f2 0x22 0x0A 0 0 0 0), .tag (ops (.t 5) (.reg (.t 5)) (gs 0) (gs 0)) ⟨.f8e5bs, .b64, .rne, false, 0, 0⟩),
    (word 0x087 5 182 0 0 (f2 0x0A 0x0A 0 0 0 0), .tagq (ops (.g 5) (.reg (.a 6)) (gs 0) (gs 0)) ⟨.b64, .b64, .rne, false, 0, 0⟩),
    (word 0x088 189 6 0 0 (f2 0x14 0x0A 0 0 0 0), .xvset (ops (.xv 5) (gs 6) (gs 0) (gs 0)) ⟨.f8e4, .b64, .rne, false, 0, 0⟩)] = true := by decide +kernel

theorem test_decode_class3 : decodes [
    (word 0x0C0 0 0 0 0 (f3 0 0 0 0xFFFFFC), .bra (og 0 0 0 0) ⟨0, .rlx, .core, 0xFFFFFC⟩),
    (word 0x0C1 0 6 0 0 (f3 0 0 0 0), .brx (og 0 6 0 0) ⟨0, .rlx, .core, 0⟩),
    (word 0x0C2 0 0 0 0 (f3 0 0 0 8), .call (og 0 0 0 0) ⟨0, .rlx, .core, 8⟩),
    (word 0x0C3 0 0x101 0 0 (f3 0 0 0 0), .callx (ops (.g 0) (.latch 1) (gs 0) (gs 0)) ⟨0, .rlx, .core, 0⟩),
    (word 0x0C4 0 0 0 0 (f3 0 0 0 0), .ret (og 0 0 0 0) ⟨0, .rlx, .core, 0⟩),
    (word 0x0C5 0 6 0 0 (f3 0 0 0 9), .loop (og 0 6 0 0) ⟨0, .rlx, .core, 9⟩),
    (word 0x0C6 0 0 0 0 (f3 0 0 0 0), .lexit (og 0 0 0 0) ⟨0, .rlx, .core, 0⟩),
    (word 0x0C7 5 0 0 0 (f3 3 0 0 0), .lcnt (og 5 0 0 0) ⟨3, .rlx, .core, 0⟩),
    (word 0x0C7 0 6 0 0 (f3 7 0 0 0), .lcntSet (og 0 6 0 0) ⟨7, .rlx, .core, 0⟩),
    (word 0x0C8 0 0 0 0 (f3 0 0 0 0), .exit (og 0 0 0 0) ⟨0, .rlx, .core, 0⟩),
    (word 0x0C9 0 6 7 0 (f3 0 1 5 0), .waitAcc (og 0 6 7 0) ⟨0, .acq, .sys, 0⟩),
    (word 0x0C9 0 6 0 0 (f3 1 1 3 0), .waitDep (og 0 6 0 0) ⟨1, .acq, .pkg, 0⟩),
    (word 0x0C9 0 6 7 0 (f3 2 0 0 0), .waitNbar (og 0 6 7 0) ⟨2, .rlx, .core, 0⟩),
    (word 0x0CA 0 0 0 0 (f3 0 0 0 0), .yield (og 0 0 0 0) ⟨0, .rlx, .core, 0⟩),
    (word 0x0CB 0 0 0 0 (f3 0 0 0 0xABCDEF), .ppoint (og 0 0 0 0) ⟨0, .rlx, .core, 0xABCDEF⟩),
    (word 0x0CC 0 0 0 0 (f3 0 0 0 0), .nop (og 0 0 0 0) ⟨0, .rlx, .core, 0⟩),
    (word 0x0CD 0 0 0 0 (f3 0 0 0 0x123456), .trap (og 0 0 0 0) ⟨0, .rlx, .core, 0x123456⟩),
    (word 0x0CE 0 0 0 0 (f3 0 0 0 1), .bkpt (og 0 0 0 0) ⟨0, .rlx, .core, 1⟩)] = true := by decide +kernel

theorem test_decode_class4 : decodes [
    (word 0x100 5 6 0 0 (f4 0x13 1 5 4 0x200000), .ld (og 5 6 0 0) ⟨.bf16, .acq, .sys, .host, 0x200000⟩),
    (word 0x101 0 6 7 0 (f4 0x01 2 4 5 1), .st (og 0 6 7 0) ⟨.i8, .rel, .pod, .stacks, 1⟩),
    (word 0x101 0 6 7 8 (f4 0x0A 0 0 1 16), .stWide (og 0 6 7 8) ⟨.b64, .rlx, .core, .carrel, 16⟩),
    (word 0x102 133 6 0 0 (f4 0x16 0 0 2 32), .ldv (ops (.v 5) (gs 6) (gs 0) (gs 0)) ⟨.f6e3, .rlx, .core, .rcarrel, 32⟩),
    (word 0x103 0 6 135 0 (f4 0x11 0 0 0 0x3FFFE0), .stv (ops (.g 0) (gs 6) (vs 7) (gs 0)) ⟨.f32, .rlx, .core, .global, 0x3FFFE0⟩),
    (word 0x104 133 6 135 0 (f4 0x15 0 0 0 0), .ldx (ops (.v 5) (gs 6) (vs 7) (gs 0)) ⟨.f8e5, .rlx, .core, .global, 0⟩),
    (word 0x105 0 6 135 136 (f4 0x03 2 2 1 4), .stx (ops (.g 0) (gs 6) (vs 7) (vs 8)) ⟨.i32, .rel, .die, .carrel, 4⟩),
    (word 0x106 5 6 7 8 (f4 0x08 0 3 0 0x3F0010), .ldk (og 5 6 7 8) ⟨.n64, .rlx, .pkg, .global, 0x3F0010⟩),
    (word 0x107 0 6 0 0 (f4 0 0 2 0 64), .pfetch (og 0 6 0 0) ⟨.none, .rlx, .die, .global, 64⟩),
    (word 0x108 0 0 0 0 (f4 0 3 4 0 0), .fence (og 0 0 0 0) ⟨.none, .ar, .pod, .global, 0⟩),
    (word 0x109 0 6 0 0 (f4 0 1 1 0 0), .promo (og 0 6 0 0) ⟨.none, .acq, .quad, .global, 0⟩),
    (word 0x10A 0 6 0 0 (f4 0 0 5 0 64), .cflush (og 0 6 0 0) ⟨.none, .rlx, .sys, .global, 64⟩)] = true := by decide +kernel

theorem test_decode_class5 : decodes [
    (word 0x140 5 6 7 0 (f5 0x07 3 3 2 8 0x1FFFC), .atom (og 5 6 7 0) ⟨.n32, .ar, .pkg, .rcarrel, 8, 0x1FFFC⟩),
    (word 0x141 0 6 7 0 (f5 0x11 0 0 0 0 4), .red (og 0 6 7 0) ⟨.f32, .rlx, .core, .global, 0, 4⟩),
    (word 0x142 5 6 7 8 (f5 0x0A 1 2 5 0 8), .cas (og 5 6 7 8) ⟨.b64, .acq, .die, .stacks, 0, 8⟩),
    (word 0x143 0 6 7 8 (f5 0 2 0 1 0 8), .bari (og 0 6 7 8) ⟨.none, .rel, .core, .carrel, 0, 8⟩),
    (word 0x144 5 6 0 0 (f5 0 2 0 1 0 8), .bara (og 5 6 0 0) ⟨.none, .rel, .core, .carrel, 0, 8⟩),
    (word 0x145 0 6 7 0 (f5 0 1 1 0 0 8), .barw (og 0 6 7 0) ⟨.none, .acq, .quad, .global, 0, 8⟩),
    (word 0x146 5 6 7 0 (f5 0 0 0 0 0 0), .nbar (og 5 6 7 0) ⟨.none, .rlx, .core, .global, 0, 0⟩),
    (word 0x147 5 6 0 0 (f5 0 0 0 0 2 63), .vote (og 5 6 0 0) ⟨.none, .rlx, .core, .global, 2, 63⟩),
    (word 0x148 5 0 0 0 (f5 0 0 0 0 0 0), .elect (og 5 0 0 0) ⟨.none, .rlx, .core, .global, 0, 0⟩),
    (word 0x149 5 6 0 0 (f5 0 0 0 0 0 0), .txbeg (og 5 6 0 0) ⟨.none, .rlx, .core, .global, 0, 0⟩),
    (word 0x14A 5 0 0 0 (f5 0 0 0 0 0 0), .txend (og 5 0 0 0) ⟨.none, .rlx, .core, .global, 0, 0⟩),
    (word 0x14B 0 0 0 0 (f5 0 0 0 0 0 255), .txabt (og 0 0 0 0) ⟨.none, .rlx, .core, .global, 0, 255⟩),
    (word 0x14C 5 0 0 0 (f5 0 0 0 0 0 0), .txst (og 5 0 0 0) ⟨.none, .rlx, .core, .global, 0, 0⟩)] = true := by decide +kernel

theorem test_decode_class6 : decodes [
    (word 0x180 180 163 7 0 (f6 0x14 0x28 1 0x001000), .mma (ops (.a 4) (.reg (.t 3)) (gs 7) (gs 0)) ⟨.f8e4, .q4g32, true, 0x001000⟩),
    (word 0x180 180 6 7 0 (f6 0x12 0x12 0 0x002000), .mma (ops (.a 4) (gs 6) (gs 7) (gs 0)) ⟨.f16, .f16, false, 0x002000⟩),
    (word 0x181 0 6 7 8 (f6 0 0x2C 0 0x000014), .mfolio (og 0 6 7 8) ⟨.none, .q8g32, false, 0x14⟩),
    (word 0x182 163 6 7 0 (f6 0x21 0 0 0x000004), .mldt (ops (.t 3) (gs 6) (gs 7) (gs 0)) ⟨.f8e4bs, .none, false, 4⟩),
    (word 0x183 0 6 180 8 (f6 0x11 0 0 0x000008), .mstt (ops (.g 0) (gs 6) (.reg (.a 4)) (gs 8)) ⟨.f32, .none, false, 8⟩),
    (word 0x184 180 0 0 0 (f6 0 0 0 0), .mzero (ops (.a 4) (gs 0) (gs 0) (gs 0)) ⟨.none, .none, false, 0⟩),
    (word 0x185 0 180 7 8 (f6 0x11 0x17 0 0x000014), .mdrainSt (ops (.g 0) (.reg (.a 4)) (gs 7) (gs 8)) ⟨.f32, .f4, false, 0x14⟩),
    (word 0x185 0 180 7 8 (f6 0x11 0x13 0 0x100004), .mdrainAdd (ops (.g 0) (.reg (.a 4)) (gs 7) (gs 8)) ⟨.f32, .bf16, false, 0x100004⟩),
    (word 0x185 0 180 0 0 (f6 0x11 0x12 0 0x200000), .mdrainRoute (ops (.g 0) (.reg (.a 4)) (gs 0) (gs 0)) ⟨.f32, .f16, false, 0x200000⟩),
    (word 0x185 0 180 7 0 (f6 0x11 0x14 0 0x300000), .mdrainCat (ops (.g 0) (.reg (.a 4)) (gs 7) (gs 0)) ⟨.f32, .f8e4, false, 0x300000⟩),
    (word 0x185 0 6 0 0 (f6 0 0 0 0x400000), .mdrainFree (og 0 6 0 0) ⟨.none, .none, false, 0x400000⟩),
    (word 0x186 0 6 0 0 (f6 0 0 0 4), .mepi (og 0 6 0 0) ⟨.none, .none, false, 4⟩),
    (word 0x187 0 6 0 0 (f6 0 0 0 0), .mroute (og 0 6 0 0) ⟨.none, .none, false, 0⟩),
    (word 0x188 5 134 7 0 (f6 0 0 0 0), .mslip (ops (.g 5) (vs 6) (gs 7) (gs 0)) ⟨.none, .none, false, 0⟩),
    (word 0x189 5 6 0 0 (f6 0 0 0 0), .catq (og 5 6 0 0) ⟨.none, .none, false, 0⟩),
    (word 0x18A 5 6 0 0 (f6 0 0 0 0x300000), .catw (og 5 6 0 0) ⟨.none, .none, false, 0x300000⟩),
    (word 0x18B 0 6 7 0 (f6 0 0 0 0), .catsetDef (og 0 6 7 0) ⟨.none, .none, false, 0⟩),
    (word 0x18B 0 6 0 0 (f6 0 0 0 0x400000), .catsetPub (og 0 6 0 0) ⟨.none, .none, false, 0x400000⟩)] = true := by decide +kernel

theorem test_decode_classes7_and_8 : decodes [
    (word 0x1C0 5 134 0 0 (f3 0 0 1 0), .cqpub (ops (.g 5) (vs 6) (gs 0) (gs 0)) ⟨0, .rlx, .quad, 0⟩),
    (word 0x1C1 0 6 7 0 (f3 0 2 3 0), .depset (og 0 6 7 0) ⟨0, .rel, .pkg, 0⟩),
    (word 0x1C2 5 6 0 0 (f3 0 0 0 0), .depq (og 5 6 0 0) ⟨0, .rlx, .core, 0⟩),
    (word 0x1C3 5 134 7 136 (f3 0 0 3 0), .nvsub (ops (.g 5) (vs 6) (gs 7) (vs 8)) ⟨0, .rlx, .pkg, 0⟩),
    (word 0x1C4 133 6 7 0 (f3 0 1 5 0), .nvreapReq (ops (.v 5) (gs 6) (gs 7) (gs 0)) ⟨0, .acq, .sys, 0⟩),
    (word 0x1C4 133 6 7 0 (f3 1 1 5 0), .nvreapCard (ops (.v 5) (gs 6) (gs 7) (gs 0)) ⟨1, .acq, .sys, 0⟩),
    (word 0x1C5 5 134 7 136 (f3 0 0 3 0), .jcard (ops (.g 5) (vs 6) (gs 7) (vs 8)) ⟨0, .rlx, .pkg, 0⟩),
    (word 0x1C6 5 6 0 0 (f3 0 1 2 0), .accq (og 5 6 0 0) ⟨0, .acq, .die, 0⟩),
    (word 0x200 0 6 7 8 (f3 0x0A 3 2 0x580000), .bop (og 0 6 7 8) ⟨0x0A, .ar, .die, 0x580000⟩),
    (word 0x201 5 6 0 8 (f3 0x10 0 0 0x200000), .bred (og 5 6 0 8) ⟨0x10, .rlx, .core, 0x200000⟩),
    (word 0x202 5 6 7 8 (f3 0x03 0 0 0x100000), .bsort (og 5 6 7 8) ⟨3, .rlx, .core, 0x100000⟩),
    (word 0x203 5 6 7 8 (f3 0x13 0 0 0), .btopk (og 5 6 7 8) ⟨0x13, .rlx, .core, 0⟩),
    (word 0x204 0 6 7 0 (f3 0 0 0 0), .skdef (og 0 6 7 0) ⟨0, .rlx, .core, 0⟩),
    (word 0x205 0 6 7 0 (f3 0 2 4 0), .skdel (og 0 6 7 0) ⟨0, .rel, .pod, 0⟩),
    (word 0x206 5 6 0 0 (f3 0 0 4 7), .skstat (og 5 6 0 0) ⟨0, .rlx, .pod, 7⟩),
    (word 0x207 0 6 0 0 (f3 0 0 0 0), .skfold (og 0 6 0 0) ⟨0, .rlx, .core, 0⟩),
    (word 0x208 0 6 0 0 (f3 0 0 0 0), .skseal (og 0 6 0 0) ⟨0, .rlx, .core, 0⟩),
    (word 0x208 0 6 0 0 (f3 0 0 0 1), .sksealOpen (og 0 6 0 0) ⟨0, .rlx, .core, 1⟩),
    (word 0x20A 0 6 0 0 (f3 0 0 0 0), .skclr (og 0 6 0 0) ⟨0, .rlx, .core, 0⟩),
    (word 0x20A 0 6 0 0 (f3 0 0 0 1), .skclrFree (og 0 6 0 0) ⟨0, .rlx, .core, 1⟩),
    (word 0x209 0 6 7 0 (f3 0 0 0 0), .collate (og 0 6 7 0) ⟨0, .rlx, .core, 0⟩)] = true := by decide +kernel

theorem test_decode_classes9_to_B : decodes [
    (word 0x240 0 0 0 0 (f3 0 0 0 0), .flushp (og 0 0 0 0) ⟨0, .rlx, .core, 0⟩),
    (word 0x241 5 6 0 0 (f3 0 0 0 0), .trimq (og 5 6 0 0) ⟨0, .rlx, .core, 0⟩),
    (word 0x242 0 6 7 0 (f3 0 0 0 0), .clplan (og 0 6 7 0) ⟨0, .rlx, .core, 0⟩),
    (word 0x243 0 6 7 8 (f3 0 2 4 0), .clsend (og 0 6 7 8) ⟨0, .rel, .pod, 0⟩),
    (word 0x244 0 6 7 0 (f3 0 0 0 0), .bwset (og 0 6 7 0) ⟨0, .rlx, .core, 0⟩),
    (word 0x245 0 6 0 0 (f3 0 0 0 0), .rcpace (og 0 6 0 0) ⟨0, .rlx, .core, 0⟩),
    (word 0x280 5 134 7 136 (f3 0 0 3 0), .axpush (ops (.g 5) (vs 6) (gs 7) (vs 8)) ⟨0, .rlx, .pkg, 0⟩),
    (word 0x281 133 6 7 0 (f3 0 1 3 0), .axreap (ops (.v 5) (gs 6) (gs 7) (gs 0)) ⟨0, .acq, .pkg, 0⟩),
    (word 0x282 0 0 0 0 (f3 0 3 3 0), .axfence (og 0 0 0 0) ⟨0, .ar, .pkg, 0⟩),
    (word 0x2C0 5 0 0 0 (f3 0 0 0 0x042000), .mfs (og 5 0 0 0) ⟨0, .rlx, .core, 0x042000⟩),
    (word 0x2C1 0 6 0 0 (f3 0 0 0 0x031000), .mts (og 0 6 0 0) ⟨0, .rlx, .core, 0x031000⟩),
    (word 0x2C2 0 0 0 0 (f3 0 0 0 0), .tret (og 0 0 0 0) ⟨0, .rlx, .core, 0⟩),
    (word 0x2C3 5 6 0 0 (f3 0 0 0 0), .tlbgen (og 5 6 0 0) ⟨0, .rlx, .core, 0⟩),
    (word 0x2C4 5 0 0 0 (f3 2 0 0 0), .rdcnt (og 5 0 0 0) ⟨2, .rlx, .core, 0⟩),
    (word 0x2C5 5 0 0 0 (f3 0 0 0 0), .detm (og 5 0 0 0) ⟨0, .rlx, .core, 0⟩),
    (word 0x2C6 0 0 0 0 (f3 0 0 0 0), .halt (og 0 0 0 0) ⟨0, .rlx, .core, 0⟩),
    (word 0x2C7 0 6 186 0 (f3 0 0 0 0), .ctxsv (ops (.g 0) (gs 6) (.reg (.xv 2)) (gs 0)) ⟨0, .rlx, .core, 0⟩),
    (word 0x2C8 133 6 0 0 (f3 0 0 0 0), .ctxld (ops (.v 5) (gs 6) (gs 0) (gs 0)) ⟨0, .rlx, .core, 0⟩),
    (word 0x2C9 0 0 0 0 0, .unassignedOpcode (word 0x2C9 0 0 0 0 0))] = true := by decide +kernel

/-- Words that R67 to R69, R74, R84, R86, R87 and R170 refuse: a register number of 192, a latch number with a nonzero
bit [7:2], write-back suppress with a nonzero destination, an unused source, space 7, scope 6, rounding 5, type code
0x19, an immediate without I, bit 24 of class 0x3, slot 5, a float condition on an integer type. -/
theorem test_decode_refuses : ([
    word 0x000 192 6 7 0 (f0 3 0 0 0 0), word 0x000 5 0x104 7 0 (f0 3 0 0 0 0),
    word 0x000 5 6 7 0 (f0 3 0 0 0 0) + 2 ^ 63, word 0x000 5 6 7 8 (f0 3 0 0 0 0),
    word 0x100 5 6 0 0 (f4 4 0 0 7 0), word 0x100 5 6 0 0 (f4 4 1 6 0 0),
    word 0x040 5 6 7 0 (f1 0x11 5 0 0 0), word 0x000 5 6 7 0 (f0 0x19 0 0 0 0),
    word 0x000 5 6 0 0 (f0 3 0 0 0 1), word 0x0CC 0 0 0 0 (f3 0 0 0 0) + 2 ^ 24,
    word 0x0C0 0 0 0 0 (f3 0 0 0 5), word 0x00B 5 6 7 0 (f0 3 6 0 0 0)] : List Code).all
      (fun w => decide (decode w = .error .illegalField)) = true := by decide +kernel

/-! ### Ill-formed terms: for each check of R67 to R69, R74, R84 to R87 and of each instruction's rules, one that it refuses -/

/-- Each operand field in turn holding register `r`. -/
def spoil (r : Reg) (o : Ops) : List Ops :=
  [{ o with d := .reg r }, { o with a := .reg r }, { o with b := .reg r }, { o with c := .reg r }]

/-- Every instruction of a group accepts the fields given, and refuses them with an operand field spoilt, with the
destination write-back suppressed when `noWbs` is set (R74), and with each of the modifiers listed. -/
def smoke {M : Type} (cs : List (Ops → M → Instr)) (o : Ops) (m : M) (noWbs : Bool) (r : Reg) (bad : List M) : Bool :=
  cs.all fun c => wf (c o m) && (spoil r o).all (fun x => !wf (c x m)) && (!noWbs || !wf (c { o with d := .latchOnly } m)) &&
    bad.all fun x => !wf (c o x)

theorem test_wf_class0 :
    smoke [.iadd, .isub, .imul, .idiv] (og 5 6 7 0) ⟨.i32, 0, true, none⟩ false (.t 1)
      [⟨.b32, 0, true, none⟩, ⟨.f32, 0, true, none⟩, ⟨.i32, 1, true, none⟩, ⟨.i32, 0, true, some 1⟩] = true ∧
    smoke [.imulhi, .irem, .imin, .imax] (og 5 6 7 0) ⟨.n8, 0, false, none⟩ false (.v 1)
      [⟨.b64, 0, false, none⟩, ⟨.n8, 1, false, none⟩, ⟨.n8, 0, true, none⟩] = true ∧
    smoke [.imad] (og 5 6 7 8) ⟨.i32, 0, true, none⟩ false (.t 1) [⟨.b32, 0, true, none⟩, ⟨.i32, 1, true, none⟩] = true ∧
    smoke [.ineg, .iabs] (og 5 6 0 0) ⟨.i32, 0, true, none⟩ false (.t 1)
      [⟨.n32, 0, true, none⟩, ⟨.i32, 1, true, none⟩, ⟨.i32, 0, true, some 0⟩] = true ∧
    smoke [.icmp] (og 5 6 7 0) ⟨.i32, 5, false, none⟩ false (.t 1)
      [⟨.i32, 6, false, none⟩, ⟨.b32, 2, false, none⟩, ⟨.i32, 5, true, none⟩, ⟨.f32, 0, false, none⟩] = true ∧
    smoke [.isel, .bfi] (og 5 6 7 8) ⟨.b64, 0, false, none⟩ false (.t 1)
      [⟨.f64, 0, false, none⟩, ⟨.b64, 1, false, none⟩, ⟨.b64, 0, true, none⟩] = true ∧
    smoke [.and, .or, .xor, .andn, .shl, .shr, .sar, .rotl, .bfx, .bset, .bclr, .btst] (og 5 6 7 0) ⟨.b64, 0, false, none⟩
      false (.t 1) [⟨.none, 0, false, none⟩, ⟨.b64, 1, false, none⟩, ⟨.b64, 0, true, none⟩, ⟨.b64, 0, false, some 1⟩] = true ∧
    smoke [.not, .popc, .clz, .ctz, .brev] (og 5 6 0 0) ⟨.b64, 0, false, none⟩ false (.t 1)
      [⟨.none, 0, false, none⟩, ⟨.b64, 1, false, none⟩, ⟨.b64, 0, true, none⟩, ⟨.b64, 0, false, some 1⟩] = true ∧
    smoke [.perm] (og 5 6 7 8) ⟨.b64, 0, false, none⟩ false (.t 1) [⟨.n64, 0, false, none⟩, ⟨.b64, 0, true, none⟩] = true ∧
    smoke [.lea] (og 5 6 7 0) ⟨.n64, 7, false, none⟩ false (.t 1)
      [⟨.i64, 7, false, none⟩, ⟨.n64, 8, false, none⟩, ⟨.n64, 7, true, none⟩] = true ∧
    smoke [.mov] (og 5 6 0 0) ⟨.i8, 0, false, none⟩ false (.v 1)
      [⟨.f32, 0, false, none⟩, ⟨.i8, 1, false, none⟩, ⟨.i8, 0, true, none⟩, ⟨.i8, 0, false, some 0⟩] = true ∧
    smoke [fun o (_ : Unit) => .movi o 1] (og 5 0 0 0) () false (.v 1) [] = true ∧
    smoke [.hash] (og 5 6 7 8) ⟨.n32, 0, false, none⟩ false (.v 1)
      [⟨.i32, 0, false, none⟩, ⟨.n32, 1, false, none⟩, ⟨.n32, 0, true, none⟩, ⟨.n32, 0, false, some 0⟩] = true ∧
    smoke [.crc] (og 5 6 7 0) ⟨.n8, 2, false, none⟩ false (.v 1)
      [⟨.i8, 2, false, none⟩, ⟨.n8, 3, false, none⟩, ⟨.n8, 2, true, none⟩, ⟨.n8, 2, false, some 0⟩] = true := by decide +kernel

theorem test_wf_class1 :
    smoke [.fadd, .fsub, .fmul, .fdiv] (og 5 6 7 0) ⟨.f32, .ru, true, 0, 0⟩ false (.v 1)
      [⟨.f8e4, .ru, true, 0, 0⟩, ⟨.f32, .ru, true, 1, 0⟩, ⟨.f32, .ru, true, 0, 1⟩] = true ∧
    smoke [.ffma] (og 5 6 7 8) ⟨.f32, .ru, true, 0, 0⟩ false (.v 1) [⟨.i32, .ru, true, 0, 0⟩, ⟨.f32, .ru, true, 0, 1⟩] = true ∧
    smoke [.fmin, .fmax] (og 5 6 7 0) ⟨.f32, .rne, false, 0, 0⟩ false (.v 1)
      [⟨.f32, .rz, false, 0, 0⟩, ⟨.f32, .rne, true, 0, 0⟩, ⟨.f32, .rne, false, 1, 0⟩] = true ∧
    smoke [.fabs, .fneg, .fclass] (og 5 6 0 0) ⟨.f32, .rne, false, 0, 0⟩ false (.v 1)
      [⟨.f32, .rz, false, 0, 0⟩, ⟨.f32, .rne, true, 0, 0⟩, ⟨.f4, .rne, false, 0, 0⟩] = true ∧
    smoke [.fcmp] (og 5 6 7 0) ⟨.f32, .rne, false, 7, 0⟩ false (.v 1)
      [⟨.f32, .rne, false, 8, 0⟩, ⟨.i32, .rne, false, 0, 0⟩, ⟨.f32, .rz, false, 7, 0⟩, ⟨.f32, .rne, true, 7, 0⟩] = true ∧
    smoke [.frcp, .frsq, .fsqrt, .fexp2, .flog2, .fsin, .fcos] (og 5 6 0 0) ⟨.f64, .rs, true, 0, 0⟩ false (.v 1)
      [⟨.b64, .rs, true, 0, 0⟩, ⟨.f64, .rs, true, 1, 0⟩, ⟨.f64, .rs, true, 0, 1⟩] = true ∧
    smoke [.vadd, .vsub, .vmul, .vmin, .vmax] (ops (.v 5) (vs 6) (vs 7) (gs 0)) ⟨.i8, .rne, true, 0, 0⟩ false (.t 1)
      [⟨.b32, .rne, true, 0, 0⟩, ⟨.i8, .rz, true, 0, 0⟩, ⟨.i8, .rne, true, 1, 0⟩, ⟨.i8, .rne, true, 0, 1⟩, ⟨.i8, .rne, true, 0, 2⟩] = true ∧
    smoke [.vfma] (ops (.v 5) (vs 6) (vs 7) (vs 8)) ⟨.f32, .rz, true, 0, 0⟩ false (.g 1)
      [⟨.f8e4, .rz, true, 0, 0⟩, ⟨.f32, .rz, true, 1, 0⟩, ⟨.f32, .rz, true, 0, 1⟩] = true ∧
    smoke [.vdot] (ops (.g 5) (vs 6) (vs 7) (gs 8)) ⟨.i8, .rs, true, 0, 0⟩ false (.t 1)
      [⟨.i16, .rs, true, 0, 0⟩, ⟨.i8, .rs, true, 1, 0⟩, ⟨.i8, .rs, true, 0, 1⟩] = true ∧
    smoke [.vsum] (ops (.g 5) (vs 6) (gs 0) (gs 0)) ⟨.f8e5, .rs, true, 0, 0⟩ false (.t 1)
      [⟨.f4, .rs, true, 0, 0⟩, ⟨.f8e5, .rs, true, 1, 0⟩, ⟨.f8e5, .rs, true, 0, 1⟩] = true ∧
    smoke [.vcmp] (ops (.g 5) (vs 6) (vs 7) (gs 0)) ⟨.i32, .rne, false, 5, 0⟩ false (.t 1)
      [⟨.i32, .rne, false, 6, 0⟩, ⟨.b32, .rne, false, 2, 0⟩, ⟨.f32, .rne, false, 8, 0⟩, ⟨.f4, .rne, false, 0, 0⟩,
       ⟨.i32, .rz, false, 5, 0⟩, ⟨.i32, .rne, true, 5, 0⟩, ⟨.i32, .rne, false, 5, 2⟩] = true ∧
    smoke [.vsel] (ops (.v 5) (vs 6) (vs 7) (gs 8)) ⟨.f4, .rne, false, 0, 0⟩ false (.t 1)
      [⟨.f4bs, .rne, false, 0, 0⟩, ⟨.f4, .rz, false, 0, 0⟩, ⟨.f4, .rne, true, 0, 0⟩, ⟨.f4, .rne, false, 1, 0⟩, ⟨.f4, .rne, false, 0, 1⟩] = true ∧
    smoke [.xshf] (og 5 6 7 0) ⟨.b64, .rne, false, 0, 3⟩ false (.t 1)
      [⟨.i64, .rne, false, 0, 3⟩, ⟨.b64, .rne, false, 0, 4⟩, ⟨.b64, .rne, false, 0, 8⟩, ⟨.b64, .rne, true, 0, 3⟩] = true ∧
    smoke [.xshf] (og 5 6 0 0) ⟨.b64, .rne, false, 0, 0xFC⟩ false (.t 1) [⟨.b64, .rne, false, 0, 0x1FC⟩, ⟨.b64, .rne, false, 1, 0xFC⟩] = true ∧
    smoke [.vbcast] (ops (.v 5) (gs 6) (gs 0) (gs 0)) ⟨.f4, .rne, false, 0, 0⟩ false (.t 1)
      [⟨.q8g32, .rne, false, 0, 0⟩, ⟨.f4, .rz, false, 0, 0⟩, ⟨.f4, .rne, true, 0, 0⟩, ⟨.f4, .rne, false, 0, 1⟩] = true := by decide +kernel

theorem test_wf_class2 :
    smoke [.cvt] (og 5 6 0 0) ⟨.f32, .i8, .rs, true, 0, 0⟩ false (.t 1)
      [⟨.b32, .i8, .rs, true, 0, 0⟩, ⟨.f32, .b64, .rs, true, 0, 0⟩, ⟨.f32, .i8, .rs, true, 1, 0⟩, ⟨.f32, .i8, .rs, true, 0, 1⟩] = true ∧
    wf (.cvt (ops (.g 5) (.reg (.xv 1)) (gs 0) (gs 0)) ⟨.f32, .f8e5, .rne, false, 0, 0⟩) = false ∧
    smoke [.vcvt] (ops (.v 5) (vs 6) (gs 0) (gs 0)) ⟨.f32, .f8e4, .rne, false, 0, 3⟩ false (.t 1)
      [⟨.f32, .f8e4, .rne, false, 0, 4⟩, ⟨.f32, .f8e4, .rne, false, 0, 8⟩, ⟨.f32, .b32, .rne, false, 0, 0⟩, ⟨.f32, .f8e4, .rne, false, 2, 0⟩,
       ⟨.f32, .f32, .rne, false, 0, 1⟩] = true ∧
    smoke [.quantScale] (ops (.g 5) (vs 6) (gs 0) (gs 0)) ⟨.f4, .f32, .rne, false, 0, 0⟩ false (.t 1)
      [⟨.f16, .f32, .rne, false, 0, 0⟩, ⟨.f4, .f64, .rne, false, 0, 0⟩, ⟨.f4, .f32, .rz, false, 0, 0⟩, ⟨.f4, .f32, .rne, true, 0, 0⟩,
       ⟨.f4, .f32, .rne, false, 1, 0⟩, ⟨.f4, .f32, .rne, false, 0, 2⟩] = true ∧
    smoke [.quantCodes] (ops (.v 5) (vs 6) (gs 7) (vs 8)) ⟨.f8e4, .f32, .rs, false, 0, 7⟩ false (.t 1)
      [⟨.f8e4, .f32, .rs, false, 0, 9⟩, ⟨.f8e4, .f32, .rs, true, 0, 7⟩, ⟨.f8e4, .f32, .rs, false, 0, 6⟩, ⟨.f4x, .f32, .rs, false, 0, 1⟩] = true ∧
    smoke [.deq] (ops (.v 5) (vs 6) (gs 7) (gs 0)) ⟨.f16, .q8g32, .rz, false, 0, 1⟩ false (.t 1)
      [⟨.f16, .q8g32, .rz, false, 0, 2⟩, ⟨.f64, .q8g32, .rz, false, 0, 0⟩, ⟨.f16, .f8e4, .rz, false, 0, 0⟩, ⟨.f16, .q8g32, .rz, true, 0, 0⟩,
       ⟨.f16, .q8g32, .rz, false, 1, 0⟩] = true ∧
    smoke [.pack] (ops (.v 5) (vs 6) (vs 7) (gs 0)) ⟨.f4, .f4, .rne, false, 0, 0⟩ false (.t 1)
      [⟨.f4, .f8e4, .rne, false, 0, 0⟩, ⟨.f4bs, .f4bs, .rne, false, 0, 0⟩, ⟨.f4, .f4, .rz, false, 0, 0⟩, ⟨.f4, .f4, .rne, false, 0, 1⟩] = true ∧
    smoke [.unpack] (ops (.v 5) (vs 6) (gs 0) (gs 0)) ⟨.f4, .f4, .rne, false, 0, 1⟩ false (.t 1)
      [⟨.f4, .f8e4, .rne, false, 0, 0⟩, ⟨.f4, .f4, .rne, false, 0, 2⟩, ⟨.f4, .f4, .rne, true, 0, 0⟩] = true ∧
    smoke [.tag] (ops (.v 5) (vs 6) (gs 0) (gs 0)) ⟨.f4x, .b64, .rne, false, 7, 0⟩ false (.t 1)
      [⟨.f4, .b64, .rne, false, 7, 0⟩, ⟨.f4x, .b32, .rne, false, 7, 0⟩, ⟨.f4bs, .b64, .rne, false, 0, 0⟩, ⟨.f4x, .b64, .rne, false, 7, 1⟩] = true ∧
    wf (.tag (ops (.t 5) (.reg (.t 6)) (gs 0) (gs 0)) ⟨.f4, .b64, .rne, false, 0, 0⟩) = false ∧
    smoke [.tagq] (ops (.g 5) (vs 6) (gs 0) (gs 0)) ⟨.b64, .b64, .rne, false, 0, 0⟩ false (.xv 1)
      [⟨.b32, .b64, .rne, false, 0, 0⟩, ⟨.b64, .b32, .rne, false, 0, 0⟩, ⟨.b64, .b64, .rne, false, 1, 0⟩] = true ∧
    smoke [.xvset] (ops (.xv 5) (gs 6) (gs 0) (gs 0)) ⟨.f8e4, .b64, .rne, false, 0, 0⟩ false (.v 1)
      [⟨.f8e5, .b64, .rne, false, 0, 0⟩, ⟨.f8e4, .b32, .rne, false, 0, 0⟩, ⟨.f8e4, .b64, .rne, false, 0, 1⟩] = true := by decide +kernel

theorem test_wf_class3 :
    smoke [.bra, .call] (og 0 0 0 0) ⟨0, .rlx, .core, 4⟩ true (.g 1)
      [⟨0, .rlx, .core, 5⟩, ⟨1, .rlx, .core, 4⟩, ⟨0, .acq, .core, 4⟩, ⟨0, .rlx, .quad, 4⟩] = true ∧
    smoke [.brx, .callx] (og 0 6 0 0) ⟨0, .rlx, .core, 0⟩ true (.v 1)
      [⟨0, .rlx, .core, 8⟩, ⟨1, .rlx, .core, 0⟩] = true ∧
    smoke [.loop] (og 0 6 0 0) ⟨0, .rlx, .core, 12⟩ true (.v 1) [⟨0, .rlx, .core, 7⟩, ⟨1, .rlx, .core, 12⟩] = true ∧
    smoke [.ret, .lexit, .exit, .yield, .nop] (og 0 0 0 0) ⟨0, .rlx, .core, 0⟩ true (.g 1)
      [⟨0, .rlx, .core, 1⟩, ⟨1, .rlx, .core, 0⟩, ⟨0, .acq, .core, 0⟩, ⟨0, .rlx, .die, 0⟩] = true ∧
    smoke [.lcnt] (og 5 0 0 0) ⟨3, .rlx, .core, 0⟩ true (.v 1) [⟨4, .rlx, .core, 0⟩, ⟨3, .rlx, .core, 1⟩, ⟨3, .rel, .core, 0⟩] = true ∧
    smoke [.lcntSet] (og 0 6 0 0) ⟨7, .rlx, .core, 0⟩ true (.v 1) [⟨3, .rlx, .core, 0⟩, ⟨8, .rlx, .core, 0⟩, ⟨7, .rlx, .core, 1⟩] = true ∧
    smoke [.waitAcc] (og 0 6 7 0) ⟨0, .acq, .sys, 0⟩ true (.v 1)
      [⟨0, .rel, .sys, 0⟩, ⟨0, .rlx, .sys, 0⟩, ⟨0, .acq, .sys, 1⟩, ⟨3, .acq, .sys, 0⟩] = true ∧
    smoke [.waitDep] (og 0 6 0 0) ⟨1, .acq, .quad, 0⟩ true (.v 1) [⟨1, .ar, .quad, 0⟩, ⟨0, .acq, .quad, 0⟩] = true ∧
    wf (.waitDep (og 0 6 7 0) ⟨1, .rlx, .core, 0⟩) = false ∧
    smoke [.waitNbar] (og 0 6 7 0) ⟨2, .rlx, .core, 0⟩ true (.v 1) [⟨2, .rlx, .die, 0⟩, ⟨2, .rel, .die, 0⟩] = true ∧
    smoke [.ppoint, .trap, .bkpt] (og 0 0 0 0) ⟨0, .rlx, .core, 0xFFFFFF⟩ true (.g 1)
      [⟨1, .rlx, .core, 0⟩, ⟨0, .acq, .core, 0⟩, ⟨0, .rlx, .sys, 0⟩] = true := by decide +kernel

theorem test_wf_class4 :
    smoke [.ld] (og 5 6 0 0) ⟨.f16, .acq, .sys, .host, 2⟩ false (.v 1)
      [⟨.f8e4, .acq, .sys, .host, 2⟩, ⟨.f16, .rel, .sys, .host, 2⟩, ⟨.f16, .rlx, .sys, .host, 2⟩, ⟨.f16, .acq, .sys, .accum, 2⟩] = true ∧
    smoke [.st] (og 0 6 7 0) ⟨.f16, .rel, .sys, .stacks, 2⟩ true (.v 1)
      [⟨.f8e4, .rel, .sys, .stacks, 2⟩, ⟨.f16, .acq, .sys, .stacks, 2⟩, ⟨.f16, .rel, .sys, .folio, 2⟩] = true ∧
    smoke [.stWide] (og 0 6 7 8) ⟨.b64, .rel, .sys, .carrel, 16⟩ true (.v 1)
      [⟨.b32, .rel, .sys, .carrel, 16⟩, ⟨.f64, .rel, .sys, .carrel, 16⟩, ⟨.b64, .ar, .sys, .carrel, 16⟩] = true ∧
    wf (.stWide (og 0 6 7 0) ⟨.b64, .rlx, .core, .global, 0⟩) = false ∧
    smoke [.ldv] (ops (.v 5) (gs 6) (gs 0) (gs 0)) ⟨.f6e3, .acq, .core, .carrel, 0⟩ false (.t 1)
      [⟨.f4bs, .acq, .core, .carrel, 0⟩, ⟨.f6e3, .ar, .core, .carrel, 0⟩, ⟨.f6e3, .rlx, .quad, .carrel, 0⟩] = true ∧
    smoke [.stv] (ops (.g 0) (gs 6) (vs 7) (gs 0)) ⟨.f6e3, .rel, .core, .carrel, 0⟩ true (.t 1)
      [⟨.q4g32, .rel, .core, .carrel, 0⟩, ⟨.f6e3, .acq, .core, .carrel, 0⟩, ⟨.f6e3, .rel, .core, .folio, 0⟩] = true ∧
    smoke [.ldx] (ops (.v 5) (gs 6) (vs 7) (gs 0)) ⟨.f8e4, .acq, .core, .global, 0⟩ false (.t 1)
      [⟨.f6e3, .acq, .core, .global, 0⟩, ⟨.f8e4, .rel, .core, .global, 0⟩] = true ∧
    smoke [.stx] (ops (.g 0) (gs 6) (vs 7) (vs 8)) ⟨.f8e5, .rel, .core, .global, 0⟩ true (.t 1)
      [⟨.f4, .rel, .core, .global, 0⟩, ⟨.f8e5, .acq, .core, .global, 0⟩, ⟨.f8e5, .rel, .core, .accum, 0⟩] = true ∧
    smoke [.ldk] (og 5 6 7 8) ⟨.n64, .rlx, .pod, .global, 0⟩ false (.v 1)
      [⟨.n32, .rlx, .pod, .global, 0⟩, ⟨.n64, .acq, .pod, .global, 0⟩, ⟨.n64, .rlx, .core, .global, 0⟩, ⟨.n64, .rlx, .pod, .carrel, 0⟩] = true ∧
    wf (.ldk (ops (.g 5) (gs 6) (gs 7) (.latch 0)) ⟨.n64, .rlx, .die, .global, 0⟩) = false ∧
    smoke [.pfetch] (og 0 6 0 0) ⟨.none, .rlx, .die, .carrel, 1⟩ true (.v 1)
      [⟨.i8, .rlx, .die, .carrel, 1⟩, ⟨.none, .acq, .die, .carrel, 1⟩, ⟨.none, .rlx, .quad, .carrel, 1⟩, ⟨.none, .rlx, .die, .folio, 1⟩] = true ∧
    smoke [.fence] (og 0 0 0 0) ⟨.none, .rel, .core, .global, 0⟩ true (.g 1)
      [⟨.none, .rlx, .core, .global, 0⟩, ⟨.i8, .rel, .core, .global, 0⟩, ⟨.none, .rel, .core, .carrel, 0⟩, ⟨.none, .rel, .core, .global, 1⟩] = true ∧
    smoke [.promo] (og 0 6 0 0) ⟨.none, .acq, .core, .global, 0⟩ true (.v 1)
      [⟨.none, .ar, .core, .global, 0⟩, ⟨.none, .acq, .core, .host, 0⟩, ⟨.none, .acq, .core, .global, 4⟩] = true ∧
    smoke [.cflush] (og 0 6 0 0) ⟨.none, .rlx, .sys, .global, 0⟩ true (.v 1)
      [⟨.b32, .rlx, .sys, .global, 0⟩, ⟨.none, .rel, .sys, .global, 0⟩, ⟨.none, .rlx, .sys, .accum, 0⟩] = true := by decide +kernel

theorem test_wf_class5 :
    smoke [.atom] (og 5 6 7 0) ⟨.n32, .ar, .sys, .global, 8, 4⟩ false (.v 1)
      [⟨.i32, .ar, .sys, .global, 8, 4⟩, ⟨.n32, .ar, .sys, .global, 9, 4⟩, ⟨.n16, .ar, .sys, .global, 0, 4⟩, ⟨.f32, .ar, .sys, .global, 3, 4⟩,
       ⟨.b32, .ar, .sys, .global, 0, 4⟩, ⟨.n32, .rlx, .sys, .global, 8, 4⟩, ⟨.n32, .ar, .sys, .host, 8, 4⟩] = true ∧
    smoke [.red] (og 0 6 7 0) ⟨.f64, .rlx, .core, .stacks, 6, 8⟩ true (.v 1)
      [⟨.f64, .rlx, .core, .stacks, 7, 8⟩, ⟨.f64, .rlx, .quad, .stacks, 6, 8⟩, ⟨.f64, .rlx, .core, .folio, 6, 8⟩] = true ∧
    smoke [.cas] (og 5 6 7 8) ⟨.b64, .acq, .die, .rcarrel, 0, 8⟩ false (.v 1)
      [⟨.f64, .acq, .die, .rcarrel, 0, 8⟩, ⟨.b64, .acq, .die, .rcarrel, 1, 8⟩, ⟨.b64, .rlx, .die, .rcarrel, 0, 8⟩, ⟨.b64, .acq, .die, .host, 0, 8⟩] = true ∧
    smoke [.bari] (og 0 6 7 8) ⟨.none, .rel, .pkg, .carrel, 0, 8⟩ true (.v 1)
      [⟨.b64, .rel, .pkg, .carrel, 0, 8⟩, ⟨.none, .acq, .pkg, .carrel, 0, 8⟩, ⟨.none, .rel, .pkg, .stacks, 0, 8⟩, ⟨.none, .rel, .pkg, .carrel, 1, 8⟩] = true ∧
    smoke [.bara] (og 5 6 0 0) ⟨.none, .ar, .pkg, .global, 0, 8⟩ true (.v 1)
      [⟨.none, .rlx, .pkg, .global, 0, 8⟩, ⟨.none, .ar, .pkg, .rcarrel, 0, 8⟩] = true ∧
    smoke [.barw] (og 0 6 7 0) ⟨.none, .acq, .pkg, .global, 0, 8⟩ true (.v 1)
      [⟨.none, .rel, .pkg, .global, 0, 8⟩, ⟨.none, .acq, .pkg, .host, 0, 8⟩, ⟨.none, .acq, .pkg, .global, 2, 8⟩] = true ∧
    smoke [.nbar] (og 5 6 7 0) ⟨.none, .rlx, .core, .global, 0, 0⟩ true (.v 1)
      [⟨.none, .acq, .core, .global, 0, 0⟩, ⟨.none, .rlx, .quad, .global, 0, 0⟩, ⟨.none, .rlx, .core, .carrel, 0, 0⟩, ⟨.none, .rlx, .core, .global, 0, 1⟩] = true ∧
    smoke [.vote] (og 5 6 0 0) ⟨.none, .rlx, .core, .global, 2, 63⟩ true (.v 1)
      [⟨.none, .rlx, .core, .global, 4, 0⟩, ⟨.none, .rlx, .core, .global, 2, 64⟩, ⟨.none, .rlx, .core, .global, 3, 1⟩, ⟨.i8, .rlx, .core, .global, 0, 0⟩] = true ∧
    smoke [.elect, .txend] (og 5 0 0 0) ⟨.none, .rlx, .core, .global, 0, 0⟩ true (.v 1)
      [⟨.none, .rlx, .core, .global, 1, 0⟩, ⟨.none, .rlx, .core, .global, 0, 1⟩, ⟨.none, .rel, .core, .global, 0, 0⟩] = true ∧
    smoke [.txst] (og 5 0 0 0) ⟨.none, .rlx, .core, .global, 0, 0⟩ false (.v 1)
      [⟨.none, .rlx, .core, .global, 1, 0⟩, ⟨.none, .rlx, .core, .global, 0, 1⟩] = true ∧
    smoke [.txbeg] (og 5 6 0 0) ⟨.none, .rlx, .core, .global, 0, 0⟩ true (.v 1)
      [⟨.none, .rlx, .core, .global, 1, 0⟩, ⟨.none, .rlx, .core, .stacks, 0, 0⟩] = true ∧
    smoke [.txabt] (og 0 0 0 0) ⟨.none, .rlx, .core, .global, 0, 255⟩ true (.g 1)
      [⟨.none, .rlx, .core, .global, 0, 256⟩, ⟨.none, .rlx, .core, .global, 1, 0⟩] = true := by decide +kernel

theorem test_wf_class6 :
    smoke [.mma] (ops (.a 4) (.reg (.t 3)) (gs 7) (gs 0)) ⟨.f8e4, .q4g32, true, 0x1000⟩ true (.xv 1)
      [⟨.f16, .bf16, true, 0⟩, ⟨.f8e4, .q8g32, true, 0x1000⟩, ⟨.f8e4, .q4g32, true, 0x1001⟩, ⟨.f8e4, .q4g32, true, 0x3000⟩] = true ∧
    smoke [.mfolio] (og 0 6 7 8) ⟨.none, .f4bs, false, 0x14⟩ true (.xv 1)
      [⟨.f4, .f4bs, false, 0x14⟩, ⟨.none, .none, false, 0x14⟩, ⟨.none, .f4bs, true, 0x14⟩, ⟨.none, .f4bs, false, 0x15⟩, ⟨.none, .f4bs, false, 0x10⟩] = true ∧
    smoke [.mldt] (ops (.t 3) (gs 6) (gs 7) (gs 0)) ⟨.f16, .none, false, 8⟩ true (.xv 1)
      [⟨.q8g32, .none, false, 8⟩, ⟨.f16, .f16, false, 8⟩, ⟨.f16, .none, true, 8⟩, ⟨.f16, .none, false, 0x28⟩, ⟨.f16, .none, false, 0xC⟩] = true ∧
    smoke [.mstt] (ops (.g 0) (gs 6) (.reg (.t 3)) (gs 8)) ⟨.f16, .none, false, 0⟩ true (.xv 1)
      [⟨.none, .none, false, 0⟩, ⟨.f16, .f16, false, 0⟩, ⟨.f16, .none, false, 0x1C⟩] = true ∧
    wf (.mstt (ops (.g 0) (gs 6) (.reg (.a 3)) (gs 8)) ⟨.f16, .none, false, 0⟩) = false ∧
    smoke [.mzero] (ops (.t 3) (gs 0) (gs 0) (gs 0)) ⟨.none, .none, false, 0⟩ true (.xv 1)
      [⟨.f16, .none, false, 0⟩, ⟨.none, .f16, false, 0⟩, ⟨.none, .none, true, 0⟩, ⟨.none, .none, false, 4⟩] = true ∧
    smoke [.mdrainSt] (ops (.g 0) (.reg (.a 4)) (gs 7) (gs 8)) ⟨.f32, .f4, false, 0x14⟩ true (.xv 1)
      [⟨.f16, .f4, false, 0x14⟩, ⟨.f32, .f64, false, 0x14⟩, ⟨.f32, .f4, true, 0x14⟩, ⟨.f32, .f4, false, 0x10⟩, ⟨.f32, .f4, false, 0x500000⟩] = true ∧
    smoke [.mdrainAdd] (ops (.g 0) (.reg (.a 4)) (gs 7) (gs 8)) ⟨.f32, .f16, false, 0x100004⟩ true (.xv 1)
      [⟨.f32, .f8e4, false, 0x100004⟩, ⟨.f32, .f16, false, 0x100014⟩, ⟨.f32, .f16, false, 4⟩] = true ∧
    smoke [.mdrainRoute] (ops (.g 0) (.reg (.a 4)) (gs 0) (gs 0)) ⟨.f32, .f16, false, 0x200000⟩ true (.xv 1)
      [⟨.f32, .f4, false, 0x200000⟩, ⟨.f32, .f16, false, 0x200004⟩] = true ∧
    smoke [.mdrainCat] (ops (.g 0) (.reg (.a 4)) (gs 7) (gs 0)) ⟨.f32, .f4, false, 0x300000⟩ true (.xv 1)
      [⟨.f32, .f64, false, 0x300000⟩, ⟨.f32, .f4, false, 0x300004⟩] = true ∧
    smoke [.mdrainFree] (og 0 6 0 0) ⟨.none, .none, false, 0x400000⟩ true (.xv 1)
      [⟨.f32, .none, false, 0x400000⟩, ⟨.none, .f4, false, 0x400000⟩, ⟨.none, .none, false, 0x400004⟩] = true ∧
    smoke [.mepi, .mroute] (og 0 6 0 0) ⟨.none, .none, false, 4⟩ true (.xv 1)
      [⟨.f32, .none, false, 4⟩, ⟨.none, .none, true, 4⟩, ⟨.none, .none, false, 8⟩, ⟨.none, .none, false, 0x24⟩] = true ∧
    smoke [.mslip] (ops (.g 5) (vs 6) (gs 7) (gs 0)) ⟨.none, .none, false, 0⟩ true (.xv 1)
      [⟨.f32, .none, false, 0⟩, ⟨.none, .none, false, 1⟩] = true ∧
    smoke [.catq] (og 5 6 0 0) ⟨.none, .none, false, 0⟩ true (.xv 1) [⟨.none, .none, false, 1⟩, ⟨.none, .none, true, 0⟩] = true ∧
    smoke [.catw] (og 5 6 0 0) ⟨.none, .none, false, 0x300000⟩ true (.xv 1) [⟨.none, .none, false, 0x400000⟩, ⟨.none, .none, false, 1⟩] = true ∧
    smoke [.catsetDef] (og 0 6 7 0) ⟨.none, .none, false, 0⟩ true (.xv 1) [⟨.none, .none, false, 0x400000⟩] = true ∧
    smoke [.catsetPub] (og 0 6 0 0) ⟨.none, .none, false, 0x400000⟩ true (.xv 1) [⟨.none, .none, false, 0⟩, ⟨.none, .none, false, 0x400001⟩] = true := by decide +kernel

theorem test_wf_classes7_and_8 :
    smoke [.cqpub] (ops (.g 5) (vs 6) (gs 0) (gs 0)) ⟨0, .rlx, .quad, 0⟩ true (.t 1)
      [⟨1, .rlx, .quad, 0⟩, ⟨0, .rel, .quad, 0⟩, ⟨0, .rlx, .core, 0⟩, ⟨0, .rlx, .quad, 1⟩] = true ∧
    smoke [.depset] (og 0 6 7 0) ⟨0, .rel, .pkg, 0⟩ true (.v 1) [⟨0, .acq, .pkg, 0⟩, ⟨0, .rlx, .pkg, 0⟩, ⟨0, .rel, .pkg, 1⟩] = true ∧
    smoke [.depq] (og 5 6 0 0) ⟨0, .rlx, .core, 0⟩ true (.v 1) [⟨0, .acq, .core, 0⟩, ⟨0, .rlx, .core, 1⟩] = true ∧
    smoke [.nvsub, .jcard, .axpush] (ops (.g 5) (vs 6) (gs 7) (vs 8)) ⟨0, .rlx, .pkg, 0⟩ true (.t 1)
      [⟨1, .rlx, .pkg, 0⟩, ⟨0, .rel, .pkg, 0⟩, ⟨0, .rlx, .sys, 0⟩, ⟨0, .rlx, .pkg, 1⟩] = true ∧
    smoke [.nvreapReq] (ops (.v 5) (gs 6) (gs 7) (gs 0)) ⟨0, .acq, .sys, 0⟩ true (.t 1) [⟨0, .rlx, .sys, 0⟩, ⟨0, .acq, .pkg, 0⟩, ⟨2, .acq, .sys, 0⟩] = true ∧
    smoke [.nvreapCard] (ops (.v 5) (gs 6) (gs 7) (gs 0)) ⟨1, .acq, .sys, 0⟩ true (.t 1) [⟨3, .acq, .sys, 0⟩, ⟨1, .acq, .sys, 1⟩] = true ∧
    smoke [.accq] (og 5 6 0 0) ⟨0, .acq, .die, 0⟩ true (.v 1) [⟨0, .rel, .die, 0⟩, ⟨0, .rlx, .die, 0⟩, ⟨0, .acq, .die, 1⟩] = true ∧
    smoke [.bop] (og 0 6 7 8) ⟨0x09, .ar, .die, 0x580000⟩ true (.v 1)
      [⟨0x09, .ar, .die, 0x600000⟩, ⟨0x09, .ar, .die, 0x100000⟩, ⟨0x02, .ar, .die, 0⟩, ⟨0x09, .ar, .die, 0x500001⟩, ⟨0x09, .rlx, .die, 0x500000⟩] = true ∧
    smoke [.bred] (og 5 6 0 8) ⟨0x10, .rlx, .core, 0x200000⟩ true (.v 1) [⟨0x10, .rlx, .core, 0x280000⟩, ⟨0x14, .rlx, .core, 0⟩] = true ∧
    smoke [.bsort, .btopk] (og 5 6 7 8) ⟨0x03, .rel, .core, 0x100000⟩ true (.v 1)
      [⟨0x09, .rel, .core, 0⟩, ⟨0x03, .rel, .core, 0x200000⟩, ⟨0x03, .rel, .core, 0x080000⟩] = true ∧
    smoke [.skdef, .collate] (og 0 6 7 0) ⟨0, .rlx, .core, 0⟩ true (.v 1) [⟨0, .rel, .core, 0⟩, ⟨0, .rlx, .core, 1⟩] = true ∧
    smoke [.skdel] (og 0 6 7 0) ⟨0, .rel, .pod, 0⟩ true (.v 1) [⟨0, .acq, .pod, 0⟩, ⟨1, .rel, .pod, 0⟩] = true ∧
    smoke [.skstat] (og 5 6 0 0) ⟨0, .rlx, .die, 7⟩ true (.v 1) [⟨0, .rlx, .die, 8⟩, ⟨0, .rlx, .sys, 7⟩, ⟨0, .acq, .die, 7⟩] = true ∧
    smoke [.skfold, .skseal, .skclr] (og 0 6 0 0) ⟨0, .rlx, .core, 0⟩ true (.v 1) [⟨0, .rlx, .core, 1⟩, ⟨0, .rlx, .die, 0⟩] = true ∧
    smoke [.sksealOpen, .skclrFree] (og 0 6 0 0) ⟨0, .rlx, .core, 1⟩ true (.v 1) [⟨0, .rlx, .core, 0⟩, ⟨0, .rlx, .core, 3⟩] = true := by decide +kernel

theorem test_wf_classes9_to_B :
    smoke [.flushp, .tret, .halt] (og 0 0 0 0) ⟨0, .rlx, .core, 0⟩ true (.g 1) [⟨1, .rlx, .core, 0⟩, ⟨0, .acq, .core, 0⟩, ⟨0, .rlx, .core, 1⟩] = true ∧
    smoke [.trimq, .tlbgen] (og 5 6 0 0) ⟨0, .rlx, .core, 0⟩ true (.v 1) [⟨0, .rlx, .quad, 0⟩, ⟨0, .rlx, .core, 1⟩] = true ∧
    smoke [.clplan, .bwset] (og 0 6 7 0) ⟨0, .rlx, .core, 0⟩ true (.v 1) [⟨0, .rel, .core, 0⟩, ⟨0, .rlx, .core, 1⟩] = true ∧
    smoke [.clsend] (og 0 6 7 8) ⟨0, .rel, .sys, 0⟩ true (.v 1) [⟨0, .rlx, .core, 0⟩, ⟨0, .rel, .quad, 0⟩, ⟨0, .rel, .sys, 1⟩] = true ∧
    smoke [.rcpace] (og 0 6 0 0) ⟨0, .rlx, .core, 0⟩ true (.v 1) [⟨0, .rlx, .core, 1⟩] = true ∧
    smoke [.axreap] (ops (.v 5) (gs 6) (gs 7) (gs 0)) ⟨0, .acq, .pkg, 0⟩ true (.t 1) [⟨0, .acq, .sys, 0⟩, ⟨1, .acq, .pkg, 0⟩] = true ∧
    smoke [.axfence] (og 0 0 0 0) ⟨0, .ar, .pkg, 0⟩ true (.g 1) [⟨0, .ar, .sys, 0⟩, ⟨0, .rlx, .pkg, 0⟩] = true ∧
    smoke [.mfs] (og 5 0 0 0) ⟨0, .rlx, .core, 0x014000⟩ true (.v 1) [⟨0, .rlx, .core, 0x015000⟩, ⟨0, .rlx, .core, 0x014001⟩] = true ∧
    smoke [.mts] (og 0 6 0 0) ⟨0, .rlx, .core, 0x020000⟩ true (.v 1) [⟨0, .rlx, .core, 0x013000⟩, ⟨0, .rlx, .core, 0x043000⟩] = true ∧
    smoke [.rdcnt] (og 5 0 0 0) ⟨2, .rlx, .core, 0⟩ true (.v 1) [⟨3, .rlx, .core, 0⟩, ⟨2, .rlx, .core, 1⟩] = true ∧
    smoke [.detm] (og 5 0 0 0) ⟨0, .rlx, .core, 0⟩ true (.v 1) [⟨1, .rlx, .core, 0⟩] = true ∧
    smoke [.ctxsv] (ops (.g 0) (gs 6) (.reg (.xv 2)) (gs 0)) ⟨0, .rlx, .core, 0⟩ true (.t 1) [⟨0, .rlx, .core, 1⟩] = true ∧
    wf (.ctxsv (ops (.g 0) (gs 6) (.latch 0) (gs 0)) ⟨0, .rlx, .core, 0⟩) = false ∧
    smoke [.ctxld] (ops (.v 5) (gs 6) (gs 0) (gs 0)) ⟨0, .rlx, .core, 0⟩ true (.t 1) [⟨0, .rlx, .core, 1⟩] = true ∧
    wf (.unassignedOpcode (word 0x000 0 0 0 0 0)) = false := by decide +kernel

/-! ### Single steps -/

/-- One thread, alone in its gathering on core 0, about to issue. -/
def one : State := withGathering State.reset

/-- The state with the thread changed. -/
def thread (f : Thread → Thread) : State := modThr one 0 f

/-- The thread with general registers set. -/
def regs (xs : List (Nat × Word)) : State := thread fun t => { t with g := xs }

/-- One step that runs a word. -/
def run (s : State) (w : Code) : State :=
  match step (s.withFetchWord 96 w.toNat) with
  | .next t => t
  | _ => s

/-- A general register of the thread after one step. -/
def after (s : State) (w : Code) (n : Nat) : Word := readG (thr (run s w) 0) n

/-- The worked line of 04: `movi g2, 0x2A` and `movi g3, -1`. -/
theorem test_step_movi :
    after State.reset 0x08800102000000000000002A 2 = 0x2A ∧ after State.reset 0x088001030000000FFFFFFFFF 3 = 0xFFFFFFFFFFFFFFFF ∧
    (thr (run State.reset 0x08800102000000000000002A) 0).pc = 1 := by decide +kernel

theorem test_step_exit : (thr (run State.reset 0x320001000000000000000000) 0).exited = true := by decide +kernel

/-- R90: NOP changes nothing but the PC; the all-zero word is an ILLEGAL_FIELD (R90, R91), which stops a workgroup whose
thread has no vector (R245). -/
theorem test_step_nop_and_zero :
    (thr (run one 0x330001000000000000000000) 0).g = [] ∧ (coreOf (run one 0x330001000000000000000000) 0).retired = 1 ∧
    (wgOf (run one 0) 0).st = .stopped ∧ (wgOf (run one 0) 0).cause = 0x02 := by decide +kernel

/-- R88: an unassigned point is an ILLEGAL_OP. -/
theorem test_step_unassigned : (wgOf (run one (word 0x025 0 0 0 0 0)) 0).cause = 0x01 := by decide +kernel

/-- R172: an .i32 sum wraps, and clamps under .sat. -/
theorem test_step_iadd :
    after (regs [(6, 0x7FFFFFFF), (7, 1)]) (word 0x000 5 6 7 0 (f0 0x03 0 0 0 0)) 5 = 0x80000000 ∧
    after (regs [(6, 0x7FFFFFFF), (7, 1)]) (word 0x000 5 6 7 0 (f0 0x03 0 1 0 0)) 5 = 0x7FFFFFFF := by decide +kernel

/-- R173: a division by zero gives every bit set, a remainder by zero the dividend. -/
theorem test_step_division_by_zero :
    after (regs [(6, 13)]) (word 0x005 5 6 7 0 (f0 0x03 0 0 0 0)) 5 = 0xFFFFFFFF ∧
    after (regs [(6, 13)]) (word 0x006 5 6 7 0 (f0 0x03 0 0 0 0)) 5 = 13 := by decide +kernel

/-- R172: the source may be the destination, and g0 discards its result. -/
theorem test_step_same_register :
    after (regs [(5, 3)]) (word 0x002 5 5 5 0 (f0 0x08 0 0 0 0)) 5 = 9 ∧
    after (regs [(5, 3)]) (word 0x002 0 5 5 0 (f0 0x08 0 0 0 0)) 0 = 0 := by decide +kernel

/-- R173: an arithmetic shift at or beyond the width copies the sign. -/
theorem test_step_sar :
    after (regs [(6, 0x80), (7, 64)]) (word 0x014 5 6 7 0 (f0 0x01 0 0 0 0)) 5 = 0xFF ∧
    after (regs [(6, 0x80), (7, 64)]) (word 0x013 5 6 7 0 (f0 0x01 0 0 0 0)) 5 = 0 := by decide +kernel

/-- The example of R175: key 10 with the seed pair and L = 8 gives 35. -/
theorem test_step_hash :
    after (regs [(6, 10), (7, 0x0500000003000001), (8, 8)]) (word 0x023 5 6 7 8 (f0 0x07 0 0 0 0)) 5 = 35 := by decide +kernel

/-- The example of R108: 1 + 2^-9 to bf16 under .rs from STATE 1. -/
theorem test_step_cvt_rs :
    let s := thread fun t => { t with g := [(6, 0x3F804000)], srSeed := 1 }
    let w := word 0x080 5 6 0 0 (f2 0x13 0x11 4 0 0 0)
    after s w 5 = 0x3F81 ∧ (thr (run s w) 0).srSeed = 0x00042021 := by decide +kernel

/-- The examples of R97, with the value of xv2 being 16.0. -/
theorem test_f4x :
    (encodeNum .f4x 0x58 .rne false false 0 (decodeFloat .f32 0x41600000)).1 = 8 ∧
    (encodeNum .f4x 0x58 .rne false false 0 (decodeFloat .f32 0x41300000)).1 = 7 ∧
    (encodeNum .f4x 0x58 .rne false false 0 (decodeFloat .f32 0x80000000)).1 = 0 := by decide +kernel

/-- The word that 18 gives for `skdef global[g12], global[g13]`. -/
theorem test_decode_skdef : decode 0x810001000301A00000000000 = .ok (.skdef (og 0 12 13 0) ⟨0, .rlx, .core, 0⟩) := by decide +kernel

/-- R180: 1.0 is less than 2.0, and a quiet NaN under .lt raises INVALID and gives 0. -/
theorem test_step_fcmp :
    after (regs [(6, 0x3F800000), (7, 0x40000000)]) (word 0x048 5 6 7 0 (f1 0x11 0 0 2 0)) 5 = 1 ∧
    (thr (run (regs [(6, 0x7FC00000), (7, 0)]) (word 0x048 5 6 7 0 (f1 0x11 0 0 2 0))) 0).fstat = 4 := by decide +kernel

/-- R209: a wide store puts B at the lower address, and a narrow load extends with zeros. -/
theorem test_step_store_and_load :
    let s := run (regs [(6, 32), (7, 0x1122334455667788), (8, 0xFF)]) (word 0x101 0 6 7 8 (f4 0x0A 0 0 1 16))
    Memory.get s.mem (carrelLoc 0 48) = 0x88 ∧ Memory.get s.mem (carrelLoc 0 56) = 0xFF ∧
    after s (word 0x100 5 6 0 0 (f4 0x01 0 0 1 16)) 5 = 0x88 := by decide +kernel

/-- R205: an address that is no multiple of the size is MISALIGNED, and the vectored trap names it (R243, R244). -/
theorem test_step_misaligned :
    let t := thr (run (thread fun t => { t with g := [(6, 3)], trapVecEn := true, trapVecPc := 64 })
      (word 0x100 5 6 0 0 (f4 0x03 0 0 1 0))) 0
    t.hmode = true ∧ t.pc = 64 ∧ t.trapAddr = 3 ∧ t.trapPc = 0 := by decide +kernel

/-- The example of 03: lanes 0, 3 and 5 add 1, 10 and 100 to a doubleword that holds 7, and receive 7, 8 and 18. -/
theorem test_step_atom_lanes :
    let t (lane : Nat) (b : Word) : Thread := { loadedThread with lane := lane, g := [(6, 64), (7, b)] }
    let s : State := { modCore (setThr (setThr (setThr one 0 (t 0 1)) 3 (t 3 10)) 5 (t 5 100)) 0 fun x => { x with gath := [0, 3, 5] } with
      mem := [(carrelLoc 0 64, 7)] }
    let u := run s (word 0x140 5 6 7 0 (f5 0x04 0 0 1 0 0))
    readG (thr u 0) 5 = 7 ∧ readG (thr u 3) 5 = 8 ∧ readG (thr u 5) 5 = 18 ∧ Memory.get u.mem (carrelLoc 0 64) = 118 := by decide +kernel

/-- R191: a branch goes to a marked slot of a displaced line; here it is its own. -/
theorem test_step_bra :
    (thr (run one (word 0x0C0 0 0 0 0 (f3 0 0 0 0))) 0).pc = 0 ∧
    (thr (run (thread fun t => { t with pc := 2 }) (word 0x0C0 0 0 0 0 (f3 0 0 0 2))) 0).pc = 2 := by decide +kernel

/-- R193: a call without room below CFP traps PROTECTION. -/
theorem test_step_call_at_zero : (wgOf (run one (word 0x0C2 0 0 0 0 (f3 0 0 0 0))) 0).cause = 0x21 := by decide +kernel

/-- R231 and R108: a write of 0 to SR_SEED stores 1. -/
theorem test_step_mts_seed : (thr (run one (word 0x2C1 0 6 0 0 (f3 0 0 0 0x020000))) 0).srSeed = 1 := by decide +kernel

/-- R11: a thread whose guard is false only goes on. -/
theorem test_step_guard :
    let t := thr (run one (word 0x022 2 0 0 0 9 - 2 ^ 72)) 0
    readG t 2 = 0 ∧ t.pc = 1 := by decide +kernel

/-- R226: the second arrival of two completes the phase and both are told the phase they arrived in. -/
theorem test_step_nbar :
    let s := setThr (regs [(6, 3), (7, 2)]) 1 { loadedThread with lane := 1, g := [(6, 3), (7, 2)] }
    let u := run (modCore s 0 fun x => { x with gath := [0, 1] }) (word 0x146 5 6 7 0 (f5 0 0 0 0 0 0))
    readG (thr u 1) 5 = 0 ∧ (nbarOf (wgOf u 0) 3).phase = 1 ∧ (nbarOf (wgOf u 0) 3).arrived = 0 := by decide +kernel

/-- R461: RCPACE sets the three pacing values for a privileged thread. -/
theorem test_step_rcpace :
    let f := (run (regs [(6, 100 + 5 * 2 ^ 12 + 9 * 2 ^ 17)]) (word 0x245 0 6 0 0 (f3 0 0 0 0))).fabric
    f.pairGap = 100 ∧ f.base = 5 ∧ f.cap = 9 := by decide +kernel

/-! ### Meeting the hypotheses of the statements

Each statement of the model has here a state and operands that meet its hypotheses together, clause by clause. -/

/-- `Ready`, evaluated. -/
def isReady (s : State) : Bool :=
  decide (s.issue.member = .single) && decide (s.issue.traps = []) && decide (s.issue.waits = []) &&
  decide (unitGroup s = gathering s) && decide (gathering s ≠ []) && decide (gathering s).Nodup && (gathering s).all fun i =>
    let t := thr s i
    !t.moved && !t.exited && decide (t.wait = none) && !t.latchKeep && decide (t.pend = []) && decide (t.eccRegs = []) &&
    decide (t.eccLatches = []) && match t.nest with
      | [] => true
      | l :: _ => decide (l.stop ≠ t.pc)

theorem ready_of {s : State} (h : isReady s = true) : Ready s := by
  simp only [isReady, Bool.and_eq_true, decide_eq_true_eq, List.all_eq_true] at h
  obtain ⟨⟨⟨⟨⟨⟨a, b⟩, c⟩, g⟩, d⟩, e⟩, f⟩ := h
  refine ⟨a, ⟨b, c⟩, g, d, e, fun i hi => ?_⟩
  have := f i hi
  simp only [Bool.not_eq_true'] at this
  obtain ⟨⟨⟨⟨⟨⟨⟨k1, k2⟩, k3⟩, k4⟩, k5⟩, k6⟩, k7⟩, k8⟩ := this
  refine ⟨⟨k1, k2, k3⟩, k4, k5, ⟨k6, k7⟩, fun l rest hl => ?_⟩
  rw [hl] at k8
  simpa using k8

/-- `Readable`, evaluated. -/
def isReadable (s : State) (o : Ops) (needs : List (Src × Need)) : Bool :=
  (gathering s).all fun i => !opsBeyond (wgOf s (tidWg i)) (tidQuire i) o &&
    (!guardTrue (thr s i) o.gd || (operandTrap (thr s i) needs).isNone)

theorem readable_of {s : State} {o : Ops} {needs : List (Src × Need)} (h : isReadable s o needs = true) : Readable s o needs := by
  simp only [isReadable, List.all_eq_true, Bool.and_eq_true, Bool.not_eq_true', Bool.or_eq_true] at h
  intro i hi
  refine ⟨(h i hi).1, fun hg => ?_⟩
  rcases (h i hi).2 with h' | h'
  · simp [hg] at h'
  · simpa using h'

/-- Both at once. -/
theorem meets {s : State} {o : Ops} {needs : List (Src × Need)} (h : (isReady s && isReadable s o needs) = true) :
    Ready s ∧ Readable s o needs := by
  rw [Bool.and_eq_true] at h
  exact ⟨ready_of h.1, readable_of h.2⟩

theorem atTurns_one {s : State} {gd : Guard} {part : State → Nat → State} {P : State → Nat → Prop} (i : Nat)
    (hg : gathering s = [i]) (h : P s i) : AtTurns s gd part P := by
  intro before j after hb _
  rw [hg] at hb
  cases before with
  | nil => simp only [List.nil_append, List.cons.injEq] at hb; obtain ⟨rfl, -⟩ := hb; exact h
  | cons x xs => simp at hb

/-- The state in which an access reads or writes its cells. -/
def reached (s : State) (i : Nat) (space : Space) (ea size : Nat) (acc : Acc) : State :=
  match placeOf s (partyOf s i) space ea size acc with
  | .ok (v, p) => if p.global then (match lineAccess v (some (thr s i).core) p.pa p.range (acc == .wr) with
      | .ok u => u
      | .error _ => v) else v
  | .error _ => s

/-- The cell that an access reaches. -/
def cellOf (s : State) (i : Nat) (space : Space) (ea size : Nat) (acc : Acc) : Nat :=
  match placeOf s (partyOf s i) space ea size acc with
  | .ok (_, p) => p.loc
  | .error _ => 0

/-- `Reaches`, evaluated. -/
def isReaches (s : State) (i : Nat) (space : Space) (ea size : Nat) (acc : Acc) : Bool :=
  decide (ea % size = 0) && (txOf s i).isNone && match placeOf s (partyOf s i) space ea size acc with
    | .ok (v, p) => !p.remote && !p.window && decide (p.sketch = 0) && !lineBusy s i p (acc != .rd) && (!p.global ||
        match lineAccess v (some (thr s i).core) p.pa p.range (acc == .wr) with
        | .ok _ => true
        | .error _ => false)
    | .error _ => false

theorem reaches_of {s : State} {i : Nat} {space : Space} {ea size : Nat} {acc : Acc} (h : isReaches s i space ea size acc = true) :
    Reaches s i space ea size acc (cellOf s i space ea size acc) (reached s i space ea size acc) := by
  unfold isReaches at h
  unfold Reaches cellOf reached
  cases e : placeOf s (partyOf s i) space ea size acc with
  | error f => simp [e] at h
  | ok r =>
    obtain ⟨v, p⟩ := r
    simp only [e, Bool.and_eq_true, decide_eq_true_eq, Option.isNone_iff_eq_none, Bool.not_eq_true', Bool.or_eq_true] at h
    obtain ⟨⟨h1, h2⟩, ⟨⟨⟨h3, h4⟩, h5⟩, h6⟩, h7⟩ := h
    refine ⟨h1, h2, v, p, rfl, rfl, h3, h4, h5, h6, ?_⟩
    by_cases hg : p.global = true
    · rw [if_pos hg]
      rcases h7 with h7 | h7
      · rw [hg] at h7; cases h7
      · cases hl : lineAccess v (some (thr s i).core) p.pa p.range (acc == .wr) with
        | ok u => simp only [if_pos hg, hl]
        | error c => rw [hl] at h7; cases h7
    · rw [if_neg hg]
      simp only [if_neg hg]

/-- The first GiB of the thread's address space mapped to itself, with every permission and a sketch kind. -/
def mapped (s : State) (sketch : Nat) : State :=
  { s with tlb := [⟨0, 0, 0, 3, BitVec.ofNat 64 (0x1F + sketch * 2 ^ 11)⟩] }

/-- The state that a turn of core 0 issues in. -/
def turn (s : State) : State := { (takeTurn (tick s)).2 with cur := 0 }

/-- What the fetch of a gathering leaves and finds. -/
def fetched (u : State) : State × List Byte :=
  match gathering u with
  | [] => (u, [])
  | i :: _ => match fetchLine u i (lineOf (thr u i).pc) with
    | .ok r => r
    | .error _ => (u, [])

/-- `Fetched`, evaluated. -/
def isFetched (u : State) : Bool :=
  match gathering u with
  | [] => false
  | i :: _ => (gathering u).all (fun j => !(thr u j).moved) && match fetchLine u i (lineOf (thr u i).pc) with
    | .ok _ => true
    | .error _ => false

theorem fetched_of {u : State} (h : isFetched u = true) : Fetched u (fetched u).1 (fetched u).2 := by
  unfold isFetched at h
  unfold fetched
  cases e : gathering u with
  | nil => simp [e] at h
  | cons i rest =>
    simp only [e, Bool.and_eq_true, List.all_eq_true, Bool.not_eq_true'] at h
    refine ⟨i, rest, e, fun j hj => h.1 j (e ▸ hj), ?_⟩
    cases f : fetchLine u i (lineOf (thr u i).pc) with
    | error c => simp [f] at h
    | ok r => simp only [f]

/-- The worked line of 04 with its colophon 0xA5000041, of which slots 1 and 2 are a pair. -/
def workedLine : List Byte :=
  bytesOfWord 0x08800102000000000000002A ++ bytesOfWord 0x088001030000000FFFFFFFFF ++ bytesOfWord 0x320001000000000000000000 ++
  bytesOfWord 0x330001000000000000000000 ++ bytesOfWord 0x330001000000000000000000 ++ leBytes 4 0xA5000041

/-- The thread at a slot of that line, which core 0 holds in its instruction cache. -/
def worked (slot : Pc) : State := modCore (thread fun t => { t with pc := slot }) 0 fun x => { x with icache := [(0, workedLine)] }

/-- The same without a gathering, so that the core chooses one. -/
def unchosen : State := modCore (worked 0) 0 fun x => { x with gath := [] }

/-- What the choice of core 0 gives. -/
def chosen (s : State) : State × List Nat :=
  match choose (betweenGroups s) (betweenGroups s).cur with
  | .ready t g => (t, g)
  | _ => (s, [])

theorem chosen_of {s : State} (h : (chosen s).2 ≠ []) :
    choose (betweenGroups s) (betweenGroups s).cur = .ready (chosen s).1 (chosen s).2 := by
  unfold chosen at *
  cases e : choose (betweenGroups s) (betweenGroups s).cur <;> simp [e] at h ⊢

theorem witness_StepRunsDecoded_single :
    watchdogDue (tick (worked 0)) = none ∧ (takeTurn (tick (worked 0))).1 = .issue 0 ∧
    (∀ i ∈ gathering (turn (worked 0)), quireHeld (turn (worked 0)) i = false) ∧
    Fetched (opened (turn (worked 0))) (fetched (opened (turn (worked 0)))).1 (fetched (opened (turn (worked 0)))).2 ∧
    (fetched (opened (turn (worked 0)))).2 = workedLine ∧ slotOf (gatheringPc (turn (worked 0))) = 0 ∧ lineTrap workedLine 0 = none ∧
    pairBit workedLine 0 = false ∧
    decode (slotWord workedLine 0) = .ok (.movi (og 2 0 0 0) 0x2A) :=
  ⟨by decide +kernel, by decide +kernel, by decide +kernel, fetched_of (by decide +kernel), by decide +kernel, by decide +kernel,
   by decide +kernel, by decide +kernel, by decide +kernel⟩

theorem witness_StepRunsDecoded_pair :
    watchdogDue (tick (worked 1)) = none ∧ (takeTurn (tick (worked 1))).1 = .issue 0 ∧
    (∀ i ∈ gathering (turn (worked 1)), quireHeld (turn (worked 1)) i = false) ∧
    Fetched (opened (turn (worked 1))) (fetched (opened (turn (worked 1)))).1 (fetched (opened (turn (worked 1)))).2 ∧
    slotOf (gatheringPc (turn (worked 1))) = 1 ∧ lineTrap workedLine 1 = none ∧ pairBit workedLine 1 = true ∧
    decode (slotWord workedLine 1) = .ok (.movi (og 3 0 0 0) 0xFFFFFFFFF) ∧
    decode (slotWord workedLine 2) = .ok (.exit (og 0 0 0 0) ⟨0, .rlx, .core, 0⟩) :=
  ⟨by decide +kernel, by decide +kernel, by decide +kernel, fetched_of (by decide +kernel), by decide +kernel, by decide +kernel,
   by decide +kernel, by decide +kernel, by decide +kernel⟩

/-- The state in which core 0's chosen gathering is about to fetch. -/
def chosenTurn : State := modCore (chosen (turn unchosen)).1 0 fun x => { x with gath := (chosen (turn unchosen)).2 }

theorem witness_StepRunsDecoded_choice :
    watchdogDue (tick unchosen) = none ∧ (takeTurn (tick unchosen)).1 = .issue 0 ∧ gathering (turn unchosen) = [] ∧
    (betweenGroups (turn unchosen)).cur = 0 ∧ (coreOf (betweenGroups (turn unchosen)) 0).gated = false ∧
    choose (betweenGroups (turn unchosen)) (betweenGroups (turn unchosen)).cur = .ready (chosen (turn unchosen)).1 (chosen (turn unchosen)).2 ∧
    Fetched (opened chosenTurn) (fetched (opened chosenTurn)).1 (fetched (opened chosenTurn)).2 :=
  ⟨by decide +kernel, by decide +kernel, by decide +kernel, by decide +kernel, by decide +kernel, chosen_of (by decide +kernel),
   fetched_of (by decide +kernel)⟩

theorem witness_StepRunsDecoded_event :
    let s : State := { one with schedule := [.event (.throttle true)] }
    watchdogDue (tick s) = none ∧ takeTurn (tick s) = (.event (.throttle true), { tick s with schedule := [] }) ∧
    encode (.throttle true) = none := by
  refine ⟨by decide +kernel, rfl, rfl⟩

theorem witness_EncodeThenDecode :
    wf (.lea (og 5 6 7 0) ⟨.n64, 7, false, none⟩) = true ∧
    encode (.lea (og 5 6 7 0) ⟨.n64, 7, false, none⟩) = some (word 0x020 5 6 7 0 (f0 0x08 7 0 0 0)) := by decide +kernel

theorem witness_DecodeThenEncode :
    decode (word 0x021 133 134 0 0 (f0 0x0A 0 0 0 0)) = .ok (.mov (ops (.v 5) (vs 6) (gs 0) (gs 0)) ⟨.b64, 0, false, none⟩) ∧
    opAssigned ((word 0x2C9 0 0 0 0 0).extractLsb' 86 10).toNat = false ∧
    Instr.nop (og 0 0 0 0) ⟨0, .rlx, .core, 0⟩ ≠ .unassignedOpcode (word 0x2C9 0 0 0 0 0) := by
  refine ⟨by decide +kernel, by decide +kernel, by intro h; cases h⟩

/-- An instruction that answers a next state. -/
def answers (i : Instr) (s : State) : Bool :=
  match exec i s with
  | .next _ => true
  | _ => false

theorem answers_of {i : Instr} {s : State} (h : answers i s = true) : ∃ t, exec i s = .next t := by
  unfold answers at h
  cases e : exec i s <;> simp [e] at h
  exact ⟨_, rfl⟩

theorem witness_ComputeKeepsMemoryCanonical :
    let i : Instr := .iadd (og 5 6 7 0) ⟨.i32, 0, false, none⟩
    (∃ w, encode i = some w ∧ (w.extractLsb' 92 4).toNat < 3) ∧ (∃ t, exec i one = .next t) ∧ Memory.wf one.mem = true :=
  ⟨⟨_, rfl, by decide +kernel⟩, answers_of (by decide +kernel), by decide +kernel⟩

theorem witness_ResultsAndLatches :
    (∀ slot < 5, let s := thread fun t => { t with pc := BitVec.ofNat 56 slot }
      (isReady s && isReadable s (og 2 0 0 0) [] && answers (.movi (og 2 0 0 0) 7) s) = true ∧
      ∀ j ∈ gathering s, slotOf (thr s j).pc = slot ∧ (thr s j).core = s.cur ∧ (wgOf s (tidWg j)).st = .running) := by decide +kernel

theorem witness_NopRetires : Ready one ∧ Readable one (og 0 0 0 0) [] := meets (by decide +kernel)

theorem witness_GatheringChoice :
    (∀ i ∈ issuable (betweenGroups (turn unchosen)) 0, (wgOf (betweenGroups (turn unchosen)) (tidWg i)).det = false) ∧
    choose (betweenGroups (turn unchosen)) (betweenGroups (turn unchosen)).cur = .ready (chosen (turn unchosen)).1 (chosen (turn unchosen)).2 :=
  ⟨by decide +kernel, chosen_of (by decide +kernel)⟩

theorem witness_IntegerResults : Ready one ∧ Readable one (og 5 6 7 8) (wordNeeds (og 5 6 7 8)) := meets (by decide +kernel)
theorem witness_LogicAndShiftResults : Ready one ∧ Readable one (og 127 127 127 0) (wordNeeds (og 127 127 127 0)) := meets (by decide +kernel)
theorem witness_FieldAndBitResults : Ready one ∧ Readable one (og 0 1 2 3) (wordNeeds (og 0 1 2 3)) := meets (by decide +kernel)

theorem witness_MovesHashesAndChecks :
    (Ready one ∧ Readable one (og 5 6 7 8) (wordNeeds (og 5 6 7 8))) ∧
    (∀ o ∈ [og 5 6 0 0, ops (.v 31) (vs 30) (gs 0) (gs 0)], ∀ i ∈ gathering one,
      opsBeyond (wgOf one (tidWg i)) (tidQuire i) o = false ∧ (guardTrue (thr one i) o.gd = true →
        operandTrap (thr one i) [(o.a, if movesVector o true (thr one i) then .raw else .word)] = none)) :=
  ⟨meets (by decide +kernel), by decide +kernel⟩

theorem witness_FloatArithmeticResults : Ready one ∧ Readable one (og 5 6 7 8) (wordNeeds (og 5 6 7 8)) := meets (by decide +kernel)
theorem witness_FloatCompareAndClass : Ready one ∧ Readable one (og 5 6 7 0) (wordNeeds (og 5 6 7 0)) := meets (by decide +kernel)

/-- The thread with v1 to v3 tagged by a type. -/
def vecs (ty : Fmt) : State := thread fun t => { t with v := (List.range 3).map fun k => (k + 1, ⟨0, tagOf ty 0⟩) }

/-- Vector operands v1, v2, v3 with a vector or a general destination. -/
def ov (d : Reg) (c : Src) : Ops := ops d (vs 1) (vs 2) c

theorem witness_VectorArithmeticResults :
    (∀ ty ∈ [Fmt.f64, .f32, .f16, .bf16, .i8, .i64, .n16], (isReady (vecs ty) &&
      isReadable (vecs ty) (ov (.v 4) (gs 0)) [(vs 1, .typed ty), (vs 2, needB ty false), (gs 0, .word)] &&
      isReadable (vecs ty) (ov (.v 4) (vs 3)) [(vs 1, .typed ty), (vs 2, needB ty false), (vs 3, .typed ty)]) = true) ∧
    isReadable (vecs .f32) (ops (.v 4) (vs 1) (gs 7) (gs 0)) [(vs 1, .typed .f32), (gs 7, needB .f32 true), (gs 0, .word)] = true := by
  decide +kernel

theorem witness_VectorSums :
    ∀ ty ∈ [Fmt.f64, .f32, .f8e4, .f8e5, .i8, .n8], (isReady (vecs ty) &&
      isReadable (vecs ty) (ov (.g 4) (gs 5)) [(vs 1, .typed ty), (vs 2, .typed ty), (gs 5, .word)] &&
      isReadable (vecs ty) (ops (.g 4) (vs 1) (gs 0) (gs 0)) [(vs 1, .typed ty)]) = true := by decide +kernel

theorem witness_VectorCompareSelectShuffle :
    ∀ ty ∈ [Fmt.f32, .i8, .b64], (isReady (vecs ty) &&
      isReadable (vecs ty) (ov (.g 4) (gs 0)) [(vs 1, .typed ty), (vs 2, needB ty false)] &&
      isReadable (vecs ty) (ov (.v 4) (gs 5)) [(vs 1, .typed ty), (vs 2, .typed ty), (gs 5, .word)] &&
      isReadable (vecs ty) (ops (.v 4) (gs 5) (gs 0) (gs 0)) [(gs 5, .word)] &&
      isReadable (vecs ty) (ops (.v 4) (vs 1) (gs 5) (gs 0)) [(vs 1, .raw), (gs 5, .word)] &&
      isReadable (vecs ty) (og 4 6 5 0) [(gs 6, .word), (gs 5, .word)]) = true := by decide +kernel

theorem witness_ConversionResults :
    (isReady (vecs .f32) && isReadable (vecs .f32) (og 4 5 0 0) [(gs 5, .word)] &&
      isReadable (vecs .f32) (ops (.v 4) (vs 1) (gs 0) (gs 0)) [(vs 1, .typed .f32)] &&
      isReadable (vecs .f32) (ops (.v 4) (vs 1) (gs 5) (gs 0)) [(vs 1, .typed .f32), (gs 5, .word), (gs 0, .word)] &&
      isReadable (vecs .f32) (ops (.v 4) (vs 1) (gs 5) (gs 0)) [(vs 1, .raw), (gs 5, .word)] &&
      isReadable (vecs .f32) (ov (.v 4) (gs 0)) [(vs 1, .typed .f32), (vs 2, .typed .f32)] &&
      isReadable (vecs .f32) (ops (.g 4) (.reg (.a 7)) (gs 0) (gs 0)) [(.reg (.a 7), .either)] &&
      isReadable (vecs .f32) (ops (.xv 7) (gs 5) (gs 0) (gs 0)) [(gs 5, .word)] &&
      isReadable (vecs .f32) (ops (.v 4) (vs 1) (gs 0) (gs 0)) [(vs 1, .raw)] &&
      isReadable (vecs .f32) (ops (.t 15) (.reg (.t 15)) (gs 0) (gs 0)) [] &&
      isReadable (vecs .f32) (ops (.g 4) (.reg (.t 15)) (gs 0) (gs 0)) [(.reg (.t 15), .either)]) = true ∧
    (∀ i ∈ gathering (vecs .f32), ∀ w, tileQueued (vecs .f32) (thr (vecs .f32) i).core 15 w = false) ∧
    (∀ n, vs 1 ≠ .reg (.t n)) := ⟨by decide +kernel, by decide +kernel, by intro n h; cases h⟩

/-- A line of NOPs whose every slot is a target. -/
def openLine : List Byte :=
  let low := (List.replicate 5 (bytesOfWord 0x330001000000000000000000)).flatten ++ leBytes 3 0x1F
  low ++ [BitVec.ofNat 8 (parityOf (low ++ [0]))]

/-- The thread on that line, changed. -/
def onLine (f : Thread → Thread) : State := modCore (thread f) 0 fun x => { x with icache := [(0, openLine)] }

/-- A loop level of that line: slots 0 to 4. -/
def level (count : BitVec 32) : LoopLevel := ⟨0, 4, count⟩

theorem witness_Branches :
    (let s := onLine fun t => { t with pc := 1, nest := [level 3, ⟨64, 68, 2⟩] }
     (Ready s ∧ Readable s (og 0 0 0 0) []) ∧
      AtTurns s always (fun st i => branchPop st i (targetPc (thr s i).pc 4)) fun st i => targetClear st i (targetPc (thr s i).pc 4) = false) ∧
    (let s := onLine fun t => { t with pc := 1, g := [(6, 3)] }
     (Ready s ∧ Readable s (og 0 6 0 0) [(gs 6, .word)]) ∧
      (∀ i ∈ gathering s, srcN (thr s i) (gs 6) < 2 ^ 56 ∧ srcN (thr s i) (gs 6) % 64 ≤ 4) ∧
      AtTurns s always (fun st i => branchPop st i (BitVec.ofNat 56 (srcN (thr s i) (gs 6))))
        fun st i => targetClear st i (BitVec.ofNat 56 (srcN (thr s i) (gs 6))) = false) ∧
    (1 : Int) + ((0xFFFFFC : BitVec 24).extractLsb' 3 21).toInt ∈ Set.Ico (0 : Int) (2 ^ 50) :=
  ⟨⟨meets (by decide +kernel), atTurns_one 0 (by decide +kernel) (by decide +kernel)⟩,
   ⟨meets (by decide +kernel), by decide +kernel, atTurns_one 0 (by decide +kernel) (by decide +kernel)⟩, by decide⟩

theorem witness_CallsAndReturns :
    ([(1 : BitVec 13), 6144].all fun f => let s := onLine fun t => { t with cfp := f, nest := [level 2], g := [(6, 4)] }
     isReady s && isReadable s (og 0 0 0 0) [] && isReadable s (og 0 6 0 0) [(gs 6, .word)] &&
      decide (∀ i ∈ gathering s, srcN (thr s i) (gs 6) < 2 ^ 56 ∧ srcN (thr s i) (gs 6) % 64 ≤ 4) &&
      decide (gathering s = [0] ∧ (thr s 0).cfp ≠ 0 ∧ (thr s 0).cfp.toNat * 128 ≤ carrelBytes ∧
      logsMet s (carrelLoc (thr s 0).core ((thr s 0).cfp.toNat * 128 - 128)) 128 = [] ∧
      targetClear s 0 (targetPc (thr s 0).pc 4) = false ∧ targetClear s 0 (BitVec.ofNat 56 (srcN (thr s 0) (gs 6))) = false)) = true ∧
    (let t : Thread := { loadedThread with cfp := 6143, nest := [level 2] }
     let s : State := { onLine fun _ => t with mem := Memory.setList [] (carrelLoc 0 (6143 * 128)) (callFrame t 2) }
     (isReady s && isReadable s (og 0 0 0 0) []) = true ∧ (∀ i ∈ gathering s, (thr s i).cfp.toNat * 128 + 128 ≤ carrelBytes ∧
      poisoned s (carrelLoc (thr s i).core ((thr s i).cfp.toNat * 128)) 128 = false ∧
      readFrame (loadBytes s (carrelLoc (thr s i).core ((thr s i).cfp.toNat * 128)) 128) = some (2, [level 2]) ∧
      targetClear s i 2 = false)) ∧
    [level 1, level 2, level 3, level 4].length ≤ 4 := by decide +kernel

theorem witness_Loops :
    ([(0 : Word), 1, 0xFFFFFFFF].all fun count => let s := onLine fun t => { t with g := [(6, count)], nest := [level 1, level 2, level 3] }
     isReady s && isReadable s (og 0 6 0 0) [(gs 6, .word)] && decide
      (∀ i ∈ gathering s, nextSlot (thr s i).pc ≤ targetPc (thr s i).pc 3 ∧ (thr s i).pc ≠ targetPc (thr s i).pc 3 ∧ (thr s i).nest.length < 4)) = true ∧
    (let s := onLine fun t => { t with nest := [level 1, level 2, level 3, level 4] }
     (isReady s && isReadable s (og 0 0 0 0) [] && isReadable s (og 5 0 0 0) [] && isReadable s (og 0 6 0 0) [(gs 6, .word)]) = true ∧
      ∀ i ∈ gathering s, (thr s i).nest = level 1 :: [level 2, level 3, level 4] ∧ (thr s i).nest[(3 : BitVec 6).toNat % 4]? = some (level 4) ∧
        (thr s i).nest[(0 : BitVec 6).toNat % 4]? = some (level 1)) := by decide +kernel

/-- The workgroup changed. -/
def group (f : Workgroup → Workgroup) : State := modWg one 0 f

theorem witness_ExitYieldAndWaits :
    (isReady one && isReadable one (og 0 0 0 0) []) = true ∧ (∀ i ∈ gathering one, txOf one i = none) ∧
    (∀ i ∈ gathering one, (wgOf one (tidWg i)).preempt = false) ∧
    (let s := group fun w => { w with preempt := true }
     (isReady s && isReadable s (og 0 0 0 0) []) = true ∧ ∀ i ∈ gathering s, (wgOf s (tidWg i)).preempt = true ∧
      (wgOf s (tidWg i)).roles.getD (tidQuire i) .general = .matrix ∧ tidQuire i ∉ (wgOf s (tidWg i)).atPoint) ∧
    ([(15 : Word), 0x3FFF].all fun a => let s := regs [(6, a), (7, 64)]
     isReady s && isReadable s (og 0 6 7 0) [(gs 6, .word), (gs 7, .word)] && isReadable s (og 0 6 0 0) [(gs 6, .word), (gs 0, .word)] &&
      decide (∀ i ∈ gathering s, txOf s i = none ∧ (srcWord (thr s i) (gs 6)).toNat < 2 ^ 14) &&
      decide (∀ i ∈ gathering s, logsMet s (carrelLoc (thr s i).core ((thr s i).cqhdr.toNat * 64 + 16)) 8 = [] ∧ queuedAccess s i = false ∧
        (thr s i).cqhdr.toNat * 64 + 24 ≤ carrelBytes ∧ poisoned s (carrelLoc (thr s i).core ((thr s i).cqhdr.toNat * 64 + 16)) 8 = false)) = true ∧
    (srcWord (thr (regs [(6, 15)]) 0) (gs 6)).toNat < 16 := by decide +kernel

theorem witness_ExitYieldAndWaits_global :
    let s := mapped (regs [(6, 15), (7, 64)]) 0
    let loc (_ : Nat) := cellOf s 0 .global 80 8 .rd
    let next (_ : State) (_ : Nat) := reached s 0 .global 80 8 .rd
    (Ready s ∧ Readable s (og 0 6 7 0) [(gs 6, .word), (gs 7, .word)]) ∧ gs 7 ≠ .reg (.g 0) ∧
    AtTurns s always next fun st i => (srcWord (thr s i) (gs 7)).toNat % 64 = 0 ∧
      Reaches st i .global ((srcWord (thr s i) (gs 7)).toNat + 16) 8 .rd (loc i) (next st i) ∧ poisoned (next st i) (loc i) 8 = false ∧
      leNat (loadBytes (next st i) (loc i) 8) = 0 :=
  ⟨meets (by decide +kernel), by decide, atTurns_one 0 (by decide +kernel)
    ⟨by decide +kernel, reaches_of (by decide +kernel), by decide +kernel, by decide +kernel⟩⟩

/-- The thread of a context without PRIV, its vector enabled and its frame at the top of the carrel. -/
def vectored : State :=
  modWg (thread fun t => { t with trapVecEn := true, trapVecPc := 64, trapFrame := 3071, g := [(6, 1), (7, 1), (8, 1)], v := [(7, ⟨0, 0x11⟩)] }) 0
    fun w => { w with priv := false }

/-- The traps of a thread are delivered, evaluated. -/
def isVectored (s : State) (i : Nat) : Bool :=
  (thr s i).trapVecEn && !(thr s i).hmode && decide ((thr s i).trapFrame.toNat * 256 + 256 ≤ carrelBytes) && (txEntry s i).isNone &&
  decide (logsMet s (frameLoc (thr s i)) 256 = [])

theorem vectored_of {s : State} {i : Nat} (h : isVectored s i = true) : Vectored s i := by
  simp only [isVectored, Bool.and_eq_true, Bool.not_eq_true', decide_eq_true_eq, Option.isNone_iff_eq_none] at h
  exact ⟨h.1.1.1.1, h.1.1.1.2, h.1.1.2, h.1.2, h.2⟩

theorem witness_SoftwareAndOpcodeTraps :
    (Ready vectored ∧ Readable vectored (og 0 0 0 0) []) ∧ gathering vectored = [0] ∧ Vectored vectored 0 ∧ Memory.wf vectored.mem = true :=
  ⟨meets (by decide +kernel), by decide +kernel, vectored_of (by decide +kernel), by decide +kernel⟩

theorem witness_PrivilegedInstructionsTrap :
    Ready vectored ∧ gathering vectored = [0] ∧ Vectored vectored 0 ∧ privOf vectored 0 = false ∧ txOf vectored 0 = none ∧
    Readable vectored (og 0 6 0 0) [(gs 6, .word)] ∧ Readable vectored (og 0 0 0 0) [] ∧
    Readable vectored (og 0 6 7 0) [(gs 6, .word), (gs 7, .either)] ∧ Readable vectored (og 0 6 7 0) [(gs 6, .word), (gs 7, .word)] ∧
    (0x031000 : BitVec 24).toNat / 2 ^ 12 % 2 ^ 12 = 0x031 :=
  ⟨ready_of (by decide +kernel), by decide +kernel, vectored_of (by decide +kernel), by decide +kernel, by decide +kernel,
   readable_of (by decide +kernel), readable_of (by decide +kernel), readable_of (by decide +kernel), readable_of (by decide +kernel), by decide⟩

theorem witness_MisalignedAccessesTrap :
    Ready vectored ∧ gathering vectored = [0] ∧ Vectored vectored 0 ∧
    Readable vectored (og 5 6 7 8) [(gs 6, .word), (gs 7, .word), (gs 8, .word)] ∧
    (∀ size ∈ [2, 4, 8, 16, 32], (srcWord (thr vectored 0) (gs 6) + (0 : BitVec 22).signExtend 64).toNat % size ≠ 0) ∧
    Readable vectored (ops (.g 0) (gs 6) (vs 7) (gs 0)) [(gs 6, .word), (vs 7, .typed .f32)] :=
  ⟨ready_of (by decide +kernel), by decide +kernel, vectored_of (by decide +kernel), readable_of (by decide +kernel), by decide +kernel,
   readable_of (by decide +kernel)⟩

theorem witness_CarrelAccesses :
    txOf one 0 = none ∧ queuedAccess one 0 = false ∧ (0xBFFF8 : Nat) % 8 = 0 ∧ (0xBFFF8 : Nat) < carrelBytes ∧ (63 * 2 ^ 20 + 0xBFFF8 : Nat) % 8 = 0 ∧
    (63 * 2 ^ 20 + 0xBFFF8 : Nat) < 2 ^ 26 ∧ (63 * 2 ^ 20 + 0xBFFF8) % 2 ^ 20 < carrelBytes := by decide +kernel

/-- The thread with an address in g6, an index vector in v2, data in v3 and the first GiB mapped to itself. -/
def loads : State :=
  mapped (thread fun t => { t with g := [(6, 64), (7, 5), (8, 3)], v := [(2, ⟨0, 0x03⟩), (3, ⟨0, 0x03⟩)] }) 0

theorem witness_LoadResults :
    (Ready loads ∧ Readable loads (og 5 6 0 0) [(gs 6, .word)]) ∧
    (∀ space ∈ [Space.global, .carrel, .rcarrel, .stacks], ∀ size ∈ [4, 32],
      isReaches loads 0 space (srcWord (thr loads 0) (gs 6) + (0 : BitVec 22).signExtend 64).toNat size .rd = true ∧
      poisoned (reached loads 0 space 64 size .rd) (cellOf loads 0 space 64 size .rd) size = false) ∧
    (∀ m : M4, m.ty = .i32 → m.space = .global → m.off = 0 → AtTurns loads always
      (fun st i => resultG (reached st i .global 64 4 .rd) i 2 (.reg (.g 5)) 0)
      fun st i => Reaches st i m.space 64 4 .rd (cellOf loads 0 .global 64 4 .rd) (reached st i .global 64 4 .rd)) :=
  ⟨meets (by decide +kernel), by decide +kernel, fun m _ h _ => by
    rw [h]; exact atTurns_one 0 (by decide +kernel) (reaches_of (by decide +kernel))⟩

theorem witness_StoreResults :
    Ready loads ∧ Readable loads (og 0 6 7 8) [(gs 6, .word), (gs 7, .word), (gs 8, .word)] ∧
    Readable loads (ops (.g 0) (gs 6) (vs 3) (gs 0)) [(gs 6, .word), (vs 3, .typed .i32)] ∧
    (∀ i ∈ gathering loads, (thr loads i).posted = [] ∧ queuedAccess loads i = false) ∧
    (∀ space ∈ [Space.global, .carrel, .rcarrel, .stacks], ∀ size ∈ [1, 16, 32], isReaches loads 0 space 64 size .wr = true ∧
      logsMet (reached loads 0 space 64 size .wr) (cellOf loads 0 space 64 size .wr) size = [] ∧
      (reached loads 0 space 64 size .wr).mem = loads.mem) :=
  ⟨ready_of (by decide +kernel), readable_of (by decide +kernel), readable_of (by decide +kernel), by decide +kernel, by decide +kernel⟩

/-- The states between the elements of an LDX or STX whose indices are all 0. -/
def between (acc : Acc) (st : State) (e : Nat) : State := (List.range e).foldl (fun s _ => reached s 0 .carrel 64 4 acc) st

theorem witness_GathersScattersKeyedLoads :
    (Ready loads ∧ Readable loads (ops (.v 1) (gs 6) (vs 2) (gs 0)) [(gs 6, .word), (vs 2, .raw)]) ∧
    Readable loads (ops (.g 0) (gs 6) (vs 2) (vs 3)) [(gs 6, .word), (vs 2, .raw), (vs 3, .typed .i32)] ∧
    (∀ e < 8, ((((srcWord (thr loads 0) (gs 6) + (0 : BitVec 22).signExtend 64).toNat : Int) +
        toSigned (fmtWidth .i32) (elemAt .i32 (srcW (thr loads 0) (vs 2)) e) * 4) % 2 ^ 64).toNat = 64) ∧
    (∀ e < 8, isReaches (between .rd loads e) 0 .carrel 64 4 .rd = true ∧ between .rd loads (e + 1) = reached (between .rd loads e) 0 .carrel 64 4 .rd ∧
      poisoned (between .rd loads (e + 1)) (cellOf loads 0 .carrel 64 4 .rd) 4 = false ∧ isReaches (between .wr loads e) 0 .carrel 64 4 .wr = true ∧
      (∃ p, placeOf loads (partyOf loads 0) .carrel 64 4 .wr = .ok (loads, p)) ∧
      logsMet loads (cellOf loads 0 .carrel 64 4 .wr) 4 = []) :=
  ⟨meets (by decide +kernel), readable_of (by decide +kernel), by decide +kernel, fun e he => by
    have h : placeOf loads (partyOf loads 0) .carrel 64 4 .wr = .ok (loads, Place.plain (carrelLoc 0 64)) := rfl
    interval_cases e <;> exact ⟨by decide +kernel, by decide +kernel, by decide +kernel, by decide +kernel, ⟨_, h⟩, by decide +kernel⟩⟩

/-- A counting filter of 64 cells at physical address 0x100000, read through the identity mapping of merge range 1. -/
def filter : Region :=
  { context := 0, asid := 0, base := 0x100000, home := 0, range := 1, pages := [(0x100000, 0x100000)], kind := 1, cnt := true, l0 := 6,
    lcur := 6, km1 := 1, stv := false, stask := 0, thresh := 0, seed0 := 1, seed1 := 3, isSealed := false, csat := false, parts := [],
    image := SkState.reset, users := [] }

/-- The first GiB mapped to itself as pages of sketch kind 1 in range 1, which has the merge table, and some regions. -/
def merging (s : State) (regions : FMap Region) : State :=
  { s with tlb := [⟨0, 0, 0, 3, BitVec.ofNat 64 (0x1F + 2 ^ 11 + 2 ^ 52)⟩], coh := { s.coh with ranges := [(0, 0x80), (1, 0x84)] }, regions := regions }

/-- The thread with the address of that region in g6 and a key in g7. -/
def sketches : State := merging (regs [(6, 0x100000), (7, 5), (8, 1)]) [(1, filter)]

/-- The state and place of an address, by the translation alone. -/
def placed (s : State) (ea size : Nat) (acc : Acc) : State × Place :=
  match placeOf s (partyOf s 0) .global ea size acc with
  | .ok r => r
  | .error _ => (s, Place.plain 0)

theorem placed_of {s : State} {ea size : Nat} {acc : Acc} (h : (placed s ea size acc).2.global = true) :
    placeOf s (partyOf s 0) .global ea size acc = .ok (placed s ea size acc) := by
  unfold placed at *
  cases e : placeOf s (partyOf s 0) .global ea size acc with
  | error c => simp [e, Place.plain] at h
  | ok r => simp

theorem witness_GathersScattersKeyedLoads_keyed :
    (Ready sketches ∧ Readable sketches (og 5 6 7 8) [(gs 6, .word), (gs 7, .word)]) ∧
    (srcWord (thr sketches 0) (gs 6) + (((0 : BitVec 22).extractLsb' 0 16).signExtend 64)).toNat % 8 = 0 ∧ txOf sketches 0 = none ∧
    placeOf sketches (partyOf sketches 0) .global 0x100000 8 .rd = .ok (placed sketches 0x100000 8 .rd) ∧
    (placed sketches 0x100000 8 .rd).2.sketch ≠ 0 ∧ (placed sketches 0x100000 8 .rd).2.remote = false ∧
    regionAt (placed sketches 0x100000 8 .rd).1 (placed sketches 0x100000 8 .rd).2.pa = some (1, filter) ∧
    queryTrap (placed sketches 0x100000 8 .rd).1 filter 0 (placed sketches 0x100000 8 .rd).2.range (srcN (thr sketches 0) (gs 7)) = none :=
  ⟨meets (by decide +kernel), by decide +kernel, by decide +kernel, placed_of (by decide +kernel), by decide +kernel, by decide +kernel,
   by decide +kernel, by decide +kernel⟩

theorem witness_HintsFencesFlushes :
    (Ready loads ∧ Readable loads (og 0 6 0 0) [(gs 6, .word)]) ∧ Readable loads (og 0 0 0 0) [] ∧
    (∀ i ∈ gathering loads, txOf loads i = none ∧ (thr loads i).posted = [] ∧ queuedAccess loads i = false) ∧
    (let s := regs [(6, 0)]
     (isReady s && isReadable s (og 0 6 0 0) [(gs 6, .word)]) = true ∧ ∀ i ∈ gathering s, srcN (thr s i) (gs 6) < 256 ∧
      (thr s i).core = srcN (thr s i) (gs 6)) ∧
    placeOf loads (partyOf loads 0) .global 64 1 .flush = .ok (placed loads 64 1 .flush) :=
  ⟨meets (by decide +kernel), readable_of (by decide +kernel), by decide +kernel, by decide +kernel, placed_of (by decide +kernel)⟩

theorem witness_AtomicResults :
    (Ready loads ∧ Readable loads (og 5 6 7 8) [(gs 6, .word), (gs 7, .word), (gs 8, .word)]) ∧
    (∀ i ∈ gathering loads, txOf loads i = none ∧ (thr loads i).posted = [] ∧ queuedAccess loads i = false) ∧
    (∃ v p, placeOf loads (partyOf loads 0) .global 64 8 .wr = .ok (v, p) ∧ p.window = false ∧ p.sketch = 0 ∧ p.remote = false ∧
      lineBusy loads 0 p = false) ∧
    Reaches loads 0 .global 64 8 .wr (cellOf loads 0 .global 64 8 .wr) (reached loads 0 .global 64 8 .wr) ∧
    poisoned (reached loads 0 .global 64 8 .wr) (cellOf loads 0 .global 64 8 .wr) 8 = false ∧
    logsMet (reached loads 0 .global 64 8 .wr) (cellOf loads 0 .global 64 8 .wr) 8 = [] :=
  ⟨meets (by decide +kernel), by decide +kernel, ⟨_, _, placed_of (by decide +kernel), by decide +kernel, by decide +kernel, by decide +kernel, by decide +kernel⟩,
   reaches_of (by decide +kernel), by decide +kernel, by decide +kernel⟩

/-- A barrier object of two at carrel 64, with its arrived count. -/
def barrier (arrived : Nat) : State := { loads with mem := Memory.setList [] (carrelLoc 0 64) (leBytes 8 (3 + 2 * 2 ^ 16 + arrived * 2 ^ 32)) }

theorem witness_Barriers :
    (Ready loads ∧ Readable loads (og 5 6 7 8) [(gs 6, .word), (gs 7, .word), (gs 8, .word)]) ∧ srcN (thr loads 0) (gs 8) % 2 ^ 16 ≠ 0 ∧
    (∀ k ∈ [0, 1], (isReady (barrier k) && isReadable (barrier k) (og 5 6 0 0) [(gs 6, .word)] &&
        isReadable (barrier k) (og 0 6 7 0) [(gs 6, .word), (gs 7, .word)] && isReaches (barrier k) 0 .carrel 64 8 .wr &&
        isReaches (barrier k) 0 .carrel 64 8 .rd) = true ∧
      ((thr (barrier k) 0).posted = [] ∧ queuedAccess (barrier k) 0 = false) ∧ txOf (barrier k) 0 = none ∧
      (∀ v p, placeOf (barrier k) (partyOf (barrier k) 0) .carrel 64 8 .wr = .ok (v, p) →
        p.remote = false ∧ barBad (leNat (loadBytes v p.loc 8)) = false) ∧
      reached (barrier k) 0 .carrel 64 8 .wr = barrier k ∧ poisoned (barrier k) (cellOf (barrier k) 0 .carrel 64 8 .wr) 8 = false ∧
      logsMet (barrier k) (cellOf (barrier k) 0 .carrel 64 8 .wr) 8 = [] ∧
      leNat (loadBytes (barrier k) (cellOf (barrier k) 0 .carrel 64 8 .wr) 8) = 3 + 2 ^ 16 * 2 + 2 ^ 32 * k) ∧
    (let s := regs [(6, 15), (7, 256)]
     (isReady s && isReadable s (og 5 6 7 0) [(gs 6, .word), (gs 7, .word)]) = true ∧ txOf s 0 = none ∧ (thr s 0).posted = [] ∧ queuedAccess s 0 = false ∧
      srcN (thr s 0) (gs 6) < 16 ∧ 1 ≤ srcN (thr s 0) (gs 7) ∧ srcN (thr s 0) (gs 7) ≤ 256 ∧
      (tgetD (wgOf s (thr s 0).wg).nbars 15 ⟨0, 0, 0⟩).expected = 0) := by
  refine ⟨meets (by decide +kernel), by decide +kernel, fun k hk => ?_, by decide +kernel⟩
  have h : ∀ s, placeOf s (partyOf s 0) .carrel 64 8 .wr = .ok (s, Place.plain (carrelLoc (thr s 0).core 64)) := fun s => rfl
  simp only [List.mem_cons, List.not_mem_nil, or_false] at hk
  rcases hk with rfl | rfl <;>
    exact ⟨by decide +kernel, by decide +kernel, by decide +kernel, fun v p e => by rw [h] at e; cases e; decide +kernel,
      by decide +kernel, by decide +kernel, by decide +kernel, by decide +kernel⟩

theorem witness_Votes :
    (Ready one ∧ Readable one (og 5 6 0 0) [(gs 6, .word)]) ∧ Readable one (og 5 0 0 0) [] ∧
    (∀ j ∈ gathering one, ∀ k ∈ gathering one, tidWg j = tidWg k) :=
  ⟨meets (by decide +kernel), readable_of (by decide +kernel), by decide +kernel⟩

/-- The thread in a transaction of a depth, with its log area at 0x4000. -/
def inTx (depth : Nat) (atEnd : Bool) : State :=
  modWg (onLine fun t => { t with g := [(6, 0x4000)] }) 0 fun w =>
    { w with txs := [(0, ⟨0x4000, 0, .reg (.g 5), [⟨0, depth, [], atEnd, .latchOnly⟩], [(64, 7)], [(1, 0)], [(2, List.replicate 64 0)]⟩)] }

theorem witness_Transactions :
    (let s := regs [(6, 0x4000)]
     (isReady s && isReadable s (og 5 6 0 0) [(gs 6, .word)] && isReadable s (og 5 0 0 0) [] && isReadable s (og 0 0 0 0) []) = true ∧
      txOf s 0 = none ∧ srcN (thr s 0) (gs 6) % 1024 = 0 ∧ srcN (thr s 0) (gs 6) + 16384 ≤ carrelBytes ∧
      (wgOf s (tidWg 0)).base * 4096 ≤ srcN (thr s 0) (gs 6) ∧
      srcN (thr s 0) (gs 6) + 16384 ≤ ((wgOf s (tidWg 0)).base + (wgOf s (tidWg 0)).units) * 4096 ∧
      (∀ i ∈ gathering s, txDepth s i = 0)) ∧
    (∀ d ∈ [1, 2, 14], (isReady (inTx d false) && isReadable (inTx d false) (og 5 6 0 0) [(gs 6, .word)] &&
        isReadable (inTx d false) (og 5 0 0 0) []) = true ∧ txDepth (inTx d false) 0 = d) ∧
    (∀ i ∈ gathering (inTx 1 false), txOf (inTx 1 false) i = some ⟨0x4000, 0, .reg (.g 5), [⟨0, 1, [], false, .latchOnly⟩], [(64, 7)], [(1, 0)],
      [(2, List.replicate 64 0)]⟩) ∧
    gathering (inTx 1 false) = [0] ∧
    targetClear (txAbort (inTx 1 false) (tidWg 0) 0 4 ((0 : BitVec 17).toNat % 256) [0]) 0 (nextSlot 0) = false ∧
    begunNow one one 0 = none ∧ (begunNow one (inTx 1 false) 0).isSome = true ∧
    (let s := inTx 1 true
     Memory.wf s.mem = true ∧ ((wgOf s 0).txs.find? fun e => e.1 / 32 == 0 && commitDue s 0 e.1 e.2).isSome = true ∧
      (∀ e ∈ (wgOf s 0).txs, (∀ r ∈ e.2.reads, readBytes s (paLoc s (r.1 * 64)) 64 = r.2) ∧ (∀ r ∈ e.2.lines, lineTakes s ((txTids 0 e.1 e.2).head?.map fun i => (thr s i).core) r.1 r.2 = true) ∧
        (e.2.log.map Prod.fst).Nodup ∧ ∀ p ∈ e.2.parts, (thr s (tidOf 0 (e.1 / 32) p.lane)).nest = [])) := by decide +kernel

theorem witness_SystemRegisters :
    (Ready one ∧ Readable one (og 5 0 0 0) []) ∧ Readable one (og 0 6 0 0) [(gs 6, .word)] ∧
    (∀ i ∈ gathering one, txOf one i = none ∧ tidWg i = (thr one i).wg ∧ (wgOf one (thr one i).wg).wdog < 2 ^ 64 ∧ privOf one i = true) :=
  ⟨meets (by decide +kernel), readable_of (by decide +kernel), by decide +kernel⟩

/-- The thread in its handler, with a frame at carrel 256. -/
def handling : State :=
  let t : Thread := { loadedThread with hmode := true, trapFrame := 1 }
  { onLine fun _ => t with mem := Memory.setList [] (carrelLoc 0 256) (frameBytes { t with nest := [level 2] } 3 false) }

theorem witness_TrapReturn :
    (Ready handling ∧ Readable handling (og 0 0 0 0) []) ∧
    (∀ i ∈ gathering handling, txOf handling i = none ∧ (thr handling i).hmode = true ∧
      (thr handling i).trapFrame.toNat * 256 + 256 ≤ carrelBytes ∧ poisoned handling (frameLoc (thr handling i)) 256 = false ∧
      frameState (readBytes handling (frameLoc (thr handling i)) 256) = some (3, [level 2], List.replicate 4 Latch.reset)) ∧
    (thr handling 0).nest.length ≤ 4 :=
  ⟨meets (by decide +kernel), by decide +kernel, by decide +kernel⟩

/-- A slot that holds v1 = 9 with the tag of .i32. -/
def slotted : State := { loads with mem := Memory.setList [] (cellOf loads 0 .global 64 64 .rd) (leBytes 32 9 ++ leBytes 8 (2 ^ 16 + 3)) }

theorem witness_PrivilegedSystemInstructions :
    (let s := regs [(6, 0xFFFF)]
     (isReady s && isReadable s (og 5 6 0 0) [(gs 6, .word)] && isReadable s (og 0 0 0 0) []) = true ∧
      (∀ i ∈ gathering s, privOf s i = true ∧ txOf s i = none ∧ (thr s i).posted = [] ∧ queuedAccess s i = false ∧ srcN (thr s i) (gs 6) < 2 ^ 16) ∧
      (wgOf s (tidWg 0)).st = .running ∧ (wgOf s (tidWg 0)).preempt = false) ∧
    (let o := ops (.g 0) (gs 6) (vs 3) (gs 0)
     let u := reached loads 0 .global 64 64 .wr
     let p := (placed loads 64 64 .wr).2
     (isReady loads && isReadable loads o [(gs 6, .word), (vs 3, .either)] && isReaches loads 0 .global 64 64 .wr) = true ∧ privOf loads 0 = true ∧
      logsMet u p.loc 64 = []) ∧
    (let o := ops (.v 1) (gs 6) (gs 0) (gs 0)
     let u := reached slotted 0 .global 64 64 .rd
     let p := (placed slotted 64 64 .rd).2
     (isReady slotted && isReadable slotted o [(gs 6, .word)] && isReaches slotted 0 .global 64 64 .rd) = true ∧ privOf slotted 0 = true ∧
      poisoned u p.loc 64 = false ∧
      loadBytes u p.loc 64 = leBytes 32 9 ++ leBytes 8 (1 * 2 ^ 16 + 3) ++ List.replicate 24 0) := by
  refine ⟨by decide +kernel, by decide +kernel, by decide +kernel⟩

/-! ### The engines -/

/-- The thread with three operand values, its engine's tiles and rows tagged .f16, catalog entry 5 READY and entry 6 EMPTY, both of 64 KiB at
carrel 0, and a routing register and plan 0 for a reduction of .f16. -/
def driving (a b c : Word) : State :=
  let s := modMx (mapped (regs [(6, a), (7, b), (8, c)]) 0) 0 fun q => { q with
    ttag := [(3, 0x12)], rowTag := [(0, 0x12)], rowGood := [0, 1]
    catalog := [(5, BitVec.ofNat 64 (2 * 2 ^ 62 + 0x12 * 2 ^ 52 + 256 * 2 ^ 11)), (6, BitVec.ofNat 64 (256 * 2 ^ 11))]
    route := BitVec.ofNat 64 (2 ^ 16) :: List.replicate 7 0 }
  modColl s 0 fun x => { x with plans := [(0, ⟨0, 0, [BitVec.ofNat 64 (2 ^ 32 + 0x12 * 2 ^ 36), 0, 0x100000], [], [], [], 0, [], []⟩)] }

/-- Acceptance of an instruction, evaluated. -/
def admits (s : State) (i : Instr) : Bool :=
  let t := thr s 0
  canAccept s t.core i (readG t 6).toNat (readG t 7).toNat &&
    match checkPlan s 0 i (planOf s t.core (wgOf s 0).context i (readG t 6).toNat (readG t 7).toNat (readG t 8).toNat) with
    | .ok (_, xs) => xs.all fun q => !q.1.sour || q.2.all fun x => !x.place.remote
    | .error _ => false

theorem witness_MatrixAndCatalogInstructions_accepted :
    admits (driving 0 0 0) (.mma (ops (.a 4) (.reg (.t 3)) (gs 7) (gs 0)) ⟨.f16, .f16, false, 0⟩) = true ∧
    admits (driving 5 0 0) (.mma (ops (.a 4) (gs 6) (gs 7) (gs 0)) ⟨.f16, .f16, true, 0x2000⟩) = true ∧
    admits (driving 64 64 0) (.mfolio (og 0 6 7 8) ⟨.none, .f16, false, 0x24⟩) = true ∧
    admits (driving 64 64 0) (.mldt (ops (.t 3) (gs 6) (gs 7) (gs 0)) ⟨.f16, .none, false, 4⟩) = true ∧
    admits (driving 64 0 64) (.mstt (ops (.g 0) (gs 6) (.reg (.t 3)) (gs 8)) ⟨.f16, .none, false, 4⟩) = true ∧
    admits (driving 0 0 0) (.mzero (ops (.a 4) (gs 0) (gs 0) (gs 0)) ⟨.none, .none, false, 0⟩) = true ∧
    admits (driving 0 64 256) (.mdrainSt (ops (.g 0) (.reg (.a 4)) (gs 7) (gs 8)) ⟨.f32, .f16, false, 4⟩) = true ∧
    admits (driving 0 64 256) (.mdrainAdd (ops (.g 0) (.reg (.a 4)) (gs 7) (gs 8)) ⟨.f32, .f16, false, 0x100004⟩) = true ∧
    admits (driving 0 0 0) (.mdrainRoute (ops (.g 0) (.reg (.a 4)) (gs 0) (gs 0)) ⟨.f32, .f16, false, 0x200000⟩) = true ∧
    admits (driving 0 6 0) (.mdrainCat (ops (.g 0) (.reg (.a 4)) (gs 7) (gs 0)) ⟨.f32, .f16, false, 0x300000⟩) = true ∧
    admits (driving 5 0 0) (.mdrainFree (og 0 6 0 0) ⟨.none, .none, false, 0x400000⟩) = true ∧
    admits (driving 64 0 0) (.mepi (og 0 6 0 0) ⟨.none, .none, false, 4⟩) = true ∧
    admits (driving 64 0 0) (.mroute (og 0 6 0 0) ⟨.none, .none, false, 4⟩) = true := by decide +kernel

theorem witness_MatrixAndCatalogInstructions :
    (let s := driving 64 0 0
     (isReady s && isReadable s (og 0 6 7 8) (matrixNeeds (og 0 6 7 8))) = true ∧ (∀ j ∈ gathering s, txOf s j = none ∧ (thr s j).posted = [] ∧ queuedAccess s j = false) ∧
      epiBad (configWords s 0 .carrel 64 []).2 = false ∧ routeBad (configWords s 0 .carrel 64 []).2 = false) ∧
    (let full := modMx (driving 0 0 0) 0 fun q => { q with queue := List.replicate 16 { work := .ins (.mepi (og 0 0 0 0) ⟨.none, .none, false, 0⟩), tids := [0], a := 0, b := 0, c := 0, xv := 0, pages := [], words := [] } }
     canAccept full 0 (.mzero (ops (.a 4) (gs 0) (gs 0) (gs 0)) ⟨.none, .none, false, 0⟩) 0 0 = false) ∧
    (let s := driving 6 (BitVec.ofNat 64 (0x12 * 2 ^ 52 + 256 * 2 ^ 11)) 0
     (isReady s && isReadable s (og 0 6 7 0) (matrixNeeds (og 0 6 7 0))) = true ∧ (wgOf s (tidWg 0)).owner = true ∧ srcN (thr s 0) (gs 6) < 64 ∧
      defBad (wgOf s 0) (tgetD (coreOf s 0).mx.catalog 6 0).toNat (srcN (thr s 0) (gs 7)) = false ∧
      catState (tgetD (coreOf s 0).mx.catalog 6 0).toNat = catEmpty ∧ catLen (tgetD (coreOf s 0).mx.catalog 6 0).toNat ≠ 0) := by decide +kernel

/-- An MZERO of a4 as an engine's item, and the engine with some item at its head. -/
def zeroItem : MItem :=
  { work := .ins (.mzero (ops (.a 4) (gs 0) (gs 0) (gs 0)) ⟨.none, .none, false, 0⟩), tids := [0], a := 0, b := 0, c := 0, xv := 0, pages := [], words := [] }
def queued (x : MItem) : State := modMx (driving 0 0 0) 0 fun q => { q with queue := [x] }

/-- The engine with an instruction held by the thread, which waits for acceptance, its queue as long as given. -/
def holding (n : Nat) : State :=
  modMx (modThr (driving 0 0 0) 0 fun t => { t with wait := some matrixWait }) 0 fun q => { q with
    queue := List.replicate n zeroItem
    held := [⟨.mzero (ops (.a 4) (gs 0) (gs 0) (gs 0)) ⟨.none, .none, false, 0⟩, [0], 0, 0, 0⟩] }

/-- What the engine finds of it. -/
def attempt (s : State) : MRes := tryAccept (modMx s 0 fun q => { q with held := [] }) [0] (.mzero (ops (.a 4) (gs 0) (gs 0) (gs 0)) ⟨.none, .none, false, 0⟩) 0 0 0

theorem witness_MatrixEngineSteps :
    (∀ n ∈ [0, 16], Memory.wf (holding n).mem = true ∧ (coreOf (holding n) 0).mx.held.length = 1) ∧
    (match attempt (holding 16) with
      | .held => true
      | _ => false) = true ∧
    (match attempt (holding 0) with
      | .go u _ => decide ((thr u 0).wait = some matrixWait ∧ (thr u 0).nest = [])
      | _ => false) = true ∧ matrixWait.paired = false ∧
    (∀ x ∈ [zeroItem, { zeroItem with work := .ins (.mma (ops (.a 4) (.reg (.t 3)) (gs 7) (gs 0)) ⟨.f16, .f16, false, 0⟩) },
        { zeroItem with work := .ins (.mepi (og 0 6 0 0) ⟨.none, .none, false, 4⟩) }, { zeroItem with work := .ins (.mroute (og 0 6 0 0) ⟨.none, .none, false, 4⟩) }],
      (coreOf (queued x) 0).mx.queue = [x] ∧ portsFull (queued x) (dieOfCore 0) = false ∧ Memory.wf (queued x).mem = true) ∧
    (ttileLoc 0 (3 : BitVec 4).toNat 0, tgetD (coreOf (queued zeroItem) 0).mx.ttag (3 : BitVec 4).toNat 0) = (ttileLoc 0 3 0, 0x12#9) := by decide +kernel

/-- The five words of a ring header at a location: PUB, TAKEN, ACC, BASE, LOGN. -/
def header (m : Memory) (l pub taken acc base logn : Nat) : Memory :=
  m.setList l (leBytes 8 pub ++ leBytes 8 taken ++ leBytes 8 acc ++ leBytes 8 base ++ leBytes 8 logn)

/-- The thread with records in v1 and v3, a header address in g7, and ring headers of 16 entries: at carrel 64 its own, at global 0x2000 one. -/
def ringed : State :=
  let s := mapped (thread fun t => { t with g := [(7, 0x2000), (8, 0x8000000000000040)], v := [(1, ⟨5, 0⟩), (3, ⟨6, 0⟩)], cqhdr := 1 }) 0
  { s with mem := header (header [] 0x2000 3 1 1 0x4000 4) (carrelLoc 0 64) 17 2 2 0x1000 4 }

/-- The check of a ring by the thread passes, with a view of the header that has room for one entry. -/
def ringRoom (s : State) (space : Space) (hdr size limOff : Nat) (own : Bool) : Bool :=
  match ringCheck s 0 space hdr size limOff 1 own with
  | .ok _ p v => !publishesFar s 0 space p v size 1 && !publishing s p (fun _ => true) &&
      decide ((v.pub + 2 ^ 48 - v.lim) % 2 ^ 48 + 1 ≤ 2 ^ v.logn)
  | _ => false

theorem witness_Publishing :
    (isReady ringed && isReadable ringed (ops (.g 5) (vs 1) (gs 0) (gs 0)) [(vs 1, .raw)] &&
      isReadable ringed (ops (.g 5) (vs 1) (gs 7) (vs 3)) [(vs 1, .raw), (gs 7, .word), (vs 3, .raw)] &&
      isReadable ringed (ops (.g 5) (vs 1) (gs 8) (gs 0)) [(vs 1, .raw), (gs 8, .word)]) = true ∧
    (∀ e ∈ ringed.wgs, e.2.txs = []) ∧ (∀ j ∈ gathering ringed, (thr ringed j).posted = [] ∧ queuedAccess ringed j = false) ∧
    ringRoom ringed .carrel ((thr ringed 0).cqhdr.toNat * 64) 32 8 true = true ∧
    ringRoom ringed .global (srcN (thr ringed 0) (gs 7)) 64 16 false = true ∧ ringed.annex.st ≠ .fenced ∧
    (srcN (thr ringed 0) (gs 8)).testBit 63 = true ∧
    ringRoom ringed .rcarrel (srcN (thr ringed 0) (gs 8) % 2 ^ 63) 32 8 false = true ∧
    ((thr ringed 0).core / 64 * 64 + srcN (thr ringed 0) (gs 8) % 2 ^ 26 / 2 ^ 20) / 4 = (thr ringed 0).core / 4 ∧
    chainElsewhere ringed 0 (carrelLoc 0 64) = false := by decide +kernel

/-- A chain of global reads of words, each of which the thread reaches. -/
def chained (s : State) (addrs : List Nat) : State := addrs.foldl (fun st a => reached st 0 .global a 8 .rd) s

/-- The words of a ring of 16 entries at 0x2000 whose record of entry 1, of a size, ends in a word that holds k. -/
def reaping (size k : Nat) : State :=
  let s := mapped (regs [(6, 0x2000), (7, 1)]) 0
  { s with mem := (header [] 0x2000 2 0 1 0x4000 4).setList (0x4000 + 64 * 16 + size - 8) (leBytes 8 k) }

theorem witness_TasksAndReaping :
    (let s := regs [(6, 0x3FFF), (7, 0xFFFF)]
     (isReady s && isReadable s (og 0 6 7 0) [(gs 6, .word), (gs 7, .word)] && isReadable s (og 5 6 0 0) [(gs 6, .word)]) = true ∧
      ∀ j ∈ gathering s, txOf s j = none ∧ srcN (thr s j) (gs 6) < 2 ^ 14 ∧ srcN (thr s j) (gs 7) < 2 ^ 16 ∧ (thr s j).posted = [] ∧ queuedAccess s j = false) ∧
    (isReadable one (og 5 0 0 0) [(gs 0, .word)] && isReaches one 0 .carrel ((thr one 0).cqhdr.toNat * 64 + 16) 8 .rd) = true ∧
    (∀ size ∈ [16, 32], ∀ k ∈ [0, 1], let s := reaping size k
      let addrs := [0x2000, 0x2008, 0x2010, 0x2018, 0x2020, 0x4000 + 64 * 16 + size - 8] ++ (List.range (size / 8)).map fun e => 0x4000 + 64 * 16 + 8 * e
      (isReady s && isReadable s (ops (.v 5) (gs 6) (gs 7) (gs 0)) [(gs 6, .word), (gs 7, .word)]) = true ∧ txOf s 0 = none ∧
      (srcN (thr s 0) (gs 6) % 64 = 0 ∧ srcN (thr s 0) (gs 7) < 2 ^ 48 ∧
        (readWord s 0x2000 % 2 ^ 48 + 2 ^ 48 - srcN (thr s 0) (gs 7)) % 2 ^ 48 < 2 ^ (readWord s 0x2020 % 2 ^ 5)) ∧
      (∀ e < addrs.length, isReaches (chained s (addrs.take e)) 0 .global (addrs.getD e 0) 8 .rd = true ∧
        poisoned (chained s (addrs.take (e + 1))) (cellOf (chained s (addrs.take e)) 0 .global (addrs.getD e 0) 8 .rd) 8 = false) ∧
      readWord s (0x4000 + 64 * 16 + size - 8) % 2 ^ 48 = k) ∧
    2 ^ 47 ≤ (0 + 2 ^ 48 - 1) % 2 ^ 48 := by decide +kernel

/-- The words of a slip of one K-step past f16 with catalog entry 5 as its A and row 0 as its B, that drains into a catalog entry of engine 0;
with a wait for a task if asked. -/
def slipWords (entry : Nat) (waits : Bool) : List Word :=
  [0x12 * 2 ^ 52 + 0x12 * 2 ^ 46 + 0x11 * 2 ^ 40 + 2 ^ 36 + 3 * 2 ^ 31, 5, BitVec.ofNat 64 entry, if waits then 2 ^ 14 + 7 else 0]

def slip (entry : Nat) (waits : Bool) (st : SlipState) (step : Nat) : Slip := ⟨.carrel 0 64, 1, slipWords entry waits, 0, st, step⟩

/-- Quad 0 with slips and a chain at carrel 64, whose header has one entry to read, or more entries than slots. -/
def slipping (xs : List Slip) (past : Bool) : State :=
  let s := modQuad (driving 0 0 0) 0 fun q => { q with slips := xs, chains := [⟨.carrel 0 64, 0, [], false⟩], tasks := [(7, ⟨1, false⟩)] }
  let m := header [] (carrelLoc 0 64) (if past then 18 else 2) 1 0 0x1000 4
  { s with mem := m.setList (carrelLoc 0 0x1020) ((slipWords 6 false).flatMap fun w => leBytes 8 w.toNat) }

/-- What the drain of a slip comes to: 1 done, so that nothing of it is in flight, 2 it holds. -/
def drainAnswer (s : State) (core : Nat) (x : Slip) : Nat :=
  match drainSlip s core x with
  | .done u _ => if inFlight (dropAsks u (.slip x.ring x.k)) (.slip x.ring x.k) then 0 else 1
  | .hold => 2
  | _ => 0

/-- A kept packet at port 0 with tag 4, and the machine with it. -/
def kept (ty : BitVec 5) (owner : Owner) (resends since : Nat) : Kept :=
  ⟨{ Packet.blank with type := ty, len := 1, tag := 4 }, owner, 0, 0, resends, since⟩
def withKept (s : State) (k : Kept) : State := modPort s 0 fun x => { x with kept := [k] }

theorem witness_CallSlipsAndTasks_slips :
    (∀ past ∈ [false, true], let s := slipping [] past
      slipsAhead s (quadOf s 0) < 32 ∧ pollChains s 0 = s ∧ nextChain s 0 = some (0, ⟨.carrel 0 64, 0, [], false⟩) ∧
      Memory.wf s.mem = true ∧ overrun s (carrelLoc 0 64) = past ∧ logsMet s (carrelLoc 0 64 + 8) 8 = []) ∧
    wordsAt (slipping [] false) (carrelLoc 0 0x1020) 4 = slipWords 6 false ∧ slipBad 0 (slipWords 6 false) = false ∧
    hdrBase (slipping [] false) (carrelLoc 0 64) + 32 * slotIndex 2 4 = 0x1020 ∧
    (∀ st ∈ [SlipState.waiting, .queued], let s := slipping [slip 6 false st 0] false
      wgServed s 0 = true ∧ slipMet s (slipWords 6 false) = true ∧ engineFor (quadOf s 0) 0 (slipWords 6 false) = some 0) ∧
    slipMet (slipping [slip 6 true .waiting 0] false) (slipWords 6 true) = false := by decide +kernel

theorem witness_CallSlipsAndTasks_engine :
    slipOn (slipping [slip 6 false (.running 0) 0] false) 0 = some (slip 6 false (.running 0) 0) ∧
    (slipSteps (slipWords 6 false) = 1 ∧ slipGlobal (slipWords 6 false) = false ∧
      (match slipTile (slipping [slip 6 false (.running 0) 0] false) 0 (slip 6 false (.running 0) 0) 0 with
        | .image t _ => decide (t = slipping [slip 6 false (.running 0) 0] false)
        | _ => false) = true ∧
      rowTagBad (coreOf (slipping [] false) 0).mx 0 (slipB (slipWords 6 false)) = false ∧ hasScale (slipB (slipWords 6 false)) = false ∧
      (coreOf (slipping [] false) 0).mx.rowGood.contains 0 = true) ∧
    (∀ e ∈ [5, 6], let x := slip e false (.running 0) 1
      let s := slipping [x] false
      slipOn s 0 = some x ∧ drainAnswer s 0 x = (if e = 6 then 1 else 2) ∧ portsFull s (dieOfCore 0) = false ∧
        bit (cfgWord x.words 3) 30 = false) ∧
    (let x := slip 6 false (.drained 0 0) 1
     let s := withKept (slipping [x] false) (kept tyEngine (.slip x.ring x.k) 0 0)
     slipOn s 0 = some x ∧ inFlight s (.slip x.ring x.k) = true) := by decide +kernel

/-- Quad 0 with operations on its tasks. -/
def tasking (ms : List TaskMsg) : State := modQuad one 0 fun q => { q with msgs := ms, tasks := [(7, ⟨1, false⟩)] }

theorem witness_CallSlipsAndTasks_tasks :
    (∀ k ∈ [7, 8], (quadOf (tasking [.dec k]) 0).msgs = [.dec k]) ∧ (tgetD (quadOf (tasking []) 0).tasks 7 Task.reset).count ≠ 0 ∧
    (tgetD (quadOf (tasking []) 0).tasks 8 Task.reset).count = 0 ∧
    (let s := modThr (tasking [.set 9 3 0]) 0 fun t => { t with wait := some ⟨63, 0, 0, .latchOnly, holdDepset, false, 0, 0⟩ }
     (quadOf s 0).msgs = [.set 9 3 0] ∧
      (thr s 0).wait = some ⟨63, 0, 0, .latchOnly, holdDepset, false, 0, 0⟩ ∧ (thr s 0).nest = []) := by decide +kernel

/-- The words of an entry that copies from carrel 0xFFE0, 32 bytes before the end of a page, to carrel 0x4000, on channel 2. -/
def copyWords (len : Nat) : List Word := [0xFFE0, 0x4000, BitVec.ofNat 64 len, 1 + 8 * 1 + 2 ^ 14 * 2]

def copying (words : List Word) (st : RunState) : CopyRun := ⟨64, 0, 0, 1, words, 0, 0, st, [], false, []⟩

/-- Quad 0 with a copy ring at carrel 64 and an entry of channel 2. -/
def copies (xs : List CopyRun) (past : Bool) : State :=
  let s := modQuad (driving 0 0 0) 0 fun q => { q with rings := [⟨.carrel 0 64, 0, [], false⟩], chans := [(2, xs)] }
  let m := header [] (carrelLoc 0 64) (if past then 18 else 2) 1 0 0x1000 4
  { s with mem := m.setList (carrelLoc 0 0x1020) ((copyWords 8192).flatMap fun w => leBytes 8 w.toNat) }

theorem witness_CopyEngineSteps_rings :
    (∀ past ∈ [false, true], Memory.wf (copies [] past).mem = true ∧
      nextRing (copies [] past) (quadOf (copies [] past) 0) = some (0, ⟨.carrel 0 64, 0, [], false⟩) ∧
      overrun (copies [] past) (carrelLoc 0 64) = past) ∧
    (let s := copies [] false
     let ws := wordsAt s (carrelLoc 0 (hdrBase s (carrelLoc 0 64) + 32 * slotIndex 2 (hdrLogn s (carrelLoc 0 64)))) 4
     ws = copyWords 8192 ∧ inCarrelRegion (wgOf s 0) 64 64 = true ∧ ringInRegion (wgOf s 0) (copyView s ⟨.carrel 0 64, 0, [], false⟩) = true ∧
      copyCv ws = false ∧ takesPlace s 0 0 ws = false ∧ logsMet s (carrelLoc 0 64 + 8) 8 = []) := by decide +kernel

/-- An answer that is no error. -/
def isOk {E V : Type} (e : Except E V) : Bool :=
  match e with
  | .ok _ => true
  | .error _ => false

theorem ok_of {E V : Type} {e : Except E V} (h : isOk e = true) : ∃ v, e = .ok v := by
  cases e with
  | ok v => exact ⟨v, rfl⟩
  | error c => simp [isOk] at h

/-- A chunk that moves its bytes and leaves its entry with more to do. -/
def moves (s : State) (x : CopyRun) : Bool :=
  let plan := plainChunk x
  match chunkReads s 0 x plan.reads with
  | .error _ => false
  | .ok (s1, bs, bad) => match chunkOuts s1 x plan.writes with
    | .error _ => false
    | .ok (s2, os) => match chunkWrites s2 0 x os bs bad with
      | .error _ => false
      | .ok (_, y) => !runDone { y with chunk := x.chunk + 1, pos := x.pos + plan.len }

/-- A chunk whose read meets a fault that parks its entry. -/
def readParks (s : State) (x : CopyRun) : Bool :=
  match chunkReads s 0 x (plainChunk x).reads with
  | .error (.fault e) => parks e.1
  | _ => false

theorem witness_CopyEngineSteps_channels :
    (∀ len ∈ [0, 8192], let x := copying (copyWords len) .queued
      let s := copies [x] false
      headRun s 0 2 = some x ∧ copyChan x.words = 2 ∧ wgServed s x.wg = true ∧ copyCv x.words = false ∧
      copyFault s x.core x.wg x.words = none ∧ runDone x = (len == 0)) ∧
    copyFault (copies [] false) 0 0 [0x2000, 0x4000, 8192, 2 ^ 48] = some cIllegalField ∧
    (let x := copying (copyWords 8192) .running
     let s := copies [x] false
     headRun s 0 2 = some x ∧ accumWaits s 0 x = false ∧ portsFull s (0 / 16) = false ∧ copyXp x.words = 0 ∧ moves s x = true) ∧
    (let x := copying [2 ^ 40, 0x4000, 8192, 8 + 2 ^ 14 * 2] .running
     let s := copies [x] false
     headRun s 0 2 = some x ∧ accumWaits s 0 x = false ∧ portsFull s (0 / 16) = false ∧ copyXp x.words = 0 ∧ readParks s x = true) ∧
    (let x := copying (copyWords 8192) (.finished 0 0)
     let s := copies [x] false
     copyInFlight s 0 (x.core * 2 ^ 20 + x.hdr) x.k = false ∧ bit (ctrlOf x.words) 27 = false ∧
      (quadOf s 0).rings.find? (fun y => y.loc == .carrel x.core x.hdr && y.wg == x.wg) = some ⟨.carrel 0 64, 0, [], false⟩ ∧
      carrelLoc x.core x.hdr + 64 ≤ statusCell s x.core (carrelLoc x.core x.hdr) x.k ∧ logsMet s (carrelLoc x.core x.hdr + 16) 8 = [] ∧
      logsMet s (statusCell s x.core (carrelLoc x.core x.hdr) x.k) 4 = []) := by decide +kernel

/-- A Read of one block of 512 bytes to 0x8000, or of 8 KiB, as request 1 of pair 3, and a card that copies 16 bytes from 0x8000 to 0x9000, of
ring 4. -/
def reading (n : Nat) (st : JobState) : NvReq := ⟨3, 1, [2, 0, 0, 0x8000, BitVec.ofNat 64 n, 0, 0, 0], 9, [], st, false, []⟩
def carding (st : JobState) (input : Option (Nat × Nat × Bool)) : Card := ⟨4, 1, [0, 0x8000, 16, 0x9000, 64, 0, 0, 0], st, input⟩

/-- Die 0 with a queue pair, a card ring and what they have read in, their headers in global memory with nothing more to read. -/
def storing (rs : List NvReq) (cs : List Card) : State :=
  let s := modDie (mapped one 0) 0 fun d => { d with
    pairs := [(3, ⟨0, 1, 8, 1000, 0, ⟨.global 0 0x2000, 0, [], false⟩, []⟩)]
    cardRings := [(4, ⟨0, ⟨.global 0 0x3000, 0, [], false⟩⟩)], reqs := rs, cards := cs }
  { s with mem := header (header [] 0x2000 1 1 0 0x4000 4) 0x3000 1 1 0 0x6000 4 }

/-- The record of an ended request can be written, and neither it nor the request's data is in flight; and the record's writer finds the data in
flight. -/
def recordGoes (b s : State) (r : NvReq) (q : QueuePair) (ws : List Word) : Bool × Bool :=
  let v := storageServer s 0 q.ring
  match ringPlaceOf (modReq b 0 r fun _ => { r with st := .ending false ws }) v.asid v.priv q.ring.loc with
  | some (u, p) => (!inFlight u (reqOwner 0 r) && match putRecord u v (storageWriter 0 q.context (reqOwner 0 r)) p r.k ws with
      | some w => !inFlight w (reqOwner 0 r)
      | none => false, inFlight u (reqOwner 0 r))
  | none => (false, false)

theorem witness_StorageSteps_requests :
    (∀ n ∈ [512, 0x2000], ∀ st ∈ [JobState.waiting, .running], let s := storing [reading n st] []
      ∃ q, tget (dieOf (settleReqs s 0 3) 0).pairs 3 = some q ∧ (let v := readRequestIn (settleReqs s 0 3) 0 3 q
        ((dieOf v 0).reqs.filter fun y => y.pair == 3 && y.st == .submitted).length < q.depth ∧ storageOut v 0 = false ∧
        (dieOf v 0).reqs.find? (nvReady v 3) = some (reading n st) ∧
        isOk (spansOf v (storageParty v 0 q.context) .global .wr (nvBuf (reading n st).words) (nvLen (reading n st).words)) = true)) ∧
    (let r := reading 512 .submitted
     let s := storing [r] []
     let far := withKept s (kept tyEngine (reqOwner 0 r) 0 0)
     let ws := reqRecord r.k 0 0 0 0
     ∃ q, tget (dieOf s 0).pairs r.pair = some q ∧ (dieOf s 0).reqs.find? (fun y => y.st == .submitted && y.cid == 9) = some r ∧
      bit (cfgWord r.words 0) 39 = false ∧ (recordGoes s s r q ws).1 = true ∧ (recordGoes far far r q ws).2 = true ∧
      (recordGoes (drawFree s).2 s r q (reqRecord r.k 2 0 ((drawFree s).1.toNat / 2 ^ 32) (drawFree s).1.toNat)).1 = true) :=
  ⟨by
    intro n hn st hs
    refine ⟨⟨0, 1, 8, 1000, 0, ⟨.global 0 0x2000, 0, [], false⟩, []⟩, ?_⟩
    simp only [List.mem_cons, List.not_mem_nil, or_false] at hn hs
    rcases hn with rfl | rfl <;> rcases hs with rfl | rfl <;> decide +kernel,
   ⟨0, 1, 8, 1000, 0, ⟨.global 0 0x2000, 0, [], false⟩, []⟩, rfl, by decide +kernel, by decide +kernel, by decide +kernel, by decide +kernel, by decide +kernel⟩

theorem witness_StorageSteps_cards :
    (let c := carding .waiting (some (0x8000, 16, true))
     ∃ q, tget (dieOf (storing [] [c]) 0).cardRings 4 = some q ∧
      (dieOf (readCardIn (storing [] [c]) 0 4 q) 0).cards.find? (cardReady (readCardIn (storing [] [c]) 0 4 q) 4) = some c) ∧
    (∀ good ∈ [true, false], let c := carding .running (some (0x8000, 16, good))
      let v := settleCards (storing [] [c]) 0 4
      ((tget (dieOf v 0).cardRings 4).isSome = true ∧ (dieOf v 0).cards.find? (cardEnds 4) = some c ∧ portsFull v 0 = false)) ∧
    (let c := carding .running (some (0x8000, 16, true))
     match runCard (settleCards (storing [] [c]) 0 4) 0 0 c 0x8000 16 with
      | .done _ r _ => decide (r.status = stDone)
      | _ => false) = true ∧
    cardJob (carding .running none).words = 0 :=
  ⟨⟨⟨0, ⟨.global 0 0x3000, 0, [], false⟩⟩, by decide +kernel⟩, by decide +kernel, by decide +kernel, by decide +kernel⟩

/-- A row of words that a bank instruction takes: aligned, in one bank of the stacks, in no reserved bank, free of poison. -/
def rowTaken (s : State) (off count : Nat) : Bool :=
  decide (off % 4 = 0) && decide (off % 0x200000 + count * 4 ≤ 0x200000) && decide (off + count * 4 ≤ 0x60000000) &&
  !reservedCells s (stacksLoc ((thr s 0).core / 64) off) (count * 4) && !poisoned s (stacksLoc ((thr s 0).core / 64) off) (count * 4)

/-- The thread with rows at 64 and at the end of bank 0 and counts n and k. -/
def banked (n k : Nat) : State := regs [(6, 64), (7, BitVec.ofNat 64 (0x200000 - 4 * n)), (8, BitVec.ofNat 64 (n + k * 2 ^ 32))]

theorem witness_BankInstructions :
    ∀ nk ∈ [(1, 0), (1, 1), (65536, 0), (65536, 65536)], let s := banked nk.1 nk.2
      (isReady s && isReadable s (og 5 6 7 8) [(gs 6, .word), (gs 7, .word), (gs 8, .word)]) = true ∧ txOf s 0 = none ∧
      releases .rlx = false ∧ (thr s 0).posted = [] ∧ queuedAccess s 0 = false ∧ srcN (thr s 0) (gs 8) % 2 ^ 32 = nk.1 ∧ srcN (thr s 0) (gs 8) / 2 ^ 32 = nk.2 ∧
      fmtWidth .i32 = 32 ∧ rowTaken s (srcN (thr s 0) (gs 7)) nk.1 = true ∧ rowTaken s (srcN (thr s 0) (gs 6)) (min nk.1 4096) = true := by
  decide +kernel

/-- The first GiB mapped to sketch pages of kind 1 in merge range 1, the second to plain memory, a filter's descriptor at 0x40000100 and one pool
bank on each die; the thread with a region's address in g6 and another address in g7. -/
def defining (a b : Word) : State :=
  let s := regs [(6, a), (7, b)]
  { s with
    tlb := [⟨0, 0, 0, 3, BitVec.ofNat 64 (0x1F + 2 ^ 11 + 2 ^ 52)⟩, ⟨0, 0, 2 ^ 30, 3, 0x4000001F⟩]
    coh := { s.coh with ranges := [(0, 0x80), (1, 0x84)] }
    module := { s.module with poolBanks := 1 }
    mem := Memory.setList [] 0x40000100 ([0x69, 0, 1, 0].flatMap (leBytes 8)) }

/-- The words of that descriptor as the thread reads them. -/
def descWords : List Nat := [0x69, 0, 1, 0, 0, 0, 0, 0]

/-- What the pages of the new region are found to be. -/
def pagesFound (s : State) : Bool :=
  match regionPages s (partyOf s 0) 0x200000 (skBytesAt 1 true 0 6) 1 with
  | some (v, pages, range) => decide (range = 1) && (regionBase v 0 0x200000).isNone && decide (freeSlot v = some 0) &&
      decide (poolUsed v + skBytesAt 1 true 0 6 ≤ v.module.poolBanks * 0x200000) && !pages.isEmpty
  | none => false

theorem witness_SketchRegionInstructions :
    (isReady sketches && isReadable sketches (og 0 6 7 0) [(gs 6, .word)]) = true ∧
    (∀ j ∈ gathering sketches, txOf sketches j = none ∧ (thr sketches j).posted = [] ∧ queuedAccess sketches j = false) ∧
    regionBase sketches (wgOf sketches (thr sketches 0).wg).asid.toNat (srcN (thr sketches 0) (gs 6)) = some (1, filter) ∧ foldable filter = true ∧
    partsFault sketches filter 10 = none ∧
    (let x : Region := { filter with base := 0x200000 }
     let s := merging (regs [(6, 0x100000), (7, 0x200000)]) [(1, filter), (2, x)]
     partsFault s x 10 = none ∧ regionFault (sourceState s 2 x).1 (((tget (sourceState s 2 x).1.regions 1).getD filter)) 0 1 10 = none ∧
     (isReady s && isReadable s (og 0 6 7 0) [(gs 6, .word), (gs 7, .word)]) = true ∧ (0x100000 : Nat) % 64 = 0 ∧ (0x200000 : Nat) % 64 = 0 ∧
      regionBase s (wgOf s 0).asid.toNat (srcN (thr s 0) (gs 6)) = some (1, filter) ∧
      regionBase s (wgOf s 0).asid.toNat (srcN (thr s 0) (gs 7)) = some (2, { filter with base := 0x200000 }) ∧
      regionsAgree filter { filter with base := 0x200000 } = true) ∧
    (let s := defining 0x200000 0x40000100
     let addrs := (List.range 8).map fun e => 0x40000100 + 8 * e
     (isReady s && isReadable s (og 0 6 7 0) [(gs 6, .word), (gs 7, .word)]) = true ∧ txOf s 0 = none ∧ (thr s 0).posted = [] ∧ queuedAccess s 0 = false ∧
      (∀ e < 8, isReaches (chained s (addrs.take e)) 0 .global (addrs.getD e 0) 8 .rd = true ∧
        poisoned (chained s (addrs.take (e + 1))) (cellOf (chained s (addrs.take e)) 0 .global (addrs.getD e 0) 8 .rd) 8 = false ∧
        leNat (loadBytes (chained s (addrs.take (e + 1))) (cellOf (chained s (addrs.take e)) 0 .global (addrs.getD e 0) 8 .rd) 8) = descWords.getD e 0) ∧
      imageBad descWords = false ∧ pagesFound (chained s addrs) = true) ∧
    (let q : Region := { filter with kind := 2, cnt := false }
     { filter with cnt := false }.kind = 1 ∧ q.kind = 2 ∧ hashCells q 5 ≠ []) := by decide +kernel

theorem witness_SketchDeleteAndStatus :
    (isReady sketches && isReadable sketches (og 5 6 7 0) [(gs 6, .word), (gs 7, .word)]) = true ∧
    (∀ j ∈ gathering sketches, txOf sketches j = none ∧ (thr sketches j).posted = [] ∧ queuedAccess sketches j = false) ∧ srcN (thr sketches 0) (gs 6) % 8 = 0 ∧
    (placeOf sketches (partyOf sketches 0) .global 0x100000 8 .rd = .ok (placed sketches 0x100000 8 .rd) ∧
      placeOf sketches (partyOf sketches 0) .global 0x100000 8 .wr = .ok (placed sketches 0x100000 8 .wr)) ∧
    ((placed sketches 0x100000 8 .wr).2.sketch ≠ 0 ∧ (placed sketches 0x100000 8 .wr).2.remote = false ∧
      regionAt (placed sketches 0x100000 8 .wr).1 (placed sketches 0x100000 8 .wr).2.pa = some (1, filter) ∧ filter.kind = 1 ∧
      filter.cnt = true ∧
      regionFault (placed sketches 0x100000 8 .wr).1 filter 0 (placed sketches 0x100000 8 .wr).2.range 8 = none ∧
      regionFault (placed sketches 0x100000 8 .rd).1 filter 0 (placed sketches 0x100000 8 .rd).2.range 9 = none) :=
  ⟨by decide +kernel, by decide +kernel, by decide +kernel, ⟨placed_of (by decide +kernel), placed_of (by decide +kernel)⟩, by decide +kernel⟩

theorem witness_LinkInstructions :
    (let s := regs [(6, 127), (7, 64), (8, 4 * 2 ^ 12 + 4 * 2 ^ 17)]
     (isReady s && isReadable s (og 0 0 0 0) [] && isReadable s (og 5 6 7 0) [(gs 6, .word), (gs 7, .word)]) = true ∧
      (∀ j ∈ gathering s, txOf s j = none ∧ (thr s j).posted = [] ∧ queuedAccess s j = false ∧ privOf s j = true) ∧ srcN (thr s 0) (gs 6) < 2 ^ 7 ∧
      srcN (thr s 0) (gs 6) < 2 ^ 16 ∧
      (let weight (k : Nat) : Nat := srcN (thr s 0) (gs 7) / 2 ^ (8 * k) % 2 ^ 8
       (∀ k < 8, weight k ≤ 64) ∧ weight 3 = 0 ∧ weight 4 = 0 ∧ ((List.range 8).map weight).sum = 64) ∧
      (let a := srcN (thr s 0) (gs 8)
       a < 2 ^ 22 ∧ 4 ≤ a / 2 ^ 12 % 2 ^ 5 ∧ a / 2 ^ 12 % 2 ^ 5 ≤ a / 2 ^ 17 % 2 ^ 5 ∧ a / 2 ^ 17 % 2 ^ 5 ≤ 16)) ∧
    (16 * 2 ^ 12 + 16 * 2 ^ 17 < 2 ^ 22 ∧ guestWrites one = false) ∧
    (let s := withKept one (kept tyPosted (.guest 0) 0 0)
     isReady s = true ∧ s.annex.st ≠ .fenced ∧ guestWrites s = true) := by decide +kernel

/-- The image of a plan of one rank that sums .f16 into 256 bytes at 0x8000, at 0x4000; the thread with its address and a slot. -/
def planning (slot : Word) : State :=
  { mapped (regs [(6, 0x4000), (7, slot), (8, 1 + 7 * 2 ^ 32)]) 0 with
    mem := Memory.setList [] 0x4000 ([2 ^ 32 + 0x12 * 2 ^ 36, 0x8000, 256].flatMap (leBytes 8)) }

/-- The checks of a load pass. -/
def loadsPlan (s : State) (a slot : Nat) : Bool :=
  match planLoad s 0 a slot with
  | .load _ _ => true
  | _ => false

/-- A plan of one rank that sums .f16, in slot 7 of die 0, with a send of it. -/
def planned : Plan := ⟨0, 0, [BitVec.ofNat 64 (2 ^ 32 + 0x12 * 2 ^ 36), 0x8000, 256], [(0, 0)], [], [], 0, [], []⟩
def sending (todo left : List Nat) (started dead : Bool) (wait : Option (BitVec 14)) : Send :=
  { id := 2, plan := 7, context := 0, asid := 0, gen := 0, first := 0, count := 1, src := .memory 0x4000 [], wait := wait, task := none
    started := started, todo := todo, left := left, dead := dead, got := [] }
def sends (y : Send) : State := modColl (planning 7) 0 fun c => { c with plans := [(7, planned)], sends := [y] }

/-- The source of a send passes its checks without changing the state. -/
def sourced (s : State) : Bool :=
  match sendSource s 0 0x4000 1 planned with
  | .ok (t, _) => decide (t = s)
  | .error _ => false

theorem witness_Collectives_instructions :
    (∀ slot ∈ [0, 255], let s := planning (BitVec.ofNat 64 slot)
      (isReady s && isReadable s (og 0 6 7 0) [(gs 6, .word), (gs 7, .word)]) = true ∧ (∀ j ∈ gathering s, txOf s j = none) ∧
      srcN (thr s 0) (gs 7) = slot ∧ slotBusy s ((thr s 0).core / 64) slot = false ∧ loadsPlan s (srcN (thr s 0) (gs 6)) slot = true ∧
      (planIn s ((thr s 0).core / 64) slot).isNone = true) ∧
    (let s := modColl (planning 0) 0 fun c => { c with plans := [(7, planned)] }
     (isReady s && isReadable s (og 0 6 7 8) [(gs 6, .word), (gs 7, .word), (gs 8, .word)]) = true ∧ (thr s 0).posted = [] ∧ queuedAccess s 0 = false ∧
      planIn s ((thr s 0).core / 64) (srcN (thr s 0) (gs 8) / 2 ^ 32 % 2 ^ 8) = some planned ∧ planned.context = (wgOf s (thr s 0).wg).context ∧
      sendFieldsBad (srcN (thr s 0) (gs 7)) (srcN (thr s 0) (gs 8)) (planOp planned == opCollate) = false ∧
      (srcN (thr s 0) (gs 7) % 2 ^ 28 + srcN (thr s 0) (gs 8) % 2 ^ 32) * chunkBytes planned ≤ planRlen planned ∧
      srcN (thr s 0) (gs 6) % 64 = 0 ∧ sourced s = true) := by decide +kernel

theorem witness_Collectives_events :
    (∀ y ∈ [sending [0] [0] false true none, sending [0] [0] false false (some 9), sending [] [0] false false none, sending [] [] true false none],
      (dieOf (sends y) 0).coll.sends.find? (fun z => z.id == y.id) = some y ∧ planIn (sends y) 0 y.plan = some planned) ∧
    taskMet (modQuad (sends (sending [0] [0] false false (some 9))) 0 fun q => { q with tasks := [(9, ⟨1, false⟩)] }) true 9 = false ∧
    (let y := sending [] [0] false false none
     portsFull (sends y) 0 = false ∧ sendRoom (sends y) 0 planned y = true ∧ taskMet (sends y) y.wait.isSome (y.wait.getD 0).toNat = true ∧
      (∀ k, y.src ≠ .region k) ∧ ∀ d ∈ (sends y).dies, d.2.coll.inbox = []) ∧
    sendInFlight (sends (sending [] [] true false none)) 0 (sending [] [] true false none) (planWrites planned) = false := by
  refine ⟨by decide +kernel, by decide +kernel, ⟨by decide +kernel, by decide +kernel, by decide +kernel, ?_, by decide +kernel⟩, by decide +kernel⟩
  intro k h
  cases h

/-- A kept packet at a clock. -/
def keeping (k : Kept) (clock : Nat) : State :=
  let s := withKept one k
  { s with clock := clock }

/-- A packet of one payload sector that a source writes, whole, at 0x8000. -/
def written : Packet :=
  { Packet.blank with type := tyPosted, cls := 2, len := 1, tag := 4, addr := 0x8000, fmask := 0xFFFFFFFF, lmask := 0xFFFFFFFF, payload := [5] }

/-- An ordered collective packet of slot 7, without a route, as the next of its flow, or n further on. -/
def chunked (n : BitVec 16) : Packet := { Packet.blank with type := tyCollective, cls := 6, ord := true, len := 1, seq := n, addr := 7 * 2 ^ 44, payload := [5] }
def colls : State := modColl one 0 fun c => { c with plans := [(7, planned)] }

theorem witness_PacketSteps_switch :
    badHeader { Packet.blank with rzBad := true } = true ∧ badHeader { Packet.blank with type := 13 } = true ∧
    (let p := { Packet.blank with cls := 3 }
     badHeader p = false ∧ headerLane p = true) ∧
    (badHeader written = false ∧ headerLane written = false ∧ mustTrim one 0 written = false) ∧
    (let s := modDie one 0 fun d => { d with trimBase := 0 }
     mustTrim s 0 written = true ∧ headerLane written = false) ∧
    (let p := { written with trimmed := true }
     badHeader p = false ∧ p.ord = false) ∧
    (∀ t ∈ [0, 15], let k : Kept := ⟨{ written with trims := BitVec.ofNat 4 t }, .service, 0, 0, 0, 0⟩
      let p := { Packet.blank with type := tyRecall, tag := 4 }
      badHeader p = false ∧ keptOf (keeping k 0) 0 p.tag = some k) ∧
    (let p := { Packet.blank with type := tyAck, tag := 4 }
     badHeader p = false ∧ p.aux.toNat % 256 = 0 ∧ keptOf (keeping (kept tyPosted (.thread 0) 0 0) 0) 0 p.tag = some (kept tyPosted (.thread 0) 0 0)) ∧
    (∀ ty ∈ [tyReadResp, tyRmwResp], let p := { Packet.blank with type := ty, len := 1, aux := 4, payload := [9] }
     let s := modThr (withKept one (kept tyReadReq (.thread 0) 0 0)) 0 fun t => { t with
       pend := [⟨.reg (.g 5), 1, true, false, 0, none, [⟨0, 4, 0, 8, none, 0⟩]⟩] }
     badHeader p = false ∧ p.poisoned = false ∧ p.aux.toNat / 2 ^ 24 % 256 = 0 ∧
       (keptOf s 0 (BitVec.ofNat 16 (p.aux.toNat % 2 ^ 16))).isSome = true ∧ s.annex.reads = []) ∧
    (let p := { Packet.blank with type := tyReadResp, aux := 4 }
     badHeader p = false ∧ keptOf (keeping (kept tyReadReq (.thread 0) 0 0) 0) 0 (BitVec.ofNat 16 (p.aux.toNat % 2 ^ 16)) =
       some (kept tyReadReq (.thread 0) 0 0)) := by decide +kernel

theorem witness_PacketSteps_home :
    (isPosted written = true ∧ badHeader written = false ∧ forUs one written = true ∧ wasApplied one written = false ∧ windowOf one 0x8000 = none ∧
      reservedCells one (paLoc one 0x8000) 32 = false ∧ Memory.wf one.mem = true ∧
      isOk (engineLines one (packetPlace one written) 32 true) = true ∧ ∀ e ∈ one.wgs, e.2.txs = []) ∧
    (let s := { one with fabric := { one.fabric with applied := [(0, [4])] } }
     forUs s written = true ∧ wasApplied s written = true) ∧
    (let p := { Packet.blank with type := tyReadReq, addr := 0x8000 }
     badHeader p = false ∧ forUs one p = true ∧ portsFull one (homeDie p.addr.toNat) = false ∧ p.aux.toNat % 2 ^ 33 = 0 ∧
      isOk (lineAccess one none p.addr.toNat (packetRange p) false) = true) := by decide +kernel

theorem witness_PacketSteps_flows :
    (∀ n ∈ [1, 255, 32768, 65535], let p := chunked (BitVec.ofNat 16 n)
      let f := flowOf colls (flowKey p)
      badHeader p = false ∧ forUs colls p = true ∧ (p.seq - f.expect).toNat = n ∧ f.window = []) ∧
    (let p := chunked 0
     let f := flowOf colls (flowKey p)
     (p.seq - f.expect).toNat = 0 ∧ (unitTake (setFlow colls { f with window := [(p.seq.toNat, p)] }) p.ddie.toNat p).isSome = true) ∧
    (let p := { chunked 0 with aux := 2 ^ 25, route := BitVec.ofNat 256 (planOp planned * 2 ^ 13) }
     let f := flowOf colls (flowKey p)
     badHeader p = false ∧ forUs colls p = true ∧ (p.seq - f.expect).toNat = 0 ∧ f.window = [] ∧ planIn colls 0 7 = some planned ∧
      planned.pchk.toNat = p.addr.toNat / 2 ^ 28 % 2 ^ 16 ∧ portsFull colls 0 = false ∧ packetRoute p = [planOp planned * 2 ^ 13] ∧
      planOp planned ≠ 0 ∧ planOp planned ≠ opCopy ∧ nodeRoom colls 0 7 (p.addr.toNat % 2 ^ 28) (p.aux.toNat / 2 ^ 30) = true ∧
      (dieOf colls 0).coll.operands = [] ∧ ∀ y ∈ colls.dies, y.2.coll.inbox = []) ∧
    nextRecall (modPort one 0 fun x => { x with stubs := [⟨written, 0, 0⟩] }) 0 = some ⟨written, 0, 0⟩ ∧
    (let k := kept tyPosted (.thread 0) 4 1
     450000 < 1 + 450000 ∧ (1 + 450000 ≤ 450001) ∧ keptOf (keeping k 450000) 0 4 = some k ∧ keptOf (keeping k 450001) 0 4 = some k) ∧
    keptOf (keeping (kept tyPosted (.thread 0) 3 1) 450001) 0 4 = some (kept tyPosted (.thread 0) 3 1) := by decide +kernel

/-- A holder's only line 5, in a state of range 0. -/
def heldLine (holder st : Nat) : State :=
  { one with coh := { one.coh with lines := [(lineKey holder 5, st)] }, module := { one.module with cxl31 := true } }

theorem witness_CoherenceEvents :
    ∀ holder ∈ [0, 255, holderG, holderH, 258, 261], ∀ st ∈ [1, 2],
      holder < 262 ∧ tget (heldLine holder st).coh.lines (lineKey holder 5) = some st ∧
      (heldLine holder st).coh.lines.Pairwise (fun a b => a.1 < b.1) ∧ (∀ h ∈ holdersOf (heldLine holder st) 5, h = holder) ∧
      (heldLine holder st).module.cxl31 = true := by decide +kernel

/-- A launch record of one workgroup of one quire for context 1, and a bind record of it on die 0 (and die 1 if asked) for a context, with a
QMAX. -/
def launchWords (seq gx : Nat) : List Word :=
  [BitVec.ofNat 64 (seq + 2 ^ 16), 0, BitVec.ofNat 64 (gx + 2 ^ 16 + 2 ^ 32), 0, 2 ^ 32, 2 ^ 8, 0x9000, 0, 1, 0, 0, 0, 0, 0, 0, 0]
def bindWords (mask qmax : Nat) : List Word :=
  [BitVec.ofNat 64 (1 + 2 ^ 4 + mask * 2 ^ 10 + 2 ^ 14), 0x4000, 0xFFFFFFFFFFFFFFFF, BitVec.ofNat 64 (qmax * 0x1000100010001), 0, 0, 0, 0]

theorem witness_PlacementHash :
    (∀ mask ∈ [1, 8, 15], bindMask (bindWords mask 8) ≠ 0) ∧ coordOf (launchWords 0 3) 2 = (2, 0, 0) := by decide +kernel

/-- Die 0 with its dispatcher on and launch queue 2, whose header at 0x2000 has PUB and DRP as given, 16 slots and ENABLE. -/
def launching (pub drp seq : Nat) (halted : Bool) : State :=
  let s := modDie one 0 fun d => { d with bootstat := 7, queues := [(2, ⟨0x2000, halted⟩)] }
  let m := Memory.setList [] 0x2000 ([pub, drp, 0x4000, 4 + 32].flatMap (leBytes 8))
  { s with mem := m.setList (0x4000 + 128 * (drp % 16)) ((launchWords seq 1).flatMap fun w => leBytes 8 w.toNat) }

theorem witness_LaunchAndPlacement_queues :
    (∀ h ∈ [false, true], tget (dieOf (launching 6 5 5 h) 0).queues 2 = some ⟨0x2000, h⟩) ∧
    (∀ q ∈ [(5, 5, 5), (22, 5, 5), (6, 5, 65525), (6, 5, 5), (21, 5, 5)], let s := launching q.1 q.2.1 q.2.2 false
      let m := sub48 (readWord s (paLoc s 0x2000) % 2 ^ 48) (readWord s (paLoc s 0x2000 + 8) % 2 ^ 48)
      (dieOf s 0).bootstat.toNat % 256 = 7 ∧ bit (readWord s (paLoc s 0x2000 + 24)) 5 = true ∧ m = q.1 - q.2.1 ∧
      2 ^ (readWord s (paLoc s 0x2000 + 24) % 16) = 16 ∧ readWord s (paLoc s (0x4000 + 128 * 5)) % 2 ^ 16 = q.2.2 ∧
      bit (readWord s (paLoc s 0x2000 + 24)) 4 = false ∧ Memory.wf s.mem = true) ∧
    launchBad (launchWords 5 1) = false ∧ wordsAt (launching 6 5 5 false) (paLoc (launching 6 5 5 false) (0x4000 + 128 * 5)) 16 = launchWords 5 1 ∧
    (5 % 2 ^ 16 + 2 ^ 16 - 16) % 2 ^ 16 = 65525 := by decide +kernel

/-- A binding of that launch, and die 0 and die 1 with bindings in slot 5. -/
def binding (qmax : Nat) (share : List Nat) : BindSlot :=
  { words := bindWords 3 qmax, launch := launchWords 5 3, homeQueue := true, age := 0, share := share, completed := false, refused := false
    noneFrom := [], stealTag := none, preemptsFor := [] }
def bindings (a b : BindSlot) : State := modDie (modDie one 0 fun d => { d with slots := [(5, a)] }) 1 fun d => { d with slots := [(5, b)] }

theorem witness_LaunchAndPlacement_records :
    (bindBad 0 (bindWords 1 8) false = false ∧ bit (cfgWord (bindWords 1 8) 0) 0 = true) ∧
    (let r := (bindWords 1 8).set 0 (BitVec.ofNat 64 (2 ^ 4 + 2 ^ 10 + 2 ^ 14))
     bindBad 0 r true = false ∧ bit (cfgWord r 0) 0 = false) ∧
    (12 > 11 ∧ bindPrio ((bindWords 1 8).set 0 (BitVec.ofNat 64 (1 + 12 * 2 ^ 4 + 2 ^ 10))) = 12) ∧
    (bindPrio ((bindWords 1 8).set 0 (BitVec.ofNat 64 (1 + 2 ^ 14))) = 0 ∧ bindContext ((bindWords 1 8).set 0 (BitVec.ofNat 64 (1 + 2 ^ 14))) ≠ 0) := by
  decide +kernel

theorem witness_LaunchAndPlacement_place :
    let b := binding 8 [0, 2]
    let s := bindings b (binding 8 [])
    arbitrate s 0 1 = some (1, [(5, b)], (5, b)) ∧ b.share.head? = some 0 ∧ (savedWg s 0 5 0).isNone = true ∧
    (recordAway s 0 b.words b.launch).isNone = true ∧ (imageAway s 0 1 b).isNone = true ∧
    imageRefused b.launch (imageRecord s 0 b.words b.launch) = false ∧
    pickCore s 0 b.words (needsOf s 0 b) (homeQuadrant b.launch 0) = some 1 ∧ (qualifies s 0 b.words (needsOf s 0 b) 1).isSome = true ∧
    launchQuires b.launch = 1 := by decide +kernel

theorem witness_LaunchAndPlacement_stealing :
    (let s := bindings (binding 8 [0, 1, 2]) (binding 8 [])
     tget (dieOf s 1).slots 5 = some (binding 8 []) ∧ tget (dieOf s 0).slots 5 = some (binding 8 [0, 1, 2]) ∧
      stealFrom s 1 (binding 8 []) = some 0) ∧
    (∀ m ∈ [StealMsg.give 5 0 [2], .none 5 0 0], let s := modDie (bindings (binding 8 [0]) (binding 8 [])) 1 fun d => { d with steal := [m] }
      (dieOf s 1).steal = [m] ∧ tget (dieOf s 1).slots 5 = some (binding 8 [])) ∧
    (let b := binding 8 []
     let s := modWg (bindings b b) 0 fun w => { w with slot := 5, st := .stopped }
     bindingAt s 0 5 = some b ∧ b.worded = false ∧ sharesEmpty s 5 b = true ∧
      bindingWgs s 5 (bindMask b.words) ≠ [] ∧ wgsDone s (bindingWgs s 5 (bindMask b.words)) = true ∧
      imagesDone (writeImages s 0 5 b) 0 5 b = true ∧ inFlight (wordBinding (writeImages s 0 5 b) 0 5 b) .service = false) := by decide +kernel

/-- The thread's workgroup at level 2, asked to stop at some clock with a bound. -/
def stopping (at_ : Nat) (pbound : Nat) (points : List Nat) : State :=
  modWg one 0 fun w => { w with prio := 2, preempt := true, preemptAt := at_, pbound := pbound, atPoint := points }

theorem witness_Preemption :
    (let b := binding 0 [0, 2]
     let s := modWg (bindings b b) 0 fun w => { w with prio := 2 }
     tget (dieOf s 0).slots 5 = some b ∧ trigger s 0 5 b = some 0 ∧ (worstOf (victims s 0 b)).map Prod.fst = some 0 ∧
      (worstOf (victims s 0 b)).map (fun v => v.2.core) = some 0) ∧
    (∀ n ∈ [0, 1], let s := stopping 0 n []
      let w := wgOf s 0
      w.st = .running ∧ w.preempt = true ∧ w.atPoint.contains 0 = false ∧ 0 < w.roles.length ∧
      decide (w.preemptAt + w.pbound * 2250 ≤ s.clock) = (n == 0)) ∧
    (let s := stopping 0 0 [0]
     (∀ i ∈ threadsOfWg s 0, (thr s i).posted = []) ∧ saveReady s 0 = true ∧ (wgOf s 0).cause = 0 ∧ (0x8000 : BitVec 52).toNat % 4096 = 0) ∧
    (let b := binding 8 [0]
     let s := modWg (bindings b b) 0 fun w => { w with slot := 5, st := .saved, area := 0x8000, owner := false }
     (wgOf s 0).st = .saved ∧ slipsRun s 0 0 = false ∧ (wgOf s 0).owner = false ∧
      arbitrate s (wgOf s 0).die 0 = some (1, [(5, b)], ((wgOf s 0).slot, b)) ∧ b.share.head? = some (wgOf s 0).w ∧
      restoreCore s (0, wgOf s 0) b = some 0) := by decide +kernel

/-- A core's choice of a gathering. -/
def choosesNow (s : State) : Bool :=
  match choose s 0 with
  | .ready _ g => !g.isEmpty
  | _ => false

/-- A result that has arrived for latch 1: 5, for a destination. -/
def arrived (d : Dst) (live wide : Bool) : Pend := ⟨d, 1, live, wide, 3, none, [⟨0, 4, 0, 8, some 5, 0⟩]⟩

theorem witness_CoreEvents_issue :
    (let s := mapped one 0
     (liveThreads s 0).find? (fun j => lineOf (thr s j).pc == lineOf 0) = some 0 ∧
      tget (coreOf s (thr s 0).core).icache (icacheKey (wgOf s (thr s 0).wg).asid.toNat (lineOf 0)) = none ∧ isOk (fetchMemory s 0 (lineOf 0)) = true) ∧
    ((coreOf unchosen 0).gath = [] ∧ (coreOf unchosen 0).gated = false ∧ choosesNow unchosen = true) ∧
    (∀ p ∈ [arrived (.reg (.g 5)) true false, arrived (.reg (.v 5)) false true, arrived .latchOnly true true],
      nextResult (thread fun t => { t with pend := [p] }) 0 (1 : BitVec 2).toNat = some p ∧ p.flag = none) ∧
    (coreOf (modCore one 0 fun c => { c with gated := true, events := [(9, 1, 5), (2, 0, 7)] }) 0).events = [(9, 1, 5), (2, 0, 7)] := by decide +kernel

theorem witness_CoreEvents_waits :
    (thr one 0).wait = none ∧
    (∀ n ∈ [0, 1], let s := modQuad (thread fun t => { t with wait := some ⟨1, 7, 0, .latchOnly, 0, false, 0, 0⟩ }) 0 fun q => { q with tasks := [(7, ⟨BitVec.ofNat 16 n, false⟩)] }
      (thr s 0).wait = some ⟨1, 7, 0, .latchOnly, 0, false, 0, 0⟩ ∧ (thr s 0).nest = [] ∧ (wgOf s (tidWg 0)).st = .running ∧ (taskOf s (7 : Word).toNat).count.toNat = n) ∧
    (∀ n ∈ [1023, 1024], let s := modWg one 0 fun w => { w with wdogLimit := 1, wdog := n }
      (wgOf s 0).st = .running ∧ (wgOf s 0).preempt = false ∧ (wgOf s 0).wdogLimit ≠ 0 ∧ (wgOf s 0).wdog = n) ∧
    ((tget one.threads 0).isSome = true ∧ threadReg (.g 127) = true ∧ threadReg (.xv 7) = true) := by decide +kernel

/-- The port with queue 3 of context 1, its header at 0x2000 with packets 2 and 3 published, the guest told of one as far as given, a window of
64 KiB at 0 that allows writes, and a grant of the first page. -/
def ported (st : AnnexState) (known : Nat) (pub : Nat) (packets : List AxPacket) : State :=
  let s := mapped one 0
  { s with
    contexts := [(1, ⟨0, false, false, 0x10000, 4, 0x20000⟩)]
    annex := { s.annex with st := st, queues := [(3, ⟨1, ⟨.global 1 0x2000, 0, [], false⟩, [(0, 65536, true)], BitVec.ofNat 48 known⟩)]
                            packets := packets, granted := [⟨0, 0, 0, 65536, 0, true⟩], inval := [(0, 1, 0)] }
    mem := header [] 0x2000 pub 1 1 0x4000 4 }

def axHeld (parked : Bool) : AxPacket := { queue := 3, k := 2, words := [0, 0], parked := parked, since := 0 }

/-- Queue 3 as bound, with its known PUB. -/
def axBound (known : Nat) : AxQueue := ⟨1, ⟨.global 1 0x2000, 0, [], false⟩, [(0, 65536, true)], BitVec.ofNat 48 known⟩

/-- The header of the queue's ring as the port's look finds it: 1 with an overrun, 2 with a legal entry next. -/
def looked (s : State) (known : Nat) : Nat :=
  let u := axSettleAll s 3
  let q := axBound known
  match freshHead u (axServer u q) q.ring.loc with
  | .due s1 p =>
    if axQueue u 3 != some q || hdrPub s1 p.loc == known then 0
    else if overrun s1 p.loc then 1
    else match ringEntry s1 (axServer u q) q.ring.loc p (known + 1) with
      | .ok (_, ws) => if s1.annex.st == .opened && !axBad ws then 2 else 0
      | .error _ => 0
  | _ => 0

/-- A fetch of the guest finds a packet of the queue. -/
def fetches (s : State) (known : Nat) : Bool :=
  let q := axBound known
  let v := axServer s q
  match ringPlaceOf s v.asid v.priv q.ring.loc with
  | none => false
  | some (s1, p) => match axNext s1 3 q p.loc (hdrTaken s1 p.loc) known 4097 with
    | none => false
    | some k => match ringEntry s1 v q.ring.loc p k with
      | .ok (s2, _) => decide (axQueue s 3 = some q) && decide (k < 2 ^ 48) && Memory.wf s2.mem && decide (logsMet s2 (p.loc + 8) 8 = []) &&
          isOk (engineLines (dropAsks s2 v.w.owner) p 24 true)
      | .error _ => false

/-- The record of a completed packet can be written, with nothing of it in flight. -/
def packetGoes (s : State) (x : AxPacket) (status : Nat) : Bool :=
  let v := axServer s (axBound 2)
  let ws := axOutcome x.k status 0 0 0
  match ringPlaceOf (modPacket s 3 x.k fun y => { y with st := .ending false ws, behind := s.annex.sent }) v.asid v.priv (.global 1 0x2000) with
  | none => false
  | some (u, p) => !inFlight u (.packet 3 x.k) && match putRecord u v (axWriter 1 (.packet 3 x.k)) p x.k ws with
    | some w => !inFlight w (.packet 3 x.k)
    | none => false

theorem witness_AnnexSteps_queues :
    looked (ported .opened 1 18 []) 1 = 1 ∧ looked (ported .opened 1 3 []) 1 = 2 ∧ fetches (ported .opened 2 3 []) 2 = true ∧
    (let s := ported .opened 2 3 [axHeld false]
     s.annex.packets.find? (fun y => y.queue == 3 && y.k == (2 : BitVec 48).toNat && !y.parked && y.st == .running) = some (axHeld false) ∧
      axQueue s 3 = some (axBound 2) ∧ axStatusOk 0 0 = true ∧ axStatusOk 2 0 = false ∧ guestWritesOut s (some s.annex.sent) = false ∧
      packetGoes s (axHeld false) 0 = true ∧
      (let a := { s.annex with sent := 1 }
       guestWritesOut (withKept { s with annex := a } (kept tyPosted (.guest 0) 0 0)) (some 1) = true)) := by decide +kernel

theorem witness_AnnexSteps_translations :
    (let s := ported .opened 2 3 []
     axWindow s 0 65536 = none ∧ axWindow s 0 64 = some true ∧ (spaceEntry s 0).gen = 0 ∧ (spaceEntry s 0).gen ≠ 1 ∧
      (match translate s 0 (axPriv s 0) 64 .rd false with
        | .ok (u, x) => !guestBarred u x.pa
        | .error _ => false) = true ∧ s.annex.inval.find? (fun e => e.1 == 0) = some (0, 1, 0)) ∧
    ctxPreempted (modWg (ported .opened 2 3 [axHeld false]) 0 fun w => { w with context := 1, preempt := true }) 1 = true ∧
    (let s := ported .opened 2 3 []
     guestEvent .other = none ∧ s.annex.granted.find? (fun g => g.pa ≤ 65536 && 65536 < g.pa + g.size && (g.w || !guestWrite .rdOwn)) = none ∧
      s.annex.granted.find? (fun g => g.pa ≤ 64 && 64 < g.pa + g.size && (g.w || !guestWrite .rdOwn)) = some ⟨0, 0, 0, 65536, 0, true⟩ ∧
      isRemote s 64 = false ∧ guestBarred s 64 = false ∧ (∀ wr ∈ [true, false], isOk (lineAccess s (some holderG) 64 0 wr) = true)) ∧
    (4501 > 0 + 4500 ∧ (ported .opened 2 3 []).annex.st = .opened) ∧
    (State.reset.annex.st = .untrained ∧ (1 : BitVec 8) ≠ 0 ∧ (ported .closed 2 3 []).annex.st = .closed) := by decide +kernel

/-- The outcomes of the guest's list, of its signature and of a module image's signature: one or the other. -/
theorem witness_AnnexSteps_attest (image identity measurement signature : List Byte) :
    (Config.guestListed image identity measurement = false ∨ Config.guestSigned identity measurement signature = false) ∨
      (Config.guestListed image identity measurement = true ∧ Config.guestSigned identity measurement signature = true) := by
  cases Config.guestListed image identity measurement <;> cases Config.guestSigned identity measurement signature <;> simp

theorem witness_ModuleSteps_images (image : List Byte) : Config.imageSigned image = false ∨ Config.imageSigned image = true := by
  cases Config.imageSigned image <;> simp

theorem witness_ModuleSteps :
    (let s := { one with module := { one.module with rails := [] } }
     s.module.rails = []) ∧
    one.module.rails ≠ [] ∧
    (let s := State.reset
     s.module.rails = [.vaux, .vio, .vsram, .vcore, .vddq] ∧ s.module.held = false ∧ bootCode s ≤ 1 ∧ s.module.booted = false ∧
      (dieOf s 0).modid.getLsbD 10 = false) ∧
    (let s := modDie State.reset 0 fun d => { d with bootstat := 5, modid := 1024 }
     s.module.rails = [.vaux, .vio, .vsram, .vcore, .vddq] ∧ s.module.held = false ∧ bootCode s = 5 ∧ (dieOf s 0).modid.getLsbD 10 = true) ∧
    ({ one with module := { one.module with recovery := true } } : State).module.recovery = true ∧
    (∀ d < 4, (dieOf one d).mbox.cmd.length = 8 ∧ (dieOf one d).mbox.pending = none ∧ (dieOf one d).mbox.stat.toNat % 2 ^ 16 + 1 = 1) ∧
    (isRemote one 0x8000 = false ∧ reservedCells one (paLoc one 0x8000) 3 = false ∧ windowOf one 0x8000 = none ∧ Memory.wf one.mem = true ∧
      (∀ e ∈ one.wgs, e.2.txs = []) ∧ isOk (hostLines one (hostHolder one .host) 0x8000 3 true) = true) := by decide +kernel

/-- `Commands`, evaluated. -/
def isCommand (s : State) (die : Nat) (seq : BitVec 16) (by_ : Issuer) (opc : Nat) (home : Option Nat) (words data : Nat) : Bool :=
  decide (die < 4) && s.module.booted && decide ((dieOf s die).mbox.pending = some (seq, by_)) && decide (mbOpc s die = opc) &&
  decide (bits (mbCmd s die 0) 63 32 = 0) && (home.all fun h => h == die) && wordsClear s die words && mbdataClear s die data && !foreign s die by_

theorem command_of {s : State} {die : Nat} {seq : BitVec 16} {by_ : Issuer} {opc : Nat} {home : Option Nat} {words data : Nat}
    (h : isCommand s die seq by_ opc home words data = true) : Commands s die seq by_ opc home words data := by
  simp only [isCommand, Bool.and_eq_true, decide_eq_true_eq, Bool.not_eq_true'] at h
  obtain ⟨⟨⟨⟨⟨⟨⟨⟨a, b⟩, c⟩, d⟩, e⟩, f⟩, g⟩, i⟩, j⟩ := h
  refine ⟨a, b, c, d, e, fun k hk => ?_, g, i, j⟩
  subst hk
  simpa using (beq_iff_eq.mp f).symm

/-- A command for context 1 whose doorbell a die's mailbox has taken. -/
def ordered (die : Nat) (s : State) (opc : Nat) (ws : List Nat) : State :=
  let s1 := modDie s die fun d => { d with mbox := { d.mbox with
    cmd := ((opc + 2 ^ 20) :: ws ++ List.replicate (7 - ws.length) 0).map (BitVec.ofNat 64), pending := some (1, .host) } }
  { s1 with module := { s1.module with booted := true } }

def isOrdered (die : Nat) (s : State) (opc : Nat) (home : Option Nat) (ws : List Nat) : Bool :=
  isCommand (ordered die s opc ws) die 1 .host opc home (ws.length + 1) (if opc = 0x0D then 32 else 0)

/-- The module with context 1. -/
def peopled : State := { mapped one 0 with contexts := [(1, ⟨0, false, false, 0x10000, 4, 0x20000⟩)] }

theorem witness_MailboxCommands_contexts :
    (∀ n ∈ [1, 2], isOrdered 0 peopled 0x01 (some 0) [n, 0x10000, 4, 0x20000] = true ∧ n < 2 ^ 30 ∧ n % 2 ^ 12 ≠ 0 ∧
      (tget (ordered 0 peopled 0x01 [n, 0x10000, 4, 0x20000]).contexts (mbCmd (ordered 0 peopled 0x01 [n, 0x10000, 4, 0x20000]) 0 1 % 2 ^ 12)).isNone = (n == 2)) ∧
    (isOrdered 0 peopled 0x02 (some 0) [1] = true ∧ mbContext (ordered 0 peopled 0x02 [1]) 0 = 1 ∧
      contextIdle (ordered 0 peopled 0x02 [1]) 1 = true ∧ contextIdle (ordered 0 (ported .opened 2 3 [axHeld false]) 0x02 [1]) 1 = false) ∧
    isOrdered 0 peopled 0x03 (some 0) [7, 0x100000] = true ∧
    (isOrdered 0 peopled 0x04 none [15, 0x8000] = true ∧ homeDie 0x8000 < 4 ∧ isOrdered (homeDie 0x8000) peopled 0x04 none [15, 0x8000] = true ∧
      isRemote peopled 0x8000 = false) ∧
    isOrdered 3 peopled 0x05 none [15] = true := by decide +kernel

theorem witness_MailboxCommands_replies :
    (∀ die ∈ [0, 3], isOrdered die peopled 0x06 none [1, 5, 0] = true) ∧
    (let s := modWg { copies [copying (copyWords 8192) (.parked 3 0 0x8000 5)] false with contexts := peopled.contexts } 0 fun w => { w with context := 1 }
     parkedRun (ordered 0 s 0x06 [1, 5, 0]) 1 5 = some (0, copying (copyWords 8192) (.parked 3 0 0x8000 5))) ∧
    (let s := modWg { slipping [slip 6 false (.parked 3 0x8000 5) 0] false with contexts := peopled.contexts } 0 fun w => { w with context := 1 }
     (parkedRun (ordered 0 s 0x06 [1, 5, 0]) 1 5).isNone = true ∧
      parkedSlip (ordered 0 s 0x06 [1, 5, 0]) 1 5 = some (0, slip 6 false (.parked 3 0x8000 5) 0)) ∧
    (replyTo (ordered 0 peopled 0x06 [1, 5, 0]) 1 5 false).isNone = true := by decide +kernel

theorem witness_MailboxCommands_bindings :
    (∀ die ∈ [0, 3], isOrdered die peopled 0x07 none [64 + 3, 1, 1000, 0, 0x2000] = true ∧ isOrdered die peopled 0x08 none [64 + 3, 0x2000] = true ∧
      (tget (dieOf peopled die).pairs 3).isNone = true ∧ (tget (dieOf peopled die).cardRings 3).isNone = true) ∧
    (isOrdered 1 peopled 0x09 (some 1) [64 + 3, 0x2000, 0] = true ∧ (tget peopled.annex.queues 3).isNone = true) ∧
    (∀ pub ∈ [1, 2], let s := modDie { peopled with mem := header [] 0x2000 pub 1 1 0x4000 4 } 0 fun d => { d with
        pairs := [(3, ⟨1, 1, 8, 1000, 0, ⟨.global 1 0x2000, 0, [], false⟩, []⟩)] }
      isOrdered 0 s 0x0A none [12] = true ∧ ringIdle s ⟨.global 1 0x2000, 0, [], false⟩ = (pub == 1)) := by decide +kernel

theorem witness_MailboxCommands_tables :
    (isOrdered 0 peopled 0x0B (some 0) [63, 0x80] = true ∧ (tableOf peopled 0).isSome = true ∧
      (tableOf peopled 0).all (fun t => (propMismatch t false).isNone) = true ∧ (tableOf peopled 1).all (fun t => (propMismatch t false).isSome) = true ∧
      isOrdered 0 peopled 0x0B (some 0) [63, 0x81] = true) ∧
    (isOrdered 0 peopled 0x0C (some 0) [5, 0x8000] = true ∧ slotNamed peopled 5 = false) ∧
    isOrdered 0 peopled 0x0D (some 0) [] = true ∧
    (isOrdered 1 (ported .fenced 2 3 []) 0x0E (some 1) [] = true ∧ (ported .fenced 2 3 []).annex.st = .fenced) ∧
    (∀ opc ∈ [0, 0x0F, 255], let s := ordered 2 peopled opc []
      s.module.booted = true ∧ (dieOf s 2).mbox.pending = some (1, .host) ∧ mbOpc s 2 = opc) := by decide +kernel

/-- A table's image is listed by the firmware's manifest or not, for any hash. -/
theorem witness_MailboxCommands_manifest (image hash : List Byte) :
    (Config.manifestHashes image).contains hash = false ∨ (Config.manifestHashes image).contains hash = true := by
  cases (Config.manifestHashes image).contains hash <;> simp

end Sys2Proof.Tests
end

section
/-! Accesses of a lane outside the global space: their places (R24, R25), and that nothing of R205 or R269 holds them up
when the thread has no queued matrix instruction with accesses to come. -/

namespace Sys2Proof.Machine

/-- Item by item of the core's queue: one of this thread has nothing left to touch, so it meets no place. -/
theorem queuedMeets_of_queuedAccess_false {s : State} {i : Nat} (h : queuedAccess s i = false) (p : Place) (write : Bool) :
    queuedMeets s i p write = false := by
  unfold queuedAccess at h
  unfold queuedMeets
  rw [List.any_eq_false] at h ⊢
  intro x hx
  have untouched : x.tids.head? = some i → x.touch = [] := by simpa using h x hx
  by_cases own : x.tids.head? = some i
  · simp [untouched own]
  · simp [own]

theorem lineBusy_plain {s : State} {i : Nat} (h : queuedAccess s i = false) (l : Nat) (write : Bool) :
    lineBusy s i (Place.plain l) write = false := by
  unfold lineBusy
  rw [queuedMeets_of_queuedAccess_false h]
  rfl

/-- The place of a carrel offset, for the party of a lane (R25). -/
theorem placeOf_carrel (s : State) {y : Party} {c ea : Nat} (size : Nat) (acc : Acc) (hc : y.core = some c)
    (hea : ea < carrelBytes) : placeOf s y .carrel ea size acc = .ok (s, Place.plain (carrelLoc c ea)) := by
  unfold placeOf
  simp [hc, Nat.not_le.mpr hea]

/-- The place of an rcarrel address: bits 25:20 number the core within the party's die (R24, R25). -/
theorem placeOf_rcarrel (s : State) (y : Party) {ea : Nat} (size : Nat) (acc : Acc) (hea : ea < 2 ^ 26)
    (hoff : ea % 2 ^ 20 < carrelBytes) : placeOf s y .rcarrel ea size acc =
      .ok (s, Place.plain (carrelLoc (y.die * 64 + ea / 2 ^ 20) (ea % 2 ^ 20))) := by
  have inRange : ¬(2 ^ 26 ≤ ea || carrelBytes ≤ ea % 2 ^ 20) = true := by
    simp only [Bool.or_eq_true, decide_eq_true_eq, not_or, Nat.not_le]
    exact ⟨hea, hoff⟩
  unfold placeOf
  exact if_neg inRange

/-- An aligned access whose place lies outside the global space reaches its cell, in the state it is made in: no translation,
posted write, line event, window or other module comes into it. -/
theorem Reaches.of_plain {s : State} {i : Nat} {space : Space} {ea size : Nat} {acc : Acc} {l : Nat}
    (aligned : ea % size = 0) (noTx : txOf s i = none) (noQueued : queuedAccess s i = false)
    (place : placeOf s (partyOf s i) space ea size acc = .ok (s, Place.plain l)) : Reaches s i space ea size acc l s :=
  ⟨aligned, noTx, s, Place.plain l, place, rfl, rfl, rfl, rfl, lineBusy_plain noQueued l _, rfl⟩

end Sys2Proof.Machine

namespace Sys2Proof

open Sys2Proof.Machine

/-- Settles O27: each of the two names has its place among the cells of a carrel, and such a place is reached. -/
theorem carrelAccesses : Obligations.CarrelAccesses := by
  unfold Obligations.CarrelAccesses
  intro st i ea size acc noTx noQueued _ aligned
  constructor
  · intro hea
    exact .of_plain aligned noTx noQueued (placeOf_carrel st size acc rfl hea)
  · intro hea hoff
    exact .of_plain aligned noTx noQueued (placeOf_rcarrel st (partyOf st i) size acc hea hoff)

end Sys2Proof
end

section
/-! Words and instructions (R65, R85, R86, R88): the opcode point of a word, decoding after encoding, and encoding after
decoding. -/

namespace Sys2Proof

open Sys2Proof.Machine

/-! ### The opcode point of a word -/

/-- What the words of one opcode point decode to, once their operands are known: the class is bits [9:6] of the opcode. -/
def pointOf (opc : BitVec 10) (o : Ops) (w : Code) : Option Instr :=
  let op := (opc.extractLsb' 0 6).toNat
  match (opc.extractLsb' 6 4).toNat with
  | 0 => decodeClass0 op o w
  | 1 => decodeClass1 op o w
  | 2 => decodeClass2 op o w
  | 3 => decodeClass3 op o w
  | 4 => decodeClass4 op o w
  | 5 => decodeClass5 op o w
  | 6 => decodeClass6 op o w
  | 7 => decodeClass7 op o w
  | 8 => decodeClass8 op o w
  | 9 => decodeClass9 op o w
  | 10 => decodeClassA op o w
  | 11 => decodeClassB op o w
  | _ => none

theorem instrOf_eq (w : Code) : instrOf w = (opsOf w).bind fun o => pointOf (w.extractLsb' 86 10) o w := by
  have hop : w.extractLsb' 86 6 = (w.extractLsb' 86 10).extractLsb' 0 6 := (extract_extract w 86 10 0 6 (by decide)).symm
  have hclass : w.extractLsb' 92 4 = (w.extractLsb' 86 10).extractLsb' 6 4 := (extract_extract w 86 10 6 4 (by decide)).symm
  unfold instrOf pointOf
  rw [hop, hclass]
  cases opsOf w <;> rfl

theorem instrOf_wordOf (opc : BitVec 10) (o : Ops) (m : BitVec 36) :
    instrOf (wordOf opc o m) = pointOf opc o (wordOf opc o m) := by
  rw [instrOf_eq, opsOf_wordOf, wordOf_opcode]
  rfl

/-- A word of an assigned point whose fields are those of a well-formed instruction decodes to it (R88, R91). -/
theorem decode_wordOf {opc : BitVec 10} {o : Ops} {m : BitVec 36} {i : Instr} (assigned : opAssigned opc.toNat = true)
    (point : pointOf opc o (wordOf opc o m) = some i) (legal : wf i = true) : decode (wordOf opc o m) = .ok i := by
  unfold decode
  rw [wordOf_opcode, assigned, instrOf_wordOf, point]
  simp [legal]

theorem decode_unassigned {w : Code} (h : opAssigned (w.extractLsb' 86 10).toNat = false) :
    decode w = .ok (.unassignedOpcode w) := by
  unfold decode
  rw [h]
  rfl

/-! ### What tells the instructions of one point apart (R88) -/

theorem lcnt_bit {o : Ops} {m : M3} (legal : okLcnt o m = true) : m.var.getLsbD 2 = false := by
  have : m.var.toNat < 4 := by simp_all [okLcnt]
  rw [← BitVec.testBit_toNat, Nat.testBit_eq_decide_div_mod_eq, decide_eq_false_iff_not]
  omega

theorem lcntSet_bit {o : Ops} {m : M3} (legal : okLcntSet o m = true) : m.var.getLsbD 2 = true := by
  have : m.var.toNat / 4 = 1 := by simp_all [okLcntSet]
  rw [← BitVec.testBit_toNat, Nat.testBit_eq_decide_div_mod_eq, decide_eq_true_eq]
  omega

theorem catsetPub_bit {o : Ops} {m : M6} (legal : okCatsetPub o m = true) : m.var.getLsbD 22 = true := by
  have : m.var.toNat = 2 ^ 22 := by simp_all [okCatsetPub]
  rw [← BitVec.testBit_toNat, Nat.testBit_eq_decide_div_mod_eq, decide_eq_true_eq, this]
  decide

theorem drainVar_mode {m : M6} {k : Nat} (legal : drainVar m k = true) : m.var.toNat / 2 ^ 20 = k := by
  simp_all [drainVar]

/-! ### Decoding after encoding -/

/-- An instruction that its word, if it has one, decodes to. -/
def DecodesBack (i : Instr) : Prop := ∀ w, wf i = true → encode i = some w → decode w = .ok i

theorem DecodesBack.of_noWord {i : Instr} (h : encode i = none) : DecodesBack i := by
  intro w _ he
  rw [h] at he
  cases he

/-- An instruction that `pick` finds at its point by the modifiers' fields; `pick` is its constructor where the point has no
other instruction. -/
theorem DecodesBack.of_pick {M : Type} {fields : Code → Option M} {mods : M → BitVec 36}
    (back : ∀ opc o m, fields (wordOf opc o (mods m)) = some m) {i : Instr} {opc : BitVec 10} {o : Ops} {m : M}
    {pick : M → Instr} (word : encode i = some (wordOf opc o (mods m)))
    (point : ∀ w, pointOf opc o w = (fields w).map pick) (assigned : opAssigned opc.toNat = true)
    (picked : wf i = true → pick m = i) : DecodesBack i := by
  intro w legal he
  obtain rfl := Option.some.inj (word.symm.trans he)
  refine decode_wordOf assigned ?_ legal
  rw [point, back, Option.map_some, picked legal]

/-- MOVI, whose modifiers are one immediate (R85, R86). -/
theorem DecodesBack.movi (o : Ops) (imm : BitVec 36) : DecodesBack (.movi o imm) := by
  intro w legal he
  obtain rfl := Option.some.inj he
  exact decode_wordOf rfl (congrArg (fun x => some (Instr.movi o x)) (wordOf_mods _ o imm)) legal

theorem DecodesBack.unassigned (w : Code) : DecodesBack (.unassignedOpcode w) := by
  intro w' legal he
  obtain rfl := Option.some.inj he
  exact decode_unassigned (by simpa [wf] using legal)

/-- At most points one instruction stands; at the others a field of the modifiers, or operand C of a store, tells which. A
step of the machine itself has no word. -/
theorem decodesBack (i : Instr) : DecodesBack i := by
  cases i with
  | iadd | isub | imul | imulhi | imad | idiv | irem | ineg | iabs | imin | imax | icmp | isel | and | or | xor | andn
  | not | shl | shr | sar | rotl | bfx | bfi | popc | clz | ctz | brev | perm | bset | bclr | btst | lea | mov | hash
  | crc =>
    exact .of_pick fields0_wordOf rfl (fun _ => rfl) rfl fun _ => rfl
  | fadd | fsub | fmul | ffma | fmin | fmax | fabs | fneg | fcmp | fclass | frcp | frsq | fsqrt | fdiv | fexp2 | flog2
  | fsin | fcos | vadd | vsub | vmul | vfma | vmin | vmax | vdot | vsum | vcmp | vsel | xshf | vbcast =>
    exact .of_pick fields1_wordOf rfl (fun _ => rfl) rfl fun _ => rfl
  | cvt | vcvt | deq | pack | unpack | tag | tagq | xvset =>
    exact .of_pick fields2_wordOf rfl (fun _ => rfl) rfl fun _ => rfl
  | bra | brx | call | callx | ret | loop | lexit | exit | yield | ppoint | nop | trap | bkpt =>
    exact .of_pick fields3_wordOf rfl (fun _ => rfl) rfl fun _ => rfl
  | ld | ldv | stv | ldx | stx | ldk | pfetch | fence | promo | cflush =>
    exact .of_pick fields4_wordOf rfl (fun _ => rfl) rfl fun _ => rfl
  | atom | red | cas | bari | bara | barw | nbar | vote | elect | txbeg | txend | txabt | txst =>
    exact .of_pick fields5_wordOf rfl (fun _ => rfl) rfl fun _ => rfl
  | mma | mfolio | mldt | mstt | mzero | mepi | mroute | mslip | catq | catw =>
    exact .of_pick fields6_wordOf rfl (fun _ => rfl) rfl fun _ => rfl
  | mfs | mts | tret | tlbgen | rdcnt | detm | halt | ctxsv | ctxld | cqpub | depset | depq | nvsub | jcard | accq |
  bop | bred | bsort | btopk | skdef | skdel | skstat | skfold | collate | flushp | trimq | clplan | clsend | bwset |
  rcpace | axpush | axreap | axfence =>
    exact .of_pick fields7_wordOf rfl (fun _ => rfl) rfl fun _ => rfl
  | movi o imm => exact .movi o imm
  | unassignedOpcode w => exact .unassigned w
  | quantScale | quantCodes =>
    exact .of_pick fields2_wordOf rfl (fun _ => rfl) rfl fun legal => by simp_all [wf, okQuantScale, okQuantCodes]
  | lcnt => exact .of_pick fields3_wordOf rfl (fun _ => rfl) rfl fun legal => by simp only [lcnt_bit legal]; rfl
  | lcntSet => exact .of_pick fields3_wordOf rfl (fun _ => rfl) rfl fun legal => by simp only [lcntSet_bit legal]; rfl
  | waitAcc | waitDep | waitNbar =>
    exact .of_pick fields3_wordOf rfl (fun _ => rfl) rfl fun legal => by
      simp_all [wf, okWaitAcc, okWaitDep, okWaitNbar]
  | st | stWide =>
    exact .of_pick fields4_wordOf rfl (fun _ => rfl) rfl fun legal => by simp_all [wf, okSt, okStWide]
  | mdrainSt | mdrainAdd | mdrainRoute | mdrainCat | mdrainFree =>
    refine .of_pick fields6_wordOf rfl (fun _ => rfl) rfl fun legal => ?_
    simp only [wf, okMdrainSt, okMdrainAdd, okMdrainRoute, okMdrainCat, okMdrainFree, Bool.and_eq_true] at legal
    obtain ⟨⟨-, mode⟩, -⟩ := legal
    simp only [drainVar_mode mode]
    rfl
  | catsetDef =>
    exact .of_pick fields6_wordOf rfl (fun _ => rfl) rfl fun legal => by simp_all [wf, okCatsetDef]
  | catsetPub => exact .of_pick fields6_wordOf rfl (fun _ => rfl) rfl fun legal => by simp only [catsetPub_bit legal]; rfl
  | nvreapReq | nvreapCard | skseal | sksealOpen | skclr | skclrFree =>
    exact .of_pick fields7_wordOf rfl (fun _ => rfl) rfl fun legal => by
      simp_all [wf, okNvreapReq, okNvreapCard, okSkseal, okSksealOpen, okSkclr, okSkclrFree]
  | _ => exact .of_noWord rfl

/-! ### Encoding after decoding: the codes -/

theorem fmtCode_fmtOf {c : BitVec 6} {t : Fmt} (h : fmtOf c = some t) : fmtCode t = c := by
  have all : ∀ c : BitVec 6, (fmtOf c).all (fun t => fmtCode t == c) = true := by decide
  simpa [h] using all c

theorem rndCode_rndOf {c : BitVec 3} {r : Rnd} (h : rndOf c = some r) : rndCode r = c := by
  have all : ∀ c : BitVec 3, (rndOf c).all (fun r => rndCode r == c) = true := by decide
  simpa [h] using all c

theorem scopeCode_scopeOf {c : BitVec 3} {x : Scope} (h : scopeOf c = some x) : scopeCode x = c := by
  have all : ∀ c : BitVec 3, (scopeOf c).all (fun x => scopeCode x == c) = true := by decide
  simpa [h] using all c

theorem spaceCode_spaceOf {c : BitVec 3} {x : Space} (h : spaceOf c = some x) : spaceCode x = c := by
  have all : ∀ c : BitVec 3, (spaceOf c).all (fun x => spaceCode x == c) = true := by decide
  simpa [h] using all c

theorem ordCode_ordOf (c : BitVec 2) : ordCode (ordOf c) = c := by
  revert c
  decide

theorem regCode_regOf {c : BitVec 8} {r : Reg} (h : regOf c = some r) : regCode r = c := by
  have all : ∀ c : BitVec 8, (regOf c).all (fun r => regCode r == c) = true := by decide +kernel
  simpa [h] using all c

/-- A bit as the field of one bit that it is. -/
theorem bitOf_extract {n : Nat} (x : BitVec n) (i : Nat) : bitOf (x.getLsbD i) = x.extractLsb' i 1 := by
  rw [getLsbD_extract]
  generalize x.extractLsb' i 1 = b
  revert b
  decide

theorem srcCode_srcOf {c : BitVec 9} {x : Src} (h : srcOf c = some x) : srcCode x = c := by
  have all : ∀ c : BitVec 9, (srcOf c).all (fun x => srcCode x == c) = true := by decide +kernel
  simpa [h] using all c

theorem dstCode_dstOf {c : BitVec 9} {d : Dst} (h : dstOf (c.getLsbD 0) (c.extractLsb' 1 8) = some d) : dstCode d = c := by
  have all : ∀ c : BitVec 9, (dstOf (c.getLsbD 0) (c.extractLsb' 1 8)).all (fun d => dstCode d == c) = true := by
    decide +kernel
  have at_c := all c
  rw [h] at at_c
  simpa using at_c

/-! ### The words: operands and modifiers (R65, R85, R86) -/

/-- Two fields side by side are one field. -/
theorem extract_join {n : Nat} (x : BitVec n) (i j k l : Nat) (h : j = i + k := by rfl) :
    x.extractLsb' j l ++ x.extractLsb' i k = x.extractLsb' i (l + k) :=
  BitVec.extractLsb'_append_extractLsb'_eq_extractLsb' h

/-- A word is that of its opcode, its operands and its modifiers. -/
theorem wordOf_opsOf {w : Code} {o : Ops} (h : opsOf w = some o) :
    wordOf (w.extractLsb' 86 10) o (w.extractLsb' 0 36) = w := by
  unfold opsOf at h
  split at h
  case h_2 => cases h
  case h_1 d a b c hd ha hb hc =>
    cases h
    have hd' : dstCode d = w.extractLsb' 63 9 := by
      refine dstCode_dstOf ?_
      rw [getLsbD_extract, extract_extract w 63 9 0 1 (by decide), extract_extract w 63 9 1 8 (by decide),
        ← getLsbD_extract]
      exact hd
    unfold wordOf
    simp only [hd', srcCode_srcOf ha, srcCode_srcOf hb, srcCode_srcOf hc, bitOf_extract]
    rw [extract_join w 79 86 7 10, extract_join w 73 79 6 17, extract_join w 72 73 1 23, extract_join w 63 72 9 24,
      extract_join w 54 63 9 33, extract_join w 45 54 9 42, extract_join w 36 45 9 51, extract_join w 0 36 36 60]
    exact extract_whole w

/-- The immediate of class 0x0 and its bit I; with I clear the field is zero (R86). -/
theorem mods0_fields0 {w : Code} {m : M0} (h : fields0 w = some m) : mods0 m = w.extractLsb' 0 36 := by
  unfold fields0 at h
  split at h
  case h_2 => cases h
  case h_1 ty hty =>
    split at h
    case isTrue => cases h
    case isFalse legal =>
      cases h
      have imm : (match if w.getLsbD 23 = true then some (w.extractLsb' 0 23) else none with
          | none => (0 : BitVec 24)
          | some v => (1 : BitVec 1) ++ v) = w.extractLsb' 0 24 := by
        have join := extract_join w 0 23 23 1
        rw [← bitOf_extract] at join
        rw [← join]
        cases hi : w.getLsbD 23 with
        | true => rfl
        | false =>
          have zero : w.extractLsb' 0 23 = 0 := by
            rw [hi] at legal
            simpa using legal
          rw [zero]
          rfl
      have fields : mods0 ⟨ty, w.extractLsb' 25 5, w.getLsbD 24, if w.getLsbD 23 = true then some (w.extractLsb' 0 23) else none⟩ =
          fmtCode ty ++ w.extractLsb' 25 5 ++ bitOf (w.getLsbD 24) ++ w.extractLsb' 0 24 := by
        rw [← imm]
        rfl
      rw [fields, fmtCode_fmtOf hty, bitOf_extract, extract_join w 25 30 5 6, extract_join w 24 25 1 11,
        extract_join w 0 24 24 12]

theorem mods1_fields1 {w : Code} {m : M1} (h : fields1 w = some m) : mods1 m = w.extractLsb' 0 36 := by
  unfold fields1 at h
  split at h
  case h_2 => cases h
  case h_1 hty hrnd =>
    cases h
    simp only [mods1, fmtCode_fmtOf hty, rndCode_rndOf hrnd, bitOf_extract]
    rw [extract_join w 27 30 3 6, extract_join w 26 27 1 9, extract_join w 21 26 5 10, extract_join w 0 21 21 15]

theorem mods2_fields2 {w : Code} {m : M2} (h : fields2 w = some m) : mods2 m = w.extractLsb' 0 36 := by
  unfold fields2 at h
  split at h
  case h_2 => cases h
  case h_1 hdt hst hrnd =>
    cases h
    simp only [mods2, fmtCode_fmtOf hdt, fmtCode_fmtOf hst, rndCode_rndOf hrnd, bitOf_extract]
    rw [extract_join w 24 30 6 6, extract_join w 21 24 3 12, extract_join w 20 21 1 15, extract_join w 17 20 3 16,
      extract_join w 0 17 17 19]

/-- Bit 24 of classes 0x3 and 0x7 to 0xB, which is reserved, as a field. -/
theorem extract_reserved {w : Code} (h : ¬w.getLsbD 24 = true) : (0 : BitVec 1) = w.extractLsb' 24 1 := by
  rw [← bitOf_extract, (Bool.not_eq_true _).mp h]
  rfl

theorem mods3_fields3 {w : Code} {m : M3} (h : fields3 w = some m) : mods3 m = w.extractLsb' 0 36 := by
  unfold fields3 at h
  split at h
  case h_2 => cases h
  case h_1 hscope =>
    split at h
    case isTrue => cases h
    case isFalse reserved =>
      cases h
      simp only [mods3, ordCode_ordOf, scopeCode_scopeOf hscope, extract_reserved reserved]
      rw [extract_join w 28 30 2 6, extract_join w 25 28 3 8, extract_join w 24 25 1 11, extract_join w 0 24 24 12]

theorem mods4_fields4 {w : Code} {m : M4} (h : fields4 w = some m) : mods4 m = w.extractLsb' 0 36 := by
  unfold fields4 at h
  split at h
  case h_2 => cases h
  case h_1 hty hscope hspace =>
    cases h
    simp only [mods4, fmtCode_fmtOf hty, ordCode_ordOf, scopeCode_scopeOf hscope, spaceCode_spaceOf hspace]
    rw [extract_join w 28 30 2 6, extract_join w 25 28 3 8, extract_join w 22 25 3 11, extract_join w 0 22 22 14]

theorem mods5_fields5 {w : Code} {m : M5} (h : fields5 w = some m) : mods5 m = w.extractLsb' 0 36 := by
  unfold fields5 at h
  split at h
  case h_2 => cases h
  case h_1 hty hscope hspace =>
    cases h
    simp only [mods5, fmtCode_fmtOf hty, ordCode_ordOf, scopeCode_scopeOf hscope, spaceCode_spaceOf hspace]
    rw [extract_join w 28 30 2 6, extract_join w 25 28 3 8, extract_join w 22 25 3 11, extract_join w 17 22 5 14,
      extract_join w 0 17 17 19]

theorem mods6_fields6 {w : Code} {m : M6} (h : fields6 w = some m) : mods6 m = w.extractLsb' 0 36 := by
  unfold fields6 at h
  split at h
  case h_2 => cases h
  case h_1 hta htb =>
    cases h
    simp only [mods6, fmtCode_fmtOf hta, fmtCode_fmtOf htb, bitOf_extract]
    rw [extract_join w 24 30 6 6, extract_join w 23 24 1 12, extract_join w 0 23 23 13]

theorem mods7_fields7 {w : Code} {m : M7} (h : fields7 w = some m) : mods7 m = w.extractLsb' 0 36 := by
  unfold fields7 at h
  split at h
  case h_2 => cases h
  case h_1 hscope =>
    split at h
    case isTrue => cases h
    case isFalse reserved =>
      cases h
      simp only [mods7, ordCode_ordOf, scopeCode_scopeOf hscope, extract_reserved reserved]
      rw [extract_join w 28 30 2 6, extract_join w 25 28 3 8, extract_join w 24 25 1 11, extract_join w 0 24 24 12]

/-! ### Encoding after decoding: the points (R88) -/

/-- An instruction that a word's fields hold has that word, where the point's instructions have the words of their fields. -/
theorem encode_of_fields {M : Type} {fields : Code → Option M} {mods : M → BitVec 36}
    (back : ∀ {w m}, fields w = some m → mods m = w.extractLsb' 0 36) {opc : BitVec 10} {o : Ops} {w : Code} {i : Instr}
    {pick : M → Instr} (hw : wordOf opc o (w.extractLsb' 0 36) = w) (h : (fields w).map pick = some i)
    (word : ∀ m, encode (pick m) = some (wordOf opc o (mods m))) : encode i = some w := by
  obtain ⟨m, hm, rfl⟩ := Option.map_eq_some_iff.mp h
  rw [word, back hm, hw]

/-- Two instructions of one word. -/
theorem encode_ite {c : Prop} [Decidable c] {i j : Instr} {w : Code} (hi : encode i = some w) (hj : encode j = some w) :
    encode (if c then i else j) = some w := by
  split
  · exact hi
  · exact hj

section Classes
variable {op : Nat} {o : Ops} {w : Code} {i : Instr}

theorem encode_decodeClass0 (hw : wordOf (BitVec.ofNat 10 (0x000 + op)) o (w.extractLsb' 0 36) = w)
    (h : decodeClass0 op o w = some i) : encode i = some w := by
  unfold decodeClass0 at h
  split at h
  case h_35 =>
    cases h
    exact congrArg some hw
  case h_38 => cases h
  all_goals exact encode_of_fields mods0_fields0 hw h fun _ => rfl

theorem encode_decodeClass1 (hw : wordOf (BitVec.ofNat 10 (0x040 + op)) o (w.extractLsb' 0 36) = w)
    (h : decodeClass1 op o w = some i) : encode i = some w := by
  unfold decodeClass1 at h
  split at h
  case h_31 => cases h
  all_goals exact encode_of_fields mods1_fields1 hw h fun _ => rfl

theorem encode_decodeClass2 (hw : wordOf (BitVec.ofNat 10 (0x080 + op)) o (w.extractLsb' 0 36) = w)
    (h : decodeClass2 op o w = some i) : encode i = some w := by
  unfold decodeClass2 at h
  split at h
  case h_3 => exact encode_of_fields mods2_fields2 hw h fun _ => encode_ite rfl rfl
  case h_10 => cases h
  all_goals exact encode_of_fields mods2_fields2 hw h fun _ => rfl

theorem encode_decodeClass3 (hw : wordOf (BitVec.ofNat 10 (0x0C0 + op)) o (w.extractLsb' 0 36) = w)
    (h : decodeClass3 op o w = some i) : encode i = some w := by
  unfold decodeClass3 at h
  split at h
  case h_8 => exact encode_of_fields mods3_fields3 hw h fun _ => encode_ite rfl rfl
  case h_10 => exact encode_of_fields mods3_fields3 hw h fun _ => encode_ite rfl (encode_ite rfl rfl)
  case h_16 => cases h
  all_goals exact encode_of_fields mods3_fields3 hw h fun _ => rfl

theorem encode_decodeClass4 (hw : wordOf (BitVec.ofNat 10 (0x100 + op)) o (w.extractLsb' 0 36) = w)
    (h : decodeClass4 op o w = some i) : encode i = some w := by
  unfold decodeClass4 at h
  split at h
  case h_2 => exact encode_of_fields mods4_fields4 hw h fun _ => encode_ite rfl rfl
  case h_12 => cases h
  all_goals exact encode_of_fields mods4_fields4 hw h fun _ => rfl

theorem encode_decodeClass5 (hw : wordOf (BitVec.ofNat 10 (0x140 + op)) o (w.extractLsb' 0 36) = w)
    (h : decodeClass5 op o w = some i) : encode i = some w := by
  unfold decodeClass5 at h
  split at h
  case h_14 => cases h
  all_goals exact encode_of_fields mods5_fields5 hw h fun _ => rfl

theorem encode_decodeClass6 (hw : wordOf (BitVec.ofNat 10 (0x180 + op)) o (w.extractLsb' 0 36) = w)
    (h : decodeClass6 op o w = some i) : encode i = some w := by
  unfold decodeClass6 at h
  split at h
  case h_6 => exact encode_of_fields mods6_fields6 hw h fun _ =>
      encode_ite rfl (encode_ite rfl (encode_ite rfl (encode_ite rfl rfl)))
  case h_12 => exact encode_of_fields mods6_fields6 hw h fun _ => encode_ite rfl rfl
  case h_13 => cases h
  all_goals exact encode_of_fields mods6_fields6 hw h fun _ => rfl

theorem encode_decodeClass7 (hw : wordOf (BitVec.ofNat 10 (0x1C0 + op)) o (w.extractLsb' 0 36) = w)
    (h : decodeClass7 op o w = some i) : encode i = some w := by
  unfold decodeClass7 at h
  split at h
  case h_5 => exact encode_of_fields mods7_fields7 hw h fun _ => encode_ite rfl rfl
  case h_8 => cases h
  all_goals exact encode_of_fields mods7_fields7 hw h fun _ => rfl

theorem encode_decodeClass8 (hw : wordOf (BitVec.ofNat 10 (0x200 + op)) o (w.extractLsb' 0 36) = w)
    (h : decodeClass8 op o w = some i) : encode i = some w := by
  unfold decodeClass8 at h
  split at h
  case h_9 | h_10 => exact encode_of_fields mods7_fields7 hw h fun _ => encode_ite rfl rfl
  case h_12 => cases h
  all_goals exact encode_of_fields mods7_fields7 hw h fun _ => rfl

theorem encode_decodeClass9 (hw : wordOf (BitVec.ofNat 10 (0x240 + op)) o (w.extractLsb' 0 36) = w)
    (h : decodeClass9 op o w = some i) : encode i = some w := by
  unfold decodeClass9 at h
  split at h
  case h_7 => cases h
  all_goals exact encode_of_fields mods7_fields7 hw h fun _ => rfl

theorem encode_decodeClassA (hw : wordOf (BitVec.ofNat 10 (0x280 + op)) o (w.extractLsb' 0 36) = w)
    (h : decodeClassA op o w = some i) : encode i = some w := by
  unfold decodeClassA at h
  split at h
  case h_4 => cases h
  all_goals exact encode_of_fields mods7_fields7 hw h fun _ => rfl

theorem encode_decodeClassB (hw : wordOf (BitVec.ofNat 10 (0x2C0 + op)) o (w.extractLsb' 0 36) = w)
    (h : decodeClassB op o w = some i) : encode i = some w := by
  unfold decodeClassB at h
  split at h
  case h_10 => cases h
  all_goals exact encode_of_fields mods7_fields7 hw h fun _ => rfl

end Classes

/-- An opcode from its class and its number in the class (R65). -/
theorem opcode_eq (opc : BitVec 10) :
    opc = BitVec.ofNat 10 (64 * (opc.extractLsb' 6 4).toNat + (opc.extractLsb' 0 6).toNat) := by
  apply BitVec.eq_of_toNat_eq
  have := opc.isLt
  simp only [BitVec.extractLsb'_toNat, BitVec.toNat_ofNat, Nat.shiftRight_eq_div_pow]
  omega

/-- An instruction that the fields of a word hold has that word. -/
theorem encode_instrOf {w : Code} {i : Instr} (h : instrOf w = some i) : encode i = some w := by
  rw [instrOf_eq] at h
  obtain ⟨o, ho, hpoint⟩ := Option.bind_eq_some_iff.mp h
  have hw := wordOf_opsOf ho
  rw [opcode_eq (w.extractLsb' 86 10)] at hw
  unfold pointOf at hpoint
  dsimp only at hpoint
  split at hpoint
  case h_1 hc => exact encode_decodeClass0 (by rwa [hc] at hw) hpoint
  case h_2 hc => exact encode_decodeClass1 (by rwa [hc] at hw) hpoint
  case h_3 hc => exact encode_decodeClass2 (by rwa [hc] at hw) hpoint
  case h_4 hc => exact encode_decodeClass3 (by rwa [hc] at hw) hpoint
  case h_5 hc => exact encode_decodeClass4 (by rwa [hc] at hw) hpoint
  case h_6 hc => exact encode_decodeClass5 (by rwa [hc] at hw) hpoint
  case h_7 hc => exact encode_decodeClass6 (by rwa [hc] at hw) hpoint
  case h_8 hc => exact encode_decodeClass7 (by rwa [hc] at hw) hpoint
  case h_9 hc => exact encode_decodeClass8 (by rwa [hc] at hw) hpoint
  case h_10 hc => exact encode_decodeClass9 (by rwa [hc] at hw) hpoint
  case h_11 hc => exact encode_decodeClassA (by rwa [hc] at hw) hpoint
  case h_12 hc => exact encode_decodeClassB (by rwa [hc] at hw) hpoint
  case h_13 => cases hpoint

/-- What a word may decode to (R88, R91). -/
theorem decode_ok {w : Code} {i : Instr} (h : decode w = .ok i) :
    (opAssigned (w.extractLsb' 86 10).toNat = false ∧ i = .unassignedOpcode w) ∨
      (opAssigned (w.extractLsb' 86 10).toNat = true ∧ instrOf w = some i ∧ wf i = true) := by
  cases assigned : opAssigned (w.extractLsb' 86 10).toNat with
  | false =>
    rw [decode_unassigned assigned] at h
    cases h
    exact .inl ⟨rfl, rfl⟩
  | true =>
    unfold decode at h
    rw [assigned] at h
    cases held : instrOf w with
    | none => simp [held] at h
    | some j =>
      by_cases legal : wf j = true
      · obtain rfl : j = i := by simpa [held, legal] using h
        exact .inr ⟨rfl, rfl, legal⟩
      · simp [held, legal] at h

/-! ### The statements -/

/-- Settles O3, by cases on the constructor: the fields of an instruction's word are the instruction's. -/
theorem encodeThenDecode : Obligations.EncodeThenDecode := by
  unfold Obligations.EncodeThenDecode
  exact fun i w legal word => decodesBack i w legal word

/-- Settles O4, by cases on the class and the number of the opcode: the fields that a word decodes to make the word up. -/
theorem decodeThenEncode : Obligations.DecodeThenEncode := by
  unfold Obligations.DecodeThenEncode
  intro w
  constructor
  · intro i hd
    rcases decode_ok hd with ⟨unassigned, rfl⟩ | ⟨-, held, legal⟩
    · exact ⟨rfl, by simp only [wf, unassigned, Bool.not_false]⟩
    · exact ⟨encode_instrOf held, legal⟩
  · intro i other unassigned hd
    rw [decode_unassigned unassigned] at hd
    exact other (Except.ok.inj hd).symm

/-- Settles O2, by evaluation of the decoder. -/
theorem decodeWords : Obligations.DecodeWords := by
  unfold Obligations.DecodeWords
  decide +kernel

end Sys2Proof
end

section
/-! Privileged instructions (R89): one law for all that are outside transactions and check their thread's context first. -/

namespace Sys2Proof.Machine

theorem outsideTx_of_none {s : State} {i : Nat} (h : txOf s i = none) (r : LaneRes) : outsideTx s i r = r := by
  simp [outsideTx, h]

theorem privileged_of_not {s : State} {i : Nat} (h : privOf s i = false) (r : LaneRes) :
    privileged s i r = .trap (trapOf cProtection none) := by
  simp [privileged, h]

/-- An instruction whose every thread first asks for the grant, when no thread of it has the grant: whatever the instruction
would do (`inner`), each thread whose guard is true traps. -/
theorem privileged_traps {i : Instr} {s : State} {o : Ops} {needs : List (Src × Need)} {inner : State → State → Nat → LaneRes}
    (he : exec i s = laneOp o needs (fun s0 st j => outsideTx st j (privileged st j (inner s0 st j))) s) (hs : Ready s)
    (ungranted : ∀ j ∈ gathering s, guardTrue (thr s j) o.gd = true → privOf s j = false ∧ txOf s j = none ∧ Vectored s j)
    (readable : Readable s o needs) :
    Traps i s (fun j => guardTrue (thr s j) o.gd) cProtection none (fun _ => none) (fun j => (thr s j).pc) false := by
  refine laneOp_traps (info := fun _ => trapOf cProtection none) he hs (fun j hj => (readable j hj).1)
    (fun j hj hgd => (ungranted j hj hgd).2.2) (fun j hj hgd => ?_) (fun j _ _ => ⟨rfl, rfl, rfl, rfl, rfl, rfl, rfl⟩)
  obtain ⟨noGrant, noTx, -⟩ := ungranted j hj hgd
  exact .inr ⟨(readable j hj).2 hgd, _, (outsideTx_of_none noTx _).trans (privileged_of_not noGrant _), rfl⟩

/-- MTS of TRIM_BASE is privileged (R232). -/
theorem exec_mts_trimBase {s : State} {o : Ops} {m : M7} (h : m.low.toNat / 2 ^ 12 % 2 ^ 12 = 0x031) :
    exec (.mts o m) s = laneOp o [(o.a, .word)] (fun _ st j => outsideTx st j (privileged st j
      (.done (writeSys st j (selOf m) (srcN (thr st j) o.a))))) s := by
  have sel : selOf m = 0x031 := h
  show execMts o m s = _
  unfold execMts
  simp only [sel, BEq.rfl, if_true]

end Sys2Proof.Machine

namespace Sys2Proof

open Sys2Proof.Machine

/-- Settles O25: each of the seven asks for the grant before anything else. -/
theorem privilegedInstructionsTrap : Obligations.PrivilegedInstructionsTrap := by
  unfold Obligations.PrivilegedInstructionsTrap
  intro s o m hs ungranted
  refine ⟨fun trimBase => ?_, ?_, ?_, ?_, ?_, ?_, ?_⟩
  · exact privileged_traps (exec_mts_trimBase trimBase) hs ungranted
  all_goals exact privileged_traps rfl hs ungranted

end Sys2Proof
end

section
/-! A unit of one instruction that completes for every thread of its gathering, latches, RETIRED and group switch included (R15,
R73, R134, R234): the law that `Completes` states up to latches, in full. -/

namespace Sys2Proof.Machine

/-! ### The threads' parts -/

/-- An issue so far whose every thread goes on to the next slot. -/
def goingOn (st : State) : Issued :=
  { st, traps := [], jumps := [], waits := [], hold := none, stall := none, switch := false }

/-- A thread's part that lets the thread go on to the next slot, outside the end of a loop's body. -/
structure GoesOn (t t' : Thread) : Prop where
  runs : t'.moved = false ∧ t'.exited = false
  noPend : t'.pend = []
  noEnd : ∀ l rest, t'.nest = l :: rest → l.stop ≠ t.pc

theorem Clear.goesOn {t : Thread} (h : Clear t) : GoesOn t t :=
  ⟨⟨h.runs.1, h.runs.2.1⟩, h.noPend, h.noEnd⟩

theorem lanePart_goingOn {s st st' : State} {o : Ops} {needs : List (Src × Need)} {body : State → State → Nat → LaneRes}
    {i : Nat} (hs : Ready s) (hi : i ∈ gathering s) (same : thr st i = thr s i) (alone : st.issue.member = .single)
    (readable : guardTrue (thr s i) o.gd = true → operandTrap (thr s i) needs = none)
    (done : guardTrue (thr s i) o.gd = true → body s st i = .done st')
    (on : guardTrue (thr s i) o.gd = true → GoesOn (thr s i) (thr st' i)) :
    lanePart s o (fun _ _ => needs) body (goingOn st) i = goingOn (if guardTrue (thr s i) o.gd then st' else st) := by
  have clear := hs.clear i hi
  have ecc : ∀ x, srcEcc (thr s i) x = none := by
    intro x
    cases x <;> simp [srcEcc, clear.noEcc.1, clear.noEcc.2]
  have noHit : eccHit (thr s i) o = none := by simp [eccHit, ecc]
  unfold lanePart goingOn
  by_cases hgd : guardTrue (thr s i) o.gd = true
  · have fine := on hgd
    have ends := loopEnd_noEnd (next := nextSlot (insPc s i)) fine.noEnd
    simp [same, clear.runs.1, hgd, readable hgd, done hgd, noHit, alone, unitPcs, hs.alone, fine.runs.1, fine.runs.2, ends]
  · simp only [Bool.not_eq_true] at hgd
    have ends := loopEnd_noEnd (st := st) (i := i) (pc := (thr s i).pc) (next := nextSlot (insPc s i))
      (by rw [same]; exact clear.noEnd)
    simp [same, clear.runs.1, clear.runs.2.1, hgd, ecc, alone, unitPcs, hs.alone, ends]

/-- `body` completes each thread whose guard is true by `part`, which changes no other thread and not the issue, and lets its
thread go on. -/
structure DoneBy (s : State) (gd : Guard) (body : State → State → Nat → LaneRes) (part : State → Nat → State) : Prop where
  others : ∀ st i j, j ≠ i → thr (part st i) j = thr st j
  issue : ∀ st i, (part st i).issue = st.issue
  done : ∀ st i, i ∈ gathering s → thr st i = thr s i → guardTrue (thr s i) gd = true → body s st i = .done (part st i)
  on : ∀ st i, i ∈ gathering s → thr st i = thr s i → guardTrue (thr s i) gd = true → GoesOn (thr s i) (thr (part st i) i)

section DoneBy
variable {s : State} {gd : Guard} {body : State → State → Nat → LaneRes} {part : State → Nat → State}

theorem DoneBy.ownThread (h : DoneBy s gd body part) : Local s gd part := fun _ i _ _ _ j hj => h.others _ i j hj

/-- A thread at its turn is as it was before the first. -/
theorem DoneBy.atTurn (h : DoneBy s gd body part) (once : (gathering s).Nodup) {before after : List Nat} {i : Nat}
    (hg : gathering s = before ++ i :: after) : thr (turns s gd part before) i = thr s i := by
  refine thr_turns_out s gd part h.ownThread before _ hg i fun hi => ?_
  rw [hg] at once
  exact (List.nodup_append.mp once).2.2 i hi i (List.mem_cons_self ..) rfl

/-- A thread after all turns goes on. -/
theorem DoneBy.goesOn (h : DoneBy s gd body part) (hs : Ready s) {i : Nat} (hi : i ∈ gathering s) :
    GoesOn (thr s i) (thr (turns s gd part (gathering s)) i) := by
  obtain ⟨before, after, hg⟩ := List.append_of_mem hi
  rw [thr_turns_in s gd part h.ownThread hs.once hg]
  split
  · next hgd => exact h.on _ i hi (h.atTurn hs.once hg) hgd
  · exact (hs.clear i hi).goesOn

end DoneBy

/-- The parts of the threads of a gathering, one after the other. -/
theorem foldl_lanePart_goingOn {s : State} {o : Ops} {needs : List (Src × Need)} {body : State → State → Nat → LaneRes}
    {part : State → Nat → State} (hs : Ready s) (hr : Readable s o needs) (h : DoneBy s o.gd body part)
    (g rest : List Nat) (hg : gathering s = g ++ rest) :
    g.foldl (lanePart s o (fun _ _ => needs) body) (goingOn s) = goingOn (turns s o.gd part g) ∧
      (turns s o.gd part g).issue = s.issue := by
  induction g using List.reverseRecOn generalizing rest with
  | nil => exact ⟨rfl, rfl⟩
  | append_singleton xs i ih =>
    have hg' : gathering s = xs ++ i :: rest := by simp [hg]
    obtain ⟨parts, issue⟩ := ih (i :: rest) hg'
    have hi : i ∈ gathering s := by simp [hg']
    have same := h.atTurn hs.once hg'
    rw [List.foldl_append, parts, turns_snoc]
    refine ⟨lanePart_goingOn hs hi same (issue ▸ hs.alone) (hr i hi).2 (h.done _ i hi same) (h.on _ i hi same), ?_⟩
    split
    · rw [h.issue, issue]
    · exact issue

/-! ### The end of the unit -/

/-- Every thread of a gathering at its next slot. -/
def nextSlots (s st : State) : State :=
  changeAll (fun _ => true) (fun i t => { t with pc := nextSlot (thr s i).pc }) st (gathering s)

theorem thr_nextSlots {s : State} (st : State) (hs : Ready s) {j : Nat} (hj : j ∈ gathering s) :
    thr (nextSlots s st) j = { thr st j with pc := nextSlot (thr s j).pc } := by
  unfold nextSlots
  rw [thr_changeAll_in _ _ _ _ hs.once hj]
  rfl

theorem nextSlots_frame (s st : State) : nextSlots s st = { st with threads := (nextSlots s st).threads } :=
  changeAll_frame ..

/-- The issue data between units. -/
def noIssue : Issue := { member := .single, traps := [], stall := false, hold := none }

/-- The threads that stay in their gathering. -/
def remaining (s : State) (g : List Nat) : List Nat :=
  g.filter fun i => !(thr s i).exited && (thr s i).wait.isNone && (wgOf s (tidWg i)).st == .running

/-- Whether the gathering stands at the last slot of its line (R73). -/
def atLineEnd (s : State) : Bool :=
  match gathering s with
  | [] => false
  | i :: _ => slotOf (thr s i).pc == 4

/-- A unit of one instruction whose every thread has gone on to `u`: it counts as one, and its gathering is switched at the end
of a line, or when nobody stays in it. -/
def ended (s u : State) : State :=
  let u1 := retire u s.cur (gathering s) 1
  settle { u1 with issue := noIssue } s.cur (gathering s) (remaining u1 (gathering s))
    (atLineEnd s || (remaining u1 (gathering s)).isEmpty)

theorem advance_goesOn {s st : State} {i : Nat} (hs : Ready s) (on : GoesOn (thr s i) (thr st i)) :
    advance st i (unitPcs s i) (nextSlot (insPc s i)) = (modThr st i fun t => { t with pc := nextSlot (thr s i).pc }, false) := by
  unfold advance
  simp only [unitPcs, insPc, hs.alone]
  rw [loopEnd_noEnd on.noEnd]
  simp [modThr]

theorem foldl_advance {s b : State} (f : State × Bool → Nat → State × Bool) (F : Nat → Thread → Thread)
    (each : ∀ st i, i ∈ gathering s → thr st i = thr b i → f (st, false) i = (modThr st i (F i), false)) :
    ∀ g ⊆ gathering s, g.Nodup → ∀ st : State, (∀ i ∈ g, thr st i = thr b i) →
      g.foldl f (st, false) = (changeAll (fun _ => true) F st g, false) := by
  intro g
  induction g with
  | nil => intros; rfl
  | cons i rest ih =>
    intro hg hn st same
    rw [List.foldl_cons, each st i (hg (List.mem_cons_self ..)) (same i (List.mem_cons_self ..))]
    refine ih (fun x hx => hg (List.mem_cons_of_mem _ hx)) (List.nodup_cons.mp hn).2 _ fun j hj => ?_
    have other : i ≠ j := fun e => (List.nodup_cons.mp hn).1 (e ▸ hj)
    rw [thr_modThr, if_neg other]
    exact same j (List.mem_cons_of_mem _ hj)

/-- A fold whose every step leaves the state alone. -/
theorem foldl_still {f : State → Nat → State} {st : State} : ∀ g : List Nat, (∀ i ∈ g, f st i = st) → g.foldl f st = st := by
  intro g
  induction g with
  | nil => intro _; rfl
  | cons i rest ih =>
    intro still
    rw [List.foldl_cons, still i (List.mem_cons_self ..)]
    exact ih fun x hx => still x (List.mem_cons_of_mem _ hx)

theorem finishUnit_goingOn {s st : State} (hs : Ready s) (on : ∀ i ∈ gathering s, GoesOn (thr s i) (thr st i)) :
    finishUnit s (goingOn st) 1 = ended s (nextSlots s st) := by
  have advanced : ∀ f : State × Bool → Nat → State × Bool,
      (∀ acc i, i ∈ gathering s → thr acc i = thr st i →
        f (acc, false) i = (modThr acc i fun t => { t with pc := nextSlot (thr s i).pc }, false)) →
      (gathering s).foldl f (st, false) = (nextSlots s st, false) :=
    fun f each => foldl_advance f _ each _ (fun _ h => h) hs.once st fun _ _ => rfl
  have after : ∀ i ∈ gathering s, (thr (nextSlots s st) i).moved = false ∧ (thr (nextSlots s st) i).pend = [] := by
    intro i hi
    rw [thr_nextSlots st hs hi]
    exact ⟨(on i hi).runs.1, (on i hi).noPend⟩
  have everyone : (gathering s).filter (fun i => !(([] : List (Nat × TrapInfo)).any fun x => x.1 == i)) = gathering s := by simp
  unfold finishUnit goingOn
  simp only [hs.fresh.1, hs.fresh.2, hs.group, List.append_nil, everyone]
  rw [advanced _ (by
    intro acc i hi same
    have fine := on i hi
    rw [← same] at fine
    simp only [fine.runs.1, fine.runs.2, Bool.false_eq_true, if_false, List.find?_nil, advance_goesOn hs fine, Bool.or_false])]
  rw [List.foldl_nil, foldl_still _ fun i hi => by simp [after i hi]]
  unfold ended atLineEnd remaining
  simp only [insPc, hs.alone]
  rfl

/-- An instruction of the lane engine that every thread of a gathering completes, going on to its next slot: the state it leaves. -/
theorem laneOp_ended {s : State} {o : Ops} {needs : List (Src × Need)} {body : State → State → Nat → LaneRes}
    {part : State → Nat → State} (hs : Ready s) (hr : Readable s o needs) (h : DoneBy s o.gd body part) :
    laneOp o needs body s = .next (ended s (nextSlots s (turns s o.gd part (gathering s)))) := by
  have everyone : (gathering s).filter (fun i => !(s.issue.traps.any fun x => x.1 == i)) = gathering s := by
    simp [hs.fresh.1]
  have inBudget : ((gathering s).any fun i => opsBeyond (wgOf s (tidWg i)) (tidQuire i) o || false) = false := by
    rw [List.any_eq_false]
    exact fun i hi => by simp [(hr i hi).1]
  have noStall : ((gathering s).any fun i => mustStall (thr s i) o) = false := by
    rw [List.any_eq_false]
    exact fun i hi => by simp [mustStall, (hs.clear i hi).noPend]
  obtain ⟨parts, -⟩ := foldl_lanePart_goingOn hs hr h (gathering s) [] (by simp)
  have finish := finishUnit_goingOn hs fun i hi => h.goesOn hs hi
  unfold laneOp laneOpWith
  rw [openIssue_ready s hs]
  simp only [everyone, inBudget, noStall, Bool.false_eq_true, if_false]
  rw [show Issued.mk s [] [] [] none none false = goingOn s from rfl, parts]
  simp only [endPart, goingOn, trapsPending, List.any_nil, Bool.false_eq_true, if_false, hs.alone]
  exact congrArg Host.Outcome.next finish

/-! ### What the end of a unit leaves -/

@[simp] theorem thr_regate (s : State) (c j : Nat) : thr (regate s c) j = thr s j := by
  unfold regate
  split
  · split <;> rfl
  · rfl

@[simp] theorem retired_regate (s : State) (c k : Nat) : (coreOf (regate s c) k).retired = (coreOf s k).retired := by
  unfold regate
  split
  · split
    · rfl
    · rw [coreOf_modCore]
      split
      · next e => subst e; rfl
      · rfl
  · rfl

theorem thr_settle (s : State) (c : Nat) (g rest : List Nat) (sw : Bool) (j : Nat) :
    thr (settle s c g rest sw) j = thr (if sw then switchLatches s c g (detGathering s g) else s) j := by
  unfold settle
  cases det : detGathering s g with
  | true => cases g <;> simp
  | false => simp

theorem retired_settle (s : State) (c : Nat) (g rest : List Nat) (sw : Bool) :
    (coreOf (settle s c g rest sw) c).retired = (coreOf s c).retired := by
  have switched : ∀ d, coreOf (if sw then switchLatches s c g d else s) c = coreOf s c := by
    intro d
    split <;> rfl
  unfold settle
  cases detGathering s g with
  | true => cases g <;> simp [switched]
  | false => simp [switched]

@[simp] theorem thr_retire (s : State) (c : Nat) (g : List Nat) (n j : Nat) : thr (retire s c g n) j = thr s j := by
  unfold retire
  cases g <;> rfl

theorem retired_retire (s : State) (c : Nat) (g : List Nat) (n : Nat) :
    (coreOf (retire s c g n) c).retired = (coreOf s c).retired + BitVec.ofNat 64 n := by
  unfold retire
  cases g <;> simp

@[simp] theorem wgSt_retire (s : State) (c : Nat) (g : List Nat) (n k : Nat) : (wgOf (retire s c g n) k).st = (wgOf s k).st := by
  unfold retire
  cases g with
  | nil => rfl
  | cons i rest =>
    simp only [wgOf_modWg]
    split
    · next e => subst e; rfl
    · rfl

theorem thr_switchLatches (s : State) (c : Nat) (g : List Nat) (det : Bool) (j : Nat) :
    thr (switchLatches s c g det) j =
      if (thr s j).core == c && (!det || g.contains j) && !(thr s j).latchKeep then clearLatches (thr s j) else thr s j := by
  unfold thr switchLatches
  induction s.threads with
  | nil =>
    show blankThread = if _ then clearLatches blankThread else blankThread
    split <;> rfl
  | cons e rest ih =>
    obtain ⟨i, t⟩ := e
    by_cases h : i = j
    · subst h
      simp only [List.map_cons]
      split <;> simp_all [tgetD, tget]
    · simp only [List.map_cons]
      split <;> simp_all [tgetD, tget]

theorem mem_remaining {s : State} {g : List Nat} {c n j : Nat} (hj : j ∈ g) (exited : (thr s j).exited = false)
    (wait : (thr s j).wait = none) (running : (wgOf s (tidWg j)).st = .running) : j ∈ remaining (retire s c g n) g := by
  refine List.mem_filter.mpr ⟨hj, ?_⟩
  simp [exited, wait, running]

/-- Below the last slot of a line, while the gathering has a thread that stays, the latches stand as the instruction left them. -/
theorem thr_ended_inLine {s u : State} (inLine : atLineEnd s = false)
    {k : Nat} (stays : k ∈ remaining (retire u s.cur (gathering s) 1) (gathering s)) (j : Nat) :
    thr (ended s u) j = thr u j := by
  have some : (remaining (retire u s.cur (gathering s) 1) (gathering s)).isEmpty = false := by
    rw [List.isEmpty_eq_false_iff]
    exact List.ne_nil_of_mem stays
  unfold ended
  simp only [thr_settle, inLine, some, Bool.or_self, Bool.false_eq_true, if_false]
  exact thr_retire ..

/-- At the last slot of a line the latches of the gathering's threads are cleared (R73). -/
theorem thr_ended_lineEnd {s u : State} {j : Nat} (hj : j ∈ gathering s) (lineEnd : atLineEnd s = true)
    (core : (thr u j).core = s.cur) (fresh : (thr u j).latchKeep = false) : thr (ended s u) j = clearLatches (thr u j) := by
  have before : thr { retire u s.cur (gathering s) 1 with issue := noIssue } j = thr u j := thr_retire ..
  unfold ended
  simp only [thr_settle, lineEnd, Bool.true_or, if_true, thr_switchLatches, before, core, fresh, BEq.rfl,
    List.contains_iff_mem.mpr hj, Bool.or_true, Bool.not_false, Bool.and_self]

/-- RETIRED of the core counts the one instruction (R234). -/
theorem retired_ended (s u : State) : (coreOf (ended s u) s.cur).retired = (coreOf u s.cur).retired + 1 :=
  (retired_settle ..).trans (retired_retire ..)

/-- Everything else stands. -/
theorem Calm.ended (s u : State) : Calm u (ended s u) :=
  ((Calm.retire ..).trans (Calm.issue ..)).trans (Calm.settle ..)

/-! ### Results and latches (R70 to R73, R101) -/

theorem latchOf_setLatch {t : Thread} {k j : Nat} (l : Latch) (hk : k < 4) (hj : j < 4) :
    latchOf (setLatch t k l) j = if j = k then l else latchOf t j := by
  interval_cases k <;> interval_cases j <;> rfl

/-- A register written changes no more of its thread than the registers. -/
theorem putReg_regs (t : Thread) (r : Reg) (x : Wide) (tag : FTag) : ∃ g v xv, putReg t r x tag = { t with g, v, xv } := by
  cases r with
  | g n =>
    by_cases h : (n == 0) = true
    · exact ⟨_, _, _, if_pos h⟩
    · exact ⟨_, _, _, if_neg h⟩
  | v n | t n | a n | xv n => exact ⟨_, _, _, rfl⟩

@[simp] theorem latchOf_putReg (t : Thread) (r : Reg) (v : Wide) (tag : FTag) (j : Nat) : latchOf (putReg t r v tag) j = latchOf t j := by
  obtain ⟨_, _, _, h⟩ := putReg_regs t r v tag
  rw [h]
  rfl

theorem latchOf_resultOn {t : Thread} {k j : Nat} (d : Dst) (wide : Bool) (v : Wide) (tag : FTag) (hk : k < 4) (hj : j < 4) :
    latchOf (resultOn k d wide v tag t) j = if j = k then ⟨.valid, wide, v, if wide then tag else 0⟩ else latchOf t j := by
  unfold resultOn
  cases d with
  | latchOnly => exact latchOf_setLatch _ hk hj
  | reg r =>
    rw [latchOf_putReg]
    exact latchOf_setLatch _ hk hj

/-- What a result leaves of a thread besides latches and registers. -/
theorem resultOn_keeps (k : Nat) (d : Dst) (wide : Bool) (v : Wide) (tag : FTag) (t : Thread) :
    (resultOn k d wide v tag t).core = t.core ∧ (resultOn k d wide v tag t).latchKeep = t.latchKeep ∧
      (resultOn k d wide v tag t).wait = t.wait := by
  have latch : ∀ l, (setLatch t k l).core = t.core ∧ (setLatch t k l).latchKeep = t.latchKeep ∧ (setLatch t k l).wait = t.wait := by
    intro l
    unfold setLatch
    split <;> exact ⟨rfl, rfl, rfl⟩
  cases d with
  | latchOnly => exact latch _
  | reg r =>
    obtain ⟨_, _, _, h⟩ := putReg_regs
      { setLatch t k ⟨.valid, wide, v, if wide then tag else 0⟩ with
        eccRegs := (setLatch t k ⟨.valid, wide, v, if wide then tag else 0⟩).eccRegs.filter (· != r) } r v tag
    unfold resultOn
    simp only [h]
    exact latch _

@[simp] theorem put_pc (t : Thread) (d : Dst) (v : Wide) (tag : FTag) : (put t d v tag).pc = t.pc := by
  cases d with
  | latchOnly => rfl
  | reg r =>
    obtain ⟨_, _, _, h⟩ := putReg_regs t r v tag
    exact (congrArg Thread.pc h).trans rfl

/-- A thread up to latches is what it is past an instruction, back at its PC. -/
theorem clearLatches_eq_landed (t : Thread) : clearLatches t = { landed t with pc := t.pc } := rfl

/-- A result, up to latches: the destination written. -/
theorem clearLatches_resultOn {t : Thread} (k : Nat) (d : Dst) (wide : Bool) (v : Wide) (tag : FTag) (h : t.eccRegs = []) :
    clearLatches (resultOn k d wide v tag t) = clearLatches (put t d v tag) := by
  obtain ⟨-, -, -, -, pc⟩ := resultOn_fields k d wide v tag t
  rw [clearLatches_eq_landed, clearLatches_eq_landed (put t d v tag), landed_resultOn k d wide v tag t h, pc, put_pc]

/-! ### Registers after a write (R67, R70, R95) -/

@[simp] theorem srcWord_g0 (t : Thread) : srcWord t (.reg (.g 0)) = 0 := by
  simp [srcWord, srcWide, readG]

@[simp] theorem put_g0 (t : Thread) (v : Wide) (tag : FTag) : put t (.reg (.g 0)) v tag = t := by
  simp [put, putReg]

theorem srcWord_reg_g {t : Thread} {n : BitVec 7} (hn : n ≠ 0) : srcWord t (.reg (.g n)) = tgetD t.g n.toNat 0 := by
  have : ¬n.toNat = 0 := fun h => hn (BitVec.eq_of_toNat_eq h)
  simp [srcWord, srcWide, readG, this]

theorem put_reg_g {t : Thread} {n : BitVec 7} (hn : n ≠ 0) (v : Wide) (tag : FTag) :
    put t (.reg (.g n)) v tag = { t with g := tset t.g n.toNat (v.setWidth 64) } := by
  have : (n == 0) = false := beq_eq_false_iff_ne.mpr hn
  unfold put putReg
  simp only [this, Bool.false_eq_true, if_false]

theorem srcWord_put_same {t : Thread} {n : BitVec 7} (hn : n ≠ 0) (v : Wide) (tag : FTag) :
    srcWord (put t (.reg (.g n)) v tag) (.reg (.g n)) = v.setWidth 64 := by
  rw [srcWord_reg_g hn, put_reg_g hn]
  exact tgetD_tset_self ..

theorem srcWord_put_other {t : Thread} {n m : BitVec 7} (hne : m ≠ n) (v : Wide) (tag : FTag) :
    srcWord (put t (.reg (.g n)) v tag) (.reg (.g m)) = srcWord t (.reg (.g m)) := by
  by_cases hn : n = 0
  · subst hn
    rw [put_g0]
  by_cases hm : m = 0
  · subst hm
    rw [srcWord_g0, srcWord_g0]
  · rw [srcWord_reg_g hm, srcWord_reg_g hm, put_reg_g hn]
    exact tgetD_tset_ne _ _ _ fun h => hne (BitVec.eq_of_toNat_eq h).symm

@[simp] theorem readV_put (t : Thread) (n : BitVec 5) (v : Wide) (tag : FTag) :
    readV (put t (.reg (.v n)) v tag) n.toNat = ⟨v, tag⟩ := tgetD_tset_self ..

/-! ### MOVI and NOP (R90, R174) -/

/-- The result of MOVI as a change of its thread. -/
def moviOn (o : Ops) (imm : BitVec 36) : Thread → Thread := resultOn 0 o.d false ((imm.signExtend 64).setWidth 256) 0

/-- A gathering past a MOVI, at its next slots. -/
def pastMovi (s : State) (o : Ops) (imm : BitVec 36) : State :=
  nextSlots s (turns s o.gd (fun st i => modThr st i (moviOn o imm)) (gathering s))

theorem movi_done {s : State} {o : Ops} (imm : BitVec 36) (hs : Ready s) :
    DoneBy s o.gd (fun _ st i => .done (resultG st i 0 o.d (imm.signExtend 64).toNat)) fun st i => modThr st i (moviOn o imm) where
  others st i j hj := by rw [thr_modThr, if_neg (Ne.symm hj)]
  issue _ _ := rfl
  done st i _ _ _ := by
    rw [resultG, result_eq, BitVec.ofNat_toNat, BitVec.setWidth_eq]
    rfl
  on st i hi same _ := by
    have clear := hs.clear i hi
    obtain ⟨moved, exited, pend, nest, -⟩ := resultOn_fields 0 o.d false ((imm.signExtend 64).setWidth 256) 0 (thr s i)
    rw [thr_modThr_self, same]
    exact ⟨⟨moved.trans clear.runs.1, exited.trans clear.runs.2.1⟩, pend clear.noPend,
      fun l rest h => clear.noEnd l rest (nest.symm.trans h)⟩

theorem exec_movi {s : State} {o : Ops} (imm : BitVec 36) (hs : Ready s) (hr : Readable s o []) :
    exec (.movi o imm) s = .next (ended s (pastMovi s o imm)) := laneOp_ended hs hr (movi_done imm hs)

theorem thr_pastMovi {s : State} (o : Ops) (imm : BitVec 36) (hs : Ready s) {j : Nat} (hj : j ∈ gathering s) :
    thr (pastMovi s o imm) j =
      { (if guardTrue (thr s j) o.gd then moviOn o imm (thr s j) else thr s j) with pc := nextSlot (thr s j).pc } := by
  unfold pastMovi
  rw [thr_nextSlots _ hs hj]
  exact congrArg (fun t : Thread => { t with pc := nextSlot (thr s j).pc })
    (thr_changeAll_in (fun i => guardTrue (thr s i) o.gd) (fun _ => moviOn o imm) s (gathering s) hs.once hj)

/-- The latches of a thread past a MOVI, before the end of its unit. -/
theorem latchOf_pastMovi {s : State} (o : Ops) (imm : BitVec 36) (hs : Ready s) {j n : Nat} (hj : j ∈ gathering s) (hn : n < 4) :
    latchOf (thr (pastMovi s o imm) j) n =
      if guardTrue (thr s j) o.gd ∧ n = 0 then ⟨.valid, false, (imm.signExtend 64).setWidth 256, 0⟩ else latchOf (thr s j) n := by
  rw [thr_pastMovi o imm hs hj]
  by_cases hgd : guardTrue (thr s j) o.gd = true
  · simp only [hgd, if_true, true_and]
    exact latchOf_resultOn o.d false _ 0 (by decide) hn
  · simp only [hgd, if_false, Bool.false_eq_true, false_and]
    rfl

/-- What a MOVI leaves of a thread besides latches and registers: it runs on. -/
theorem pastMovi_runs {s : State} (o : Ops) (imm : BitVec 36) (hs : Ready s) {j : Nat} (hj : j ∈ gathering s) :
    (thr (pastMovi s o imm) j).core = (thr s j).core ∧ (thr (pastMovi s o imm) j).latchKeep = false ∧
      (thr (pastMovi s o imm) j).wait = none ∧ (thr (pastMovi s o imm) j).exited = false := by
  have clear := hs.clear j hj
  obtain ⟨-, exited, waits⟩ := clear.runs
  obtain ⟨core, keep, wait⟩ := resultOn_keeps 0 o.d false ((imm.signExtend 64).setWidth 256) 0 (thr s j)
  obtain ⟨-, ran, -⟩ := resultOn_fields 0 o.d false ((imm.signExtend 64).setWidth 256) 0 (thr s j)
  rw [thr_pastMovi o imm hs hj]
  split
  · exact ⟨core, keep.trans clear.noKept, wait.trans waits, ran.trans exited⟩
  · exact ⟨rfl, clear.noKept, waits, exited⟩

theorem wgOf_pastMovi (s : State) (o : Ops) (imm : BitVec 36) (k : Nat) : wgOf (pastMovi s o imm) k = wgOf s k := by
  unfold pastMovi
  rw [nextSlots_frame, turns_modThr]
  rfl

theorem atLineEnd_eq {s : State} {k : Nat} (hs : Ready s) (slot : ∀ j ∈ gathering s, slotOf (thr s j).pc = k) :
    atLineEnd s = (k == 4) := by
  unfold atLineEnd
  cases hg : gathering s with
  | nil => exact absurd hg hs.some
  | cons i rest =>
    rw [← slot i (by rw [hg]; exact List.mem_cons_self ..)]

theorem nop_done {s : State} (gd : Guard) (hs : Ready s) : DoneBy s gd (fun _ st _ => .done st) fun st _ => st where
  others _ _ _ _ := rfl
  issue _ _ := rfl
  done _ _ _ _ _ := rfl
  on _ i hi same _ := same ▸ (hs.clear i hi).goesOn

/-- NOP changes no thread but its PC. -/
theorem exec_nop {s : State} {o : Ops} (m : M3) (hs : Ready s) (hr : Readable s o []) :
    exec (.nop o m) s = .next (ended s (nextSlots s s)) := by
  have nothing : turns s o.gd (fun st _ => st) (gathering s) = s := foldl_still _ fun _ _ => ite_self _
  have law := laneOp_ended hs hr (nop_done o.gd hs)
  rw [nothing] at law
  exact law

theorem nop_completes {s : State} {o : Ops} (m : M3) (hs : Ready s) (hr : Readable s o []) :
    Completes (.nop o m) s o.gd fun _ t => t := by
  have calm := Calm.ended s (nextSlots s s)
  refine ⟨_, exec_nop m hs hr, ⟨?_, fun j hj => ?_, fun k => ?_, fun c => ?_⟩, fun j hj => ?_⟩
  · rw [calm.rest, nextSlots_frame]
  · rw [calm.threads]
    exact congrArg clearLatches (thr_changeAll_out _ _ _ _ hj)
  · rw [calm.wgs, nextSlots_frame]
    rfl
  · rw [(calm.cores c).1, (calm.cores c).2, nextSlots_frame]
    exact ⟨rfl, rfl⟩
  · rw [calm.threads, thr_nextSlots _ hs hj, ite_self]
    rfl

/-- The modifiers of class 0x3 that make a zero field are all zero (R85). -/
theorem mods3_eq_zero {m : M3} : mods3 m = 0 ↔ m.var = 0 ∧ m.ord = .rlx ∧ m.scope = .core ∧ m.target = 0 := by
  constructor
  · intro h
    have var := mods3_var m
    have ord := mods3_ord m
    have scope := mods3_scope m
    have target := mods3_target m
    rw [h] at var ord scope target
    refine ⟨var.symm, ?_, ?_, target.symm⟩
    · rw [← ordOf_ordCode m.ord, ← ord]
      rfl
    · have := scopeOf_scopeCode m.scope
      rw [← scope] at this
      exact (Option.some.inj this).symm
  · rintro ⟨var, ord, scope, target⟩
    unfold mods3
    rw [var, ord, scope, target]
    rfl

theorem wf_nop (o : Ops) (m : M3) : wf (.nop o m) = true ↔
    o.d = .reg (.g 0) ∧ o.a = .reg (.g 0) ∧ o.b = .reg (.g 0) ∧ o.c = .reg (.g 0) ∧ mods3 m = 0 := by
  rw [mods3_eq_zero]
  simp only [wf, okNop, noOps, noDst, noSrc, plain3, Bool.and_eq_true, beq_iff_eq, and_assoc]

end Sys2Proof.Machine

namespace Sys2Proof

open Sys2Proof.Machine

/-- Settles O8: NOP's unit ends with nothing done, and the zero word is IADD without a type. -/
theorem nopRetires : Obligations.NopRetires := by
  unfold Obligations.NopRetires
  refine ⟨fun s o m hs hr => ⟨nop_completes m hs hr, _, exec_nop m hs hr, ?_, ?_⟩, wf_nop, rfl⟩
  · rw [retired_ended, nextSlots_frame]
    rfl
  · rw [(Calm.ended s (nextSlots s s)).rest, nextSlots_frame]

/-- Settles O7: a result is one change of its thread, and a MOVI leaves the latches it makes until the end of its line. -/
theorem resultsAndLatches : Obligations.ResultsAndLatches := by
  unfold Obligations.ResultsAndLatches
  constructor
  · intro s i k d wide v tag hk t u
    have hu : u = resultOn k d wide v tag t := by
      show thr (result s i k d wide v tag) i = _
      rw [result_eq, thr_modThr_self]
    refine ⟨?_, fun j hj other => ?_, fun noEcc => ?_, fun j other => ?_, ?_, srcWord_g0 t, put_g0 t v tag, rfl,
      fun n hn => srcWord_put_same hn v tag, fun n m hne => srcWord_put_other hne v tag, fun n => ⟨?_, ?_⟩⟩
    · rw [hu, latchOf_resultOn d wide v tag hk hk, if_pos rfl]
    · rw [hu, latchOf_resultOn d wide v tag hk hj, if_neg other]
    · rw [hu, clearLatches_resultOn k d wide v tag noEcc]
    · rw [result_eq, thr_modThr, if_neg (Ne.symm other)]
    · rw [result_eq]
      rfl
    · exact congrArg VReg.val (readV_put t n v tag)
    · exact congrArg VReg.tag (readV_put t n v tag)
  · intro s u o imm k hs hr here step j hj
    obtain rfl : ended s (pastMovi s o imm) = u := by
      rw [exec_movi imm hs hr] at step
      exact Host.Outcome.next.inj step
    obtain ⟨-, core, running⟩ := here j hj
    obtain ⟨sameCore, fresh, wait, exited⟩ := pastMovi_runs o imm hs hj
    have lineEnd := atLineEnd_eq hs fun i hi => (here i hi).1
    refine ⟨fun hk => ?_, ?_⟩
    · have inLine : atLineEnd s = false := by
        rw [lineEnd]
        exact beq_false_of_ne (Nat.ne_of_lt hk)
      have stays := mem_remaining (c := s.cur) (n := 1) hj exited wait (by rw [wgOf_pastMovi]; exact running)
      rw [thr_ended_inLine inLine stays]
      refine ⟨?_, fun n hn other => ?_⟩
      · rw [latchOf_pastMovi o imm hs hj (by decide)]
        simp only [and_true]
      · rw [latchOf_pastMovi o imm hs hj hn, if_neg fun h => other h.2]
    · rintro rfl n hn
      rw [thr_ended_lineEnd hj lineEnd (sameCore.trans core) fresh]
      interval_cases n <;> rfl

end Sys2Proof
end

section
/-! One step (R65, R66, R78, R91, R140): from the turn of the schedule to the unit that the fetched line holds. -/

namespace Sys2Proof.Machine

/-- A step whose watchdogs are quiet takes its turn. -/
theorem step_of_turn {s s1 : State} {t : Turn} (quiet : watchdogDue (tick s) = none) (turn : takeTurn (tick s) = (t, s1)) :
    step s = runTurn t s1 := by
  unfold step
  simp only [quiet, turn]

/-- A gathering that no pre-emption holds, or no gathering, is at no boundary that it gives up. -/
theorem atBoundary_of_free {s : State} (h : ∀ i ∈ gathering s, quireHeld s i = false) : atBoundary s = s := by
  have free : (gathering s).any (quireHeld s) = false := by
    rw [List.any_eq_false]
    exact fun i hi => by simp [h i hi]
  unfold atBoundary
  simp [free]

/-- A unit whose threads no abort has redirected opens as it is. -/
theorem openUnit_of_unmoved {s : State} (h : ∀ i ∈ gathering s, (thr s i).moved = false) : openUnit s = s := by
  unfold openUnit
  exact foldl_still _ fun i hi => by simp [h i hi]

theorem issueGathering_of_fetched {u v : State} {line : List Byte} (h : Fetched (opened u) v line) :
    issueGathering u = runUnit line (gatheringPc u) v := by
  obtain ⟨i, rest, hg, unmoved, fetch⟩ := h
  have pc : gatheringPc u = (thr (opened u) i).pc := by
    unfold gatheringPc
    rw [show gathering u = i :: rest from hg]
    rfl
  have opens : openUnit { u with issue := { member := .single, traps := [], stall := false, hold := none, group := gathering u } } =
      opened u := openUnit_of_unmoved unmoved
  unfold issueGathering
  simp only [opens, hg, fetch, pc]

theorem execWord_of_decode {w : Code} {i : Instr} (h : decode w = .ok i) : execWord w = exec i := by
  funext s
  unfold execWord
  rw [h]

section Unit
variable {line : List Byte} {pc : Pc} {i j : Instr} (inLine : slotOf pc ≤ 4) (clean : lineTrap line (slotOf pc) = none)
  (first : decode (slotWord line (slotOf pc)) = .ok i)
include inLine clean first

theorem runUnit_single (alone : pairBit line (slotOf pc) = false) (s : State) : runUnit line pc s = exec i s := by
  unfold runUnit
  simp only [Nat.not_lt.mpr inLine, if_false, clean, alone, Bool.false_eq_true, execWord_of_decode first]

theorem runUnit_pair (paired : pairBit line (slotOf pc) = true)
    (second : decode (slotWord line (slotOf pc + 1)) = .ok j) (s : State) :
    runUnit line pc s = runPair ((gathering s).length + 1) (exec i) (exec j) s [] := by
  unfold runUnit
  simp only [Nat.not_lt.mpr inLine, if_false, clean, paired, if_true, execWord_of_decode first, execWord_of_decode second]

end Unit

/-- A core goes on with a gathering that no pre-emption holds. -/
theorem issueCore_of_gathering {s : State} (some : gathering s ≠ []) (free : ∀ i ∈ gathering s, quireHeld s i = false) :
    issueCore s = takeResults (issueGathering s) := by
  unfold issueCore
  rw [atBoundary_of_free free]
  simp [some]

/-- A core without a gathering issues the one that it chooses. -/
theorem issueCore_of_choice {s t : State} {g : List Nat} (none : gathering s = [])
    (awake : (coreOf (betweenGroups s) (betweenGroups s).cur).gated = false)
    (choice : choose (betweenGroups s) (betweenGroups s).cur = .ready t g) :
    issueCore s = takeResults (issueGathering (modCore t (betweenGroups s).cur fun x => { x with gath := g })) := by
  unfold issueCore
  rw [atBoundary_of_free (by simp [none])]
  simp [none, issueChosen, awake, choice]

/-- A step that runs the unit of `line` at which the gathering of `u` stands, in the state `v` that the fetch leaves: one
instruction, or a pair. -/
def StepsUnit (s u v : State) (line : List Byte) : Prop :=
  let k := slotOf (gatheringPc u)
  k ≤ 4 → lineTrap line k = none →
    (∀ i, pairBit line k = false → decode (slotWord line k) = .ok i → step s = takeResults (exec i v)) ∧
    (∀ i j, pairBit line k = true → decode (slotWord line k) = .ok i → decode (slotWord line (k + 1)) = .ok j →
      step s = takeResults (runPair ((gathering v).length + 1) (exec i) (exec j) v []))

theorem stepsUnit_of_fetched {s u v : State} {line : List Byte} (fetched : Fetched (opened u) v line)
    (issues : step s = takeResults (issueGathering u)) : StepsUnit s u v line := by
  intro inLine clean
  rw [issues, issueGathering_of_fetched fetched]
  constructor
  · intro i alone first
    rw [runUnit_single inLine clean first alone]
  · intro i j paired first second
    rw [runUnit_pair inLine clean first paired second]

end Sys2Proof.Machine

namespace Sys2Proof

open Sys2Proof.Machine

/-- Settles O1: the turn, the gathering, the fetched line and the decoded slot, one after the other. -/
theorem stepRunsDecoded : Obligations.StepRunsDecoded := by
  unfold Obligations.StepRunsDecoded
  intro s s1 quiet
  refine ⟨fun i turn event => ?_, fun c turn inModule => ?_⟩
  · rw [step_of_turn quiet turn]
    simp [runTurn, event]
  have core : step s = issueCore { s1 with cur := c } := by
    rw [step_of_turn quiet turn]
    simp [runTurn, inModule]
  refine ⟨fun v line free fetched => stepsUnit_of_fetched fetched ?_,
    fun none awake t g v line choice fetched => stepsUnit_of_fetched fetched ?_⟩
  · obtain ⟨i, rest, hg, -⟩ := fetched
    have some : gathering { s1 with cur := c } = i :: rest := hg
    rw [core, issueCore_of_gathering (some ▸ List.cons_ne_nil i rest) free]
  · rw [core, issueCore_of_choice none awake choice]

end Sys2Proof
end

section
/-! Homes of workgroups (R124): the k-th set bit of a mask. -/

namespace Sys2Proof.Machine

theorem bit_eq_testBit (v n : Nat) : bit v n = v.testBit n := by
  rw [Nat.testBit_eq_decide_div_mod_eq]
  rfl

/-- The k-th of the numbers below n that pass a test: it passes, and k numbers below it do. -/
theorem getElem_filter_range (p : Nat → Bool) (n k : Nat) (hk : k < ((List.range n).filter p).length) :
    ((List.range n).filter p)[k] < n ∧ p ((List.range n).filter p)[k] = true ∧
      ((List.range ((List.range n).filter p)[k]).filter p).length = k := by
  induction n with
  | zero => simp at hk
  | succ n ih =>
    have split : (List.range (n + 1)).filter p = (List.range n).filter p ++ [n].filter p := by
      rw [List.range_succ, List.filter_append]
    by_cases early : k < ((List.range n).filter p).length
    · obtain ⟨below, passes, rank⟩ := ih early
      simp only [split, List.getElem_append_left early]
      exact ⟨Nat.lt_succ_of_lt below, passes, rank⟩
    · have last : p n = true := by
        by_contra fails
        simp [split, fails] at hk
        exact early hk
      have rank : k = ((List.range n).filter p).length := by
        simp [split, last] at hk
        omega
      subst rank
      simp [split, last]

theorem bindMask_lt (bind : List Word) : bindMask bind < 2 ^ 4 := Nat.mod_lt _ (by decide)

theorem maskDies_eq (m : Nat) : maskDies m = (List.range 4).filter fun d => m.testBit d := by
  simp only [maskDies, bit_eq_testBit]

theorem maskDies_length_pos {m : Nat} (small : m < 2 ^ 4) (some : m ≠ 0) : 0 < (maskDies m).length := by
  obtain ⟨d, hd⟩ := Nat.exists_testBit_of_ne_zero some
  have inModule : d < 4 := by
    by_contra far
    have : m < 2 ^ d := Nat.lt_of_lt_of_le small (Nat.pow_le_pow_right (by decide) (Nat.le_of_not_lt far))
    simp [Nat.testBit_lt_two_pow this] at hd
  rw [maskDies_eq]
  exact List.length_pos_of_mem (List.mem_filter.mpr ⟨List.mem_range.mpr inModule, hd⟩)

end Sys2Proof.Machine

namespace Sys2Proof

open Sys2Proof.Machine

/-- Settles O54: the home die is an entry of the list of the mask's dies, and such an entry is a set bit with as many set
bits below it as its index says. -/
theorem placementHash : Obligations.PlacementHash := by
  unfold Obligations.PlacementHash
  intro bind launch w someDie x y z coords
  have hash : placeHash launch w = (x * 0x9E3B + y * 0x85EB + z * 0xC2B3) % 2 ^ 16 := by
    unfold placeHash
    rw [coords]
  have dies := maskDies_length_pos (bindMask_lt bind) someDie
  have home : homeDieOf bind launch w = (maskDies (bindMask bind))[placeHash launch w % (maskDies (bindMask bind)).length]'
      (Nat.mod_lt _ dies) := by
    unfold homeDieOf
    simp only [Nat.max_eq_right dies, List.getD_eq_getElem _ _ (Nat.mod_lt _ dies)]
  simp only [maskDies_eq] at home dies
  obtain ⟨inModule, set, rank⟩ := getElem_filter_range (fun d => (bindMask bind).testBit d) 4 _ (Nat.mod_lt (placeHash launch w) dies)
  rw [← home] at inModule set rank
  rw [hash] at rank
  exact ⟨inModule, set, rank, congrArg (· / 2 ^ 8 % 4) hash⟩

end Sys2Proof
end

section
/-! The completion of a binding (R121) against what its task decrement sets going: the state that refutes O55. -/

namespace Sys2Proof.Machine

/-- BINDING_COMPLETE of a binding whose workgroups have all ended. -/
theorem exec_bindingComplete {s : State} {die slot : Nat} {b : BindSlot} (inModule : die < 4) (inTable : slot < 32)
    (bound : bindingAt s die slot = some b) (shares : sharesEmpty s slot b = true)
    (allOver : wgsDone s (bindingWgs s slot (bindMask b.words)) = true) :
    exec (.bindingComplete die slot) s = .next (settleBinding s die slot b) := by
  show execBindingComplete die slot s = _
  unfold execBindingComplete
  simp only [Nat.not_le.mpr inModule, Nat.not_le.mpr inTable, if_false, bound, shares, allOver, Bool.and_self, if_true]

/-- A binding on die 0 whose launch decrements task 0 of quad 0 on completion (TV of R118). -/
def decrementing : BindSlot :=
  { words := [0x400], launch := [0, 0, 0, 0, 0, 0, 0, 0x8000], homeQueue := false, age := 0, share := [], completed := false
    refused := false, noneFrom := [], stealTag := none, preemptsFor := [] }

/-- The binding's workgroup, number 0, which has ended. -/
def endedWg : Workgroup := { blankWg with st := .stopped }

/-- Workgroup 1, of another binding, on core 1: a transaction of its lane 0 runs, with its log at the carrel's first bytes. -/
def loggingWg : Workgroup :=
  { blankWg with slot := 1, core := 1, st := .running
                 txs := [(0, { blankTx with parts := [⟨0, 0, [], false, .latchOnly⟩] })] }

/-- Lane 1 of workgroup 1, which waits for its DEPSET at the end of a loop whose START names no slot: it traps BAD_TARGET as
it goes on (R81), and its trap frame lies at the carrel's first bytes too. -/
def trappingWaiter : Thread :=
  { blankThread with
    core := 1, wg := 1, lane := 1, exited := false, trapVecEn := true, nest := [⟨5, 0, 2⟩]
    wait := some { code := 63, a := 0, b := 0, dst := .latchOnly, var := holdDepset } }

/-- The DEPSET stands in the queue of quad 0, and lane 0 of workgroup 1, which its transaction names, has no thread. -/
def unthreaded : State :=
  { State.reset with
    wgs := [(0, endedWg), (1, loggingWg)]
    threads := [(tidOf 1 0 1, trappingWaiter)]
    quads := [(0, { Quad.reset with msgs := [.set 0 0 (tidOf 1 0 1)] })]
    dies := [(0, { Die.reset with slots := [(0, decrementing)] })] }

theorem unthreaded_bound : bindingAt unthreaded 0 0 = some decrementing ∧
    (0, endedWg) ∈ bindingWgs unthreaded 0 (bindMask decrementing.words) := by decide +kernel

theorem unthreaded_over : sharesEmpty unthreaded 0 decrementing = true ∧
    wgsDone unthreaded (bindingWgs unthreaded 0 (bindMask decrementing.words)) = true := by decide +kernel

theorem unthreaded_acknowledged :
    imagesDone (writeImages unthreaded 0 0 decrementing) 0 0 decrementing = true ∧
      inFlight (wordBinding (writeImages unthreaded 0 0 decrementing) 0 0 decrementing) .service = false := by decide +kernel

/-- The decrement applies the DEPSET first (R35). The frame of the trap that follows aborts the transaction (R165), and for
its participant without a thread a blank one appears, which names workgroup 0. -/
theorem threads_unthreaded_completed :
    (settleBinding unthreaded 0 0 decrementing).threads.map (fun e => (e.1, e.2.wg)) = [(tidOf 1 0 0, 0), (tidOf 1 0 1, 1)] := by
  decide +kernel

end Sys2Proof.Machine

namespace Sys2Proof

open Sys2Proof.Machine

/-- Refutes O55, in its last clause: after the completion a thread of the completed binding's workgroup 0 stands. In the
state `unthreaded` a transaction names a lane that has no thread, and the task decrement of the completion, which comes
after the workgroup has gone, sets off the abort that makes one. -/
theorem not_launchAndPlacement : ¬ Obligations.LaunchAndPlacement := by
  unfold Obligations.LaunchAndPlacement
  intro h
  obtain ⟨-, -, -, -, -, -, -, completes⟩ := h unthreaded
  obtain ⟨bound, member⟩ := unthreaded_bound
  obtain ⟨shares, allOver⟩ := unthreaded_over
  obtain ⟨images, word⟩ := unthreaded_acknowledged
  obtain ⟨t, run, -, gone⟩ := completes 0 0 decrementing (by decide) (by decide) bound rfl shares allOver images word
  rw [exec_bindingComplete (by decide) (by decide) bound shares allOver] at run
  obtain rfl := Host.Outcome.next.inj run
  have stands : (tidOf 1 0 0, 0) ∈ (settleBinding unthreaded 0 0 decrementing).threads.map fun e => (e.1, e.2.wg) := by
    rw [threads_unthreaded_completed]
    exact List.mem_cons_self ..
  obtain ⟨e, thread, names⟩ := List.mem_map.mp stands
  exact (gone _ member).2 e thread (congrArg Prod.snd names)

end Sys2Proof
end

section
/-! Pre-emption (R129 to R132, R247, R248): which operations leave the workgroups and the dies as they are, and what a request,
a forced save, a save and a restore do to the workgroup. -/

namespace Sys2Proof.Machine

/-! ### Steps that leave the workgroups and the dies alone -/

/-- The tables of workgroups and of dies stand. -/
structure Undisturbed (s t : State) : Prop where
  wgs : t.wgs = s.wgs
  dies : t.dies = s.dies

theorem Undisturbed.refl (s : State) : Undisturbed s s := ⟨rfl, rfl⟩

/-- The last step comes first: it is the one that the resulting state names. -/
theorem Undisturbed.after {a b c : State} (last : Undisturbed b c) (before : Undisturbed a b) : Undisturbed a c :=
  ⟨last.wgs.trans before.wgs, last.dies.trans before.dies⟩

theorem Undisturbed.wgOf {s t : State} (h : Undisturbed s t) (k : Nat) : wgOf t k = wgOf s k :=
  congrArg (fun m => tgetD m k blankWg) h.wgs

theorem Undisturbed.dieOf {s t : State} (h : Undisturbed s t) (d : Nat) : dieOf t d = dieOf s d :=
  congrArg (fun m => tgetD m d Die.reset) h.dies

theorem Undisturbed.ite {s t u : State} {c : Prop} [Decidable c] (yes : Undisturbed s t) (no : Undisturbed s u) :
    Undisturbed s (if c then t else u) := by
  split
  · exact yes
  · exact no

theorem Undisturbed.foldl {α : Type} {f : State → α → State} (turn : ∀ s a, Undisturbed s (f s a)) (l : List α) (s : State) :
    Undisturbed s (l.foldl f s) := by
  induction l generalizing s with
  | nil => exact .refl s
  | cons a rest ih => exact (ih (f s a)).after (turn s a)

/-- The same for turns that carry something along. -/
theorem Undisturbed.foldl_fst {α β : Type} {f : State × β → α → State × β} (turn : ∀ r a, Undisturbed r.1 (f r a).1)
    (l : List α) (r : State × β) : Undisturbed r.1 (l.foldl f r).1 := by
  induction l generalizing r with
  | nil => exact .refl r.1
  | cons a rest ih => exact (ih (f r a)).after (turn r a)

theorem Undisturbed.modThr (s : State) (i : Nat) (f : Thread → Thread) : Undisturbed s (modThr s i f) := ⟨rfl, rfl⟩

theorem Undisturbed.modCore (s : State) (c : Nat) (f : Core → Core) : Undisturbed s (modCore s c f) := ⟨rfl, rfl⟩

theorem Undisturbed.modMx (s : State) (c : Nat) (f : Matrix → Matrix) : Undisturbed s (modMx s c f) := ⟨rfl, rfl⟩

theorem Undisturbed.modQuad (s : State) (q : Nat) (f : Quad → Quad) : Undisturbed s (modQuad s q f) := ⟨rfl, rfl⟩

theorem Undisturbed.writeBytes (s : State) (l : Nat) (bs : List Byte) : Undisturbed s (writeBytes s l bs) := ⟨rfl, rfl⟩

theorem Undisturbed.noteWake (s : State) (c : Nat) (e : Nat × Nat × Word) : Undisturbed s (noteWake s c e) :=
  .ite (.modCore s c _) (.refl s)

theorem Undisturbed.regate (s : State) (c : Nat) : Undisturbed s (regate s c) :=
  .ite (.ite (.refl s) (.modCore s c _)) (.refl s)

theorem Undisturbed.addPoison (s : State) (sec : Nat) : Undisturbed s (addPoison s sec) := .ite (.refl s) ⟨rfl, rfl⟩

theorem Undisturbed.spreadPoison (s : State) (l : Nat) (bad : List Bool) : Undisturbed s (spreadPoison s l bad) :=
  .foldl (fun st _ => .ite (.addPoison st _) (.refl st)) _ s

theorem Undisturbed.writeWord (s : State) (l v : Nat) : Undisturbed s (writeWord s l v) := .writeBytes s l _

theorem Undisturbed.report (s : State) (ctx : Nat) (r : FaultRec) : Undisturbed s (report s ctx r) := by
  unfold Machine.report
  split
  · exact .refl s
  · refine .ite (.writeWord s _ _) (.after (.writeWord _ _ _) ?_)
    exact .after (.writeWord _ _ _) (.after (.writeWord _ _ _) (.after (.writeWord _ _ _) (.writeWord s _ _)))

theorem Undisturbed.dispatchNote (s : State) (ctx core w : Nat) (f : FaultCode) (addr : Nat) :
    Undisturbed s (dispatchNote s ctx core w f addr) :=
  .after (.report _ ctx _) ⟨rfl, rfl⟩

/-! #### The end of a workgroup's issue before its save -/

theorem Undisturbed.writeReg (s : State) (i : Nat) (r : Reg) (v : Wide) (tag : FTag) : Undisturbed s (writeReg s i r v tag) :=
  .modThr s i _

theorem Undisturbed.writeFlag (s : State) (i : Nat) (f : Option (Reg × Nat)) (on : Bool) : Undisturbed s (writeFlag s i f on) := by
  unfold Machine.writeFlag
  split
  · exact .writeReg s i _ _ _
  · exact .refl s

theorem Undisturbed.deliverResult (s : State) (i : Nat) (p : Pend) : Undisturbed s (deliverResult s i p) := by
  refine .after (.writeFlag _ i p.flag _) ?_
  cases p.dst with
  | reg r => exact .after (.writeReg _ i r _ _) (.modThr s i _)
  | latchOnly => exact .modThr s i _

theorem Undisturbed.deliverAll (s : State) (i : Nat) : Undisturbed s (deliverAll s i) :=
  .foldl (fun st p => .deliverResult st i p) _ s

theorem Undisturbed.dropHold (s : State) (i : Nat) : Undisturbed s (dropHold s i) := by
  unfold Machine.dropHold
  split
  · exact .ite (.refl s) ⟨rfl, rfl⟩
  · exact .refl s

theorem Undisturbed.clearMarks (s : State) (i : Nat) : Undisturbed s (clearMarks s i) := .ite (.modThr s i _) (.refl s)

/-- The state that a save writes: every result of the workgroup's threads has arrived, and their holds are gone (R247, R249). -/
def settledThreads (s : State) (wg : Nat) : State :=
  (threadsOfWg s wg).foldl (fun st i => clearMarks (dropHold (deliverAll st i) i) i) s

theorem Undisturbed.settledThreads (s : State) (wg : Nat) : Undisturbed s (settledThreads s wg) :=
  .foldl (fun st i => .after (.clearMarks _ i) (.after (.dropHold _ i) (.deliverAll st i))) _ s

/-! #### The save area (R248) -/

theorem Undisturbed.putTile (s : State) (l : Nat) (bs : List Byte) (bad : Bool) : Undisturbed s (putTile s l bs bad) :=
  .ite (.after (.foldl .addPoison _ _) (.writeBytes s l bs)) (.writeBytes s l bs)

theorem Undisturbed.saveA (s : State) (c l n : Nat) : Undisturbed s (saveA s c l n) := by
  unfold Machine.saveA
  exact .after (.modMx _ c _) (.putTile s _ _ _)

theorem Undisturbed.saveMatrix (s : State) (c l live : Nat) : Undisturbed s (saveMatrix s c l live) := by
  refine .after (.writeBytes _ _ _) (.after (.foldl (fun st n => ?accum) _ _) (.foldl (fun st n => ?tile) _ s))
  case accum => exact .ite (.saveA st c l n) (.refl st)
  case tile => exact .ite (.putTile st _ _ _) (.refl st)

theorem Undisturbed.writeArea (s : State) (wg area : Nat) : Undisturbed s (writeArea s wg area) := by
  unfold Machine.writeArea
  refine .after (.writeBytes _ _ _) ?_
  refine Undisturbed.after (b := Machine.spreadPoison _ _ _) (.ite (.saveMatrix _ _ _ _) (.refl _)) ?_
  refine .after (.spreadPoison _ _ _) (.after (.writeBytes _ _ _) (.after (.foldl (fun st q => ?_) _ _) (.writeBytes s _ _)))
  exact .writeBytes st _ _

theorem Undisturbed.leaveEngine (s : State) (wg : Nat) : Undisturbed s (leaveEngine s wg) := by
  unfold Machine.leaveEngine
  exact .modMx s _ _

theorem Undisturbed.stowWork (s : State) (wg : Nat) : Undisturbed s (stowWork s wg) := ⟨rfl, rfl⟩

/-! #### Restoring (R131, R251) -/

theorem Undisturbed.restoreQuire (s : State) (wg core l q : Nat) : Undisturbed s (restoreQuire s wg core l q).1 := by
  refine .foldl_fst (fun r lane => ?_) _ (s, false)
  dsimp only
  split <;> exact ⟨rfl, rfl⟩

theorem Undisturbed.moveWork (s : State) (wg core : Nat) : Undisturbed s (moveWork s wg core) :=
  .after (.foldl (fun st _ => .modQuad st _ _) _ _) ⟨rfl, rfl⟩

theorem Undisturbed.placeRuns (s : State) (wg core : Nat) : Undisturbed s (placeRuns s wg core) :=
  .foldl (fun st _ => .ite (.modMx st core _) (.refl st)) _ s

theorem Undisturbed.axResume (s : State) (ctx : Nat) : Undisturbed s (axResume s ctx) := .ite (.refl s) ⟨rfl, rfl⟩

/-! ### Bind slots -/

theorem modSlot_of_some {s : State} {die slot : Nat} {b : BindSlot} (h : tget (dieOf s die).slots slot = some b)
    (f : BindSlot → BindSlot) :
    modSlot s die slot f = modDie s die fun d => { d with slots := tset d.slots slot (f b) } := by
  unfold modSlot
  rw [h]

theorem slots_modSlot {s : State} {die slot : Nat} {b : BindSlot} (h : tget (dieOf s die).slots slot = some b)
    (f : BindSlot → BindSlot) : tget (dieOf (modSlot s die slot f) die).slots slot = some (f b) := by
  rw [modSlot_of_some h, dieOf_modDie_self]
  exact tget_tset_self _ slot (f b)

/-- Only the dies differ. -/
def DiesOnly (s t : State) : Prop := t = { s with dies := t.dies }

theorem DiesOnly.modDie (s : State) (d : Nat) (f : Die → Die) : DiesOnly s (modDie s d f) := rfl

theorem DiesOnly.after {a b c : State} (last : DiesOnly b c) (before : DiesOnly a b) : DiesOnly a c := by
  unfold DiesOnly at *
  rw [last, before]

theorem DiesOnly.modSlot (s : State) (die slot : Nat) (f : BindSlot → BindSlot) : DiesOnly s (modSlot s die slot f) := by
  unfold Machine.modSlot
  split <;> rfl

section
variable {s t : State} (h : DiesOnly s t)
include h

theorem DiesOnly.wgOf (k : Nat) : wgOf t k = wgOf s k := by
  rw [DiesOnly] at h
  rw [h]
  rfl

theorem DiesOnly.clock : t.clock = s.clock := by
  rw [DiesOnly] at h
  rw [h]

theorem DiesOnly.readWord (l : Nat) : readWord t l = readWord s l := by
  rw [DiesOnly] at h
  rw [h]
  rfl

theorem DiesOnly.paLoc (pa : Nat) : paLoc t pa = paLoc s pa := by
  rw [DiesOnly] at h
  rw [h]
  rfl

theorem DiesOnly.areaPoisoned (w : Workgroup) : areaPoisoned t w = areaPoisoned s w := by
  rw [DiesOnly] at h
  rw [h]
  rfl

end

theorem DiesOnly.foldl {α : Type} {f : State → α → State} (turn : ∀ s a, DiesOnly s (f s a)) (l : List α) (s : State) :
    DiesOnly s (l.foldl f s) := by
  induction l generalizing s with
  | nil => rfl
  | cons a rest ih => exact (ih (f s a)).after (turn s a)

/-- A choice of the distributor changes ages, shares and pointers of its die (R128). -/
theorem DiesOnly.chosen (s : State) (die p : Nat) (cs : List (Nat × BindSlot)) (b : Nat × BindSlot) :
    DiesOnly s (chosen s die p cs b) := by
  unfold Machine.chosen
  refine .after (.modDie _ die _) (.after (.modSlot _ die b.1 _) (.foldl (fun st c => ?_) cs s))
  split
  · rfl
  · exact .modSlot st die c.1 _

/-! ### The request (R129, R130) -/

/-- A victim before another: of a lower level number, or of the same and placed no later. -/
def NoWorse (x y : Nat × Workgroup) : Prop := x.2.prio < y.2.prio ∨ (x.2.prio = y.2.prio ∧ x.2.order ≤ y.2.order)

theorem NoWorse.refl (x : Nat × Workgroup) : NoWorse x x := .inr ⟨rfl, Nat.le_refl _⟩

theorem NoWorse.trans {x y z : Nat × Workgroup} (h : NoWorse x y) (k : NoWorse y z) : NoWorse x z := by
  unfold NoWorse at *
  omega

/-- The worse of two victims, as the request compares them. -/
def worse (b x : Nat × Workgroup) : Nat × Workgroup :=
  if b.2.prio < x.2.prio || (b.2.prio == x.2.prio && b.2.order < x.2.order) then x else b

theorem worse_spec (b x : Nat × Workgroup) : (worse b x = b ∨ worse b x = x) ∧ NoWorse b (worse b x) ∧ NoWorse x (worse b x) := by
  unfold worse
  split
  · next later =>
    simp only [Bool.or_eq_true, Bool.and_eq_true, decide_eq_true_eq, beq_iff_eq] at later
    refine ⟨.inr rfl, ?_, .refl x⟩
    unfold NoWorse
    omega
  · next sooner =>
    simp only [Bool.or_eq_true, Bool.and_eq_true, decide_eq_true_eq, beq_iff_eq] at sooner
    refine ⟨.inl rfl, .refl b, ?_⟩
    unfold NoWorse
    omega

theorem foldl_worse (rest : List (Nat × Workgroup)) (e : Nat × Workgroup) :
    rest.foldl worse e ∈ e :: rest ∧ ∀ x ∈ e :: rest, NoWorse x (rest.foldl worse e) := by
  induction rest generalizing e with
  | nil => simp [NoWorse.refl]
  | cons y rest ih =>
    obtain ⟨member, worst⟩ := ih (worse e y)
    obtain ⟨which, first, second⟩ := worse_spec e y
    have top := worst _ (List.mem_cons_self ..)
    refine ⟨?_, ?_⟩
    · rcases List.mem_cons.mp member with same | later
      · rw [List.foldl_cons, same]
        rcases which with h | h <;> simp [h]
      · exact List.mem_cons_of_mem _ (List.mem_cons_of_mem _ later)
    · intro x hx
      rcases List.mem_cons.mp hx with rfl | hx
      · exact first.trans top
      · rcases List.mem_cons.mp hx with rfl | hx
        · exact second.trans top
        · exact worst x (List.mem_cons_of_mem _ hx)

theorem worstOf_spec {es : List (Nat × Workgroup)} {v : Nat × Workgroup} (h : worstOf es = some v) :
    v ∈ es ∧ ∀ x ∈ es, NoWorse x v := by
  cases es with
  | nil => cases h
  | cons e rest =>
    obtain rfl := Option.some.inj h
    exact foldl_worse rest e

theorem contains_boundaryQuires (rs : List Role) (q : Nat) :
    (boundaryQuires rs).contains q = (decide (q < rs.length) && rs.getD q .general != .matrix) := by
  rw [Bool.eq_iff_iff]
  simp [boundaryQuires]

theorem contains_stopsAtOnce (w : Workgroup) (q : Nat) : (stopsAtOnce w).contains q =
    (decide (q < w.roles.length) && w.roles.getD q .general != .matrix && !(w.det && w.roles.contains .matrix)) := by
  unfold stopsAtOnce
  split
  · next whole => simp only [whole, List.contains_nil, Bool.not_true, Bool.and_false]
  · next free => rw [contains_boundaryQuires, Bool.eq_false_iff.mpr free, Bool.not_false, Bool.and_true]

theorem wgOf_requestPreempt (s : State) (slot wg : Nat) : wgOf (requestPreempt s slot wg) wg =
    { wgOf s wg with preempt := true, preemptAt := s.clock, atPoint := stopsAtOnce (wgOf s wg) } := by
  unfold requestPreempt
  rw [(Undisturbed.noteWake _ _ _).wgOf, wgOf_modCore, wgOf_modWg_self]

theorem dieOf_requestPreempt (s : State) (slot wg d : Nat) : dieOf (requestPreempt s slot wg) d = dieOf s d := by
  unfold requestPreempt
  rw [(Undisturbed.noteWake _ _ _).dieOf, dieOf_modCore, dieOf_modWg]

theorem exec_preemptionRequest {s : State} {die slot w : Nat} {b : BindSlot} {v : Nat × Workgroup} (inModule : die < 4)
    (inTable : slot < 32) (onModule : v.2.core < 256) (bound : tget (dieOf s die).slots slot = some b)
    (waits : trigger s die slot b = some w) (worst : worstOf (victims s die b) = some v) :
    exec (.preemptionRequest die slot v.2.core) s =
      .next (requestPreempt (modSlot s die slot fun x => { x with preemptsFor := x.preemptsFor ++ [w] }) slot v.1) := by
  have inRange : (decide (4 ≤ die) || decide (32 ≤ slot) || decide (256 ≤ v.2.core)) = false := by simp; omega
  show execPreemptionRequest die slot v.2.core s = _
  unfold execPreemptionRequest
  simp only [inRange, Bool.false_eq_true, if_false, bound, waits, worst, beq_self_eq_true, if_true]

/-! ### The forced save (R130) -/

/-- A workgroup that a request has reached, with a quire that has not stopped. -/
structure Stopping (w : Workgroup) : Prop where
  running : w.st = .running
  asked : w.preempt = true
  pending : ∃ q < w.roles.length, w.atPoint.contains q = false

theorem Stopping.notAll {w : Workgroup} (h : Stopping w) : (List.range w.roles.length).all w.atPoint.contains = false := by
  obtain ⟨q, inWg, goesOn⟩ := h.pending
  rw [List.all_eq_false]
  exact ⟨q, List.mem_range.mpr inWg, by rw [goesOn]; decide⟩

theorem exec_forcedSave {s : State} {wg : Nat} (h : Stopping (wgOf s wg)) : exec (.forcedSave wg) s =
    if (wgOf s wg).preemptAt + (wgOf s wg).pbound * 2250 ≤ s.clock then
      .next (setWg s wg { wgOf s wg with atPoint := List.range (wgOf s wg).roles.length, forced := true })
    else .next s := by
  show execForcedSave wg s = _
  unfold execForcedSave clocksPerUs
  simp only [h.running, h.asked, h.notAll, beq_self_eq_true, Bool.not_false, Bool.true_and, Bool.and_true, decide_eq_true_eq]

/-! ### The save (R131, R132) -/

theorem asked_of_saveReady {s : State} {wg : Nat} (ready : saveReady s wg = true) :
    (wgOf s wg).st = .running ∧ (wgOf s wg).preempt = true := by
  simp only [saveReady, Bool.and_eq_true, beq_iff_eq] at ready
  tauto

theorem exec_workgroupSave {s : State} {wg : Nat} {area : BitVec 52}
    (acknowledged : ∀ i ∈ threadsOfWg s wg, (thr s i).posted = []) (ready : saveReady s wg = true)
    (aligned : area.toNat % 4096 = 0) : exec (.workgroupSave wg area) s =
      .next (leaveCore (writeArea (settledThreads s wg) wg area.toNat) wg area.toNat) := by
  obtain ⟨running, asked⟩ := asked_of_saveReady ready
  have noneLost : ((threadsOfWg s wg).find? fun i => (thr s i).posted.any Posted.lost) = none := by
    rw [List.find?_eq_none]
    intro i hi
    rw [acknowledged i hi]
    decide
  show execWorkgroupSave wg area s = _
  unfold execWorkgroupSave
  simp [running, asked, noneLost, ready, aligned, settledThreads]

/-- A workgroup that no fault has met leaves its core for the head of its share. -/
theorem leaveCore_of_sound {s : State} {wg area : Nat} (sound : (wgOf s wg).cause = 0) : ∃ v, Undisturbed s v ∧
    leaveCore s wg area = regate (modSlot
      (setWg v wg { wgOf s wg with st := .saved, area := BitVec.ofNat 52 area, leftCore := (wgOf s wg).core })
      (wgOf s wg).die (wgOf s wg).slot fun b => { b with share := (wgOf s wg).w :: b.share }) (wgOf s wg).core := by
  unfold leaveCore
  simp only [sound, bne_self_eq_false, Bool.false_eq_true, if_false]
  refine ⟨_, ?_, rfl⟩
  exact .after (.stowWork _ wg) (.after (.leaveEngine _ wg) ⟨rfl, rfl⟩)

theorem wgOf_leaveCore {s : State} {wg area : Nat} (sound : (wgOf s wg).cause = 0) : wgOf (leaveCore s wg area) wg =
    { wgOf s wg with st := .saved, area := BitVec.ofNat 52 area, leftCore := (wgOf s wg).core } := by
  obtain ⟨v, -, left⟩ := leaveCore_of_sound (area := area) sound
  rw [left, (Undisturbed.regate _ _).wgOf, (DiesOnly.modSlot _ _ _ _).wgOf, wgOf_setWg_self]

theorem slots_leaveCore {s : State} {wg area : Nat} (sound : (wgOf s wg).cause = 0) {b : BindSlot}
    (bound : tget (dieOf s (wgOf s wg).die).slots (wgOf s wg).slot = some b) :
    tget (dieOf (leaveCore s wg area) (wgOf s wg).die).slots (wgOf s wg).slot =
      some { b with share := (wgOf s wg).w :: b.share } := by
  obtain ⟨v, kept, left⟩ := leaveCore_of_sound (area := area) sound
  rw [left, (Undisturbed.regate _ _).dieOf]
  refine slots_modSlot ?_ _
  rw [dieOf_setWg, kept.dieOf, bound]

/-! ### The restore (R131) -/

theorem wgOf_haltNow (s : State) (wg : Nat) (cause : BitVec 8) :
    wgOf (haltNow s wg cause) wg = { wgOf s wg with st := .stopped, cause, txs := [] } := by
  unfold haltNow
  rw [(Undisturbed.regate _ _).wgOf, wgOf_modCore, wgOf_setWg_self]

/-- The workgroup as a restore places it on a core, its number the next one. -/
def replaced (s : State) (wg core : Nat) : State :=
  setWg { s with nextWg := s.nextWg + 1 } wg (restoredWg s (wgOf s wg) core (paLoc s (wgOf s wg).area.toNat))

/-- The threads and the carrel region put back, and whether a thread block was malformed. -/
def restoredParts (s : State) (wg core : Nat) : State × Bool :=
  let w := wgOf s wg
  let l := paLoc s w.area.toNat
  let r := (List.range w.roles.length).foldl (fun (acc : State × Bool) q =>
    ((restoreQuire acc.1 wg core l q).1, acc.2 || (restoreQuire acc.1 wg core l q).2)) (replaced s wg core, false)
  let dst := carrelLoc core (4096 * w.base)
  (spreadPoison (writeBytes r.1 dst (readBytes r.1 (l + carrelPart w) (4096 * w.units))) dst
    (poisonMask r.1 (l + carrelPart w) (4096 * w.units)), r.2)

theorem Undisturbed.restoredParts (s : State) (wg core : Nat) : Undisturbed (replaced s wg core) (restoredParts s wg core).1 := by
  unfold Machine.restoredParts
  refine .after (.spreadPoison _ _ _) (.after (.writeBytes _ _ _) (.foldl_fst (fun r q => ?_) _ (replaced s wg core, false)))
  dsimp only
  exact .restoreQuire r.1 wg core _ q

/-- A restore that stops its workgroup: a record, and the engine work moves all the same. -/
def restoreStopped (s : State) (wg core : Nat) (cause : BitVec 8) : State :=
  let w := wgOf s wg
  haltNow (moveWork (dispatchNote (restoredParts s wg core).1 w.context core w.w (cause.toNat, none) (recordsOf s w)) wg core)
    wg cause

/-- A restore after which its workgroup runs. -/
def restoreRunning (s : State) (wg core : Nat) : State :=
  let work := placeRuns (moveWork (restoredParts s wg core).1 wg core) wg core
  noteWake (modCore (axResume work (wgOf s wg).context) core fun x => { x with requester := none }) core (7, 0, 0)

/-- A workgroup without the matrix engine runs again, or stops where its area is poisoned or malformed (R291). -/
theorem restoreWg_eq {s : State} {wg : Nat} (core : Nat) (noEngine : (wgOf s wg).owner = false) : restoreWg s wg core =
    if areaPoisoned s (wgOf s wg) then restoreStopped s wg core cPoison
    else if (restoredParts s wg core).2 then restoreStopped s wg core cIllegalField
    else restoreRunning s wg core := by
  unfold restoreWg
  simp only [noEngine, Bool.false_and, Bool.or_false, Bool.false_eq_true, if_false]
  rfl

theorem wgOf_replaced (s : State) (wg core : Nat) :
    wgOf (replaced s wg core) wg = restoredWg s (wgOf s wg) core (paLoc s (wgOf s wg).area.toNat) := wgOf_setWg_self ..

theorem wgOf_restoreStopped (s : State) (wg core : Nat) (cause : BitVec 8) : wgOf (restoreStopped s wg core cause) wg =
    { restoredWg s (wgOf s wg) core (paLoc s (wgOf s wg).area.toNat) with st := .stopped, cause, txs := [] } := by
  unfold restoreStopped
  have kept := Undisturbed.after (.moveWork _ wg core) (.after (.dispatchNote _ (wgOf s wg).context core (wgOf s wg).w
    (cause.toNat, none) (recordsOf s (wgOf s wg))) (.restoredParts s wg core))
  rw [wgOf_haltNow, kept.wgOf, wgOf_replaced]

theorem wgOf_restoreRunning (s : State) (wg core : Nat) : wgOf (restoreRunning s wg core) wg =
    restoredWg s (wgOf s wg) core (paLoc s (wgOf s wg).area.toNat) := by
  have kept : Undisturbed (replaced s wg core) (restoreRunning s wg core) :=
    .after (.noteWake _ core _) (.after (.modCore _ core _) (.after (.axResume _ _) (.after (.placeRuns _ wg core)
      (.after (.moveWork _ wg core) (.restoredParts s wg core)))))
  rw [kept.wgOf, wgOf_replaced]

/-- What a restore without the matrix engine makes of its workgroup. -/
theorem wgOf_restoreWg {s : State} {wg : Nat} (core : Nat) (noEngine : (wgOf s wg).owner = false) :
    (wgOf (restoreWg s wg core) wg).core = core ∧ (wgOf (restoreWg s wg core) wg).preempt = false ∧
      (wgOf (restoreWg s wg core) wg).wdog = readWord s (paLoc s (wgOf s wg).area.toNat + 16) ∧
      ((wgOf (restoreWg s wg core) wg).st = .running ∨ ((wgOf (restoreWg s wg core) wg).st = .stopped ∧
        ((wgOf (restoreWg s wg core) wg).cause = cIllegalField ∨
          (areaPoisoned s (wgOf s wg) = true ∧ (wgOf (restoreWg s wg core) wg).cause = cPoison)))) := by
  rw [restoreWg_eq core noEngine]
  split
  · next dirty =>
    rw [wgOf_restoreStopped]
    exact ⟨rfl, rfl, rfl, .inr ⟨rfl, .inr ⟨dirty, rfl⟩⟩⟩
  · split
    · rw [wgOf_restoreStopped]
      exact ⟨rfl, rfl, rfl, .inr ⟨rfl, .inl rfl⟩⟩
    · rw [wgOf_restoreRunning]
      exact ⟨rfl, rfl, rfl, .inl rfl⟩

theorem exec_workgroupRestore {s : State} {wg core p : Nat} {cs : List (Nat × BindSlot)} {b : BindSlot} (onModule : core < 256)
    (saved : (wgOf s wg).st = .saved) (noSlip : slipsRun s wg core = false) (noEngine : (wgOf s wg).owner = false)
    (wins : arbitrate s (wgOf s wg).die core = some (p, cs, ((wgOf s wg).slot, b)))
    (head : b.share.head? = some (wgOf s wg).w) (chooses : restoreCore s (wg, wgOf s wg) b = some core) :
    exec (.workgroupRestore wg core) s =
      .next (restoreWg (chosen s (wgOf s wg).die p cs ((wgOf s wg).slot, b)) wg core) := by
  show execWorkgroupRestore wg core s = _
  unfold execWorkgroupRestore
  simp only [Nat.not_le.mpr onModule, if_false, saved, noSlip, wins, head, chooses, noEngine, Bool.false_and, bne_self_eq_false,
    Bool.or_false, Bool.false_eq_true, beq_self_eq_true, Bool.and_self, if_true]

end Sys2Proof.Machine

namespace Sys2Proof

open Sys2Proof.Machine

/-- Settles O56: the four events in turn; a save and a restore change the workgroup in one place, and the rest of their work
leaves it alone. -/
theorem preemption : Obligations.Preemption := by
  unfold Obligations.Preemption
  intro s
  refine ⟨?request, ?forced, ?save, ?restore⟩
  case request =>
    intro die slot core w b v inModule inTable onModule bound waits worst here
    subst here
    obtain ⟨victim, noWorse⟩ := worstOf_spec worst
    have asked := slots_modSlot bound fun x => { x with preemptsFor := x.preemptsFor ++ [w] }
    have kept := DiesOnly.modSlot s die slot fun x => { x with preemptsFor := x.preemptsFor ++ [w] }
    refine ⟨victim, noWorse, _, exec_preemptionRequest inModule inTable onModule bound waits worst, ?_, contains_stopsAtOnce _, ?_⟩
    · rw [wgOf_requestPreempt, kept.wgOf, kept.clock]
    · rw [dieOf_requestPreempt, asked]
  case forced =>
    intro wg w running asked pending
    have run := exec_forcedSave (s := s) (wg := wg) ⟨running, asked, pending⟩
    refine ⟨fun early => ?_, fun due => ⟨_, ?_, wgOf_setWg_self .., rfl⟩⟩
    · rw [run, if_neg (Nat.not_le.mpr early)]
    · rw [run, if_pos due]
  case save =>
    intro wg area w acknowledged ready aligned sound
    have kept := Undisturbed.after (.writeArea _ wg area.toNat) (.settledThreads s wg)
    have same := kept.wgOf wg
    refine ⟨_, exec_workgroupSave acknowledged ready aligned, ?_, fun b bound => ?_⟩
    · rw [wgOf_leaveCore (by rw [same]; exact sound), same, BitVec.ofNat_toNat, BitVec.setWidth_eq]
    · have saved := slots_leaveCore (area := area.toNat) (by rw [same]; exact sound) (b := b) (by rw [same, kept.dieOf]; exact bound)
      rw [same] at saved
      exact saved
  case restore =>
    intro wg core p cs b onModule w saved noSlip noEngine wins head chooses
    have kept := DiesOnly.chosen s w.die p cs (w.slot, b)
    refine ⟨_, exec_workgroupRestore onModule saved noSlip noEngine wins head chooses, ?_⟩
    have placed := wgOf_restoreWg (s := chosen s w.die p cs (w.slot, b)) (wg := wg) core (by rw [kept.wgOf]; exact noEngine)
    rw [kept.wgOf, kept.readWord, kept.paLoc, kept.areaPoisoned] at placed
    exact placed

end Sys2Proof
end


section
/-! Memory in canonical form (log entry 2): the lane engine keeps it, whatever becomes of the threads of a gathering, when each
thread's part does (R167, R244, R252). -/

namespace Sys2Proof.Machine

/-- Memory is in canonical form. -/
def Canonical (s : State) : Prop := Memory.wf s.mem = true

theorem Canonical.of_mem {s u : State} (h : Canonical s) (same : u.mem = s.mem) : Canonical u := by
  unfold Canonical
  rw [same]
  exact h

theorem Canonical.writeBytes {s : State} (h : Canonical s) (l : Nat) (bs : List Byte) : Canonical (writeBytes s l bs) :=
  writeBytes_wf l bs h

theorem Canonical.writeWord {s : State} (h : Canonical s) (l v : Nat) : Canonical (writeWord s l v) := writeWord_wf l v h

/-- A fold whose every step keeps the form. -/
theorem Canonical.foldl {α : Type} {f : State → α → State} {s : State} (h : Canonical s)
    (each : ∀ st a, Canonical st → Canonical (f st a)) (l : List α) : Canonical (l.foldl f s) :=
  List.foldlRecOn l f h fun st kept a _ => each st a kept

/-! ### What does not touch memory -/

@[simp] theorem mem_writeReg (s : State) (i : Nat) (r : Reg) (v : Wide) (tag : FTag) : (writeReg s i r v tag).mem = s.mem := rfl

@[simp] theorem mem_writeDst (s : State) (i : Nat) (d : Dst) (v : Nat) : (writeDst s i d v).mem = s.mem := by
  cases d <;> rfl

@[simp] theorem mem_result (s : State) (i k : Nat) (d : Dst) (wide : Bool) (v : Wide) (tag : FTag) :
    (result s i k d wide v tag).mem = s.mem := by
  cases d <;> rfl

@[simp] theorem mem_resultG (s : State) (i k : Nat) (d : Dst) (v : Nat) : (resultG s i k d v).mem = s.mem := mem_result ..

@[simp] theorem mem_resultV (s : State) (i k : Nat) (d : Dst) (v : Nat) (tag : FTag) : (resultV s i k d v tag).mem = s.mem :=
  mem_result ..

@[simp] theorem mem_setFlags (s : State) (i : Nat) (f : BitVec 3) : (setFlags s i f).mem = s.mem := rfl

@[simp] theorem mem_modMx (s : State) (c : Nat) (f : Matrix → Matrix) : (modMx s c f).mem = s.mem := rfl

@[simp] theorem mem_regate (s : State) (c : Nat) : (regate s c).mem = s.mem := by rw [(Calm.regate s c).rest]

@[simp] theorem mem_retire (s : State) (c : Nat) (g : List Nat) (n : Nat) : (retire s c g n).mem = s.mem := by
  rw [(Calm.retire s c g n).rest]

@[simp] theorem mem_settle (s : State) (c : Nat) (g rest : List Nat) (sw : Bool) : (settle s c g rest sw).mem = s.mem := by
  rw [(Calm.settle s c g rest sw).rest]

@[simp] theorem mem_haltNow (s : State) (wg : Nat) (cause : BitVec 8) : (haltNow s wg cause).mem = s.mem := by
  simp [haltNow]

@[simp] theorem mem_stopWg (s : State) (wg : Nat) (cause : BitVec 8) : (stopWg s wg cause).mem = s.mem := by
  unfold stopWg
  dsimp only
  split
  · rfl
  · split
    · exact mem_haltNow ..
    · rfl

@[simp] theorem mem_holdQuire (s : State) (i : Nat) : (holdQuire s i).mem = s.mem := by
  unfold holdQuire
  dsimp only
  split <;> rfl

@[simp] theorem mem_stopThread (s : State) (i : Nat) (cause : BitVec 8) : (stopThread s i cause).mem = s.mem := by
  simp [stopThread]

@[simp] theorem mem_noteWake (s : State) (c : Nat) (e : Nat × Nat × Word) : (noteWake s c e).mem = s.mem := by
  unfold noteWake
  split <;> rfl

@[simp] theorem mem_endWait (s : State) (i : Nat) : (endWait s i).mem = s.mem := by
  unfold endWait
  split
  · rfl
  · exact mem_noteWake ..

@[simp] theorem mem_advance (s : State) (i : Nat) (pcs : List Pc) (next : Pc) : (advance s i pcs next).1.mem = s.mem := by
  unfold advance
  split
  · rfl
  · dsimp only
    split <;> rfl

theorem Canonical.openIssue {s : State} (h : Canonical s) : Canonical (openIssue s) :=
  h.foldl (fun st i kept => by split <;> exact kept) _

theorem Canonical.holdGathering {s : State} (h : Canonical s) (g : List Nat) (w : Wait) : Canonical (holdGathering s g w) :=
  Canonical.of_mem (h.foldl (f := fun st i => modThr st i fun t => { t with wait := some w }) (fun _ _ kept => kept) g)
    (mem_settle ..)

/-! ### Traps, their records and frames (R244, R252) -/

theorem Canonical.report {s : State} (h : Canonical s) (ctx : Nat) (r : FaultRec) : Canonical (report s ctx r) := by
  unfold Machine.report
  split
  · exact h
  · dsimp only
    split
    · exact h.writeWord ..
    · exact ((((h.writeWord ..).writeWord ..).writeWord ..).writeWord ..).writeWord ..

theorem Canonical.stopped {s : State} (h : Canonical s) (ctx i : Nat) (r : FaultRec) (cause : BitVec 8) :
    Canonical (stopThread (Machine.report s ctx r) i cause) := (h.report ctx r).of_mem (mem_stopThread ..)

theorem Canonical.orFree {s : State} (h : Canonical s) (v : Option Nat) : Canonical (orFree s v).2 := by
  cases v <;> exact h

theorem Canonical.enterTrap {s : State} (h : Canonical s) (i : Nat) (x : TrapInfo) (paired : Bool) :
    Canonical (enterTrap s i x paired) := by
  have drawn := (h.orFree (x.sub.map BitVec.toNat)).orFree (x.addr.map BitVec.toNat)
  unfold Machine.enterTrap
  dsimp only
  split
  · exact drawn.stopped ..
  · split
    · exact drawn.stopped ..
    · exact (drawn.writeBytes ..).of_mem (modThr_mem ..)

theorem Canonical.abortTx {s : State} (h : Canonical s) (wg key code operand : Nat) (skip : List Nat) :
    Canonical (abortTx s wg key code operand skip) := by
  unfold Machine.abortTx
  split
  · exact h
  · dsimp only
    refine List.foldlRecOn (motive := Canonical) _ _ (h.of_mem rfl) fun st kept p _ => ?_
    generalize code % 256 + _ = value
    split
    · exact Canonical.enterTrap (kept.of_mem (by simp)) ..
    · exact kept.of_mem (by simp)

theorem Canonical.noteFrames {s : State} (s0 : State) (h : Canonical s) (fuel : Nat) (is : List Nat) :
    Canonical (noteFrames fuel s0 s is) := by
  induction fuel generalizing s0 s is with
  | zero => exact h
  | succ n ih =>
    exact h.foldl (fun _ _ kept => kept.foldl (fun _ _ kept => ih _ (kept.abortTx ..) _) _) _

theorem Canonical.takeTrap {s : State} (h : Canonical s) (i : Nat) (x : TrapInfo) (paired : Bool) :
    Canonical (takeTrap s i x paired) := (h.enterTrap i x paired).noteFrames ..

theorem Canonical.txAbort {s : State} (h : Canonical s) (wg key code operand : Nat) (skip : List Nat) :
    Canonical (txAbort s wg key code operand skip) := by
  unfold Machine.txAbort
  split
  · exact h
  · exact (h.abortTx ..).noteFrames ..

theorem Canonical.trapThread {s : State} (h : Canonical s) (i : Nat) (x : TrapInfo) (paired : Bool) (all : List Nat) :
    Canonical (trapThread s i x paired all) := by
  unfold Machine.trapThread
  split
  · exact (h.txAbort ..).takeTrap ..
  · split <;> exact h.takeTrap ..

/-! ### A unit and its end -/

theorem Canonical.finishUnit {s : State} {r : Issued} (h : Canonical r.st) (n : Nat) : Canonical (finishUnit s r n) := by
  have advanced : ∀ (f : State × Bool → Nat → State × Bool), (∀ acc i, (f acc i).1.mem = acc.1.mem) →
      ∀ g : List Nat, Canonical (g.foldl f (r.st, false)).1 := fun f each g =>
    List.foldlRecOn (motive := fun acc => Canonical acc.1) g f h fun acc kept i _ => kept.of_mem (each acc i)
  have retired : ∀ {u : State} (b : Bool) (g : List Nat), Canonical u → Canonical (if b then retire u s.cur g n else u) := by
    intro u b g kept
    split
    · exact kept.of_mem (mem_retire ..)
    · exact kept
  unfold Machine.finishUnit
  dsimp only
  refine Canonical.of_mem (retired _ _ (Canonical.foldl (Canonical.foldl (advanced _ (fun acc i => ?_) _)
    (fun _ _ kept => kept.trapThread ..) _) (fun _ _ kept => ?_) _)) (mem_settle ..)
  · split
    · rfl
    · split
      · rfl
      · split
        · rfl
        · split
          · rfl
          · exact mem_advance ..
  · split <;> exact kept

/-- An issue so far whose states are in canonical form. -/
def Issued.Sound (r : Issued) : Prop := Canonical r.st ∧ ∀ u, r.stall = some u → Canonical u

/-- `P` holds of the state that a thread's part leaves, if it leaves one. -/
def LaneRes.Leaves (P : State → Prop) : LaneRes → Prop
  | .done s | .yield s | .jump s _ | .wait s _ | .stall s => P s
  | .trap _ | .hold _ => True

theorem Canonical.endPart {s t : State} {r : Issued} (h : Canonical s) (ends : endPart s r = .next t) (sound : r.Sound) :
    Canonical t := by
  obtain ⟨st, stall⟩ := sound
  unfold Machine.endPart at ends
  split at ends
  · next u stalled => cases ends; exact stall u stalled
  · split at ends
    · split at ends
      · cases ends; exact h.holdGathering ..
      · cases ends; exact h
    · split at ends
      · cases ends; exact h
      · split at ends
        · cases ends; exact st.finishUnit 1
        · cases ends; exact st
        · split at ends
          · cases ends; exact st.finishUnit 2
          · cases ends; exact st

theorem Canonical.trapAll {s t : State} {x : TrapInfo} (h : Canonical s) (ends : trapAll s x = .next t) : Canonical t := by
  unfold Machine.trapAll at ends
  exact h.endPart ends ⟨h, fun _ stalled => nomatch stalled⟩

theorem Issued.Sound.lanePart {s : State} {o : Ops} {needs : State → Nat → List (Src × Need)}
    {body : State → State → Nat → LaneRes} {acc : Issued} (sound : acc.Sound)
    (leaves : ∀ st i, Canonical st → (body s st i).Leaves Canonical) (i : Nat) : (lanePart s o needs body acc i).Sound := by
  obtain ⟨st, stall⟩ := sound
  have part := leaves acc.st i st
  have checked : ∀ (b : Bool) (e : Except Pc (Pc × List LoopLevel × Bool × Bool)) {bad : Pc → Issued} {ok : Issued},
      (∀ pc, (bad pc).Sound) → ok.Sound →
      (if b then ok else match e with | .error pc => bad pc | .ok _ => ok).Sound := by
    intro b e bad ok hbad hok
    split
    · exact hok
    · split
      · exact hbad _
      · exact hok
  unfold Machine.lanePart
  dsimp only
  split
  · exact ⟨st, stall⟩
  · split
    · split
      · exact ⟨st, stall⟩
      · exact checked _ _ (fun _ => ⟨st, stall⟩) ⟨st, stall⟩
    · split
      · exact ⟨st, stall⟩
      · generalize body s acc.st i = r at part
        cases r with
        | trap x => exact ⟨st, stall⟩
        | hold w => exact ⟨st, stall⟩
        | stall u =>
          dsimp only
          split
          · exact ⟨st, stall⟩
          · exact ⟨st, stall⟩
          · exact ⟨st, fun _ e => Option.some.inj e ▸ part⟩
        | jump u pc =>
          dsimp only
          split
          · exact ⟨st, stall⟩
          · exact ⟨part, stall⟩
        | done u | yield u | wait u w =>
          dsimp only
          split
          · exact ⟨st, stall⟩
          · exact checked _ _ (fun _ => ⟨st, stall⟩) ⟨part, stall⟩

/-- An instruction of the lane engine each of whose parts keeps the form keeps it on every path. -/
theorem Canonical.laneOpWith {s t : State} {bad : State → Nat → Bool} {o : Ops} {needs : State → Nat → List (Src × Need)}
    {body : State → State → Nat → LaneRes} (h : Canonical s) (ends : laneOpWith bad o needs body s = .next t)
    (leaves : ∀ s0 st i, Canonical s0 → Canonical st → (body s0 st i).Leaves Canonical) : Canonical t := by
  have opened := h.openIssue
  unfold Machine.laneOpWith at ends
  dsimp only at ends
  split at ends
  · exact opened.trapAll ends
  · split at ends
    · cases ends; exact h
    · refine opened.endPart ends ?_
      exact List.foldlRecOn (motive := Issued.Sound) _ _ ⟨opened, fun _ stalled => nomatch stalled⟩
        fun acc sound i _ => sound.lanePart (fun st i => leaves _ st i opened) i

theorem Canonical.laneOp {s t : State} {o : Ops} {needs : List (Src × Need)} {body : State → State → Nat → LaneRes}
    (h : Canonical s) (ends : laneOp o needs body s = .next t)
    (leaves : ∀ s0 st i, Canonical s0 → Canonical st → (body s0 st i).Leaves Canonical) : Canonical t :=
  h.laneOpWith ends leaves

end Sys2Proof.Machine
end

section
/-! The instructions of classes 0x0 to 0x2 keep memory in canonical form: the parts of their threads write registers, flags and
tags only (R167, R171). -/

namespace Sys2Proof.Machine

section Compute
variable {s t : State} {o : Ops}

/-- A choice between a vector and a general result. -/
theorem leaves_ite {P : State → Prop} (b : Bool) {r q : LaneRes} (hr : r.Leaves P) (hq : q.Leaves P) :
    (if b then r else q).Leaves P := by
  cases b
  · exact hq
  · exact hr

/-- The soft error of an implicit source changes nothing. -/
theorem leaves_withXv {P : State → Prop} (t : Thread) (o : Ops) (ns : List Nat) {r : LaneRes} (h : r.Leaves P) :
    (withXv t o ns r).Leaves P := by
  unfold withXv
  split
  · split
    · trivial
    · exact h
  · exact h

theorem Canonical.mov {m : M0} (h : Canonical s) (ends : execMov o m s = .next t) : Canonical t := by
  unfold execMov at ends
  exact h.laneOpWith ends fun _ _ _ _ kept => leaves_ite _ (kept.of_mem (by simp)) (kept.of_mem (by simp))

theorem Canonical.xshf {m : M1} (h : Canonical s) (ends : execXshf o m s = .next t) : Canonical t := by
  unfold execXshf at ends
  exact h.laneOpWith ends fun _ _ _ _ kept => leaves_ite _ (kept.of_mem (by simp)) (kept.of_mem (by simp))

theorem Canonical.cvt {m : M2} (h : Canonical s) (ends : execCvt o m s = .next t) : Canonical t :=
  h.laneOp ends fun _ _ _ _ kept => leaves_withXv _ _ _ (kept.of_mem (by simp))

theorem Canonical.vcvt {m : M2} (h : Canonical s) (ends : execVcvt o m s = .next t) : Canonical t :=
  h.laneOp ends fun _ _ _ _ kept => leaves_withXv _ _ _ (kept.of_mem (by simp))

theorem Canonical.tag {m : M2} (h : Canonical s) (ends : execTag o m s = .next t) : Canonical t := by
  unfold execTag at ends
  dsimp only at ends
  split at ends
  · exact h.laneOp ends fun _ _ _ fresh kept => leaves_ite _ fresh kept
  · exact h.laneOp ends fun _ _ _ _ kept => kept.of_mem (by simp)

theorem Canonical.tagq {m : M2} (h : Canonical s) (ends : execTagq o m s = .next t) : Canonical t := by
  unfold execTagq at ends
  refine h.laneOp ends fun _ _ _ fresh kept => ?_
  dsimp only
  split
  · exact leaves_ite _ fresh (kept.of_mem (by simp))
  · exact kept.of_mem (by simp)
  · exact kept.of_mem (by simp)

end Compute

/-- The class of a word put together from its fields (R65). -/
theorem class_wordOf (opc : BitVec 10) (o : Ops) (m : BitVec 36) :
    (wordOf opc o m).extractLsb' 92 4 = opc.extractLsb' 6 4 := by
  rw [← extract_extract (wordOf opc o m) 86 10 6 4 (by decide), wordOf_opcode]

/-- An instruction that keeps the form, if its word is of one of the classes 0x0 to 0x2. -/
def KeepsCanonical (i : Instr) : Prop :=
  ∀ w s t, encode i = some w → (w.extractLsb' 92 4).toNat < 3 → exec i s = .next t → Canonical s → Canonical t

theorem KeepsCanonical.of_exec {i : Instr} (h : ∀ s t, Canonical s → exec i s = .next t → Canonical t) : KeepsCanonical i :=
  fun _ s t _ _ ends kept => h s t kept ends

theorem KeepsCanonical.of_class {i : Instr} {opc : BitVec 10} {o : Ops} {m : BitVec 36} (word : encode i = some (wordOf opc o m))
    (far : 3 ≤ (opc.extractLsb' 6 4).toNat) : KeepsCanonical i := by
  intro w _ _ he near
  obtain rfl := Option.some.inj (word.symm.trans he)
  rw [class_wordOf] at near
  exact absurd near (Nat.not_lt.mpr far)

theorem KeepsCanonical.of_noWord {i : Instr} (word : encode i = none) : KeepsCanonical i := by
  intro w _ _ he
  rw [word] at he
  cases he

/-- Most of these instructions write a result and flags of their thread; a vector MOV or XSHF writes a wider one, the conversions
look for a soft error first, and TAG and TAGQ may wait for the matrix engine. -/
theorem keepsCanonical (i : Instr) : KeepsCanonical i := by
  cases i with
  | iadd | isub | imul | imulhi | imad | idiv | irem | ineg | iabs | imin | imax | icmp | isel | and | or | xor | andn
  | not | shl | shr | sar | rotl | bfx | bfi | popc | clz | ctz | brev | perm | bset | bclr | btst | lea | movi | hash | crc
  | fadd | fsub | fmul | ffma | fmin | fmax | fabs | fneg | fcmp | fclass | frcp | frsq | fsqrt | fdiv | fexp2 | flog2
  | fsin | fcos | vadd | vsub | vmul | vfma | vmin | vmax | vdot | vsum | vcmp | vsel | vbcast | quantScale | quantCodes
  | deq | pack | unpack | xvset =>
    exact .of_exec fun _ _ h ends => h.laneOp ends fun _ _ _ _ kept => kept.of_mem (by simp)
  | mov => exact .of_exec fun _ _ h ends => h.mov ends
  | xshf => exact .of_exec fun _ _ h ends => h.xshf ends
  | cvt => exact .of_exec fun _ _ h ends => h.cvt ends
  | vcvt => exact .of_exec fun _ _ h ends => h.vcvt ends
  | tag => exact .of_exec fun _ _ h ends => h.tag ends
  | tagq o m => exact .of_exec fun _ _ h ends => h.tagq (m := m) ends
  | unassignedOpcode => exact .of_exec fun _ _ h ends => h.trapAll ends
  | bra | brx | call | callx | ret | loop | lexit | lcnt | lcntSet | exit | waitAcc | waitDep | waitNbar | yield | ppoint
  | nop | trap | bkpt | ld | st | stWide | ldv | stv | ldx | stx | ldk | pfetch | fence | promo | cflush | atom | red | cas
  | bari | bara | barw | nbar | vote | elect | txbeg | txend | txabt | txst | mfs | mts | tret | tlbgen | rdcnt | detm | halt
  | ctxsv | ctxld | mma | mfolio | mldt | mstt | mzero | mdrainSt | mdrainAdd | mdrainRoute | mdrainCat | mdrainFree | mepi
  | mroute | mslip | catq | catw | catsetDef | catsetPub | cqpub | depset | depq | nvsub | nvreapReq | nvreapCard | jcard
  | accq | bop | bred | bsort | btopk | skdef | skdel | skstat | skfold | skseal | sksealOpen | skclr | skclrFree | collate
  | flushp | trimq | clplan | clsend | bwset | rcpace | axpush | axreap | axfence =>
    exact .of_class rfl (by decide)
  | _ => exact .of_noWord rfl

end Sys2Proof.Machine

namespace Sys2Proof

open Sys2Proof.Machine

/-- Settles O6: traps, their frames and their fault records write memory in canonical form, and nothing else that an
instruction of these classes does writes memory at all. -/
theorem computeKeepsMemoryCanonical : Obligations.ComputeKeepsMemoryCanonical := by
  unfold Obligations.ComputeKeepsMemoryCanonical
  exact fun i w s t word near ends kept => keepsCanonical i w s t word near ends kept

end Sys2Proof
end


section
/-! Numbers of w bits: the model's low bits, signed values and codes in the terms of bit vectors. -/

namespace Sys2Proof.Machine

theorem fmtWidth_bounds (t : Fmt) : 4 ≤ fmtWidth t ∧ fmtWidth t ≤ 64 := by
  cases t <;> decide

theorem fmtWidth_pos (t : Fmt) : 0 < fmtWidth t := lt_of_lt_of_le (by decide) (fmtWidth_bounds t).1

@[simp] theorem low_low (w v : Nat) : low w (low w v) = low w v := Nat.mod_mod _ _

theorem low_of_lt {w v : Nat} (h : v < 2 ^ w) : low w v = v := Nat.mod_eq_of_lt h

theorem low_lt (w v : Nat) : low w v < 2 ^ w := Nat.mod_lt _ (Nat.two_pow_pos w)

theorem toNat_ofNat_low (w v : Nat) : (BitVec.ofNat w v).toNat = low w v := BitVec.toNat_ofNat ..

theorem toSigned_eq_toInt (w v : Nat) : toSigned w v = (BitVec.ofNat w v).toInt := by
  have half : v % 2 ^ w < 2 ^ (w - 1) ↔ 2 * (v % 2 ^ w) < 2 ^ w := by
    cases w with
    | zero => simp [Nat.mod_one]
    | succ n =>
      rw [Nat.add_sub_cancel, Nat.pow_succ]
      omega
  rw [BitVec.toInt_eq_toNat_cond, BitVec.toNat_ofNat, toSigned]
  simp only [half]
  push_cast
  rfl

theorem intCode_eq_toNat (w : Nat) (v : Int) : intCode w v = (BitVec.ofInt w v).toNat := (BitVec.toNat_ofInt v).symm

theorem intCode_toInt {w : Nat} (x : BitVec w) : intCode w x.toInt = x.toNat := by
  rw [intCode_eq_toNat, BitVec.ofInt_toInt]

theorem intCode_lt (w : Nat) (v : Int) : intCode w v < 2 ^ w := by
  rw [intCode_eq_toNat]
  exact BitVec.isLt _

theorem intCode_neg_one (w : Nat) : intCode w (-1) = 2 ^ w - 1 := by
  have pos : 0 < 2 ^ w := Nat.two_pow_pos w
  rw [intCode, show (-1 : Int) = -1 + (2 ^ w : Nat) - (2 ^ w : Nat) by omega, Int.sub_emod_right,
    Int.emod_eq_of_lt (by omega) (by omega)]
  omega

theorem toSigned_low (w v : Nat) : toSigned w (low w v) = toSigned w v := by
  simp only [toSigned, low, Nat.mod_mod, Int.natCast_emod]
  norm_cast
  simp

theorem intOf_low (ty : Fmt) (v : Nat) : intOf ty (low (fmtWidth ty) v) = intOf ty v := by
  simp only [intOf, toSigned_low, low_low]

theorem intOrder_lt {a b : Int} : intOrder a b < 0 ↔ a < b := by
  unfold intOrder
  split
  · simp_all
  · split <;> simp_all

theorem intOrder_eq {a b : Int} : intOrder a b = 0 ↔ a = b := by
  unfold intOrder
  split
  · simp; omega
  · split <;> simp <;> omega

theorem intOrder_pos {a b : Int} : 0 < intOrder a b ↔ b < a := by
  unfold intOrder
  split
  · simp; omega
  · split <;> simp <;> omega

theorem intOrder_le {a b : Int} : intOrder a b ≤ 0 ↔ a ≤ b := by
  rw [← not_lt, intOrder_pos, not_lt]

theorem intOrder_nonneg {a b : Int} : 0 ≤ intOrder a b ↔ b ≤ a := by
  rw [← not_lt, intOrder_lt, not_lt]

/-- A condition by its code (R170). -/
theorem condHolds_cases (c : Nat) (ord : Int) : (if condHolds c ord then 1 else 0 : Nat) =
    match c with
    | 0 => if ord = 0 then 1 else 0
    | 1 => if ord ≠ 0 then 1 else 0
    | 2 => if ord < 0 then 1 else 0
    | 3 => if ord ≤ 0 then 1 else 0
    | 4 => if 0 < ord then 1 else 0
    | 5 => if 0 ≤ ord then 1 else 0
    | 6 => 0
    | _ => 1 := by
  unfold condHolds
  split <;> simp

/-- An integer condition by its code (R170). -/
theorem condHolds_intOrder (c : Nat) (a b : Int) : (if condHolds c (intOrder a b) then 1 else 0 : Nat) =
    match c with
    | 0 => if a = b then 1 else 0
    | 1 => if a ≠ b then 1 else 0
    | 2 => if a < b then 1 else 0
    | 3 => if a ≤ b then 1 else 0
    | 4 => if b < a then 1 else 0
    | 5 => if b ≤ a then 1 else 0
    | 6 => 0
    | _ => 1 := by
  rw [condHolds_cases]
  simp only [ne_eq, intOrder_lt, intOrder_eq, intOrder_pos, intOrder_le, intOrder_nonneg]

theorem low_mod_two {ty : Fmt} (v : Nat) : low (fmtWidth ty) v % 2 = v % 2 :=
  Nat.mod_mod_of_dvd _ (dvd_pow_self 2 (fmtWidth_pos ty).ne')

end Sys2Proof.Machine
end

section
/-! Class 0x0, arithmetic, logic and shifts (R170 to R173): each instruction is one of three shared operations, whose laws give
its result in the terms of the table. -/

namespace Sys2Proof.Machine

section Laws
variable {i : Instr} {s : State} {o : Ops} {m : M0}

/-- An exact integer of the operands' values, wrapped or clamped (R172). -/
theorem arithOp_gives {f : Int → Int → Int → Int} (he : exec i s = arithOp f o m s) (hs : Ready s)
    (hr : Readable s o (wordNeeds o)) {v : Thread → Int}
    (hv : ∀ t, f (intOf m.ty (srcN t o.a)) (intOf m.ty (opB t o m)) (intOf m.ty (srcN t o.c)) = v t) :
    Completes i s o.gd fun _ t => putG t o.d (fitInt m.ty m.sat (v t)) := by
  unfold arithOp at he
  exact intOp_gives _ he hs hr fun t => by rw [hv]

/-- A function of the low w bits, modulo 2^w. -/
theorem bitsOp_gives {f : Nat → Nat → Nat → Nat} (he : exec i s = bitsOp f o m s) (hs : Ready s)
    (hr : Readable s o (wordNeeds o)) {v : Thread → Nat}
    (hv : ∀ t, low (fmtWidth m.ty) (f (low (fmtWidth m.ty) (srcN t o.a)) (low (fmtWidth m.ty) (opB t o m))
      (low (fmtWidth m.ty) (srcN t o.c))) = v t) : Completes i s o.gd fun _ t => putG t o.d (v t) := by
  unfold bitsOp at he
  exact intOp_gives _ he hs hr hv

end Laws

end Sys2Proof.Machine

namespace Sys2Proof

open Sys2Proof.Machine

/-- Settles O10: each is the shared operation of its row; a zero divisor is the one case that .sat does not act on. -/
theorem integerResults : Obligations.IntegerResults := by
  unfold Obligations.IntegerResults
  constructor
  · intro s o m hs hr A B C gives
    refine ⟨?iadd, ?isub, ?imul, ?imulhi, ?imad, ?irem, ?ineg, ?iabs, ?imin, ?imax⟩
    case iadd => exact arithOp_gives (f := fun a b _ => a + b) rfl hs hr fun _ => rfl
    case isub => exact arithOp_gives (f := fun a b _ => a - b) rfl hs hr fun _ => rfl
    case imul => exact arithOp_gives (f := fun a b _ => a * b) rfl hs hr fun _ => rfl
    case imulhi =>
      exact arithOp_gives (f := fun a b _ => a * b / ((2 ^ fmtWidth m.ty : Nat) : Int)) rfl hs hr fun _ => by push_cast; rfl
    case imad => exact arithOp_gives (f := fun a b c => a * b + c) rfl hs hr fun _ => rfl
    case irem =>
      exact arithOp_gives (f := fun a b _ => remainder a b) rfl hs hr fun t => by
        simp only [remainder, beq_iff_eq, Int.tmod_def]; rfl
    case ineg => exact arithOp_gives (f := fun a _ _ => -a) rfl hs hr fun _ => rfl
    case iabs => exact arithOp_gives (f := fun a _ _ => (a.natAbs : Int)) rfl hs hr fun _ => Int.natCast_natAbs _
    case imin => exact arithOp_gives (f := fun a b _ => min a b) rfl hs hr fun _ => rfl
    case imax => exact arithOp_gives (f := fun a b _ => max a b) rfl hs hr fun _ => rfl
  · intro s o m hs hr A B w gives
    refine ⟨?idiv, ?icmp, ?isel⟩
    case idiv =>
      refine intOp_gives (f := fun a b _ => fitInt m.ty (m.sat && intOf m.ty b != 0) (quotient (intOf m.ty a) (intOf m.ty b))) _
        rfl hs hr fun t => ?_
      by_cases zero : intOf m.ty (opB t o m) = 0
      · simp [B, w, zero, quotient, fitInt, intCode_neg_one]
      · have nonzero : (intOf m.ty (opB t o m) != 0) = true := bne_iff_ne.mpr zero
        simp [A, B, zero, nonzero, quotient]
    case icmp =>
      refine intOp_gives (f := fun a b _ => if intCond m.ty m.cond.toNat a b then 1 else 0) _ rfl hs hr fun t => ?_
      exact condHolds_intOrder ..
    case isel =>
      refine bitsOp_gives (f := fun a b c => if c % 2 == 1 then a else b) rfl hs hr fun t => ?_
      simp only [low_mod_two, beq_iff_eq, apply_ite (low _), low_low]
      rfl

end Sys2Proof
end

section
/-! Class 0x0, logic and shifts (R172, R173), in the terms of bit vectors of the type's width. -/

namespace Sys2Proof.Machine

/-- A result that is a number of w bits is not changed by taking it modulo 2^w. -/
theorem low_toNat {w : Nat} (x : BitVec w) : low w x.toNat = x.toNat := low_of_lt x.isLt

theorem notBits_low (w v : Nat) : notBits w (low w v) = (~~~(BitVec.ofNat w v)).toNat := by
  rw [BitVec.toNat_not, toNat_ofNat_low]
  rfl

theorem low_not (w v : Nat) : low w (notBits w (low w v)) = (~~~(BitVec.ofNat w v)).toNat := by
  rw [notBits_low, low_toNat]

theorem low_and (w a b : Nat) : low w (low w a &&& low w b) = (BitVec.ofNat w a &&& BitVec.ofNat w b).toNat := by
  rw [← low_toNat, BitVec.toNat_and, toNat_ofNat_low, toNat_ofNat_low]

theorem low_or (w a b : Nat) : low w (low w a ||| low w b) = (BitVec.ofNat w a ||| BitVec.ofNat w b).toNat := by
  rw [← low_toNat, BitVec.toNat_or, toNat_ofNat_low, toNat_ofNat_low]

theorem low_xor (w a b : Nat) : low w (low w a ^^^ low w b) = (BitVec.ofNat w a ^^^ BitVec.ofNat w b).toNat := by
  rw [← low_toNat, BitVec.toNat_xor, toNat_ofNat_low, toNat_ofNat_low]

theorem low_andn (w a b : Nat) :
    low w (low w a &&& notBits w (low w b)) = (BitVec.ofNat w a &&& ~~~(BitVec.ofNat w b)).toNat := by
  rw [← low_toNat, BitVec.toNat_and, toNat_ofNat_low, notBits_low]

/-- SHL as a shift of w bits. -/
theorem low_shl (w v k : Nat) : low w (low w v * 2 ^ k) = (BitVec.ofNat w v <<< k).toNat := by
  rw [BitVec.toNat_shiftLeft, toNat_ofNat_low, Nat.shiftLeft_eq]
  rfl

theorem low_shr (w v k : Nat) : low w (low w v / 2 ^ k) = (BitVec.ofNat w v >>> k).toNat := by
  rw [BitVec.toNat_ushiftRight, toNat_ofNat_low, Nat.shiftRight_eq_div_pow]
  exact low_of_lt (lt_of_le_of_lt (Nat.div_le_self _ _) (low_lt w v))

theorem low_sar (w v k : Nat) :
    low w (intCode w (toSigned w (low w v) / ((2 ^ k : Nat) : Int))) = ((BitVec.ofNat w v).sshiftRight k).toNat := by
  rw [low_of_lt (intCode_lt w _), toSigned_low, toSigned_eq_toInt, ← Int.shiftRight_eq_div_pow, ← BitVec.toInt_sshiftRight,
    intCode_toInt]

theorem low_rotl {w : Nat} (v k : Nat) (pos : 0 < w) :
    low w (low w v * 2 ^ (k % w) + low w v / 2 ^ (w - k % w)) = ((BitVec.ofNat w v).rotateLeft k).toNat := by
  have short : k % w < w := Nat.mod_lt _ pos
  have upper : low w v / 2 ^ (w - k % w) < 2 ^ (k % w) := by
    rw [Nat.div_lt_iff_lt_mul (Nat.two_pow_pos _), ← Nat.pow_add, Nat.add_sub_cancel' short.le]
    exact low_lt w v
  rw [BitVec.toNat_rotateLeft, toNat_ofNat_low, ← Nat.shiftLeft_eq, Nat.shiftLeft_add_eq_or_of_lt upper,
    Nat.shiftRight_eq_div_pow, low, Nat.or_mod_two_pow]
  congr 1
  exact Nat.mod_eq_of_lt (lt_of_le_of_lt (Nat.div_le_self _ _) (low_lt w v))

theorem shiftCount_low (ty : Fmt) (v : Nat) : shiftCount ty (low (fmtWidth ty) v) = (intOf ty v % 128).toNat := by
  rw [shiftCount, intOf_low]

end Sys2Proof.Machine

namespace Sys2Proof

open Sys2Proof.Machine

/-- Settles O11: the model's arithmetic on the low bits is that of bit vectors. -/
theorem logicAndShiftResults : Obligations.LogicAndShiftResults := by
  unfold Obligations.LogicAndShiftResults
  constructor
  · intro s o m hs hr w A B gives
    refine ⟨?and, ?or, ?xor, ?andn, ?not⟩
    case and => exact bitsOp_gives (f := fun a b _ => a &&& b) rfl hs hr fun _ => low_and ..
    case or => exact bitsOp_gives (f := fun a b _ => a ||| b) rfl hs hr fun _ => low_or ..
    case xor => exact bitsOp_gives (f := fun a b _ => a ^^^ b) rfl hs hr fun _ => low_xor ..
    case andn => exact bitsOp_gives (f := fun a b _ => a &&& notBits (fmtWidth m.ty) b) rfl hs hr fun _ => low_andn ..
    case not => exact bitsOp_gives (f := fun a _ _ => notBits (fmtWidth m.ty) a) rfl hs hr fun _ => low_not ..
  · intro s o m hs hr w A count gives
    have pos : 0 < w := fmtWidth_pos m.ty
    refine ⟨?shl, ?shr, ?sar, ?rotl⟩
    case shl =>
      refine bitsOp_gives (f := fun a b _ => a * 2 ^ shiftCount m.ty b) rfl hs hr fun _ => ?_
      rw [shiftCount_low, low_shl]
    case shr =>
      refine bitsOp_gives (f := fun a b _ => a / 2 ^ shiftCount m.ty b) rfl hs hr fun _ => ?_
      rw [shiftCount_low, low_shr]
    case sar =>
      refine bitsOp_gives (f := fun a b _ => intCode w (toSigned w a / ((2 ^ shiftCount m.ty b : Nat) : Int))) rfl hs hr
        fun _ => ?_
      rw [shiftCount_low, low_sar]
    case rotl =>
      refine bitsOp_gives (f := fun a b _ => a * 2 ^ (shiftCount m.ty b % w) + a / 2 ^ (w - shiftCount m.ty b % w)) rfl hs hr
        fun _ => ?_
      rw [shiftCount_low, low_rotl _ _ pos]

end Sys2Proof
end

section
/-! Class 0x0, fields and single bits (R172, R173), bit by bit. -/

namespace Sys2Proof.Machine

theorem testBit_low (w v i : Nat) : (low w v).testBit i = (decide (i < w) && v.testBit i) := Nat.testBit_mod_two_pow ..

theorem testBit_low_of_lt {w i : Nat} (v : Nat) (h : i < w) : (low w v).testBit i = v.testBit i := by
  simp [testBit_low, h]

theorem testBit_notBits {w v : Nat} (h : v < 2 ^ w) (i : Nat) : (notBits w v).testBit i = (decide (i < w) && !v.testBit i) := by
  rw [← Nat.testBit_two_pow_sub_succ h, notBits, Nat.sub_sub, Nat.add_comm 1]

/-- A clear bit set by addition. -/
theorem testBit_add_two_pow {x k : Nat} (clear : x.testBit k = false) (j : Nat) :
    (x + 2 ^ k).testBit j = (x.testBit j || decide (j = k)) := by
  have even : x / 2 ^ k % 2 = 0 := by
    rw [Nat.testBit_eq_decide_div_mod_eq, decide_eq_false_iff_not] at clear
    omega
  have below : x % 2 ^ k < 2 ^ k := Nat.mod_lt _ (Nat.two_pow_pos k)
  have parts : x = 2 ^ k * (x / 2 ^ k) + x % 2 ^ k := (Nat.div_add_mod ..).symm
  have sum : x + 2 ^ k = 2 ^ k * (x / 2 ^ k + 1) + x % 2 ^ k := by
    rw [Nat.mul_add, Nat.mul_one]
    omega
  rw [sum, Nat.testBit_two_pow_mul_add _ below]
  conv_rhs => rw [parts, Nat.testBit_two_pow_mul_add _ below]
  rcases Nat.lt_or_ge j k with lower | upper
  · simp [lower, lower.ne]
  · rw [if_neg (Nat.not_lt.mpr upper), if_neg (Nat.not_lt.mpr upper)]
    obtain ⟨d, rfl⟩ := Nat.exists_eq_add_of_le upper
    rw [Nat.add_sub_cancel_left]
    cases d with
    | zero => simp [even]; omega
    | succ d =>
      rw [Nat.testBit_succ, Nat.testBit_succ, show (x / 2 ^ k + 1) / 2 = x / 2 ^ k / 2 by omega]
      simp

/-- A set bit cleared by subtraction. -/
theorem testBit_sub_two_pow {x k : Nat} (set : x.testBit k = true) (j : Nat) :
    (x - 2 ^ k).testBit j = (x.testBit j && decide (j ≠ k)) := by
  have sum : 2 ^ k + (x - 2 ^ k) = x := Nat.add_sub_cancel' (Nat.ge_two_pow_of_testBit set)
  have clear : (x - 2 ^ k).testBit k = false := by
    have := Nat.testBit_two_pow_add_eq (x - 2 ^ k) k
    rw [sum, set] at this
    simpa using this.symm
  have whole := testBit_add_two_pow clear j
  rw [Nat.add_comm, sum] at whole
  by_cases here : j = k
  · simp [here, clear]
  · simp [whole, here]

theorem testBit_cleared (x k j : Nat) :
    (if x.testBit k then x - 2 ^ k else x).testBit j = (x.testBit j && decide (j ≠ k)) := by
  cases set : x.testBit k with
  | true => exact testBit_sub_two_pow set j
  | false =>
    by_cases here : j = k
    · simp [here, set]
    · simp [here]

/-! ### Fields -/

/-- BFI: the field of the low bits of C at `p`, `n` bits long, in place of A's. -/
theorem testBit_insert {w a c p n : Nat} (fits : w ≤ 128) (short : p + n ≤ 128) (i : Nat) :
    (low w ((low w a &&& notBits 128 ((2 ^ n - 1) * 2 ^ p)) ||| (low w c % 2 ^ n * 2 ^ p))).testBit i =
      (decide (i < w) && if p ≤ i ∧ i < p + n then (c.testBit (i - p) && decide (i - p < w)) else a.testBit i) := by
  have mask : (2 ^ n - 1) * 2 ^ p < 2 ^ 128 := by
    calc (2 ^ n - 1) * 2 ^ p < 2 ^ n * 2 ^ p :=
          Nat.mul_lt_mul_of_pos_right (Nat.sub_lt (Nat.two_pow_pos n) Nat.one_pos) (Nat.two_pow_pos p)
      _ = 2 ^ (p + n) := by rw [← Nat.pow_add, Nat.add_comm]
      _ ≤ 2 ^ 128 := Nat.pow_le_pow_right (by decide) short
  simp only [testBit_low, Nat.testBit_or, Nat.testBit_and, testBit_notBits mask, Nat.testBit_mul_two_pow,
    Nat.testBit_two_pow_sub_one, Nat.testBit_mod_two_pow]
  by_cases inWidth : i < w
  · have inMask : i < 128 := by omega
    by_cases atOrAbove : p ≤ i
    · by_cases inField : i < p + n
      · have within : i - p < n := by omega
        simp [inWidth, atOrAbove, inField, within, Bool.and_comm]
      · have beyond : ¬i - p < n := by omega
        simp [inWidth, inField, beyond, inMask]
    · simp [inWidth, atOrAbove, inMask]
  · simp [inWidth]

/-! ### Counts of zeros and ones -/

theorem popCount_low (w v : Nat) : low w (popCount w (low w v)) = ((List.range w).filter fun i => v.testBit i).length := by
  have same : (List.range w).filter (fun i => bit (low w v) i) = (List.range w).filter fun i => v.testBit i :=
    List.filter_congr fun i hi => by rw [bit_eq_testBit, testBit_low_of_lt _ (List.mem_range.mp hi)]
  have few : ((List.range w).filter fun i => v.testBit i).length ≤ w :=
    (List.length_filter_le ..).trans List.length_range.le
  rw [popCount, same, low_of_lt (lt_of_le_of_lt few Nat.lt_two_pow_self)]

theorem leadingZeros_le (w v : Nat) : leadingZeros w v ≤ w := by
  unfold leadingZeros
  split <;> omega

theorem leadingZeros_low (w v : Nat) :
    (∀ i, w - leadingZeros w (low w v) ≤ i → i < w → v.testBit i = false) ∧
      (leadingZeros w (low w v) < w → v.testBit (w - 1 - leadingZeros w (low w v)) = true) := by
  unfold leadingZeros
  by_cases zero : low w v = 0
  · refine ⟨fun i _ hi => ?_, by simp [zero]⟩
    rw [← testBit_low_of_lt v hi, zero, Nat.zero_testBit]
  · have short : Nat.log2 (low w v) < w := (Nat.log2_lt zero).mpr (low_lt w v)
    simp only [beq_iff_eq, zero, if_false]
    refine ⟨fun i above hi => ?_, fun _ => ?_⟩
    · rw [← testBit_low_of_lt v hi]
      exact Nat.testBit_lt_two_pow (lt_of_lt_of_le Nat.lt_log2_self (Nat.pow_le_pow_right (by decide) (by omega)))
    · rw [show w - 1 - (w - 1 - Nat.log2 (low w v)) = Nat.log2 (low w v) by omega, ← testBit_low_of_lt v short]
      exact Nat.testBit_log2 zero

theorem trailingZeros_low (w v : Nat) : trailingZeros w (low w v) ≤ w ∧
    (∀ i < trailingZeros w (low w v), v.testBit i = false) ∧
    (trailingZeros w (low w v) < w → v.testBit (trailingZeros w (low w v)) = true) := by
  unfold trailingZeros
  split
  · next k found =>
    obtain ⟨set, inRange, before⟩ := List.find?_range_eq_some.mp found
    have short := List.mem_range.mp inRange
    refine ⟨short.le, fun i hi => ?_, fun _ => ?_⟩
    · rw [← testBit_low_of_lt v (hi.trans short)]
      simpa [bit_eq_testBit] using before i hi
    · rw [← testBit_low_of_lt v short, ← bit_eq_testBit, set]
  · next none =>
    refine ⟨le_rfl, fun i hi => ?_, fun h => absurd h (lt_irrefl w)⟩
    rw [← testBit_low_of_lt v hi]
    simpa [bit_eq_testBit] using List.find?_range_eq_none.mp none i hi

/-! ### Bits moved, set, cleared -/

/-- The bits below `n` moved to the top of `w` bits. -/
theorem testBit_reversed (w v n : Nat) (h : n ≤ w) (j : Nat) :
    ((List.range n).foldl (fun acc i => if bit v i then acc + 2 ^ (w - 1 - i) else acc) 0).testBit j =
      (decide (w - n ≤ j ∧ j < w) && v.testBit (w - 1 - j)) := by
  induction n generalizing j with
  | zero => simp
  | succ n ih =>
    have before := ih (by omega)
    rw [List.range_succ, List.foldl_append, List.foldl_cons, List.foldl_nil, bit_eq_testBit]
    have mirror : w - 1 - (w - 1 - n) = n := by omega
    have wider : j ≠ w - 1 - n → ((w - n ≤ j ∧ j < w) ↔ (w - (n + 1) ≤ j ∧ j < w)) := by omega
    cases set : v.testBit n with
    | false =>
      rw [if_neg (by simp), before]
      by_cases here : j = w - 1 - n
      · simp [here, mirror, set]
      · simp only [wider here]
    | true =>
      rw [if_pos rfl, testBit_add_two_pow (by rw [ih (by omega)]; simp; omega), before]
      by_cases here : j = w - 1 - n
      · simp [here, mirror, set]
        omega
      · simp only [wider here, here, decide_false, Bool.or_false]

theorem testBit_reverseBits (w v i : Nat) : (reverseBits w v).testBit i = (decide (i < w) && v.testBit (w - 1 - i)) := by
  rw [reverseBits, testBit_reversed w v w le_rfl]
  simp

theorem bitIndex_low (ty : Fmt) (v : Nat) :
    bitIndex ty (low (fmtWidth ty) v) = (intOf ty v % ((fmtWidth ty : Nat) : Int)).toNat := by
  rw [bitIndex, intOf_low]

end Sys2Proof.Machine

namespace Sys2Proof

open Sys2Proof.Machine

/-- Settles O12: a field by the bits it takes and leaves, a count by the bits it counts, a moved bit by where it goes. -/
theorem fieldAndBitResults : Obligations.FieldAndBitResults := by
  unfold Obligations.FieldAndBitResults
  constructor
  · intro s o m hs hr w A p n
    have fits : w ≤ 64 := (fmtWidth_bounds m.ty).2
    refine ⟨?bfx, ?bfi⟩
    case bfx =>
      refine intOp_gives (f := fun a b _ =>
        if fieldLen b == 0 then 0
        else if isI m.ty then intCode w (toSigned (fieldLen b) (low w a / 2 ^ fieldPos b % 2 ^ fieldLen b))
        else low w (low w a / 2 ^ fieldPos b % 2 ^ fieldLen b)) _ rfl hs hr fun t => ?_
      have signed : ∀ k x : Nat, toSigned k (x % 2 ^ k) = toSigned k x := toSigned_low
      simp only [signed, beq_iff_eq]
      rfl
    case bfi =>
      refine ⟨_, intOp_gives (f := fun a b c =>
        low w ((low w a &&& notBits 128 ((2 ^ fieldLen b - 1) * 2 ^ fieldPos b)) |||
          (low w c % 2 ^ fieldLen b * 2 ^ fieldPos b))) _ rfl hs hr fun _ => rfl, fun t i => ?_⟩
      have inOperand : fieldPos (opB t o m) + fieldLen (opB t o m) ≤ 128 := by
        unfold fieldPos fieldLen
        omega
      exact testBit_insert (by omega) inOperand i
  · intro s o m hs hr w A B at_ gives
    have pos : 0 < w := fmtWidth_pos m.ty
    have count : ∀ k ≤ w, low w k = k := fun k hk => low_of_lt (lt_of_le_of_lt hk Nat.lt_two_pow_self)
    have named : ∀ t, bitIndex m.ty (low w (B t)) = at_ t := fun t => bitIndex_low m.ty (B t)
    have inside : ∀ t, at_ t < w := fun t => by
      have positive : (0 : Int) < w := Int.natCast_pos.mpr pos
      exact (Int.toNat_lt (Int.emod_nonneg _ positive.ne')).mpr (Int.emod_lt_of_pos _ positive)
    refine ⟨?popc, ?clz, ?ctz, ?brev, ?bset, ?bclr, ?btst, ?lea⟩
    case popc => exact bitsOp_gives (f := fun a _ _ => popCount w a) rfl hs hr fun _ => popCount_low ..
    case clz =>
      refine ⟨_, bitsOp_gives (f := fun a _ _ => leadingZeros w a) rfl hs hr fun t => count _ (leadingZeros_le w _),
        fun t => ?_⟩
      exact ⟨leadingZeros_le .., leadingZeros_low w (A t)⟩
    case ctz =>
      refine ⟨_, bitsOp_gives (f := fun a _ _ => trailingZeros w a) rfl hs hr fun t => count _ (trailingZeros_low w _).1,
        fun t => ?_⟩
      exact trailingZeros_low w (A t)
    case brev =>
      refine ⟨_, bitsOp_gives (f := fun a _ _ => reverseBits w a) rfl hs hr fun _ => rfl, fun t i => ?_⟩
      rw [testBit_low, testBit_reverseBits]
      by_cases hi : i < w
      · rw [testBit_low_of_lt _ (by omega)]
        simp [hi, A, w]
      · simp [hi, w]
    case bset =>
      refine ⟨_, bitsOp_gives (f := fun a b _ => a ||| 2 ^ bitIndex m.ty b) rfl hs hr fun _ => rfl, fun t i => ?_⟩
      rw [named, testBit_low, Nat.testBit_or, testBit_low, Nat.testBit_two_pow]
      by_cases hi : i < w <;> simp [hi, A, w, eq_comm]
    case bclr =>
      refine ⟨_, bitsOp_gives (f := fun a b _ => if bit a (bitIndex m.ty b) then a - 2 ^ bitIndex m.ty b else a) rfl hs hr
        fun _ => rfl, fun t i => ?_⟩
      rw [named, testBit_low, bit_eq_testBit, testBit_cleared, testBit_low]
      by_cases hi : i < w <;> simp [hi, A, w]
    case btst =>
      refine bitsOp_gives (f := fun a b _ => if bit a (bitIndex m.ty b) then 1 else 0) rfl hs hr fun t => ?_
      rw [named, bit_eq_testBit, testBit_low_of_lt _ (inside t)]
      split
      · exact count 1 pos
      · exact count 0 pos.le
    case lea =>
      refine bitsOp_gives (f := fun a b _ => a + b * 2 ^ (m.cond.toNat % 8)) rfl hs hr fun t => ?_
      simp [low, Nat.add_mod, Nat.mul_mod, A, B, w]

end Sys2Proof
end

section
/-! Class 0x0, moves, permutes, hashes and checks (R174 to R176). -/

namespace Sys2Proof.Machine

theorem Completes.congr {i : Instr} {s : State} {gd : Guard} {f g : Nat → Thread → Thread} (h : Completes i s gd f)
    (same : ∀ j ∈ gathering s, guardTrue (thr s j) gd = true → f j (thr s j) = g j (thr s j)) : Completes i s gd g := by
  obtain ⟨u, run, rest⟩ := h
  exact completes_of g run ⟨u, rfl, rest⟩ same

/-- An instruction with one result, whose operand needs depend on the thread (R174, R184). -/
theorem laneOpWith_result {i : Instr} {s : State} {o : Ops} {needs : State → Nat → List (Src × Need)}
    {body : State → State → Nat → LaneRes} (k : Nat) (wide : Nat → Thread → Bool) (v : Nat → Thread → Wide)
    (tag : Nat → Thread → FTag) (he : exec i s = laneOpWith (fun _ _ => false) o needs body s) (hs : Ready s)
    (hr : ∀ j ∈ gathering s, opsBeyond (wgOf s (tidWg j)) (tidQuire j) o = false ∧
      (guardTrue (thr s j) o.gd = true → operandTrap (thr s j) (needs s j) = none))
    (hneeds : ∀ st j, thr st j = thr s j → needs st j = needs s j)
    (hbody : ∀ st j, j ∈ gathering s → thr st j = thr s j → body s st j =
      .done (result st j k o.d (wide j (thr s j)) (v j (thr s j)) (tag j (thr s j)))) :
    Completes i s o.gd fun j t => put t o.d (v j t) (tag j t) := by
  obtain ⟨u, run, elsewhere, threads⟩ := laneOpWith_completes s (fun _ _ => false) o needs body
    (fun j t => resultOn k o.d (wide j t) (v j t) (tag j t) t) hs (fun j hj => ⟨(hr j hj).1, rfl⟩)
    (fun st j hj same active => by rw [hneeds st j same, (hr j hj).2 active])
    (fun st j hj _ same _ => by
      rw [hbody st j hj same, result_eq]
      exact congrArg LaneRes.done (modThr_congr (by rw [same])))
    (fun j hj => by
      have clear := hs.clear j hj
      obtain ⟨moved, exited, pend, nest, pc⟩ := resultOn_fields k o.d (wide j (thr s j)) (v j (thr s j)) (tag j (thr s j)) (thr s j)
      exact ⟨moved.trans clear.runs.1, exited.trans clear.runs.2.1, pend clear.noPend, nest, pc⟩)
  refine ⟨u, he.trans run, elsewhere, fun j hj => ?_⟩
  rw [threads j hj]
  split
  · exact landed_resultOn _ _ _ _ _ _ (hs.clear j hj).noEcc.1
  · rfl

/-- A register value as a move takes it: all 256 bits with the tag, or `x` as a 64-bit number (R174). -/
theorem put_moved (t : Thread) (d : Dst) (vector : Bool) (v : Wide) (tag : FTag) (x : Nat) :
    put t d (if vector then v else (BitVec.ofNat 64 x).setWidth 256) (if vector then tag else 0) =
      if vector then put t d v tag else putG t d x := by
  cases vector <;> rfl

theorem result_moved (st : State) (j k : Nat) (d : Dst) (vector : Bool) (v : Wide) (tag : FTag) (x : Nat) :
    (if vector then LaneRes.done (result st j k d true v tag) else .done (resultG st j k d x)) =
      .done (result st j k d vector (if vector then v else (BitVec.ofNat 64 x).setWidth 256) (if vector then tag else 0)) := by
  cases vector <;> rfl

/-! ### PERM (R172) -/

/-- The number whose bytes from the lowest on are `b 0` to `b (n - 1)`. -/
def byteSum (b : Nat → Nat) (n : Nat) : Nat := (List.range n).foldl (fun acc i => acc + b i * 2 ^ (8 * i)) 0

theorem byteSum_succ (b : Nat → Nat) (n : Nat) : byteSum b (n + 1) = byteSum b n + 256 ^ n * b n := by
  rw [byteSum, List.range_succ, List.foldl_append, List.foldl_cons, List.foldl_nil, ← byteSum, Nat.pow_mul, Nat.mul_comm]

theorem byteSum_lt {b : Nat → Nat} (small : ∀ i, b i < 256) (n : Nat) : byteSum b n < 256 ^ n := by
  induction n with
  | zero => exact Nat.one_pos
  | succ n ih =>
    have := small n
    rw [byteSum_succ, Nat.pow_succ]
    nlinarith

theorem byte_byteSum {b : Nat → Nat} (small : ∀ i, b i < 256) {n i : Nat} (h : i < n) : byteSum b n / 256 ^ i % 256 = b i := by
  induction n with
  | zero => omega
  | succ n ih =>
    rw [byteSum_succ]
    rcases Nat.lt_succ_iff_lt_or_eq.mp h with lower | rfl
    · obtain ⟨d, rfl⟩ := Nat.exists_eq_add_of_lt lower
      rw [show 256 ^ (i + d + 1) * b (i + d + 1) = 256 ^ i * (256 * (256 ^ d * b (i + d + 1))) by ring,
        Nat.add_mul_div_left _ _ (Nat.pow_pos (by decide)), Nat.add_mul_mod_self_left, ih lower]
    · rw [Nat.add_mul_div_left _ _ (Nat.pow_pos (by decide)), Nat.div_eq_of_lt (byteSum_lt small i), Nat.zero_add,
        Nat.mod_eq_of_lt (small i)]

/-- The byte of b:a that a nibble of `c` picks (R172). -/
def permByte (a b c i : Nat) : Nat := (a + b * 2 ^ 64) / 2 ^ (8 * (c / 2 ^ (4 * i) % 16)) % 256

theorem permByte_eq (a b c i : Nat) : permByte a b c i = (a + b * 2 ^ 64) / 256 ^ (c / 16 ^ i % 16) % 256 := by
  rw [permByte, Nat.pow_mul, Nat.pow_mul]

/-! ### HASH (R175) -/

theorem hash32_eq (sp key : Nat) :
    hash32 sp key = (sp % 2 ^ 32 * ((key ^^^ (key / 2 ^ 32)) % 2 ^ 32) + sp / 2 ^ 32) % 2 ^ 32 := by
  rw [hash32, bits, Nat.add_mod_mod]

theorem srcN_lt (t : Thread) (x : Src) : srcN t x < 2 ^ 64 := BitVec.isLt _

theorem opB_lt (t : Thread) (o : Ops) (m : M0) : opB t o m < 2 ^ 64 := by
  unfold opB
  split
  · exact BitVec.isLt _
  · exact srcN_lt ..

end Sys2Proof.Machine

namespace Sys2Proof

open Sys2Proof.Machine

/-- Settles O13: a move by whether it takes the vector form, a permute byte by byte, the hashes and checks by their rows. -/
theorem movesHashesAndChecks : Obligations.MovesHashesAndChecks := by
  unfold Obligations.MovesHashesAndChecks
  intro s o m hs w A B C
  refine ⟨fun hr => ?mov, fun imm hr => ?movi, fun hr => ⟨fun b64 => ?perm, fun n64 => ?hash64, fun n32 => ?hash32, ?crc⟩⟩
  case mov =>
    refine (laneOpWith_result 0 (fun _ t => movesVector o (m.ty == .b64) t)
      (fun _ t => if movesVector o (m.ty == .b64) t then srcWide t o.a else (BitVec.ofNat 64 (A t % 2 ^ w)).setWidth 256)
      (fun _ t => if movesVector o (m.ty == .b64) t then srcTag t o.a else 0)
      (show exec (.mov o m) s = execMov o m s from rfl) hs hr (fun st j same => by rw [same])
      fun st j hj same => ?_).congr fun j _ _ => put_moved ..
    rw [← result_moved, same]
    rfl
  case movi =>
    exact laneOp_resultG 0 (fun _ t => t) (fun _ _ => (imm.signExtend 64).toNat)
      (show exec (.movi o imm) s = execMovi o imm s from rfl) hs hr (fun st j _ _ _ _ => by simp only [resultG, result_id])
      fun _ => mild_id
  case perm =>
    have wide : ∀ {x}, x < 2 ^ 64 → low (fmtWidth m.ty) x = x := fun h => by rw [b64]; exact low_of_lt h
    refine ⟨_, bitsOp_gives (f := fun a b c => byteSum (permByte a b c) 8) rfl hs hr fun _ => rfl, fun t i => ⟨?_, fun hi => ?_⟩⟩
    · rw [b64]
      exact low_lt ..
    · have small : ∀ i, permByte (A t) (B t) (C t) i < 256 := fun _ => Nat.mod_lt _ (by decide)
      rw [wide (srcN_lt ..), wide (opB_lt ..), wide (srcN_lt ..), wide (byteSum_lt small 8), byte_byteSum small hi, permByte_eq]
  case hash64 =>
    refine intOp_gives (f := fun a b c =>
      if m.ty == .n32 then hash32 b a / 2 ^ (32 - if c % 64 == 0 || 32 < c % 64 then 32 else c % 64)
      else low 64 (b * a + c)) _ rfl hs hr fun t => ?_
    rw [n64]
    rfl
  case hash32 =>
    refine intOp_gives (f := fun a b c =>
      if m.ty == .n32 then hash32 b a / 2 ^ (32 - if c % 64 == 0 || 32 < c % 64 then 32 else c % 64)
      else low 64 (b * a + c)) _ rfl hs hr fun t => ?_
    simp only [n32, BEq.rfl, if_true, hash32_eq, Bool.or_eq_true, beq_iff_eq, decide_eq_true_eq]
    rfl
  case crc =>
    exact intOp_gives (f := fun a b _ => (List.range (fmtWidth m.ty / 8)).foldl
      (fun c i => crcByte m.cond.toNat c (b / 2 ^ (8 * i) % 256)) (low (crcWidth m.cond.toNat) a)) _ rfl hs hr fun _ => rfl

end Sys2Proof
end

section
/-! Class 0x1, scalar (R170, R177 to R180). -/

namespace Sys2Proof.Machine

/-- The condition of FCMP on the operands of a thread, with whether it raises INVALID. -/
def fcmpOf (o : Ops) (m : M1) (t : Thread) : Bool × Bool :=
  floatCond m.ty m.cond.toNat (low (fmtWidth m.ty) (srcN t o.a)) (low (fmtWidth m.ty) (srcN t o.b))

/-- An instruction that raises no flag leaves FSTAT. -/
theorem fstat_or_none (t : Thread) : { t with fstat := t.fstat ||| 0 } = t := by
  have same : t.fstat ||| 0 = t.fstat := BitVec.or_zero
  rw [same]

/-- FCMP as one result after a change of the flags. -/
theorem fcmp_gives {s : State} {o : Ops} (m : M1) (hs : Ready s) (hr : Readable s o (wordNeeds o)) :
    Completes (.fcmp o m) s o.gd fun _ t =>
      putG { t with fstat := t.fstat ||| invalidFlag (fcmpOf o m t).2 } o.d (if (fcmpOf o m t).1 then 1 else 0) := by
  refine laneOp_resultG 1 (fun _ t => { t with fstat := t.fstat ||| invalidFlag (fcmpOf o m t).2 })
    (fun _ t => if (fcmpOf o m t).1 then 1 else 0) (show exec (.fcmp o m) s = execFcmp o m s from rfl) hs hr
    (fun st j _ _ same _ => ?_) fun _ _ => ⟨rfl, rfl, rfl, rfl, rfl, rfl⟩
  simp only [same, setFlags]
  congr 2
  exact modThr_congr (by rw [same]; rfl)

theorem fclass_gives {s : State} {o : Ops} (m : M1) (hs : Ready s) (hr : Readable s o (wordNeeds o)) :
    Completes (.fclass o m) s o.gd fun _ t => putG t o.d (2 ^ classOf m.ty (low (fmtWidth m.ty) (srcN t o.a))) :=
  laneOp_resultG 1 (fun _ t => t) (fun _ t => 2 ^ classOf m.ty (low (fmtWidth m.ty) (srcN t o.a)))
    (show exec (.fclass o m) s = execFclass o m s from rfl) hs hr
    (fun st j _ _ same _ => by simp only [resultG, result_id, same]) fun _ => mild_id

end Sys2Proof.Machine

namespace Sys2Proof

open Sys2Proof.Machine

/-- Settles O14: each is the shared rounded operation of one exact function. -/
theorem floatArithmeticResults : Obligations.FloatArithmeticResults := by
  unfold Obligations.FloatArithmeticResults
  intro s o m hs hr A B C gives
  refine ⟨?fadd, ?fsub, ?fmul, ?ffma, ?fmin, ?fmax, ?fabs, ?fneg, ?frcp, ?frsq, ?fsqrt, ?fdiv, ?fexp2, ?flog2, ?fsin, ?fcos⟩
  case fadd => exact floatOp_gives (f := fun a b _ => exactly (addNum m.rnd a b)) _ rfl hs hr fun _ => rfl
  case fsub => exact floatOp_gives (f := fun a b _ => exactly (addNum m.rnd a (negNum b))) _ rfl hs hr fun _ => rfl
  case fmul => exact floatOp_gives (f := fun a b _ => exactly (mulNum a b)) _ rfl hs hr fun _ => rfl
  case ffma => exact floatOp_gives (f := fun a b c => exactly (fmaNum m.rnd a b c)) _ rfl hs hr fun _ => rfl
  case fmin => exact floatOp_gives (f := fun a b _ => exactly (minNum a b)) _ rfl hs hr fun _ => rfl
  case fmax => exact floatOp_gives (f := fun a b _ => exactly (maxNum a b)) _ rfl hs hr fun _ => rfl
  case fabs => exact floatOp_gives (f := fun a _ _ => exactly (absNum a, isSig a)) _ rfl hs hr fun _ => rfl
  case fneg => exact floatOp_gives (f := fun a _ _ => exactly (negNum a, isSig a)) _ rfl hs hr fun _ => rfl
  case frcp => exact floatOp_gives (f := fun a _ _ => rcpNum a) _ rfl hs hr fun _ => rfl
  case frsq => exact floatOp_gives (f := fun a _ _ => rsqNum a) _ rfl hs hr fun _ => rfl
  case fsqrt => exact floatOp_gives (f := fun a _ _ => sqrtNum a) _ rfl hs hr fun _ => rfl
  case fdiv => exact floatOp_gives (f := fun a b _ => divNum a b) _ rfl hs hr fun _ => rfl
  case fexp2 => exact floatOp_gives (f := fun a _ _ => exp2Num a) _ rfl hs hr fun _ => rfl
  case flog2 => exact floatOp_gives (f := fun a _ _ => log2Num a) _ rfl hs hr fun _ => rfl
  case fsin => exact floatOp_gives (f := fun a _ _ => sinNum a) _ rfl hs hr fun _ => rfl
  case fcos => exact floatOp_gives (f := fun a _ _ => cosNum a) _ rfl hs hr fun _ => rfl

/-- Settles O15: FCMP by whether an operand is a NaN, FCLASS by the class of its operand. -/
theorem floatCompareAndClass : Obligations.FloatCompareAndClass := by
  unfold Obligations.FloatCompareAndClass
  intro s o m hs hr a A B c
  refine ⟨(fcmp_gives m hs hr).congr fun j _ _ => ?fcmp, _, fclass_gives m hs hr, fun t => ?fclass⟩
  case fcmp =>
    generalize thr s j = t
    have cond : fcmpOf o m t =
        if isNan (A t) || isNan (B t) then (c == 1 || c == 6, isSig (A t) || isSig (B t) || (2 ≤ c && c ≤ 5))
        else (condHolds c (cmpNum (A t) (B t)), false) := rfl
    rw [cond]
    cases nan : isNan (A t) || isNan (B t) with
    | true =>
      simp only [if_true, invalidFlag, Bool.or_eq_true, beq_iff_eq]
    | false =>
      simp only [Bool.false_eq_true, if_false, invalidFlag, fstat_or_none]
      exact congrArg (putG t o.d) (condHolds_cases ..)
  case fclass =>
    have cls : classOf m.ty (low (fmtWidth m.ty) (srcN t o.a)) = match A t with
        | .inf n => if n then 0 else 7
        | .nan sg => if sg then 8 else 9
        | .fin n k _ => if k == 0 then (if n then 3 else 4)
          else if a t % 2 ^ signBit m.ty / 2 ^ (floatShape m.ty).man == 0 then (if n then 2 else 5) else if n then 1 else 6 := rfl
    rw [cls]
    cases A t with
    | inf n => rfl
    | nan sg => rfl
    | fin n k e =>
      refine ⟨fun zero => ?_, fun nonzero sub => ?_, fun nonzero normal => ?_⟩
      · simp [zero]
      · simp [nonzero, sub]
      · simp [nonzero, normal]

end Sys2Proof
end

section
/-! Class 0x1, vectors (R178, R181 to R184). -/

namespace Sys2Proof.Machine

/-! ### Element-wise arithmetic (R181) -/

/-- Element i of an element-wise operation, from the elements i of its operands (R181). -/
def vecElem (ff : Num → Num → Num → Exact) (fi : Int → Int → Int → Int) (m : M1) (x y z draw : Nat) : Nat × BitVec 3 :=
  if isF m.ty then
    roundExact m.ty m.rnd m.sat draw (ff (decodeFloat m.ty x) (decodeFloat m.ty y) (decodeFloat m.ty z))
  else (fitInt m.ty m.sat (fi (intOf m.ty x) (intOf m.ty y) (intOf m.ty z)), 0)

theorem vecOp_gives {i : Instr} {s : State} {o : Ops} {m : M1} {ff : Num → Num → Num → Exact} {fi : Int → Int → Int → Int}
    {useC : Bool} (he : exec i s = vecOp ff fi useC o m s) (hs : Ready s)
    (hr : Readable s o [(o.a, .typed m.ty), (o.b, needB m.ty (m.var.getLsbD 0)), (o.c, if useC then .typed m.ty else .word)]) :
    Completes i s o.gd fun _ t =>
      let r := drawElems m.rnd (elemCount m.ty) (fun i => vecElem ff fi m (elemAt m.ty (srcW t o.a) i)
        (elemB t m.ty o.b (m.var.getLsbD 0) i) (elemAt m.ty (srcW t o.c) i)) t
      put { r.2.2 with fstat := t.fstat ||| r.2.1 } o.d (BitVec.ofNat 256 (packElems m.ty r.1)) (tagOf m.ty 0) := by
  unfold vecOp at he
  refine laneOp_drawsV 1 (elemCount m.ty) m.rnd (fun t i => vecElem ff fi m (elemAt m.ty (srcW t o.a) i)
    (elemB t m.ty o.b (m.var.getLsbD 0) i) (elemAt m.ty (srcW t o.c) i)) (fun _ => packElems m.ty) (tagOf m.ty 0) he hs hr
    fun st j same => ?_
  rw [same]
  rfl

/-! ### Sums (R182) -/

theorem foldl_add_eq_sum (f : Nat → Int) (l : List Nat) (z : Int) :
    l.foldl (fun acc i => acc + f i) z = (l.map f).sum + z := by
  induction l generalizing z with
  | nil => simp
  | cons a rest ih =>
    rw [List.foldl_cons, ih, List.map_cons, List.sum_cons]
    ring

theorem sumOp_floats {i : Instr} {s : State} {o : Ops} {m : M1} {terms : Thread → List (Num × Bool)} {total : Thread → Int}
    {needs : List (Src × Need)} (he : exec i s = sumOp terms total needs o m s) (float : isIN m.ty = false) (hs : Ready s)
    (hr : Readable s o needs) : Completes i s o.gd fun _ t =>
      let r := roundExact (dotType m.ty) m.rnd m.sat (drawOf t m.rnd) (sumExact m.rnd (terms t))
      putG { afterDraw t m.rnd with fstat := t.fstat ||| r.2 } o.d r.1 := by
  unfold sumOp at he
  refine laneOp_resultG 1
    (fun _ t => { afterDraw t m.rnd with fstat := t.fstat |||
      (roundExact (dotType m.ty) m.rnd m.sat (drawOf t m.rnd) (sumExact m.rnd (terms t))).2 })
    (fun _ t => (roundExact (dotType m.ty) m.rnd m.sat (drawOf t m.rnd) (sumExact m.rnd (terms t))).1) he hs hr
    (fun st j _ _ same _ => ?_) fun _ t => afterDraw_mild m.rnd t
  simp only [float, Bool.false_eq_true, if_false]
  rw [setFlags_setThr _ _ (fun t => afterDraw t m.rnd), ← same]
  congr 2
  exact modThr_congr (by simp only [afterDraw_fstat])

theorem sumOp_ints {i : Instr} {s : State} {o : Ops} {m : M1} {terms : Thread → List (Num × Bool)} {total : Thread → Int}
    {needs : List (Src × Need)} (he : exec i s = sumOp terms total needs o m s) (int : isIN m.ty = true) (hs : Ready s)
    (hr : Readable s o needs) :
    Completes i s o.gd fun _ t => putG (afterDraw t m.rnd) o.d (fit64 m.ty m.sat (total t)) := by
  unfold sumOp at he
  refine laneOp_resultG 1 (fun _ t => afterDraw t m.rnd) (fun _ t => fit64 m.ty m.sat (total t)) he hs hr
    (fun st j _ _ same _ => ?_) fun _ t => afterDraw_mild m.rnd t
  simp only [int, if_true]
  rw [setFlags_setThr _ _ (fun t => afterDraw t m.rnd), ← same]
  congr 2
  exact modThr_congr (fstat_or_none _)

/-- Operand C of VDOT in the type of its result (R182). -/
def dotAddend (o : Ops) (m : M1) (t : Thread) : Num :=
  decodeFloat (dotType m.ty) (low (fmtWidth (dotType m.ty)) (srcN t o.c))

/-- The terms of VDOT on float elements: the products and C. -/
def dotTerms (o : Ops) (m : M1) (t : Thread) : List (Num × Bool) :=
  ((List.range (elemCount m.ty)).map fun i =>
    mulNum (decodeFloat m.ty (elemAt m.ty (srcW t o.a) i)) (decodeFloat m.ty (elemAt m.ty (srcW t o.b) i))) ++
    [(dotAddend o m t, isSig (dotAddend o m t))]

/-- The total of VDOT on integer elements. -/
def dotTotal (o : Ops) (m : M1) (t : Thread) : Int :=
  (List.range (elemCount m.ty)).foldl (fun acc i =>
      acc + intOf m.ty (elemAt m.ty (srcW t o.a) i) * intOf m.ty (elemAt m.ty (srcW t o.b) i))
    (intOf (if isI m.ty then .i64 else .n64) (srcN t o.c))

/-- The terms of VSUM on float elements. -/
def sumTerms (o : Ops) (m : M1) (t : Thread) : List (Num × Bool) :=
  (List.range (elemCount m.ty)).map fun i =>
    (decodeFloat m.ty (elemAt m.ty (srcW t o.a) i), isSig (decodeFloat m.ty (elemAt m.ty (srcW t o.a) i)))

/-- The total of VSUM on integer elements. -/
def sumTotal (o : Ops) (m : M1) (t : Thread) : Int :=
  (List.range (elemCount m.ty)).foldl (fun acc i => acc + intOf m.ty (elemAt m.ty (srcW t o.a) i)) 0

theorem exec_vdot (o : Ops) (m : M1) (s : State) : exec (.vdot o m) s =
    sumOp (dotTerms o m) (dotTotal o m) [(o.a, .typed m.ty), (o.b, .typed m.ty), (o.c, .word)] o m s := rfl

theorem exec_vsum (o : Ops) (m : M1) (s : State) : exec (.vsum o m) s =
    sumOp (sumTerms o m) (sumTotal o m) [(o.a, .typed m.ty)] o m s := rfl

theorem dotType_eq (ty : Fmt) : dotType ty = if ty = .f64 then .f64 else .f32 := by
  simp only [dotType, beq_iff_eq]

/-! ### Compare (R183) -/

/-- The condition of VCMP on elements i, with whether it raises INVALID. -/
def vcmpOf (o : Ops) (m : M1) (t : Thread) (i : Nat) : Bool × Bool :=
  let x := elemAt m.ty (srcW t o.a) i
  let y := elemB t m.ty o.b (m.var.getLsbD 0) i
  if isF m.ty then floatCond m.ty m.cond.toNat x y else (intCond m.ty m.cond.toNat x y, false)

/-- The conditions of all elements. -/
def vcmpAll (o : Ops) (m : M1) (t : Thread) : List (Bool × Bool) := (List.range (elemCount m.ty)).map (vcmpOf o m t)

/-- The number whose bit i is the condition of elements i. -/
def maskOf (rs : List (Bool × Bool)) : Nat := rs.foldr (fun r acc => 2 * acc + (if r.1 then 1 else 0)) 0

theorem testBit_maskOf (rs : List (Bool × Bool)) (i : Nat) : (maskOf rs).testBit i = (rs.map Prod.fst).getD i false := by
  induction rs generalizing i with
  | nil => simp [maskOf]
  | cons r rest ih =>
    have cons : maskOf (r :: rest) = 2 * maskOf rest + if r.1 then 1 else 0 := rfl
    have half : maskOf (r :: rest) / 2 = maskOf rest := by rw [cons]; split <;> omega
    cases i with
    | zero =>
      rw [Nat.testBit_zero, cons, List.map_cons, List.getD_cons_zero]
      cases r.1 <;> simp
    | succ i => rw [Nat.testBit_succ, half, ih, List.map_cons, List.getD_cons_succ]

theorem vcmp_gives {s : State} {o : Ops} (m : M1) (hs : Ready s)
    (hr : Readable s o [(o.a, .typed m.ty), (o.b, needB m.ty (m.var.getLsbD 0))]) :
    Completes (.vcmp o m) s o.gd fun _ t =>
      putG { t with fstat := t.fstat ||| invalidFlag ((vcmpAll o m t).any Prod.snd) } o.d (maskOf (vcmpAll o m t)) := by
  refine laneOp_resultG 1 (fun _ t => { t with fstat := t.fstat ||| invalidFlag ((vcmpAll o m t).any Prod.snd) })
    (fun _ t => maskOf (vcmpAll o m t)) (show exec (.vcmp o m) s = execVcmp o m s from rfl) hs hr
    (fun st j _ _ same _ => ?_) fun _ _ => ⟨rfl, rfl, rfl, rfl, rfl, rfl⟩
  simp only [same, setFlags]
  congr 2
  exact modThr_congr (by rw [same]; rfl)

/-! ### Shuffle (R144, R184) -/

/-- The lane value of XSHF: its immediate, or operand B (R184). -/
def shuffleBy (o : Ops) (m : M1) (t : Thread) : Nat := if m.var.getLsbD 2 then bits m.var.toNat 7 3 else srcN t o.b

/-- The number of the thread whose register XSHF takes: that of the source lane in the operand set, else j (R184). -/
def shuffleFrom (s : State) (o : Ops) (m : M1) (j : Nat) (t : Thread) : Nat :=
  match shuffleLane (m.var.toNat % 4) t.lane (shuffleBy o m t) with
  | some l => if (operandSet s j o.gd).contains (tidOf t.wg t.quire l) then tidOf t.wg t.quire l else j
  | none => j

/-- That thread as it stands when the instruction begins (R144). -/
def shuffleSource (s : State) (o : Ops) (m : M1) (j : Nat) (t : Thread) : Thread := thr s (shuffleFrom s o m j t)

/-- The number that a mode of XSHF gives, a lane or not (R184). -/
def shuffleTarget (mode l k : Nat) : Option Nat :=
  match mode with
  | 0 => some k
  | 1 => if k ≤ l then some (l - k) else none
  | 2 => some (l + k)
  | _ => some (l ^^^ k)

theorem shuffleLane_eq (mode l k : Nat) : shuffleLane mode l k =
    match shuffleTarget mode l k with
    | some x => if x < 32 then some x else none
    | none => none := rfl

theorem shuffleFrom_eq (s : State) (o : Ops) (m : M1) (j : Nat) (t : Thread) : shuffleFrom s o m j t =
    match shuffleTarget (m.var.toNat % 4) t.lane (shuffleBy o m t) with
    | some l => if l < 32 ∧ tidOf t.wg t.quire l ∈ operandSet s j o.gd then tidOf t.wg t.quire l else j
    | none => j := by
  rw [shuffleFrom, shuffleLane_eq]
  cases shuffleTarget (m.var.toNat % 4) t.lane (shuffleBy o m t) with
  | none => rfl
  | some l =>
    by_cases inside : l < 32
    · simp only [inside, if_true, true_and, List.contains_iff_mem]
    · simp only [inside, if_false, false_and]

theorem xshf_gives {s : State} {o : Ops} (m : M1) (hs : Ready s)
    (hr : ∀ i ∈ gathering s, opsBeyond (wgOf s (tidWg i)) (tidQuire i) o = false ∧ (guardTrue (thr s i) o.gd = true →
      operandTrap (thr s i) [(o.a, if movesVector o true (thr s i) then .raw else .word), (o.b, .word)] = none)) :
    Completes (.xshf o m) s o.gd fun j t =>
      if movesVector o true t then
        put t o.d (srcWide (shuffleSource s o m j t) o.a) (srcTag (shuffleSource s o m j t) o.a)
      else putG t o.d (srcN (shuffleSource s o m j t) o.a % 2 ^ fmtWidth m.ty) := by
  refine (laneOpWith_result 1 (fun _ t => movesVector o true t)
    (fun j t => if movesVector o true t then srcWide (shuffleSource s o m j t) o.a
      else (BitVec.ofNat 64 (srcN (shuffleSource s o m j t) o.a % 2 ^ fmtWidth m.ty)).setWidth 256)
    (fun j t => if movesVector o true t then srcTag (shuffleSource s o m j t) o.a else 0)
    (show exec (.xshf o m) s = execXshf o m s from rfl) hs hr (fun st j same => by rw [same])
    fun st j hj same => ?_).congr fun j _ _ => put_moved ..
  have own : (if shuffleFrom s o m j (thr s j) == j then thr s j else thr s (shuffleFrom s o m j (thr s j))) =
      shuffleSource s o m j (thr s j) := by
    split
    · next self => rw [shuffleSource, eq_of_beq self]
    · rfl
  rw [← result_moved, ← own, same]
  rfl

end Sys2Proof.Machine

namespace Sys2Proof

open Sys2Proof.Machine

/-- Settles O16: each is the shared element-wise operation of one function of floats and one of integers. -/
theorem vectorArithmeticResults : Obligations.VectorArithmeticResults := by
  unfold Obligations.VectorArithmeticResults
  intro s o m hs bs A B C gives
  refine ⟨fun hr => ⟨?vadd, ?vsub, ?vmul, ?vmin, ?vmax⟩, fun hr => ?vfma⟩
  case vadd =>
    exact vecOp_gives (ff := fun a b _ => exactly (addNum m.rnd a b)) (fi := fun a b _ => a + b) (useC := false) rfl hs hr
  case vsub =>
    exact vecOp_gives (ff := fun a b _ => exactly (addNum m.rnd a (negNum b))) (fi := fun a b _ => a - b) (useC := false)
      rfl hs hr
  case vmul =>
    exact vecOp_gives (ff := fun a b _ => exactly (mulNum a b)) (fi := fun a b _ => a * b) (useC := false) rfl hs hr
  case vmin =>
    exact vecOp_gives (ff := fun a b _ => exactly (minNum a b)) (fi := fun a b _ => min a b) (useC := false) rfl hs hr
  case vmax =>
    exact vecOp_gives (ff := fun a b _ => exactly (maxNum a b)) (fi := fun a b _ => max a b) (useC := false) rfl hs hr
  case vfma =>
    exact vecOp_gives (ff := fun a b c => exactly (fmaNum m.rnd a b c)) (fi := fun a b c => a * b + c) (useC := true)
      rfl hs hr

/-- Settles O17: a sum of floats rounded once, a sum of integers by adding its terms up. -/
theorem vectorSums : Obligations.VectorSums := by
  unfold Obligations.VectorSums
  intro s o m hs n rt A B c floats ints
  have type : dotType m.ty = rt := dotType_eq m.ty
  have addend : ∀ t, dotAddend o m t = c t := fun t => by rw [dotAddend, type]; rfl
  refine ⟨fun hr => ⟨fun float => ?dotFloat, fun int => ?dotInt⟩, fun hr => ⟨fun float => ?sumFloat, fun int => ?sumInt⟩⟩
  case dotFloat =>
    refine (sumOp_floats (exec_vdot o m s) float hs hr).congr fun j _ _ => ?_
    simp only [type, dotTerms, addend]
    rfl
  case dotInt =>
    refine (sumOp_ints (exec_vdot o m s) int hs hr).congr fun j _ _ => ?_
    rw [dotTotal, foldl_add_eq_sum]
    rfl
  case sumFloat =>
    refine (sumOp_floats (exec_vsum o m s) float hs hr).congr fun j _ _ => ?_
    rw [type]
    rfl
  case sumInt =>
    refine (sumOp_ints (exec_vsum o m s) int hs hr).congr fun j _ _ => ?_
    rw [sumTotal, foldl_add_eq_sum, add_zero]
    rfl

/-- Settles O18: VCMP bit by bit, VSEL and VBCAST element by element, XSHF by its source lane. -/
theorem vectorCompareSelectShuffle : Obligations.VectorCompareSelectShuffle := by
  unfold Obligations.VectorCompareSelectShuffle
  intro s o m hs bs n A B
  refine ⟨fun hr => ⟨_, _, vcmp_gives m hs hr, fun t => ⟨fun i => ?mask, ?invalid⟩⟩, fun hr => ?vsel, fun hr => ?vbcast,
    fun hr => ?xshf⟩
  case mask =>
    rw [testBit_maskOf, vcmpAll, List.map_map]
    by_cases inside : i < n
    · rw [List.getD_eq_getElem _ _ (by simpa using inside), List.getElem_map, List.getElem_range]
      simp only [Function.comp_apply, inside, decide_true, Bool.true_and, vcmpOf]
      split <;> rfl
    · rw [List.getD_eq_default _ _ (by simpa using inside)]
      simp [inside]
  case invalid =>
    have one : ∀ i, (vcmpOf o m t i).2 = true ↔ isF m.ty = true ∧ (floatCond m.ty m.cond.toNat (A t i) (B t i)).2 = true := by
      intro i
      unfold vcmpOf
      by_cases float : isF m.ty = true
      · simp only [float, if_true, true_and]
        rfl
      · simp only [float, if_false, Bool.false_eq_true, false_and]
    simp only [vcmpAll, List.any_map, List.any_eq_true, List.mem_range, Function.comp_apply, one]
    exact ⟨fun ⟨i, inside, float, raised⟩ => ⟨float, i, inside, raised⟩,
      fun ⟨float, i, inside, raised⟩ => ⟨i, inside, float, raised⟩⟩
  case vsel =>
    refine laneOp_resultV 1 (fun _ t => t) _ _ (show exec (.vsel o m) s = execVsel o m s from rfl) hs hr
      (fun st j _ _ same _ => ?_) fun _ => mild_id
    simp only [result_id, same, bit_eq_testBit, resultV]
    refine congrArg (fun es => LaneRes.done (result st j 1 o.d true (BitVec.ofNat 256 (packElems m.ty es)) (tagOf m.ty 0))) ?_
    refine List.map_congr_left fun i _ => ?_
    split <;> rfl
  case vbcast =>
    exact laneOp_resultV 1 (fun _ t => t) _ _ (show exec (.vbcast o m) s = execVbcast o m s from rfl) hs hr
      (fun st j _ _ same _ => by simp only [result_id, same, resultV]; rfl) fun _ => mild_id
  case xshf =>
    refine (xshf_gives m hs hr).congr fun j _ _ => ?_
    rw [shuffleSource, shuffleFrom_eq]
    rfl

end Sys2Proof
end

section
/-! Class 0x2 (R185 to R190). -/

namespace Sys2Proof.Machine

/-- Without soft errors an implicit read of xv registers meets none (R258). -/
theorem withXv_clear {t : Thread} (clear : Clear t) (o : Ops) (ns : List Nat) (r : LaneRes) : withXv t o ns r = r := by
  have none : (ns.findSome? fun n => srcEcc t (.reg (.xv (BitVec.ofNat 3 n)))) = Option.none := by
    simp [List.findSome?_eq_none_iff, srcEcc, clear.noEcc.1]
  rw [withXv, none]

/-- A 256-bit result of elements that take draws in ascending order, where the body is known of the gathering's threads. -/
theorem laneOp_drawsV_gathered {i : Instr} {s : State} {o : Ops} {needs : List (Src × Need)}
    {body : State → State → Nat → LaneRes} (k n : Nat) (mode : Rnd) (one : Thread → Nat → Nat → Nat × BitVec 3)
    (pack : Thread → List Nat → Nat) (tag : FTag) (he : exec i s = laneOp o needs body s) (hs : Ready s)
    (hr : Readable s o needs)
    (hbody : ∀ st j, j ∈ gathering s → thr st j = thr s j → body s st j =
      let r := drawElems mode n (one (thr s j)) (thr s j)
      .done (resultV (setFlags (setThr st j r.2.2) j r.2.1) j k o.d (pack (thr s j) r.1) tag)) :
    Completes i s o.gd fun _ t =>
      let r := drawElems mode n (one t) t
      put { r.2.2 with fstat := t.fstat ||| r.2.1 } o.d (BitVec.ofNat 256 (pack t r.1)) tag := by
  refine laneOp_resultV k
    (fun _ t => { (drawElems mode n (one t) t).2.2 with fstat := t.fstat ||| (drawElems mode n (one t) t).2.1 })
    (fun _ t => BitVec.ofNat 256 (pack t (drawElems mode n (one t) t).1)) (fun _ _ => tag) he hs hr
    (fun st j inside _ same _ => ?_) fun _ t => ?_
  · simp only [hbody st j inside same, resultV]
    congr 2
    rw [← same, setFlags_setThr _ _ (fun t => (drawElems mode n (one t) t).2.2)]
    exact modThr_congr (by rw [drawElems_thread])
  · refine ⟨?_, ?_, ?_, ?_, ?_, ?_⟩ <;> simp only <;> rw [drawElems_thread]

/-! ### Conversions (R185, R186) -/

/-- The conversion of one value by a thread, with the xv register that the subfield names (R185). -/
def convertOf (m : M2) (t : Thread) (draw raw : Nat) : Nat × BitVec 3 := convert m (readXv t m.xv.toNat) draw raw

/-- The conversion that CVT makes, with the thread's next draw (R185). -/
def cvtOf (o : Ops) (m : M2) (t : Thread) : Nat × BitVec 3 :=
  convertOf m t (drawOf t m.rnd) (low (fmtWidth m.st) (srcN t o.a))

theorem cvt_gives {s : State} {o : Ops} (m : M2) (hs : Ready s) (hr : Readable s o [(o.a, .word)]) :
    Completes (.cvt o m) s o.gd fun _ t =>
      putG { afterDraw t m.rnd with fstat := t.fstat ||| (cvtOf o m t).2 } o.d (cvtOf o m t).1 := by
  refine laneOp_resultG 3 (fun _ t => { afterDraw t m.rnd with fstat := t.fstat ||| (cvtOf o m t).2 }) (fun _ t => (cvtOf o m t).1)
    (show exec (.cvt o m) s = execCvt o m s from rfl) hs hr (fun st j inside _ same _ => ?_) fun _ t => afterDraw_mild m.rnd t
  simp only [same, withXv_clear (hs.clear j inside)]
  rw [← same, setFlags_setThr _ _ (fun t => afterDraw t m.rnd)]
  congr 2
  exact modThr_congr (by simp only [afterDraw_fstat]; rfl)

/-- The element that VCVT reads first (R186). -/
def vcvtFrom (m : M2) : Nat :=
  if elemCount m.dt < elemCount m.st then m.var.toNat * min (elemCount m.st) (elemCount m.dt) else 0

/-- The number of zero elements below those that VCVT writes (R186). -/
def vcvtTo (m : M2) : Nat :=
  if elemCount m.st < elemCount m.dt then m.var.toNat * min (elemCount m.st) (elemCount m.dt) else 0

theorem vcvt_gives {s : State} {o : Ops} (m : M2) (hs : Ready s) (hr : Readable s o [(o.a, .typed m.st)]) :
    Completes (.vcvt o m) s o.gd fun _ t =>
      let r := drawElems m.rnd (min (elemCount m.st) (elemCount m.dt))
        (fun i draw => convertOf m t draw (elemAt m.st (srcW t o.a) (vcvtFrom m + i))) t
      put { r.2.2 with fstat := t.fstat ||| r.2.1 } o.d
        (BitVec.ofNat 256 (packElems m.dt (List.replicate (vcvtTo m) 0 ++ r.1)))
        (tagOf m.dt (if m.dt == .f4x then m.xv.toNat else 0)) := by
  refine laneOp_drawsV_gathered 3 _ m.rnd (fun t i draw => convertOf m t draw (elemAt m.st (srcW t o.a) (vcvtFrom m + i)))
    (fun _ es => packElems m.dt (List.replicate (vcvtTo m) 0 ++ es)) _
    (show exec (.vcvt o m) s = execVcvt o m s from rfl) hs hr fun st j inside same => ?_
  simp only [same, withXv_clear (hs.clear j inside)]
  rfl

/-! ### Codes and scales (R187, R188) -/

/-- The encoding of the scaled element i under QUANT (R187). -/
def quantElem (o : Ops) (m : M2) (t : Thread) (i draw : Nat) : Nat × BitVec 3 :=
  encodeNum m.dt 0 m.rnd false false draw
    (if srcN t o.b % 256 = 255 then .nan false
     else scale2 ((f32Elems (srcW t o.a)).getD i (.nan false)) (127 - (srcN t o.b % 256 : Nat)))

/-- QUANT's codes in their window, the other elements from C (R187). -/
def quantPlace (o : Ops) (m : M2) (t : Thread) (es : List Nat) : List Nat :=
  (List.range (elemCount m.dt)).map fun i =>
    if m.var.toNat / 2 * 8 ≤ i ∧ i < m.var.toNat / 2 * 8 + 8 then es.getD (i - m.var.toNat / 2 * 8) 0
    else elemAt m.dt (if o.c = .reg (.g 0) then 0 else srcW t o.c) i

theorem quantCodes_gives {s : State} {o : Ops} (m : M2) (hs : Ready s)
    (hr : Readable s o [(o.a, .typed .f32), (o.b, .word), (o.c, if o.c = .reg (.g 0) then .word else .typed m.dt)]) :
    Completes (.quantCodes o m) s o.gd fun _ t =>
      let r := drawElems m.rnd 8 (quantElem o m t) t
      put { r.2.2 with fstat := t.fstat ||| r.2.1 } o.d (BitVec.ofNat 256 (packElems m.dt (quantPlace o m t r.1)))
        (tagOf m.dt 0) := by
  have fromC : ∀ {α : Type} (x y : α), (if o.c != .reg (.g 0) then x else y) = if o.c = .reg (.g 0) then y else x := by
    intro α x y
    simp only [bne_iff_ne, ite_not, ne_eq]
  rw [← fromC] at hr
  refine laneOp_drawsV 3 8 m.rnd (quantElem o m) (fun t es => packElems m.dt (quantPlace o m t es)) (tagOf m.dt 0)
    (show exec (.quantCodes o m) s = execQuantCodes o m s from rfl) hs hr fun st j same => ?_
  simp only [same, quantPlace, fromC, beq_iff_eq, Bool.and_eq_true, decide_eq_true_eq]
  rfl

theorem bits_byte (v i : Nat) : bits v (8 * i + 7) (8 * i) = v / 2 ^ (8 * i) % 256 := by
  rw [bits, show 8 * i + 7 + 1 - 8 * i = 8 by omega]
  rfl

/-- DEQ of element i (R188). -/
def deqElem (o : Ops) (m : M2) (t : Thread) (i draw : Nat) : Nat × BitVec 3 :=
  let code := elemAt m.st (srcW t o.a) (m.var.toNat * elemCount m.dt + i)
  let b := srcN t o.b
  encodeNum m.dt 0 m.rnd false false draw
    (if isQ m.st then decodeQ code (b % 2 ^ 16) (if isQ4 m.st then b / 2 ^ 16 % 16 else b / 2 ^ 16 % 256)
     else decodeBs m.st code (b / 2 ^ (8 * (i / 8)) % 256))

/-! ### Tags (R190) -/

/-- TAG of a tile for one thread: it waits for the instructions that use the tile (R190). -/
def tagTileBody (n : BitVec 4) (m : M2) (s0 st : State) (j : Nat) : LaneRes :=
  if tileQueued s0 (thr st j).core n.toNat true then .stall s0
  else .done (modMx st (thr st j).core fun x => { x with ttag := tset x.ttag n.toNat (tagOf m.dt m.xv.toNat) })

theorem execTag_tile {o : Ops} {n : BitVec 4} (m : M2) (s : State) (tile : o.a = .reg (.t n)) : execTag o m s =
    laneOp o [] (tagTileBody n m) s := by
  rw [execTag, tile]
  rfl

theorem execTag_plain {o : Ops} (m : M2) (s : State) (plain : ∀ n, o.a ≠ .reg (.t n)) : execTag o m s =
    laneOp o [(o.a, .raw)] (fun _ st j =>
      .done (result st j 3 o.d true (srcWide (thr st j) o.a) (tagOf m.dt m.xv.toNat))) s := by
  unfold execTag
  split
  · next n tile => exact absurd tile (plain n)
  · rfl

end Sys2Proof.Machine

namespace Sys2Proof

open Sys2Proof.Machine

/-- Settles O19: a result per form, TAG of a tile by what it changes in the matrix engine. -/
theorem conversionResults : Obligations.ConversionResults := by
  unfold Obligations.ConversionResults
  intro s o m hs vector ns nd p f32s
  refine ⟨?cvt, ?vcvt, ?scale, ?codes, ?deq, ?pack, ?unpack, ?tagq, ?xvset, ?tag, ?tagTile⟩
  case cvt => exact cvt_gives m hs
  case vcvt =>
    intro hr
    have h := vcvt_gives m hs hr
    simp only [beq_iff_eq] at h
    exact h
  case scale =>
    exact fun hr => laneOp_resultG 3 (fun _ t => t) (fun _ t => quantScaleCode m.dt (f32s t))
      (show exec (.quantScale o m) s = execQuantScale o m s from rfl) hs hr
      (fun st j _ _ same _ => by simp only [resultG, result_id, same]; rfl) fun _ => mild_id
  case codes => exact quantCodes_gives m hs
  case deq =>
    intro hr
    refine laneOp_drawsV 3 nd m.rnd (deqElem o m) (fun _ => packElems m.dt) (tagOf m.dt 0)
      (show exec (.deq o m) s = execDeq o m s from rfl) hs hr fun st j same => ?_
    simp only [same, bits_byte]
    rfl
  case pack =>
    exact fun hr => laneOp_resultV 3 (fun _ t => t) _ _ (show exec (.pack o m) s = execPack o m s from rfl) hs hr
      (fun st j _ _ same _ => by simp only [result_id, same, resultV]; rfl) fun _ => mild_id
  case unpack =>
    exact fun hr => laneOp_resultV 3 (fun _ t => t) _ _ (show exec (.unpack o m) s = execUnpack o m s from rfl) hs hr
      (fun st j _ _ same _ => by simp only [result_id, same, resultV]; rfl) fun _ => mild_id
  case tagq =>
    intro hr free
    refine laneOp_resultG 3 (fun _ t => t) _ (show exec (.tagq o m) s = execTagq o m s from rfl) hs hr
      (fun st j inside threads same active => ?_) fun _ => mild_id
    have tiles : ∀ c n, tileTag st c n = tileTag s c n := fun c n => by rw [threads]; rfl
    simp only [resultG, result_id, same]
    cases operand : o.a with
    | latch k => rfl
    | reg r =>
      cases r with
      | t n =>
        simp only [free n operand j inside active, tiles]
        rfl
      | _ => rfl
  case xvset =>
    exact fun hr => laneOp_resultG 3 (fun _ t => t) _ (show exec (.xvset o m) s = execXvset o m s from rfl) hs hr
      (fun st j _ _ same _ => by simp only [resultG, result_id, same]) fun _ => mild_id
  case tag =>
    intro plain hr
    exact laneOp_resultV 3 (fun _ t => t) _ _
      ((show exec (.tag o m) s = execTag o m s from rfl).trans (execTag_plain m s plain)) hs hr
      (fun st j _ _ same _ => by simp only [result_id, same]) fun _ => mild_id
  case tagTile =>
    intro n tile hr free
    refine laneOp_straight (body := tagTileBody n m) (P := fun _ _ => True)
      ((show exec (.tag o m) s = execTag o m s from rfl).trans (execTag_tile m s tile)) hs hr
      (fun _ _ _ _ _ => trivial) fun st j inside active same _ _ => ⟨.inl ?_, Straight.of_threads rfl rfl⟩
    simp only [tagTileBody, same, free j inside active, Bool.false_eq_true, if_false]

end Sys2Proof
end

section
/-! Software traps and unassigned points (R88, R91, R201). -/

namespace Sys2Proof.Machine

/-- The trap of TRAP and BKPT: the handler resumes at the slot after the instruction (R201). -/
def softInfo (cause : BitVec 8) (m : M3) (s : State) (j : Nat) : TrapInfo :=
  { trapOf cause (some m.target.toNat) with pc := some (nextSlot (thr s j).pc) }

theorem softTrap_eq {s : State} (hs : Ready s) (cause : BitVec 8) (m : M3) (j : Nat) :
    softTrap cause m s j = .trap (softInfo cause m s j) := by
  simp only [softTrap, insPc, hs.alone, softInfo]

theorem softTrap_traps {i : Instr} {s : State} {o : Ops} {cause : BitVec 8} (m : M3)
    (he : exec i s = laneOp o [] (fun _ st j => softTrap cause m st j) s) (hs : Ready s) (hr : Readable s o [])
    (hv : ∀ j ∈ gathering s, guardTrue (thr s j) o.gd = true → Vectored s j) :
    Traps i s (fun j => guardTrue (thr s j) o.gd) cause none (fun _ => some (m.target.setWidth 64))
      (fun j => nextSlot (thr s j).pc) false := by
  have code : BitVec.ofNat 64 m.target.toNat = m.target.setWidth 64 := BitVec.ofNat_toNat ..
  refine laneOp_traps (info := softInfo cause m s) he hs (fun j inside => (hr j inside).1) hv
    (fun j inside active => .inr ⟨(hr j inside).2 active, _, softTrap_eq hs cause m j, rfl⟩) fun j _ _ => ?_
  exact ⟨rfl, rfl, congrArg some code, rfl, rfl, rfl, rfl⟩

end Sys2Proof.Machine

namespace Sys2Proof

open Sys2Proof.Machine

/-- Settles O24: TRAP and BKPT are one trap with two causes, an unassigned point traps all threads. -/
theorem softwareAndOpcodeTraps : Obligations.SoftwareAndOpcodeTraps := by
  unfold Obligations.SoftwareAndOpcodeTraps
  constructor
  · intro s o m hs hr hv traps
    exact ⟨softTrap_traps m (show exec (.trap o m) s = execTrap o m s from rfl) hs hr hv,
      softTrap_traps m (show exec (.bkpt o m) s = execBkpt o m s from rfl) hs hr hv⟩
  · intro s w hs hv
    exact trapAll_traps (show exec (.unassignedOpcode w) s = execUnassignedOpcode w s from rfl) hs hv ⟨rfl, rfl⟩

end Sys2Proof
end

section
/-! Branches (R81, R87, R148, R192). -/

namespace Sys2Proof.Machine

/-! ### The levels that a branch leaves (R148) -/

/-- A target in the range of a loop level. -/
def InLevel (target : Pc) (l : LoopLevel) : Prop := l.start ≤ target ∧ target ≤ l.stop

theorem popTo_of_inLevel {l : LoopLevel} {target : Pc} (rest : List LoopLevel) (inside : InLevel target l) :
    popTo (l :: rest) target = l :: rest := by
  rw [popTo, if_pos (by simpa [InLevel] using inside)]

theorem popTo_of_not_inLevel {l : LoopLevel} {target : Pc} (rest : List LoopLevel) (outside : ¬InLevel target l) :
    popTo (l :: rest) target = popTo rest target := by
  rw [popTo, if_neg (by simpa [InLevel] using outside)]

/-- What pops are the innermost levels that do not hold the target. -/
theorem popTo_splits (nest : List LoopLevel) (target : Pc) : ∃ gone, nest = gone ++ popTo nest target ∧
    (∀ l ∈ gone, ¬InLevel target l) ∧ ∀ l rest, popTo nest target = l :: rest → InLevel target l := by
  induction nest with
  | nil => exact ⟨[], rfl, by simp, by simp [popTo]⟩
  | cons l rest ih =>
    by_cases inside : InLevel target l
    · rw [popTo_of_inLevel rest inside]
      exact ⟨[], rfl, by simp, fun _ _ same => (List.cons.inj same).1 ▸ inside⟩
    · rw [popTo_of_not_inLevel rest inside]
      obtain ⟨gone, whole, left, kept⟩ := ih
      refine ⟨l :: gone, congrArg (l :: ·) whole, fun x hx => ?_, kept⟩
      rcases List.mem_cons.mp hx with rfl | inner
      · exact inside
      · exact left x inner

/-- When no level pops, the nest stays as it is. -/
theorem popTo_of_length {nest : List LoopLevel} {target : Pc} (same : (popTo nest target).length = nest.length) :
    popTo nest target = nest := by
  obtain ⟨gone, whole, -⟩ := popTo_splits nest target
  have none : gone = [] := by
    have := congrArg List.length whole
    rw [List.length_append] at this
    exact List.eq_nil_of_length_eq_zero (by omega)
  rw [none] at whole
  exact whole.symm

theorem branchPop_nest (s : State) (i : Nat) (target : Pc) :
    (thr (branchPop s i target) i).nest = popTo (thr s i).nest target := by
  unfold branchPop
  simp only [beq_iff_eq]
  split
  · next same => exact (popTo_of_length same).symm
  · exact congrArg Thread.nest (thr_modThr_self s i fun t => { t with nest := popTo (thr s i).nest target })

theorem branchPop_steady (s : State) (i : Nat) (target : Pc) : Steady s (branchPop s i target) i := by
  unfold branchPop
  simp only
  split
  · exact (Straight.refl ..).toSteady
  · exact (Steady.modThr rfl rfl id).trans (Straight.progress ..).toSteady

/-! ### The target (R81, R87) -/

theorem targetPc_toNat (pc : Pc) (t : BitVec 24)
    (inside : ((pc.toNat / 64 : Nat) : Int) + (t.extractLsb' 3 21).toInt ∈ Set.Ico (0 : Int) (2 ^ 50)) :
    ((targetPc pc t).toNat : Int) = ((pc.toNat / 64 : Nat) + (t.extractLsb' 3 21).toInt) * 64 + (t.toNat % 8 : Nat) := by
  unfold targetPc
  obtain ⟨line, eq⟩ : ∃ line : Nat, ((pc.toNat / 64 : Nat) : Int) + (t.extractLsb' 3 21).toInt = line :=
    Int.eq_ofNat_of_zero_le inside.1
  rw [eq] at inside ⊢
  obtain ⟨-, below⟩ := inside
  have slot : (t.extractLsb' 0 3).toNat = t.toNat % 8 := by simp [BitVec.extractLsb'_toNat]
  have bytes : BitVec.toNat (64 : BitVec 56) = 64 := rfl
  simp only [eq, bytes, BitVec.toNat_add, BitVec.toNat_mul, BitVec.toNat_setWidth, slot, BitVec.ofInt_natCast, BitVec.toNat_ofNat]
  omega

theorem regTarget_of_slot {v : Nat} (small : v < 2 ^ 56) (slot : v % 64 ≤ 4) : regTarget v = some (BitVec.ofNat 56 v) := by
  have good : (decide (2 ^ 56 ≤ v) || decide (4 < v % 64)) = false := by
    rw [Bool.or_eq_false_iff, decide_eq_false_iff_not, decide_eq_false_iff_not]
    omega
  rw [regTarget, if_neg (by rw [good]; decide)]

/-! ### BRA and BRX (R192) -/

theorem branchTo_of_clear {s : State} {i : Nat} {target : Pc} (clear : targetClear s i target = false) :
    branchTo s i target = .jump (branchPop s i target) target := by
  rw [branchTo, transfer, clear]
  rfl

/-- An instruction of which every thread branches to its target. -/
theorem branchTo_runs {i : Instr} {s : State} {o : Ops} {needs : List (Src × Need)} {body : State → State → Nat → LaneRes}
    {target : Nat → Pc} (he : exec i s = laneOp o needs body s) (hs : Ready s) (hr : Readable s o needs)
    (hbody : ∀ st j, j ∈ gathering s → thr st j = thr s j → st.issue = s.issue → body s st j = branchTo st j (target j))
    (marked : AtTurns s o.gd (fun st j => branchPop st j (target j)) fun st j => targetClear st j (target j) = false) :
    Runs i s o.gd (fun st j => branchPop st j (target j)) fun j => .jump (target j) :=
  laneOp_parts he hs hr marked (fun _ => by simp) fun st j inside _ same issue clear => by
    rw [hbody st j inside same issue, branchTo_of_clear clear]
    exact ⟨⟨rfl, rfl⟩, branchPop_steady .., .inl ⟨_, rfl⟩⟩

end Sys2Proof.Machine

namespace Sys2Proof

open Sys2Proof.Machine

/-- Settles O20: both are one transfer to a target, whose nest pops from the inside. -/
theorem branches : Obligations.Branches := by
  unfold Obligations.Branches
  refine ⟨?bra, ?brx, targetPc_toNat, popTo_splits, branchPop_nest⟩
  case bra =>
    intro s o m hs hr target marked
    refine branchTo_runs (show exec (.bra o m) s = execBra o m s from rfl) hs hr (fun st j _ same issue => ?_) marked
    have pc : insPc st j = (thr s j).pc := by rw [insPc, issue, hs.alone, same]
    rw [pc]
  case brx =>
    intro s o m hs hr target valid marked
    refine branchTo_runs (show exec (.brx o m) s = execBrx o m s from rfl) hs hr (fun st j inside same _ => ?_) marked
    obtain ⟨small, slot⟩ := valid j inside
    rw [viaRegister, same, regTarget_of_slot small slot]

end Sys2Proof
end

section
/-! EXIT, YIELD, PPOINT and the three forms of WAIT (R197 to R200). -/

namespace Sys2Proof.Machine

/-! ### What the turns of a gathering keep -/

theorem turns_keeps {Q : State → Prop} {s : State} {gd : Guard} {part : State → Nat → State} (start : Q s)
    (keep : ∀ st i, Q st → Q (part st i)) (g : List Nat) : Q (turns s gd part g) := by
  induction g using List.reverseRecOn with
  | nil => exact start
  | append_singleton before i ih =>
    rw [turns_snoc]
    split
    · exact keep _ _ ih
    · exact ih

/-- A thread stands at its turn as it did at first, when each part leaves the other threads alone. -/
theorem thr_before_turn {s : State} {gd : Guard} {part : State → Nat → State} (hs : Ready s) (own : Local s gd part)
    {before after : List Nat} {i : Nat} (split : gathering s = before ++ i :: after) : thr (turns s gd part before) i = thr s i := by
  have once := hs.once
  rw [split] at once
  exact thr_turns_out s gd part own before _ split i fun earlier =>
    (List.nodup_append.mp once).2.2 i earlier i (List.mem_cons_self ..) rfl

theorem turns_still (s : State) (gd : Guard) (g : List Nat) : turns s gd (fun st _ => st) g = s :=
  foldl_still g fun _ _ => ite_self _

theorem atTurns_still (s : State) (gd : Guard) : AtTurns s gd (fun st _ => st) fun st _ => st = s :=
  fun before _ _ _ _ => turns_still s gd before

/-- An instruction whose threads do nothing but go on changes no thread but its PC. -/
theorem Runs.completes {i : Instr} {s : State} {gd : Guard} (h : Runs i s gd (fun st _ => st) fun _ => .next) :
    Completes i s gd fun _ t => t := by
  obtain ⟨u, run, passed⟩ := h
  rw [turns_still] at passed
  refine ⟨u, run, ⟨passed.rest, fun j outside => ?_, passed.wgs, passed.cores⟩, fun j inside => ?_⟩
  · rw [passed.threads, if_neg outside]
  · have goesOn : (if guardTrue (thr s j) gd then Go.next.kept s else .next) = .next := ite_self _
    rw [passed.threads, if_pos inside, ite_self, goesOn]
    rfl

/-! ### EXIT (R197) -/

/-- A thread at its end (R197). -/
def exitOf (t : Thread) : Thread := { clearLatches t with exited := true, pend := [] }

/-- EXIT of a thread outside a transaction. -/
def exitPart (s st : State) (i : Nat) : State := progress (modThr st i exitOf) (thr s i).wg

theorem wgOf_progress (s : State) (i k : Nat) : wgOf (progress s i) k =
    { wgOf s k with wdog := if i = k then 0 else (wgOf s k).wdog } := by
  rw [progress, wgOf_modWg]
  split
  · next same => rw [same]
  · rfl

theorem txOf_exitPart (s st : State) (i j : Nat) : txOf (exitPart s st i) j = txOf st j := by
  simp only [exitPart, txOf, txEntry, wgOf_progress, wgOf_modThr]

/-- EXIT for one thread, inside a transaction or not. -/
def exitBody (_s st : State) (i : Nat) : LaneRes :=
  if (txOf st i).isSome then .done (txAbortBy st i 7 0)
  else .done (progress (modThr st i exitOf) (thr st i).wg)

theorem exec_exit (o : Ops) (m : M3) (s : State) :
    exec (.exit o m) s = laneOpWith (fun _ _ => false) o (fun _ _ => []) exitBody s := rfl

theorem exitPart_local (s : State) (gd : Guard) : Local s gd (exitPart s) := fun before i after _ _ j other => by
  rw [exitPart, progress, thr_modWg, thr_modThr, if_neg (Ne.symm other)]

theorem exit_runs {s : State} {o : Ops} (m : M3) (hs : Ready s) (hr : Readable s o [])
    (noTx : ∀ i ∈ gathering s, guardTrue (thr s i) o.gd = true → txOf s i = none) :
    Runs (.exit o m) s o.gd (exitPart s) fun _ => .stay := by
  have own := exitPart_local s o.gd
  have inside : ∀ {before i after}, gathering s = before ++ i :: after → i ∈ gathering s := fun split => by simp [split]
  refine runs_of (exec_exit o m s) (laneOpWith_runs s _ o _ _ (exitPart s) _ hs (fun i hi => ⟨(hr i hi).1, rfl⟩) own
    (fun _ _ _ _ _ => rfl) ?body (fun _ _ _ _ _ => rfl) ?fit)
  case body =>
    intro before i after split active
    have noTx' : txOf (turns s o.gd (exitPart s) before) i = none :=
      turns_keeps (Q := fun st => txOf st i = none) (noTx i (inside split) active) (fun st k h => by rw [txOf_exitPart, h]) before
    simp only [exitBody, noTx', thr_before_turn hs own split]
    rfl
  case fit =>
    intro before i after split _
    have clear := hs.clear i (inside split)
    rw [exitPart, progress, thr_modWg, thr_modThr_self, thr_before_turn hs own split]
    exact ⟨clear.runs.1, rfl, rfl⟩

/-! ### PPOINT (R200) -/

/-- A workgroup of which a quire stands at its point; the tiles that its mask names are saved (R130, R200). -/
def pointOf (w : Workgroup) (q : Nat) (mask : BitVec 24) : Workgroup :=
  if w.det then
    { w with
      atPoint := List.range w.roles.length
      live := if w.roles.count .matrix = 1 then w.live ||| mask else BitVec.allOnes 24 }
  else { w with atPoint := w.atPoint ++ [q], live := w.live ||| mask }

theorem pointReached_eq (w : Workgroup) (q : Nat) (mask : BitVec 24) : pointReached w q mask = pointOf w q mask := by
  have count : w.roles.count .matrix = (w.roles.filter (· == .matrix)).length := List.count_eq_length_filter
  simp only [pointReached, pointOf, count, beq_iff_eq]

/-- PPOINT of a thread of the matrix role in a workgroup that is to stop: the first of a quire makes the point. -/
def pointPart (m : M3) (st : State) (i : Nat) : State :=
  if tidQuire i ∈ (wgOf st (tidWg i)).atPoint then st
  else modWg st (tidWg i) fun w => pointOf w (tidQuire i) m.target

/-- Two states whose workgroups have the same roles and the same order to stop. -/
def SameRoles (s st : State) : Prop := ∀ k, (wgOf st k).preempt = (wgOf s k).preempt ∧ (wgOf st k).roles = (wgOf s k).roles

theorem pointPart_sameRoles {s st : State} (m : M3) (i : Nat) (same : SameRoles s st) : SameRoles s (pointPart m st i) := by
  intro k
  obtain ⟨preempt, roles⟩ := same k
  unfold pointPart
  split
  · exact ⟨preempt, roles⟩
  · rw [wgOf_modWg]
    split
    · next eq =>
      rw [← eq] at preempt roles
      unfold pointOf
      split <;> exact ⟨eq ▸ preempt, eq ▸ roles⟩
    · exact ⟨preempt, roles⟩

/-! ### Waits (R198) -/

/-- The answer of a wait whose event has happened when `c` holds. -/
theorem answers_waitOn (c : Prop) [Decidable c] (w : Wait) (u : State) :
    Answers (waitOn w (if c then .done u else .no u)) u (if c then .next else .wait w) := by
  split
  · exact rfl
  · exact ⟨rfl, rfl⟩

/-- An instruction each thread of which waits for an event. -/
theorem laneOp_waits {i : Instr} {s : State} {o : Ops} {needs : List (Src × Need)} {body : State → State → Nat → LaneRes}
    {after : State → Nat → State} {P : State → Nat → Prop} (happened : Nat → Prop) [∀ j, Decidable (happened j)]
    (w : Nat → Wait) (he : exec i s = laneOp o needs body s) (hs : Ready s) (hr : Readable s o needs)
    (hP : AtTurns s o.gd after P)
    (hbody : ∀ st j, j ∈ gathering s → guardTrue (thr s j) o.gd = true → thr st j = thr s j → P st j →
      body s st j = waitOn (w j) (if happened j then .done (after st j) else .no (after st j)) ∧ Straight st (after st j) j) :
    Runs i s o.gd after fun j => if happened j then .next else .wait (w j) :=
  laneOp_parts he hs hr hP (fun j => by split <;> simp) fun st j inside active same _ here => by
    obtain ⟨eq, straight⟩ := hbody st j inside active same here
    rw [eq]
    exact ⟨answers_waitOn _ _ _, straight.toSteady, .inr straight⟩

/-- A read of at most eight bytes that reaches cells without poison. -/
theorem Reaches.peek {s u : State} {i : Nat} {space : Space} {ea size l : Nat} (h : Reaches s i space ea size .rd l u)
    (clean : poisoned u l size = false) (s0 : State) :
    Machine.peek s0 s i space ea size = .ok u (leNat (loadBytes u l size)) := by
  obtain ⟨v, p, check, rfl, remote, window, -, -, free, -, -, core, line⟩ := h.check false
  simp only [show (Acc.rd != Acc.rd) = false from rfl] at free
  simp only [show (Acc.rd == Acc.wr) = false from rfl] at line
  simp only [Machine.peek, check, peekAt, window, free, remote, localLoad, core, line, clean, Bool.false_eq_true, if_false]

/-- A count of `w` bits that has come to `b` or beyond (R33). -/
theorem atOrAfter_iff (w a b : Nat) : atOrAfter w a b = true ↔ (a + 2 ^ w - b % 2 ^ w) % 2 ^ w < 2 ^ (w - 1) := decide_eq_true_iff

/-- The test of R33 on a ring whose count is read as `v`. -/
theorem accTest_reaches {s u : State} {i : Nat} {space : Space} {hdr l v : Nat} (x : Nat)
    (h : Reaches s i space (hdr + 16) 8 .rd l u) (clean : poisoned u l 8 = false) (value : leNat (loadBytes u l 8) = v) :
    accTest s i space hdr (BitVec.ofNat 64 (x % 2 ^ 48)).toNat =
      if (v % 2 ^ 48 + 2 ^ 48 - x % 2 ^ 48) % 2 ^ 48 < 2 ^ 47 then .done u else .no u := by
  have count : (BitVec.ofNat 64 (x % 2 ^ 48)).toNat % 2 ^ 48 % 2 ^ 48 = x % 2 ^ 48 := by
    rw [BitVec.toNat_ofNat]
    omega
  rw [accTest, h.peek clean, value]
  exact if_congr (by rw [atOrAfter_iff, count]) rfl rfl

/-- The count of the copy ring that a thread's CQHDR names is reached (R316). -/
theorem copyRing_reaches {s : State} {i : Nat} (noTx : txOf s i = none) (noQueued : queuedAccess s i = false)
    (inRange : (thr s i).cqhdr.toNat * 64 + 24 ≤ carrelBytes) :
    Reaches s i .carrel (copyHeader (thr s i) + 16) 8 .rd (carrelLoc (thr s i).core ((thr s i).cqhdr.toNat * 64 + 16)) s := by
  have aligned : (copyHeader (thr s i) + 16) % 8 = 0 := by
    unfold copyHeader
    omega
  exact .of_plain aligned noTx noQueued (placeOf_carrel s 8 .rd rfl (by unfold copyHeader; omega))

theorem loadBytes_alone {s : State} {l : Nat} (alone : logsMet s l 8 = []) : leNat (loadBytes s l 8) = readWord s l := by
  rw [loadBytes, alone]
  rfl

end Sys2Proof.Machine

namespace Sys2Proof

open Sys2Proof.Machine

/-- Settles O23: each form by what one thread does at its turn. -/
theorem exitYieldAndWaits : Obligations.ExitYieldAndWaits := by
  unfold Obligations.ExitYieldAndWaits
  refine ⟨fun s o m hs hr => ⟨nop_completes m hs hr, fun noTx => ⟨?yield, exit_runs m hs hr noTx⟩, fun away => ?passes,
    fun stops => ?point⟩,
    fun s o m hs hr noTx => ?waits⟩
  case yield =>
    refine (laneOp_straight (show exec (.yield o m) s = execYield o m s from rfl) hs hr (atTurns_still s o.gd)
      fun st j inside active _ _ still => ⟨.inr ?_, Straight.refl ..⟩).completes
    rw [still, noTx j inside active]
    rfl
  case passes =>
    refine (laneOp_straight (show exec (.ppoint o m) s = execPpoint o m s from rfl) hs hr (atTurns_still s o.gd)
      fun st j inside active _ _ still => ⟨.inl ?_, Straight.refl ..⟩).completes
    rw [still]
    rcases away j inside active with running | other
    · simp only [running, Bool.and_false, Bool.false_and, Bool.false_eq_true, if_false]
    · simp only [beq_eq_false_iff_ne.mpr other, Bool.false_and, Bool.false_eq_true, if_false]
  case point =>
    have roles : AtTurns s o.gd (pointPart m) fun st _ => SameRoles s st := fun before _ _ _ _ =>
      turns_keeps (fun _ => ⟨rfl, rfl⟩) (fun st i => pointPart_sameRoles m i) before
    refine laneOp_straight (part := pointPart m) (show exec (.ppoint o m) s = execPpoint o m s from rfl) hs hr roles
      fun st j inside active _ _ same => ?_
    obtain ⟨stop, role, -⟩ := stops j inside active
    obtain ⟨sameStop, sameRole⟩ := same (tidWg j)
    refine ⟨?_, ?_⟩
    · simp only [sameStop, sameRole, stop, role, pointPart, pointReached_eq]
      by_cases stands : tidQuire j ∈ (wgOf st (tidWg j)).atPoint
      · exact .inl (by simp [stands])
      · exact .inr (by simp [stands])
    · unfold pointPart
      split
      · exact Straight.refl ..
      · exact Straight.modWg ..
  case waits =>
    refine ⟨fun small => ?dep, fun small => ?nbar, fun own free => ?acc, fun after loc value away reach => ?ring⟩
    case dep =>
      refine laneOp_waits (fun i => (taskOf s (srcWord (thr s i) o.a).toNat).count = 0) _
        (show exec (.waitDep o m) s = execWaitDep o m s from rfl) hs hr (atTurns_still s o.gd)
        fun st j inside active _ still => ⟨?_, Straight.refl ..⟩
      rw [still, noTx j inside active]
      simp only [Option.isSome_none, Bool.false_eq_true, if_false, if_neg (Nat.not_le.mpr (small j inside active)), waitDepTest,
        beq_iff_eq]
    case nbar =>
      refine laneOp_waits (fun i => ((nbarOf (wgOf s (tidWg i)) (srcWord (thr s i) o.a).toNat).phase.toNat + 2 ^ 16 -
          srcN (thr s i) o.b % 2 ^ 16) % 2 ^ 16 < 2 ^ 15) _
        (show exec (.waitNbar o m) s = execWaitNbar o m s from rfl) hs hr (atTurns_still s o.gd)
        fun st j inside active _ still => ⟨?_, Straight.refl ..⟩
      have inRange : ¬2 ^ 4 ≤ (srcWord (thr s j) o.a).toNat := Nat.not_le.mpr (small j inside active)
      have phase : (BitVec.ofNat 64 (srcN (thr s j) o.b % 2 ^ 16)).toNat % 2 ^ 16 % 2 ^ 16 = srcN (thr s j) o.b % 2 ^ 16 := by
        rw [BitVec.toNat_ofNat]
        omega
      rw [still, noTx j inside active]
      simp only [Option.isSome_none, Bool.false_eq_true, if_false, if_neg inRange, waitNbarTest, atOrAfter_iff, phase,
        Nat.reduceSub]
    case acc =>
      refine laneOp_waits (fun i => (readWord s (carrelLoc (thr s i).core ((thr s i).cqhdr.toNat * 64 + 16)) % 2 ^ 48 + 2 ^ 48 -
          srcN (thr s i) o.a % 2 ^ 48) % 2 ^ 48 < 2 ^ 47) _
        (show exec (.waitAcc o m) s = execWaitAcc o m s from rfl) hs hr (atTurns_still s o.gd)
        fun st j inside active _ still => ⟨?_, Straight.refl ..⟩
      obtain ⟨alone, noQueued, inRange, clean⟩ := free j inside active
      have test := accTest_reaches (srcN (thr s j) o.a) (copyRing_reaches (noTx j inside active) noQueued inRange) clean
        (loadBytes_alone alone)
      have copy : (o.b == .reg (.g 0)) = true := beq_iff_eq.mpr own
      rw [still, noTx j inside active]
      simp only [copy, waitAccTest, if_true, test]
      rfl
    case ring =>
      refine laneOp_waits (fun i => (value i % 2 ^ 48 + 2 ^ 48 - srcN (thr s i) o.a % 2 ^ 48) % 2 ^ 48 < 2 ^ 47) _
        (show exec (.waitAcc o m) s = execWaitAcc o m s from rfl) hs hr reach
        fun st j inside active same ⟨aligned, reaches, clean, count⟩ => ⟨?_, reaches.straight j⟩
      have test := accTest_reaches (srcN (thr s j) o.a) reaches clean count
      have other : (o.b == .reg (.g 0)) = false := beq_eq_false_iff_ne.mpr away
      have noTx : txOf st j = none := reaches.2.1
      simp only [same, noTx, other, waitAccTest, Bool.false_eq_true, if_false, test, Option.isSome_none]
      rw [aligned]
      rfl

end Sys2Proof
end

section
/-! What a saved loop nest and a trap frame hold: their bytes read back (R151, R245, R246). -/

namespace Sys2Proof.Machine

theorem length_leBytes (n v : Nat) : (leBytes n v).length = n := by simp [leBytes]

/-- A part of one of the pieces, of n bytes each, that a list of bytes begins with. -/
theorem take_drop_flatMap {α : Type} {f : α → List Byte} {n : Nat} (size : ∀ x, (f x).length = n) (rest : List Byte)
    {a b : Nat} (within : a + b ≤ n) (xs : List α) {k : Nat} (hk : k < xs.length) :
    ((xs.flatMap f ++ rest).drop (n * k + a)).take b = ((f xs[k]).drop a).take b := by
  induction xs generalizing k with
  | nil => exact absurd hk (Nat.not_lt_zero k)
  | cons x xs ih =>
    rw [List.flatMap_cons, List.append_assoc]
    cases k with
    | zero =>
      rw [Nat.mul_zero, Nat.zero_add, List.drop_append_of_le_length (by rw [size]; omega),
        List.take_append_of_le_length (by rw [List.length_drop, size]; omega)]
      rfl
    | succ k =>
      have past : n * (k + 1) + a = (f x).length + (n * k + a) := by rw [size, Nat.mul_succ]; omega
      rw [past, List.drop_length_add_append]
      exact ih (Nat.lt_of_succ_lt_succ hk)

theorem take_leBytes {m n : Nat} (v : Nat) (h : m ≤ n) : (leBytes n v).take m = leBytes m v := by
  rw [leBytes, leBytes, ← List.map_take, List.take_range, Nat.min_eq_left h]

/-- The low bytes of a number in a row of numbers of n bytes. -/
theorem leNat_take_drop {m n : Nat} (rest : List Byte) (vs : List Nat) {k : Nat} (hk : k < vs.length) (h : m ≤ n) :
    leNat (((vs.flatMap (leBytes n) ++ rest).drop (n * k)).take m) = vs[k] % 2 ^ (8 * m) := by
  have piece := take_drop_flatMap (length_leBytes n) rest (a := 0) (b := m) (by omega) vs hk
  rw [Nat.add_zero] at piece
  rw [piece, List.drop_zero, take_leBytes _ h, leNat_leBytes]

/-! ### The loop nest (R151) -/

/-- The three doublewords of saved level i, the outermost being level 0. -/
def savedLevel (nest : List LoopLevel) (i : Nat) : List Nat :=
  match nest.reverse[i]? with
  | some l => levelWords l
  | none => [0, 0, 0]

theorem savedLevel_below {nest : List LoopLevel} {i : Nat} (h : i < nest.length) :
    savedLevel nest i = levelWords (nest.reverse[i]'(by rwa [List.length_reverse])) := by
  rw [savedLevel, List.getElem?_eq_getElem (by rwa [List.length_reverse])]

theorem savedLevel_above {nest : List LoopLevel} {i : Nat} (h : nest.length ≤ i) : savedLevel nest i = [0, 0, 0] := by
  rw [savedLevel, List.getElem?_eq_none (by rwa [List.length_reverse])]

theorem length_savedLevel (nest : List LoopLevel) (i : Nat) : (savedLevel nest i).length = 3 := by
  unfold savedLevel
  split <;> rfl

theorem nestBytes_eq (nest : List LoopLevel) :
    nestBytes nest = (List.range 4).flatMap fun i => (savedLevel nest i).flatMap (leBytes 8) := by
  unfold nestBytes
  refine List.flatMap_congr fun i _ => ?_
  unfold savedLevel
  cases nest.reverse[i]? with
  | none => rfl
  | some l => rfl

theorem length_nestBytes (nest : List LoopLevel) : (nestBytes nest).length = 96 := by
  simp [nestBytes_eq, List.length_flatMap, length_leBytes, length_savedLevel]

/-- Doubleword k of saved level i. -/
theorem nestBytes_word (nest : List LoopLevel) {i k : Nat} (hi : i < 4) (hk : k < 3) :
    leNat (((nestBytes nest).drop (24 * i + 8 * k)).take 8) =
      (savedLevel nest i)[k]'(by rwa [length_savedLevel]) % 2 ^ 64 := by
  have level := take_drop_flatMap (f := fun i => (savedLevel nest i).flatMap (leBytes 8)) (n := 24)
    (fun i => by simp [List.length_flatMap, length_leBytes, length_savedLevel]) [] (a := 8 * k) (b := 8) (by omega)
    (List.range 4) (k := i) (by rwa [List.length_range])
  have word := leNat_take_drop (m := 8) (n := 8) [] (savedLevel nest i) (k := k) (by rwa [length_savedLevel]) le_rfl
  rw [List.append_nil] at level word
  rw [nestBytes_eq, level, List.getElem_range, word]

/-- A loop level as its saved form reads back: bits [5:3] of its PCs are zero. -/
def rereadLevel (l : LoopLevel) : LoopLevel := { l with start := slotPc l.start.toNat, stop := slotPc l.stop.toNat }

/-- The doublewords of a level that the nest has. -/
theorem nestBytes_below {nest : List LoopLevel} (few : nest.length ≤ 4) {i : Nat} (h : i < nest.length) :
    let l := nest.reverse[i]'(by rwa [List.length_reverse])
    leNat (((nestBytes nest).drop (24 * i + 8 * 0)).take 8) = l.start.toNat ∧
      leNat (((nestBytes nest).drop (24 * i + 8 * 1)).take 8) = l.stop.toNat ∧
      leNat (((nestBytes nest).drop (24 * i + 8 * 2)).take 8) = l.count.toNat := by
  intro l
  have hi : i < 4 := Nat.lt_of_lt_of_le h few
  have start := l.start.isLt
  have stop := l.stop.isLt
  have count := l.count.isLt
  rw [nestBytes_word nest hi (by decide), nestBytes_word nest hi (by decide), nestBytes_word nest hi (by decide)]
  simp only [savedLevel_below h]
  exact ⟨Nat.mod_eq_of_lt (show l.start.toNat < _ by omega), Nat.mod_eq_of_lt (show l.stop.toNat < _ by omega),
    Nat.mod_eq_of_lt (show l.count.toNat < _ by omega)⟩

/-- Those of a level that it has not. -/
theorem nestBytes_above {nest : List LoopLevel} {i k : Nat} (h : nest.length ≤ i) (hi : i < 4) (hk : k < 3) :
    leNat (((nestBytes nest).drop (24 * i + 8 * k)).take 8) = 0 := by
  rw [nestBytes_word nest hi hk]
  simp only [savedLevel_above h]
  interval_cases k <;> rfl

/-- A nest reads back. -/
theorem nestOf_nestBytes {nest : List LoopLevel} (few : nest.length ≤ 4) :
    nestOf nest.length (nestBytes nest) = some (nest.map rereadLevel) := by
  unfold nestOf
  rw [if_pos]
  · congr 1
    rw [List.reverse_eq_iff, ← List.map_reverse]
    refine List.ext_getElem (by simp) fun i h _ => ?_
    rw [List.length_map, List.length_range] at h
    obtain ⟨start, stop, count⟩ := nestBytes_below few h
    simp only [List.getElem_map, List.getElem_range, start, stop, count, rereadLevel, BitVec.ofNat_toNat, BitVec.setWidth_eq]
  · rw [Bool.and_eq_true, decide_eq_true_iff, List.all_eq_true]
    refine ⟨few, fun i hi => ?_⟩
    rw [List.mem_range] at hi
    by_cases h : i < nest.length
    · obtain ⟨start, stop, count⟩ := nestBytes_below few h
      simp only [h, if_true, start, stop, count, BitVec.isLt, decide_true, Bool.and_self]
    · have zero : ∀ k < 3, _ := fun k => nestBytes_above (k := k) (Nat.le_of_not_lt h) hi
      simp only [h, if_false, zero 0 (by decide), zero 1 (by decide), zero 2 (by decide), BEq.rfl, Bool.and_self]

/-! ### The frame (R245) -/

/-- The latches of a thread, l0 first. -/
def latches (t : Thread) : List Latch := [t.l0, t.l1, t.l2, t.l3]

/-- A latch that a frame holds. -/
def held (l : Latch) : Bool := l.st == .valid

/-- A latch that a frame holds with 256 bits. -/
def heldWide (l : Latch) : Bool := held l && l.wide

/-- The sum over the four latches of a thread by which a frame packs what it keeps of them in one doubleword. -/
def latchSum (t : Thread) (part : Nat → Latch → Nat) : Nat := part 0 t.l0 + part 1 t.l1 + part 2 t.l2 + part 3 t.l3

/-- The doubleword at +8: DEPTH, PAIRED, LVALID and LWIDE. -/
def frameFlags (t : Thread) (paired : Bool) : Nat :=
  t.nest.length + (if paired then 32 else 0) + latchSum t (fun k l => if held l then 2 ^ (6 + k) else 0) +
    latchSum t fun k l => if heldWide l then 2 ^ (10 + k) else 0

/-- The doubleword at +16: LTAG. -/
def frameTags (t : Thread) : Nat := latchSum t fun k l => if held l then l.tag.toNat * 2 ^ (16 * k) else 0

/-- The value that a frame keeps of a latch. -/
def savedValue (l : Latch) : Nat := if held l then l.val.toNat else 0

theorem foldl_latches (t : Thread) (p : Latch → Bool) (part : Nat → Latch → Nat) :
    (List.range 4).foldl (fun acc k =>
      if p ((latches t).getD k Latch.reset) then acc + part k ((latches t).getD k Latch.reset) else acc) 0 =
      latchSum t fun k l => if p l then part k l else 0 := by
  have add_if : ∀ (c : Bool) (a x : Nat), (if c then a + x else a) = a + if c then x else 0 := fun c a x => by
    cases c <;> rfl
  simp [List.range_succ, latches, latchSum, add_if]

theorem frameBytes_eq (t : Thread) (pc : Pc) (paired : Bool) : frameBytes t pc paired =
    [pc.toNat, frameFlags t paired, frameTags t].flatMap (leBytes 8) ++
      (nestBytes t.nest ++ (leBytes 8 0 ++ ((latches t).map savedValue).flatMap (leBytes 32))) := by
  have valid := foldl_latches t held fun k _ => 2 ^ (6 + k)
  have wide := foldl_latches t heldWide fun k _ => 2 ^ (10 + k)
  have tags := foldl_latches t held fun k l => l.tag.toNat * 2 ^ (16 * k)
  rw [frameFlags, frameTags, ← valid, ← wide, ← tags]
  simp only [List.flatMap_cons, List.flatMap_nil, List.append_nil, ← List.append_assoc, List.flatMap_map]
  rfl

/-- A latch as its saved form reads back: one that is not valid is cleared, and a 64-bit value has its other bits zero. -/
def rereadLatch (l : Latch) : Latch :=
  if l.st = .valid then ⟨.valid, l.wide, if l.wide then l.val else (l.val.setWidth 64).setWidth 256, l.tag⟩ else Latch.reset

/-- The doublewords of a frame's head. -/
theorem frameBytes_head (t : Thread) (pc : Pc) (paired : Bool) {k : Nat} (hk : k < 3) :
    leNat (((frameBytes t pc paired).drop (8 * k)).take 8) = [pc.toNat, frameFlags t paired, frameTags t][k] % 2 ^ 64 := by
  rw [frameBytes_eq]
  exact leNat_take_drop _ _ hk le_rfl

/-- Past the head of a frame. -/
theorem frameBytes_drop (t : Thread) (pc : Pc) (paired : Bool) (n : Nat) :
    (frameBytes t pc paired).drop (24 + n) =
      (nestBytes t.nest ++ (leBytes 8 0 ++ ((latches t).map savedValue).flatMap (leBytes 32))).drop n := by
  rw [frameBytes_eq]
  exact List.drop_length_add_append (l₁ := [pc.toNat, frameFlags t paired, frameTags t].flatMap (leBytes 8)) ..

/-- The nest of a frame. -/
theorem frameBytes_nest (t : Thread) (pc : Pc) (paired : Bool) :
    ((frameBytes t pc paired).drop 24).take 96 = nestBytes t.nest := by
  rw [frameBytes_drop t pc paired 0, List.drop_zero]
  exact List.take_left' (length_nestBytes _)

/-- The reserved doubleword at +120. -/
theorem frameBytes_reserved (t : Thread) (pc : Pc) (paired : Bool) :
    leNat (((frameBytes t pc paired).drop (8 * 15)).take 8) = 0 := by
  rw [frameBytes_drop t pc paired 96, List.drop_left' (length_nestBytes _), List.take_left' (length_leBytes ..)]
  rfl

/-- The latch values of a frame. -/
theorem frameBytes_values (t : Thread) (pc : Pc) (paired : Bool) (n : Nat) :
    (frameBytes t pc paired).drop (128 + n) = (((latches t).map savedValue).flatMap (leBytes 32)).drop n := by
  have past : 128 + n = 24 + ((nestBytes t.nest ++ leBytes 8 0).length + n) := by
    rw [List.length_append, length_nestBytes, length_leBytes]
    omega
  rw [past, frameBytes_drop, ← List.append_assoc]
  exact List.drop_length_add_append ..

/-- The low bytes of LVAL of latch k. -/
theorem frameBytes_value (t : Thread) (pc : Pc) (paired : Bool) {k m : Nat} (hk : k < (latches t).length) (h : m ≤ 32) :
    leNat (((frameBytes t pc paired).drop (128 + 32 * k)).take m) = savedValue (latches t)[k] % 2 ^ (8 * m) := by
  have value := leNat_take_drop [] ((latches t).map savedValue) (k := k) (by rwa [List.length_map]) h
  rw [List.append_nil] at value
  rw [frameBytes_values, value, List.getElem_map]

/-! ### The fields of the doublewords at +8 and +16 -/

/-- Four bits, bit k of which says whether `p` holds of latch k. -/
def latchBits (p : Latch → Bool) (t : Thread) : Nat := latchSum t fun k l => 2 ^ k * (p l).toNat

theorem fourBits : ∀ a b c d : Bool, let x := 2 ^ 0 * a.toNat + 2 ^ 1 * b.toNat + 2 ^ 2 * c.toNat + 2 ^ 3 * d.toNat
    x < 16 ∧ bit x 0 = a ∧ bit x 1 = b ∧ bit x 2 = c ∧ bit x 3 = d := by
  decide

theorem latchBits_lt (p : Latch → Bool) (t : Thread) : latchBits p t < 16 := (fourBits ..).1

theorem bit_latchBits (p : Latch → Bool) (t : Thread) {k : Nat} (hk : k < (latches t).length) :
    bit (latchBits p t) k = p (latches t)[k] := by
  obtain ⟨-, b0, b1, b2, b3⟩ := fourBits (p t.l0) (p t.l1) (p t.l2) (p t.l3)
  have : k < 4 := hk
  interval_cases k
  · exact b0
  · exact b1
  · exact b2
  · exact b3

theorem frameFlags_eq (t : Thread) (paired : Bool) : frameFlags t paired =
    t.nest.length + 32 * paired.toNat + 64 * latchBits held t + 1024 * latchBits heldWide t := by
  have weigh : ∀ (c : Bool) (x : Nat), (if c then x else 0) = x * c.toNat := fun c x => by cases c <;> simp
  simp only [frameFlags, latchSum, latchBits, weigh, Nat.reduceAdd, Nat.reducePow]
  omega

theorem frameFlags_head {t : Thread} (paired : Bool) (few : t.nest.length ≤ 4) : frameFlags t paired % 8 = t.nest.length ∧
    bits (frameFlags t paired) 63 14 = 0 ∧ bits (frameFlags t paired) 4 3 = 0 ∧ frameFlags t paired < 2 ^ 64 := by
  have pair := paired.toNat_lt
  have valid := latchBits_lt held t
  have wide := latchBits_lt heldWide t
  rw [frameFlags_eq]
  unfold bits
  omega

theorem frameFlags_latches {t : Thread} (paired : Bool) (few : t.nest.length ≤ 4) {k : Nat} (hk : k < (latches t).length) :
    bit (frameFlags t paired) (6 + k) = held (latches t)[k] ∧ bit (frameFlags t paired) (10 + k) = heldWide (latches t)[k] := by
  rw [← bit_latchBits held, ← bit_latchBits heldWide, frameFlags_eq]
  have pair := paired.toNat_lt
  have valid := latchBits_lt held t
  unfold bit
  have small : k < 4 := hk
  refine ⟨congrArg (· == 1) ?_, congrArg (· == 1) ?_⟩
  · interval_cases k <;> omega
  · interval_cases k <;> omega

/-- The tag that a frame keeps of a latch. -/
def savedTag (l : Latch) : Nat := if held l then l.tag.toNat else 0

theorem savedTag_lt (l : Latch) : savedTag l < 2 ^ 9 := by
  unfold savedTag
  split
  · exact BitVec.isLt _
  · decide

theorem frameTags_eq (t : Thread) : frameTags t =
    savedTag t.l0 + 2 ^ 16 * savedTag t.l1 + 2 ^ 32 * savedTag t.l2 + 2 ^ 48 * savedTag t.l3 := by
  have weigh : ∀ (l : Latch) (x : Nat), (if held l then l.tag.toNat * x else 0) = x * savedTag l := fun l x => by
    rw [savedTag]
    cases held l <;> simp [Nat.mul_comm]
  simp only [frameTags, latchSum, weigh, Nat.reduceMul, Nat.pow_zero, Nat.one_mul]

theorem frameTags_lt (t : Thread) : frameTags t < 2 ^ 64 := by
  have tag0 := savedTag_lt t.l0
  have tag1 := savedTag_lt t.l1
  have tag2 := savedTag_lt t.l2
  have tag3 := savedTag_lt t.l3
  rw [frameTags_eq]
  omega

theorem frameTags_latches (t : Thread) {k : Nat} (hk : k < (latches t).length) :
    bits (frameTags t) (16 * k + 15) (16 * k + 9) = 0 ∧ bits (frameTags t) (16 * k + 8) (16 * k) = savedTag (latches t)[k] := by
  have tag0 := savedTag_lt t.l0
  have tag1 := savedTag_lt t.l1
  have tag2 := savedTag_lt t.l2
  have tag3 := savedTag_lt t.l3
  have small : k < 4 := hk
  rw [frameTags_eq]
  unfold bits
  interval_cases k <;> simp only [latches, List.getElem_cons_zero, List.getElem_cons_succ] <;> omega

/-! ### Reading a frame back (R246) -/

/-- What the fields of a latch in a frame make of it. -/
theorem latch_reread (l : Latch) :
    (if held l then
      (⟨.valid, heldWide l, BitVec.ofNat 256 (if heldWide l then savedValue l % 2 ^ (8 * 32) else savedValue l % 2 ^ (8 * 8)),
        BitVec.ofNat 9 (savedTag l)⟩ : Latch)
      else Latch.reset) = rereadLatch l := by
  by_cases valid : l.st = .valid
  · have isHeld : held l = true := beq_iff_eq.mpr valid
    have whole : BitVec.ofNat 256 (l.val.toNat % 2 ^ (8 * 32)) = l.val := by
      rw [Nat.mod_eq_of_lt l.val.isLt, BitVec.ofNat_toNat, BitVec.setWidth_eq]
    have low : BitVec.ofNat 256 (l.val.toNat % 2 ^ (8 * 8)) = (l.val.setWidth 64).setWidth 256 := by
      rw [← BitVec.toNat_setWidth, BitVec.ofNat_toNat]
    have tag : BitVec.ofNat 9 l.tag.toNat = l.tag := by rw [BitVec.ofNat_toNat, BitVec.setWidth_eq]
    simp only [rereadLatch, valid, heldWide, savedValue, savedTag, isHeld, if_true, Bool.true_and,
      apply_ite (BitVec.ofNat 256), whole, low, tag]
  · have notHeld : held l = false := beq_eq_false_iff_ne.mpr valid
    simp only [rereadLatch, valid, notHeld, if_false, Bool.false_eq_true]

/-- A frame reads back. -/
theorem frameState_frameBytes {t : Thread} (pc : Pc) (paired : Bool) (few : t.nest.length ≤ 4) :
    frameState (frameBytes t pc paired) =
      some (slotPc pc.toNat, t.nest.map rereadLevel, (latches t).map rereadLatch) := by
  obtain ⟨depth, high, low, flagsLt⟩ := frameFlags_head paired few
  have pcLt : pc.toNat < 2 ^ 64 := pc.isLt.trans (by decide)
  have resume : leNat (((frameBytes t pc paired).drop (8 * 0)).take 8) = pc.toNat :=
    (frameBytes_head t pc paired (by decide)).trans (Nat.mod_eq_of_lt pcLt)
  have flags : leNat (((frameBytes t pc paired).drop (8 * 1)).take 8) = frameFlags t paired :=
    (frameBytes_head t pc paired (by decide)).trans (Nat.mod_eq_of_lt flagsLt)
  have tags : leNat (((frameBytes t pc paired).drop (8 * 2)).take 8) = frameTags t :=
    (frameBytes_head t pc paired (by decide)).trans (Nat.mod_eq_of_lt (frameTags_lt t))
  have reserved : (List.range 4).all (fun k => bits (frameTags t) (16 * k + 15) (16 * k + 9) == 0) = true := by
    rw [List.all_eq_true]
    exact fun k hk => beq_iff_eq.mpr (frameTags_latches t (List.mem_range.mp hk)).1
  unfold frameState
  simp only [resume, flags, tags, frameBytes_reserved, frameBytes_nest, high, low, depth, reserved, pc.isLt, nestOf_nestBytes few,
    decide_true, BEq.rfl, Bool.and_self, Bool.not_true, Bool.false_eq_true, if_false, Option.some.injEq, Prod.mk.injEq, true_and]
  refine List.ext_getElem rfl fun k hk _ => ?_
  have inside : k < (latches t).length := hk
  obtain ⟨isHeld, isWide⟩ := frameFlags_latches paired few inside
  obtain ⟨-, tag⟩ := frameTags_latches t inside
  rw [List.getElem_map, List.getElem_map, List.getElem_range, isHeld, isWide, tag,
    show 8 * (16 + 4 * k) = 128 + 32 * k by omega, frameBytes_value t pc paired inside le_rfl,
    frameBytes_value t pc paired inside (by decide)]
  exact latch_reread _

end Sys2Proof.Machine
end

section
/-! Latches put back by an instruction stand to the end of its unit and past it (R75). -/

namespace Sys2Proof.Machine

/-- Thread j holds the latches `ls`, put back to stand until its next issue. -/
def Standing (ls : List Latch) (j : Nat) (st : State) : Prop := (thr st j).latchKeep = true ∧ latches (thr st j) = ls

section Standing
variable {ls : List Latch} {j : Nat} {st : State}

theorem Standing.of_thr {u : State} (h : Standing ls j st) (same : thr u j = thr st j) : Standing ls j u := by
  rw [Standing, same]
  exact h

/-- A change of a thread that leaves latches alone. -/
theorem Standing.modThr (h : Standing ls j st) (i : Nat) {f : Thread → Thread}
    (alone : ∀ t, (f t).latchKeep = t.latchKeep ∧ latches (f t) = latches t) : Standing ls j (modThr st i f) := by
  rw [Standing, thr_modThr]
  split
  · next same =>
    subst same
    exact ⟨(alone _).1.trans h.1, (alone _).2.trans h.2⟩
  · exact h

theorem Standing.foldl {α : Type} {f : State → α → State} (h : Standing ls j st)
    (each : ∀ u a, Standing ls j u → Standing ls j (f u a)) (l : List α) : Standing ls j (l.foldl f st) :=
  List.foldlRecOn l f h fun u kept a _ => each u a kept

theorem Standing.advance (h : Standing ls j st) (i : Nat) (pcs : List Pc) (next : Pc) :
    Standing ls j (advance st i pcs next).1 := by
  unfold Machine.advance
  split
  · exact h
  · dsimp only
    split
    · refine Standing.of_thr ?_ (thr_modWg ..)
      exact h.modThr i fun _ => ⟨rfl, rfl⟩
    · exact h.modThr i fun _ => ⟨rfl, rfl⟩

/-- A group switch clears the latches of no such thread (R146). -/
theorem Standing.settle (h : Standing ls j st) (c : Nat) (g rest : List Nat) (switch : Bool) :
    Standing ls j (settle st c g rest switch) := by
  refine h.of_thr ?_
  rw [thr_settle]
  split
  · rw [thr_switchLatches, h.1]
    simp
  · rfl

/-- The end of a unit in which nothing traps. -/
theorem Standing.finishUnit {s : State} {r : Issued} (h : Standing ls j r.st) (noTraps : s.issue.traps ++ r.traps = []) (n : Nat) :
    Standing ls j (finishUnit s r n) := by
  unfold Machine.finishUnit
  simp only [noTraps, List.foldl_nil, List.isEmpty_nil, if_true]
  refine Standing.settle ?_ _ _ _ _
  refine Standing.of_thr ?_ (thr_retire ..)
  refine Standing.foldl ?_ (fun u i kept => ?_) _
  · refine List.foldlRecOn (motive := fun acc : State × Bool => Standing ls j acc.1) _ _ h fun acc kept i _ => ?_
    split
    · exact kept.modThr i fun _ => ⟨rfl, rfl⟩
    · split
      · exact kept
      · split
        · exact kept.modThr i fun _ => ⟨rfl, rfl⟩
        · split
          · exact kept.modThr i fun _ => ⟨rfl, rfl⟩
          · exact kept.advance ..
  · split
    · exact kept.modThr i fun _ => ⟨rfl, rfl⟩
    · exact kept

end Standing

/-- The law of `laneOpWith_runs`, and what it leaves open: latches that a thread's part has put back stand. -/
theorem laneOpWith_runs_latches (s : State) (bad : State → Nat → Bool) (o : Ops) (needs : State → Nat → List (Src × Need))
    (body : State → State → Nat → LaneRes) (part : State → Nat → State) (go : Nat → Go) (hs : Ready s)
    (hb : ∀ i ∈ gathering s, opsBeyond (wgOf s (tidWg i)) (tidQuire i) o = false ∧ bad s i = false)
    (hl : Local s o.gd part)
    (hneeds : AtTurns s o.gd part fun st i => operandTrap (thr st i) (needs st i) = none)
    (hbody : AtTurns s o.gd part fun st i => Answers (body s st i) (part st i) (go i))
    (hissue : AtTurns s o.gd part fun st i => (part st i).issue = st.issue)
    (hfit : AtTurns s o.gd part fun st i => Fit (thr s i) (thr (part st i) i) (go i)) :
    ∃ u, laneOpWith bad o needs body s = .next u ∧
      Passed s (turns s o.gd part (gathering s)) u (fun j => if guardTrue (thr s j) o.gd then (go j).kept s else .next) ∧
      ∀ ls j, Standing ls j (turns s o.gd part (gathering s)) → Standing ls j u := by
  obtain ⟨u, run, passed⟩ := laneOpWith_runs s bad o needs body part go hs hb hl hneeds hbody hissue hfit
  obtain ⟨switch, parts, -⟩ :=
    foldl_lanePart_turns s o needs body part go hs hl hneeds hbody hissue hfit (gathering s) [] (by simp)
  have everyone : (gathering s).filter (fun i => !(s.issue.traps.any fun x => x.1 == i)) = gathering s := by simp [hs.fresh.1]
  have inBudget : ((gathering s).any fun i => opsBeyond (wgOf s (tidWg i)) (tidQuire i) o || bad s i) = false := by
    rw [List.any_eq_false]
    exact fun i hi => by simp [hb i hi]
  have noStall : ((gathering s).any fun i => mustStall (thr s i) o) = false := by
    rw [List.any_eq_false]
    exact fun i hi => by simp [mustStall, (hs.clear i hi).noPend]
  refine ⟨u, run, passed, fun ls j standing => ?_⟩
  unfold laneOpWith at run
  simp only [openIssue_ready s hs, everyone, inBudget, noStall, parts, endPart, trapsPending, List.any_nil, hs.alone,
    Bool.false_eq_true, if_false, Host.Outcome.next.injEq] at run
  subst run
  exact Standing.finishUnit standing (by simp [hs.fresh.1]) 1

end Sys2Proof.Machine
end

section
/-! TRET (R75, R238, R246). -/

namespace Sys2Proof.Machine

/-- TRET for one thread. -/
def tretBody (_s st : State) (i : Nat) : LaneRes :=
  outsideTx st i
    (match trapReturn st i with
     | .error e => .trap e
     | .ok (pc, nest, ls) => .jump (modThr st i fun t => { restoreLatches t ls with hmode := false, nest }) pc)

theorem exec_tret (o : Ops) (m : M7) (s : State) :
    exec (.tret o m) s = laneOpWith (fun _ _ => false) o (fun _ _ => []) tretBody s := rfl

/-- A thread out of its handler, the nest and the latches of a frame put back. -/
def returned (nest : List LoopLevel) (ls : List Latch) (t : Thread) : Thread :=
  { restoreLatches t ls with hmode := false, nest }

/-- A thread in its handler whose frame lies in the carrel, is not poisoned, and holds `pc`, `nest` and `ls`. -/
structure Returns (s : State) (i : Nat) (pc : Pc) (nest : List LoopLevel) (ls : List Latch) : Prop where
  outside : txOf s i = none
  handler : (thr s i).hmode = true
  inside : (thr s i).trapFrame.toNat * 256 + 256 ≤ carrelBytes
  clean : poisoned s (frameLoc (thr s i)) 256 = false
  holds : frameState (loadBytes s (frameLoc (thr s i)) 256) = some (pc, nest, ls)

/-- It returns as well after other threads have changed. -/
theorem Returns.of_threads {s : State} {i : Nat} {pc : Pc} {nest : List LoopLevel} {ls : List Latch} (h : Returns s i pc nest ls)
    {st : State} (frame : st = { s with threads := st.threads }) (same : thr st i = thr s i) : Returns st i pc nest ls := by
  obtain ⟨outside, handler, inside, clean, holds⟩ := h
  refine ⟨?_, same ▸ handler, same ▸ inside, ?_, ?_⟩
  · rw [frame]
    exact outside
  · rw [same, frame]
    exact clean
  · rw [same, frame]
    exact holds

theorem tretBody_of_returns {s st : State} {i : Nat} {pc : Pc} {nest : List LoopLevel} {ls : List Latch}
    (h : Returns st i pc nest ls) : tretBody s st i = .jump (modThr st i (returned nest ls)) pc := by
  have frame : trapReturn st i = .ok (pc, nest, ls) := by
    have clean := h.clean
    have holds := h.holds
    unfold frameLoc at clean holds
    unfold trapReturn
    simp only [h.handler, Nat.not_lt.mpr h.inside, clean, holds, Bool.not_true, Bool.false_eq_true, if_false]
  rw [tretBody, outsideTx_of_none h.outside, frame]
  rfl

/-- Parts of threads that change nothing but the threads leave everything outside the gathering as it was. -/
theorem Passed.elsewhere {s u : State} {gd : Guard} {F : Nat → Thread → Thread} {go : Nat → Go}
    (h : Passed s (turns s gd (fun st i => modThr st i (F i)) (gathering s)) u go) : Elsewhere s u := by
  have frame := turns_modThr s gd F (gathering s)
  refine ⟨?_, fun j outside => ?_, fun k => ?_, fun c => ?_⟩
  · rw [h.rest, frame]
  · rw [h.threads, if_neg outside]
    exact congrArg clearLatches (thr_changeAll_out _ _ _ _ outside)
  · rw [h.wgs, frame]
    rfl
  · rw [(h.cores c).1, (h.cores c).2, frame]
    exact ⟨rfl, rfl⟩

/-- TRET for a thread that returns. -/
def tretPart (nest : Nat → List LoopLevel) (ls : Nat → List Latch) (st : State) (i : Nat) : State :=
  modThr st i (returned (nest i) (ls i))

/-- TRET of a gathering, each thread whose guard is true in its handler. -/
theorem tret_returns {s : State} {o : Ops} (m : M7) {pc : Nat → Pc} {nest : Nat → List LoopLevel} {ls : Nat → List Latch}
    (hs : Ready s) (hr : Readable s o [])
    (returns : ∀ i ∈ gathering s, guardTrue (thr s i) o.gd = true → Returns s i (pc i) (nest i) (ls i)) :
    ∃ u, exec (.tret o m) s = .next u ∧ Elsewhere s u ∧ ∀ j ∈ gathering s,
      clearLatches (thr u j) = clearLatches (if guardTrue (thr s j) o.gd then
          { returned (nest j) (ls j) (thr s j) with pc := pc j }
        else { thr s j with pc := nextSlot (thr s j).pc }) ∧
      (guardTrue (thr s j) o.gd = true → latches (thr u j) = latches (returned (nest j) (ls j) (thr s j))) := by
  have own : Local s o.gd (tretPart nest ls) := fun _ _ _ _ _ j other => by
    rw [tretPart, thr_modThr, if_neg (Ne.symm other)]
  have member : ∀ {before i after}, gathering s = before ++ i :: after → i ∈ gathering s := fun split => by simp [split]
  have answers : AtTurns s o.gd (tretPart nest ls) fun st i =>
      Answers (tretBody s st i) (tretPart nest ls st i) (.jump (pc i)) := by
    intro before i after split active
    have here : Returns (turns s o.gd (tretPart nest ls) before) i (pc i) (nest i) (ls i) :=
      (returns i (member split) active).of_threads (turns_modThr ..) (thr_before_turn hs own split)
    rw [tretBody_of_returns here]
    exact ⟨rfl, rfl⟩
  have fit : AtTurns s o.gd (tretPart nest ls) fun st i => Fit (thr s i) (thr (tretPart nest ls st i) i) (.jump (pc i)) := by
    intro before i after split _
    have clear := hs.clear i (member split)
    rw [tretPart, thr_modThr_self, thr_before_turn hs own split]
    exact ⟨clear.runs.1, clear.noPend, clear.runs.2.1⟩
  have after : ∀ j ∈ gathering s, thr (turns s o.gd (tretPart nest ls) (gathering s)) j =
      if guardTrue (thr s j) o.gd then returned (nest j) (ls j) (thr s j) else thr s j := fun j hj =>
    thr_changeAll_in (fun i => guardTrue (thr s i) o.gd) (fun i => returned (nest i) (ls i)) s _ hs.once hj
  obtain ⟨u, run, passed, standing⟩ := laneOpWith_runs_latches s (fun _ _ => false) o (fun _ _ => []) tretBody
    (tretPart nest ls) (fun i => .jump (pc i)) hs (fun i hi => ⟨(hr i hi).1, rfl⟩) own (fun _ _ _ _ _ => rfl) answers
    (fun _ _ _ _ _ => rfl) fit
  refine ⟨u, (exec_tret o m s).trans run, Passed.elsewhere passed, fun j hj => ⟨?_, fun active => ?_⟩⟩
  · rw [passed.threads, if_pos hj, after j hj]
    split <;> rfl
  · refine (standing _ j ⟨?_, ?_⟩).2
    · rw [after j hj, if_pos active]
      rfl
    · rw [after j hj, if_pos active]

end Sys2Proof.Machine

namespace Sys2Proof

open Sys2Proof.Machine

/-- Settles O37: TRET puts back what it reads, and each field of a frame reads back. -/
theorem trapReturn : Obligations.TrapReturn := by
  unfold Obligations.TrapReturn
  dsimp only
  refine ⟨fun s o m pc nest ls hs hr found => ?tret, fun t pc paired few => ⟨frameBytes_length .., ?frame⟩⟩
  case tret =>
    obtain ⟨u, run, elsewhere, threads⟩ := tret_returns m hs hr fun i hi active =>
      let ⟨outside, handler, inside, clean, holds⟩ := found i hi active
      Returns.mk outside handler inside clean holds
    refine ⟨u, run, elsewhere, fun j hj => ?_⟩
    obtain ⟨up, back⟩ := threads j hj
    refine ⟨fun active => ⟨?_, back active⟩, fun inactive => ?_⟩
    · rw [up, if_pos active]
      rfl
    · rw [up, if_neg (by simp [inactive])]
      rfl
  case frame => exact frameState_frameBytes pc paired few

end Sys2Proof
end

section
/-! What a matrix engine does beside its instructions: entries of its catalog, the readers of DRAINING entries (R278), the reads it
has asked other modules for (R438). -/

namespace Sys2Proof.Machine

theorem mx_modMx (s : State) (c j : Nat) (f : Matrix → Matrix) :
    (coreOf (modMx s c f) j).mx = if c = j then f (coreOf s c).mx else (coreOf s j).mx := by
  rw [modMx, coreOf_modCore]
  split <;> rfl

@[simp] theorem mx_modMx_self (s : State) (c : Nat) (f : Matrix → Matrix) : (coreOf (modMx s c f) c).mx = f (coreOf s c).mx := by
  rw [mx_modMx, if_pos rfl]

/-- A matrix engine without its catalog and the readers of its DRAINING entries. -/
def Matrix.bare (x : Matrix) : Matrix := { x with catalog := [], drains := [] }

/-- Only entries of catalogs, the readers of DRAINING ones and what is in the fabric differ. -/
structure Tidied (s t : State) : Prop where
  bare : ∀ c, (coreOf t c).mx.bare = (coreOf s c).mx.bare
  rest : t = { s with cores := t.cores, fabric := t.fabric }

theorem Tidied.refl (s : State) : Tidied s s := ⟨fun _ => rfl, rfl⟩

theorem Tidied.trans {a b c : State} (h1 : Tidied a b) (h2 : Tidied b c) : Tidied a c where
  bare j := (h2.bare j).trans (h1.bare j)
  rest := by rw [h2.rest, h1.rest]

theorem Tidied.foldl {α : Type} {f : State → α → State} (turn : ∀ st a, Tidied st (f st a)) (l : List α) (s : State) :
    Tidied s (l.foldl f s) :=
  List.foldlRecOn l f (.refl s) fun st before a _ => before.trans (turn st a)

theorem Tidied.modMx (s : State) (c : Nat) {f : Matrix → Matrix} (same : ∀ x, (f x).bare = x.bare) : Tidied s (modMx s c f) where
  bare j := by
    rw [mx_modMx]
    split
    · next e => rw [same, e]
    · rfl
  rest := rfl

/-- The same change of an engine after one that tidies. -/
theorem Tidied.both {s t : State} (h : Tidied s t) (c : Nat) {f : Matrix → Matrix}
    (agrees : ∀ x y : Matrix, x.bare = y.bare → (f x).bare = (f y).bare) : Tidied (Machine.modMx s c f) (Machine.modMx t c f) where
  bare j := by
    rw [mx_modMx, mx_modMx]
    split
    · exact agrees _ _ (h.bare c)
    · exact h.bare j
  rest := by
    rw [h.rest]
    rfl

theorem Tidied.setCat (s : State) (c e v : Nat) : Tidied s (setCat s c e v) := .modMx s c fun _ => rfl

theorem Tidied.dropAsks (s : State) (owner : Owner) : Tidied s (dropAsks s owner) := by
  unfold Machine.dropAsks
  dsimp only
  split <;> exact ⟨fun _ => rfl, rfl⟩

theorem Tidied.settleDrains (s : State) (c : Nat) : Tidied s (settleDrains s c) :=
  .foldl (fun st d => by
    split
    · refine .trans ?_ (.setCat ..)
      exact .modMx st c fun _ => rfl
    · exact .refl st) _ s

section
variable {s t : State} (h : Tidied s t)
include h

theorem Tidied.mem : t.mem = s.mem := by rw [h.rest]

theorem Tidied.quadOf (q : Nat) : quadOf t q = quadOf s q := by rw [h.rest]; rfl

theorem Tidied.queue (c : Nat) : (coreOf t c).mx.queue = (coreOf s c).mx.queue :=
  (congrArg Matrix.queue (h.bare c) :)

theorem Tidied.epi (c : Nat) : (coreOf t c).mx.epi = (coreOf s c).mx.epi :=
  (congrArg Matrix.epi (h.bare c) :)

theorem Tidied.route (c : Nat) : (coreOf t c).mx.route = (coreOf s c).mx.route :=
  (congrArg Matrix.route (h.bare c) :)

theorem Tidied.err (c : Nat) : (coreOf t c).mx.err = (coreOf s c).mx.err :=
  (congrArg Matrix.err (h.bare c) :)

theorem Tidied.marksAt (c n : Nat) : marksAt t c n = marksAt s c n :=
  (congrArg (fun x : Matrix => tgetD x.marks n ⟨0, 0⟩) (h.bare c) :)

end

/-! ### The end of a suspension (R154) -/

@[simp] theorem mx_noteWake (s : State) (k : Nat) (e : Nat × Nat × Word) (c : Nat) :
    (coreOf (noteWake s k e) c).mx = (coreOf s c).mx := by
  unfold noteWake
  split
  · rw [coreOf_modCore]
    split
    · next e => rw [e]
    · rfl
  · rfl

@[simp] theorem thr_noteWake (s : State) (k : Nat) (e : Nat × Nat × Word) (i : Nat) : thr (noteWake s k e) i = thr s i := by
  unfold noteWake
  split <;> rfl

@[simp] theorem quads_noteWake (s : State) (k : Nat) (e : Nat × Nat × Word) : (noteWake s k e).quads = s.quads := by
  unfold noteWake
  split <;> rfl

@[simp] theorem mx_endWait (s : State) (i c : Nat) : (coreOf (endWait s i) c).mx = (coreOf s c).mx := by
  unfold endWait
  split
  · rfl
  · rw [mx_noteWake, coreOf_modThr]

@[simp] theorem quads_endWait (s : State) (i : Nat) : (endWait s i).quads = s.quads := by
  unfold endWait
  split
  · rfl
  · rw [quads_noteWake, modThr_quads]

/-- The thread's own part in the end of its suspension. -/
theorem thr_endWait (s : State) (i : Nat) : (thr (endWait s i) i).wait = none ∧ (thr (endWait s i) i).nest = (thr s i).nest := by
  unfold endWait
  split
  · next e => exact ⟨e, rfl⟩
  · rw [thr_noteWake, thr_modThr_self]
    exact ⟨rfl, rfl⟩

/-- A thread outside loops that waits with one instruction goes on at the slot after it. -/
theorem wakeThread_of_flat {s : State} {i : Nat} {w : Wait} (waits : (thr s i).wait = some w) (single : w.paired = false)
    (flat : (thr s i).nest = []) :
    wakeThread s i = modThr (endWait s i) i fun t => { t with pc := nextSlot (thr s i).pc, nest := [] } := by
  have outside : (thr (endWait s i) i).nest = [] := (thr_endWait s i).2.trans flat
  unfold wakeThread advance loopEnd
  simp [waits, single, outside]

section
variable {s : State} {i : Nat} {w : Wait} (waits : (thr s i).wait = some w) (single : w.paired = false)
  (flat : (thr s i).nest = [])
include waits single flat

theorem thr_wakeThread : (thr (wakeThread s i) i).wait = none ∧ (thr (wakeThread s i) i).pc = nextSlot (thr s i).pc := by
  rw [wakeThread_of_flat waits single flat, thr_modThr_self]
  exact ⟨(thr_endWait s i).1, rfl⟩

theorem wakeThread_mem : (wakeThread s i).mem = s.mem := by
  rw [wakeThread_of_flat waits single flat, modThr_mem, mem_endWait]

theorem mx_wakeThread (c : Nat) : (coreOf (wakeThread s i) c).mx = (coreOf s c).mx := by
  rw [wakeThread_of_flat waits single flat, coreOf_modThr, mx_endWait]

theorem quadOf_wakeThread (q : Nat) : quadOf (wakeThread s i) q = quadOf s q := by
  rw [wakeThread_of_flat waits single flat, quadOf_modThr]
  exact congrArg (fun m => tgetD m q Quad.reset) (quads_endWait s i)

end

end Sys2Proof.Machine
end

section
/-! Acceptance by a matrix engine (R293) and the instruction at the head of its queue (R266). -/

namespace Sys2Proof.Machine

/-- An item joins the end of the queue; an MDRAIN.free changes the catalog as well (R278). -/
theorem enqueue_tidied (s : State) (core : Nat) (x : MItem) :
    Tidied (modMx s core fun q => { q with queue := q.queue ++ [x] }) (enqueue s core x) := by
  unfold enqueue
  dsimp only
  split
  · exact (Tidied.setCat ..).trans (.modMx _ core fun _ => rfl)
  · exact .refl _

theorem queue_enqueue (s : State) (core : Nat) (x : MItem) :
    (coreOf (enqueue s core x) core).mx.queue = (coreOf s core).mx.queue ++ [x] := by
  rw [(enqueue_tidied s core x).queue, mx_modMx_self]

theorem thr_enqueue (s : State) (core : Nat) (x : MItem) (i : Nat) : thr (enqueue s core x) i = thr s i := by
  rw [(enqueue_tidied s core x).rest]
  rfl

theorem exec_matrixAccept {core : Nat} (s : State) (real : core < 256) :
    exec (.matrixAccept core) s = .next (acceptHeld s core [] (coreOf s core).mx.held) := by
  show execMatrixAccept core s = _
  rw [execMatrixAccept, if_neg (Nat.not_le.mpr real)]

/-- The engine while it tries its one held instruction. -/
def unheld (s : State) (core : Nat) : State := modMx s core fun q => { q with held := [] }

theorem acceptHeld_single_held {s : State} {core : Nat} {h : MHeld}
    (holds : tryAccept (unheld s core) h.tids h.ins h.a h.b h.c = .held) : acceptHeld s core [] [h] = s := by
  rw [acceptHeld]
  simp only [List.nil_append]
  rw [← unheld, holds]
  rfl

theorem acceptHeld_single_go {s u : State} {core : Nat} {h : MHeld} {x : MItem}
    (goes : tryAccept (unheld s core) h.tids h.ins h.a h.b h.c = .go u x) :
    acceptHeld s core [] [h] = h.tids.foldl wakeThread (enqueue u core x) := by
  rw [acceptHeld]
  simp only [List.nil_append]
  rw [← unheld, goes]

/-- The first item of the queue has been performed and has left it. -/
def performed (s : State) (core : Nat) (x : MItem) : State :=
  modMx (runItem s core x) core fun q => { q with queue := q.queue.eraseIdx 0 }

/-- An instruction at the head of the queue that waits for nothing is performed. -/
theorem exec_matrixExecute_head {s : State} {core : Nat} {x : MItem} {rest : List MItem} {i : Instr} (real : core < 256)
    (head : (coreOf s core).mx.queue = x :: rest) (room : portsFull s (dieOfCore core) = false) (work : x.work = .ins i)
    (ready : itemReady s core x = true) (near : itemFar s core x = []) :
    ∃ t, exec (.matrixExecute core) s = .next t ∧ Tidied (performed s core x) t := by
  have next : nextItem s core (coreOf s core).mx.queue [] 0 = some (0, x) := by
    rw [head, nextItem, work]
    simp [ready]
  have dropped : Tidied (runItem s core x) (dropAsks (runItem s core x) (laneWriter s (x.tids.headD 0)).owner) := .dropAsks ..
  refine ⟨_, ?runs, (dropped.both core ?same).trans (.settleDrains _ core)⟩
  case runs =>
    show execMatrixExecute core s = _
    rw [execMatrixExecute, if_neg (Nat.not_le.mpr real), withRoom, room, runNext, next]
    simp [near]
  case same => exact fun _ _ e => (congrArg (fun m : Matrix => { m with queue := m.queue.eraseIdx 0 }) e :)

end Sys2Proof.Machine
end

section
/-! K-steps of a matrix engine (R287, R297, R299) and the clearing of a-tiles (R303). -/

namespace Sys2Proof.Machine

/-! ### The bytes of a K-step's results -/

/-- The code of one element of a K-step. -/
def stepCode (old : Option (Nat → Nat)) (r c : List Num × Nat) : Nat :=
  mmaElement (old.map fun f => f (128 * r.2 + c.2)) (termsOf r.1 c.1)

theorem kStep_eq (old : Option (Nat → Nat)) (rows cols : List (List Num)) :
    kStep old rows cols = rows.zipIdx.flatMap fun r => cols.zipIdx.flatMap fun c => leBytes 4 (stepCode old r c) := rfl

theorem length_flatMap_of_size {α : Type} {f : α → List Byte} {n : Nat} (size : ∀ x, (f x).length = n) (xs : List α) :
    (xs.flatMap f).length = n * xs.length := by
  rw [List.length_flatMap, List.map_congr_left fun x _ => size x, List.map_const', List.sum_replicate, smul_eq_mul, Nat.mul_comm]

section
variable {rows cols : List (List Num)} (tall : rows.length = 128) (wide : cols.length = 128)

include wide in
theorem length_stepRow (old : Option (Nat → Nat)) (r : List Num × Nat) :
    (cols.zipIdx.flatMap fun c => leBytes 4 (stepCode old r c)).length = 512 := by
  rw [length_flatMap_of_size (fun _ => length_leBytes 4 _), List.length_zipIdx, wide]

include tall wide in
theorem length_kStep (old : Option (Nat → Nat)) : (kStep old rows cols).length = 65536 := by
  rw [kStep_eq, length_flatMap_of_size (length_stepRow wide old), List.length_zipIdx, tall]

include tall wide in
/-- The bytes of element (i, j). -/
theorem kStep_element (old : Option (Nat → Nat)) {i j : Nat} (hi : i < 128) (hj : j < 128) :
    ((kStep old rows cols).drop (4 * (128 * i + j))).take 4 =
      leBytes 4 (mmaElement (old.map fun f => f (128 * i + j)) (termsOf (rows.getD i []) (cols.getD j []))) := by
  have row := take_drop_flatMap (length_stepRow wide old) [] (a := 4 * j) (b := 4) (by omega) rows.zipIdx (k := i)
    (by rw [List.length_zipIdx]; omega)
  have column := take_drop_flatMap (f := fun c => leBytes 4 (stepCode old (rows.zipIdx[i]'(by rw [List.length_zipIdx]; omega)) c))
    (fun _ => length_leBytes 4 _) [] (a := 0) (b := 4) (by omega) cols.zipIdx (k := j) (by rw [List.length_zipIdx]; omega)
  rw [List.append_nil, ← kStep_eq, show 512 * i + 4 * j = 4 * (128 * i + j) by omega] at row
  rw [List.append_nil, Nat.add_zero, List.drop_zero, take_leBytes _ (le_refl 4)] at column
  rw [row, column]
  simp [stepCode, tall, wide, hi, hj]

end

/-! ### Tiles -/

/-- A part of bytes just written. -/
theorem readBytes_within {s : State} (l : Nat) (bs : List Byte) {o n : Nat} (canonical : Memory.wf s.mem = true)
    (within : o + n ≤ bs.length) : readBytes (writeBytes s l bs) (l + o) n = (bs.drop o).take n := by
  apply List.ext_getElem
  · simp [readBytes, Memory.getList]
    omega
  · intro k hk _
    have small : k < n := by simpa [readBytes, Memory.getList] using hk
    have byte := Memory.get_setList_in (a := l) bs canonical (i := o + k) (by omega)
    simpa [readBytes, Memory.getList, writeBytes, Nat.add_assoc] using byte

theorem tileElem_of_mem {s t : State} (same : t.mem = s.mem) (l k : Nat) : tileElem t l k = tileElem s l k := by
  rw [tileElem, tileElem, readNat, readNat, readBytes, readBytes, same]

theorem length_imageRows (s : State) (l : Nat) (t : Fmt) (xv : Nat) : (imageRows s l t xv).length = 128 := by simp [imageRows]

theorem length_folioCols (s : State) (c : Nat) (t : Fmt) (xv r h n : Nat) : (folioCols s c t xv r h n).length = 128 := by
  simp [folioCols]

theorem stepTile_mem (s : State) (c n l : Nat) (ovw : Bool) (rows cols : List (List Num)) :
    (stepTile s c n l ovw rows cols).mem = Memory.setList s.mem l (kStep (if ovw then none else some (tileElem s l)) rows cols) := rfl

/-- A K-step changes its tile's elements and marks. -/
theorem stepTile_element {s : State} (c n l : Nat) (ovw : Bool) {rows cols : List (List Num)} (canonical : Memory.wf s.mem = true)
    (tall : rows.length = 128) (wide : cols.length = 128) {i j : Nat} (hi : i < 128) (hj : j < 128) :
    tileElem (stepTile s c n l ovw rows cols) l (128 * i + j) =
      mmaElement (if ovw then none else some (tileElem s l (128 * i + j))) (termsOf (rows.getD i []) (cols.getD j [])) % 2 ^ 32 := by
  have within : 4 * (128 * i + j) + 4 ≤ 65536 := by omega
  have written := readBytes_within l (kStep (if ovw then none else some (tileElem s l)) rows cols) canonical
    (o := 4 * (128 * i + j)) (n := 4) (by rw [length_kStep tall wide]; omega)
  have bytes : tileElem (stepTile s c n l ovw rows cols) l (128 * i + j) = leNat _ := congrArg leNat written
  rw [bytes, kStep_element tall wide _ hi hj, leNat_leBytes]
  cases ovw <;> rfl

theorem stepTile_elsewhere (s : State) (c n : Nat) {l k : Nat} (ovw : Bool) {rows cols : List (List Num)}
    (tall : rows.length = 128) (wide : cols.length = 128) (outside : k < l ∨ l + 65536 ≤ k) :
    Memory.get (stepTile s c n l ovw rows cols).mem k = Memory.get s.mem k := by
  rw [stepTile_mem, Memory.get_setList_out]
  rwa [length_kStep tall wide]

theorem mx_stepTile (s : State) (c n l : Nat) (ovw : Bool) (rows cols : List (List Num)) :
    let m : Marks := if ovw then ⟨0, 0⟩ else marksAt s c n
    (coreOf (stepTile s c n l ovw rows cols) c).mx =
      { (coreOf s c).mx with marks := tset (coreOf s c).mx.marks n ⟨m.row ||| marksOf rows, m.col ||| marksOf cols⟩ } := by
  rw [stepTile, mx_modMx_self, coreOf_writeBytes]

/-- The cell that an MMA reads its A image from (R298, R309). -/
def ImageAt (s : State) (core : Nat) (o : Ops) (m : M6) (x : MItem) (l : Nat) : Prop :=
  if mmaCat m then carrelLoc core (catBase (catOf s core (x.a.toNat % 64))) = l
  else ∃ k : BitVec 4, o.a = .reg (.t k) ∧ ttileLoc core k.toNat 0 = l

/-- MMA is one K-step into its a-tile; with .ovw it clears the tile's error flag too. -/
theorem runMma_eq {s : State} {core l : Nat} {o : Ops} {m : M6} {x : MItem} {n : BitVec 3} (dst : o.d = .reg (.a n))
    (image : ImageAt s core o m x l) :
    runMma s core o m x =
      let u := stepTile s core n.toNat (accumLoc core (65536 * n.toNat)) m.ovw (imageRows s l m.ta (xvFor x.xv x.tagA))
        (folioCols s core m.tb (xvFor x.xv x.tagB) (mmaRow m x.b.toNat) (if m.var.getLsbD 12 then 1 else 0) (kOf m.ta))
      if m.ovw then modMx u core fun q => { q with err := q.err.filter (· != 16 + n.toNat) } else u := by
  unfold ImageAt at image
  unfold runMma
  split at image
  · next cat => simp only [cat, dst, image, if_true]
  · next tile =>
    obtain ⟨k, src, rfl⟩ := image
    simp only [tile, dst, src]
    rfl

/-- No instruction that works on tiles changes the queue. -/
theorem queue_runMma (s : State) (core : Nat) (o : Ops) (m : M6) (x : MItem) :
    (coreOf (runMma s core o m x) core).mx.queue = (coreOf s core).mx.queue := by
  unfold runMma
  dsimp only
  split
  · split
    · rw [mx_modMx_self, mx_stepTile]
    · rw [mx_stepTile]
  · rfl

theorem queue_runMzero (s : State) (core : Nat) (r : Reg) :
    (coreOf (runMzero s core r) core).mx.queue = (coreOf s core).mx.queue := by
  unfold runMzero
  split
  · rw [setTileErr, mx_modMx_self, mx_modMx_self, coreOf_writeBytes]
  · rw [setTileErr, mx_modMx_self, mx_modMx_self, coreOf_writeBytes]
  · rfl

/-- The tile's elements and marks, and the other cells, after an MMA. -/
theorem runMma_result {s : State} {core l : Nat} {o : Ops} {m : M6} {x : MItem} {n : BitVec 3} (canonical : Memory.wf s.mem = true)
    (dst : o.d = .reg (.a n)) (image : ImageAt s core o m x l) :
    let rows := imageRows s l m.ta (xvFor x.xv x.tagA)
    let cols := folioCols s core m.tb (xvFor x.xv x.tagB) (mmaRow m x.b.toNat) (if m.var.getLsbD 12 then 1 else 0) (kOf m.ta)
    let tile := accumLoc core (65536 * n.toNat)
    let before : Marks := if m.ovw then ⟨0, 0⟩ else marksAt s core n.toNat
    (∀ i j, i < 128 → j < 128 → tileElem (runMma s core o m x) tile (128 * i + j) =
      mmaElement (if m.ovw then none else some (tileElem s tile (128 * i + j)))
        (termsOf (rows.getD i []) (cols.getD j [])) % 2 ^ 32) ∧
    marksAt (runMma s core o m x) core n.toNat = ⟨before.row ||| marksOf rows, before.col ||| marksOf cols⟩ ∧
    ∀ k, k < tile ∨ tile + 65536 ≤ k → Memory.get (runMma s core o m x).mem k = Memory.get s.mem k := by
  intro rows cols tile before
  have tall : rows.length = 128 := length_imageRows ..
  have wide : cols.length = 128 := length_folioCols ..
  let u := stepTile s core n.toNat tile m.ovw rows cols
  have result : runMma s core o m x =
      if m.ovw then modMx u core fun q => { q with err := q.err.filter (· != 16 + n.toNat) } else u := runMma_eq dst image
  have mem : (runMma s core o m x).mem = u.mem := by
    rw [result]
    split
    · exact modMx_mem ..
    · rfl
  have marks : marksAt (runMma s core o m x) core n.toNat = marksAt u core n.toNat := by
    rw [result]
    split
    · rw [marksAt, mx_modMx_self]
      rfl
    · rfl
  refine ⟨fun i j hi hj => ?_, ?_, fun k outside => ?_⟩
  · rw [tileElem_of_mem mem]
    exact stepTile_element core n.toNat tile m.ovw canonical tall wide hi hj
  · rw [marks, marksAt, mx_stepTile]
    exact tgetD_tset_self ..
  · rw [mem]
    exact stepTile_elsewhere s core n.toNat m.ovw tall wide outside

theorem contains_filter_bne (l : List Nat) (n : Nat) : (l.filter (· != n)).contains n = false := by simp

/-- MZERO of an a-tile: its cells read zero, every other cell stays, its error flag is clear. -/
theorem runMzero_result {s : State} {core : Nat} (n : BitVec 3) (canonical : Memory.wf s.mem = true) :
    let tile := accumLoc core (65536 * n.toNat)
    (∀ k, Memory.get (runMzero s core (.a n)).mem k = if tile ≤ k ∧ k < tile + 65536 then 0 else Memory.get s.mem k) ∧
    (coreOf (runMzero s core (.a n)) core).mx.err.contains (16 + n.toNat) = false := by
  intro tile
  have zeros : (List.replicate 65536 (0 : Byte)).length = 65536 := List.length_replicate ..
  have mem : (runMzero s core (.a n)).mem = Memory.setList s.mem tile (List.replicate 65536 0) := by
    rw [runMzero, setTileErr, modMx_mem, modMx_mem, writeBytes]
  refine ⟨fun k => ?_, ?_⟩
  · rw [mem]
    split
    · next inside =>
      obtain ⟨d, rfl⟩ := Nat.exists_eq_add_of_le inside.1
      rw [Memory.get_setList_in _ canonical (by rw [zeros]; omega), List.getElem_replicate]
    · next outside => rw [Memory.get_setList_out _ _ (by rw [zeros]; omega)]
  · rw [runMzero, setTileErr, mx_modMx_self]
    exact contains_filter_bne ..

end Sys2Proof.Machine

namespace Sys2Proof

open Sys2Proof.Machine

/-- Settles O40: each clause is one attempt at acceptance, or the item at the head of the queue performed. -/
theorem matrixEngineSteps : Obligations.MatrixEngineSteps := by
  unfold Obligations.MatrixEngineSteps
  dsimp only
  refine fun s core real canonical => ⟨fun h alone => ⟨fun holds => ?held, fun i u x w solo goes waits single flat => ?taken⟩,
    fun x rest head room => ?_⟩
  case held => rw [exec_matrixAccept s real, alone, acceptHeld_single_held holds]
  case taken =>
    refine ⟨wakeThread (enqueue u core x) i, ?_, ?_⟩
    · rw [exec_matrixAccept s real, alone, acceptHeld_single_go goes, solo]
      rfl
    · rw [← thr_enqueue u core x i] at waits flat
      obtain ⟨awake, pc⟩ := thr_wakeThread waits single flat
      refine ⟨?_, awake, ?_, ?_⟩
      · rw [mx_wakeThread waits single flat, queue_enqueue]
      · rw [pc, thr_enqueue]
      · rw [wakeThread_mem waits single flat, (enqueue_tidied u core x).mem]
        rfl
  have performs : ∀ {i : Instr}, x.work = .ins i → itemReady s core x = true → itemRuns s core x = [] →
      (coreOf (runItem s core x) core).mx.queue = (coreOf s core).mx.queue →
      ∃ t, exec (.matrixExecute core) s = .next t ∧ (coreOf t core).mx.queue = rest ∧ Tidied (performed s core x) t := by
    intro i work ready near still
    obtain ⟨t, run, tidied⟩ := exec_matrixExecute_head real head room work ready (by rw [itemFar, near]; rfl)
    refine ⟨t, run, ?_, tidied⟩
    rw [tidied.queue, performed, mx_modMx_self]
    simp [still, head]
  have marksKept : ∀ n, marksAt (performed s core x) core n = marksAt (runItem s core x) core n := fun n => by
    rw [marksAt, performed, mx_modMx_self, marksAt]
  refine ⟨fun o m n work dst l image => ?mma, fun o m n work dst => ?mzero, fun o m work => ?mepi, fun o m work => ?mroute⟩
  case mma =>
    have item : runItem s core x = runMma s core o m x := by rw [runItem, work]
    obtain ⟨elements, marked, elsewhere⟩ := runMma_result canonical dst image
    obtain ⟨t, run, queue, tidied⟩ := performs work (by rw [itemReady, work]) (by rw [itemRuns, work])
      (by rw [item, queue_runMma])
    have mem : t.mem = (runMma s core o m x).mem := by rw [tidied.mem, performed, modMx_mem, item]
    have marks : marksAt t core n.toNat = marksAt (runMma s core o m x) core n.toNat := by
      rw [tidied.marksAt, marksKept, item]
    refine ⟨t, run, queue, fun i j hi hj => ?_, ?_, ?_, fun k outside => ?_⟩
    · rw [tileElem_of_mem mem, elements i j hi hj]
    · rw [marks, marked]
      split <;> rfl
    · rw [marks, marked]
      split <;> rfl
    · rw [mem, elsewhere k outside]
  case mzero =>
    have item : runItem s core x = runMzero s core (.a n) := by rw [runItem, work]; simp only [dst]
    obtain ⟨zeroed, clear⟩ := runMzero_result n canonical
    obtain ⟨t, run, queue, tidied⟩ := performs work (by rw [itemReady, work]) (by rw [itemRuns, work])
      (by rw [item, queue_runMzero])
    refine ⟨t, run, queue, fun k => ?_, ?_⟩
    · rw [tidied.mem, performed, modMx_mem, item, zeroed k]
    · rw [tidied.err, performed, mx_modMx_self, item]
      exact clear
  case mepi =>
    have item : runItem s core x = modMx s core fun q => { q with epi := x.words } := by rw [runItem, work]
    obtain ⟨t, run, queue, tidied⟩ := performs work (by rw [itemReady, work]) (by rw [itemRuns, work])
      (by rw [item, mx_modMx_self])
    refine ⟨t, run, queue, ?_, ?_⟩
    · rw [tidied.epi, performed, mx_modMx_self, item, mx_modMx_self]
    · rw [tidied.mem, performed, modMx_mem, item, modMx_mem]
  case mroute =>
    have item : runItem s core x = modMx s core fun q => { q with route := x.words } := by rw [runItem, work]
    obtain ⟨t, run, queue, tidied⟩ := performs work (by rw [itemReady, work]) (by rw [itemRuns, work])
      (by rw [item, mx_modMx_self])
    refine ⟨t, run, queue, ?_, ?_⟩
    · rw [tidied.route, performed, mx_modMx_self, item, mx_modMx_self]
    · rw [tidied.mem, performed, modMx_mem, item, modMx_mem]

end Sys2Proof
end

section
/-! What keeps the slips that the quads' task schedulers have read in (R281): traps and aborts of transactions (R164, R244), stores
(R165, R478), and an engine's writes to ring headers (R32). -/

namespace Sys2Proof.Machine

/-! ### Steps that leave the quads alone -/

theorem quadOf_of_quads {s t : State} (same : t.quads = s.quads) (q : Nat) : quadOf t q = quadOf s q :=
  congrArg (fun m => tgetD m q Quad.reset) same

@[simp] theorem quads_writeWord (s : State) (l v : Nat) : (writeWord s l v).quads = s.quads := by
  rw [writeWord, writeNat, writeBytes_quads]

theorem quads_ite {s t u : State} {c : Prop} [Decidable c] (yes : t.quads = s.quads) (no : u.quads = s.quads) :
    (if c then t else u).quads = s.quads := by
  split
  · exact yes
  · exact no

theorem quads_foldl {α : Type} {f : State → α → State} (turn : ∀ st a, (f st a).quads = st.quads) (l : List α) (s : State) :
    (l.foldl f s).quads = s.quads := by
  induction l generalizing s with
  | nil => rfl
  | cons a rest ih => rw [List.foldl_cons, ih, turn]

@[simp] theorem quads_report (s : State) (ctx : Nat) (r : FaultRec) : (report s ctx r).quads = s.quads := by
  unfold report
  split
  · rfl
  · refine quads_ite (quads_writeWord ..) ?_
    exact (quads_writeWord ..).trans ((quads_writeWord ..).trans ((quads_writeWord ..).trans
      ((quads_writeWord ..).trans (quads_writeWord ..))))

@[simp] theorem quads_reportRing (s : State) (wg cause : Nat) (addr : Option Nat) : (reportRing s wg cause addr).quads = s.quads :=
  quads_report ..

@[simp] theorem quads_regate (s : State) (c : Nat) : (regate s c).quads = s.quads := by rw [(Calm.regate s c).rest]

@[simp] theorem quads_stopWg (s : State) (wg : Nat) (cause : BitVec 8) : (stopWg s wg cause).quads = s.quads := by
  unfold stopWg
  dsimp only
  split
  · rfl
  · split
    · exact quads_regate ..
    · rfl

@[simp] theorem quads_holdQuire (s : State) (i : Nat) : (holdQuire s i).quads = s.quads := by
  unfold holdQuire
  dsimp only
  split <;> rfl

@[simp] theorem quads_stopThread (s : State) (i : Nat) (cause : BitVec 8) : (stopThread s i cause).quads = s.quads := by
  rw [stopThread, quads_stopWg, quads_holdQuire]

@[simp] theorem quads_orFree (s : State) (v : Option Nat) : (orFree s v).2.quads = s.quads := by cases v <;> rfl

@[simp] theorem quads_writeDst (s : State) (i : Nat) (d : Dst) (v : Nat) : (writeDst s i d v).quads = s.quads := by cases d <;> rfl

@[simp] theorem quads_enterTrap (s : State) (i : Nat) (x : TrapInfo) (paired : Bool) : (enterTrap s i x paired).quads = s.quads := by
  unfold enterTrap
  dsimp only
  split
  · simp
  · split <;> simp

@[simp] theorem quads_abortTx (s : State) (wg key code operand : Nat) (skip : List Nat) :
    (abortTx s wg key code operand skip).quads = s.quads := by
  unfold abortTx
  split
  · rfl
  · dsimp only
    generalize code % 256 + _ = value
    rw [quads_foldl, modCore_quads, modWg_quads]
    intro st p
    split <;> simp

/-- The aborts that a thread's frame in a log area brings, with the frames that follow them. -/
def frameAborts (n : Nat) (s : State) (i : Nat) : State :=
  (logsMet s (carrelLoc (thr s i).core ((thr s i).trapFrame.toNat * 256)) 256).foldl (fun st x =>
    noteFrames n st (abortTx st x.1 x.2 9 0 []) (txTids x.1 x.2 ((tget (wgOf st x.1).txs x.2).getD blankTx))) s

theorem noteFrames_succ (n : Nat) (s0 s : State) (is : List Nat) : noteFrames (n + 1) s0 s is =
    (is.filter fun i => (thr s i).hmode && !(thr s0 i).hmode).foldl (frameAborts n) s := rfl

@[simp] theorem quads_noteFrames (fuel : Nat) (s0 s : State) (is : List Nat) : (noteFrames fuel s0 s is).quads = s.quads := by
  induction fuel generalizing s0 s is with
  | zero => rw [noteFrames]
  | succ n ih =>
    have aborts : ∀ st i, (frameAborts n st i).quads = st.quads := fun st i => by
      unfold frameAborts
      exact quads_foldl (fun u x => by rw [ih, quads_abortTx]) _ st
    rw [noteFrames_succ, quads_foldl aborts]

@[simp] theorem quads_txAbort (s : State) (wg key code operand : Nat) (skip : List Nat) :
    (txAbort s wg key code operand skip).quads = s.quads := by
  unfold txAbort
  split
  · rfl
  · rw [quads_noteFrames, quads_abortTx]

/-! ### Packets of engines -/

@[simp] theorem quads_egress (s : State) (port : Nat) (p : Packet) : (egress s port p).quads = s.quads := by
  unfold egress
  split
  · rfl
  · split <;> rfl

@[simp] theorem quads_sendFrom (s : State) (port : Nat) (p : Packet) (owner : Owner) (ctx : Nat) :
    (sendFrom s port p owner ctx).1.quads = s.quads := quads_egress ..

@[simp] theorem quads_enginePost (s : State) (die flow : Nat) (owner : Owner) (ctx range pa : Nat) (bs : List Byte) (bad : List Bool)
    (fuel : Nat) : (enginePost s die flow owner ctx range pa bs bad fuel).quads = s.quads := by
  induction fuel generalizing s pa bs bad with
  | zero => rfl
  | succ f ih =>
    rw [enginePost]
    split
    · rfl
    · exact (ih ..).trans (quads_sendFrom ..)

theorem engineLines_lineOnly {s u : State} {p : Place} {n : Nat} {write : Bool} (h : engineLines s p n write = .ok u) :
    LineOnly s u := by
  unfold engineLines at h
  split at h
  · cases h; exact LineOnly.refl s
  · refine List.foldlRecOn (motive := fun acc : Except Nat State => ∀ u, acc = .ok u → LineOnly s u) _ _
      (fun u e => by cases e; exact LineOnly.refl s) (fun acc before i _ u e => ?_) u h
    split at e
    · cases e
    · next st => exact (before st rfl).trans (lineAccess_lineOnly e)

/-! ### Slips that stand -/

/-- Every quad has the slips that it had. -/
structure SlipsStand (s t : State) : Prop where
  slips : ∀ q, (quadOf t q).slips = (quadOf s q).slips

theorem SlipsStand.of_quads {s t : State} (same : t.quads = s.quads) : SlipsStand s t :=
  ⟨fun q => congrArg Quad.slips (quadOf_of_quads same q)⟩

theorem SlipsStand.refl (s : State) : SlipsStand s s := ⟨fun _ => rfl⟩

theorem SlipsStand.trans {a b c : State} (h1 : SlipsStand a b) (h2 : SlipsStand b c) : SlipsStand a c :=
  ⟨fun q => (h2.slips q).trans (h1.slips q)⟩

theorem SlipsStand.foldl {α : Type} {f : State → α → State} (turn : ∀ st a, SlipsStand st (f st a)) (l : List α) (s : State) :
    SlipsStand s (l.foldl f s) :=
  List.foldlRecOn l f (.refl s) fun st before a _ => before.trans (turn st a)

theorem SlipsStand.modQuad (s : State) (i : Nat) {f : Quad → Quad} (same : ∀ x, (f x).slips = x.slips) :
    SlipsStand s (modQuad s i f) where
  slips q := by
    rw [quadOf_modQuad]
    split
    · next e => rw [same, e]
    · rfl

theorem SlipsStand.storeBytes (s : State) (l : Nat) (bs : List Byte) : SlipsStand s (storeBytes s l bs) := by
  have written : SlipsStand s (writeBytes s l bs) := .of_quads rfl
  refine (written.trans (.foldl (fun st x => ?abort) _ _)).trans (.foldl (fun st r => ?signal) _ _)
  case abort => exact .of_quads (quads_txAbort ..)
  case signal => exact .modQuad st _ fun _ => rfl

theorem SlipsStand.putHead (s : State) (w : Writer) (p : Place) (off v : Nat) : SlipsStand s (putHead s w p off v) := by
  unfold Machine.putHead
  dsimp only
  split
  · exact .of_quads (quads_enginePost ..)
  · split
    · exact .refl s
    · next s1 lines =>
      have kept : s1.quads = s.quads := by rw [engineLines_lineOnly lines]
      exact (SlipsStand.of_quads kept).trans (.storeBytes ..)

theorem SlipsStand.completeEntry (s : State) (w : Writer) (p : Place) (r : Ring) (k : Nat) :
    SlipsStand s (completeEntry s w p r k).1 := by
  rw [Machine.completeEntry]
  dsimp only
  generalize frontier _ _ _ = front
  split
  · exact .refl s
  · exact .putHead ..

theorem ringPlaceOf_quads {s u : State} {asid : Nat} {priv : Bool} {loc : RingLoc} {p : Place}
    (h : ringPlaceOf s asid priv loc = some (u, p)) : u.quads = s.quads := by
  unfold ringPlaceOf at h
  split at h
  · cases h; rfl
  · split at h
    · next place =>
      split at h
      · cases h
      · cases h
        rw [placeOf_xlatOnly place]
    · cases h

theorem SlipsStand.chainDone (s : State) (wg : Nat) (loc : RingLoc) (k : Nat) (flags : BitVec 3) :
    SlipsStand s (chainDone s wg loc k flags) := by
  unfold Machine.chainDone
  dsimp only
  split
  · exact .refl s
  · next s1 p place =>
    refine (SlipsStand.of_quads (ringPlaceOf_quads place)).trans (.foldl (fun st e => ?_) _ s1)
    split
    · exact .refl st
    · refine .trans ?entry (.modQuad _ _ ?same)
      case entry => exact .completeEntry ..
      case same => exact fun _ => rfl

end Sys2Proof.Machine
end

section
/-! What a quad's task scheduler does with its chains and slips (R281 to R284, R308, R309) and its named tasks (R35). -/

namespace Sys2Proof.Machine

/-! ### Slips and engines -/

/-- Two slips are one: the same entry of the same ring of the same workgroup. -/
def sameSlip (x y : Slip) : Bool := y.ring == x.ring && y.k == x.k && y.wg == x.wg

theorem sameSlip_self (x : Slip) : sameSlip x x = true := by simp [sameSlip]

/-- One slip changed in a list. -/
def changeSlip (x : Slip) (f : Slip → Slip) (y : Slip) : Slip := if sameSlip x y then f y else y

theorem changeSlip_self (x : Slip) (f : Slip → Slip) : changeSlip x f x = f x := if_pos (sameSlip_self x)

theorem slips_modSlip (s : State) (quad : Nat) (x : Slip) (f : Slip → Slip) :
    (quadOf (modSlip s quad x f) quad).slips = (quadOf s quad).slips.map (changeSlip x f) := by
  rw [modSlip, quadOf_modQuad_self]
  rfl

/-- The slip on an engine is still there after a change that takes no slip from its engine. -/
theorem slipOn_modSlip {s u : State} {core : Nat} {x : Slip} {f : Slip → Slip} (on : slipOn s core = some x)
    (slips : (quadOf u (quadOfCore core)).slips = (quadOf s (quadOfCore core)).slips)
    (stays : ∀ y, slipCore (f y) = slipCore y) : slipOn (modSlip u (quadOfCore core) x f) core = some (f x) := by
  have same : ((fun y => slipCore y == some core) ∘ changeSlip x f) = fun y => slipCore y == some core := by
    funext y
    unfold changeSlip
    simp only [Function.comp_apply]
    split
    · rw [stays]
    · rfl
  rw [slipOn, slips_modSlip, slips, List.find?_map, same, ← slipOn, on, Option.map_some, changeSlip_self]

theorem find?_changeSlip {p : Slip → Bool} {x : Slip} {l : List Slip} (found : l.find? p = some x) :
    (l.map (changeSlip x fun _ => x)).find? p = some x := by
  have fits : p x = true := List.find?_some found
  induction l with
  | nil => exact found
  | cons y rest ih =>
    rw [List.map_cons, changeSlip]
    by_cases same : sameSlip x y = true
    · rw [if_pos same, List.find?_cons_of_pos fits]
    · rw [if_neg same]
      by_cases here : p y = true
      · rw [List.find?_cons_of_pos here] at found ⊢
        exact found
      · rw [List.find?_cons_of_neg here] at found ⊢
        exact ih found

/-- A slip written back as it is, is still the slip on its engine. -/
theorem slipOn_rewritten {s : State} {core : Nat} {x : Slip} (on : slipOn s core = some x) :
    slipOn (modSlip s (quadOfCore core) x fun _ => x) core = some x := by
  rw [slipOn, slips_modSlip]
  exact find?_changeSlip on

/-! ### SLIP_READ (R281, R282) -/

theorem chainDue_of_nextChain {s : State} {quad k : Nat} {r : Ring} (next : nextChain s quad = some (k, r)) :
    chainDue s quad r = true := by
  unfold nextChain at next
  obtain ⟨i, -, found⟩ := List.exists_of_findSome?_eq_some next
  dsimp only at found
  split at found
  · split at found
    · next due =>
      cases found
      exact due
    · cases found
  · cases found

/-- What an engine finds at a header in a carrel. -/
theorem headOf_carrel (s : State) (v : Server) (c off : Nat) : headOf s v (.carrel c off) =
    if hdrPub s (carrelLoc c off) = hdrTaken s (carrelLoc c off) then .idle (dropAsks s v.w.owner)
    else if overrun s (carrelLoc c off) then .bad (dropAsks s v.w.owner) cQueueOverrun
    else .due s (Place.plain (carrelLoc c off)) := by
  simp [headOf, freshHead, ringPlaceOf, headFound, engineLines, Place.plain]

/-- A chain of the quad whose header is in a carrel has overrun, or an entry to read. -/
theorem chainHead_of_nextChain {s : State} {quad k c off : Nat} {r : Ring} (next : nextChain s quad = some (k, r))
    (loc : r.loc = .carrel c off) : chainHead s quad r =
      if overrun s (carrelLoc c off) then .bad (dropAsks s (chainServer s quad r.wg r.loc).w.owner) cQueueOverrun
      else .due s (Place.plain (carrelLoc c off)) := by
  have due := chainDue_of_nextChain next
  unfold chainDue chainHead at due
  unfold chainHead
  rw [loc, headOf_carrel] at due ⊢
  split at due
  · simp [headDue] at due
  · next unread => rw [if_neg unread]

theorem exec_slipRead {s : State} {quad k : Nat} {r : Ring} (real : quad < 64) (few : slipsAhead s (quadOf s quad) < 32)
    (next : nextChain (pollChains s quad) quad = some (k, r)) :
    exec (.slipRead quad) s = .next (readSlip (pollChains s quad) quad k r) := by
  show execSlipRead quad s = _
  rw [execSlipRead, if_neg (Nat.not_le.mpr real), if_neg (Nat.not_le.mpr few)]
  dsimp only
  rw [next]

/-- An overrun faults the chain (R31). -/
theorem chains_readSlip_overrun {s : State} {quad k c off : Nat} {r : Ring} (next : nextChain s quad = some (k, r))
    (loc : r.loc = .carrel c off) (past : overrun s (carrelLoc c off) = true) :
    ∀ y ∈ (quadOf (readSlip s quad k r) quad).chains, y.loc = r.loc → y.faulted = true := by
  intro y listed here
  rw [readSlip, chainHead_of_nextChain next loc, if_pos past] at listed
  dsimp only at listed
  rw [quadOf_of_quads (quads_reportRing ..), quadOf_modQuad_self] at listed
  obtain ⟨z, -, rfl⟩ := List.mem_map.mp listed
  split at here
  · next faulted => rw [if_pos faulted]
  · next other => exact absurd (beq_iff_eq.mpr here) other

/-- The words of an entry of a chain in a carrel: BASE is an rcarrel address (R310). -/
def chainWords (s : State) (c cell e : Nat) : List Word :=
  let ea := hdrBase s cell + 32 * slotIndex e (hdrLogn s cell)
  wordsAt s (carrelLoc (c / 64 * 64 + ea % 2 ^ 26 / 2 ^ 20) (ea % 2 ^ 20)) 4

theorem ringEntry_chain (s : State) (quad wg c off cell e : Nat) (loc : RingLoc) :
    ringEntry s (chainServer s quad wg loc) (.carrel c off) (Place.plain cell) e = .ok (s, chainWords s c cell e) := by
  have chain : (chainServer s quad wg loc).chain = true := rfl
  have size : (chainServer s quad wg loc).size = 32 := rfl
  unfold ringEntry entryEa chainWords
  simp only [chain, size, Place.plain, if_true]

/-- Without an overrun the next entry is read in. -/
theorem readSlip_due {s : State} {quad k c off : Nat} {r : Ring} (next : nextChain s quad = some (k, r))
    (loc : r.loc = .carrel c off) (fits : overrun s (carrelLoc c off) = false) :
    let e := (hdrTaken s (carrelLoc c off) + 1) % 2 ^ 48
    readSlip s quad k r = takeSlip (modQuad s quad fun q => { q with rrChain := k }) quad r (Place.plain (carrelLoc c off)) e
      (chainWords s c (carrelLoc c off) e) := by
  intro e
  rw [readSlip, chainHead_of_nextChain next loc, if_neg (by simp [fits])]
  dsimp only
  rw [loc, ringEntry_chain]
  rfl

theorem Tidied.slipKnown (s : State) (quad : Nat) (x : Slip) : Tidied s (slipKnown s quad x) :=
  .foldl (fun st i => by
    dsimp only
    split
    · refine .trans ?_ (.settleDrains ..)
      exact .modMx st _ fun _ => rfl
    · exact .refl st) _ s

theorem putTaken_plain (s : State) (w : Writer) (cell v : Nat) :
    putTaken s w (Place.plain cell) v = storeBytes s (cell + 8) (leBytes 8 (v % 2 ^ 48)) := by
  simp [putTaken, putHead, engineLines, Place.plain]

theorem hdrTaken_of_mem {s t : State} {cell v : Nat} (canonical : Memory.wf s.mem = true)
    (written : t.mem = Memory.setList s.mem (cell + 8) (leBytes 8 v)) (small : v < 2 ^ 48) : hdrTaken t cell = v := by
  have word : readWord t (cell + 8) = readWord (writeWord s (cell + 8) v) (cell + 8) := by
    unfold readWord readNat readBytes
    rw [written]
    rfl
  rw [hdrTaken, word, readWord_writeWord _ _ canonical]
  omega

/-- A slip read in: TAKEN counts it, and it waits as the last of the quad's slips. -/
theorem takeSlip_result {s : State} {quad cell e : Nat} {r : Ring} {ws : List Word} (canonical : Memory.wf s.mem = true)
    (small : e < 2 ^ 48) (good : slipBad quad ws = false) (alone : logsMet s (cell + 8) 8 = []) :
    hdrTaken (takeSlip s quad r (Place.plain cell) e ws) cell = e ∧
    (quadOf (takeSlip s quad r (Place.plain cell) e ws) quad).slips =
      (quadOf s quad).slips ++ [⟨r.loc, e, ws, r.wg, .waiting, 0⟩] := by
  let u := dropAsks s (chainServer s quad r.wg r.loc).w.owner
  have dropped : Tidied s u := .dropAsks ..
  have free : logsMet u (cell + 8) (leBytes 8 (e % 2 ^ 48)).length = [] := by
    rw [length_leBytes, dropped.rest]
    exact alone
  let x : Slip := ⟨r.loc, e, ws, r.wg, .waiting, 0⟩
  let v := modQuad (storeBytes u (cell + 8) (leBytes 8 (e % 2 ^ 48))) quad fun q => { q with slips := q.slips ++ [x] }
  have known : Tidied v (slipKnown v quad x) := .slipKnown ..
  have taken : takeSlip s quad r (Place.plain cell) e ws = slipKnown v quad x := by
    rw [takeSlip, putTaken_plain, good]
    rfl
  rw [taken]
  refine ⟨hdrTaken_of_mem canonical ?_ small, ?_⟩
  · rw [known.mem, modQuad_mem, storeBytes_mem _ _ _ free, dropped.mem, Nat.mod_eq_of_lt small]
  · rw [known.quadOf, quadOf_modQuad_self, (SlipsStand.storeBytes ..).slips, dropped.quadOf]

/-! ### SLIP_DISPATCH (R282) -/

/-- A slip with its wait tested. -/
def queueSlip (s : State) (x : Slip) : Slip :=
  match x.st with
  | .waiting => if wgServed s x.wg && slipMet s x.words then { x with st := .queued } else x
  | _ => x

theorem slips_queueSlips (s : State) (quad : Nat) : (quadOf (queueSlips s quad) quad).slips = (quadOf s quad).slips.map (queueSlip s) := by
  rw [queueSlips, quadOf_modQuad_self]
  rfl

/-- A slip whose wait is met is QUEUED, if it was not already. -/
theorem queueSlip_met {s : State} {x : Slip} (early : x.st = .waiting ∨ x.st = .queued) (served : wgServed s x.wg = true)
    (met : slipMet s x.words = true) : queueSlip s x = { x with st := .queued } := by
  unfold queueSlip
  rcases early with st | st
  · simp [st, served, met]
  · have same : ({ x with st := .queued } : Slip) = x := by rw [← st]
    rw [same]
    simp only [st]

theorem queueSlip_unmet {s : State} {x : Slip} (unmet : slipMet s x.words = false) : queueSlip s x = x := by
  unfold queueSlip
  split
  · simp [unmet]
  · rfl

/-- A quad whose one slip is on no engine has every engine free. -/
theorem engineFor_of_idle {q q' : Quad} {x x' : Slip} (slips : q.slips = [x]) (slips' : q'.slips = [x'])
    (idle : slipCore x = none) (idle' : slipCore x' = none) (quad : Nat) (ws : List Word) :
    engineFor q quad ws = engineFor q' quad ws := by
  have free : ∀ core, engineFree q core = engineFree q' core := fun core => by
    unfold engineFree
    rw [slips, slips']
    simp [idle, idle']
  unfold engineFor
  simp only [free]

/-- A quad's one slip is dispatched, when its wait is met, to the free engine of its mask. -/
theorem exec_slipDispatch_met {s : State} {quad c : Nat} {x : Slip} (real : quad < 64) (alone : (quadOf s quad).slips = [x])
    (early : x.st = .waiting ∨ x.st = .queued) (served : wgServed s x.wg = true) (met : slipMet s x.words = true)
    (good : slipBad quad x.words = false) (engine : engineFor (quadOf s quad) quad x.words = some c) :
    let y : Slip := { x with st := .queued }
    exec (.slipDispatch quad) s =
      .next (modSlip (queueSlips s quad) quad y fun z => { z with st := .running c, step := 0 }) := by
  intro y
  have slips : (quadOf (queueSlips s quad) quad).slips = [y] := by
    rw [slips_queueSlips, alone, List.map_singleton, queueSlip_met early served met]
  have idle : slipCore x = none := by
    unfold slipCore
    rcases early with st | st <;> rw [st]
  have engine' : engineFor (quadOf (queueSlips s quad) quad) quad y.words = some c :=
    (engineFor_of_idle slips alone rfl idle quad x.words).trans engine
  have first : (quadOf (queueSlips s quad) quad).slips.find? (fun z => z.st == .queued && wgServed (queueSlips s quad) z.wg &&
      (engineFor (quadOf (queueSlips s quad) quad) quad z.words).isSome) = some y := by
    have served' : wgServed (queueSlips s quad) y.wg = true := served
    rw [slips]
    simp [engine', served', y]
  show execSlipDispatch quad s = _
  rw [execSlipDispatch, if_neg (Nat.not_le.mpr real)]
  dsimp only
  rw [first]
  dsimp only
  rw [engine', good]
  rfl

/-- A slip whose wait is not met stays. -/
theorem exec_slipDispatch_unmet {s : State} {quad : Nat} {x : Slip} (real : quad < 64) (alone : (quadOf s quad).slips = [x])
    (early : x.st = .waiting) (unmet : slipMet s x.words = false) :
    exec (.slipDispatch quad) s = .next (queueSlips s quad) ∧ (quadOf (queueSlips s quad) quad).slips = [x] := by
  have slips : (quadOf (queueSlips s quad) quad).slips = [x] := by
    rw [slips_queueSlips, alone, List.map_singleton, queueSlip_unmet unmet]
  refine ⟨?_, slips⟩
  show execSlipDispatch quad s = _
  rw [execSlipDispatch, if_neg (Nat.not_le.mpr real)]
  dsimp only
  rw [slips, List.find?_cons_of_neg (by simp [early])]
  rfl

/-! ### SLIP_KSTEP (R283, R309) -/

section
variable {s : State} {core : Nat} {x : Slip} (real : core < 256) (on : slipOn s core = some x)
include real on

/-- A slip that has run its K-steps runs no more. -/
theorem exec_slipKstep_finished (finished : slipSteps x.words ≤ x.step) : exec (.slipKstep core) s = .next s := by
  show execSlipKstep core s = _
  rw [execSlipKstep, if_neg (Nat.not_le.mpr real), on]
  simp [Nat.not_lt.mpr finished]

theorem exec_slipKstep_running (running : x.st = .running core) (more : x.step < slipSteps x.words) :
    exec (.slipKstep core) s = .next (stepSlip s core x) := by
  show execSlipKstep core s = _
  rw [execSlipKstep, if_neg (Nat.not_le.mpr real), on]
  simp [running, more]

end

theorem quadOf_stepTile (s : State) (c n l : Nat) (ovw : Bool) (rows cols : List (List Num)) (q : Nat) :
    quadOf (stepTile s c n l ovw rows cols) q = quadOf s q := by
  rw [stepTile, quadOf_modMx, quadOf_writeBytes]

/-- A K-step whose image and folio rows are there counts. -/
theorem slipOn_stepSlip {s : State} {core : Nat} {x : Slip} {bs : List Byte} (on : slipOn s core = some x)
    (nearby : slipGlobal x.words = false) (image : slipTile s (quadOfCore core) x x.step = .image s bs)
    (fits : rowTagBad (coreOf s core).mx (slipRow x.words x.step) (slipB x.words) = false)
    (scaled : hasScale (slipB x.words) = true → tgetD (coreOf s core).mx.rowTag (slipRow x.words x.step + 1) 0 = 0 ∧
      (coreOf s core).mx.rowGood.contains (slipRow x.words x.step + 1) = true)
    (sound : (coreOf s core).mx.rowGood.contains (slipRow x.words x.step) = true) :
    slipOn (stepSlip s core x) core = some { x with step := x.step + 1 } := by
  have tagged : (hasScale (slipB x.words) && tgetD (coreOf s core).mx.rowTag (slipRow x.words x.step + 1) 0 != 0) = false := by
    cases scale : hasScale (slipB x.words)
    · rfl
    · rw [(scaled scale).1]
      rfl
  have whole : (hasScale (slipB x.words) && !(coreOf s core).mx.rowGood.contains (slipRow x.words x.step + 1)) = false := by
    cases scale : hasScale (slipB x.words)
    · rfl
    · rw [(scaled scale).2]
      rfl
  unfold stepSlip
  dsimp only
  rw [nearby, if_neg Bool.false_ne_true, image]
  dsimp only
  rw [fits, tagged, sound, whole]
  exact slipOn_modSlip on (congrArg Quad.slips (quadOf_stepTile ..)) fun _ => rfl

/-! ### SLIP_COMPLETE (R283, R284) -/

theorem Tidied.slipGone (s : State) (quad : Nat) (loc : RingLoc) (k : Nat) : Tidied s (slipGone s quad loc k) :=
  .foldl (fun st i => by
    dsimp only
    refine .trans ?_ (.settleDrains ..)
    exact .modMx st _ fun _ => rfl) _ s

/-- A slip that ends with no task to decrement is gone from its quad. -/
theorem slips_endSlip {s : State} {quad : Nat} {x : Slip} (silent : bit (cfgWord x.words 3) 30 = false) :
    (quadOf (endSlip s quad x) quad).slips = (quadOf s quad).slips.filter fun y => !sameSlip x y := by
  rw [endSlip]
  rw [(Tidied.slipGone ..).quadOf, (SlipsStand.chainDone ..).slips, silent, sendDecIf, if_neg Bool.false_ne_true, quadOf_modQuad_self]
  rfl

section
variable {s : State} {core : Nat} {x : Slip} (real : core < 256) (on : slipOn s core = some x)
include real on

/-- A slip whose drain is out waits for its acknowledgements. -/
theorem exec_slipComplete_drained {flags : BitVec 3} (drained : x.st = .drained core flags)
    (flying : inFlight s (.slip x.ring x.k) = true) :
    exec (.slipComplete core) s = .next (modSlip s (quadOfCore core) x fun _ => x) := by
  have same : ({ x with st := .drained core flags } : Slip) = x := by rw [← drained]
  show execSlipComplete core s = _
  rw [execSlipComplete, if_neg (Nat.not_le.mpr real), on]
  simp only [drained, settleSlip, flying, same, if_true]

variable (running : x.st = .running core) (finished : slipSteps x.words ≤ x.step)
include running finished

theorem exec_slipComplete_hold (hold : drainSlip s core x = .hold) : exec (.slipComplete core) s = .next s := by
  show execSlipComplete core s = _
  rw [execSlipComplete, if_neg (Nat.not_le.mpr real), on]
  simp only [running, if_neg (Nat.not_lt.mpr finished), hold]

/-- A finished slip is drained, and ends when nothing of its drain is in flight. -/
theorem exec_slipComplete_done {u : State} {flags : BitVec 3} (done : drainSlip s core x = .done u flags)
    (room : portsFull s (dieOfCore core) = false)
    (landed : inFlight (dropAsks u (.slip x.ring x.k)) (.slip x.ring x.k) = false) :
    exec (.slipComplete core) s =
      .next (endSlip (dropAsks u (.slip x.ring x.k)) (quadOfCore core) { x with st := .drained core flags }) := by
  show execSlipComplete core s = _
  rw [execSlipComplete, if_neg (Nat.not_le.mpr real), on]
  simp only [running, if_neg (Nat.not_lt.mpr finished), done, withRoom, room, settleSlip, landed, Bool.false_and,
    Bool.false_eq_true, if_false]

end

/-! ### Named tasks (R35, R350) -/

theorem exec_depDecrement {s : State} {quad k : Nat} {rest : List TaskMsg} (real : quad < 64)
    (head : (quadOf s quad).msgs = .dec k :: rest) :
    exec (.depDecrement quad) s = .next (applyDec (modQuad s quad fun q => { q with msgs := rest }) quad k) := by
  show execDepDecrement quad s = _
  rw [execDepDecrement, if_neg (Nat.not_le.mpr real), head]

theorem exec_depsetApply {s : State} {quad k tid : Nat} {v : BitVec 16} {rest : List TaskMsg} (real : quad < 64)
    (head : (quadOf s quad).msgs = .set k v tid :: rest) :
    exec (.depsetApply quad) s = .next (applySet (modQuad s quad fun q => { q with msgs := rest }) quad k v tid) := by
  show execDepsetApply quad s = _
  rw [execDepsetApply, if_neg (Nat.not_le.mpr real), head]

theorem quadOf_applyDec (s : State) (quad k : Nat) :
    (quadOf (applyDec s quad k) quad).msgs = (quadOf s quad).msgs ∧
    tgetD (quadOf (applyDec s quad k) quad).tasks k Task.reset =
      let old := tgetD (quadOf s quad).tasks k Task.reset
      if old.count = 0 then ⟨0, true⟩ else ⟨old.count - 1, old.under⟩ := by
  rw [applyDec, quadOf_modQuad_self]
  refine ⟨rfl, ?_⟩
  dsimp only
  rw [tgetD_tset_self]
  split
  · next zero => rw [if_pos (beq_iff_eq.mp zero), beq_iff_eq.mp zero]
  · next some => rw [if_neg fun zero => some (beq_iff_eq.mpr zero)]

/-- The state in which a DEPSET has set its counter, and its thread has not gone on yet. -/
def taskSet (s : State) (quad k : Nat) (v : BitVec 16) : State := modQuad s quad fun q => { q with tasks := tset q.tasks k ⟨v, false⟩ }

/-- A DEPSET applied: its thread, if it still waits, goes on. -/
theorem applySet_result {s : State} {quad k tid : Nat} {v : BitVec 16}
    (holds : ∀ w, (thr s tid).wait = some w → w.code = 63 ∧ w.var = holdDepset ∧ w.paired = false ∧ (thr s tid).nest = []) :
    quadOf (applySet s quad k v tid) quad = quadOf (taskSet s quad k v) quad ∧ (thr (applySet s quad k v tid) tid).wait = none := by
  have same : thr (taskSet s quad k v) tid = thr s tid := thr_modQuad ..
  cases waits : (thr s tid).wait with
  | none =>
    have applied : applySet s quad k v tid = taskSet s quad k v := by
      rw [applySet, ← taskSet, same, waits]
    rw [applied, same]
    exact ⟨rfl, waits⟩
  | some w =>
    obtain ⟨code, var, single, flat⟩ := holds w waits
    have applied : applySet s quad k v tid = wakeThread (taskSet s quad k v) tid := by
      rw [applySet, ← taskSet, same, waits]
      simp [code, var]
    rw [← same] at waits flat
    rw [applied]
    exact ⟨quadOf_wakeThread waits single flat quad, (thr_wakeThread waits single flat).1⟩

end Sys2Proof.Machine

namespace Sys2Proof

open Sys2Proof.Machine

/-- Settles O43: the scheduler's steps one by one, each by what it does to the quad's chains, slips and tasks. -/
theorem callSlipsAndTasks : Obligations.CallSlipsAndTasks := by
  unfold Obligations.CallSlipsAndTasks
  dsimp only
  refine fun s quad real => ⟨fun k c off r few next loc canonical => ⟨fun past => ?overrun, fun fits good alone => ?read⟩,
    fun x c alone early served met good engine => ?dispatched, fun x alone early unmet => ?waits,
    fun core x onModule on => ⟨fun finished => ?finished, fun bs running more near image fits scaled sound => ?stepped,
      fun u flags running finished done room landed silent => ?completed, fun flags drained flying => ?flying,
      fun running finished hold => ?held⟩,
    fun k rest head => ?decremented, fun k tid v rest head holds => ?set⟩
  case overrun => exact ⟨_, exec_slipRead real few next, chains_readSlip_overrun next loc past⟩
  case read =>
    obtain ⟨taken, slips⟩ := takeSlip_result (s := modQuad (pollChains s quad) quad fun q => { q with rrChain := k }) (quad := quad)
      (r := r) canonical (Nat.mod_lt (hdrTaken (pollChains s quad) (carrelLoc c off) + 1) (Nat.two_pow_pos 48)) good alone
    rw [quadOf_modQuad_self] at slips
    refine ⟨_, exec_slipRead real few next, ?_⟩
    rw [readSlip_due next loc fits]
    exact ⟨taken, slips⟩
  case dispatched =>
    refine ⟨_, exec_slipDispatch_met real alone early served met good engine, ?_, rfl⟩
    rw [slips_modSlip, slips_queueSlips, alone, List.map_singleton, queueSlip_met early served met, List.map_singleton,
      changeSlip_self]
  case waits =>
    obtain ⟨run, slips⟩ := exec_slipDispatch_unmet real alone early unmet
    exact ⟨_, run, slips, rfl⟩
  case finished => exact exec_slipKstep_finished onModule on finished
  case stepped => exact ⟨_, exec_slipKstep_running onModule on running more, slipOn_stepSlip on near image fits scaled sound⟩
  case completed =>
    refine ⟨_, exec_slipComplete_done onModule on running finished done room landed, fun y listed same => ?_⟩
    rw [slips_endSlip (x := { x with st := .drained core flags }) silent] at listed
    obtain ⟨ring, k, wg⟩ := same
    have other := (List.mem_filter.mp listed).2
    simp [sameSlip, ring, k, wg] at other
  case flying =>
    refine ⟨_, exec_slipComplete_drained onModule on drained flying, slipOn_rewritten on, rfl, ?_⟩
    rw [modSlip, quadOf_modQuad_self]
  case held => exact exec_slipComplete_hold onModule on running finished hold
  case decremented =>
    obtain ⟨msgs, task⟩ := quadOf_applyDec (modQuad s quad fun q => { q with msgs := rest }) quad k
    rw [quadOf_modQuad_self] at msgs task
    exact ⟨_, exec_depDecrement real head, msgs, task⟩
  case set =>
    obtain ⟨quadSet, awake⟩ := applySet_result (s := modQuad s quad fun q => { q with msgs := rest }) (quad := quad) (k := k) (v := v)
      holds
    refine ⟨_, exec_depsetApply real head, ?_, ?_, awake⟩
    · rw [quadSet, taskSet, quadOf_modQuad_self, quadOf_modQuad_self]
    · rw [quadSet, taskSet, quadOf_modQuad_self, tgetD_tset_self]

end Sys2Proof
end

section
/-! Class 0x6 and the register budget (R138, R269): the model checks the operand fields of a class 0x6 instruction once as they
stand and once with g0 in the place of each source, and so traps a role without g registers. -/

namespace Sys2Proof.Machine

/-- Operand fields that read as g0 are beyond the budget of a role without g registers. -/
theorem opsBeyond_soloOps {w : Workgroup} {quire : Nat} (noG : beyondBudget w quire (.g 0) = true) (o : Ops) :
    opsBeyond w quire (soloOps o) = true := by
  simp only [opsBeyond, soloOps, Bool.or_eq_true]
  exact .inr noG

/-- A class 0x6 instruction of a gathering with a thread whose role has no g registers traps ILLEGAL_FIELD at decode, whatever
its operand fields name. -/
theorem matrixLane_traps_of_noG {s : State} {o : Ops} {needs : List (Src × Need)} {act : State → State → Nat → Nat → LaneRes}
    {i : Nat} (hs : Ready s) (inside : i ∈ gathering s) (noG : beyondBudget (wgOf s (tidWg i)) (tidQuire i) (.g 0) = true) :
    matrixLane o needs act s = trapAll s (decodeTrap cIllegalField) := by
  have all : (gathering s).filter (fun j => !(s.issue.traps.any fun x => x.1 == j)) = gathering s := by simp [hs.fresh.1]
  have beyond : ((gathering s).any fun j => opsBeyond (wgOf s (tidWg j)) (tidQuire j) (soloOps o) ||
      opsBeyond (wgOf s (tidWg j)) (tidQuire j) o) = true :=
    List.any_eq_true.mpr ⟨i, inside, by rw [opsBeyond_soloOps noG, Bool.true_or]⟩
  unfold matrixLane laneOpWith
  simp only [openIssue_ready s hs, all, beyond, if_true]

theorem catq_traps_of_noG {s : State} {o : Ops} {i : Nat} (m : M6) (hs : Ready s) (inside : i ∈ gathering s)
    (noG : beyondBudget (wgOf s (tidWg i)) (tidQuire i) (.g 0) = true) :
    exec (.catq o m) s = trapAll s (decodeTrap cIllegalField) := by
  show execCatq o m s = _
  unfold execCatq catalogOp
  exact matrixLane_traps_of_noG hs inside noG

/-- A thread in its trap handler has not just gone on to the next slot. -/
theorem trapped_ne_landed {t v : Thread} (outside : v.hmode = false) (cause : BitVec 18) (pc : Pc) (addr : Word) :
    trapped t cause pc addr ≠ landed v := fun same =>
  Bool.false_ne_true (outside.symm.trans (congrArg Thread.hmode same).symm)

/-- A thread of the matrix role, with a trap vector, in a workgroup that owns its core's engine and has no g registers. -/
def withoutG : State :=
  { State.reset with
    cores := [(0, { Core.reset with gath := [0] })]
    wgs := [(0, { loadedWg with gcount := [0, 0, 0, 0] })]
    threads := [(0, { loadedThread with trapVecEn := true })] }

/-- Operand fields without a g register: the result goes to no register, and each source names a tile. -/
def tileFields : Ops := ⟨⟨0, 0, true⟩, .latchOnly, .reg (.t 0), .reg (.t 0), .reg (.t 0)⟩

theorem clear_withoutG : Clear (thr withoutG 0) :=
  ⟨⟨rfl, rfl, rfl⟩, rfl, rfl, ⟨rfl, rfl⟩, nofun⟩

theorem ready_withoutG : Ready withoutG where
  alone := rfl
  fresh := ⟨rfl, rfl⟩
  group := rfl
  some := List.cons_ne_nil _ _
  once := List.nodup_singleton 0
  clear := List.forall_mem_singleton.mpr clear_withoutG

theorem readable_withoutG : Readable withoutG tileFields (matrixNeeds tileFields) :=
  List.forall_mem_singleton.mpr ⟨by decide, fun _ => rfl⟩

theorem vectored_withoutG : Vectored withoutG 0 := by
  unfold Vectored
  decide

end Sys2Proof.Machine

namespace Sys2Proof

open Sys2Proof.Machine

/-- Refutes O39, in the clause of CATQ: the operand fields of `tileFields` name no g register, so they pass the check of R138 in
a workgroup without any, and yet the instruction traps ILLEGAL_FIELD, where the statement has it complete. The statement asks
neither that a budget hold g0, as each that R122 grants does, nor that the fields be those of a well-formed instruction. -/
theorem not_matrixAndCatalogInstructions : ¬ Obligations.MatrixAndCatalogInstructions := by
  unfold Obligations.MatrixAndCatalogInstructions
  rintro ⟨-, catalog⟩
  obtain ⟨⟨u, completes, -, goesOn⟩, -⟩ := catalog withoutG tileFields ⟨.none, .none, false, 0⟩ ready_withoutG readable_withoutG
    (List.forall_mem_singleton.mpr fun _ => rfl) rfl (by decide)
  have traps := catq_traps_of_noG (o := tileFields) ⟨.none, .none, false, 0⟩ ready_withoutG (List.mem_singleton_self 0) rfl
  obtain ⟨v, run, handled, -⟩ := trapAll_traps traps ready_withoutG (List.forall_mem_singleton.mpr vectored_withoutG) ⟨rfl, rfl⟩
  obtain rfl : u = v := Host.Outcome.next.inj (completes.symm.trans run)
  obtain ⟨cause, addr, inHandler, -⟩ := handled 0 (List.mem_singleton_self 0) rfl
  exact trapped_ne_landed rfl cause _ addr (inHandler.symm.trans (goesOn 0 (List.mem_singleton_self 0)))

end Sys2Proof
end

section
/-! The copy engine: reading entries in (R315, R321), and its channels' steps: start, chunks and completion (R318, R320 to R323,
R328). -/

namespace Sys2Proof.Machine

/-! ### Stores and the quads -/

/-- Decrements on their way to the quads' tasks change nothing else of a quad (R478). -/
theorem quadOf_foldl_sendDec (rs : List Nat) (s : State) (q : Nat) :
    quadOf (rs.foldl sendDec s) q = { quadOf s q with msgs := (quadOf (rs.foldl sendDec s) q).msgs } := by
  induction rs generalizing s with
  | nil => rfl
  | cons r rest ih =>
    have one : ∃ ms, quadOf (sendDec s r) q = { quadOf s q with msgs := ms } := by
      rw [sendDec, quadOf_modQuad]
      split
      · next here => exact ⟨_, by rw [← here]⟩
      · exact ⟨_, rfl⟩
    obtain ⟨ms, sent⟩ := one
    rw [List.foldl_cons, ih, sent]

theorem quadOf_storeBytes {s : State} {l : Nat} {bs : List Byte} (alone : logsMet s l bs.length = []) (q : Nat) :
    ∃ ms, quadOf (storeBytes s l bs) q = { quadOf s q with msgs := ms } := by
  have alone' : logsMet (writeBytes s l bs) l bs.length = [] := alone
  refine ⟨(quadOf (storeBytes s l bs) q).msgs, ?_⟩
  rw [storeBytes, noteStore, alone']
  exact quadOf_foldl_sendDec ..

/-! ### Memory after a store beside it -/

theorem readBytes_of_mem {s t : State} (same : t.mem = s.mem) (l n : Nat) : readBytes t l n = readBytes s l n := by
  rw [readBytes, readBytes, same]

theorem readNat_of_mem {s t : State} (same : t.mem = s.mem) (l n : Nat) : readNat t l n = readNat s l n := by
  rw [readNat, readNat, readBytes_of_mem same]

theorem readNat_setList_out {s t : State} {a l n : Nat} {bs : List Byte} (written : t.mem = Memory.setList s.mem a bs)
    (apart : l + n ≤ a ∨ a + bs.length ≤ l) : readNat t l n = readNat s l n := by
  have bytes : readBytes t l n = readBytes s l n := by
    unfold readBytes Memory.getList
    refine List.map_congr_left fun i inside => ?_
    have below := List.mem_range.mp inside
    rw [written, Memory.get_setList_out _ _ (by omega)]
  rw [readNat, bytes, readNat]

theorem readNat_setList_same {s t : State} {l n v : Nat} (canonical : Memory.wf s.mem = true)
    (written : t.mem = Memory.setList s.mem l (leBytes n v)) : readNat t l n = v % 2 ^ (8 * n) := by
  have bytes := readBytes_writeBytes l (leBytes n v) canonical
  rw [length_leBytes] at bytes
  have same : t.mem = (writeBytes s l (leBytes n v)).mem := written
  rw [readNat_of_mem same, readNat, bytes, leNat_leBytes]

/-! ### Channels -/

theorem tgetD_modChan (s : State) (quad ch : Nat) (f : List CopyRun → List CopyRun) :
    tgetD (quadOf (modChan s quad ch f) quad).chans ch [] = f (tgetD (quadOf s quad).chans ch []) := by
  rw [modChan, quadOf_modQuad_self, tgetD_tset_self]

theorem rings_modChan (s : State) (quad ch : Nat) (f : List CopyRun → List CopyRun) :
    (quadOf (modChan s quad ch f) quad).rings = (quadOf s quad).rings := by
  rw [modChan, quadOf_modQuad_self]

theorem headRun_putRun (s : State) (quad ch : Nat) (x : CopyRun) : headRun (putRun s quad ch x) quad ch = some x := by
  rw [headRun, putRun, tgetD_modChan, List.head?_cons]

theorem headRun_of_quads {s t : State} (same : t.quads = s.quads) (quad ch : Nat) : headRun t quad ch = headRun s quad ch := by
  rw [headRun, headRun, quadOf_of_quads same]

/-! ### The checks of an entry (R320) -/

theorem reservedCells_congr {s t : State} (module : t.module = s.module) (l n : Nat) : reservedCells t l n = reservedCells s l n := by
  have bank : ∀ b, bankReserved t b = bankReserved s b := fun b => by rw [bankReserved, bankReserved, module]
  unfold reservedCells
  simp only [bank]

theorem copyIllegal_congr {s t : State} (cores : t.cores = s.cores) (core : Nat) (ws : List Word) :
    copyIllegal t core ws = copyIllegal s core ws := by
  have tiles : inTiles t core ws = inTiles s core ws := by
    unfold inTiles catOf coreOf
    rw [cores]
  unfold copyIllegal
  rw [tiles]

/-- They look at workgroups, catalogs and the reserved banks. -/
theorem copyFault_congr {s t : State} (wgs : t.wgs = s.wgs) (cores : t.cores = s.cores) (module : t.module = s.module)
    (core wg : Nat) (ws : List Word) : copyFault t core wg ws = copyFault s core wg ws := by
  have group : wgOf t wg = wgOf s wg := by rw [wgOf, wgs, wgOf]
  have held : ∀ die space a n, stacksHeld t die space a n = stacksHeld s die space a n := fun die space a n => by
    rw [stacksHeld, reservedCells_congr module, stacksHeld]
  unfold copyFault
  simp only [group, copyIllegal_congr cores, held]

theorem takesPlace_modQuad (s : State) (quad : Nat) (f : Quad → Quad) (core wg : Nat) (ws : List Word) :
    takesPlace (modQuad s quad f) core wg ws = takesPlace s core wg ws := by
  rw [takesPlace, copyFault_congr (modQuad_wgs ..) (modQuad_cores ..) (modQuad_module ..), takesPlace]

/-! ### COPY_RING_READ (R315, R321) -/

theorem copyDue_of_nextRing {s : State} {q : Quad} {k : Nat} {r : Ring} (next : nextRing s q = some (k, r)) : copyDue s r = true := by
  unfold nextRing at next
  obtain ⟨i, -, found⟩ := List.exists_of_findSome?_eq_some next
  dsimp only at found
  split at found
  · split at found
    · next due =>
      cases found
      exact due
    · cases found
  · cases found

section
variable {s : State} {quad k core off : Nat} {r : Ring} (real : quad < 64) (next : nextRing s (quadOf s quad) = some (k, r))
  (loc : r.loc = .carrel core off)
include real next loc

/-- An overrun, or a header out of its workgroup's region, faults the ring (R31, R315). -/
theorem exec_copyRingRead_fault (bad : overrun s (carrelLoc core off) = true ∨ inCarrelRegion (wgOf s r.wg) off 64 = false) :
    ∃ c, exec (.copyRingRead quad) s = .next (reportRing (modRing (modQuad s quad fun q => { q with rrRing := k }) quad r
      fun y => { y with faulted := true }) r.wg c (some off)) := by
  have place : ringPlace r = (core, off) := by rw [ringPlace, loc]
  have same : overrun (modQuad s quad fun q => { q with rrRing := k }) (carrelLoc core off) = overrun s (carrelLoc core off) := rfl
  show ∃ c, execCopyRingRead quad s = _
  rw [execCopyRingRead, if_neg (Nat.not_le.mpr real), next]
  dsimp only
  rw [place]
  dsimp only
  rw [same]
  by_cases past : overrun s (carrelLoc core off) = true
  · exact ⟨_, if_pos past⟩
  · have out := bad.resolve_left past
    rw [if_neg past, out]
    exact ⟨_, rfl⟩

theorem exec_copyRingRead_due (fits : overrun s (carrelLoc core off) = false) (header : inCarrelRegion (wgOf s r.wg) off 64 = true)
    (slots : ringInRegion (wgOf s r.wg) (copyView s r) = true) :
    exec (.copyRingRead quad) s =
      .next (readEntry (modQuad s quad fun q => { q with rrRing := k }) quad r (carrelLoc core off)) := by
  have place : ringPlace r = (core, off) := by rw [ringPlace, loc]
  have same : overrun (modQuad s quad fun q => { q with rrRing := k }) (carrelLoc core off) = overrun s (carrelLoc core off) := rfl
  have view : copyView (modQuad s quad fun q => { q with rrRing := k }) r = copyView s r := rfl
  show execCopyRingRead quad s = _
  rw [execCopyRingRead, if_neg (Nat.not_le.mpr real), next]
  dsimp only
  rw [place]
  dsimp only
  rw [same, fits, view, header, slots]
  rfl

end

theorem rings_faulted (s : State) (quad wg c : Nat) (r : Ring) (a : Option Nat) :
    ∀ y ∈ (quadOf (reportRing (modRing s quad r fun y => { y with faulted := true }) wg c a) quad).rings,
      y.loc = r.loc → y.wg = r.wg → y.faulted = true := by
  intro y listed here mine
  rw [quadOf_of_quads (quads_reportRing ..), modRing, quadOf_modQuad_self] at listed
  obtain ⟨z, -, rfl⟩ := List.mem_map.mp listed
  split at here
  · next faulted => rw [if_pos faulted]
  · next other =>
    rw [if_neg other] at mine
    exact absurd (by simp [here, mine]) other

/-- The number and the words of the next entry of a ring whose header is at a cell of a carrel. -/
def nextNumber (s : State) (cell : Nat) : Nat := (hdrTaken s cell + 1) % 2 ^ 48
def nextWords (s : State) (core cell : Nat) : List Word :=
  wordsAt s (carrelLoc core (hdrBase s cell + 32 * slotIndex (nextNumber s cell) (hdrLogn s cell))) 4

/-- An entry as it is read in. -/
def freshRun (s : State) (core off wg : Nat) : CopyRun :=
  { hdr := off, core, wg, k := nextNumber s (carrelLoc core off), words := nextWords s core (carrelLoc core off), chunk := 0, pos := 0,
    st := .queued, bound := [], poison := false, sour := [] }

/-- An entry that binds no tile and takes no place in the matrix engine's queue goes to its channel. -/
theorem readEntry_plain {s : State} (quad : Nat) {core off : Nat} {r : Ring} (loc : r.loc = .carrel core off)
    (unbound : copyCv (nextWords s core (carrelLoc core off)) = false)
    (noPlace : takesPlace s core r.wg (nextWords s core (carrelLoc core off)) = false) :
    readEntry s quad r (carrelLoc core off) =
      modChan (putTaken s (copyServer s quad r).w (Place.plain (carrelLoc core off)) (nextNumber s (carrelLoc core off))) quad
        (copyChan (nextWords s core (carrelLoc core off))) fun xs => xs ++ [freshRun s core off r.wg] := by
  have place : ringPlace r = (core, off) := by rw [ringPlace, loc]
  have entry : ringEntry s (copyServer s quad r) (.carrel core off) (Place.plain (carrelLoc core off)) (nextNumber s (carrelLoc core off)) =
      .ok (s, nextWords s core (carrelLoc core off)) := by
    simp only [ringEntry, entryEa, copyServer, Place.plain, nextWords, Bool.false_eq_true, if_false]
  rw [nextNumber] at entry
  unfold readEntry
  rw [place, loc]
  dsimp only
  rw [entry]
  dsimp only
  rw [noPlace]
  simp only [Bool.false_and, Bool.false_eq_true, if_false, bindTiles, unbound, Bool.not_false, if_true]
  rfl

theorem readEntry_result {s : State} {quad core off : Nat} {r : Ring} (canonical : Memory.wf s.mem = true)
    (loc : r.loc = .carrel core off) (unbound : copyCv (nextWords s core (carrelLoc core off)) = false)
    (noPlace : takesPlace s core r.wg (nextWords s core (carrelLoc core off)) = false)
    (alone : logsMet s (carrelLoc core off + 8) 8 = []) :
    hdrTaken (readEntry s quad r (carrelLoc core off)) (carrelLoc core off) = nextNumber s (carrelLoc core off) ∧
    tgetD (quadOf (readEntry s quad r (carrelLoc core off)) quad).chans (copyChan (nextWords s core (carrelLoc core off))) [] =
      tgetD (quadOf s quad).chans (copyChan (nextWords s core (carrelLoc core off))) [] ++ [freshRun s core off r.wg] := by
  have small : nextNumber s (carrelLoc core off) < 2 ^ 48 := Nat.mod_lt _ (Nat.two_pow_pos 48)
  have free : logsMet s (carrelLoc core off + 8) (leBytes 8 (nextNumber s (carrelLoc core off))).length = [] := by
    rw [length_leBytes]
    exact alone
  obtain ⟨ms, stored⟩ := quadOf_storeBytes free quad
  have written := storeBytes_mem s _ _ free
  rw [readEntry_plain quad loc unbound noPlace, putTaken_plain, Nat.mod_eq_of_lt small, tgetD_modChan, stored]
  exact ⟨hdrTaken_of_mem canonical ((modQuad_mem ..).trans written) small, rfl⟩

/-! ### COPY_CHANNEL_START (R320) -/

/-- Only the cores differ. -/
def CoresOnly (s t : State) : Prop := t = { s with cores := t.cores }

theorem CoresOnly.refl (s : State) : CoresOnly s s := rfl

theorem CoresOnly.trans {a b c : State} (h1 : CoresOnly a b) (h2 : CoresOnly b c) : CoresOnly a c := by
  unfold CoresOnly at *
  rw [h2, h1]

theorem CoresOnly.foldl {α : Type} {f : State → α → State} (turn : ∀ st a, CoresOnly st (f st a)) (l : List α) (s : State) :
    CoresOnly s (l.foldl f s) :=
  List.foldlRecOn l f (.refl s) fun st before a _ => before.trans (turn st a)

theorem CoresOnly.ite {s t u : State} {c : Prop} [Decidable c] (yes : CoresOnly s t) (no : CoresOnly s u) :
    CoresOnly s (if c then t else u) := by
  split
  · exact yes
  · exact no

theorem CoresOnly.modMx (s : State) (c : Nat) (f : Matrix → Matrix) : CoresOnly s (modMx s c f) := rfl

theorem CoresOnly.setCat (s : State) (c e v : Nat) : CoresOnly s (setCat s c e v) := rfl

theorem CoresOnly.quadOf {s t : State} (h : CoresOnly s t) (q : Nat) : quadOf t q = quadOf s q := by
  unfold CoresOnly at h
  rw [h]
  rfl

theorem CoresOnly.mem {s t : State} (h : CoresOnly s t) : t.mem = s.mem := by
  unfold CoresOnly at h
  rw [h]

theorem CoresOnly.copyRecords (s : State) (x : CopyRun) : CoresOnly s (copyRecords s x) := by
  unfold Machine.copyRecords
  split
  · exact .ite (.refl s) (.foldl (fun st i => .ite (.modMx ..) (.refl st)) _ s)
  · exact .refl s

theorem CoresOnly.settleRows (s : State) (x : CopyRun) (whole : Bool) : CoresOnly s (settleRows s x whole) := by
  unfold Machine.settleRows
  split
  · exact .modMx ..
  · exact .refl s

/-- An entry ends: its tiles, rows and place are the cores', and its channel holds it with its outcome. -/
theorem finishRun_eq (s : State) (quad : Nat) (x : CopyRun) (cause sub : Nat) : ∃ v, CoresOnly s v ∧
    finishRun s quad x cause sub = modChan v quad (copyChan x.words) fun xs => xs.map fun y =>
      if y.hdr == x.hdr && y.core == x.core && y.k == x.k then
        { x with st := .finished (BitVec.ofNat 8 cause) (BitVec.ofNat 8 sub) } else y := by
  unfold finishRun
  dsimp only
  refine ⟨_, ?_, rfl⟩
  refine CoresOnly.trans (CoresOnly.trans ?data (CoresOnly.settleRows _ x (cause == 0))) (CoresOnly.modMx _ x.core _)
  have tiles : CoresOnly s (x.bound.foldl (fun st c =>
      if cause == 0 then catFilled st c (copyCat x.words) none else catAbandon st c (copyCat x.words)) s) :=
    .foldl (fun st c => by exact .ite (.setCat ..) (.setCat ..)) x.bound s
  exact .ite (tiles.trans (.copyRecords ..)) tiles

theorem headRun_finishRun {s : State} {quad ch : Nat} {x : CopyRun} (head : headRun s quad ch = some x) (chan : copyChan x.words = ch)
    (cause sub : Nat) : headRun (finishRun s quad x cause sub) quad ch =
      some { x with st := .finished (BitVec.ofNat 8 cause) (BitVec.ofNat 8 sub) } := by
  obtain ⟨v, cores, finished⟩ := finishRun_eq s quad x cause sub
  rw [headRun] at head
  rw [finished, chan, headRun, tgetD_modChan, cores.quadOf, List.head?_map, head]
  simp

theorem finishRun_mem (s : State) (quad : Nat) (x : CopyRun) (cause sub : Nat) : (finishRun s quad x cause sub).mem = s.mem := by
  obtain ⟨v, cores, finished⟩ := finishRun_eq s quad x cause sub
  rw [finished, ← cores.mem]
  rfl

section
variable {s : State} {quad ch : Nat} {x : CopyRun} (real : quad < 64) (channel : ch < 8) (head : headRun s quad ch = some x)
include real channel head

/-- What COPY_CHANNEL_START does with an entry that binds no tile. -/
theorem exec_copyChannelStart (served : wgServed s x.wg = true) (queued : x.st = .queued) (unbound : copyCv x.words = false) :
    exec (.copyChannelStart quad ch) s = .next (match copyFault s x.core x.wg x.words with
      | some c => endRun (putRun s quad ch x) quad x (c.toNat, none)
      | none => if runDone x then finishRun (putRun s quad ch x) quad x 0 0
        else putRun (putRun s quad ch x) quad ch { x with st := .running }) := by
  have same : copyFault (putRun s quad ch x) x.core x.wg x.words = copyFault s x.core x.wg x.words :=
    copyFault_congr (s := s) (t := putRun s quad ch x) rfl rfl rfl ..
  have goes : (x.st != .queued || !wgServed s x.wg) = false := by rw [queued, served]; rfl
  have tiles : bindTiles s x = (s, x) := by rw [bindTiles, unbound]; rfl
  have bound : (!allBound x) = false := by rw [allBound, unbound]; rfl
  show execCopyChannelStart quad ch s = _
  rw [execCopyChannelStart, if_neg (by simp; omega), head]
  dsimp only
  rw [goes, if_neg Bool.false_ne_true, tiles]
  dsimp only
  rw [bound, if_neg Bool.false_ne_true, same]
  cases copyFault s x.core x.wg x.words with
  | some c => rfl
  | none =>
    cases runDone x
    · rfl
    · rfl

/-! ### COPY_CHUNK (R322) -/

theorem exec_copyChunk (served : wgServed s x.wg = true) (running : x.st = .running) (first : accumWaits s quad x = false)
    (room : portsFull s (quad / 16) = false) : exec (.copyChunk quad ch) s = .next (copyChunk s quad ch x) := by
  show execCopyChunk quad ch s = _
  rw [execCopyChunk, if_neg (by simp; omega), head]
  simp [running, served, first, withRoom, room]

end

theorem chunkPlan_eq (x : CopyRun) : chunkPlan x = if copyXp x.words = 0 then plainChunk x else blockChunk x := by
  simp only [chunkPlan, beq_iff_eq]

theorem settleTiles_mem (s : State) (x z : CopyRun) (plan : ChunkPlan) : (settleTiles s x z plan).mem = s.mem := by
  unfold settleTiles
  split <;> rfl

/-- A chunk that moves its bytes, with more to come. -/
theorem copyChunk_moved {s s1 s2 s3 : State} {quad : Nat} {x y : CopyRun} {bs : List Byte} {bad : List Bool}
    {os : List (List CopyOut × Nat × List Nat)} (ch : Nat) (reads : chunkReads s quad x (chunkPlan x).reads = .ok (s1, bs, bad))
    (outs : chunkOuts s1 x (chunkPlan x).writes = .ok (s2, os)) (writes : chunkWrites s2 quad x os bs bad = .ok (s3, y)) :
    let z := { y with chunk := x.chunk + 1, pos := x.pos + (chunkPlan x).len }
    runDone z = false →
    headRun (copyChunk s quad ch x) quad ch = some z ∧ (copyChunk s quad ch x).mem = s3.mem := by
  intro z more
  have moved : copyChunk s quad ch x = putRun (settleTiles (dropAsks s3 (copyOwner quad x)) x z (chunkPlan x)) quad ch z := by
    unfold copyChunk
    dsimp only
    rw [reads]
    dsimp only
    rw [outs]
    dsimp only
    rw [writes]
    exact if_neg (by rw [more]; exact Bool.false_ne_true)
  rw [moved]
  refine ⟨headRun_putRun .., ?_⟩
  calc (putRun (settleTiles (dropAsks s3 (copyOwner quad x)) x z (chunkPlan x)) quad ch z).mem
      = (settleTiles (dropAsks s3 (copyOwner quad x)) x z (chunkPlan x)).mem := rfl
    _ = (dropAsks s3 (copyOwner quad x)).mem := settleTiles_mem ..
    _ = s3.mem := (Tidied.dropAsks ..).mem

/-- A read that meets a translation fault parks its entry (R251). -/
theorem headRun_copyChunk_parked {s : State} {quad : Nat} {x : CopyRun} {e : EngFault} (ch : Nat)
    (reads : chunkReads s quad x (chunkPlan x).reads = .error (.fault e)) (parked : parks e.1 = true) :
    ∃ sub idx, headRun (copyChunk s quad ch x) quad ch =
      some { x with st := .parked (BitVec.ofNat 8 e.1.1) sub (BitVec.ofNat 64 e.2) idx } := by
  unfold copyChunk
  dsimp only
  rw [reads]
  dsimp only
  rw [failRun, if_pos parked]
  exact ⟨_, _, (headRun_of_quads (quads_report ..) quad ch).trans (headRun_putRun ..)⟩

/-! ### COPY_ENTRY_COMPLETE (R318) -/

theorem frontier_cases (acc : Nat) (done : List Nat) (fuel : Nat) : frontier acc done fuel = acc ∨ frontier acc done fuel < 2 ^ 48 := by
  induction fuel generalizing acc with
  | zero => exact .inl rfl
  | succ f ih =>
    rw [frontier]
    split
    · right
      rcases ih ((acc + 1) % 2 ^ 48) with h | h
      · rw [h]
        exact Nat.mod_lt _ (Nat.two_pow_pos 48)
      · exact h
    · exact .inl rfl

/-- The entries of a ring that have completed once entry k has. -/
def doneWith (r : Ring) (k : Nat) : List Nat := if r.done.contains k then r.done else r.done ++ [k]

/-- ACC after the completion of an entry (R32). -/
def newAcc (s : State) (cell : Nat) (r : Ring) (k : Nat) : Nat := frontier (hdrAcc s cell) (doneWith r k) ((doneWith r k).length + 1)

theorem newAcc_lt (s : State) (cell : Nat) (r : Ring) (k : Nat) : newAcc s cell r k < 2 ^ 48 := by
  rcases frontier_cases (hdrAcc s cell) (doneWith r k) ((doneWith r k).length + 1) with h | h
  · rw [newAcc, h]
    exact Nat.mod_lt _ (Nat.two_pow_pos 48)
  · exact h

/-- Outside the doubleword of ACC the completion of an entry of a ring in a carrel leaves memory as it is, and ACC goes to its
frontier (R32). -/
theorem completeEntry_plain {s : State} {cell : Nat} (w : Writer) (r : Ring) (k : Nat) (canonical : Memory.wf s.mem = true)
    (alone : logsMet s (cell + 16) 8 = []) :
    let t := (completeEntry s w (Place.plain cell) r k).1
    hdrAcc t cell = newAcc s cell r k ∧ (∀ l n, l + n ≤ cell + 16 ∨ cell + 24 ≤ l → readNat t l n = readNat s l n) ∧
    ∀ q, ∃ ms, quadOf t q = { quadOf s q with msgs := ms } := by
  intro t
  have out : t = if newAcc s cell r k == hdrAcc s cell then s
      else putAcc s w (Place.plain cell) (newAcc s cell r k) := rfl
  by_cases stands : newAcc s cell r k = hdrAcc s cell
  · rw [out, if_pos (beq_iff_eq.mpr stands)]
    exact ⟨stands.symm, fun _ _ _ => rfl, fun q => ⟨_, rfl⟩⟩
  · have small := newAcc_lt s cell r k
    have free : logsMet s (cell + 16) (leBytes 8 (newAcc s cell r k)).length = [] := by
      rw [length_leBytes]
      exact alone
    have stored : t = storeBytes s (cell + 16) (leBytes 8 (newAcc s cell r k)) := by
      rw [out, if_neg (fun same => stands (beq_iff_eq.mp same)), putAcc, putHead]
      simp only [engineLines, Place.plain, Nat.mod_eq_of_lt small, Bool.false_eq_true, if_false, Bool.not_false, if_true]
    have written := storeBytes_mem s (cell + 16) (leBytes 8 (newAcc s cell r k)) free
    rw [stored]
    refine ⟨?_, fun l n apart => readNat_setList_out written ?_, fun q => quadOf_storeBytes free q⟩
    · rw [hdrAcc, readWord, readNat_setList_same canonical written]
      omega
    · rw [length_leBytes]
      omega

section
variable {s : State} {quad ch : Nat} {x : CopyRun} {cause sub : BitVec 8} (real : quad < 64) (channel : ch < 8)
  (head : headRun s quad ch = some x)
include real channel head

theorem exec_copyEntryComplete (served : wgServed s x.wg = true) (finished : x.st = .finished cause sub)
    (landed : copyInFlight s quad (x.core * 2 ^ 20 + x.hdr) x.k = false) :
    exec (.copyEntryComplete quad ch) s = .next (completeRun s quad ch x cause.toNat sub.toNat) := by
  show execCopyEntryComplete quad ch s = _
  rw [execCopyEntryComplete, if_neg (by simp; omega), head]
  dsimp only
  rw [finished]
  dsimp only
  rw [landed, served]
  rfl

end

/-- An entry that fails a check ends with its fault. -/
theorem endRun_result {s : State} {quad ch : Nat} {x : CopyRun} (head : headRun s quad ch = some x) (chan : copyChan x.words = ch)
    (f : FaultCode) : ∃ sub, headRun (endRun s quad x f) quad ch = some { x with st := .finished (BitVec.ofNat 8 f.1) sub } ∧
      (endRun s quad x f).mem = s.mem := by
  have drawn : (orFree s f.2).2.mem = s.mem := by cases f.2 <;> rfl
  have still : headRun (orFree s f.2).2 quad ch = some x := (headRun_of_quads (quads_orFree ..) quad ch).trans head
  exact ⟨_, headRun_finishRun still chan f.1 _, (finishRun_mem ..).trans drawn⟩

/-- An entry's status word (R318): a cause, POISON where it wrote poison to the host, and its SUB. -/
def outcomeWord (x : CopyRun) (cause sub : BitVec 8) : Nat :=
  (if cause = 0 ∧ x.poison = true then cPoison.toNat else cause.toNat) + sub.toNat * 256

theorem outcomeWord_lt (x : CopyRun) (cause sub : BitVec 8) : outcomeWord x cause sub < 2 ^ (8 * 4) := by
  unfold outcomeWord
  have poisonByte := cPoison.isLt
  split <;> omega

/-- The status word is out, and the entry has left its channel. -/
def wordOut (s : State) (quad ch : Nat) (x : CopyRun) (cause sub : BitVec 8) : State :=
  modChan (storeBytes s (statusCell s x.core (carrelLoc x.core x.hdr) x.k) (leBytes 4 (outcomeWord x cause sub))) quad ch
    fun xs => xs.drop 1

theorem logsMet_congr {s t : State} (same : t.wgs = s.wgs) (l n : Nat) : logsMet t l n = logsMet s l n := by
  rw [logsMet, logsMet, same]

/-- Without a task to decrement, an entry completes by its status word and the completion of its ring's entry; what is left is
the list of the quad's rings. -/
theorem completeRun_eq {s : State} {quad : Nat} (ch : Nat) {x : CopyRun} {r : Ring} (cause sub : BitVec 8)
    (silent : bit (ctrlOf x.words) 27 = false)
    (bound : (quadOf (wordOut s quad ch x cause sub) quad).rings.find?
      (fun y => y.loc == .carrel x.core x.hdr && y.wg == x.wg) = some r) :
    ∃ (w : Writer) (left : List Ring → List Ring), completeRun s quad ch x cause.toNat sub.toNat =
      modQuad (completeEntry (wordOut s quad ch x cause sub) w (Place.plain (carrelLoc x.core x.hdr)) r x.k).1 quad
        fun q => { q with rings := left q.rings } := by
  have word : (if cause.toNat == 0 && x.poison then cPoison.toNat else cause.toNat) + sub.toNat % 256 * 2 ^ 8 =
      outcomeWord x cause sub := by
    have zero : cause.toNat = 0 ↔ cause = 0 := by rw [BitVec.toNat_eq]; rfl
    rw [outcomeWord, Nat.mod_eq_of_lt sub.isLt]
    simp only [Bool.and_eq_true, beq_iff_eq, zero, Nat.reducePow]
  unfold completeRun
  dsimp only
  rw [word, silent, sendDecIf, if_neg Bool.false_ne_true, ← wordOut, bound]
  dsimp only
  let w := (copyServer (wordOut s quad ch x cause sub) quad r).w
  split
  · exact ⟨w, List.filter fun y : Ring => y.loc != r.loc || y.wg != r.wg, rfl⟩
  · exact ⟨w, List.map fun y : Ring => if y.loc == r.loc && y.wg == r.wg then
      (completeEntry (wordOut s quad ch x cause sub) w (Place.plain (carrelLoc x.core x.hdr)) r x.k).2 else y, rfl⟩

/-- The completion of a ring's entry after a status word that lies outside the ring's header. -/
theorem completeEntry_after {s u : State} {l cell v : Nat} (quad : Nat) (w : Writer) (r : Ring) (k : Nat) (left : List Ring → List Ring)
    (canonical : Memory.wf s.mem = true) (written : u.mem = Memory.setList s.mem l (leBytes 4 v)) (small : v < 2 ^ (8 * 4))
    (apart : l + 4 ≤ cell ∨ cell + 64 ≤ l) (alone : logsMet u (cell + 16) 8 = []) :
    let t := modQuad (completeEntry u w (Place.plain cell) r k).1 quad fun q => { q with rings := left q.rings }
    readNat t l 4 = v ∧ hdrAcc t cell = newAcc s cell r k ∧ (quadOf t quad).chans = (quadOf u quad).chans := by
  intro t
  have canonical' : Memory.wf u.mem = true := by
    rw [written]
    exact Memory.wf_setList _ _ canonical
  obtain ⟨acc, elsewhere, quads⟩ := completeEntry_plain w r k canonical' alone
  have mem : t.mem = (completeEntry u w (Place.plain cell) r k).1.mem := modQuad_mem ..
  have beside : cell + 16 + 8 ≤ l ∨ l + (leBytes 4 v).length ≤ cell + 16 := by
    rw [length_leBytes]
    omega
  have oldAcc : hdrAcc u cell = hdrAcc s cell := by
    rw [hdrAcc, readWord, readNat_setList_out written beside, ← readWord, ← hdrAcc]
  obtain ⟨ms, after⟩ := quads quad
  refine ⟨?status, ?acc, ?chans⟩
  case status =>
    rw [readNat_of_mem mem, elsewhere l 4 (by omega), readNat_setList_same canonical written, Nat.mod_eq_of_lt small]
  case acc => rw [hdrAcc, readWord, readNat_of_mem mem, ← readWord, ← hdrAcc, acc, newAcc, oldAcc, ← newAcc]
  case chans => rw [quadOf_modQuad_self, after]

/-- An entry completes: its status word, ACC and its channel. -/
theorem completeRun_result {s : State} {quad ch : Nat} {x : CopyRun} {r : Ring} {cause sub : BitVec 8}
    (canonical : Memory.wf s.mem = true) (silent : bit (ctrlOf x.words) 27 = false)
    (bound : (quadOf s quad).rings.find? (fun y => y.loc == .carrel x.core x.hdr && y.wg == x.wg) = some r)
    (apart : statusCell s x.core (carrelLoc x.core x.hdr) x.k + 4 ≤ carrelLoc x.core x.hdr ∨
      carrelLoc x.core x.hdr + 64 ≤ statusCell s x.core (carrelLoc x.core x.hdr) x.k)
    (alone : logsMet s (statusCell s x.core (carrelLoc x.core x.hdr) x.k) 4 = [])
    (aloneAcc : logsMet s (carrelLoc x.core x.hdr + 16) 8 = []) :
    readNat (completeRun s quad ch x cause.toNat sub.toNat) (statusCell s x.core (carrelLoc x.core x.hdr) x.k) 4 =
        outcomeWord x cause sub ∧
      hdrAcc (completeRun s quad ch x cause.toNat sub.toNat) (carrelLoc x.core x.hdr) = newAcc s (carrelLoc x.core x.hdr) r x.k ∧
      tgetD (quadOf (completeRun s quad ch x cause.toNat sub.toNat) quad).chans ch [] = (tgetD (quadOf s quad).chans ch []).drop 1 := by
  let word := leBytes 4 (outcomeWord x cause sub)
  have free : logsMet s (statusCell s x.core (carrelLoc x.core x.hdr) x.k) word.length = [] := by
    rw [length_leBytes]
    exact alone
  obtain ⟨ms, stored⟩ := quadOf_storeBytes free quad
  have written : (wordOut s quad ch x cause sub).mem =
      Memory.setList s.mem (statusCell s x.core (carrelLoc x.core x.hdr) x.k) word := by
    rw [wordOut, modChan, modQuad_mem, storeBytes_mem _ _ _ free]
  have groups : (wordOut s quad ch x cause sub).wgs = s.wgs := by
    rw [wordOut, modChan, modQuad_wgs, storeBytes_frame _ _ _ free, writeBytes_wgs]
  have rings : (quadOf (wordOut s quad ch x cause sub) quad).rings = (quadOf s quad).rings := by
    rw [wordOut, rings_modChan, stored]
  have chan : tgetD (quadOf (wordOut s quad ch x cause sub) quad).chans ch [] = (tgetD (quadOf s quad).chans ch []).drop 1 := by
    rw [wordOut, tgetD_modChan, stored]
  obtain ⟨w, left, ends⟩ := completeRun_eq ch cause sub silent (by rw [rings]; exact bound)
  obtain ⟨status, acc, chans⟩ := completeEntry_after quad w r x.k left canonical written (outcomeWord_lt ..) apart
    ((logsMet_congr groups ..).trans aloneAcc)
  rw [ends]
  exact ⟨status, acc, by rw [chans, chan]⟩

end Sys2Proof.Machine

namespace Sys2Proof

open Sys2Proof.Machine

/-- Settles O44: the four steps in turn, each by what it does to the ring, to the head of its channel and to memory. -/
theorem copyEngineSteps : Obligations.CopyEngineSteps := by
  unfold Obligations.CopyEngineSteps
  dsimp only
  refine fun s canonical => ⟨fun quad k core off r real next loc => ⟨fun bad => ?fault, fun fits header slots unbound noPlace alone => ?read⟩,
    fun quad ch x real channel head chan served => ⟨fun queued unbound => ⟨fun c found => ?refused, fun sound more => ?started,
      fun sound empty => ?emptied⟩,
      fun running first room => ⟨fun s1 bs bad s2 os s3 y reads outs writes more => ?moved, fun e reads parked => ?parked⟩,
      fun cause sub r finished landed silent bound apart alone aloneAcc => ?completed⟩⟩
  case fault =>
    obtain ⟨c, run⟩ := exec_copyRingRead_fault real next loc bad
    exact ⟨_, run, rings_faulted _ quad r.wg c r (some off)⟩
  case read =>
    obtain ⟨taken, chans⟩ := readEntry_result (s := modQuad s quad fun q => { q with rrRing := k }) (quad := quad) canonical loc
      unbound ((takesPlace_modQuad ..).trans noPlace) alone
    rw [quadOf_modQuad_self] at chans
    exact ⟨_, freshRun s core off r.wg, exec_copyRingRead_due real next loc fits header slots, taken, chans,
      rfl, rfl, rfl, rfl, rfl, rfl, rfl, rfl⟩
  case refused =>
    obtain ⟨sub, ended, mem⟩ := endRun_result (headRun_putRun s quad ch x) chan (c.toNat, none)
    rw [BitVec.ofNat_toNat, BitVec.setWidth_eq] at ended
    have run := exec_copyChannelStart real channel head served queued unbound
    rw [found] at run
    exact ⟨_, _, sub, run, ended, rfl, mem⟩
  case started =>
    have run := exec_copyChannelStart real channel head served queued unbound
    rw [sound, more] at run
    exact ⟨_, run, headRun_putRun .., rfl⟩
  case emptied =>
    have run := exec_copyChannelStart real channel head served queued unbound
    rw [sound, empty] at run
    exact ⟨_, _, run, headRun_finishRun (headRun_putRun ..) chan 0 0, rfl⟩
  case moved =>
    rw [← chunkPlan_eq] at *
    exact ⟨_, exec_copyChunk real channel head served running first room, copyChunk_moved ch reads outs writes more⟩
  case parked =>
    rw [← chunkPlan_eq] at reads
    obtain ⟨sub, idx, waits⟩ := headRun_copyChunk_parked ch reads parked
    exact ⟨_, _, sub, idx, exec_copyChunk real channel head served running first room, waits, rfl⟩
  case completed =>
    exact ⟨_, exec_copyEntryComplete real channel head served finished landed,
      completeRun_result canonical silent bound apart alone aloneAcc⟩

end Sys2Proof
end

section
/-! What leaves the dies' engines as they are: traps and aborts of transactions (R164, R244), stores (R165, R478), translations (R253)
and an engine's accesses and ring headers (R32, R419). -/

namespace Sys2Proof.Machine

/-! ### Traps and aborts -/

/-- Only the lane engine's threads, workgroups and cores, memory and the free values drawn differ. -/
def LaneOnly (s t : State) : Prop :=
  t = { s with threads := t.threads, wgs := t.wgs, cores := t.cores, mem := t.mem, poison := t.poison, draws := t.draws }

theorem LaneOnly.refl (s : State) : LaneOnly s s := rfl

theorem LaneOnly.trans {a b c : State} (h1 : LaneOnly a b) (h2 : LaneOnly b c) : LaneOnly a c := by
  unfold LaneOnly at *
  rw [h2, h1]

theorem LaneOnly.ite {s t u : State} {c : Prop} [Decidable c] (yes : LaneOnly s t) (no : LaneOnly s u) :
    LaneOnly s (if c then t else u) := by
  split
  · exact yes
  · exact no

theorem LaneOnly.foldl {α : Type} {f : State → α → State} (turn : ∀ st a, LaneOnly st (f st a)) (l : List α) (s : State) :
    LaneOnly s (l.foldl f s) :=
  List.foldlRecOn l f (.refl s) fun st before a _ => before.trans (turn st a)

theorem LaneOnly.dies {s t : State} (h : LaneOnly s t) : t.dies = s.dies := by rw [h]

theorem LaneOnly.modThr (s : State) (i : Nat) (f : Thread → Thread) : LaneOnly s (modThr s i f) := rfl

theorem LaneOnly.modCore (s : State) (c : Nat) (f : Core → Core) : LaneOnly s (modCore s c f) := rfl

theorem LaneOnly.setWg (s : State) (i : Nat) (w : Workgroup) : LaneOnly s (setWg s i w) := rfl

theorem LaneOnly.writeBytes (s : State) (l : Nat) (bs : List Byte) : LaneOnly s (writeBytes s l bs) := rfl

theorem LaneOnly.writeWord (s : State) (l v : Nat) : LaneOnly s (writeWord s l v) := rfl

theorem LaneOnly.report (s : State) (ctx : Nat) (r : FaultRec) : LaneOnly s (report s ctx r) := by
  unfold Machine.report
  split
  · exact .refl s
  · refine .ite (.writeWord ..) ?_
    exact .trans (.trans (.trans (.trans (.writeWord s ..) (.writeWord ..)) (.writeWord ..)) (.writeWord ..)) (.writeWord ..)

theorem LaneOnly.reportNote (s : State) (ctx : Nat) (n : EngineNote) : LaneOnly s (reportNote s ctx n) :=
  .trans (b := { s with draws := s.draws + 1 + 1 + 1 + 1 }) rfl (.report ..)

theorem LaneOnly.orFree (s : State) (v : Option Nat) : LaneOnly s (orFree s v).2 := by cases v <;> rfl

theorem LaneOnly.regate (s : State) (c : Nat) : LaneOnly s (regate s c) := .ite (.ite (.refl s) (.modCore ..)) (.refl s)

theorem LaneOnly.haltNow (s : State) (wg : Nat) (cause : BitVec 8) : LaneOnly s (haltNow s wg cause) :=
  .trans (.trans (.setWg s ..) (.modCore ..)) (.regate ..)

theorem LaneOnly.stopWg (s : State) (wg : Nat) (cause : BitVec 8) : LaneOnly s (stopWg s wg cause) :=
  .ite (.trans (.setWg s ..) (.modCore ..)) (.ite (.haltNow ..) (.refl s))

theorem LaneOnly.holdQuire (s : State) (i : Nat) : LaneOnly s (holdQuire s i) := .ite (.setWg ..) (.refl s)

theorem LaneOnly.stopThread (s : State) (i : Nat) (cause : BitVec 8) : LaneOnly s (stopThread s i cause) :=
  .trans (.holdQuire s i) (.stopWg ..)

theorem LaneOnly.enterTrap (s : State) (i : Nat) (x : TrapInfo) (paired : Bool) : LaneOnly s (enterTrap s i x paired) := by
  unfold Machine.enterTrap
  dsimp only
  refine .trans (.trans (.orFree s (x.sub.map BitVec.toNat)) (.orFree _ (x.addr.map BitVec.toNat))) ?_
  refine .ite (.trans (.report ..) (.stopThread ..)) (.ite (.trans (.report ..) (.stopThread ..)) ?_)
  exact .trans (.writeBytes ..) (.modThr ..)

theorem LaneOnly.endWait (s : State) (i : Nat) : LaneOnly s (endWait s i) := by
  unfold Machine.endWait
  split
  · exact .refl s
  · exact .trans (.modThr s i _) (.ite (.modCore ..) (.refl _))

theorem LaneOnly.writeDst (s : State) (i : Nat) (d : Dst) (v : Nat) : LaneOnly s (writeDst s i d v) := by cases d <;> rfl

theorem LaneOnly.abortTx (s : State) (wg key code operand : Nat) (skip : List Nat) :
    LaneOnly s (abortTx s wg key code operand skip) := by
  unfold Machine.abortTx
  split
  · exact .refl s
  · refine .trans (b := Machine.modCore (modWg s wg _) _ _) rfl (.foldl (fun st p => ?_) _ _)
    dsimp only
    refine .trans (.trans (.trans (.endWait st _) (.modThr ..)) (.writeDst ..)) (.ite (.enterTrap ..) (.refl _))

theorem LaneOnly.noteFrames (fuel : Nat) (s0 s : State) (is : List Nat) : LaneOnly s (noteFrames fuel s0 s is) := by
  induction fuel generalizing s0 s is with
  | zero => exact .refl s
  | succ n ih => exact .foldl (fun st i => .foldl (fun u x => .trans (.abortTx u ..) (ih ..)) _ st) _ s

theorem LaneOnly.txAbort (s : State) (wg key code operand : Nat) (skip : List Nat) :
    LaneOnly s (txAbort s wg key code operand skip) := by
  unfold Machine.txAbort
  split
  · exact .refl s
  · exact .trans (.abortTx s ..) (.noteFrames ..)

/-! ### Named tasks (R35) -/

theorem LaneOnly.advance (s : State) (i : Nat) (pcs : List Pc) (next : Pc) : LaneOnly s (advance s i pcs next).1 := by
  unfold Machine.advance
  split
  · exact .refl s
  · exact .ite (.trans (.modThr s ..) rfl) (.modThr ..)

theorem LaneOnly.wakeThread (s : State) (i : Nat) : LaneOnly s (wakeThread s i) := by
  unfold Machine.wakeThread
  split
  · exact .refl s
  · refine .trans (.endWait s i) ?_
    dsimp only
    split
    · exact .trans (.enterTrap ..) (.noteFrames ..)
    · exact .advance ..

theorem dies_applySet (s : State) (quad k : Nat) (v : BitVec 16) (i : Nat) : (applySet s quad k v i).dies = s.dies := by
  unfold applySet
  dsimp only
  split
  · split
    · exact (LaneOnly.wakeThread ..).dies
    · rfl
  · rfl

theorem dies_drainMsgs (s : State) (quad : Nat) : (drainMsgs s quad).dies = s.dies := by
  refine List.foldlRecOn (motive := fun t : State => t.dies = s.dies) _ _ rfl fun st before m _ => ?_
  cases m with
  | dec k => exact before
  | set k v i => exact (dies_applySet ..).trans before

theorem dies_sendDecIf (s : State) (valid : Bool) (ref : Nat) : (sendDecIf s valid ref).dies = s.dies := by
  unfold sendDecIf
  split
  · exact dies_drainMsgs ..
  · rfl

/-! ### Stores -/

@[simp] theorem dies_storeBytes (s : State) (l : Nat) (bs : List Byte) : (storeBytes s l bs).dies = s.dies := by
  unfold storeBytes noteStore
  rw [foldl_sendDec_frame]
  exact (LaneOnly.trans (.writeBytes s l bs) (.foldl (fun st x => .txAbort st ..) _ _)).dies

@[simp] theorem dies_spreadPoison (s : State) (l : Nat) (bad : List Bool) : (spreadPoison s l bad).dies = s.dies :=
  (Undisturbed.spreadPoison s l bad).dies

/-! ### Packets and lines of engines -/

@[simp] theorem dies_egress (s : State) (port : Nat) (p : Packet) : (egress s port p).dies = s.dies := by
  unfold egress
  split
  · rfl
  · split <;> rfl

@[simp] theorem dies_enginePost (s : State) (die flow : Nat) (owner : Owner) (ctx range pa : Nat) (bs : List Byte) (bad : List Bool)
    (fuel : Nat) : (enginePost s die flow owner ctx range pa bs bad fuel).dies = s.dies := by
  induction fuel generalizing s pa bs bad with
  | zero => rfl
  | succ f ih =>
    rw [enginePost]
    split
    · rfl
    · exact (ih ..).trans (dies_egress ..)

theorem dies_freeze (s : State) (t : Trans) (l : Nat) : (freeze s t l).dies = s.dies := by
  unfold freeze
  split <;> rfl

theorem dies_lineEvent (s : State) (h l e : Nat) : (lineEvent s h l e).dies = s.dies := by
  unfold lineEvent
  split
  · exact dies_freeze ..
  · rfl

theorem dies_foldl {α : Type} {f : State → α → State} (turn : ∀ st a, (f st a).dies = st.dies) (l : List α) (s : State) :
    (l.foldl f s).dies = s.dies :=
  List.foldlRecOn (motive := fun t => t.dies = s.dies) l f rfl fun st before a _ => (turn st a).trans before

theorem dies_ite {s t u : State} {c : Prop} [Decidable c] (yes : t.dies = s.dies) (no : u.dies = s.dies) :
    (if c then t else u).dies = s.dies := by
  split
  · exact yes
  · exact no

theorem dies_lineMessages (s : State) (self : Option Nat) (l r e : Nat) (t : Trans) :
    (lineMessages s self l r e t).dies = s.dies := by
  have raised : ∀ (st : State) (e : Nat) (hs : List Nat), (hs.foldl (fun u h => lineEvent u h l e) st).dies = st.dies :=
    fun st e hs => dies_foldl (fun u h => dies_lineEvent u h l e) hs st
  unfold lineMessages
  dsimp only
  refine (dies_ite (raised ..) rfl).trans ((dies_ite (dies_foldl (fun u h => ?_) ..) rfl).trans (dies_ite (raised ..) rfl))
  exact dies_ite (dies_lineEvent ..) rfl

/-- A party that holds no lines has no predictor: its accesses leave the dies alone. -/
theorem dies_lineAccess {s u : State} {pa range : Nat} {write : Bool} (h : lineAccess s none pa range write = .ok u) :
    u.dies = s.dies := by
  unfold lineAccess at h
  simp only [Bool.false_and, Bool.false_eq_true, if_false] at h
  split at h
  · next away => cases away
  · cases h
  · cases h
    exact (dies_freeze ..).trans (dies_lineMessages ..)

theorem dies_engineLines {s u : State} {p : Place} {n : Nat} {write : Bool} (h : engineLines s p n write = .ok u) :
    u.dies = s.dies := by
  unfold engineLines at h
  split at h
  · cases h; rfl
  · refine List.foldlRecOn (motive := fun acc : Except Nat State => ∀ u, acc = .ok u → u.dies = s.dies) _ _
      (fun u e => by cases e; rfl) (fun acc before i _ u e => ?_) u h
    split at e
    · cases e
    · next st => exact (dies_lineAccess e).trans (before st rfl)

/-! ### Ring headers (R32) -/

theorem dies_putHead (s : State) (w : Writer) (p : Place) (off v : Nat) : (putHead s w p off v).dies = s.dies := by
  unfold putHead
  dsimp only
  split
  · exact (dies_enginePost ..).trans rfl
  · split
    · rfl
    · next s1 lines => exact (dies_storeBytes ..).trans (dies_engineLines lines)

theorem dies_completeEntry (s : State) (w : Writer) (p : Place) (r : Ring) (k : Nat) : (completeEntry s w p r k).1.dies = s.dies := by
  rw [completeEntry]
  dsimp only
  generalize frontier _ _ _ = front
  split
  · rfl
  · exact dies_putHead ..

theorem dies_ringPlaceOf {s u : State} {asid : Nat} {priv : Bool} {loc : RingLoc} {p : Place}
    (h : ringPlaceOf s asid priv loc = some (u, p)) : u.dies = s.dies := by
  unfold ringPlaceOf at h
  split at h
  · cases h; rfl
  · split at h
    · next place =>
      split at h
      · cases h
      · cases h
        rw [placeOf_xlatOnly place]
    · cases h

/-! ### Spans (R251, R253, R258) -/

theorem dies_pagedSpans {s u : State} {p : Party} {space : Space} {acc : Acc} {ea n fuel : Nat} {xs : List Span}
    (h : pagedSpans s p space acc ea n fuel = .ok (u, xs)) : u.dies = s.dies := by
  induction fuel generalizing s ea n xs with
  | zero => cases h; rfl
  | succ f ih =>
    rw [pagedSpans] at h
    dsimp only at h
    split at h
    · cases h; rfl
    · split at h
      · cases h
      · next s1 pl place =>
        split at h
        · cases h
        · split at h
          · cases h
          · split at h
            · cases h
            · next s2 rest spans =>
              cases h
              rw [ih spans, placeOf_xlatOnly place]

theorem dies_writeSpan {s u : State} {w : Writer} {x : Span} {bs : List Byte} {bad : List Bool} (engine : ∀ i, w.owner ≠ .thread i)
    (h : writeSpan s w x bs bad = .ok u) : u.dies = s.dies := by
  unfold writeSpan at h
  split at h
  · split at h
    · next i owner => exact absurd owner (engine i)
    · cases h
      exact dies_enginePost ..
  · split at h
    · cases h
    · next s1 lines =>
      cases h
      exact ((dies_spreadPoison ..).trans (dies_storeBytes ..)).trans (dies_engineLines lines)

theorem dies_writeSpans {s u : State} {w : Writer} {xs : List Span} {bs : List Byte} {bad : List Bool}
    (engine : ∀ i, w.owner ≠ .thread i) (h : writeSpans s w xs bs bad = .ok u) : u.dies = s.dies := by
  unfold writeSpans at h
  refine List.foldlRecOn (motive := fun acc : Except EngFault State × List Byte × List Bool => ∀ u, acc.1 = .ok u → u.dies = s.dies)
    xs _ (fun u e => by cases e; rfl) (fun acc before x _ u e => ?_) u h
  split at e
  · cases e
  · next st b p => exact (dies_writeSpan engine e).trans (before st rfl)

end Sys2Proof.Machine
end

section
/-! The storage engine's requests (R331 to R333, R341, R353 to R356): their submission, and their end by a completion or a timeout. -/

namespace Sys2Proof.Machine

theorem dieOf_of_dies {s t : State} (same : t.dies = s.dies) (d : Nat) : dieOf t d = dieOf s d :=
  congrArg (fun m => tgetD m d Die.reset) same

/-- The record of an outcome leaves the dies alone. -/
theorem dies_putRecord {s t : State} {v : Server} {w : Writer} {p : Place} {k : Nat} {ws : List Word}
    (engine : ∀ i, w.owner ≠ .thread i) (h : putRecord s v w p k ws = some t) : t.dies = s.dies := by
  have dropped : ∀ n : EngineNote, (reportNote s w.context n).dies = s.dies := fun n => (LaneOnly.reportNote s w.context n).dies
  unfold putRecord at h
  dsimp only at h
  split at h
  · split at h
    · cases h
    · cases h
      exact dropped _
  · next s1 xs spans =>
    split at h
    · next s2 written =>
      cases h
      exact (dies_writeSpans engine written).trans (dies_pagedSpans spans)
    · cases h
      exact dropped _

/-! ### Requests of a die -/

theorem dieOf_modReq (s : State) (die : Nat) (r : NvReq) (f : NvReq → NvReq) : dieOf (modReq s die r f) die =
    { dieOf s die with reqs := (dieOf s die).reqs.map fun y => if y.pair == r.pair && y.k == r.k then f y else y } := by
  rw [modReq, dieOf_modDie_self]

theorem mem_reqs_modReq {s : State} {die : Nat} {r : NvReq} (f : NvReq → NvReq) (listed : r ∈ (dieOf s die).reqs) :
    f r ∈ (dieOf (modReq s die r f) die).reqs := by
  rw [dieOf_modReq]
  exact List.mem_map.mpr ⟨r, listed, by simp⟩

/-! ### NVME_REQUEST_SUBMIT (R332, R355) -/

/-- A pair that has a command of its depth to spare, no write on its way and a request that is ready submits it. -/
theorem exec_nvmeRequestSubmit {s : State} {die pair : Nat} {q : QueuePair} {r : NvReq} (onModule : die < 4) (inTable : pair < 64)
    (bound : tget (dieOf (settleReqs s die pair) die).pairs pair = some q) :
    let v := readRequestIn (settleReqs s die pair) die pair q
    ((dieOf v die).reqs.filter fun y => y.pair == pair && y.st == .submitted).length < q.depth → storageOut v die = false →
    (dieOf v die).reqs.find? (nvReady v pair) = some r →
    exec (.nvmeRequestSubmit die pair) s = .next (submitReq v die q r) := by
  intro v few quiet ready
  show execNvmeRequestSubmit die pair s = _
  rw [execNvmeRequestSubmit, if_neg (by simp; omega)]
  dsimp only
  rw [bound]
  dsimp only
  rw [quiet, if_neg (by simp; exact few), ready]

/-- PRP2 (R332): nothing for one page, the second page for two, else a list of the engine's own. -/
def prpEntry (rest : List Nat) (list : Word) : Nat :=
  match rest with
  | [] => 0
  | [a] => a
  | _ => list.toNat

/-- A request as it is submitted: its command identifier, its PRP list and its submission queue entry. -/
def asSubmitted (q : QueuePair) (cid : Nat) (pages : List Nat) (list : Word) (r : NvReq) : NvReq :=
  { r with st := .submitted, cid, prp := pages.drop 1,
           sqe := nvSqe q.nsid.toNat cid (pages.headD 0) (prpEntry (pages.drop 1) list) r.words }

theorem submitReq_result {v u : State} {die : Nat} {q : QueuePair} {r : NvReq} {xs : List Span} (listed : r ∈ (dieOf v die).reqs)
    (buffer : spansOf v (storageParty v die q.context) .global (if nvWrites r.words then .wr else .rd) (nvBuf r.words)
      (nvLen r.words) = .ok (u, xs)) :
    ∃ cid list, asSubmitted q cid (nvPages xs) list r ∈ (dieOf (submitReq v die q r) die).reqs := by
  have same : dieOf (drawFree u).2 die = dieOf v die := dieOf_of_dies (dies_pagedSpans buffer) die
  let cid := freeCid (dieOf (drawFree u).2 die) (dieOf (drawFree u).2 die).nextCid ((dieOf (drawFree u).2 die).reqs.length + 1)
  have submitted : submitReq v die q r = modDie (modReq (drawFree u).2 die r fun y =>
      { y with st := .submitted, cid, prp := (nvPages xs).drop 1,
               sqe := nvSqe q.nsid.toNat cid ((nvPages xs).headD 0) (prpEntry ((nvPages xs).drop 1) (drawFree u).1) r.words }) die
      fun x => { x with nextCid := (cid + 1) % 2 ^ 16 } := by
    rw [submitReq, buffer]
    rfl
  refine ⟨cid, (drawFree u).1, ?_⟩
  rw [submitted, dieOf_modDie_self]
  exact mem_reqs_modReq _ (same ▸ listed)

/-- The dwords of a submitted request (R354). -/
theorem sqe_asSubmitted (q : QueuePair) (cid : Nat) (pages : List Nat) (list : Word) (r : NvReq) :
    let y := asSubmitted q cid pages list r
    let dword (i : Nat) : Nat := (y.sqe.getD i 0).toNat
    y.sqe.getD 0 0 = BitVec.ofNat 32 (nvOpc r.words + cid * 2 ^ 16) ∧ y.sqe.getD 1 0 = q.nsid ∧
    dword 6 = pages.headD 0 % 2 ^ 32 ∧ dword 7 = pages.headD 0 / 2 ^ 32 % 2 ^ 32 ∧
    dword 8 = prpEntry (pages.drop 1) list % 2 ^ 32 ∧ dword 9 = prpEntry (pages.drop 1) list / 2 ^ 32 % 2 ^ 32 := by
  refine ⟨rfl, (BitVec.ofNat_toNat ..).trans (BitVec.setWidth_eq _), ?_, ?_, ?_, ?_⟩
  all_goals simp [asSubmitted, nvSqe]

/-- The block fields, for the opcodes that have them (R354). -/
theorem blocks_asSubmitted (q : QueuePair) (cid : Nat) (pages : List Nat) (list : Word) {r : NvReq} (notFlush : nvOpc r.words ≠ 0)
    (notDsm : nvOpc r.words ≠ 9) :
    let y := asSubmitted q cid pages list r
    y.sqe.getD 10 0 = BitVec.ofNat 32 (nvSlba r.words) ∧ y.sqe.getD 11 0 = BitVec.ofNat 32 (nvSlba r.words / 2 ^ 32) ∧
    y.sqe.getD 12 0 = BitVec.ofNat 32 (nvNlb r.words + if nvFua r.words then 2 ^ 30 else 0) := by
  have low : BitVec.ofNat 32 (nvSlba r.words % 2 ^ 32) = BitVec.ofNat 32 (nvSlba r.words) := BitVec.eq_of_toNat_eq (by simp)
  simpa [asSubmitted, nvSqe, notFlush, notDsm] using low

/-! ### NVME_COMPLETION and NVME_TIMEOUT (R333, R341, R356) -/

/-- A request whose outcome is known: it ends with its record. -/
def ending (r : NvReq) (ws : List Word) : NvReq := { r with st := .ending false ws }

/-- ESTAT as it stands in a record. -/
theorem estat_reqRecord (k : Nat) {estat cause : Nat} (nstat dw0 : Nat) (small : estat < 8) (byte : cause < 256) :
    bits (cfgWord (reqRecord k estat cause nstat dw0) 0) 50 48 = estat := by
  have word : cfgWord (reqRecord k estat cause nstat dw0) 0 =
      dw0 % 2 ^ 32 + nstat % 2 ^ 15 * 2 ^ 32 + estat * 2 ^ 48 + cause * 2 ^ 56 := by
    rw [cfgWord, reqRecord, List.getD_cons_zero, BitVec.toNat_ofNat, Nat.mod_eq_of_lt (by omega)]
  rw [word, bits]
  omega

section
variable {s u : State} {die : Nat} {r : NvReq} {q : QueuePair} {p : Place} {ws : List Word}
  (bound : tget (dieOf s die).pairs r.pair = some q) (outcome : r.st = .ending false ws)
  (place : ringPlaceOf s (storageServer s die q.ring).asid (storageServer s die q.ring).priv q.ring.loc = some (u, p))
include bound outcome place

/-- A request with an outcome waits while its data is in flight. -/
theorem settleReq_flying (flying : inFlight u (reqOwner die r) = true) : settleReq s die r = u := by
  rw [settleReq, bound]
  dsimp only
  rw [place, outcome]
  dsimp only
  rw [settleJob, flying]
  rfl

/-- A request whose data has landed is over once its record has landed. -/
theorem settleReq_landed {w : State} (landed : inFlight u (reqOwner die r) = false)
    (record : putRecord u (storageServer s die q.ring) (storageWriter die q.context (reqOwner die r)) p r.k ws = some w)
    (recorded : inFlight w (reqOwner die r) = false) : settleReq s die r = finishReq w die r q p ws := by
  rw [settleReq, bound]
  dsimp only
  rw [place, outcome]
  dsimp only
  rw [settleJob, landed, if_neg Bool.false_ne_true, if_neg Bool.false_ne_true, record]
  dsimp only
  rw [recorded, if_neg Bool.false_ne_true]

end

theorem dieOf_modPair {s : State} {die pair : Nat} {q : QueuePair} (f : QueuePair → QueuePair)
    (bound : tget (dieOf s die).pairs pair = some q) :
    dieOf (modPair s die pair f) die = { dieOf s die with pairs := tset (dieOf s die).pairs pair (f q) } := by
  rw [modPair, dieOf_modDie_self, bound]

/-- A request that is over is gone, and its pair remembers its ESTAT (R358). -/
def Ended (t : State) (die : Nat) (r : NvReq) (estat : Nat) : Prop :=
  (∀ y ∈ (dieOf t die).reqs, ¬ (y.pair = r.pair ∧ y.k = r.k)) ∧
  ∃ p rest, tget (dieOf t die).pairs r.pair = some p ∧ p.past = (r.k, estat, r.words) :: rest

theorem Ended.feedCards {s : State} {die : Nat} {r : NvReq} {estat : Nat} (h : Ended s die r estat) (ctx : Nat) (hdr : Word) (r' : NvReq)
    (estat' : Nat) : Ended (feedCards s die ctx hdr r' estat') die r estat := by
  unfold Ended
  rw [Machine.feedCards, dieOf_modDie_self]
  exact h

theorem ended_modPair {s : State} {die : Nat} {r : NvReq} {q : QueuePair} {f : QueuePair → QueuePair} {estat : Nat}
    {rest : List (Nat × Nat × List Word)} (gone : ∀ y ∈ (dieOf s die).reqs, ¬ (y.pair = r.pair ∧ y.k = r.k))
    (bound : tget (dieOf s die).pairs r.pair = some q) (past : (f q).past = (r.k, estat, r.words) :: rest) :
    Ended (modPair s die r.pair f) die r estat := by
  unfold Ended
  rw [dieOf_modPair f bound]
  exact ⟨gone, f q, rest, tget_tset_self .., past⟩

/-- A die without a request. -/
def withoutReq (s : State) (die : Nat) (r : NvReq) : State :=
  modDie s die fun x => { x with reqs := x.reqs.filter fun y => !(y.pair == r.pair && y.k == r.k) }

theorem ended_finishReq {s : State} {die : Nat} {r : NvReq} {q q' : QueuePair} (p : Place) (ws : List Word)
    (bound : tget (dieOf s die).pairs r.pair = some q') (silent : bit (cfgWord r.words 0) 39 = false) :
    Ended (finishReq s die r q p ws) die r (bits (cfgWord ws 0) 50 48) := by
  let t := (completeEntry (withoutReq s die r) (storageServer s die q.ring).w p q.ring r.k).1
  have left : dieOf t die = dieOf (withoutReq s die r) die := dieOf_of_dies (dies_completeEntry ..) die
  rw [withoutReq, dieOf_modDie_self] at left
  have gone : ∀ y ∈ (dieOf t die).reqs, ¬ (y.pair = r.pair ∧ y.k = r.k) := by
    intro y listed same
    rw [left] at listed
    have other := (List.mem_filter.mp listed).2
    simp [same] at other
  have still : tget (dieOf t die).pairs r.pair = some q' := by
    rw [left]
    exact bound
  unfold finishReq
  dsimp only
  rw [silent, sendDecIf, if_neg Bool.false_ne_true]
  cases q.ring.loc with
  | carrel c off => exact ended_modPair gone still rfl
  | global ctx va =>
    dsimp only
    split
    · exact .feedCards (ended_modPair gone still rfl) ..
    · exact ended_modPair gone still rfl

theorem exec_nvmeCompletion {s : State} {die cid : Nat} {r : NvReq} (status : BitVec 15) (dw0 : BitVec 32) (onModule : die < 4)
    (found : (dieOf s die).reqs.find? (fun y => y.st == .submitted && y.cid == cid) = some r) :
    exec (.nvmeCompletion die cid status dw0) s = .next (completeReq s die r
      (if status.toNat % 256 ≠ 0 then 1 else if r.poison then 5 else 0) (if r.poison then cPoison.toNat else 0) status.toNat dw0.toNat) := by
  show execNvmeCompletion die cid status dw0 s = _
  rw [execNvmeCompletion, if_neg (Nat.not_le.mpr onModule), found]
  simp only [bne_iff_ne, ne_eq]

theorem exec_nvmeTimeout {s : State} {die cid : Nat} {r : NvReq} (onModule : die < 4)
    (found : (dieOf s die).reqs.find? (fun y => y.st == .submitted && y.cid == cid) = some r) :
    exec (.nvmeTimeout die cid) s = .next (completeReq (drawFree s).2 die r 2 0 ((drawFree s).1.toNat / 2 ^ 32) (drawFree s).1.toNat) := by
  show execNvmeTimeout die cid s = _
  rw [execNvmeTimeout, if_neg (Nat.not_le.mpr onModule), found]

section
variable {b u : State} {die : Nat} {r : NvReq} {q : QueuePair} {p : Place} {estat cause nstat dw0 : Nat}
  (bound : tget (dieOf b die).pairs r.pair = some q)
  (place : ringPlaceOf (modReq b die r fun _ => ending r (reqRecord r.k estat cause nstat dw0)) (storageServer b die q.ring).asid
    (storageServer b die q.ring).priv q.ring.loc = some (u, p))
include bound place

theorem completeReq_flying (flying : inFlight u (reqOwner die r) = true) : completeReq b die r estat cause nstat dw0 = u :=
  settleReq_flying (r := ending r (reqRecord r.k estat cause nstat dw0))
    (by rw [dieOf_modReq]; exact bound) rfl place flying

theorem ended_completeReq {w : State} (silent : bit (cfgWord r.words 0) 39 = false) (small : estat < 8) (byte : cause < 256)
    (landed : inFlight u (reqOwner die r) = false)
    (record : putRecord u (storageServer b die q.ring) (storageWriter die q.context (reqOwner die r)) p r.k
      (reqRecord r.k estat cause nstat dw0) = some w)
    (recorded : inFlight w (reqOwner die r) = false) : Ended (completeReq b die r estat cause nstat dw0) die r estat := by
  let y := ending r (reqRecord r.k estat cause nstat dw0)
  have bound' : tget (dieOf (modReq b die r fun _ => y) die).pairs y.pair = some q := by
    rw [dieOf_modReq]
    exact bound
  have still : tget (dieOf w die).pairs y.pair = some q := by
    rw [dieOf_of_dies (dies_putRecord (fun _ e => by cases e) record), dieOf_of_dies (dies_ringPlaceOf place)]
    exact bound'
  have finished : completeReq b die r estat cause nstat dw0 = finishReq w die y q p (reqRecord r.k estat cause nstat dw0) :=
    settleReq_landed bound' rfl place landed record recorded
  have result := ended_finishReq (q := q) p (reqRecord r.k estat cause nstat dw0) still silent
  rw [estat_reqRecord _ _ _ small byte] at result
  rw [finished]
  exact result

end

end Sys2Proof.Machine
end

section
/-! The storage engine's cards (R336, R339, R357 to R359): their start, and their outcome. -/

namespace Sys2Proof.Machine

theorem dieOf_modCard (s : State) (die : Nat) (c : Card) (f : Card → Card) : dieOf (modCard s die c f) die =
    { dieOf s die with cards := (dieOf s die).cards.map fun y => if y.ring == c.ring && y.k == c.k then f y else y } := by
  rw [modCard, dieOf_modDie_self]

/-- The first card of a ring whose waits are over starts. -/
theorem exec_jobCardStart {s : State} {die ring : Nat} {q : CardRing} {c : Card} (onModule : die < 4) (inTable : ring < 64)
    (bound : tget (dieOf s die).cardRings ring = some q)
    (ready : (dieOf (readCardIn s die ring q) die).cards.find? (cardReady (readCardIn s die ring q) ring) = some c) :
    exec (.jobCardStart die ring) s = .next (modCard (readCardIn s die ring q) die c fun y => { y with st := .running }) := by
  show execJobCardStart die ring s = _
  rw [execJobCardStart, if_neg (by simp; omega), bound]
  dsimp only
  rw [ready]

theorem mem_cards_modCard {s : State} {die : Nat} {c : Card} (f : Card → Card) (listed : c ∈ (dieOf s die).cards) :
    f c ∈ (dieOf (modCard s die c f) die).cards := by
  rw [dieOf_modCard]
  exact List.mem_map.mpr ⟨c, listed, by simp⟩

/-- A card that is still there has its outcome. -/
def CardEnding (s : State) (die : Nat) (c : Card) (ws : List Word) : Prop :=
  ∀ y ∈ (dieOf s die).cards, y.ring = c.ring → y.k = c.k → ∃ b, y.st = .ending b ws

theorem CardEnding.of_dies {s t : State} {die : Nat} {c : Card} {ws : List Word} (h : CardEnding s die c ws)
    (same : t.dies = s.dies) : CardEnding t die c ws := by
  unfold CardEnding
  rw [dieOf_of_dies same]
  exact h

/-- A change of a card gives it its outcome, or leaves it the one it has. -/
theorem CardEnding.modCard {s : State} {die : Nat} {c : Card} {ws : List Word} {f : Card → Card}
    (turns : ∀ y ∈ (dieOf s die).cards, y.ring = c.ring → y.k = c.k → ∃ b, (f y).st = .ending b ws) :
    CardEnding (modCard s die c f) die c ws := by
  intro y listed ring k
  rw [dieOf_modCard] at listed
  obtain ⟨z, before, rfl⟩ := List.mem_map.mp listed
  split at ring
  · next same =>
    rw [Bool.and_eq_true, beq_iff_eq, beq_iff_eq] at same
    rw [if_pos (by simp [same])]
    exact turns z before same.1 same.2
  · next other =>
    rw [if_neg other] at k
    exact absurd (by simp [ring, k]) other

theorem cardEnding_finishCard (s : State) (die : Nat) (c : Card) (q : CardRing) (p : Place) (ws : List Word) :
    CardEnding (finishCard s die c q p) die c ws := by
  intro y listed ring k
  unfold finishCard at listed
  dsimp only at listed
  rw [dieOf_modDie_self] at listed
  dsimp only at listed
  rw [dieOf_of_dies (dies_completeEntry ..), dieOf_of_dies (dies_sendDecIf ..), dieOf_modDie_self] at listed
  have other := (List.mem_filter.mp listed).2
  simp [ring, k] at other

/-- A card with an outcome keeps it until it is over. -/
theorem CardEnding.settleCard {s : State} {die : Nat} {c : Card} {ws : List Word} (h : CardEnding s die c ws)
    (outcome : c.st = .ending false ws) : CardEnding (settleCard s die c) die c ws := by
  unfold Machine.settleCard
  split
  · intro y listed ring k
    rw [dieOf_modDie_self] at listed
    have other := (List.mem_filter.mp listed).2
    simp [ring, k] at other
  · next q bound =>
    dsimp only
    split
    · exact h
    · next s1 p place =>
      have placed := h.of_dies (dies_ringPlaceOf place)
      rw [outcome, settleJob]
      split
      · exact placed
      · rw [if_neg Bool.false_ne_true]
        split
        · exact placed
        · next s2 record =>
          have recorded := placed.of_dies (dies_putRecord (fun _ e => by cases e) record)
          split
          · refine .modCard fun y listed ring k => ?_
            obtain ⟨b, st⟩ := recorded y listed ring k
            rw [st]
            exact ⟨true, rfl⟩
          · exact cardEnding_finishCard s2 die c q p ws

theorem cardEnding_completeCard (s : State) (die : Nat) (c : Card) (status cause outcnt inoff check : Nat) :
    CardEnding (completeCard s die c status cause outcnt inoff check) die c (cardRecord c.k status cause outcnt inoff check) :=
  CardEnding.settleCard (c := { c with st := .ending false (cardRecord c.k status cause outcnt inoff check) })
    (CardEnding.modCard (c := c) fun _ _ _ _ => ⟨false, rfl⟩) rfl

section
variable {s : State} {die ring : Nat} {q : CardRing} {c : Card} {a n : Nat} (onModule : die < 4) (inTable : ring < 64)
  (bound : tget (dieOf (settleCards s die ring) die).cardRings ring = some q)
  (found : (dieOf (settleCards s die ring) die).cards.find? (cardEnds ring) = some c)
include onModule inTable bound found

/-- A chained card whose Read has failed ends with STATUS INPUT (R339). -/
theorem exec_jobCardComplete_noInput (input : c.input = some (a, n, false)) : exec (.jobCardComplete die ring) s =
    .next (completeCard (settleCards s die ring) die c stInput 0 0 0 0) := by
  show execJobCardComplete die ring s = _
  rw [execJobCardComplete, if_neg (by simp; omega)]
  dsimp only
  rw [found, bound]
  dsimp only
  rw [input]
  rfl

theorem exec_jobCardComplete_done {u : State} {r : Decoded} {check : Nat} (input : c.input = some (a, n, true))
    (room : portsFull (settleCards s die ring) die = false)
    (done : runCard (settleCards s die ring) die q.context c a n = .done u r check) : exec (.jobCardComplete die ring) s =
    .next (completeCard u die c r.status (if r.status = stPoison then cPoison.toNat else 0) r.out.length r.inOff check) := by
  show execJobCardComplete die ring s = _
  rw [execJobCardComplete, if_neg (by simp; omega)]
  dsimp only
  rw [found, bound]
  dsimp only
  rw [input]
  dsimp only
  rw [done]
  simp only [Bool.not_true, Bool.false_eq_true, if_false, withRoom, room, Bool.false_and, beq_iff_eq]

end

end Sys2Proof.Machine
end

section
/-! The jobs of cards: the copying job, and an LZ4 block of one sequence (R337, R358, R362). -/

namespace Sys2Proof.Machine

theorem runJob_copy {ws : List Word} (copies : cardJob ws = 0) (x dict : Input) : runJob ws x dict = readAll x := by
  rw [runJob, copies]
  rfl

theorem readAll_clean {x : Input} (sound : ∀ b ∈ x.bad, b = false) (whole : x.lost = 0) :
    readAll x = ⟨stDone, x.bytes.length, []⟩ := by
  have none : x.bad.findIdx? id = none := List.findIdx?_eq_none_iff.mpr sound
  have len : x.len = x.bytes.length := by rw [Input.len, whole, Nat.add_zero]
  have limit : x.limit = x.bytes.length := by rw [Input.limit, none]
  rw [readAll, limit, len, if_pos (beq_self_eq_true _)]

theorem readAll_poisoned {x : Input} {b : Nat} (first : x.bad.findIdx? id = some b) (inside : b < x.bytes.length) :
    readAll x = ⟨stPoison, b, []⟩ := by
  have limit : x.limit = b := by
    rw [Input.limit, first]
    exact Nat.min_eq_left inside.le
  have short : b < x.len := inside.trans_le (Nat.le_add_right ..)
  have bad : x.bad.getD b false = true := by
    obtain ⟨listed, poisoned, -⟩ := List.findIdx?_eq_some_iff_getElem.mp first
    rw [List.getD_eq_getElem _ _ listed]
    exact poisoned
  have met : x.get b = .error stPoison := by
    rw [Input.get, if_neg (by omega), if_neg (by omega), if_pos bad]
  rw [readAll, limit, if_neg (by simp; omega), Input.ending, limit, met]

/-- A clean input of a token and its literals. -/
def literals (bs : List Byte) : Input := .clean (BitVec.ofNat 8 (16 * bs.length) :: bs)

theorem get_clean (bs : List Byte) {i : Nat} (inside : i < bs.length) : (Input.clean bs).get i = .ok (bs.getD i 0).toNat := by
  have len : (Input.clean bs).len = bs.length := rfl
  rw [Input.get, len, if_neg (by omega)]
  simp [Input.clean, inside]

theorem stop_clean (bs : List Byte) {i n : Nat} (inside : i + n ≤ bs.length) : (Input.clean bs).stop i n = none := by
  rw [Input.stop, List.findSome?_eq_none_iff]
  intro t listed
  have below := List.mem_range.mp listed
  rw [get_clean bs (by omega)]

/-- A block of one sequence without a match (R362). -/
theorem lz4Seq_literals {bs : List Byte} (dict : Input) {cap : Nat} (hist : List Byte) (short : bs.length < 15) (fits : bs.length ≤ cap) :
    lz4Seq (literals bs) dict cap 0 0 hist = .ok (.last (1 + bs.length) (bs.reverse ++ hist)) := by
  have token : (literals bs).get 0 = .ok (16 * bs.length) := by
    rw [literals, get_clean _ (by simp), List.getD_cons_zero, BitVec.toNat_ofNat, Nat.mod_eq_of_lt (by omega)]
  have count : lz4Count (literals bs) 1 (16 * bs.length / 16) = .ok (1, bs.length) := by
    rw [Nat.mul_div_cancel_left _ (by decide), lz4Count, if_neg (by simp; omega)]
  have readable : (literals bs).stop 1 bs.length = none := stop_clean _ (by simp; omega)
  have taken : ((literals bs).bytes.drop 1).take bs.length = bs := List.take_length
  have last : 1 + bs.length = (literals bs).len := by simp [literals, Input.clean, Input.len, Nat.add_comm]
  rw [lz4Seq, token]
  dsimp only
  rw [count]
  dsimp only
  rw [readable]
  dsimp only
  rw [if_pos (beq_iff_eq.mpr last), if_neg (by omega), taken]

theorem lz4Decode_literals {bs : List Byte} (dict : Input) {cap : Nat} (short : bs.length < 15) (fits : bs.length ≤ cap) :
    lz4Decode (literals bs) dict cap = ⟨stDone, 1 + bs.length, bs⟩ := by
  have history : (dictBytes dict).reverse.length = dict.len := by simp [dictBytes, Input.len, Nat.add_comm]
  have noFrame : ((literals bs).bytes.take 4 == lz4Magic) = false := by
    rw [beq_eq_false_iff_ne]
    intro magic
    have first := congrArg (fun l : List Byte => (l.getD 0 0).toNat) magic
    simp [literals, Input.clean, lz4Magic] at first
    omega
  rw [lz4Decode, noFrame, Bool.false_and, if_neg Bool.false_ne_true, lz4Loop]
  rw [history, Nat.sub_self, lz4Seq_literals dict _ short fits]
  simp [history]

end Sys2Proof.Machine

namespace Sys2Proof

open Sys2Proof.Machine

/-- Settles O45: a request by its submission, its outcome and its end, a card by its start and its outcome, a job by its bytes. -/
theorem storageSteps : Obligations.StorageSteps := by
  unfold Obligations.StorageSteps
  dsimp only
  refine ⟨fun s die onModule => ⟨fun pair q r u xs inTable bound few quiet ready buffer => ?submitted,
      fun cid status dw0 r q found bound silent => ⟨⟨fun u w p recorded => ?completed, fun u p place flying => ?flying⟩,
        fun u w p recorded => ?timedOut⟩,
      fun ring q c inTable bound ready => ?started,
      fun ring q c a n good inTable bound found input room => ⟨fun bad => ?noInput, fun u r check sound done => ?carded⟩⟩,
    fun ws x dict copies sound whole => ?copied, fun ws x dict b copies first inside => ?poisoned,
    fun bs dict cap _ short fits => ?literals⟩
  case submitted =>
    have run := exec_nvmeRequestSubmit onModule inTable bound few quiet ready
    obtain ⟨cid, list, listed⟩ := submitReq_result (List.mem_of_find?_eq_some ready) buffer
    have mine : r.pair = pair := by
      have fits := List.find?_some ready
      simp only [nvReady, Bool.and_eq_true, beq_iff_eq] at fits
      exact fits.1
    obtain ⟨d0, d1, d6, d7, d8, d9⟩ := sqe_asSubmitted q cid (nvPages xs) list r
    refine ⟨_, _, run, listed, mine, rfl, rfl, rfl, rfl, d0, d1, d6, d7, fun a b two => ?_, fun notFlush notDsm => ?_⟩
    · rw [two] at d8 d9 ⊢
      exact ⟨d8, d9⟩
    · exact blocks_asSubmitted q cid (nvPages xs) list notFlush notDsm
  case completed =>
    obtain ⟨place, landed, record, recorded⟩ := recorded
    exact ⟨_, exec_nvmeCompletion status dw0 onModule found,
      ended_completeReq bound place silent (by split_ifs <;> decide) (by split <;> decide) landed record recorded⟩
  case flying =>
    have listed := List.mem_of_find?_eq_some found
    have run := exec_nvmeCompletion status dw0 onModule found
    rw [completeReq_flying bound place flying] at run
    refine ⟨u, run, ?_, rfl⟩
    rw [dieOf_of_dies (dies_ringPlaceOf place)]
    exact mem_reqs_modReq _ listed
  case timedOut =>
    obtain ⟨place, landed, record, recorded⟩ := recorded
    exact ⟨_, exec_nvmeTimeout onModule found,
      ended_completeReq (b := (drawFree s).2) bound place silent (by decide) (by decide) landed record recorded⟩
  case started =>
    exact ⟨_, exec_jobCardStart onModule inTable bound ready, mem_cards_modCard _ (List.mem_of_find?_eq_some ready)⟩
  case noInput =>
    subst bad
    exact ⟨_, exec_jobCardComplete_noInput onModule inTable bound found input, cardEnding_completeCard _ die c stInput 0 0 0 0⟩
  case carded =>
    subst sound
    exact ⟨_, exec_jobCardComplete_done onModule inTable bound found input room done,
      cardEnding_completeCard u die c r.status _ r.out.length r.inOff check⟩
  case copied =>
    rw [runJob_copy copies, readAll_clean sound whole]
    exact ⟨rfl, rfl, rfl⟩
  case poisoned =>
    rw [runJob_copy copies, readAll_poisoned first inside]
    exact ⟨rfl, rfl⟩
  case literals =>
    have decoded := lz4Decode_literals dict short fits
    rw [literals] at decoded
    rw [decoded]
    exact ⟨rfl, rfl⟩

end Sys2Proof
end

section
/-! Named tasks (R350, R351) and a ring's frontier (R352). -/

namespace Sys2Proof.Machine

/-! ### Transactions, releases and destinations -/

theorem txOf_of_wgs {s t : State} (same : t.wgs = s.wgs) (i : Nat) : txOf t i = txOf s i := by
  unfold txOf txEntry wgOf
  rw [same]

theorem Reaches.noTx {s u : State} {i : Nat} {space : Space} {ea size l : Nat} {acc : Acc} (h : Reaches s i space ea size acc l u) :
    txOf s i = none := by
  obtain ⟨-, outside, -⟩ := h
  exact outside

/-- A thread whose order, if it releases, finds it quiet is not held up (R454). -/
theorem releaseWaits_of_quiet {s : State} {i : Nat} {rel : Bool} (quiet : rel = true → Quiet s i) :
    releaseWaits s i rel = false := by
  cases rel with
  | false => rfl
  | true =>
    obtain ⟨posted, queued⟩ := quiet rfl
    simp [releaseWaits, posted, queued]

/-- A register of a thread written: no soft error is left in it (R258). -/
def regOn (r : Reg) (v : Nat) (t : Thread) : Thread :=
  putReg { t with eccRegs := t.eccRegs.filter (· != r) } r (BitVec.ofNat 256 v) 0

theorem writeDst_reg (s : State) (i : Nat) (r : Reg) (v : Nat) : writeDst s i (.reg r) v = modThr s i (regOn r v) := by
  cases r <;> rfl

/-- A value of at most 64 bits in a thread without soft errors. -/
theorem regOn_eq_putG {t : Thread} (r : Reg) {v : Nat} (small : v < 2 ^ 64) (noEcc : t.eccRegs = []) :
    regOn r v t = putG t (.reg r) v := by
  have wide : BitVec.ofNat 256 v = (BitVec.ofNat 64 v).setWidth 256 := by
    apply BitVec.eq_of_toNat_eq
    rw [BitVec.toNat_setWidth, BitVec.toNat_ofNat, BitVec.toNat_ofNat]
    omega
  show putReg { t with eccRegs := t.eccRegs.filter (· != r) } r (BitVec.ofNat 256 v) 0 = putReg t r _ 0
  rw [noEcc, wide, List.filter_nil, ← noEcc]

/-- An instruction without a latch, each thread of which writes its destination. -/
theorem laneOp_writeDst {i : Instr} {s : State} {o : Ops} {needs : List (Src × Need)} {body : State → State → Nat → LaneRes}
    (v : Nat → Nat) (he : exec i s = laneOp o needs body s) (hs : Ready s) (hr : Readable s o needs) (small : ∀ j, v j < 2 ^ 64)
    (hbody : ∀ s' j, j ∈ gathering s → s' = { s with threads := s'.threads } → thr s' j = thr s j →
      guardTrue (thr s j) o.gd = true → body s s' j = .done (writeDst s' j o.d (v j))) :
    Completes i s o.gd fun j t => putG t o.d (v j) := by
  cases dest : o.d with
  | latchOnly =>
    refine (laneOp_straight he hs hr (atTurns_still s o.gd)
      fun st j inside active same _ still => ⟨.inl ?_, Straight.refl ..⟩).completes
    rw [hbody st j inside (by rw [still]) same active, dest]
    rfl
  | reg r =>
    refine completes_of _ he (laneOp_completes s o needs body (fun j => regOn r (v j)) hs hr ?_ fun j inside => ?_)
      fun j inside _ => regOn_eq_putG r (small j) (hs.clear j inside).noEcc.1
    · intro s' j inside frame same active
      rw [hbody s' j inside frame same active, dest, writeDst_reg]
    · obtain ⟨_, _, _, written⟩ :=
        putReg_regs { thr s j with eccRegs := (thr s j).eccRegs.filter (· != r) } r (BitVec.ofNat 256 (v j)) 0
      have clear := hs.clear j inside
      rw [regOn, written]
      exact ⟨clear.runs.1, clear.runs.2.1, clear.noPend, rfl, rfl⟩

/-! ### DEPSET and DEPQ (R350, R351) -/

/-- A task reference of 14 bits: its quad and its number there. -/
theorem taskRef {a : Nat} (small : a < 2 ^ 14) : bits a 13 8 = a / 2 ^ 8 := by
  unfold bits
  omega

/-- The set that a DEPSET sends (R350). -/
def depsetPart (s : State) (o : Ops) (st : State) (j : Nat) : State :=
  modQuad st (srcN (thr s j) o.a / 2 ^ 8) fun q =>
    { q with msgs := q.msgs ++ [.set (srcN (thr s j) o.a % 2 ^ 8) ((srcWord (thr s j) o.b).setWidth 16) j] }

/-- The suspension until it is applied (R249 code 63). -/
def depsetWait : Wait := { code := 63, a := 0, b := 0, dst := .latchOnly, var := holdDepset }

theorem depset_runs {s : State} {o : Ops} (m : M7) (hs : Ready s) (hr : Readable s o [(o.a, .word), (o.b, .word)])
    (noTx : ∀ j ∈ gathering s, guardTrue (thr s j) o.gd = true → txOf s j = none)
    (small : ∀ j ∈ gathering s, guardTrue (thr s j) o.gd = true → srcN (thr s j) o.a < 2 ^ 14 ∧ srcN (thr s j) o.b < 2 ^ 16 ∧
      (releases m.ord = true → Quiet s j)) :
    Runs (.depset o m) s o.gd (depsetPart s o) fun _ => .wait depsetWait := by
  have sameWgs : AtTurns s o.gd (depsetPart s o) fun st _ => st.wgs = s.wgs := fun before _ _ _ _ =>
    turns_keeps (Q := fun st => st.wgs = s.wgs) (part := depsetPart s o) rfl (fun _ _ same => same) before
  refine laneOp_parts (show exec (.depset o m) s = execDepset o m s from rfl) hs hr sameWgs (fun _ => nofun)
    fun st j inside active same _ wgs => ?_
  obtain ⟨ref, value, quiet⟩ := small j inside active
  have straight : Straight st (depsetPart s o st j) j := Straight.of_threads rfl rfl
  refine ⟨?_, straight.toSteady, .inr straight⟩
  have fits : (decide (2 ^ 14 ≤ srcN (thr s j) o.a) || decide (2 ^ 16 ≤ srcN (thr s j) o.b)) = false := by
    rw [decide_eq_false (Nat.not_le.mpr ref), decide_eq_false (Nat.not_le.mpr value)]
    rfl
  have low : BitVec.ofNat 16 (srcN (thr s j) o.b) = (srcWord (thr s j) o.b).setWidth 16 := BitVec.ofNat_toNat ..
  have outside : txOf st j = none := (txOf_of_wgs wgs j).trans (noTx j inside active)
  dsimp only
  rw [same, outsideTx_of_none outside, fits, if_neg Bool.false_ne_true, releaseWaits_of_quiet quiet, if_neg Bool.false_ne_true,
    taskRef ref, low]
  exact ⟨rfl, rfl⟩

theorem depq_completes {s : State} {o : Ops} (m : M7) (hs : Ready s) (hr : Readable s o [(o.a, .word)])
    (noTx : ∀ j ∈ gathering s, guardTrue (thr s j) o.gd = true → txOf s j = none)
    (small : ∀ j ∈ gathering s, guardTrue (thr s j) o.gd = true → srcN (thr s j) o.a < 2 ^ 14) :
    Completes (.depq o m) s o.gd fun j t =>
      let k := tgetD (quadOf s (srcN (thr s j) o.a / 2 ^ 8)).tasks (srcN (thr s j) o.a % 2 ^ 8) Task.reset
      putG t o.d (k.count.toNat + if k.under then 2 ^ 16 else 0) := by
  refine laneOp_writeDst _ (show exec (.depq o m) s = execDepq o m s from rfl) hs hr (fun j => ?_)
    fun s' j inside frame same active => ?_
  · have count := (tgetD (quadOf s (srcN (thr s j) o.a / 2 ^ 8)).tasks (srcN (thr s j) o.a % 2 ^ 8) Task.reset).count.isLt
    split <;> omega
  · have ref := small j inside active
    have outside : txOf s' j = none := by
      rw [frame]
      exact noTx j inside active
    have quads : quadOf s' = quadOf s := by
      rw [frame]
      rfl
    dsimp only
    rw [same, outsideTx_of_none outside, if_neg (Nat.not_le.mpr ref), taskOf, taskRef ref, quads]
    rfl

/-! ### ACCQ (R352) -/

theorem accq_runs {s : State} {o : Ops} (m : M7) {after : State → Nat → State} {loc : Nat → Nat} (hs : Ready s)
    (hr : Readable s o [(o.a, .word)])
    (reach : AtTurns s o.gd
      (fun st j => writeDst (after st j) j o.d (leNat (loadBytes (after st j) (loc j) 8) % 2 ^ 48)) fun st j =>
        (if o.a = .reg (.g 0) then Reaches st j .carrel ((thr s j).cqhdr.toNat * 64 + 16) 8 .rd (loc j) (after st j)
         else srcN (thr s j) o.a % 64 = 0 ∧ Reaches st j .global (srcN (thr s j) o.a + 16) 8 .rd (loc j) (after st j)) ∧
        poisoned (after st j) (loc j) 8 = false) :
    Runs (.accq o m) s o.gd (fun st j => writeDst (after st j) j o.d (leNat (loadBytes (after st j) (loc j) 8) % 2 ^ 48))
      fun _ => .next := by
  refine laneOp_straight (show exec (.accq o m) s = execAccq o m s from rfl) hs hr reach
    fun st j _ _ same _ ⟨reaches, clean⟩ => ?_
  by_cases own : o.a = .reg (.g 0)
  · rw [if_pos own] at reaches
    refine ⟨.inl ?_, (reaches.straight j).trans (Straight.writeDst ..)⟩
    have read := reaches.peek clean s
    have noTx : txOf st j = none := reaches.noTx
    simp only [own, copyHeader, limAcc, same, outsideTx_of_none noTx, read, beq_self_eq_true, Bool.not_true, Bool.false_and,
      Bool.false_eq_true, if_false, if_true]
  · rw [if_neg own] at reaches
    obtain ⟨aligned, reaches⟩ := reaches
    refine ⟨.inl ?_, (reaches.straight j).trans (Straight.writeDst ..)⟩
    have read := reaches.peek clean s
    have noTx : txOf st j = none := reaches.noTx
    simp only [beq_eq_false_iff_ne.mpr own, limAcc, same, outsideTx_of_none noTx, read, aligned, bne_self_eq_false, Bool.and_false,
      Bool.false_eq_true, if_false]

end Sys2Proof.Machine
end

section
/-! Reaping (R361, R498): the words that a reaper's test reads, and what they decide. -/

namespace Sys2Proof.Machine

/-! ### Runs of doublewords -/

/-- The value of doublewords, the first least significant. -/
def joined (w : Nat → Nat) (n : Nat) : Nat := ((List.range n).map fun e => w e * 2 ^ (64 * e)).sum

theorem joined_succ (w : Nat → Nat) (n : Nat) : joined w (n + 1) = joined w n + w n * 2 ^ (64 * n) := by
  simp [joined, List.range_succ]

theorem joined_one (w : Nat → Nat) : joined w 1 = w 0 := by simp [joined]

theorem joined_add (w : Nat → Nat) (k n : Nat) : joined w (k + n) = joined w k + 2 ^ (64 * k) * joined (fun e => w (k + e)) n := by
  induction n with
  | zero => simp [joined]
  | succ n ih =>
    rw [← Nat.add_assoc, joined_succ, joined_succ, ih, Nat.mul_add 64, Nat.pow_add]
    ring

theorem joined_lt {w : Nat → Nat} {n : Nat} (small : ∀ e < n, w e < 2 ^ 64) : joined w n < 2 ^ (64 * n) := by
  induction n with
  | zero => simp [joined]
  | succ n ih =>
    have low := ih fun e less => small e (Nat.lt_succ_of_lt less)
    rw [joined_succ, Nat.mul_succ, Nat.pow_add]
    have top := Nat.mul_le_mul_right (2 ^ (64 * n)) (small n n.lt_succ_self)
    rw [Nat.succ_mul, Nat.mul_comm (2 ^ 64)] at top
    omega

theorem joined_div {w : Nat → Nat} {k n : Nat} (small : ∀ e < k, w e < 2 ^ 64) :
    joined w (k + n) / 2 ^ (64 * k) = joined (fun e => w (k + e)) n := by
  rw [joined_add, Nat.add_mul_div_left _ _ (Nat.two_pow_pos _), Nat.div_eq_of_lt (joined_lt small), Nat.zero_add]

theorem joined_mod {w : Nat → Nat} {n : Nat} (small : w 0 < 2 ^ 64) : joined w (n + 1) % 2 ^ 64 = w 0 := by
  rw [Nat.add_comm, joined_add, joined_one, Nat.mul_one, Nat.add_mul_mod_self_left, Nat.mod_eq_of_lt small]

theorem leNat_lt (bs : List Byte) : leNat bs < 2 ^ (8 * bs.length) := by
  induction bs with
  | nil => simp [leNat]
  | cons b rest ih =>
    have byte := b.isLt
    rw [leNat, List.length_cons, Nat.mul_succ, Nat.pow_add]
    omega

theorem length_loadBytes (s : State) (l n : Nat) : (loadBytes s l n).length = n := by
  unfold loadBytes
  split <;> simp [readBytes, Memory.getList]

/-- Reads of `n` doublewords, one after the other, of a thread: each reaches its cells, in the state that those before it leave,
and finds the word that is given. -/
def ReadsWords (i : Nat) (addr loc w : Nat → Nat) (at_ : Nat → State) (n : Nat) : Prop :=
  ∀ e < n, Reaches (at_ e) i .global (addr e) 8 .rd (loc e) (at_ (e + 1)) ∧ poisoned (at_ (e + 1)) (loc e) 8 = false ∧
    leNat (loadBytes (at_ (e + 1)) (loc e) 8) = w e

section
variable {i : Nat} {addr loc w : Nat → Nat} {at_ : Nat → State} {n : Nat}

theorem ReadsWords.mono {k : Nat} (h : ReadsWords i addr loc w at_ n) (fewer : k ≤ n) : ReadsWords i addr loc w at_ k :=
  fun e less => h e (less.trans_le fewer)

theorem ReadsWords.drop {k : Nat} (h : ReadsWords i addr loc w at_ (k + n)) :
    ReadsWords i (fun e => addr (k + e)) (fun e => loc (k + e)) (fun e => w (k + e)) (fun e => at_ (k + e)) n :=
  fun e less => h (k + e) (Nat.add_lt_add_left less k)

theorem ReadsWords.peek (h : ReadsWords i addr loc w at_ n) {e : Nat} (less : e < n) (s0 : State) :
    Machine.peek s0 (at_ e) i .global (addr e) 8 = .ok (at_ (e + 1)) (w e) := by
  obtain ⟨reaches, clean, value⟩ := h e less
  rw [reaches.peek clean, value]

theorem ReadsWords.word_lt (h : ReadsWords i addr loc w at_ n) {e : Nat} (less : e < n) : w e < 2 ^ 64 := by
  obtain ⟨-, -, value⟩ := h e less
  have small := leNat_lt (loadBytes (at_ (e + 1)) (loc e) 8)
  rwa [value, length_loadBytes] at small

theorem ReadsWords.straight (h : ReadsWords i addr loc w at_ n) : Straight (at_ 0) (at_ n) i := by
  induction n with
  | zero => exact Straight.refl ..
  | succ n ih => exact (ih (h.mono n.le_succ)).trans ((h n n.lt_succ_self).1.straight i)

/-- A run of doublewords read as one value. -/
theorem ReadsWords.peekWords {ea : Nat} (h : ReadsWords i addr loc w at_ n) (run : ∀ e < n, addr e = (ea + 8 * e) % 2 ^ 64)
    (s0 : State) : Machine.peekWords s0 (at_ 0) i .global ea n = .ok (at_ n) (joined w n) := by
  induction n with
  | zero => rfl
  | succ n ih =>
    have before := ih (h.mono n.le_succ) fun e less => run e (Nat.lt_succ_of_lt less)
    have last := h.peek n.lt_succ_self s0
    rw [run n n.lt_succ_self] at last
    unfold Machine.peekWords at before ⊢
    rw [List.range_succ, List.foldl_append, before, List.foldl_cons, List.foldl_nil, joined_succ]
    simp only [last]

end

/-! ### Ring headers and records (R361, R498) -/

/-- BASE and LOGN of a header that is read as one value (R29). -/
def headerBase (h : Nat) : Nat := bits h (64 * 4 - 1) (64 * 3)
def headerLogn (h : Nat) : Nat := bits h (64 * 4 + 4) (64 * 4)

/-- What a header's five doublewords hold: PUB, BASE and LOGN. -/
theorem header_fields {w : Nat → Nat} (small : ∀ e < 5, w e < 2 ^ 64) :
    joined w 5 % 2 ^ 48 = w 0 % 2 ^ 48 ∧ headerBase (joined w 5) = w 3 ∧ headerLogn (joined w 5) = w 4 % 2 ^ 5 := by
  refine ⟨?_, ?_, ?_⟩
  · rw [← Nat.mod_mod_of_dvd (joined w 5) (show 2 ^ 48 ∣ 2 ^ 64 by decide), joined_mod (small 0 (by decide))]
  · show joined w (3 + 2) / 2 ^ (64 * 3) % 2 ^ 64 = w 3
    rw [joined_div fun e less => small e (by omega), joined_mod (small 3 (by decide))]
  · show joined w (4 + 1) / 2 ^ (64 * 4) % 2 ^ 5 = w 4 % 2 ^ 5
    rw [joined_div fun e less => small e (by omega), joined_one]

theorem sub48_of_lt {b : Nat} (a : Nat) (small : b < 2 ^ 48) : sub48 a b = (a + 2 ^ 48 - b) % 2 ^ 48 := by
  rw [sub48, Nat.mod_eq_of_lt small]

/-- The slot of an entry, as counts wrap at 2^48 (R29). -/
theorem slotIndex_wrapped (k : Nat) {n : Nat} (small : n ≤ 48) : slotIndex k n = (k + 2 ^ 48 - 1) % 2 ^ 48 % 2 ^ n :=
  (Nat.mod_mod_of_dvd _ (Nat.pow_dvd_pow 2 small)).symm

/-- The address of the record that a reaper of entry `k` reads, by its ring's header (R361). -/
def recordAt (h k size : Nat) : Nat := headerBase h + 64 * 2 ^ headerLogn h + size * slotIndex k (headerLogn h)

section
variable {s s1 s2 s3 : State} {i hdr k size h e v : Nat} {d : Dst}

theorem reapTest_written (header : peekWords s s i .global hdr 5 = .ok s1 h)
    (inWindow : sub48 (h % 2 ^ 48) k < 2 ^ headerLogn h)
    (last : peek s s1 i .global ((recordAt h k size + size - 8) % 2 ^ 64) 8 = .ok s2 e) (written : sub48 (e % 2 ^ 48) k = 0)
    (record : peekWords s s2 i .global (recordAt h k size % 2 ^ 64) (size / 8) = .ok s3 v) :
    reapTest s i hdr k 64 size d true = .done (writeDst s3 i d v) := by
  unfold recordAt headerBase at last record
  unfold headerLogn at inWindow last record
  simp only [reapTest, header, Bool.true_and, decide_eq_false (Nat.not_le.mpr inWindow), Bool.false_eq_true, if_false, last, written,
    beq_self_eq_true, if_true, record]

theorem reapTest_unwritten (header : peekWords s s i .global hdr 5 = .ok s1 h)
    (inWindow : sub48 (h % 2 ^ 48) k < 2 ^ headerLogn h)
    (last : peek s s1 i .global ((recordAt h k size + size - 8) % 2 ^ 64) 8 = .ok s2 e)
    (unwritten : 2 ^ 47 ≤ sub48 (e % 2 ^ 48) k) : reapTest s i hdr k 64 size d true = .no s2 := by
  have other : (sub48 (e % 2 ^ 48) k == 0) = false :=
    beq_eq_false_iff_ne.mpr (Nat.ne_of_gt (Nat.lt_of_lt_of_le (by decide) unwritten))
  unfold recordAt headerBase at last
  unfold headerLogn at inWindow last
  simp only [reapTest, header, Bool.true_and, decide_eq_false (Nat.not_le.mpr inWindow), Bool.false_eq_true, if_false, last, other,
    if_neg (Nat.not_lt.mpr unwritten)]

end

/-- The record's address by the words of the header. -/
def recordOf (w : Nat → Nat) (k size : Nat) : Nat :=
  w 3 + 64 * 2 ^ (w 4 % 2 ^ 5) + size * ((k + 2 ^ 48 - 1) % 2 ^ 48 % 2 ^ (w 4 % 2 ^ 5))

/-- Where a reaper's words lie: five of the header, the record's last, then the record. -/
def reapAddr (hdr k size : Nat) (w : Nat → Nat) (e : Nat) : Nat :=
  if e < 5 then hdr + 8 * e
  else if e = 5 then (recordOf w k size + size - 8) % 2 ^ 64
  else (recordOf w k size % 2 ^ 64 + 8 * (e - 6)) % 2 ^ 64

section
variable {i hdr k size n : Nat} {loc w : Nat → Nat} {at_ : Nat → State}

theorem recordAt_joined (reads : ReadsWords i (reapAddr hdr k size w) loc w at_ 6) :
    recordAt (joined w 5) k size = recordOf w k size := by
  obtain ⟨-, base, logn⟩ := header_fields fun e less => reads.word_lt (less.trans (by decide))
  have short : w 4 % 2 ^ 5 ≤ 48 := by omega
  rw [recordAt, recordOf, base, logn, slotIndex_wrapped k short]

/-- What the first six reads of a reaper find: its header, whose ring has the entry, and the last word of its record. -/
theorem reads_header (reads : ReadsWords i (reapAddr hdr k size w) loc w at_ 6) (word : hdr < 2 ^ 64) (aligned : hdr % 64 = 0)
    (number : k < 2 ^ 48) (inWindow : (w 0 % 2 ^ 48 + 2 ^ 48 - k) % 2 ^ 48 < 2 ^ (w 4 % 2 ^ 5)) :
    peekWords (at_ 0) (at_ 0) i .global hdr 5 = .ok (at_ 5) (joined w 5) ∧
    sub48 (joined w 5 % 2 ^ 48) k < 2 ^ headerLogn (joined w 5) ∧
    peek (at_ 0) (at_ 5) i .global ((recordAt (joined w 5) k size + size - 8) % 2 ^ 64) 8 = .ok (at_ 6) (w 5) := by
  obtain ⟨pub, -, logn⟩ := header_fields fun e less => reads.word_lt (less.trans (by decide))
  refine ⟨(reads.mono (by decide)).peekWords (fun e less => ?_) _, ?_, ?_⟩
  · rw [reapAddr, if_pos less]
    omega
  · rwa [pub, logn, sub48_of_lt _ number]
  · rw [recordAt_joined reads]
    have last := reads.peek (e := 5) (by decide) (at_ 0)
    rwa [reapAddr, if_neg (by decide), if_pos rfl] at last

/-- A reaper finds its record written. -/
theorem reapTest_reads_written (d : Dst) (reads : ReadsWords i (reapAddr hdr k size w) loc w at_ (6 + size / 8))
    (word : hdr < 2 ^ 64) (aligned : hdr % 64 = 0) (number : k < 2 ^ 48)
    (inWindow : (w 0 % 2 ^ 48 + 2 ^ 48 - k) % 2 ^ 48 < 2 ^ (w 4 % 2 ^ 5)) (written : w 5 % 2 ^ 48 = k) :
    reapTest (at_ 0) i hdr k 64 size d true =
      .done (writeDst (at_ (6 + size / 8)) i d (joined (fun e => w (6 + e)) (size / 8))) := by
  have six := reads.mono (Nat.le_add_right 6 _)
  obtain ⟨header, inWindow, last⟩ := reads_header six word aligned number inWindow
  refine reapTest_written header inWindow last ?_ (reads.drop.peekWords (fun e _ => ?_) _)
  · rw [written, sub48_of_lt _ number]
    omega
  · rw [reapAddr, if_neg (by omega), if_neg (by omega), Nat.add_sub_cancel_left, recordAt_joined six]

/-- A reaper finds its record unwritten. -/
theorem reapTest_reads_unwritten (d : Dst) (reads : ReadsWords i (reapAddr hdr k size w) loc w at_ 6) (word : hdr < 2 ^ 64)
    (aligned : hdr % 64 = 0) (number : k < 2 ^ 48) (inWindow : (w 0 % 2 ^ 48 + 2 ^ 48 - k) % 2 ^ 48 < 2 ^ (w 4 % 2 ^ 5))
    (unwritten : 2 ^ 47 ≤ (w 5 % 2 ^ 48 + 2 ^ 48 - k) % 2 ^ 48) :
    reapTest (at_ 0) i hdr k 64 size d true = .no (at_ 6) := by
  obtain ⟨header, inWindow, last⟩ := reads_header reads word aligned number inWindow
  exact reapTest_unwritten header inWindow last (by rwa [sub48_of_lt _ number])

end

/-! ### NVREAP and AXREAP (R361, R498) -/

/-- The suspension of a reaper. -/
def reapWait (code : Nat) (a b : Word) (d : Dst) : Wait := { code, a, b, dst := d, var := 0 }

/-- A reaper outside transactions whose operands pass their checks: its test at issue decides (R198). -/
theorem reap_waitOn {s : State} {i hdr k code size : Nat} {d : Dst} (b : Word) (noTx : txOf s i = none) (aligned : hdr % 64 = 0)
    (number : k < 2 ^ 48) :
    outsideTx s i (reap s i code hdr k b 64 size d) =
      waitOn (reapWait code (BitVec.ofNat 64 hdr) b d) (reapTest s i hdr k 64 size d true) := by
  have noTrap : (hdr % 64 != 0) = false := by rw [aligned, bne_self_eq_false]
  rw [outsideTx_of_none noTx, reap, noTrap, if_neg Bool.false_ne_true, if_neg (Nat.not_le.mpr number)]
  rfl

/-- What NVREAP and AXREAP do for one thread, which keeps the number of its entry as `b` while it waits. -/
def reapBody (o : Ops) (code size : Nat) (b : Thread → Word) (_s st : State) (j : Nat) : LaneRes :=
  outsideTx st j (reap st j code (srcN (thr st j) o.a) (srcN (thr st j) o.b) (b (thr st j)) 64 size o.d)

theorem exec_nvreapReq (o : Ops) (m : M7) (s : State) : exec (.nvreapReq o m) s =
    laneOp o [(o.a, .word), (o.b, .word)] (reapBody o 5 16 fun t => srcWord t o.b) s := rfl

theorem exec_nvreapCard (o : Ops) (m : M7) (s : State) : exec (.nvreapCard o m) s =
    laneOp o [(o.a, .word), (o.b, .word)] (reapBody o 5 32 fun t => srcWord t o.b ||| 0x8000000000000000) s := rfl

theorem exec_axreap (o : Ops) (m : M7) (s : State) : exec (.axreap o m) s =
    laneOp o [(o.a, .word), (o.b, .word)] (reapBody o 6 16 fun t => srcWord t o.b) s := rfl

/-- What a reaper needs of its operands and of its ring's header: the entry is one of the last that the ring holds. -/
def Reapable (hdr k : Nat) (w : Nat → Nat) : Prop :=
  hdr % 64 = 0 ∧ k < 2 ^ 48 ∧ (w 0 % 2 ^ 48 + 2 ^ 48 - k) % 2 ^ 48 < 2 ^ (w 4 % 2 ^ 5)

/-- The reads of the thread `j` that reaps a record of `size` bytes. -/
def ReapReads (s : State) (o : Ops) (size : Nat) (at_ : State → Nat → Nat → State) (loc w : Nat → Nat → Nat) (n : Nat)
    (st : State) (j : Nat) : Prop :=
  at_ st j 0 = st ∧
    ReadsWords j (reapAddr (srcN (thr s j) o.a) (srcN (thr s j) o.b) size (w j)) (loc j) (w j) (at_ st j) n

section
variable {i : Instr} {s : State} {o : Ops} {code size : Nat} {b : Thread → Word} {at_ : State → Nat → Nat → State}
  {loc w : Nat → Nat → Nat}

theorem ReapReads.noTx {n : Nat} {st : State} {j : Nat} (h : ReapReads s o size at_ loc w n st j) (reading : 0 < n) :
    txOf st j = none := by
  obtain ⟨start, reads⟩ := h
  rw [← start]
  exact (reads 0 reading).1.noTx

theorem ReapReads.straight {n : Nat} {st : State} {j : Nat} (h : ReapReads s o size at_ loc w n st j) :
    Straight st (at_ st j n) j := by
  obtain ⟨start, reads⟩ := h
  have straight := reads.straight
  rwa [start] at straight

/-- Reapers whose records are written take them (R361). -/
theorem reap_runs_written (he : exec i s = laneOp o [(o.a, .word), (o.b, .word)] (reapBody o code size b) s)
    (hs : Ready s) (hr : Readable s o [(o.a, .word), (o.b, .word)])
    (written : AtTurns s o.gd
      (fun st j => writeDst (at_ st j (6 + size / 8)) j o.d (joined (fun e => w j (6 + e)) (size / 8))) fun st j =>
        Reapable (srcN (thr s j) o.a) (srcN (thr s j) o.b) (w j) ∧ ReapReads s o size at_ loc w (6 + size / 8) st j ∧
          w j 5 % 2 ^ 48 = srcN (thr s j) o.b) :
    Runs i s o.gd (fun st j => writeDst (at_ st j (6 + size / 8)) j o.d (joined (fun e => w j (6 + e)) (size / 8)))
      fun _ => .next := by
  refine laneOp_straight he hs hr written fun st j _ _ same _ ⟨⟨aligned, number, inWindow⟩, reads, found⟩ =>
    ⟨.inl ?_, reads.straight.trans (Straight.writeDst ..)⟩
  have test := reapTest_reads_written o.d reads.2 (srcWord (thr s j) o.a).isLt aligned number inWindow found
  rw [reads.1] at test
  rw [reapBody, same, reap_waitOn _ (reads.noTx (by omega)) aligned number, test, waitOn]

/-- Reapers whose records are not written suspend (R361). -/
theorem reap_runs_unwritten (he : exec i s = laneOp o [(o.a, .word), (o.b, .word)] (reapBody o code size b) s)
    (hs : Ready s) (hr : Readable s o [(o.a, .word), (o.b, .word)])
    (unwritten : AtTurns s o.gd (fun st j => at_ st j 6) fun st j =>
        Reapable (srcN (thr s j) o.a) (srcN (thr s j) o.b) (w j) ∧ ReapReads s o size at_ loc w 6 st j ∧
          2 ^ 47 ≤ (w j 5 % 2 ^ 48 + 2 ^ 48 - srcN (thr s j) o.b) % 2 ^ 48) :
    Runs i s o.gd (fun st j => at_ st j 6) fun j => .wait (reapWait code (srcWord (thr s j) o.a) (b (thr s j)) o.d) := by
  refine laneOp_parts he hs hr unwritten (fun _ => nofun) fun st j _ _ same _ ⟨⟨aligned, number, inWindow⟩, reads, missing⟩ =>
    ⟨?_, reads.straight.toSteady, .inr reads.straight⟩
  have test := reapTest_reads_unwritten o.d reads.2 (srcWord (thr s j) o.a).isLt aligned number inWindow missing
  have word : BitVec.ofNat 64 (srcN (thr s j) o.a) = srcWord (thr s j) o.a := by
    rw [srcN, BitVec.ofNat_toNat, BitVec.setWidth_eq]
  rw [reads.1] at test
  rw [reapBody, same, reap_waitOn _ (reads.noTx (by decide)) aligned number, test, waitOn, word]
  exact ⟨rfl, rfl⟩

end

end Sys2Proof.Machine

namespace Sys2Proof

open Sys2Proof.Machine

/-- Settles O42: DEPSET, DEPQ and ACCQ by what one thread does at its turn, a reaper by the words that its test reads. -/
theorem tasksAndReaping : Obligations.TasksAndReaping := by
  unfold Obligations.TasksAndReaping
  dsimp only
  refine ⟨fun s o m hs noTx => ⟨fun hr small => depset_runs m hs hr noTx small,
      fun hr => ⟨fun small => depq_completes m hs hr noTx small, fun after loc reach => accq_runs m hs hr reach⟩⟩,
    fun s o m at_ loc w hs hr _ =>
      ⟨⟨reap_runs_written (exec_nvreapReq o m s) hs hr, reap_runs_unwritten (exec_nvreapReq o m s) hs hr⟩,
        ⟨reap_runs_written (exec_nvreapCard o m s) hs hr, reap_runs_unwritten (exec_nvreapCard o m s) hs hr⟩,
        ⟨reap_runs_written (exec_axreap o m s) hs hr, reap_runs_unwritten (exec_axreap o m s) hs hr⟩⟩⟩

end Sys2Proof
end

section
/-! MSLIP and the register budget (R138, R310): the class 0x6 check of a role without g registers, which refused CATQ, refuses a
slip as well. -/

namespace Sys2Proof.Machine

/-- The state of `withoutG` with an empty call chain of 16 slots: its header at carrel byte 0x1000 is zero but for LOGN, and v1 of
the thread names it as an rcarrel address (R310). -/
def chainWithoutG : State :=
  { withoutG with
    threads := [(0, { thr withoutG 0 with v := [(1, ⟨0x8000000000001000, 0⟩)] })]
    mem := [(carrelLoc 0 0x1020, 4)] }

/-- Operand fields without a g register: the slip in v0, the header's address in v1, and no register for the accession number. -/
def slipFields : Ops := ⟨⟨0, 0, true⟩, .latchOnly, .reg (.v 0), .reg (.v 1), .reg (.v 0)⟩

theorem ready_chainWithoutG : Ready chainWithoutG where
  alone := rfl
  fresh := ⟨rfl, rfl⟩
  group := rfl
  some := List.cons_ne_nil _ _
  once := List.nodup_singleton 0
  clear := List.forall_mem_singleton.mpr ⟨⟨rfl, rfl, rfl⟩, rfl, rfl, ⟨rfl, rfl⟩, nofun⟩

theorem readable_chainWithoutG :
    Readable chainWithoutG slipFields [(slipFields.a, .raw), (slipFields.b, .word)] :=
  List.forall_mem_singleton.mpr ⟨by decide, fun _ => rfl⟩

theorem vectored_chainWithoutG : Vectored chainWithoutG 0 := by
  unfold Vectored
  decide

/-- The checks of a publication of one slip to the chain pass, and the chain has no entry. -/
theorem ringCheck_chainWithoutG : ringCheck chainWithoutG 0 .rcarrel 0x1000 32 8 1 false =
    .ok chainWithoutG (Place.plain (carrelLoc 0 0x1000)) ⟨0, 0, 0, 4⟩ := rfl

/-- No quad serves the chain. -/
theorem unserved_chainWithoutG (v : State) (q : Place) (found : laneCheck chainWithoutG 0 .rcarrel 0x1000 64 .rd false = .ok (v, q)) :
    chainElsewhere v 0 (headLoc q) = false := by
  cases found
  rfl

theorem mslip_traps_of_noG {s : State} {o : Ops} {i : Nat} (m : M6) (hs : Ready s) (inside : i ∈ gathering s)
    (noG : beyondBudget (wgOf s (tidWg i)) (tidQuire i) (.g 0) = true) :
    exec (.mslip o m) s = trapAll s (decodeTrap cIllegalField) := by
  show execMslip o m s = _
  unfold execMslip
  exact matrixLane_traps_of_noG hs inside noG

end Sys2Proof.Machine

namespace Sys2Proof

open Sys2Proof.Machine

/-- Refutes O41, in the clause of MSLIP: the operand fields of `slipFields` name no g register, so they pass the check of R138 in
a workgroup without any, and the chain of `chainWithoutG` has room; yet the instruction traps ILLEGAL_FIELD at decode, where the
statement has it publish. The statement asks neither that a budget hold g0, as each that R122 grants does, nor that the fields be
those of a well-formed instruction, whose C is g0. -/
theorem not_publishing : ¬ Obligations.Publishing := by
  unfold Obligations.Publishing
  rintro ⟨-, slips⟩
  obtain ⟨u, publishes, passed⟩ := slips chainWithoutG slipFields ⟨.none, .none, false, 0⟩ ⟨0, 0, 0, 4⟩ chainWithoutG
    (Place.plain (carrelLoc 0 0x1000)) ready_chainWithoutG readable_chainWithoutG (List.forall_mem_singleton.mpr rfl)
    ⟨rfl, rfl⟩ (fun _ => rfl) unserved_chainWithoutG ringCheck_chainWithoutG rfl rfl (by decide)
  have traps := mslip_traps_of_noG (o := slipFields) ⟨.none, .none, false, 0⟩ ready_chainWithoutG (List.mem_singleton_self 0) rfl
  obtain ⟨v, refused, handled, -⟩ := trapAll_traps traps ready_chainWithoutG (List.forall_mem_singleton.mpr vectored_chainWithoutG)
    ⟨rfl, rfl⟩
  obtain rfl : u = v := Host.Outcome.next.inj (publishes.symm.trans refused)
  obtain ⟨cause, addr, inHandler, -⟩ := handled 0 (List.mem_singleton_self 0) rfl
  -- the trap has put the thread into its handler; a publication leaves it outside
  have handler : true = false := congrArg Thread.hmode (inHandler.symm.trans (passed.threads 0))
  exact Bool.false_ne_true handler.symm

end Sys2Proof
end

section
/-! The state right after reset, and the vendor tables (R414, R424 to R428, R444, R461, R523): closed facts of the model's tables. -/

namespace Sys2Proof

open Sys2Proof.Machine

/-- Only range 0 has a descriptor at reset. -/
theorem rangeDesc_reset (n : Nat) : rangeDesc State.reset n = if n = 0 then 0x80 else 0 := by
  cases n with
  | zero => rfl
  | succ n => simp [rangeDesc, State.reset, tgetD, tget]

/-- Settles O5: every table is empty at reset, so that each unit reads as its own reset value. -/
theorem resetState : Obligations.ResetState := by
  unfold Obligations.ResetState
  refine ⟨⟨rfl, rfl, rfl⟩, fun _ => ⟨rfl, rfl, rfl, rfl, rfl, rfl, rfl⟩, fun n => ?_, rfl, rfl, fun _ => ⟨rfl, rfl, rfl, rfl⟩,
    rfl, rfl, rfl, rfl, rfl, rfl, fun _ => rfl⟩
  rw [rangeValid, rangeDesc_reset]
  by_cases zero : n = 0 <;> simp [zero, bit]

/-- Each vendor table passes the checks of one image. -/
theorem verify_vendorTable : ∀ slot < 5, verify (vendorTable slot) true = none := by decide +kernel

/-- Settles O53, by evaluation of the tables. -/
theorem vendorTables : Obligations.VendorTables := by
  unfold Obligations.VendorTables
  exact ⟨by decide +kernel, by decide +kernel, by decide +kernel, by decide +kernel, verify_vendorTable⟩

end Sys2Proof
end

section
/-! Events at the one holder of a line (R417 to R419): the messages of the entry reach nobody, and the holder's state moves. -/

namespace Sys2Proof.Machine

/-- In a table whose keys rise, a removed key has no entry. -/
theorem tget_tdel_self {α : Type} {m : FMap α} (rising : m.Pairwise fun a b => a.1 < b.1) (k : Nat) : tget (tdel m k) k = none := by
  have absent : ∀ rest : FMap α, (∀ e ∈ rest, k ≠ e.1) → tget rest k = none := by
    intro rest
    induction rest with
    | nil => intro; rfl
    | cons e rest ih =>
      intro other
      have here := other e (List.mem_cons_self ..)
      rw [tget, if_neg (by simpa using here.symm), ih fun x hx => other x (List.mem_cons_of_mem _ hx)]
  induction m with
  | nil => rfl
  | cons e rest ih =>
    obtain ⟨j, b⟩ := e
    obtain ⟨above, rising⟩ := List.pairwise_cons.mp rising
    by_cases same : j = k
    · subst same
      rw [tdel, if_pos (beq_self_eq_true j), absent rest fun x hx => (above x hx).ne]
    · rw [tdel, if_neg (by simpa using same), tget, if_neg (by simpa using same), ih rising]

/-- What a holder's entry of a line becomes; the directory and the filters do not bear on it. -/
theorem setLine_lines (s : State) (holder line range st : Nat) :
    (setLine s holder line range st).coh.lines =
      if st = 0 then tdel s.coh.lines (lineKey holder line) else tset s.coh.lines (lineKey holder line) (range * 8 + st) := by
  have filterLines : ∀ (c : Coherence) (core l : Nat) (held : Bool), (noteFilter c core l held).lines = c.lines := by
    intro c core l held
    unfold noteFilter
    split <;> rfl
  have dropLines : ∀ (c : Coherence) (h l : Nat), (dropSharer c h l).lines = c.lines := by
    intro c h l
    unfold dropSharer
    split
    · rfl
    · split <;> rfl
  have addLines : ∀ (c : Coherence) (h l : Nat), (addSharer c h l).lines = c.lines := by
    intro c h l
    unfold addSharer
    split <;> rfl
  by_cases none : st = 0
  · simp [setLine, modCoh, putLine, none, filterLines, dropLines]
  · simp [setLine, modCoh, putLine, none, filterLines, addLines]

/-- A holder's state after it has been set. -/
theorem lineState_setLine_self {s : State} (rising : s.coh.lines.Pairwise fun a b => a.1 < b.1) (holder line range : Nat)
    {st : Nat} (small : st < 8) : lineState (setLine s holder line range st) holder line = st := by
  unfold lineState
  rw [setLine_lines]
  by_cases invalid : st = 0
  · rw [if_pos invalid, tgetD, tget_tdel_self rising, invalid]
    rfl
  · rw [if_neg invalid, tgetD_tset_self]
    omega

/-- The states of other holders and of other lines stand. -/
theorem lineState_setLine_ne (s : State) {holder line h l : Nat} (range st : Nat) (other : lineKey h l ≠ lineKey holder line) :
    lineState (setLine s holder line range st) h l = lineState s h l := by
  unfold lineState
  rw [setLine_lines]
  by_cases invalid : st = 0
  · rw [if_pos invalid, tgetD, tgetD, tget_tdel_ne _ other.symm]
  · rw [if_neg invalid, tgetD_tset_ne _ _ _ other.symm]

theorem lineState_freeze (s : State) (t : Trans) (line h l : Nat) : lineState (freeze s t line) h l = lineState s h l := by
  unfold freeze
  split <;> rfl

/-- Messages of an entry whose line no other holder holds reach nobody. -/
theorem lineMessages_of_alone {s : State} {self line : Nat} (alone : ∀ h ∈ holdersOf s line, h = self) (range ev : Nat) (t : Trans) :
    lineMessages s (some self) line range ev t = s := by
  have nobody : ((holdersOf s line).filter fun h => some h != some self) = [] :=
    List.filter_eq_nil_iff.mpr fun h hh => by simp [alone h hh]
  unfold lineMessages
  simp [nobody]

theorem entryOf_next_lt (t : Table) (st ev : Nat) : (entryOf t st ev).next < 8 := Nat.mod_lt _ (by decide)

section Alone
variable {s : State} {holder line v : Nat} (held : tget s.coh.lines (lineKey holder line) = some v)
  (rising : s.coh.lines.Pairwise fun a b => a.1 < b.1) (alone : ∀ h ∈ holdersOf s line, h = holder)
include held rising alone

/-- An event at the only holder of a line moves that holder's state, and nothing but the tables of the lines changes. -/
theorem holderEvent_moves (ev : Nat) :
    holderEvent s holder line ev = { s with coh := (holderEvent s holder line ev).coh } ∧
      lineState (holderEvent s holder line ev) holder line = (entryOf (rangeTable s (v / 8)) (v % 8) ev).next ∧
      ∀ h l, lineKey h l ≠ lineKey holder line → lineState (holderEvent s holder line ev) h l = lineState s h l := by
  unfold holderEvent
  simp only [held, lineMessages_of_alone alone, lineState_freeze]
  refine ⟨?_, lineState_setLine_self rising holder line _ (entryOf_next_lt ..), fun h l other => lineState_setLine_ne s _ _ other⟩
  unfold freeze
  split <;> rfl

end Alone

theorem execCoherence_at {holder : Nat} (known : holder < 262) (s : State) (line ev : Nat) :
    atHolder s holder line ev = .next (holderEvent s holder line ev) := if_neg (Nat.not_le.mpr known)

end Sys2Proof.Machine

namespace Sys2Proof

open Sys2Proof.Machine

/-- Settles O52: each of the six is one event at the holder; a request of the host in flight puts a back-invalidation off. -/
theorem coherenceEvents : Obligations.CoherenceEvents := by
  unfold Obligations.CoherenceEvents
  intro s holder line v known held rising alone
  have moves := holderEvent_moves held rising alone
  have steps := execCoherence_at known s line
  refine ⟨⟨_, steps 2, moves 2⟩, ⟨_, steps 3, moves 3⟩, ⟨_, steps 4, moves 4⟩, ⟨_, steps 5, moves 5⟩,
    ⟨_, steps 6, moves 6⟩, ?_, ?_⟩
  · rintro rfl cxl31
    refine ⟨_, ?_, moves 7⟩
    show execCoherenceBi line false s = _
    simp [execCoherenceBi, cxl31]
  · show execCoherenceBi line true s = _
    simp [execCoherenceBi]

end Sys2Proof
end

section
/-! Bank arithmetic (R365 to R368, R393 to R398): rows that pass the checks, the order of a row, and the four instructions. -/

namespace Sys2Proof.Machine

/-! ### Rows (R365, R398) -/

/-- A row that lies in one bank, aligned, inside the stacks, in no reserved bank, and free of poison where it is read. -/
def GoodRow (s : State) (die : Nat) (ty : Fmt) (r : BankRow) : Prop :=
  r.off % (fmtWidth ty / 8) = 0 ∧ r.off % 0x200000 + r.n * fmtWidth ty / 8 ≤ 0x200000 ∧
    r.off + r.n * fmtWidth ty / 8 ≤ 0x60000000 ∧ reservedCells s (stacksLoc die r.off) (r.n * fmtWidth ty / 8) = false ∧
    (r.read = true → poisoned s (stacksLoc die r.off) (r.n * fmtWidth ty / 8) = false)

theorem bankTrap_of_good {s : State} {die : Nat} {ty : Fmt} {n : Nat} {rows : List BankRow} (least : 1 ≤ n) (most : n ≤ 65536)
    (good : ∀ r ∈ rows, GoodRow s die ty r) : bankTrap s die ty n false rows = none := by
  have none_crosses : rows.any (rowCrosses (fmtWidth ty)) = false := List.any_eq_false.mpr fun r hr => by
    obtain ⟨-, within, -⟩ := good r hr
    simpa [rowCrosses] using within
  have all_aligned : (rows.find? fun r => r.off % (fmtWidth ty / 8) != 0) = none := List.find?_eq_none.mpr fun r hr => by
    simp [(good r hr).1]
  have all_open : (rows.find? fun r => decide (stacksBytes < r.off + r.n * fmtWidth ty / 8) ||
      reservedCells s (stacksLoc die r.off) (r.n * fmtWidth ty / 8)) = none := List.find?_eq_none.mpr fun r hr => by
    obtain ⟨-, -, inside, unreserved, -⟩ := good r hr
    simp [unreserved, Nat.not_lt.mpr (show _ ≤ stacksBytes from inside)]
  have all_clean : (rows.find? fun r => r.read && poisoned s (stacksLoc die r.off) (r.n * fmtWidth ty / 8)) = none :=
    List.find?_eq_none.mpr fun r hr => by
      obtain ⟨-, -, -, -, clean⟩ := good r hr
      cases read : r.read <;> simp [clean, read]
  unfold bankTrap
  simp only [none_crosses, all_aligned, all_open, all_clean, beq_eq_false_iff_ne.mpr (Nat.ne_of_gt least), Nat.not_lt.mpr most,
    Bool.or_self, Bool.false_eq_true, if_false]

/-! ### The instructions (R394, R395, R397) -/

/-- No log area of a transaction lies in the stacks. -/
theorem logsMet_stacks (s : State) (die off n : Nat) : logsMet s (stacksLoc die off) n = [] :=
  if_pos (Bool.or_eq_true_iff.mpr (.inr (decide_eq_true (by unfold stacksLoc; omega))))

theorem Straight.bankWrite (st : State) (i die : Nat) (ty : Fmt) (off : Nat) (es : List Nat) :
    Straight st (bankWrite st die ty off es) i := Straight.storeBytes st i _ _ (logsMet_stacks ..)

/-- What a bank instruction asks of a thread at its turn. -/
def BankTurn (s : State) (o : Ops) (m : M7) (st : State) (j : Nat) (k : Prop) (rows : List BankRow) : Prop :=
  txOf st j = none ∧ (releases m.ord = true → Quiet s j) ∧ 1 ≤ bankN o (thr s j) ∧ bankN o (thr s j) ≤ 65536 ∧ k ∧
    ∀ r ∈ rows, GoodRow st ((thr s j).core / 64) (bankType m) r

/-- A bank instruction whose rows pass the checks: each thread's operation is done, and the thread suspends. -/
theorem bankInstr_runs {i : Instr} {s : State} {o : Ops} {m : M7} {rows : Thread → List BankRow} {bad : Thread → Bool}
    {effect : State → Nat → Nat → Thread → State} {ok : Thread → Prop} (he : exec i s = bankInstr o m rows bad effect s)
    (hs : Ready s) (hr : Readable s o [(o.a, .word), (o.b, .word), (o.c, .word)])
    (straight : ∀ st j die t, Straight st (effect st j die t) j) (fits : ∀ t, ok t → bad t = false)
    (turn : AtTurns s o.gd (fun st j => effect st j ((thr s j).core / 64) (thr s j)) fun st j =>
      BankTurn s o m st j (ok (thr s j)) (rows (thr s j))) :
    Runs i s o.gd (fun st j => effect st j ((thr s j).core / 64) (thr s j)) fun _ => .wait stacksWait := by
  refine laneOp_parts he hs hr turn (fun _ => nofun) fun st j _ _ same _ ⟨noTx, quiet, least, most, legal, good⟩ =>
    ⟨?_, (straight st j _ _).toSteady, .inr (straight st j _ _)⟩
  have passes : bankTrap st ((thr s j).core / 64) (bankType m) (srcN (thr s j) o.c % 2 ^ 32) false (rows (thr s j)) = none :=
    bankTrap_of_good least most good
  have die : dieOfThr st j = (thr s j).core / 64 := by
    rw [← same]
    rfl
  dsimp only
  rw [outsideTx_of_none noTx, die, same, fits _ legal, passes, releaseWaits_of_quiet quiet]
  exact ⟨rfl, rfl⟩

/-! ### The order of a row (R367) -/

theorem placeElem_perm (before : Nat → Nat → Bool) (e : Nat) (es : List Nat) : (placeElem before e es).Perm (e :: es) := by
  induction es with
  | nil => exact List.Perm.refl _
  | cons x rest ih =>
    unfold placeElem
    split
    · exact (ih.cons x).trans (List.Perm.swap e x rest)
    · exact List.Perm.refl _

/-- An element placed by a total and transitive order leaves the list in order. -/
theorem placeElem_pairwise {before : Nat → Nat → Bool} (trans : ∀ a b c, before a b = true → before b c = true → before a c = true)
    (total : ∀ a b, before a b = false → before b a = true) {e : Nat} {es : List Nat}
    (ordered : es.Pairwise fun x y => before x y = true) : (placeElem before e es).Pairwise fun x y => before x y = true := by
  induction es with
  | nil => exact List.pairwise_singleton _ _
  | cons x rest ih =>
    obtain ⟨first, tail⟩ := List.pairwise_cons.mp ordered
    unfold placeElem
    split
    · next behind =>
      refine List.pairwise_cons.mpr ⟨fun y hy => ?_, ih tail⟩
      rcases List.mem_cons.mp ((placeElem_perm before e rest).mem_iff.mp hy) with rfl | hy
      · exact behind
      · exact first y hy
    · next ahead =>
      have front : before e x = true := total x e (Bool.eq_false_iff.mpr ahead)
      refine List.pairwise_cons.mpr ⟨fun y hy => ?_, ordered⟩
      rcases List.mem_cons.mp hy with rfl | hy
      · exact front
      · exact trans e x y front (first y hy)

/-- Elements placed one by one. -/
def placeAll (before : Nat → Nat → Bool) (es acc : List Nat) : List Nat := es.foldl (fun acc e => placeElem before e acc) acc

theorem placeAll_perm (before : Nat → Nat → Bool) (es : List Nat) : ∀ acc, (placeAll before es acc).Perm (es ++ acc) := by
  induction es with
  | nil => exact fun acc => List.Perm.refl acc
  | cons e rest ih => exact fun acc =>
      (ih (placeElem before e acc)).trans (((placeElem_perm before e acc).append_left rest).trans List.perm_middle)

theorem placeAll_pairwise {before : Nat → Nat → Bool} (trans : ∀ a b c, before a b = true → before b c = true → before a c = true)
    (total : ∀ a b, before a b = false → before b a = true) (es : List Nat) :
    ∀ acc, acc.Pairwise (fun x y => before x y = true) → (placeAll before es acc).Pairwise fun x y => before x y = true := by
  induction es with
  | nil => exact fun _ ordered => ordered
  | cons e rest ih => exact fun acc ordered => ih _ (placeElem_pairwise trans total ordered)

/-- The elements of a row that are no NaNs. -/
def isNumber (ty : Fmt) (e : Nat) : Bool := !(isF ty && isNan (decodeFloat ty e))

theorem bankOrder_perm (ty : Fmt) (desc : Bool) (es : List Nat) : (bankOrder ty desc es).1.Perm (es.filter (isNumber ty)) := by
  have all := placeAll_perm (fun x e => if desc then bankLe ty e x else bankLe ty x e) (es.filter (isNumber ty)) []
  rwa [List.append_nil] at all

theorem bankOrder_nans (ty : Fmt) (desc : Bool) (es : List Nat) :
    (bankOrder ty desc es).2 = (es.filter fun e => !isNumber ty e).length := by
  have parts := List.length_eq_length_filter_add (l := es) (isNumber ty)
  show es.length - (es.filter (isNumber ty)).length = _
  omega

/-- An integer row rises, or falls. -/
theorem bankOrder_pairwise {ty : Fmt} (integer : isIN ty = true) (desc : Bool) (es : List Nat) :
    (bankOrder ty desc es).1.Pairwise fun x y => if desc then intOf ty y ≤ intOf ty x else intOf ty x ≤ intOf ty y := by
  have notFloat : isF ty = false := by cases ty <;> first | rfl | cases integer
  have le : ∀ x y, bankLe ty x y = decide (intOf ty x ≤ intOf ty y) := fun x y => by simp [bankLe, notFloat]
  have ordered := placeAll_pairwise (before := fun x e => if desc then bankLe ty e x else bankLe ty x e)
    (by cases desc <;> simp only [le, if_true, if_false, Bool.false_eq_true, decide_eq_true_eq] <;> intros <;> omega)
    (by cases desc <;> simp only [le, if_true, if_false, Bool.false_eq_true, decide_eq_true_eq, decide_eq_false_iff_not] <;>
          intros <;> omega)
    (es.filter (isNumber ty)) [] List.Pairwise.nil
  refine ordered.imp fun {x y} h => ?_
  cases desc <;> simpa [le] using h

theorem bankFill_length (ty : Fmt) (n : Nat) (es : List Nat) : (bankFill ty n es).length = n := by
  simp only [bankFill, List.length_append, List.length_take, List.length_replicate]
  omega

theorem bankFill_take (ty : Fmt) (n : Nat) (es : List Nat) : (bankFill ty n es).take es.length = es.take n := by
  rcases Nat.le_total es.length n with short | long
  · rw [bankFill, List.take_of_length_le short, List.take_left]
  · rw [bankFill, Nat.sub_eq_zero_of_le long, List.replicate_zero, List.append_nil, List.take_take, Nat.min_eq_right long]

/-! ### The four -/

theorem bad_of_zero {o : Ops} (t : Thread) (zero : bankK o t = 0) : (bankK o t != 0) = false := by simp [zero]

/-- What BOP writes: its first row, combined with its second or with the scalar. -/
def bopPart (o : Ops) (m : M7) (st : State) (die : Nat) (t : Thread) : State :=
  bankWrite st die (bankType m) (srcN t o.a) (List.zipWith (bankOp (bankCode m) (bankType m))
    (bankRead st die (bankType m) (srcN t o.a) (bankN o t))
    (if bankScalar m then List.replicate (bankN o t) (low (fmtWidth (bankType m)) (srcN t o.b))
     else bankRead st die (bankType m) (srcN t o.b) (bankN o t)))

/-- The rows of BOP. -/
def bopRows (o : Ops) (m : M7) (t : Thread) : List BankRow :=
  ⟨srcN t o.a, bankN o t, true⟩ :: if bankScalar m then [] else [⟨srcN t o.b, bankN o t, true⟩]

/-- What BRED writes: the reduction of its row. -/
def bredPart (o : Ops) (m : M7) (st : State) (j die : Nat) (t : Thread) : State :=
  writeDst st j o.d (bankReduce (bankCode m) (bankType m) (bankRead st die (bankType m) (srcN t o.a) (bankN o t)))

/-- What BSORT and BTOPK write: the first of the second row's numbers in order, and the count of its NaNs. -/
def orderPart (o : Ops) (m : M7) (outputs : Ops → Thread → Nat) (st : State) (j die : Nat) (t : Thread) : State :=
  let r := bankOrder (bankType m) (bankDesc m) (bankRead st die (bankType m) (srcN t o.b) (bankN o t))
  writeDst (bankWrite st die (bankType m) (srcN t o.a) (bankFill (bankType m) (outputs o t) r.1)) j o.d r.2

/-- The rows of BSORT and BTOPK. -/
def orderRows (o : Ops) (outputs : Ops → Thread → Nat) (t : Thread) : List BankRow :=
  [⟨srcN t o.a, outputs o t, false⟩, ⟨srcN t o.b, bankN o t, true⟩]

section Instructions
variable {s : State} {o : Ops} (m : M7) (hs : Ready s) (hr : Readable s o [(o.a, .word), (o.b, .word), (o.c, .word)])
include hs hr

theorem bop_runs
    (turn : AtTurns s o.gd (fun st j => bopPart o m st ((thr s j).core / 64) (thr s j)) fun st j =>
      BankTurn s o m st j (bankK o (thr s j) = 0) (bopRows o m (thr s j))) :
    Runs (.bop o m) s o.gd (fun st j => bopPart o m st ((thr s j).core / 64) (thr s j)) fun _ => .wait stacksWait :=
  bankInstr_runs (effect := fun st _ => bopPart o m st) (rows := bopRows o m) (bad := fun t => bankK o t != 0)
    (ok := fun t => bankK o t = 0) (show exec (.bop o m) s = execBop o m s from rfl) hs hr
    (fun _ _ _ _ => Straight.bankWrite ..) bad_of_zero turn

theorem bred_runs
    (turn : AtTurns s o.gd (fun st j => bredPart o m st j ((thr s j).core / 64) (thr s j)) fun st j =>
      BankTurn s o m st j (bankK o (thr s j) = 0) [⟨srcN (thr s j) o.a, bankN o (thr s j), true⟩]) :
    Runs (.bred o m) s o.gd (fun st j => bredPart o m st j ((thr s j).core / 64) (thr s j)) fun _ => .wait stacksWait :=
  bankInstr_runs (effect := bredPart o m) (rows := fun t => [⟨srcN t o.a, bankN o t, true⟩]) (bad := fun t => bankK o t != 0)
    (ok := fun t => bankK o t = 0) (show exec (.bred o m) s = execBred o m s from rfl) hs hr
    (fun _ _ _ _ => Straight.writeDst ..) bad_of_zero turn

theorem bsort_runs
    (turn : AtTurns s o.gd (fun st j => orderPart o m bankN st j ((thr s j).core / 64) (thr s j)) fun st j =>
      BankTurn s o m st j (bankK o (thr s j) = 0) (orderRows o bankN (thr s j))) :
    Runs (.bsort o m) s o.gd (fun st j => orderPart o m bankN st j ((thr s j).core / 64) (thr s j)) fun _ => .wait stacksWait :=
  bankInstr_runs (effect := orderPart o m bankN) (rows := orderRows o bankN) (bad := fun t => bankK o t != 0)
    (ok := fun t => bankK o t = 0) (show exec (.bsort o m) s = execBsort o m s from rfl) hs hr
    (fun _ _ _ _ => (Straight.bankWrite ..).trans (Straight.writeDst ..)) bad_of_zero turn

theorem btopk_runs
    (turn : AtTurns s o.gd (fun st j => orderPart o m bankK st j ((thr s j).core / 64) (thr s j)) fun st j =>
      BankTurn s o m st j (1 ≤ bankK o (thr s j) ∧ bankK o (thr s j) ≤ bankN o (thr s j)) (orderRows o bankK (thr s j))) :
    Runs (.btopk o m) s o.gd (fun st j => orderPart o m bankK st j ((thr s j).core / 64) (thr s j)) fun _ => .wait stacksWait := by
  refine bankInstr_runs (effect := orderPart o m bankK) (rows := orderRows o bankK)
    (bad := fun t => bankK o t == 0 || decide (bankN o t < bankK o t)) (ok := fun t => 1 ≤ bankK o t ∧ bankK o t ≤ bankN o t)
    (show exec (.btopk o m) s = execBtopk o m s from rfl) hs hr
    (fun _ _ _ _ => (Straight.bankWrite ..).trans (Straight.writeDst ..)) (fun t ⟨one, few⟩ => ?_) turn
  simp only [Bool.or_eq_false_iff, beq_eq_false_iff_ne, decide_eq_false_iff_not]
  omega

end Instructions

end Sys2Proof.Machine

namespace Sys2Proof

open Sys2Proof.Machine

/-- Settles O46: the four share their checks, and a row is ordered by insertion. -/
theorem bankInstructions : Obligations.BankInstructions := by
  unfold Obligations.BankInstructions
  refine ⟨fun s o m hs hr => ?_, fun ty desc es => ⟨bankOrder_perm ty desc es, bankOrder_nans ty desc es,
    fun integer => bankOrder_pairwise integer desc es, fun n => ⟨bankFill_length ty n _, bankFill_take ty n _⟩⟩⟩
  refine ⟨fun turn => bop_runs m hs hr ?bop, fun turn => bred_runs m hs hr ?bred, fun turn => bsort_runs m hs hr ?bsort,
    fun turn => btopk_runs m hs hr ?btopk⟩
  all_goals intro before j after split active
  case bop =>
    obtain ⟨noTx, quiet, least, most, zero, rowA, rowB⟩ := turn before j after split active
    refine ⟨noTx, quiet, least, most, zero, List.forall_mem_cons.mpr ⟨rowA, ?_⟩⟩
    show ∀ r ∈ if m.low.getLsbD 19 then _ else _, _
    cases scalar : m.low.getLsbD 19
    · exact List.forall_mem_singleton.mpr (rowB scalar)
    · exact fun _ hr => absurd hr List.not_mem_nil
  case bred =>
    obtain ⟨noTx, quiet, least, most, zero, rowA⟩ := turn before j after split active
    exact ⟨noTx, quiet, least, most, zero, List.forall_mem_singleton.mpr rowA⟩
  case bsort =>
    obtain ⟨noTx, quiet, least, most, zero, rowA, rowB⟩ := turn before j after split active
    exact ⟨noTx, quiet, least, most, zero, List.forall_mem_cons.mpr ⟨rowA, List.forall_mem_singleton.mpr rowB⟩⟩
  case btopk =>
    obtain ⟨noTx, quiet, least, most, one, few, rowA, rowB⟩ := turn before j after split active
    exact ⟨noTx, quiet, least, most, ⟨one, few⟩, List.forall_mem_cons.mpr ⟨rowA, List.forall_mem_singleton.mpr rowB⟩⟩

end Sys2Proof
end

section
/-! FLUSHP, AXFENCE, TRIMQ, BWSET and RCPACE (R457 to R461, R499). -/

namespace Sys2Proof.Machine

/-- A privileged thread's instruction goes ahead (R89). -/
theorem privileged_of_grant {s : State} {i : Nat} (grant : privOf s i = true) (r : LaneRes) : privileged s i r = r := if_pos grant

theorem privOf_of_wgs {s t : State} (same : t.wgs = s.wgs) {i : Nat} (thread : thr t i = thr s i) : privOf t i = privOf s i := by
  unfold privOf wgOf
  rw [same, thread]

/-- An instruction outside transactions each thread of which changes neither threads nor workgroups nor the issue, and goes on. -/
theorem laneOp_elsewhere {i : Instr} {s : State} {o : Ops} {needs : List (Src × Need)} {body : State → State → Nat → LaneRes}
    {part : State → Nat → State} (he : exec i s = laneOp o needs body s) (hs : Ready s) (hr : Readable s o needs)
    (apart : ∀ st j, (part st j).threads = st.threads ∧ (part st j).wgs = st.wgs ∧ (part st j).issue = st.issue)
    (hbody : ∀ st j, j ∈ gathering s → guardTrue (thr s j) o.gd = true → thr st j = thr s j → st.wgs = s.wgs →
      body s st j = .done (part st j)) : Runs i s o.gd part fun _ => .next := by
  have sameWgs : AtTurns s o.gd part fun st _ => st.wgs = s.wgs := fun before _ _ _ _ =>
    turns_keeps (Q := fun st => st.wgs = s.wgs) rfl (fun st j same => (apart st j).2.1.trans same) before
  exact laneOp_straight he hs hr sameWgs fun st j inside active same _ wgs =>
    ⟨.inl (hbody st j inside active same wgs), Straight.of_threads (apart st j).1 (apart st j).2.2⟩

/-! ### FLUSHP and AXFENCE (R458, R499) -/

theorem flushp_runs {s : State} {o : Ops} (m : M7) (hs : Ready s) (hr : Readable s o [])
    (noTx : ∀ j ∈ gathering s, guardTrue (thr s j) o.gd = true → txOf s j = none) :
    Runs (.flushp o m) s o.gd (fun st _ => st) fun j =>
      if (thr s j).posted = [] then .next else .wait { code := 7, a := 0, b := 0, dst := .latchOnly, var := 0 } := by
  refine laneOp_parts (show exec (.flushp o m) s = execFlushp o m s from rfl) hs hr (atTurns_still s o.gd)
    (fun j => by split <;> nofun) fun st j inside active _ _ still => ⟨?_, (Straight.refl st j).toSteady, .inr (Straight.refl st j)⟩
  rw [still, outsideTx_of_none (noTx j inside active)]
  by_cases clean : (thr s j).posted = []
  · simp only [clean, List.isEmpty_nil, if_true]
    rfl
  · simp only [clean, List.isEmpty_iff, if_false]
    exact ⟨rfl, rfl⟩

theorem axfence_runs {s : State} {o : Ops} (m : M7) (hs : Ready s) (hr : Readable s o [])
    (noTx : ∀ j ∈ gathering s, guardTrue (thr s j) o.gd = true → txOf s j = none)
    (quiet : ∀ j ∈ gathering s, guardTrue (thr s j) o.gd = true → Quiet s j) :
    Runs (.axfence o m) s o.gd (fun st _ => st) fun _ =>
      if s.annex.st ≠ .fenced ∧ guestWrites s = true then
        .wait { code := 8, a := 0, b := 0, dst := .latchOnly, var := s.annex.sent }
      else .next := by
  refine laneOp_parts (show exec (.axfence o m) s = execAxfence o m s from rfl) hs hr (atTurns_still s o.gd)
    (fun j => by split <;> nofun) fun st j inside active _ _ still => ⟨?_, (Straight.refl st j).toSteady, .inr (Straight.refl st j)⟩
  rw [still, outsideTx_of_none (noTx j inside active), releaseWaits_of_quiet fun _ => quiet j inside active,
    if_neg Bool.false_ne_true]
  by_cases outstanding : s.annex.st ≠ .fenced ∧ guestWrites s = true
  · obtain ⟨opened, writes⟩ := outstanding
    simp only [bne_iff_ne.mpr opened, writes, opened, ne_eq, not_false_eq_true, and_self, Bool.and_self, if_true]
    exact ⟨rfl, rfl⟩
  · have done : (s.annex.st != .fenced && guestWrites s) = false := by simpa using outstanding
    rw [if_neg outstanding, done, if_neg Bool.false_ne_true]
    rfl

/-! ### TRIMQ (R459) -/

theorem trimq_completes {s : State} {o : Ops} (m : M7) (hs : Ready s) (hr : Readable s o [(o.a, .word)])
    (noTx : ∀ j ∈ gathering s, guardTrue (thr s j) o.gd = true → txOf s j = none)
    (small : ∀ j ∈ gathering s, guardTrue (thr s j) o.gd = true → srcN (thr s j) o.a < 2 ^ 7) :
    Completes (.trimq o m) s o.gd fun j t =>
      putG t o.d (tgetD (portOf s (srcN (thr s j) o.a % 16)).trims (srcN (thr s j) o.a / 16) 0).toNat := by
  refine laneOp_writeDst _ (show exec (.trimq o m) s = execTrimq o m s from rfl) hs hr
    (fun j => (BitVec.isLt _).trans (by decide)) fun s' j inside frame same active => ?_
  have outside : txOf s' j = none := by
    rw [frame]
    exact noTx j inside active
  have ports : portOf s' = portOf s := by
    rw [frame]
    rfl
  dsimp only
  rw [same, outsideTx_of_none outside, if_neg (Nat.not_le.mpr (small j inside active)), ports]

/-! ### BWSET (R460) -/

theorem weightsOf_eq (b : Nat) : weightsOf b = (List.range 8).map fun k => b / 2 ^ (8 * k) % 2 ^ 8 := by
  refine List.map_congr_left fun k _ => ?_
  rw [bits, show 8 * k + 7 + 1 - 8 * k = 8 by omega]

/-- Weights of at most 64 that add up to 64, classes 3 and 4 with none, are not refused. -/
theorem weightsBad_eq_false {b : Nat} (low : ∀ k < 8, b / 2 ^ (8 * k) % 2 ^ 8 ≤ 64) (three : b / 2 ^ (8 * 3) % 2 ^ 8 = 0)
    (four : b / 2 ^ (8 * 4) % 2 ^ 8 = 0) (total : ((List.range 8).map fun k => b / 2 ^ (8 * k) % 2 ^ 8).sum = 64) :
    weightsBad b = false := by
  have none : (weightsOf b).any (fun w => decide (64 < w)) = false := by
    simpa [weightsOf_eq] using low
  have third : (weightsOf b).getD 3 0 = 0 := by rw [weightsOf_eq]; exact three
  have fourth : (weightsOf b).getD 4 0 = 0 := by rw [weightsOf_eq]; exact four
  have sum : (weightsOf b).sum = 64 := by rw [weightsOf_eq]; exact total
  simp only [weightsBad, none, third, fourth, sum, bne_self_eq_false, Bool.or_self]

/-- The weights of the ports that a mask names. -/
def weighPorts (mask : Nat) (ws : List Nat) (st : State) : State :=
  (List.range 16).foldl (fun st port => if mask.testBit port then modPort st port fun x => { x with weights := ws } else st) st

theorem weighPorts_frame (mask : Nat) (ws : List Nat) (st : State) :
    weighPorts mask ws st = { st with fabric := (weighPorts mask ws st).fabric } := by
  have ports : ∀ (l : List Nat) (u : State),
      l.foldl (fun st port => if mask.testBit port then modPort st port fun x => { x with weights := ws } else st) u =
        { u with fabric := (l.foldl (fun st port =>
          if mask.testBit port then modPort st port fun x => { x with weights := ws } else st) u).fabric } := by
    intro l
    induction l with
    | nil => exact fun _ => rfl
    | cons port rest ih =>
      intro u
      rw [List.foldl_cons, ih]
      split <;> rfl
  exact ports _ st

theorem bwset_runs {s : State} {o : Ops} (m : M7) (hs : Ready s) (hr : Readable s o [(o.a, .word), (o.b, .word)])
    (noTx : ∀ j ∈ gathering s, guardTrue (thr s j) o.gd = true → txOf s j = none)
    (grant : ∀ j ∈ gathering s, guardTrue (thr s j) o.gd = true → privOf s j = true)
    (legal : ∀ j ∈ gathering s, guardTrue (thr s j) o.gd = true →
      srcN (thr s j) o.a < 2 ^ 16 ∧ weightsBad (srcN (thr s j) o.b) = false) :
    Runs (.bwset o m) s o.gd (fun st j => weighPorts (srcN (thr s j) o.a) (weightsOf (srcN (thr s j) o.b)) st) fun _ => .next := by
  refine laneOp_elsewhere (show exec (.bwset o m) s = execBwset o m s from rfl) hs hr (fun st j => ?_)
    fun st j inside active same wgs => ?_
  · rw [weighPorts_frame]
    exact ⟨rfl, rfl, rfl⟩
  · obtain ⟨mask, weights⟩ := legal j inside active
    have outside : txOf st j = none := (txOf_of_wgs wgs j).trans (noTx j inside active)
    have granted : privOf st j = true := (privOf_of_wgs wgs same).trans (grant j inside active)
    dsimp only
    rw [same, outsideTx_of_none outside, privileged_of_grant granted, weights, Bool.or_false,
      if_neg (by simpa using mask)]
    simp only [bit_eq_testBit]
    rfl

/-! ### RCPACE (R461) -/

theorem rcpace_runs {s : State} {o : Ops} (m : M7) (hs : Ready s) (hr : Readable s o [(o.a, .word)])
    (noTx : ∀ j ∈ gathering s, guardTrue (thr s j) o.gd = true → txOf s j = none)
    (grant : ∀ j ∈ gathering s, guardTrue (thr s j) o.gd = true → privOf s j = true)
    (legal : ∀ j ∈ gathering s, guardTrue (thr s j) o.gd = true → srcN (thr s j) o.a < 2 ^ 22 ∧
      4 ≤ srcN (thr s j) o.a / 2 ^ 12 % 2 ^ 5 ∧ srcN (thr s j) o.a / 2 ^ 12 % 2 ^ 5 ≤ srcN (thr s j) o.a / 2 ^ 17 % 2 ^ 5 ∧
      srcN (thr s j) o.a / 2 ^ 17 % 2 ^ 5 ≤ 16) :
    Runs (.rcpace o m) s o.gd (fun st j =>
      { st with fabric := { st.fabric with pairGap := srcN (thr s j) o.a % 2 ^ 12, base := srcN (thr s j) o.a / 2 ^ 12 % 2 ^ 5,
                                           cap := srcN (thr s j) o.a / 2 ^ 17 % 2 ^ 5 } }) fun _ => .next := by
  refine laneOp_elsewhere (show exec (.rcpace o m) s = execRcpace o m s from rfl) hs hr (fun _ _ => ⟨rfl, rfl, rfl⟩)
    fun st j inside active same wgs => ?_
  obtain ⟨fits, base, order, cap⟩ := legal j inside active
  have outside : txOf st j = none := (txOf_of_wgs wgs j).trans (noTx j inside active)
  have granted : privOf st j = true := (privOf_of_wgs wgs same).trans (grant j inside active)
  have inRange : (decide (2 ^ 22 ≤ srcN (thr s j) o.a) || decide (bits (srcN (thr s j) o.a) 16 12 < 4) ||
      decide (16 < bits (srcN (thr s j) o.a) 16 12) || decide (bits (srcN (thr s j) o.a) 21 17 < bits (srcN (thr s j) o.a) 16 12) ||
      decide (16 < bits (srcN (thr s j) o.a) 21 17)) = false := by
    simp only [Bool.or_eq_false_iff, decide_eq_false_iff_not]
    exact ⟨⟨⟨⟨Nat.not_le.mpr fits, Nat.not_lt.mpr base⟩, Nat.not_lt.mpr (order.trans cap)⟩, Nat.not_lt.mpr order⟩,
      Nat.not_lt.mpr cap⟩
  dsimp only
  rw [same, outsideTx_of_none outside, privileged_of_grant granted, inRange, if_neg Bool.false_ne_true]
  rfl

end Sys2Proof.Machine

namespace Sys2Proof

open Sys2Proof.Machine

/-- Settles O49: each of the five by what one thread does at its turn. -/
theorem linkInstructions : Obligations.LinkInstructions := by
  unfold Obligations.LinkInstructions
  intro s o m hs noTx
  refine ⟨fun hr => ⟨flushp_runs m hs hr noTx, axfence_runs m hs hr noTx⟩, fun hr small => trimq_completes m hs hr noTx small,
    fun grant => ⟨fun hr legal => ?_, fun hr legal => rcpace_runs m hs hr noTx grant legal⟩⟩
  have set := bwset_runs m hs hr noTx grant fun j inside active => by
    obtain ⟨mask, low, three, four, total⟩ := legal j inside active
    exact ⟨mask, weightsBad_eq_false low three four total⟩
  simp only [weightsOf_eq] at set
  exact set

end Sys2Proof
end

section
/-! Sketch regions and collective plans against the register budget (R138, R394, R472): SKSEAL and CLPLAN act once for their issue
as class 0x6 does, so that the check which refused CATQ and MSLIP a role without g registers refuses them as well. -/

namespace Sys2Proof.Machine

theorem hmode_clearLatches (t : Thread) : (clearLatches t).hmode = t.hmode := rfl

theorem hmode_goes (go : Go) (t : Thread) : (goes go t).hmode = t.hmode := by cases go <;> rfl

/-- An instruction that traps for its gathering does not complete: the trap takes its threads into their handlers, and no way of
going on does. -/
theorem not_runs_of_trapAll {i : Instr} {s : State} {x : TrapInfo} {gd : Guard} {part : State → Nat → State} {go : Nat → Go} {j : Nat}
    (traps : exec i s = trapAll s x) (hs : Ready s) (vectored : ∀ k ∈ gathering s, Vectored s k) (noPc : x.pc = none ∧ x.resume = none)
    (inside : j ∈ gathering s) (outside : (thr (turns s gd part (gathering s)) j).hmode = false) : ¬ Runs i s gd part go := by
  rintro ⟨u, completes, passed⟩
  obtain ⟨v, trapped, handled, -⟩ := trapAll_traps traps hs vectored noPc
  obtain rfl : u = v := Host.Outcome.next.inj (completes.symm.trans trapped)
  obtain ⟨cause, addr, inHandler, -⟩ := handled j inside rfl
  have same := congrArg Thread.hmode (inHandler.symm.trans (passed.threads j))
  rw [hmode_clearLatches, if_pos inside, hmode_goes, outside] at same
  exact Bool.false_ne_true same.symm

/-! ### SKSEAL with OPEN (R407) -/

/-- The state of `withoutG` with a counting filter at base 0, on a page of a range that has the merge table. -/
def sketchWithoutG : State :=
  { withoutG with
    coh := { State.reset.coh with ranges := [(0, 0x80), (1, 0x84)] }
    regions := [(0,
      { context := 0, asid := 0, base := 0, home := 0, range := 1, pages := [(0, 0)], kind := 1, cnt := true, l0 := 6, lcur := 6,
        km1 := 1, stv := false, stask := 0, thresh := 0, seed0 := 1, seed1 := 3, isSealed := true, csat := false, parts := [],
        image := SkState.reset, users := [] })] }

theorem ready_sketchWithoutG : Ready sketchWithoutG where
  alone := rfl
  fresh := ⟨rfl, rfl⟩
  group := rfl
  some := List.cons_ne_nil _ _
  once := List.nodup_singleton 0
  clear := List.forall_mem_singleton.mpr clear_withoutG

theorem readable_sketchWithoutG : Readable sketchWithoutG tileFields [(tileFields.a, .word)] :=
  List.forall_mem_singleton.mpr ⟨by decide, fun _ => rfl⟩

theorem vectored_sketchWithoutG : Vectored sketchWithoutG 0 := by
  unfold Vectored
  decide

theorem sksealOpen_traps_of_noG {s : State} {o : Ops} {i : Nat} (m : M7) (hs : Ready s) (inside : i ∈ gathering s)
    (noG : beyondBudget (wgOf s (tidWg i)) (tidQuire i) (.g 0) = true) :
    exec (.sksealOpen o m) s = trapAll s (decodeTrap cIllegalField) := by
  show execSksealOpen o m s = _
  unfold execSksealOpen onceOp
  exact matrixLane_traps_of_noG hs inside noG

/-! ### CLPLAN (R472) -/

/-- The state of `withoutG` with the image of a plan of one rank, which sums .f16 into 256 bytes at 0x8000, at 0x4000 of global
memory; v1 of the thread names it, and v0 the slot 0. -/
def planWithoutG : State :=
  { withoutG with
    threads := [(0, { thr withoutG 0 with v := [(1, ⟨0x4000, 0⟩)] })]
    tlb := [⟨0, 0, 0, 3, 0x1F⟩]
    mem := Memory.setList [] 0x4000 ([2 ^ 32 + 0x12 * 2 ^ 36, 0x8000, 256].flatMap (leBytes 8)) }

/-- Operand fields without a g register: the image in v1, the slot in v0. -/
def planFields : Ops := ⟨⟨0, 0, true⟩, .latchOnly, .reg (.v 1), .reg (.v 0), .reg (.v 0)⟩

theorem ready_planWithoutG : Ready planWithoutG where
  alone := rfl
  fresh := ⟨rfl, rfl⟩
  group := rfl
  some := List.cons_ne_nil _ _
  once := List.nodup_singleton 0
  clear := List.forall_mem_singleton.mpr ⟨⟨rfl, rfl, rfl⟩, rfl, rfl, ⟨rfl, rfl⟩, nofun⟩

theorem readable_planWithoutG : Readable planWithoutG planFields [(planFields.a, .word), (planFields.b, .word)] :=
  List.forall_mem_singleton.mpr ⟨by decide, fun _ => rfl⟩

theorem vectored_planWithoutG : Vectored planWithoutG 0 := by
  unfold Vectored
  decide

/-- What the image is read as, if it passes the checks of R472. -/
def planRead : Option (State × Plan) :=
  match planLoad planWithoutG 0 0x4000 0 with
  | .load u p => some (u, p)
  | _ => none

/-- The image passes, and reading it leaves the thread outside its handler. -/
theorem planRead_passes : planRead.any (fun r => !(thr r.1 0).hmode) = true := by decide +kernel

theorem planLoad_passes : ∃ u p, planLoad planWithoutG 0 0x4000 0 = .load u p ∧ (thr u 0).hmode = false := by
  have passes := planRead_passes
  unfold planRead at passes
  split at passes
  · next u p load => exact ⟨u, p, load, by simpa using passes⟩
  · cases passes

theorem clplan_traps_of_noG {s : State} {o : Ops} {i : Nat} (m : M7) (hs : Ready s) (inside : i ∈ gathering s)
    (noG : beyondBudget (wgOf s (tidWg i)) (tidQuire i) (.g 0) = true) :
    exec (.clplan o m) s = trapAll s (decodeTrap cIllegalField) := by
  show execClplan o m s = _
  unfold execClplan
  exact matrixLane_traps_of_noG hs inside noG

end Sys2Proof.Machine

namespace Sys2Proof

open Sys2Proof.Machine

/-- Refutes O47, in the clause of SKSEAL with OPEN: the operand fields of `tileFields` name no g register, so they pass the check of
R138 in a workgroup without any, and A names the base of the region of `sketchWithoutG`; yet the instruction traps ILLEGAL_FIELD at
decode, where the statement has it open the region. The statement asks neither that a budget hold g0, as each that R122 grants
does, nor that the fields be those of a well-formed instruction. -/
theorem not_sketchRegionInstructions : ¬ Obligations.SketchRegionInstructions := by
  unfold Obligations.SketchRegionInstructions
  rintro ⟨instructions, -⟩
  obtain ⟨regions, -⟩ := instructions sketchWithoutG tileFields ⟨0, .rlx, .core, 0⟩ 0 _ ready_sketchWithoutG
    (List.forall_mem_singleton.mpr fun _ => ⟨rfl, rfl, by decide⟩)
  obtain ⟨-, -, opens, -⟩ := regions readable_sketchWithoutG rfl (by decide +kernel)
  exact not_runs_of_trapAll (sksealOpen_traps_of_noG _ ready_sketchWithoutG (List.mem_singleton_self 0) rfl) ready_sketchWithoutG
    (List.forall_mem_singleton.mpr vectored_sketchWithoutG) ⟨rfl, rfl⟩ (List.mem_singleton_self 0) (by decide +kernel) opens

/-- Refutes O50, in the clause of a CLPLAN that loads: as above for the operand fields of `planFields`, whose A names the image of a
plan that passes the checks of R472; the instruction traps ILLEGAL_FIELD at decode, where the statement has it load the slot. -/
theorem not_collectives : ¬ Obligations.Collectives := by
  unfold Obligations.Collectives
  rintro ⟨instructions, -⟩
  obtain ⟨plans, -⟩ := instructions planWithoutG planFields ⟨0, .rlx, .core, 0⟩ ready_planWithoutG
    (List.forall_mem_singleton.mpr fun _ => rfl)
  obtain ⟨loads, -⟩ := plans readable_planWithoutG (by decide) (by decide)
  obtain ⟨u, p, load, outside⟩ := planLoad_passes
  refine not_runs_of_trapAll (clplan_traps_of_noG _ ready_planWithoutG (List.mem_singleton_self 0) rfl) ready_planWithoutG
    (List.forall_mem_singleton.mpr vectored_planWithoutG) ⟨rfl, rfl⟩ (List.mem_singleton_self 0) ?_ (loads u p (by decide) load)
  exact outside

end Sys2Proof
end

section
/-! SKDEL and SKSTAT (R404, R405) on regions of this module. -/

namespace Sys2Proof.Machine

/-! ### What a change of a partial leaves alone (R380, R428) -/

theorem partialEvent_lineOnly (s : State) (d pa range ev : Nat) : LineOnly s (partialEvent s d pa range ev) :=
  ((lineMessages_lineOnly ..).trans (setLine_lineOnly ..)).trans (freeze_lineOnly ..)

theorem regionEvent_lineOnly (s : State) (r : Region) (d range ev : Nat) : LineOnly s (regionEvent s r d range ev) :=
  partialEvent_lineOnly ..

/-- A partial's change reaches the table of regions, and by a signal the tasks of a quad. -/
theorem setPart_frame (s : State) (k : Nat) (r : Region) (d : Nat) (x : SkState) :
    setPart s k r d x = { s with regions := (setPart s k r d x).regions, quads := (setPart s k r d x).quads } := by
  unfold setPart
  dsimp only
  split <;> rfl

theorem Straight.setPart (s : State) (i k : Nat) (r : Region) (d : Nat) (x : SkState) : Straight s (setPart s k r d x) i := by
  rw [setPart_frame]
  exact Straight.of_threads rfl rfl

theorem Straight.setRegion (s : State) (i k : Nat) (r : Region) : Straight s (setRegion s k r) i := Straight.of_threads rfl rfl

theorem Straight.regionEvent (s : State) (i : Nat) (r : Region) (d range ev : Nat) : Straight s (regionEvent s r d range ev) i :=
  (regionEvent_lineOnly ..).straight i

/-! ### The access (R404, R405) -/

/-- The doubleword of a sketch page of this module, in a thread outside transactions, and the region that holds it. -/
structure SketchTurn (st : State) (j ea : Nat) (acc : Acc) (u : State) (p : Place) (k : Nat) (r : Region) : Prop where
  noTx : txOf st j = none
  aligned : ea % 8 = 0
  placed : placeOf st (partyOf st j) .global ea 8 acc = .ok (u, p)
  sketch : p.sketch ≠ 0
  here : p.remote = false
  region : regionAt u p.pa = some (k, r)

theorem SketchTurn.check {st u : State} {j ea k : Nat} {acc : Acc} {p : Place} {r : Region} (h : SketchTurn st j ea acc u p k r) :
    laneCheck st j .global ea 8 acc true = .ok (u, p) := by
  simp [laneCheck, h.aligned, h.placed]

/-- What SKDEL does for a thread whose key's region is a counting filter. -/
def skdelPart (u : State) (k : Nat) (r : Region) (die range key : Nat) : State :=
  regionEvent (setPart u k r die (skDelete r (partOf r die) key)) r die range 8

/-- What SKSTAT does for a thread. -/
def skstatPart (u : State) (j k : Nat) (r : Region) (die range : Nat) (o : Ops) (m : M7) : State :=
  writeDst (regionEvent (setRegion u k (seenState r die (m.scope == .die)).2) r die range 9) j o.d
    (skStatWord r (seenState r die (m.scope == .die)).1 (m.low.toNat % 8))

section Instructions
variable {s : State} {o : Ops} (m : M7) (at_ : State → Nat → State) (place : Nat → Place) (slot : Nat → Nat)
  (region : State → Nat → Region) (hs : Ready s)
include hs

theorem skdel_runs (hr : Readable s o [(o.a, .word), (o.b, .word)])
    (turn : AtTurns s o.gd
      (fun st j => skdelPart (at_ st j) (slot j) (region st j) ((thr s j).core / 64) (place j).range (srcN (thr s j) o.b)) fun st j =>
        SketchTurn st j (srcN (thr s j) o.a) .wr (at_ st j) (place j) (slot j) (region st j) ∧
        regionFault (at_ st j) (region st j) ((thr s j).core / 64) (place j).range 8 = none ∧
        (releases m.ord = true → Quiet s j) ∧ (region st j).kind = 1 ∧ (region st j).cnt = true) :
    Runs (.skdel o m) s o.gd
      (fun st j => skdelPart (at_ st j) (slot j) (region st j) ((thr s j).core / 64) (place j).range (srcN (thr s j) o.b))
      fun _ => .wait stacksWait := by
  refine laneOp_parts (show exec (.skdel o m) s = execSkdel o m s from rfl) hs hr turn (fun _ => nofun)
    fun st j _ _ same _ ⟨found, admitted, quiet, kind, counting⟩ => ?_
  have straight : Straight st
      (skdelPart (at_ st j) (slot j) (region st j) ((thr s j).core / 64) (place j).range (srcN (thr s j) o.b)) j :=
    (((placeOf_xlatOnly found.placed).straight j).trans (Straight.setPart ..)).trans (Straight.regionEvent ..)
  refine ⟨?_, straight.toSteady, .inr straight⟩
  have die : dieOfThr st j = (thr s j).core / 64 := by
    rw [← same]
    rfl
  dsimp only
  rw [outsideTx_of_none found.noTx, same, found.check]
  simp only [found.sketch, found.here, found.region, die, kind, counting, admitted, releaseWaits_of_quiet quiet, beq_iff_eq,
    bne_self_eq_false, Bool.not_true, Bool.or_self, Bool.false_eq_true, if_false]
  exact ⟨rfl, rfl⟩

theorem skstat_runs (hr : Readable s o [(o.a, .word)])
    (turn : AtTurns s o.gd
      (fun st j => skstatPart (at_ st j) j (slot j) (region st j) ((thr s j).core / 64) (place j).range o m) fun st j =>
        SketchTurn st j (srcN (thr s j) o.a) .rd (at_ st j) (place j) (slot j) (region st j) ∧
        regionFault (at_ st j) (region st j) ((thr s j).core / 64) (place j).range 9 = none) :
    Runs (.skstat o m) s o.gd
      (fun st j => skstatPart (at_ st j) j (slot j) (region st j) ((thr s j).core / 64) (place j).range o m)
      fun _ => .wait stacksWait := by
  refine laneOp_parts (show exec (.skstat o m) s = execSkstat o m s from rfl) hs hr turn (fun _ => nofun)
    fun st j _ _ same _ ⟨found, admitted⟩ => ?_
  have straight : Straight st (skstatPart (at_ st j) j (slot j) (region st j) ((thr s j).core / 64) (place j).range o m) j :=
    ((((placeOf_xlatOnly found.placed).straight j).trans (Straight.setRegion ..)).trans (Straight.regionEvent ..)).trans
      (Straight.writeDst ..)
  refine ⟨?_, straight.toSteady, .inr straight⟩
  have die : dieOfThr st j = (thr s j).core / 64 := by
    rw [← same]
    rfl
  dsimp only
  rw [outsideTx_of_none found.noTx, same, found.check]
  simp only [found.sketch, found.here, found.region, die, admitted, beq_iff_eq, Bool.false_and, Bool.false_eq_true, if_false]
  exact ⟨rfl, rfl⟩

end Instructions

end Sys2Proof.Machine

namespace Sys2Proof

open Sys2Proof.Machine

/-- Settles O48: both by what one thread does at its turn. -/
theorem sketchDeleteAndStatus : Obligations.SketchDeleteAndStatus := by
  unfold Obligations.SketchDeleteAndStatus
  intro s o m at_ place slot region hs
  refine ⟨fun hr turn => skdel_runs m at_ place slot region hs hr fun before j after split active => ?_,
    fun hr turn => skstat_runs m at_ place slot region hs hr fun before j after split active => ?_⟩
  · obtain ⟨⟨noTx, aligned, placed, sketch, here, found, admitted⟩, quiet, kind, counting⟩ := turn before j after split active
    exact ⟨⟨noTx, aligned, placed, sketch, here, found⟩, admitted, quiet, kind, counting⟩
  · obtain ⟨noTx, aligned, placed, sketch, here, found, admitted⟩ := turn before j after split active
    exact ⟨⟨noTx, aligned, placed, sketch, here, found⟩, admitted⟩

end Sys2Proof
end

section
/-! Power, the boot chain, identity, register writes and accesses of the host (R259, R513 to R524). -/

namespace Sys2Proof.Machine

/-! ### A change of each die -/

/-- The dies of a list, each changed by `f`. -/
def changeDies (f : Die → Die) (l : List Nat) (s : State) : State := l.foldl (fun st d => modDie st d f) s

theorem changeDies_frame (f : Die → Die) (l : List Nat) : ∀ s, changeDies f l s = { s with dies := (changeDies f l s).dies } := by
  induction l with
  | nil => exact fun _ => rfl
  | cons d rest ih =>
    intro s
    show changeDies f rest (modDie s d f) = _
    rw [ih]
    rfl

theorem dieOf_changeDies_out (f : Die → Die) {l : List Nat} {d : Nat} (out : d ∉ l) : ∀ s, dieOf (changeDies f l s) d = dieOf s d := by
  induction l with
  | nil => exact fun _ => rfl
  | cons e rest ih =>
    intro s
    rw [List.mem_cons, not_or] at out
    show dieOf (changeDies f rest (modDie s e f)) d = _
    rw [ih out.2, dieOf_modDie, if_neg (Ne.symm out.1)]

theorem dieOf_changeDies (f : Die → Die) {l : List Nat} (once : l.Nodup) {d : Nat} (inside : d ∈ l) :
    ∀ s, dieOf (changeDies f l s) d = f (dieOf s d) := by
  induction l with
  | nil => exact absurd inside List.not_mem_nil
  | cons e rest ih =>
    intro s
    obtain ⟨other, once⟩ := List.nodup_cons.mp once
    show dieOf (changeDies f rest (modDie s e f)) d = _
    rcases List.mem_cons.mp inside with rfl | later
    · rw [dieOf_changeDies_out f other, dieOf_modDie_self]
    · have apart : e ≠ d := fun same => other (same ▸ later)
      rw [ih once later, dieOf_modDie, if_neg apart]

/-- Each of the four dies is changed. -/
theorem dieOf_changeDies_four (f : Die → Die) (s : State) {d : Nat} (inside : d < 4) :
    dieOf (changeDies f (List.range 4) s) d = f (dieOf s d) :=
  dieOf_changeDies f List.nodup_range (List.mem_range.mpr inside) s

/-! ### BOOTSTAT (R517, R521) -/

/-- A die whose BOOTSTAT has been set. -/
def withBootstat (code detail : Nat) (x : Die) : Die := { x with bootstat := BitVec.ofNat 16 (code + detail % 256 * 256) }

theorem dieOf_setBootstat (s : State) (code detail : Nat) {d : Nat} (inside : d < 4) :
    dieOf (setBootstat s code detail) d = withBootstat code detail (dieOf s d) := dieOf_changeDies_four (withBootstat code detail) s inside

theorem setBootstat_frame (s : State) (code detail : Nat) :
    setBootstat s code detail = { s with dies := (setBootstat s code detail).dies } := changeDies_frame (withBootstat code detail) _ s

/-- CODE of every die after it has been set. -/
theorem code_setBootstat (s : State) {code : Nat} (detail : Nat) (byte : code < 256) {d : Nat} (inside : d < 4) :
    (dieOf (setBootstat s code detail) d).bootstat.toNat % 256 = code := by
  rw [dieOf_setBootstat s code detail inside, withBootstat, BitVec.toNat_ofNat]
  omega

theorem modid_setBootstat (s : State) (code detail : Nat) : (dieOf (setBootstat s code detail) 0).modid = (dieOf s 0).modid := by
  rw [dieOf_setBootstat s code detail (by decide)]
  rfl

/-! ### Power (R513 to R516) -/

theorem execPowerUp_ok {s : State} (off : s.module.rails = []) :
    execPowerUp none s = .next (modModule (resetModule s) fun m => { m with rails := railOrder }) := by
  simp [execPowerUp, off]

/-- A rail that fails does not come up, and BOOTSTAT of every die says so. -/
theorem execPowerUp_fails {s : State} (off : s.module.rails = []) (r : Rail) :
    ∃ t, execPowerUp (some r) s = .next t ∧ t.module.held = true ∧ r ∉ t.module.rails ∧
      ∀ d < 4, (dieOf t d).bootstat.toNat % 256 = 0x81 := by
  have run : execPowerUp (some r) s = .next (setBootstat (modModule (drawFree (resetModule s)).2 fun m =>
      { m with rails := railOrder.takeWhile (· != r), held := true }) 0x81 (drawFree (resetModule s)).1.toNat) := by
    simp [execPowerUp, off]
  refine ⟨_, run, ?_, ?_, fun d inside => code_setBootstat _ _ (by decide) inside⟩
  · rw [setBootstat_frame]
    rfl
  · rw [setBootstat_frame]
    intro up
    have before := List.mem_takeWhile_imp (show r ∈ railOrder.takeWhile (· != r) from up)
    simp at before

theorem execRailFault_on {s : State} (on : s.module.rails ≠ []) (overheat : Bool) :
    execRailFault overheat s = .next (modModule (resetModule s) fun m => { m with hostError := true }) := by
  simp [execRailFault, on]

/-! ### The boot chain (R517 to R522) -/

/-- Without MODID the chain goes no further. -/
theorem bootAwaits_of_modid {s : State} (b : BootInput) (free : (dieOf s 0).modid.getLsbD 10 = false) : bootAwaits s b = s := by
  rw [bootAwaits, free, Bool.and_false, if_neg Bool.false_ne_true]

/-- What the loader's first steps end with. -/
def firstCode (s : State) (b : BootInput) : Nat :=
  if Config.imageSigned (if s.module.nextImage = [] then b.image else s.module.nextImage) = true then
    if b.memoryOk then (if b.pcie0Ok then 0x05 else 0x85) else 0x83
  else 0x82

theorem firstCode_lt (s : State) (b : BootInput) : firstCode s b < 256 := by
  unfold firstCode
  generalize Config.imageSigned _ = signed
  cases signed <;> cases b.memoryOk <;> cases b.pcie0Ok <;> decide

theorem bootFirst_code (s : State) (b : BootInput) :
    ∃ u detail, bootFirst s b = setBootstat u (firstCode s b) detail ∧ u.dies = s.dies := by
  have empty : s.module.nextImage.isEmpty = true ↔ s.module.nextImage = [] := List.isEmpty_iff
  unfold bootFirst firstCode
  simp only [empty]
  cases Config.imageSigned (if s.module.nextImage = [] then b.image else s.module.nextImage) with
  | false => exact ⟨_, _, rfl, rfl⟩
  | true =>
    simp only [Bool.not_true, Bool.false_eq_true, if_false, if_true]
    cases b.memoryOk with
    | false => exact ⟨_, _, rfl, rfl⟩
    | true =>
      simp only [Bool.not_true, Bool.false_eq_true, if_false, if_true]
      cases b.pcie0Ok with
      | false => exact ⟨_, _, rfl, rfl⟩
      | true => exact ⟨_, _, rfl, rfl⟩

section Boot
variable {s : State} (b : BootInput) (rails : s.module.rails = railOrder) (held : s.module.held = false)
include rails held

/-- The chain's first steps, MODID not written: BOOTSTAT is what they end with. -/
theorem bootChain_first (code : bootCode s ≤ 1) (booted : s.module.booted = false) (free : (dieOf s 0).modid.getLsbD 10 = false) :
    ∃ t, execBootChain b s = .next t ∧ ∀ d < 4, (dieOf t d).bootstat.toNat % 256 = firstCode s b := by
  obtain ⟨u, detail, first, same⟩ := bootFirst_code s b
  refine ⟨setBootstat u (firstCode s b) detail, ?_, fun d inside => code_setBootstat u detail (firstCode_lt s b) inside⟩
  have waits : (dieOf (setBootstat u (firstCode s b) detail) 0).modid.getLsbD 10 = false := by
    rw [modid_setBootstat, dieOf, same]
    exact free
  simp [execBootChain, rails, held, code, booted, first, bootAwaits_of_modid b waits]

/-- The chain's last steps, MODID written. -/
theorem bootChain_last (code : bootCode s = 5) (named : (dieOf s 0).modid.getLsbD 10 = true) :
    execBootChain b s = .next (bootLast s b) := by
  have goes : bootAwaits s b = bootLast s b := if_pos (by rw [code, named]; rfl)
  simp [execBootChain, rails, held, code, goes]

end Boot

/-- The ports of a list, brought up. -/
def raisePorts (l : List Nat) (s : State) : State := l.foldl (fun st p => modPort st p fun x => { x with up := true }) s

theorem up_raisePorts {l : List Nat} {p : Nat} : ∀ s, p ∈ l ∨ (portOf s p).up = true → (portOf (raisePorts l s) p).up = true := by
  induction l with
  | nil => exact fun s up => up.resolve_left List.not_mem_nil
  | cons q rest ih =>
    intro s up
    refine ih _ ?_
    rw [portOf_modPort]
    by_cases same : q = p
    · rw [if_pos same]
      exact .inr rfl
    · rw [if_neg same]
      exact up.imp_left fun inside => (List.mem_cons.mp inside).resolve_left (Ne.symm same)

theorem bootLast_alone (s : State) {b : BootInput} (alone : b.dupPorts = []) :
    bootLast s b = setBootstat (raisePorts (List.range 16) s) 0x07 0 := by
  simp [bootLast, alone, raisePorts]

/-- No port's neighbour has the same MODULE: all come up, and the chain ends with 7. -/
theorem bootLast_ends (s : State) {b : BootInput} (alone : b.dupPorts = []) :
    (∀ d < 4, (dieOf (bootLast s b) d).bootstat.toNat % 256 = 7) ∧ ∀ p < 16, (portOf (bootLast s b) p).up = true := by
  rw [bootLast_alone s alone]
  refine ⟨fun d inside => code_setBootstat _ 0 (by decide) inside, fun p inside => ?_⟩
  rw [setBootstat_frame]
  exact up_raisePorts s (.inl (List.mem_range.mpr inside))

/-! ### MODID (R522) -/

/-- A die whose MODID has been written. -/
def withModid (v : Nat) (x : Die) : Die := { x with modid := BitVec.ofNat 11 (1024 + v % 1024) }

theorem writeModid_locked {s : State} (v : Nat) (locked : (dieOf s 0).modid.getLsbD 10 = true) : writeModid s v = s := if_pos locked

theorem writeModid_free {s : State} (v : Nat) (free : (dieOf s 0).modid.getLsbD 10 = false) :
    writeModid s v = changeDies (withModid v) (List.range 4) s := if_neg (by rw [free]; exact Bool.false_ne_true)

theorem execModidWrite_at {die : Nat} (inside : die < 4) (value : Word) (s : State) :
    execModidWrite die value s = .next (writeModid s value.toNat) := if_neg (Nat.not_le.mpr inside)

/-! ### Writes of a window (R521, R523, R524) -/

theorem execRegisterWrite_at {die off : Nat} (inside : die < 4) (aligned : off % 8 = 0) (value : Word) (s : State) :
    execRegisterWrite die off value s = .next (windowWrite s die off value.toNat .host) := by
  simp [execRegisterWrite, Nat.not_le.mpr inside, aligned]

/-- BOOTSTAT, L2CAP and MBSTAT are read-only. -/
theorem windowWrite_readOnly (s : State) (die v : Nat) (who : Issuer) {off : Nat} (readOnly : off = 8 ∨ off = 0x10 ∨ off = 0x148) :
    windowWrite s die off v who = s := by
  rcases readOnly with rfl | rfl | rfl <;> rfl

/-- A die with a word of MBCMD written. -/
def withCmd (i : Nat) (value : Word) (x : Die) : Die :=
  { x with mbox := { x.mbox with
    cmd := x.mbox.cmd.set i (if i = 0 then BitVec.ofNat 64 (value.toNat % 2 ^ 32) else value) } }

theorem windowWrite_cmd (s : State) (die : Nat) (value : Word) (who : Issuer) {i : Nat} (inside : i < 8) :
    windowWrite s die (0x100 + 8 * i) value.toNat who = modDie s die (withCmd i value) := by
  have index : (0x100 + 8 * i - 0x100) / 8 = i := by omega
  have word : BitVec.ofNat 64 (if (i == 0) = true then value.toNat % 2 ^ 32 else value.toNat) =
      if i = 0 then BitVec.ofNat 64 (value.toNat % 2 ^ 32) else value := by
    by_cases first : i = 0
    · simp only [first, beq_self_eq_true, if_true]
    · simp only [first, beq_iff_eq, if_false, BitVec.ofNat_toNat, BitVec.setWidth_eq]
  have notModid : (0x100 + 8 * i == 0) = false := beq_eq_false_iff_ne.mpr (by omega)
  have isCmd : (decide (0x100 ≤ 0x100 + 8 * i) && decide (0x100 + 8 * i < 0x140)) = true := by
    simp only [Bool.and_eq_true, decide_eq_true_eq]
    omega
  simp only [windowWrite, notModid, isCmd, index, word, Bool.false_eq_true, if_false, if_true]
  rfl

theorem windowWrite_door (s : State) (die v : Nat) (who : Issuer) : windowWrite s die 0x140 v who = writeDoor s die v who := rfl

/-- The doorbell of the next sequence number starts a command, and another one does not, while none runs (R524). -/
theorem pending_writeDoor {s : State} {die : Nat} (v : Nat) (who : Issuer) (idle : (dieOf s die).mbox.pending = none) :
    (dieOf (writeDoor s die v who) die).mbox.pending =
      if BitVec.ofNat 16 v = BitVec.ofNat 16 ((dieOf s die).mbox.stat.toNat % 2 ^ 16 + 1) then some (BitVec.ofNat 16 v, who)
      else none := by
  simp [writeDoor, idle]

/-! ### Notices (R433) -/

theorem takeNotice_lineOnly (s : State) (line quad : Nat) : LineOnly s (takeNotice s line quad) := by
  unfold takeNotice
  split
  · exact (dirRoom_lineOnly ..).trans (modCoh_lineOnly ..)
  · exact LineOnly.refl s

theorem execNoticeAcknowledge_takes {die : Nat} (inside : die < 4) (s : State) :
    ∃ t, execNoticeAcknowledge die s = .next t ∧ LineOnly s t ∧ (dieOf t die).notices = (dieOf s die).notices.drop 1 := by
  cases queue : (dieOf s die).notices with
  | nil => exact ⟨s, by simp [execNoticeAcknowledge, Nat.not_le.mpr inside, queue], LineOnly.refl s, queue⟩
  | cons n rest =>
    refine ⟨modDie (takeNotice s n.1 n.2.2) die fun d => { d with notices := rest },
      by simp [execNoticeAcknowledge, Nat.not_le.mpr inside, queue], (takeNotice_lineOnly s n.1 n.2.2).trans rfl, ?_⟩
    rw [dieOf_modDie_self]
    rfl

/-! ### Accesses of the host (R259, R341) -/

theorem hostLines_lineOnly {s u : State} {h : Option Nat} {pa n : Nat} {write : Bool} (admitted : hostLines s h pa n write = .ok u) :
    LineOnly s u := by
  have step : ∀ (l : List Nat) (st u : State), l.foldl (fun acc i =>
      match acc with
      | .error c => .error c
      | .ok st => lineAccess st h ((pa / 64 + i) * 64) (knownRange st (pa / 64 + i)) write) (.ok st : Except Nat State) = .ok u →
      LineOnly st u := by
    intro l
    induction l with
    | nil => exact fun st u same => by cases same; exact LineOnly.refl st
    | cons i rest ih =>
      intro st u goes
      rw [List.foldl_cons] at goes
      cases access : lineAccess st h ((pa / 64 + i) * 64) (knownRange st (pa / 64 + i)) write with
      | error c =>
        simp only [access] at goes
        have stuck : ∀ l : List Nat, l.foldl (fun acc i =>
            match acc with
            | .error c => .error c
            | .ok st => lineAccess st h ((pa / 64 + i) * 64) (knownRange st (pa / 64 + i)) write) (.error c : Except Nat State) =
            .error c := by
          intro l
          induction l with
          | nil => rfl
          | cons _ _ ih => exact ih
        rw [stuck] at goes
        cases goes
      | ok v =>
        simp only [access] at goes
        exact (lineAccess_lineOnly access).trans (ih v u goes)
  exact step _ s u admitted

theorem logsMet_of_noTxs {s : State} (none : ∀ e ∈ s.wgs, e.2.txs = []) (l n : Nat) : logsMet s l n = [] := by
  unfold logsMet
  split
  · rfl
  · exact List.flatMap_eq_nil_iff.mpr fun e he => by simp [none e he]

/-- A write of the host that the table of its lines admits stores its bytes and no others. -/
theorem hostWrite_stores {s : State} {pa : Nat} {bs : List Byte} (canonical : Memory.wf s.mem = true)
    (noTxs : ∀ e ∈ s.wgs, e.2.txs = []) (admitted : ∃ u, hostLines s (hostHolder s .host) pa bs.length true = .ok u) :
    readBytes (hostWrite s .host pa bs false) (paLoc s pa) bs.length = bs ∧
      ∀ l, l < paLoc s pa ∨ paLoc s pa + bs.length ≤ l →
        Memory.get (hostWrite s .host pa bs false).mem l = Memory.get s.mem l := by
  obtain ⟨u, admitted⟩ := admitted
  have frame : u = { s with coh := u.coh, dies := u.dies } := hostLines_lineOnly admitted
  have place : paLoc u pa = paLoc s pa := by
    rw [frame]
    rfl
  have cells : (hostWrite s .host pa bs false).mem = Memory.setList s.mem (paLoc s pa) bs := by
    have none : logsMet u (paLoc u pa) bs.length = [] := logsMet_of_noTxs (by rw [frame]; exact noTxs) ..
    simp only [hostWrite, admitted, Bool.false_eq_true, if_false]
    rw [storeBytes_mem u _ bs none, place, frame]
  refine ⟨?_, fun l out => ?_⟩
  · rw [readBytes, cells, Memory.getList_setList _ bs canonical]
  · rw [cells, Memory.get_setList_out s.mem bs out]

theorem execHostAccess_write {s : State} {pa : BitVec 52} {data : List Byte} (some : 0 < data.length)
    (here : isRemote s pa.toNat = false) (unreserved : reservedCells s (paLoc s pa.toNat) data.length = false)
    (noWindow : windowOf s pa.toNat = none) :
    execHostAccess .host true pa data.length data false s = .next (hostWrite s .host pa.toNat data false) := by
  have notEmpty : (data.length == 0) = false := beq_eq_false_iff_ne.mpr (Nat.ne_of_gt some)
  have bytes : data.isEmpty = false := by rw [← Bool.not_eq_true, List.isEmpty_iff_length_eq_zero]; omega
  simp [execHostAccess, ssdKnown, here, unreserved, noWindow, List.take_length, bytes, notEmpty]

end Sys2Proof.Machine

namespace Sys2Proof

open Sys2Proof.Machine

/-- Settles O59: power and boot by what BOOTSTAT becomes, the registers by their offsets, a write of the host by its cells. -/
theorem moduleSteps : Obligations.ModuleSteps := by
  unfold Obligations.ModuleSteps
  intro s
  refine ⟨fun off => ⟨⟨_, execPowerUp_ok off, rfl, rfl, rfl, rfl, rfl, rfl⟩, execPowerUp_fails off⟩, ⟨_, rfl, rfl, rfl, rfl⟩,
    fun overheat on => ⟨_, execRailFault_on on overheat, rfl, rfl, rfl, rfl⟩, fun _ => rfl,
    fun b rails held code booted free => ?first, fun b rails held code named alone => ?last, fun image => ?replace,
    fun die value inside => ?modid, fun die off value inside => ?register,
    fun die inside => execNoticeAcknowledge_takes inside s,
    fun pa data size len some here unreserved noWindow canonical noTxs admitted => ?host⟩
  case first =>
    obtain ⟨t, run, ends⟩ := bootChain_first b rails held code booted free
    refine ⟨fun unsigned => ⟨t, run, ?_⟩, fun signed => ⟨fun memory => ⟨t, run, ?_⟩, fun memory pcie => ⟨t, run, ?_⟩,
      fun memory pcie => ⟨t, run, ?_⟩⟩⟩
    · simpa only [firstCode, unsigned, Bool.false_eq_true, if_false] using ends
    · simpa only [firstCode, signed, memory, Bool.false_eq_true, if_true, if_false] using ends
    · simpa only [firstCode, signed, memory, pcie, Bool.false_eq_true, if_true, if_false] using ends
    · simpa only [firstCode, signed, memory, pcie, if_true] using ends
  case last => exact ⟨_, bootChain_last b rails held code named, bootLast_ends s alone⟩
  case replace =>
    refine ⟨fun recovery signed => ⟨_, ?_, rfl⟩, fun refused => ?_⟩
    · show execFirmwareReplacement image s = _
      rw [execFirmwareReplacement, recovery, signed]
      rfl
    · show execFirmwareReplacement image s = _
      rcases refused with recovery | unsigned
      · simp [execFirmwareReplacement, recovery]
      · simp [execFirmwareReplacement, unsigned]
  case modid =>
    have run := execModidWrite_at inside value s
    refine ⟨fun locked => run.trans (congrArg _ (writeModid_locked _ locked)), fun free => ⟨_, run, ?_⟩⟩
    rw [writeModid_free _ free]
    exact ⟨changeDies_frame .., fun d known => by rw [dieOf_changeDies_four _ _ known]; rfl⟩
  case register =>
    refine ⟨fun misaligned => ?_, fun readOnly => ?_, fun i small place full => ?_, fun place idle => ?_⟩
    · show execRegisterWrite die off value s = _
      simp [execRegisterWrite, Nat.not_le.mpr inside, misaligned]
    · have run := execRegisterWrite_at inside (off := off) (by omega) value s
      exact run.trans (congrArg _ (windowWrite_readOnly s die _ _ readOnly))
    · subst place
      refine ⟨_, execRegisterWrite_at inside (by omega) value s, ?_⟩
      rw [windowWrite_cmd s die value _ small, dieOf_modDie_self]
      refine ⟨rfl, ?_⟩
      simp [withCmd, full, small]
    · subst place
      have run := execRegisterWrite_at inside (off := 0x140) (by decide) value s
      have pending := pending_writeDoor value.toNat .host idle
      exact ⟨fun next => ⟨_, run, by rw [windowWrite_door, pending, if_pos next]⟩,
        fun other => ⟨_, run, by rw [windowWrite_door, pending, if_neg other]⟩⟩
  case host =>
    subst len
    exact ⟨_, execHostAccess_write some here unreserved noWindow, hostWrite_stores canonical noTxs admitted⟩

end Sys2Proof
end

section
/-! What a packet sent leaves as it is: all but the fabric (R437 to R446). -/

namespace Sys2Proof.Machine

/-- Only the fabric differs. -/
def FabricOnly (s u : State) : Prop := u = { s with fabric := u.fabric }

theorem FabricOnly.refl (s : State) : FabricOnly s s := rfl

theorem FabricOnly.trans {a b c : State} (h1 : FabricOnly a b) (h2 : FabricOnly b c) : FabricOnly a c := by
  unfold FabricOnly at *
  rw [h2, h1]

theorem FabricOnly.ite {s t u : State} {c : Prop} [Decidable c] (yes : FabricOnly s t) (no : FabricOnly s u) :
    FabricOnly s (if c then t else u) := by
  split
  · exact yes
  · exact no

theorem FabricOnly.foldl {α : Type} {f : State → α → State} (turn : ∀ st a, FabricOnly st (f st a)) (l : List α) (s : State) :
    FabricOnly s (l.foldl f s) :=
  List.foldlRecOn l f (.refl s) fun st before a _ => before.trans (turn st a)

theorem FabricOnly.mem {s t : State} (h : FabricOnly s t) : t.mem = s.mem := by rw [h]
theorem FabricOnly.contexts {s t : State} (h : FabricOnly s t) : t.contexts = s.contexts := by rw [h]
theorem FabricOnly.annex {s t : State} (h : FabricOnly s t) : t.annex = s.annex := by rw [h]

theorem FabricOnly.modPort (s : State) (port : Nat) (f : Port → Port) : FabricOnly s (modPort s port f) := rfl

theorem FabricOnly.setPort (s : State) (port : Nat) (x : Port) : FabricOnly s (setPort s port x) := rfl

theorem FabricOnly.emit (s : State) (p : Packet) : FabricOnly s (emit s p) := rfl

theorem FabricOnly.egress (s : State) (port : Nat) (p : Packet) : FabricOnly s (egress s port p) :=
  .ite (.emit s p) (.ite rfl (.modPort s port _))

theorem FabricOnly.sendFrom (s : State) (port : Nat) (p : Packet) (owner : Owner) (context : Nat) :
    FabricOnly s (sendFrom s port p owner context).1 := (FabricOnly.setPort s port _).trans (.egress ..)

theorem FabricOnly.sendAsk (die : Nat) (owner : Owner) (context range : Nat) (s : State) (run : Nat × Nat) :
    FabricOnly s (sendAsk die owner context range s run) := by
  unfold Machine.sendAsk
  split
  · exact .refl s
  · exact .ite (.refl s) (FabricOnly.trans (.sendFrom s ..) rfl)

theorem FabricOnly.dropAsks (s : State) (owner : Owner) : FabricOnly s (dropAsks s owner) := .ite rfl (.refl s)

theorem FabricOnly.enginePost (s : State) (die flow : Nat) (owner : Owner) (context range pa : Nat) (bs : List Byte)
    (bad : List Bool) (fuel : Nat) : FabricOnly s (enginePost s die flow owner context range pa bs bad fuel) := by
  induction fuel generalizing s pa bs bad with
  | zero => exact .refl s
  | succ f ih => exact .ite (.refl s) (FabricOnly.trans (.sendFrom s ..) (ih ..))

/-- An engine's read of another module that waits has sent its requests. -/
theorem FabricOnly.fetchRemote {s u : State} {die : Nat} {owner : Owner} {context range pa n : Nat}
    (h : fetchRemote s die owner context range pa n = .waits u) : FabricOnly s u := by
  unfold Machine.fetchRemote at h
  dsimp only at h
  split at h
  · split at h <;> cases h
  · cases h
    exact .foldl (fun st run => .sendAsk _ _ _ _ st run) _ s

end Sys2Proof.Machine
end

section
/-! The commands of the management mailbox (R414 to R423, R523 to R527). -/

namespace Sys2Proof.Machine

/-! ### MBSTAT written (R523, R524) -/

theorem mbFinish_frame (s : State) (die : Nat) (seq : BitVec 16) (cause detail : Nat) :
    mbFinish s die seq cause detail =
      { s with dies := (mbFinish s die seq cause detail).dies, module := (mbFinish s die seq cause detail).module } := by
  unfold mbFinish
  dsimp only
  split <;> rfl

section Finish
variable (s : State) (die : Nat) (seq : BitVec 16) (cause detail : Nat)

@[simp] theorem mbFinish_mem : (mbFinish s die seq cause detail).mem = s.mem := by rw [mbFinish_frame]
@[simp] theorem mbFinish_contexts : (mbFinish s die seq cause detail).contexts = s.contexts := by rw [mbFinish_frame]
@[simp] theorem mbFinish_spaces : (mbFinish s die seq cause detail).spaces = s.spaces := by rw [mbFinish_frame]
@[simp] theorem mbFinish_quads : (mbFinish s die seq cause detail).quads = s.quads := by rw [mbFinish_frame]
@[simp] theorem mbFinish_coh : (mbFinish s die seq cause detail).coh = s.coh := by rw [mbFinish_frame]
@[simp] theorem mbFinish_annex : (mbFinish s die seq cause detail).annex = s.annex := by rw [mbFinish_frame]

/-- A die whose command is over. -/
def finished (x : Die) : Die :=
  { x with mbox := { x.mbox with
    stat := BitVec.ofNat 64 (seq.toNat + cause % 256 * 2 ^ 16 + 2 ^ 24 + detail % 2 ^ 32 * 2 ^ 32), pending := none } }

@[simp] theorem dieOf_mbFinish : dieOf (mbFinish s die seq cause detail) die = finished seq cause detail (dieOf s die) := by
  unfold mbFinish
  dsimp only
  split
  · exact dieOf_modDie_self s die (finished seq cause detail)
  · exact dieOf_modDie_self s die (finished seq cause detail)

end Finish

/-- MBSTAT holds the low 32 bits of DETAIL. -/
theorem stat_finished (seq : BitVec 16) {cause detail shown : Nat} (byte : cause < 256) (same : detail % 2 ^ 32 = shown % 2 ^ 32)
    (x : Die) : (finished seq cause detail x).mbox.stat = BitVec.ofNat 64 (seq.toNat + cause * 2 ^ 16 + 2 ^ 24 + shown * 2 ^ 32) := by
  apply BitVec.eq_of_toNat_eq
  simp only [finished, BitVec.toNat_ofNat]
  omega

/-- A command that ends so has replied. -/
theorem replied_of_finish {i : Instr} {s u : State} {die : Nat} {seq : BitVec 16} {cause detail shown : Nat} {p : State → Prop}
    (run : exec i s = .next (mbFinish u die seq cause detail)) (byte : cause < 256) (same : detail % 2 ^ 32 = shown % 2 ^ 32)
    (holds : p (mbFinish u die seq cause detail)) : Replied i s die seq cause shown p := by
  refine ⟨_, run, ?_, ?_, holds⟩
  · rw [dieOf_mbFinish]
    rfl
  · rw [dieOf_mbFinish]
    exact stat_finished seq byte same _

/-! ### A command with legal operands (R523 to R526) -/

/-- How a command ends. -/
def mbOutcome (s : State) (die : Nat) (seq : BitVec 16) (r : MbRes) : State :=
  match r with
  | .done u d => mbFinish u die seq 0 d
  | .refused c d => mbFinish s die seq c.toNat d
  | .later => s

/-- A command that is done. -/
theorem replied_of_done {i : Instr} {s u : State} {die : Nat} {seq : BitVec 16} {detail shown : Nat} {p : State → Prop}
    (run : exec i s = .next (mbOutcome s die seq (.done u detail))) (same : detail % 2 ^ 32 = shown % 2 ^ 32)
    (holds : p (mbFinish u die seq 0 detail)) : Replied i s die seq 0 shown p := replied_of_finish run (by decide) same holds

/-- A command that is refused. -/
theorem replied_of_refused {i : Instr} {s : State} {die : Nat} {seq : BitVec 16} {cause : BitVec 8} {detail shown : Nat}
    {p : State → Prop} (run : exec i s = .next (mbOutcome s die seq (.refused cause detail)))
    (same : detail % 2 ^ 32 = shown % 2 ^ 32) (holds : p (mbFinish s die seq cause.toNat detail)) :
    Replied i s die seq cause.toNat shown p := replied_of_finish run cause.isLt same holds

section Run
variable {s : State} {die : Nat} {seq : BitVec 16} {by_ : Issuer} {opc words data : Nat} {home : Option Nat}

/-- A command that its die runs does what its row says. -/
theorem mbRun_of_commands (runs : Commands s die seq by_ opc home words data) {bad : Bool} (legal : bad = false)
    {act : State → MbRes} {r : MbRes} (acts : act s = r) :
    mbRun die seq by_ opc home words data bad act s = .next (mbOutcome s die seq r) := by
  obtain ⟨die_lt, booted, taken, code, high, at_, words_, data_, own⟩ := runs
  have here : (home.isSome && home != some die) = false := by
    cases home with
    | none => rfl
    | some h => simp [at_ h rfl]
  simp only [mbRun, Nat.not_le.mpr die_lt, taken, booted, code, high, here, legal, words_, data_, own, acts, bne_self_eq_false,
    Bool.not_true, Bool.or_false, Bool.false_eq_true, if_false]
  cases r <;> rfl

/-- A command of an illegal form is refused with ILLEGAL_FIELD. -/
theorem mbRun_illegal (die_lt : die < 4) (booted : s.module.booted = true) (taken : (dieOf s die).mbox.pending = some (seq, by_))
    (code : mbOpc s die = opc) (act : State → MbRes) :
    mbRun die seq by_ opc home words data true act s = .next (mbFinish s die seq cIllegalField.toNat 0) := by
  simp [mbRun, Nat.not_le.mpr die_lt, taken, booted, code]

/-- A command that names a context of its own acts. -/
theorem withContext_own {ctx : Nat} (known : (tget s.contexts ctx).isSome = true) (own : ctx = mbContext s die) (r : MbRes) :
    withContext s die ctx r = r := by
  rw [withContext, if_neg (by simp [Option.isSome_iff_ne_none.mp known]), if_neg (by simp [own])]

theorem physBad_of_legal {a align : Nat} (small : a < 2 ^ 52) (aligned : a % align = 0) : physBad a align = false := by
  simpa [physBad, aligned] using small

theorem ringHdrBad_of_legal {a : Nat} (small : a < 2 ^ 56) (aligned : a % 64 = 0) : ringHdrBad a = false := by
  simpa [ringHdrBad, aligned] using small

end Run

/-! ### CTXNEW, CTXEND, ASSET -/

theorem partsEvent_lineOnly (s : State) (r : Region) (ev : Nat) : LineOnly s (partsEvent s r ev) :=
  List.foldlRecOn (motive := fun t => LineOnly s t) _ _ (LineOnly.refl s) fun _ before _ _ => before.trans (regionEvent_lineOnly ..)

theorem contexts_postImage (s : State) (r : Region) (n : Nat) : (postImage s r n).contexts = s.contexts := by
  refine List.foldlRecOn (motive := fun t : State => t.contexts = s.contexts) _ _ rfl fun st before i _ => ?_
  dsimp only
  split
  · exact (FabricOnly.enginePost ..).contexts.trans before
  · exact before

theorem contexts_freeRegion (s : State) (k : Nat) (r : Region) : (freeRegion s k r).contexts = s.contexts := by
  refine (contexts_postImage ..).trans ?_
  rw [(partsEvent_lineOnly _ _ 12), (partsEvent_lineOnly _ _ 10)]
  rfl

theorem contexts_endContext (s : State) (ctx : Nat) : (endContext s ctx).contexts = tdel s.contexts ctx := by
  refine congrArg (fun c => tdel c ctx) ?_
  refine List.foldlRecOn (motive := fun t : State => t.contexts = s.contexts) _ _ rfl fun st before e _ => ?_
  split
  · exact (contexts_freeRegion ..).trans before
  · exact before

section Commands
variable {s : State} {die : Nat} {seq : BitVec 16} {by_ : Issuer}

/-- The context that CTXNEW describes. -/
def newContext (s : State) (die : Nat) : Context :=
  ⟨BitVec.ofNat 16 (bits (mbCmd s die 1) 27 12), bit (mbCmd s die 1) 28, bit (mbCmd s die 1) 29, mbCmd s die 2, mbCmd s die 3,
    mbCmd s die 4⟩

theorem execCtxnew_runs (runs : Commands s die seq by_ 0x01 (some 0) 5 0) (word : mbCmd s die 1 < 2 ^ 30)
    (named : mbCmd s die 1 % 2 ^ 12 ≠ 0) (base : physBad (mbCmd s die 2) 32 = false)
    (logn : 4 ≤ mbCmd s die 3 ∧ mbCmd s die 3 ≤ 12) (ctl : physBad (mbCmd s die 4) 16 = false) :
    execCtxnew die seq by_ s = .next (mbOutcome s die seq
      (if (tget s.contexts (mbCmd s die 1 % 2 ^ 12)).isSome then mbDenied
       else .done { s with contexts := tset s.contexts (mbCmd s die 1 % 2 ^ 12) (newContext s die) } 0)) := by
  unfold execCtxnew
  refine mbRun_of_commands runs ?_ rfl
  rw [base, ctl]
  simp only [Bool.or_false, Bool.or_eq_false_iff, decide_eq_false_iff_not, beq_eq_false_iff_ne]
  omega

theorem execCtxend_runs (runs : Commands s die seq by_ 0x02 (some 0) 2 0) (own : mbCmd s die 1 = mbContext s die)
    (known : (tget s.contexts (mbContext s die)).isSome = true) :
    execCtxend die seq by_ s = .next (mbOutcome s die seq
      (if contextIdle s (mbContext s die) then .done (endContext s (mbContext s die)) 0 else .later)) := by
  have small : mbContext s die < 2 ^ 12 := Nat.mod_lt _ (by decide)
  unfold execCtxend
  rw [own]
  exact mbRun_of_commands runs (by simpa using small) (withContext_own known rfl _)

theorem execAsset_runs (runs : Commands s die seq by_ 0x03 (some 0) 3 0) (id : mbCmd s die 1 < 2 ^ 16)
    (root : physBad (mbCmd s die 2) (2 ^ 20) = false) :
    execAsset die seq by_ s = .next (mbOutcome s die seq (.done { s with
      spaces := tset s.spaces (mbCmd s die 1) { spaceEntry s (mbCmd s die 1) with root := some (mbCmd s die 2) } } 0)) := by
  unfold execAsset
  refine mbRun_of_commands runs ?_ rfl
  rw [root]
  simpa using id

/-! ### LQREG, LQFREE, FREPLY -/

theorem execLqreg_runs (runs : Commands s die seq by_ 0x04 none 3 0) (number : mbCmd s die 1 < 16)
    (header : physBad (mbCmd s die 2) 64 = false) (home : homeDie (mbCmd s die 2) = die) (here : isRemote s (mbCmd s die 2) = false) :
    execLqreg die seq by_ s = .next (mbOutcome s die seq (.done
      (modDie s die fun d => { d with queues := tset d.queues (mbCmd s die 1) { hdr := mbCmd s die 2, halted := false } }) 0)) := by
  unfold execLqreg
  refine mbRun_of_commands runs ?_ rfl
  rw [header, home, here]
  simpa using number

theorem execLqfree_runs (runs : Commands s die seq by_ 0x05 none 2 0) (number : mbCmd s die 1 < 16) :
    execLqfree die seq by_ s = .next (mbOutcome s die seq (.done
      (modDie s die fun d => { d with queues := tdel d.queues (mbCmd s die 1) }) 0)) := by
  unfold execLqfree
  exact mbRun_of_commands runs (by simpa using number) rfl

/-- FREPLY that does not abandon: the entry that it names is answered, or nothing is parked there. -/
theorem execFreply_runs (runs : Commands s die seq by_ 0x06 none 4 0) (own : mbCmd s die 1 = mbContext s die)
    (known : (tget s.contexts (mbContext s die)).isSome = true) (again : mbCmd s die 3 = 0) :
    execFreply die seq by_ s = .next (mbOutcome s die seq
      (match replyTo s (mbContext s die) (BitVec.ofNat 64 (mbCmd s die 2)) false with
       | some u => .done u 0
       | none => mbIllegal)) := by
  have small : mbContext s die < 2 ^ 12 := Nat.mod_lt _ (by decide)
  unfold execFreply
  rw [own, again]
  exact mbRun_of_commands runs (by simpa using small) (withContext_own known rfl _)

theorem replyTo_run {ctx : Nat} {idx : Word} {q : Nat} {x : CopyRun} (parked : parkedRun s ctx idx = some (q, x)) (abandon : Bool) :
    replyTo s ctx idx abandon = some (replyRun s q x abandon) := by
  rw [replyTo, parked]

theorem replyTo_slip {ctx : Nat} {idx : Word} {q : Nat} {x : Slip} (noRun : parkedRun s ctx idx = none)
    (parked : parkedSlip s ctx idx = some (q, x)) (abandon : Bool) : replyTo s ctx idx abandon = some (replySlip s q x abandon) := by
  rw [replyTo, noRun, parked]

theorem chans_replyRun {q : Nat} {x : CopyRun} {cause : BitVec 8} {sub : BitVec 8} {addr idx : Word}
    (parked : x.st = .parked cause sub addr idx) :
    tgetD (quadOf (replyRun s q x false) q).chans (copyChan x.words) [] =
      (tgetD (quadOf s q).chans (copyChan x.words) []).map fun y =>
        if y.hdr == x.hdr && y.core == x.core && y.k == x.k then { y with st := .running } else y := by
  rw [replyRun, parked]
  dsimp only
  rw [if_neg Bool.false_ne_true, modChan, quadOf_modQuad, if_pos rfl, tgetD_tset_self]

theorem slips_replySlip (q : Nat) (x : Slip) : (quadOf (replySlip s q x false) q).slips =
    (quadOf s q).slips.map fun y =>
      if y.ring == x.ring && y.k == x.k && y.wg == x.wg then { y with st := .queued, step := 0 } else y := by
  rw [replySlip, if_neg Bool.false_ne_true, modSlip, quadOf_modQuad, if_pos rfl]

/-! ### QPBIND, CARDBIND, AXBIND, UNBIND -/

/-- The queue pair that QPBIND describes. -/
def boundPair (s : State) (die : Nat) : QueuePair :=
  ⟨mbContext s die, BitVec.ofNat 32 (mbCmd s die 2), bits (mbCmd s die 2) 41 32 + 1, mbCmd s die 3, BitVec.ofNat 16 (mbCmd s die 4),
    boundRing (mbContext s die) (mbCmd s die 5), []⟩

/-- The queue that AXBIND without windows describes: the guest has been told of the packets up to TAKEN. -/
def bareQueue (s : State) (ctx header : Nat) : AxQueue :=
  { context := ctx, ring := boundRing ctx header, windows := []
    known := BitVec.ofNat 48 (match ringPlaceOf (freshRing s ctx header) (ctxSpace s ctx).1 (ctxSpace s ctx).2 (boundRing ctx header).loc with
      | some (u, p) => hdrTaken u p.loc
      | none => 0) }

section Bind
variable (own : mbCmd s die 1 / 64 = mbContext s die) (known : (tget s.contexts (mbContext s die)).isSome = true)
include own known

theorem execQpbind_runs (runs : Commands s die seq by_ 0x07 none 6 0) (space : mbCmd s die 2 < 2 ^ 42)
    (bound : 1000 ≤ mbCmd s die 3 ∧ mbCmd s die 3 ≤ 60000000) (vector : mbCmd s die 4 < 2 ^ 16)
    (header : ringHdrBad (mbCmd s die 5) = false) (free : tget (dieOf s die).pairs (mbCmd s die 1 % 64) = none) :
    execQpbind die seq by_ s = .next (mbOutcome s die seq (.done
      (modDie (freshRing s (mbContext s die) (mbCmd s die 5)) die fun d =>
        { d with pairs := tset d.pairs (mbCmd s die 1 % 64) (boundPair s die) }) 0)) := by
  have small : mbContext s die < 2 ^ 12 := Nat.mod_lt _ (by decide)
  unfold execQpbind
  refine mbRun_of_commands runs ?_ ?_
  · rw [header]
    simp only [Bool.or_false, Bool.or_eq_false_iff, decide_eq_false_iff_not]
    omega
  · dsimp only
    rw [own, withContext_own known rfl, free]
    rfl

theorem execCardbind_runs (runs : Commands s die seq by_ 0x08 none 3 0) (header : ringHdrBad (mbCmd s die 2) = false)
    (free : tget (dieOf s die).cardRings (mbCmd s die 1 % 64) = none) :
    execCardbind die seq by_ s = .next (mbOutcome s die seq (.done
      (modDie (freshRing s (mbContext s die) (mbCmd s die 2)) die fun d =>
        { d with cardRings := tset d.cardRings (mbCmd s die 1 % 64) ⟨mbContext s die, boundRing (mbContext s die) (mbCmd s die 2)⟩ })
      0)) := by
  have small : mbContext s die < 2 ^ 12 := Nat.mod_lt _ (by decide)
  unfold execCardbind
  refine mbRun_of_commands runs ?_ ?_
  · rw [header]
    simp only [Bool.or_false, decide_eq_false_iff_not]
    omega
  · rw [own, withContext_own known rfl, free]
    rfl

/-- AXBIND without windows. -/
theorem execAxbind_runs (runs : Commands s die seq by_ 0x09 (some 1) 4 0) (header : ringHdrBad (mbCmd s die 2) = false)
    (bare : mbCmd s die 3 = 0) (free : tget s.annex.queues (mbCmd s die 1 % 64) = none) :
    execAxbind die seq by_ s = .next (mbOutcome s die seq (.done
      (modAnnex (freshRing s (mbContext s die) (mbCmd s die 2)) fun a =>
        { a with queues := tset a.queues (mbCmd s die 1 % 64) (bareQueue s (mbContext s die) (mbCmd s die 2)) }) 0)) := by
  have small : mbContext s die < 2 ^ 12 := Nat.mod_lt _ (by decide)
  unfold execAxbind
  simp only [bare]
  refine mbRun_of_commands runs ?_ ?_
  · rw [header]
    simp only [Bool.or_false, Bool.or_eq_false_iff, decide_eq_false_iff_not]
    exact ⟨⟨by omega, by decide⟩, rfl⟩
  · rw [own, withContext_own known rfl, free]
    rfl

end Bind

/-- UNBIND of a queue pair. -/
theorem execUnbind_runs (runs : Commands s die seq by_ 0x0A none 2 0) (word : mbCmd s die 1 < 2 ^ 8) (kind : mbCmd s die 1 % 4 = 0)
    {p : QueuePair} (bound : tget (dieOf s die).pairs (mbCmd s die 1 / 4) = some p) (own : p.context = mbContext s die) :
    execUnbind die seq by_ s = .next (mbOutcome s die seq
      (if ringIdle s p.ring then .done (modDie s die fun d => { d with pairs := tdel d.pairs (mbCmd s die 1 / 4) }) 0 else .later)) := by
  unfold execUnbind
  refine mbRun_of_commands runs ?_ ?_
  · rw [kind]
    simpa using word
  · dsimp only
    rw [kind, bound]
    simp [unbindRing, own]

/-! ### RBIND, TLOAD (R417 to R423) -/

/-- RBIND: the range gets its descriptor, unless the table that it names fails check 4. -/
theorem execRbind_runs (runs : Commands s die seq by_ 0x0B (some 0) 3 0) (range : mbCmd s die 1 < 64) (word : mbCmd s die 2 < 2 ^ 8)
    (reserved : bits (mbCmd s die 2) 5 4 = 0) {t : Table} (table : tableOf s (mbCmd s die 2 % 16) = some t) :
    ∃ u, execRbind die seq by_ s = .next (mbOutcome s die seq
      (match propMismatch t (bit (mbCmd s die 2) 6) with
       | some e => mbReject e (mbCmd s die 1)
       | none => .done (modCoh u fun c => { c with ranges := tset c.ranges (mbCmd s die 1) (BitVec.ofNat 64 (mbCmd s die 2)) }) 0)) := by
  unfold execRbind
  refine ⟨if rangeValid s (mbCmd s die 1) && rangeSlot s (mbCmd s die 1) != mbCmd s die 2 % 16 then flushRange s (mbCmd s die 1) else s,
    mbRun_of_commands runs ?_ ?_⟩
  · rw [reserved]
    simp only [bne_self_eq_false, Bool.or_false, Bool.or_eq_false_iff, decide_eq_false_iff_not]
    omega
  · dsimp only
    rw [table] <;> rfl

/-- TLOAD: the table takes the slot, once the manifest lists its hash and the verifier passes it. -/
theorem execTload_runs (runs : Commands s die seq by_ 0x0C (some 0) 3 0) (slot : 5 ≤ mbCmd s die 1 ∧ mbCmd s die 1 < 16)
    (image : physBad (mbCmd s die 2) 64 = false) (free : slotNamed s (mbCmd s die 1) = false) {img : Table × Bool}
    (read : imageTable (readBytes s (paLoc s (mbCmd s die 2)) 576) = img) :
    execTload die seq by_ s = .next (mbOutcome s die seq
      (if !(Config.manifestHashes s.module.image).contains img.1.hash then mbReject ⟨0, 0, false, 0⟩ 0
       else match verify img.1 img.2 with
         | some r => mbReject r 0
         | none => .done (modCoh s fun c => { c with tables := tset c.tables (mbCmd s die 1) img.1 }) 0)) := by
  unfold execTload
  refine mbRun_of_commands runs ?_ ?_
  · rw [image, free]
    simp only [Bool.or_false, Bool.or_eq_false_iff, decide_eq_false_iff_not]
    omega
  · dsimp only
    rw [read] <;> rfl

/-! ### ATTEST, GRESET and unknown commands -/

/-- The report of ATTEST with its signature. -/
def signedReport (s : State) (die : Nat) : List Byte :=
  reportBody s (readBytes s (mbdataLoc die 0) 32) ++
    fieldBytes 3309 (Config.attestSign (reportBody s (readBytes s (mbdataLoc die 0) 32)))

theorem execAttest_runs (runs : Commands s die seq by_ 0x0D (some 0) 1 32) :
    execAttest die seq by_ s = .next (mbOutcome s die seq
      (.done (writeBytes s (mbdataLoc die 0) (signedReport s die)) (signedReport s die).length)) := by
  unfold execAttest
  exact mbRun_of_commands runs rfl rfl

/-- GRESET of a port that is closed or fenced. -/
theorem execGreset_runs (runs : Commands s die seq by_ 0x0E (some 1) 1 0) (shut : s.annex.st = .closed ∨ s.annex.st = .fenced) :
    execGreset die seq by_ s = .next (mbOutcome s die seq (.done (modAnnex s fun a =>
      { a with st := .closed, queues := [], packets := [], inval := [], granted := [], reads := [], identity := [],
               measurement := [] }) 0)) := by
  have asleep : fence s = s := if_pos (by rcases shut with h | h <;> rw [h] <;> rfl)
  have trained : (s.annex.st == .untrained) = false := by rcases shut with h | h <;> rw [h] <;> rfl
  unfold execGreset
  refine mbRun_of_commands runs rfl ?_
  dsimp only
  rw [asleep, trained]
  rfl

end Commands

end Sys2Proof.Machine

namespace Sys2Proof

open Sys2Proof.Machine

/-- Settles O60, command by command: what its row makes of legal operands, and MBSTAT written. -/
theorem mailboxCommands : Obligations.MailboxCommands := by
  unfold Obligations.MailboxCommands
  intro s die seq by_
  dsimp only
  refine ⟨fun runs word named base aligned least most ctl ctlAligned => ?ctxnew, fun runs own known => ?ctxend,
    fun runs id root aligned => ?asset, fun runs number header aligned home here => ?lqreg, fun runs number => ?lqfree,
    fun runs own known again => ?freply,
    fun runs own small known space least most vector header aligned free => ?qpbind,
    fun runs own small known header aligned free => ?cardbind, fun runs own small known header aligned bare free => ?axbind,
    fun runs word kind p bound own => ?unbind, fun runs range word reserved => ?rbind,
    fun runs least most pa aligned free => ?tload, fun runs canonical => ?attest, fun runs shut => ?greset,
    fun opc unlisted die_lt booted taken code => ?unknown⟩
  case ctxnew =>
    have run := execCtxnew_runs runs word named (physBad_of_legal base aligned) ⟨least, most⟩ (physBad_of_legal ctl ctlAligned)
    refine ⟨fun absent => ?_, fun present => ?_⟩
    · rw [absent] at run
      exact replied_of_done run rfl (by rw [mbFinish_contexts]; exact tget_tset_self ..)
    · rw [present] at run
      exact replied_of_refused run rfl (mbFinish_contexts ..)
  case ctxend =>
    have run := execCtxend_runs runs own known
    refine ⟨fun idle => ?_, fun busy => ?_⟩
    · rw [idle] at run
      exact replied_of_done run rfl (by rw [mbFinish_contexts]; exact contexts_endContext ..)
    · rw [busy] at run
      exact run
  case asset =>
    refine replied_of_done (execAsset_runs runs id (physBad_of_legal root aligned)) rfl ?_
    rw [spaceEntry, mbFinish_spaces]
    exact tgetD_tset_self ..
  case lqreg =>
    refine replied_of_done (execLqreg_runs runs number (physBad_of_legal header aligned) home here) rfl ?_
    rw [dieOf_mbFinish, dieOf_modDie_self]
    exact tget_tset_self ..
  case lqfree =>
    refine replied_of_done (execLqfree_runs runs number) rfl ?_
    rw [dieOf_mbFinish, dieOf_modDie_self]
    rfl
  case freply =>
    have run := execFreply_runs runs own known again
    refine ⟨fun q x cause sub addr idx named parked => ?_, fun noRun q x named => ?_, fun nothing => ?_⟩
    · rw [replyTo_run named] at run
      refine replied_of_done run rfl ?_
      rw [quadOf_of_quads (mbFinish_quads ..)]
      exact chans_replyRun parked
    · rw [replyTo_slip noRun named] at run
      refine replied_of_done run rfl ?_
      rw [quadOf_of_quads (mbFinish_quads ..)]
      exact slips_replySlip q x
    · rw [nothing] at run
      exact replied_of_refused run rfl (mbFinish_quads ..)
  case qpbind =>
    refine replied_of_done (execQpbind_runs own known runs space ⟨least, most⟩ vector (ringHdrBad_of_legal header aligned) free) rfl ?_
    rw [dieOf_mbFinish, dieOf_modDie_self]
    exact tget_tset_self ..
  case cardbind =>
    refine replied_of_done (execCardbind_runs own known runs (ringHdrBad_of_legal header aligned) free) rfl ?_
    rw [dieOf_mbFinish, dieOf_modDie_self]
    exact tget_tset_self ..
  case axbind =>
    refine replied_of_done (execAxbind_runs own known runs (ringHdrBad_of_legal header aligned) bare free) rfl ?_
    rw [mbFinish_annex]
    exact ⟨_, tget_tset_self .., rfl, rfl, rfl⟩
  case unbind =>
    have run := execUnbind_runs runs word kind bound own
    refine ⟨fun idle => ?_, fun busy => ?_⟩
    · rw [idle] at run
      refine replied_of_done run rfl ?_
      rw [dieOf_mbFinish, dieOf_modDie_self]
      rfl
    · rw [busy] at run
      exact run
  case rbind =>
    refine ⟨fun t table fits => ?_, fun t e table misfit => ?_⟩
    · obtain ⟨u, run⟩ := execRbind_runs runs range word reserved table
      rw [fits] at run
      refine replied_of_done run rfl ?_
      rw [rangeDesc, mbFinish_coh]
      show (tgetD (tset u.coh.ranges _ _) _ _).toNat = _
      rw [tgetD_tset_self, BitVec.toNat_ofNat]
      omega
    · obtain ⟨u, run⟩ := execRbind_runs runs range word reserved table
      rw [misfit] at run
      exact replied_of_refused run (Nat.mod_mod ..).symm (mbFinish_coh ..)
  case tload =>
    have run := execTload_runs runs ⟨least, most⟩ (physBad_of_legal pa aligned) free rfl
    refine ⟨fun unlisted => ?_, fun listed => ⟨fun passes => ?_, fun e fails => ?_⟩⟩
    · rw [unlisted] at run
      exact replied_of_refused run rfl (mbFinish_coh ..)
    · rw [listed, passes] at run
      refine replied_of_done run rfl ?_
      rw [mbFinish_coh]
      exact tget_tset_self ..
    · rw [listed, fails] at run
      exact replied_of_refused run (Nat.mod_mod ..).symm (mbFinish_coh ..)
  case attest =>
    refine replied_of_done (execAttest_runs runs) (Nat.mod_mod ..).symm ?_
    rw [readBytes, mbFinish_mem]
    exact readBytes_writeBytes _ _ canonical
  case greset =>
    refine replied_of_done (execGreset_runs runs shut) rfl ?_
    rw [mbFinish_annex]
    exact ⟨rfl, rfl, rfl, rfl⟩
  case unknown =>
    refine replied_of_finish ?_ cIllegalField.isLt rfl ⟨mbFinish_mem .., mbFinish_contexts ..⟩
    show execUnknownMailboxCommand die seq by_ s = _
    rw [execUnknownMailboxCommand, if_pos (by rw [code]; simpa using unlisted)]
    exact mbRun_illegal die_lt booted taken rfl _

end Sys2Proof
end

section
/-! What leaves the annex port as it is: stores, reports, lines, translations, and the accesses of engines (R32, R252, R419, R438). -/

namespace Sys2Proof.Machine

theorem LaneOnly.annex {s t : State} (h : LaneOnly s t) : t.annex = s.annex := by rw [h]
theorem LineOnly.annex {s t : State} (h : LineOnly s t) : t.annex = s.annex := by rw [h]
theorem XlatOnly.annex {s t : State} (h : XlatOnly s t) : t.annex = s.annex := by rw [h]

theorem annex_foldl {α : Type} {f : State → α → State} (turn : ∀ st a, (f st a).annex = st.annex) (l : List α) (s : State) :
    (l.foldl f s).annex = s.annex :=
  List.foldlRecOn (motive := fun t => t.annex = s.annex) l f rfl fun st before a _ => (turn st a).trans before

@[simp] theorem annex_reportNote (s : State) (ctx : Nat) (n : EngineNote) : (reportNote s ctx n).annex = s.annex :=
  (LaneOnly.reportNote s ctx n).annex

/-! ### Stores and decrements -/

@[simp] theorem annex_storeBytes (s : State) (l : Nat) (bs : List Byte) : (storeBytes s l bs).annex = s.annex := by
  unfold storeBytes noteStore
  rw [foldl_sendDec_frame]
  exact (LaneOnly.trans (.writeBytes s l bs) (.foldl (fun st x => .txAbort st ..) _ _)).annex

@[simp] theorem annex_addPoison (s : State) (sec : Nat) : (addPoison s sec).annex = s.annex := by
  unfold addPoison
  split <;> rfl

theorem annex_spreadPoison (s : State) (l : Nat) (bad : List Bool) : (spreadPoison s l bad).annex = s.annex :=
  annex_foldl (fun st i => by split; exacts [annex_addPoison .., rfl]) _ s

theorem annex_applySet (s : State) (quad k : Nat) (v : BitVec 16) (i : Nat) : (applySet s quad k v i).annex = s.annex := by
  unfold applySet
  dsimp only
  split
  · split
    · exact (LaneOnly.wakeThread ..).annex
    · rfl
  · rfl

theorem annex_drainMsgs (s : State) (quad : Nat) : (drainMsgs s quad).annex = s.annex := by
  refine (annex_foldl (fun st m => ?_) _ _).trans rfl
  cases m with
  | dec k => rfl
  | set k v i => exact annex_applySet ..

@[simp] theorem annex_sendDecIf (s : State) (valid : Bool) (ref : Nat) : (sendDecIf s valid ref).annex = s.annex := by
  unfold sendDecIf
  split
  · exact annex_drainMsgs ..
  · rfl

/-! ### Ring headers (R29 to R32) -/

@[simp] theorem annex_putHead (s : State) (w : Writer) (p : Place) (off v : Nat) : (putHead s w p off v).annex = s.annex := by
  unfold putHead
  dsimp only
  split
  · exact (FabricOnly.enginePost ..).annex
  · split
    · rfl
    · next s1 lines => exact (annex_storeBytes ..).trans (engineLines_lineOnly lines).annex

theorem annex_completeEntry (s : State) (w : Writer) (p : Place) (r : Ring) (k : Nat) :
    (completeEntry s w p r k).1.annex = s.annex := by
  rw [completeEntry]
  dsimp only
  generalize frontier _ _ _ = front
  split
  · rfl
  · exact annex_putHead ..

theorem annex_ringPlaceOf {s u : State} {asid : Nat} {priv : Bool} {loc : RingLoc} {p : Place}
    (h : ringPlaceOf s asid priv loc = some (u, p)) : u.annex = s.annex := by
  unfold ringPlaceOf at h
  split at h
  · cases h; rfl
  · split at h
    · next place =>
      split at h
      · cases h
      · cases h
        exact (placeOf_xlatOnly place).annex
    · cases h

theorem annex_learnHead (s : State) (l : Nat) (bs : List Byte) : (learnHead s l bs).annex = s.annex := by
  unfold learnHead
  split <;> rfl

/-- The state that an engine has when it has looked at a header. -/
def Head.after (h : Head) : Option State :=
  match h with
  | .none => Option.none
  | .waits u | .idle u | .bad u _ | .due u _ => some u

theorem annex_freshHead {s u : State} {v : Server} {loc : RingLoc} (h : (freshHead s v loc).after = some u) :
    u.annex = s.annex := by
  unfold freshHead at h
  split at h
  · cases h
  · next s1 p place =>
    refine Eq.trans ?_ (annex_ringPlaceOf place)
    split at h
    · split at h
      · obtain rfl := Option.some.inj h
        exact (FabricOnly.dropAsks ..).annex
      · next s2 asked =>
        obtain rfl := Option.some.inj h
        exact (FabricOnly.fetchRemote asked).annex
      · obtain rfl := Option.some.inj h
        exact annex_learnHead ..
    · obtain rfl := Option.some.inj h
      rfl

/-! ### Spans (R251, R253, R258) -/

theorem annex_pagedSpans {s u : State} {p : Party} {space : Space} {acc : Acc} {ea n fuel : Nat} {xs : List Span}
    (h : pagedSpans s p space acc ea n fuel = .ok (u, xs)) : u.annex = s.annex := by
  induction fuel generalizing s ea n xs with
  | zero => cases h; rfl
  | succ f ih =>
    rw [pagedSpans] at h
    dsimp only at h
    split at h
    · cases h; rfl
    · split at h
      · cases h
      · next s1 pl place =>
        split at h
        · cases h
        · split at h
          · cases h
          · split at h
            · cases h
            · next s2 rest spans =>
              cases h
              rw [ih spans, (placeOf_xlatOnly place).annex]

theorem annex_writeSpan {s u : State} {w : Writer} {x : Span} {bs : List Byte} {bad : List Bool} (engine : ∀ i, w.owner ≠ .thread i)
    (h : writeSpan s w x bs bad = .ok u) : u.annex = s.annex := by
  unfold writeSpan at h
  split at h
  · split at h
    · next i owner => exact absurd owner (engine i)
    · cases h
      exact (FabricOnly.enginePost ..).annex
  · split at h
    · cases h
    · next s1 lines =>
      cases h
      exact ((annex_spreadPoison ..).trans (annex_storeBytes ..)).trans (engineLines_lineOnly lines).annex

theorem annex_writeSpans {s u : State} {w : Writer} {xs : List Span} {bs : List Byte} {bad : List Bool}
    (engine : ∀ i, w.owner ≠ .thread i) (h : writeSpans s w xs bs bad = .ok u) : u.annex = s.annex := by
  unfold writeSpans at h
  refine List.foldlRecOn (motive := fun acc : Except EngFault State × List Byte × List Bool => ∀ u, acc.1 = .ok u → u.annex = s.annex)
    xs _ (fun u e => by cases e; rfl) (fun acc before x _ u e => ?_) u h
  split at e
  · cases e
  · next st b p => exact (annex_writeSpan engine e).trans (before st rfl)

theorem annex_putRecord {s t : State} {v : Server} {w : Writer} {p : Place} {k : Nat} {ws : List Word}
    (engine : ∀ i, w.owner ≠ .thread i) (h : putRecord s v w p k ws = some t) : t.annex = s.annex := by
  unfold putRecord at h
  dsimp only at h
  split at h
  · split at h
    · cases h
    · cases h
      exact annex_reportNote ..
  · next s1 xs spans =>
    split at h
    · next s2 written =>
      cases h
      exact (annex_writeSpans engine written).trans (annex_pagedSpans spans)
    · cases h
      exact annex_reportNote ..

/-- The state that an engine's access leaves: what it has read, or what it waits in. -/
def stateReached {α : Type} (r : Except EngStop (State × α)) : Option State :=
  match r with
  | .ok (u, _) => some u
  | .error (.waits u) => some u
  | .error (.fault _) => none

theorem stateReached_error {α β : Type} (e : EngStop) :
    stateReached (.error e : Except EngStop (State × α)) = stateReached (.error e : Except EngStop (State × β)) := by
  cases e <;> rfl

theorem annex_readSpan {s u : State} {w : Writer} {x : Span} (h : stateReached (readSpan s w x) = some u) : u.annex = s.annex := by
  unfold readSpan at h
  split at h
  · split at h
    · cases h; rfl
    · cases h
    · next asked =>
      cases h
      exact (FabricOnly.fetchRemote asked).annex
  · split at h
    · cases h
    · next s1 lines =>
      cases h
      exact (engineLines_lineOnly lines).annex

theorem annex_readSpans {s u : State} {w : Writer} {xs : List Span} (h : stateReached (readSpans s w xs) = some u) :
    u.annex = s.annex := by
  unfold readSpans at h
  split at h
  · refine List.foldlRecOn
      (motive := fun r : Except EngStop (State × List Byte × List Bool) => ∀ u, stateReached r = some u → u.annex = s.annex)
      xs _ (fun u e => by cases e; rfl) (fun r before x _ u e => ?_) u h
    split at e
    · exact before u e
    · next s1 bs ps =>
      refine Eq.trans (annex_readSpan (s := s1) (w := w) (x := x) ?_) (before s1 rfl)
      split at e
      · next stop read => rw [read]; exact e
      · next s2 b2 p2 read => rw [read]; exact e
  · cases h
    refine (FabricOnly.foldl (fun st x => ?_) xs s).annex
    exact .ite (.foldl (fun v run => .sendAsk _ _ _ _ v run) _ st) (.refl st)

theorem annex_ringEntry {s u : State} {v : Server} {loc : RingLoc} {p : Place} {k : Nat}
    (h : stateReached (ringEntry s v loc p k) = some u) : u.annex = s.annex := by
  unfold ringEntry at h
  dsimp only at h
  split at h
  · cases h; rfl
  · split at h
    · cases h
    · next s1 xs spans =>
      refine Eq.trans (annex_readSpans (s := s1) (w := v.w) (xs := xs) ?_) (annex_pagedSpans spans)
      split at h
      · next stop read => rw [read, ← h]; exact stateReached_error stop
      · next s2 bs ps read => rw [read]; exact h

end Sys2Proof.Machine
end

section
/-! The annex port: its queues, packets, completions and translations, and its fence (R484 to R494). -/

namespace Sys2Proof.Machine

/-! ### Queues and packets -/

theorem axQueue_of_annex {s t : State} (same : t.annex = s.annex) (n : Nat) : axQueue t n = axQueue s n := by
  rw [axQueue, same, axQueue]

theorem modAxQueue_bound {s : State} {n : Nat} {q : AxQueue} (bound : axQueue s n = some q) (f : AxQueue → AxQueue) :
    modAxQueue s n f = modAnnex s fun a => { a with queues := tset a.queues n (f q) } := by
  rw [modAxQueue, bound]

theorem axQueue_modAxQueue {s : State} {n : Nat} {q : AxQueue} (bound : axQueue s n = some q) (f : AxQueue → AxQueue) :
    axQueue (modAxQueue s n f) n = some (f q) := by
  rw [modAxQueue_bound bound]
  exact tget_tset_self ..

/-- Only what the annex port holds differs. -/
theorem modAxQueue_frame (s : State) (n : Nat) (f : AxQueue → AxQueue) :
    modAxQueue s n f = { s with annex := { s.annex with queues := (modAxQueue s n f).annex.queues } } := by
  unfold modAxQueue
  split <;> rfl

theorem find_modPacket (s : State) (n k : Nat) {f : AxPacket → AxPacket} (same : ∀ y, (f y).queue = y.queue ∧ (f y).k = y.k) :
    (modPacket s n k f).annex.packets.find? (fun y => y.queue == n && y.k == k) =
      (s.annex.packets.find? fun y => y.queue == n && y.k == k).map f := by
  have named : ∀ y : AxPacket, (if y.queue == n && y.k == k then f y else y).queue = y.queue ∧
      (if y.queue == n && y.k == k then f y else y).k = y.k := fun y => by
    split
    · exact same y
    · exact ⟨rfl, rfl⟩
  show (s.annex.packets.map _).find? _ = _
  rw [List.find?_map]
  have alike : ((fun y : AxPacket => y.queue == n && y.k == k) ∘ fun y => if y.queue == n && y.k == k then f y else y) =
      fun y => y.queue == n && y.k == k := by
    funext y
    rw [Function.comp_apply, (named y).1, (named y).2]
  rw [alike]
  cases found : s.annex.packets.find? fun y => y.queue == n && y.k == k with
  | none => rfl
  | some x => exact congrArg some (if_pos (List.find?_some found))

/-! ### A fence (R494) -/

/-- What a fence has done to the port stands: its state and the translations that it has granted. -/
structure PortStands (s t : State) : Prop where
  st : t.annex.st = s.annex.st
  granted : t.annex.granted = s.annex.granted

theorem PortStands.of_annex {s t : State} (same : t.annex = s.annex) : PortStands s t := by
  constructor <;> rw [same]

theorem PortStands.refl (s : State) : PortStands s s := ⟨rfl, rfl⟩

theorem PortStands.trans {a b c : State} (h1 : PortStands a b) (h2 : PortStands b c) : PortStands a c :=
  ⟨h2.st.trans h1.st, h2.granted.trans h1.granted⟩

theorem PortStands.ite {s t u : State} {c : Prop} [Decidable c] (yes : PortStands s t) (no : PortStands s u) :
    PortStands s (if c then t else u) := by
  split
  · exact yes
  · exact no

theorem PortStands.foldl {α : Type} {f : State → α → State} (turn : ∀ st a, PortStands st (f st a)) (l : List α) (s : State) :
    PortStands s (l.foldl f s) :=
  List.foldlRecOn l f (.refl s) fun st before a _ => before.trans (turn st a)

theorem PortStands.modAxQueue (s : State) (n : Nat) (f : AxQueue → AxQueue) : PortStands s (modAxQueue s n f) := by
  rw [modAxQueue_frame]
  exact ⟨rfl, rfl⟩

theorem PortStands.modPacket (s : State) (n k : Nat) (f : AxPacket → AxPacket) : PortStands s (modPacket s n k f) := ⟨rfl, rfl⟩

theorem annex_axFinish_packets (s : State) (n k : Nat) (q : AxQueue) (p : Place) (ws : List Word) :
    PortStands s (axFinish s n k q p ws) ∧
    (axFinish s n k q p ws).annex.packets = s.annex.packets.filter fun x => !(x.queue == n && x.k == k) := by
  unfold axFinish
  dsimp only
  generalize freed : modAnnex s _ = s1
  have kept : (completeEntry (sendDecIf s1 (axCv ws) (axTask ws)) (axServer s q).w p q.ring k).1.annex = s1.annex :=
    (annex_completeEntry ..).trans (annex_sendDecIf ..)
  refine ⟨.trans ?_ (.modAxQueue ..), ?_⟩
  · refine .trans ?_ (.of_annex kept)
    subst freed
    exact ⟨rfl, rfl⟩
  · rw [modAxQueue_frame, kept]
    subst freed
    rfl

theorem PortStands.settleJob {s : State} {owner : Owner} {st : JobState} {record : State → List Word → Option State}
    {mark : State → State} {finish : State → List Word → State} (recorded : ∀ ws u, record s ws = some u → PortStands s u)
    (marked : ∀ u, PortStands u (mark u)) (ended : ∀ u ws, PortStands u (finish u ws)) :
    PortStands s (settleJob s owner st record mark finish) := by
  unfold Machine.settleJob
  split
  · refine .ite (.refl s) (.ite (ended ..) ?_)
    split
    · exact .refl s
    · next u written => exact (recorded _ u written).trans (.ite (marked u) (ended ..))
  · exact .refl s

/-- The port writes a packet's record as an engine. -/
theorem axWriter_engine (ctx n k : Nat) (i : Nat) : (axWriter ctx (.packet n k)).owner ≠ .thread i := by simp [axWriter]

theorem PortStands.axSettle (s : State) (n k : Nat) : PortStands s (axSettle s n k) := by
  unfold Machine.axSettle
  split
  · dsimp only
    split
    · exact .refl s
    · next s1 p place =>
      refine .ite (.refl s) (.trans (.of_annex (annex_ringPlaceOf place)) (.settleJob (fun ws u written => ?_)
        (fun u => .modPacket ..) fun u ws => (annex_axFinish_packets ..).1))
      exact .of_annex (annex_putRecord (axWriter_engine _ _ _) written)
  · exact .refl s

theorem PortStands.axDone (s : State) (n k : Nat) (ws : List Word) (status cause gsub gdw behind : Nat) :
    PortStands s (axDone s n k ws status cause gsub gdw behind) :=
  let st : JobState := .ending false (axOutcome k status cause gsub gdw)
  have entered : PortStands s (if axHeld s n k then Machine.modPacket s n k fun p => { p with st, behind }
      else modAnnex s fun a =>
        { a with packets := a.packets ++ [{ queue := n, k, words := ws, parked := false, since := s.clock, st, behind }] }) :=
    .ite (.modPacket ..) ⟨rfl, rfl⟩
  entered.trans (.axSettle ..)

theorem PortStands.fenceQueue (s : State) (n : Nat) : PortStands s (fenceQueue s n) := by
  have looked : ∀ {v loc u}, (freshHead s v loc).after = some u → PortStands s u := fun h => .of_annex (annex_freshHead h)
  unfold Machine.fenceQueue
  split
  · exact .refl s
  · next q bound =>
    dsimp only
    split
    case h_1 s1 p head =>
      have due : PortStands s s1 := looked (by rw [head]; rfl)
      refine .trans (.trans (.trans (due.trans (.of_annex (FabricOnly.dropAsks ..).annex)) (.foldl (fun st i => ?_) _ _))
        (.of_annex (annex_putHead ..))) (.modAxQueue ..)
      split
      · exact .refl st
      · refine .ite (.refl st) ?_
        split
        · split
          · exact .refl st
          · exact .axDone ..
        · split
          · next u ws entry => exact .trans (.of_annex (annex_ringEntry (by rw [entry]; rfl))) (.axDone ..)
          · next u entry => exact .of_annex (annex_ringEntry (by rw [entry]; rfl))
          · exact .axDone ..
    case h_2 u head => exact looked (by rw [head]; rfl)
    case h_3 u head => exact looked (by rw [head]; rfl)
    case h_4 => exact .refl s
    case h_5 => exact .refl s

theorem PortStands.settleGuestLine (s : State) (line : Nat) : PortStands s (settleGuestLine s line) := by
  unfold Machine.settleGuestLine
  dsimp only
  refine .ite (.of_annex rfl) (.ite (.of_annex ?_) (.of_annex rfl))
  rw [annex_addPoison, annex_addPoison]
  rfl

/-- The port at the start of a fence. -/
def shutPort (s : State) : State := modAnnex s fun a => { a with st := .fenced, inval := [], granted := [] }

/-- A fence of an open port. -/
theorem fence_shuts {s : State} (open_ : s.annex.st = .opened) : (fence s).annex.st = .fenced ∧ (fence s).annex.granted = [] := by
  have awake : ¬ (s.annex.st != .opened) = true := by rw [open_]; decide
  have stands : PortStands (shutPort s) (fence s) := by
    rw [fence, if_neg awake]
    refine .trans (.trans (.foldl (fun st l => .settleGuestLine st l) _ _) (.foldl (fun st n => .fenceQueue st n) _ _))
      (.foldl (fun st c => .of_annex ?_) _ _)
    exact annex_reportNote ..
  exact ⟨stands.st, stands.granted⟩

/-! ### ANNEX_RING_READ (R31, R488) -/

section RingRead
variable {s s1 : State} {n : Nat} {q : AxQueue} {p : Place} (inside : n < 64) (sound : q.ring.faulted = false)
  (bound : axQueue (axSettleAll s n) n = some q)
  (head : freshHead (axSettleAll s n) (axServer (axSettleAll s n) q) q.ring.loc = .due s1 p)
  (fresh : hdrPub s1 p.loc ≠ q.known.toNat)
include inside sound bound head fresh

theorem execAnnexRingRead_overrun (past : overrun s1 p.loc = true) : execAnnexRingRead n s =
    .next (axOverrun (dropAsks s1 (axServer (axSettleAll s n) q).w.owner) n q) := by
  simp [execAnnexRingRead, Nat.not_le.mpr inside, bound, sound, head, fresh, past]

theorem execAnnexRingRead_opened (fits : overrun s1 p.loc = false) (open_ : s1.annex.st = .opened) : execAnnexRingRead n s =
    .next (readAnnex s1 n q (axServer (axSettleAll s n) q) p) := by
  simp [execAnnexRingRead, Nat.not_le.mpr inside, bound, sound, head, fresh, fits, open_]

end RingRead

theorem axOverrun_faults {s : State} {n : Nat} {q : AxQueue} (bound : axQueue s n = some q) :
    ∃ y, axQueue (axOverrun s n q) n = some y ∧ y.ring.faulted = true := by
  refine ⟨{ q with ring := { q.ring with faulted := true } }, ?_, rfl⟩
  rw [axOverrun, axQueue_of_annex (annex_reportNote ..), axQueue_modAxQueue bound]

/-- A packet that the port does not complete itself is signalled. -/
theorem readAnnex_signals {s u : State} {n : Nat} {q : AxQueue} {v : Server} {p : Place} {ws : List Word}
    (bound : axQueue s n = some q) (entry : ringEntry s v q.ring.loc p ((q.known.toNat + 1) % 2 ^ 48) = .ok (u, ws))
    (good : axBad ws = false) :
    let k := (q.known.toNat + 1) % 2 ^ 48
    let t := readAnnex s n q v p
    t.mem = u.mem ∧ t.annex.out = s.annex.out ++ [.doorbell n (BitVec.ofNat 48 k)] ∧
      axQueue t n = some { q with known := BitVec.ofNat 48 k } := by
  have same : (dropAsks u v.w.owner).annex = s.annex := (FabricOnly.dropAsks ..).annex.trans (annex_ringEntry (by rw [entry]; rfl))
  rw [← axQueue_of_annex same] at bound
  dsimp only
  rw [readAnnex]
  simp only [entry, good, Bool.false_eq_true, if_false]
  rw [modAxQueue_bound bound]
  refine ⟨(FabricOnly.dropAsks u v.w.owner).mem, ?_, tget_tset_self ..⟩
  rw [← same]
  rfl

theorem readAnnex_waits {s u : State} {n : Nat} {q : AxQueue} {v : Server} {p : Place}
    (entry : ringEntry s v q.ring.loc p ((q.known.toNat + 1) % 2 ^ 48) = .error (.waits u)) : readAnnex s n q v p = u := by
  rw [readAnnex]
  simp only [entry]

/-! ### GUEST_PACKET_FETCH (R32, R488) -/

/-- A count written to a cell. -/
theorem count_written {s : State} {l v : Nat} (canonical : Memory.wf s.mem = true) (small : v < 2 ^ 48) :
    readWord (writeBytes s l (leBytes 8 (v % 2 ^ 48))) l % 2 ^ 48 = v := by
  have read := readWord_writeWord (s := s) l (v % 2 ^ 48) canonical
  rw [writeWord, writeNat] at read
  rw [read]
  omega

/-- TAKEN as the engine that writes it then finds it. -/
theorem hdrTaken_putTaken {s : State} {w : Writer} {p : Place} {v : Nat} (canonical : Memory.wf s.mem = true) (small : v < 2 ^ 48)
    (noLog : logsMet s (p.loc + 8) 8 = []) (admitted : p.remote = true ∨ ∃ u, engineLines s p 24 true = .ok u) :
    hdrTaken (putTaken s w p v) p.loc = v := by
  rw [hdrTaken, putTaken, putHead]
  by_cases far : p.remote = true
  · rw [if_pos far, readWord, readNat, readBytes, (FabricOnly.enginePost ..).mem]
    exact count_written canonical small
  · obtain ⟨u, lines⟩ := admitted.resolve_left far
    have frame : u = { s with coh := u.coh, dies := u.dies } := engineLines_lineOnly lines
    have length : (leBytes 8 (v % 2 ^ 48)).length = 8 := by simp [leBytes]
    have noLog : logsMet u (p.loc + 8) (leBytes 8 (v % 2 ^ 48)).length = [] := by
      rw [length, frame]
      exact noLog
    rw [if_neg far, lines]
    dsimp only
    rw [readWord, readNat, readBytes, storeBytes_mem u _ _ noLog, frame]
    exact count_written canonical small

section Fetch
variable {s s1 : State} {n : Nat} {q : AxQueue} {p : Place} (inside : n < 64) (open_ : s.annex.st = .opened)
  (bound : axQueue s n = some q)
include inside open_ bound

theorem execGuestPacketFetch_faulted (faulted : q.ring.faulted = true) : execGuestPacketFetch n s = .next s := by
  simp [execGuestPacketFetch, Nat.not_le.mpr inside, open_, bound, faulted]

/-- The guest takes the packet: TAKEN follows, and the port holds it. -/
theorem execGuestPacketFetch_takes {s2 : State} {k : Nat} {ws : List Word} (sound : q.ring.faulted = false)
    (place : ringPlaceOf s (axServer s q).asid (axServer s q).priv q.ring.loc = some (s1, p))
    (next : axNext s1 n q p.loc (hdrTaken s1 p.loc) q.known.toNat 4097 = some k) (small : k < 2 ^ 48)
    (entry : ringEntry s1 (axServer s q) q.ring.loc p k = .ok (s2, ws)) (canonical : Memory.wf s2.mem = true)
    (noLog : logsMet s2 (p.loc + 8) 8 = [])
    (admitted : p.remote = true ∨ ∃ y, engineLines (dropAsks s2 (axServer s q).w.owner) p 24 true = .ok y) :
    ∃ t, execGuestPacketFetch n s = .next t ∧ hdrTaken t p.loc = k ∧ t.annex.out = s.annex.out ++ [.packet n k ws] ∧
      t.annex.packets = s.annex.packets ++ [{ queue := n, k, words := ws, parked := false, since := s.clock }] := by
  generalize freed : dropAsks s2 (axServer s q).w.owner = s3 at admitted
  have frame : FabricOnly s2 s3 := freed ▸ FabricOnly.dropAsks ..
  have same : (putTaken s3 (axServer s q).w p k).annex = s.annex :=
    (annex_putHead ..).trans (frame.annex.trans ((annex_ringEntry (by rw [entry]; rfl)).trans (annex_ringPlaceOf place)))
  refine ⟨modAnnex (putTaken s3 (axServer s q).w p k) fun a =>
    { a with packets := a.packets ++ [{ queue := n, k, words := ws, parked := false, since := s.clock }]
             out := a.out ++ [.packet n k ws] }, ?_, ?_, ?_, ?_⟩
  · subst freed
    simp [execGuestPacketFetch, Nat.not_le.mpr inside, open_, bound, sound, place, next, entry]
  · have taken : hdrTaken (putTaken s3 (axServer s q).w p k) p.loc = k :=
      hdrTaken_putTaken (by rw [frame.mem]; exact canonical) small (by rw [frame]; exact noLog) admitted
    exact taken
  · rw [← same]
    rfl
  · rw [← same]
    rfl

end Fetch

/-! ### COMPLETE (R487, R492, R494) -/

/-- A packet whose outcome is known. -/
def withOutcome (ws : List Word) (behind : Nat) (y : AxPacket) : AxPacket := { y with st := .ending false ws, behind }

/-- A packet of the port whose guest writes are out waits for them. -/
theorem axSettle_behind {s : State} {n k : Nat} {q : AxQueue} {x : AxPacket} (bound : axQueue s n = some q)
    (found : s.annex.packets.find? (fun y => y.queue == n && y.k == k) = some x)
    (out : guestWritesOut s (some x.behind) = true) : axSettle s n k = s := by
  unfold axSettle
  simp only [bound, found]
  split
  · rfl
  · exact if_pos out

/-- Once they have performed, the record is written and the packet ends. -/
theorem axSettle_ends {s u w : State} {n k : Nat} {q : AxQueue} {x : AxPacket} {p : Place} {ws : List Word}
    (bound : axQueue s n = some q) (found : s.annex.packets.find? (fun y => y.queue == n && y.k == k) = some x)
    (st : x.st = .ending false ws) (performed : guestWritesOut s (some x.behind) = false)
    (place : ringPlaceOf s (axServer s q).asid (axServer s q).priv q.ring.loc = some (u, p))
    (quiet : inFlight u (.packet n k) = false)
    (record : putRecord u (axServer s q) (axWriter q.context (.packet n k)) p k ws = some w)
    (acked : inFlight w (.packet n k) = false) : axSettle s n k = axFinish w n k q p x.words := by
  unfold axSettle
  simp [bound, found, place, performed, settleJob, st, quiet, record, acked]

/-- A packet of the port gets its outcome. -/
theorem axDone_held {s : State} {n k : Nat} (held : axHeld s n k = true) (words : List Word) (status cause gsub gdw behind : Nat) :
    axDone s n k words status cause gsub gdw behind =
      axSettle (modPacket s n k (withOutcome (axOutcome k status cause gsub gdw) behind)) n k := by
  rw [axDone, if_pos held]
  rfl

/-- A packet of the port with its outcome is found under its queue and number. -/
theorem found_withOutcome {s : State} {n k : Nat} (held : axHeld s n k = true) (ws : List Word) (behind : Nat) :
    ∃ z, (modPacket s n k (withOutcome ws behind)).annex.packets.find? (fun y => y.queue == n && y.k == k) = some z ∧
      z.st = .ending false ws ∧ z.behind = behind := by
  obtain ⟨y, found⟩ := Option.isSome_iff_exists.mp ((List.find?_isSome).mpr (List.any_eq_true.mp held))
  refine ⟨withOutcome ws behind y, ?_, rfl, rfl⟩
  rw [find_modPacket s n k (f := withOutcome ws behind) fun _ => ⟨rfl, rfl⟩, found, Option.map_some]

section Complete
variable {s : State} {n : Nat} {q : AxQueue} {x : AxPacket} {status cause : BitVec 8} {gsub : BitVec 16} {gdw : BitVec 32}
  {entry : BitVec 48} (open_ : s.annex.st = .opened)
include open_

/-- A STATUS that R487 does not allow is a breach. -/
theorem execComplete_breach (bad : axStatusOk status.toNat cause.toNat = false) :
    execComplete n entry status cause gsub gdw false s = .next (fence s) := by
  simp [execComplete, open_, bad]

variable (ok : axStatusOk status.toNat cause.toNat = true) (bound : axQueue s n = some q)
  (running : s.annex.packets.find? (fun y => y.queue == n && y.k == entry.toNat && !y.parked && y.st == .running) = some x)
include ok running

theorem execComplete_ok : execComplete n entry status cause gsub gdw false s = .next (axSettle
    (modPacket s n x.k (withOutcome (axOutcome x.k status.toNat cause.toNat gsub.toNat gdw.toNat) s.annex.sent)) n x.k) ∧
    axHeld s n x.k = true := by
  have fits := List.find?_some running
  simp only [Bool.and_eq_true] at fits
  obtain ⟨⟨⟨queue, number⟩, unparked⟩, st⟩ := fits
  have held : axHeld s n x.k = true :=
    List.any_eq_true.mpr ⟨x, List.mem_of_find?_eq_some running, by rw [queue, beq_self_eq_true]; rfl⟩
  refine ⟨?_, held⟩
  rw [← axDone_held held x.words]
  simp [execComplete, open_, ok, running]

include bound

theorem execComplete_behind (out : guestWritesOut s (some s.annex.sent) = true) :
    execComplete n entry status cause gsub gdw false s = .next
      (modPacket s n x.k (withOutcome (axOutcome x.k status.toNat cause.toNat gsub.toNat gdw.toNat) s.annex.sent)) := by
  obtain ⟨run, held⟩ := execComplete_ok (gsub := gsub) (gdw := gdw) open_ ok running
  obtain ⟨z, found, -, behind⟩ :=
    found_withOutcome held (axOutcome x.k status.toNat cause.toNat gsub.toNat gdw.toNat) s.annex.sent
  have same : axQueue (modPacket s n x.k
      (withOutcome (axOutcome x.k status.toNat cause.toNat gsub.toNat gdw.toNat) s.annex.sent)) n = some q := bound
  rw [run, axSettle_behind same found (by rw [behind]; exact out)]

theorem execComplete_ends {u w : State} {p : Place} (performed : guestWritesOut s (some s.annex.sent) = false)
    (place : ringPlaceOf (modPacket s n x.k (withOutcome (axOutcome x.k status.toNat cause.toNat gsub.toNat gdw.toNat) s.annex.sent))
      (axServer s q).asid (axServer s q).priv q.ring.loc = some (u, p))
    (quiet : inFlight u (.packet n x.k) = false)
    (record : putRecord u (axServer s q) (axWriter q.context (.packet n x.k)) p x.k
      (axOutcome x.k status.toNat cause.toNat gsub.toNat gdw.toNat) = some w)
    (acked : inFlight w (.packet n x.k) = false) :
    ∃ t, execComplete n entry status cause gsub gdw false s = .next t ∧ t.annex.st = .opened ∧
      ∀ y ∈ t.annex.packets, ¬ (y.queue = n ∧ y.k = x.k) := by
  obtain ⟨run, held⟩ := execComplete_ok (gsub := gsub) (gdw := gdw) open_ ok running
  obtain ⟨z, found, st, behind⟩ :=
    found_withOutcome held (axOutcome x.k status.toNat cause.toNat gsub.toNat gdw.toNat) s.annex.sent
  have same : axQueue (modPacket s n x.k
      (withOutcome (axOutcome x.k status.toNat cause.toNat gsub.toNat gdw.toNat) s.annex.sent)) n = some q := bound
  rw [axSettle_ends same found st (by rw [behind]; exact performed) place quiet record acked] at run
  obtain ⟨stands, packets⟩ := annex_axFinish_packets w n x.k q p z.words
  have kept : w.annex.st = s.annex.st :=
    (congrArg Annex.st ((annex_putRecord (axWriter_engine _ _ _) record).trans (annex_ringPlaceOf place))).trans rfl
  refine ⟨_, run, stands.st.trans (kept.trans open_), fun y listed => ?_⟩
  rw [packets, List.mem_filter] at listed
  simpa [or_iff_not_imp_left] using listed.2

end Complete

/-! ### TRANSLATE and INVAL_ACK (R490, R491) -/

section Translate
variable {s : State} {asid gen : BitVec 16} {va : Word} (open_ : s.annex.st = .opened)
include open_

theorem execTranslate_outside (outside : axWindow s asid va.toNat = none) : execTranslate asid gen va s =
    .next (modAnnex s fun a => { a with out := a.out ++ [.refusal asid gen va cProtection] }) := by
  simp [execTranslate, open_, outside]

theorem execTranslate_stale {wr : Bool} (inside : axWindow s asid va.toNat = some wr) (stale : (spaceEntry s asid.toNat).gen ≠ gen) :
    execTranslate asid gen va s = .next (modAnnex s fun a => { a with out := a.out ++ [.refusal asid gen va cTlbGen] }) := by
  simp [execTranslate, open_, inside, stale]

/-- The translation that the port grants. -/
def grantOf (asid gen : BitVec 16) (x : Xlat) (wr : Bool) : AxGrant :=
  { asid, gen, pa := leafBase x.leaf, size := 2 ^ pageBits x.level, range := leafRange x.leaf, w := wr && leafW x.leaf }

theorem execTranslate_grants {wr : Bool} {u : State} {x : Xlat} (inside : axWindow s asid va.toNat = some wr)
    (current : (spaceEntry s asid.toNat).gen = gen)
    (found : translate s asid.toNat (axPriv s asid) va.toNat .rd false = .ok (u, x)) (reached : guestBarred u x.pa = false) :
    ∃ t, execTranslate asid gen va s = .next t ∧ t.mem = u.mem ∧ t.annex.granted = u.annex.granted ++ [grantOf asid gen x wr] := by
  refine ⟨modAnnex u fun a =>
    { a with granted := a.granted ++ [grantOf asid gen x wr]
             out := a.out ++ [.translation asid gen va (BitVec.ofNat 52 x.pa) (2 ^ pageBits x.level) (leafRd x.leaf) (wr && leafW x.leaf)] },
    ?_, rfl, rfl⟩
  simp [execTranslate, open_, inside, current, found, reached, grantOf]

end Translate

theorem execInvalAck_found {s : State} {asid gen : BitVec 16} {c : Nat}
    (oldest : s.annex.inval.find? (fun e => e.1 == asid) = some (asid, gen, c)) : execInvalAck asid s =
      .next (modAnnex s fun a => { a with inval := a.inval.erase (asid, gen, c)
                                          granted := a.granted.filter fun g => g.asid != asid || g.gen == gen }) := by
  simp [execInvalAck, oldest]

/-! ### PREEMPT_REPLY (R488, R493) -/

/-- A packet of a context that is still running, parked. -/
def parkOf (s : State) (context : Nat) (p : AxPacket) : AxPacket :=
  if axPacketCtx s p == context && p.st == .running then { p with parked := true } else p

theorem execPreemptReply_parks {s : State} {context : Nat} (open_ : s.annex.st = .opened)
    (preempted : ctxPreempted s context = true) : execPreemptReply context true s =
      .next (modAnnex s fun a => { a with packets := a.packets.map (parkOf s context) }) := by
  have waits : ctxPreempted (modAnnex s fun a => { a with packets := a.packets.map (parkOf s context) }) context = true := preempted
  have awake : ¬ (s.annex.st != .opened) = true := by rw [open_]; decide
  rw [execPreemptReply, if_neg awake, if_pos rfl]
  exact congrArg _ (if_pos waits)

theorem parkOf_parks {s : State} {context : Nat} {p : AxPacket} (own : axPacketCtx s (parkOf s context p) = context)
    (running : (parkOf s context p).st = .running) : (parkOf s context p).parked = true := by
  unfold parkOf at *
  split at own
  · next match_ => rw [if_pos match_]
  · next other =>
    rw [if_neg other] at running
    simp [own, running] at other

/-! ### Cache messages (R489) -/

/-- A line that the guest takes changes nothing of the dies. -/
theorem dies_lineAccess_guest {s u : State} {pa range : Nat} {write : Bool}
    (h : lineAccess s (some holderG) pa range write = .ok u) : u.dies = s.dies := by
  have taken : ∀ (v : State) (l r st : Nat), (takeLine v holderG l r st).dies = v.dies := fun v l r st => by
    have roomL1 : l1Room v holderG l = v := if_pos rfl
    have roomFilter : filterRoom v holderG l = v := if_pos rfl
    have roomDir : (dirRoom v holderG l).dies = v.dies := by
      unfold dirRoom
      dsimp only
      refine dies_ite rfl ?_
      split
      · rfl
      · refine dies_ite rfl ?_
        rw [modCoh_dies]
        exact dies_foldl (fun w i => dies_foldl (fun x h => dies_lineEvent ..) _ w) _ v
    unfold takeLine
    rw [roomL1, roomFilter]
    exact dies_ite rfl roomDir
  have home : ∀ b : Bool, (b && decide (holderG < 256) && rangeSlot s range != 4) = false := fun b => by cases b <;> rfl
  unfold lineAccess at h
  simp only [home, Bool.false_and, Bool.false_eq_true, if_false] at h
  split at h
  · next away => cases away
  · cases h
  · cases h
    exact (dies_freeze ..).trans ((taken ..).trans (dies_lineMessages ..))

/-- The translation that covers a line of a cache message. -/
def messageGrant (s : State) (m : GuestMsg) (base : Nat) : Option AxGrant :=
  s.annex.granted.find? fun g => g.pa ≤ base && base < g.pa + g.size && (g.w || !guestWrite m)

section Message
variable {s : State} {m : GuestMsg} {pa : BitVec 52} {data : List Byte} {bad : Bool} (open_ : s.annex.st = .opened)
include open_

/-- An unlisted message, or a line that no translation has given the guest, is a breach. -/
theorem execGuestCacheMessage_breach (breach : guestEvent m = none ∨ messageGrant s m (64 * (pa.toNat / 64)) = none) :
    execGuestCacheMessage m pa data bad s = .next (fence s) := by
  have awake : ¬ (s.annex.st != .opened) = true := by rw [open_]; decide
  unfold messageGrant at breach
  unfold execGuestCacheMessage
  dsimp only
  rw [if_neg awake]
  split
  · next event grant => rcases breach with none | none <;> simp [none] at event grant
  · rfl

/-- A read's event, and the line to the guest. -/
theorem execGuestCacheMessage_read {g : AxGrant} {u : State} (read : m = .rdShared ∨ m = .rdCurr ∨ m = .rdOwn)
    (granted : messageGrant s m (64 * (pa.toNat / 64)) = some g) (here : isRemote s (64 * (pa.toNat / 64)) = false)
    (reached : guestBarred s (64 * (pa.toNat / 64)) = false)
    (line : lineAccess s (some holderG) (64 * (pa.toNat / 64)) g.range (m == .rdOwn) = .ok u) :
    let base := 64 * (pa.toNat / 64)
    execGuestCacheMessage m pa data bad s = .next (modAnnex u fun a => { a with
      out := a.out ++ [.data (BitVec.ofNat 52 base) (loadBytes u (paLoc u base) 64) (Machine.poisoned u (paLoc u base) 64)] }) := by
  have near : isRemote u (64 * (pa.toNat / 64)) = false := by
    rw [isRemote, moduleNumber, dieOf_of_dies (dies_lineAccess_guest line)]
    exact here
  have awake : ¬ (s.annex.st != .opened) = true := by rw [open_]; decide
  obtain ⟨ev, event, access, own⟩ : ∃ ev, guestEvent m = some ev ∧ (ev == 0 || m == .rdOwn) = true ∧ (ev == 1) = (m == .rdOwn) := by
    rcases read with rfl | rfl | rfl
    exacts [⟨0, rfl, rfl, rfl⟩, ⟨0, rfl, rfl, rfl⟩, ⟨1, rfl, rfl, rfl⟩]
  have noWrite : guestWrite m = false := by rcases read with rfl | rfl | rfl <;> rfl
  have isRead : (m == .rdShared || m == .rdCurr || m == .rdOwn) = true := by rcases read with rfl | rfl | rfl <;> rfl
  unfold messageGrant at granted
  rw [execGuestCacheMessage, if_neg awake]
  simp only [event, granted]
  simp only [reached, access, own, line, noWrite, guestData, isRead, near, Bool.false_and, Bool.false_eq_true, if_false, if_true]

end Message

/-! ### Bounds, training, attestation (R484, R485, R490) -/

/-- The guest has missed a bound. -/
def guestLate (s : State) : Prop :=
  (∃ e ∈ s.annex.inval, e.2.2 + invalBound < s.clock) ∨
    ∃ p ∈ s.annex.packets, p.parked = false ∧ p.st = .running ∧ p.since + completeBound < s.clock

theorem execAnnexBoundExpiry_late {s : State} (late : guestLate s) : execAnnexBoundExpiry s = .next (fence s) := by
  refine congrArg _ (if_pos ?_)
  simpa [guestLate, and_assoc] using late

theorem execAnnexBoundExpiry_timely {s : State} (timely : ¬ guestLate s) : execAnnexBoundExpiry s = .next s := by
  refine congrArg _ (if_neg ?_)
  simpa [guestLate, and_assoc] using timely

end Sys2Proof.Machine

namespace Sys2Proof

open Sys2Proof.Machine

/-- Settles O58, step by step of the port: what it does in each state, and what a fence leaves. -/
theorem annexSteps : Obligations.AnnexSteps := by
  unfold Obligations.AnnexSteps
  intro s
  dsimp only
  refine ⟨fun n q s1 p inside sound bound head fresh => ?ringRead,
    fun n q s1 s2 p k ws inside open_ bound place => ?fetch,
    fun n q x status cause gsub gdw entry open_ bound running => ?complete, fun asid gen va open_ => ?translate,
    fun asid gen c oldest => ?invalAck, fun context open_ preempted => ?preempt, fun m pa data bad open_ => ?message, ?bounds,
    fun modules untrained nonzero => ?training, fun identity measurement signature closed => ?attest⟩
  case ringRead =>
    have looked : s1.annex = (axSettleAll s n).annex := annex_freshHead (by rw [head]; rfl)
    refine ⟨fun past => ?_, fun fits open_ => ⟨fun s2 ws entry good => ?_, fun s2 entry => ?_⟩⟩
    · obtain ⟨y, found, faulted⟩ := axOverrun_faults (s := dropAsks s1 (axServer (axSettleAll s n) q).w.owner) (n := n) (q := q)
        (by rw [axQueue_of_annex (FabricOnly.dropAsks ..).annex, axQueue_of_annex looked, bound])
      exact ⟨_, y, execAnnexRingRead_overrun inside sound bound head fresh past, found, faulted⟩
    · have signals := readAnnex_signals (by rw [axQueue_of_annex looked, bound]) entry good
      rw [looked] at signals
      exact ⟨_, execAnnexRingRead_opened inside sound bound head fresh fits open_, signals⟩
    · exact (execAnnexRingRead_opened inside sound bound head fresh fits open_).trans (congrArg _ (readAnnex_waits entry))
  case fetch =>
    exact ⟨execGuestPacketFetch_faulted inside open_ bound, fun sound next small entry canonical noLog admitted =>
      execGuestPacketFetch_takes inside open_ bound sound place next small entry canonical noLog admitted⟩
  case complete =>
    refine ⟨fun ok => ⟨execComplete_behind open_ ok bound running, fun u w p performed place quiet record acked =>
      execComplete_ends open_ ok bound running performed place quiet record acked⟩, fun bad => ?_⟩
    exact ⟨_, execComplete_breach open_ bad, fence_shuts open_⟩
  case translate =>
    refine ⟨fun outside => ⟨_, execTranslate_outside open_ outside, rfl, rfl, rfl⟩,
      fun wr inside stale => ⟨_, execTranslate_stale open_ inside stale, rfl, rfl⟩, fun wr u x inside current found reached => ?_⟩
    obtain ⟨t, run, mem, granted⟩ := execTranslate_grants open_ inside current found reached
    exact ⟨t, _, run, mem, granted, rfl, rfl, rfl, rfl⟩
  case invalAck =>
    refine ⟨_, execInvalAck_found oldest, rfl, rfl, fun g listed => ?_⟩
    obtain ⟨known, current⟩ := List.mem_filter.mp listed
    refine ⟨known, fun own => ?_⟩
    simpa [own] using current
  case preempt =>
    refine ⟨_, execPreemptReply_parks open_ preempted, rfl, fun p listed own running => ?_⟩
    obtain ⟨y, -, rfl⟩ := List.mem_map.mp listed
    exact parkOf_parks own running
  case message =>
    refine ⟨fun breach => ⟨_, execGuestCacheMessage_breach open_ breach, (fence_shuts open_).1⟩,
      fun g u read granted here reached line => ⟨_, execGuestCacheMessage_read open_ read granted here reached line, ?_⟩⟩
    have frame : u = { s with coh := u.coh, dies := u.dies } := lineAccess_lineOnly line
    refine ⟨?_, rfl, ?_⟩
    · rw [modAnnex_mem, frame]
    · rw [← (lineAccess_lineOnly line).annex]
      rfl
  case bounds =>
    exact ⟨execAnnexBoundExpiry_timely, fun late open_ => ⟨_, execAnnexBoundExpiry_late late, (fence_shuts open_).1⟩⟩
  case training =>
    refine ⟨?_, _, ?_, rfl⟩
    · show execAnnexTraining modules false s = _
      simp [execAnnexTraining]
    · show execAnnexTraining modules true s = _
      rw [execAnnexTraining, untrained, bne_iff_ne.mpr nonzero]
      rfl
  case attest =>
    refine ⟨fun refused => ?_, fun listed signed => ⟨_, ?_, rfl⟩⟩
    · show execGuestAttest identity measurement signature s = _
      rcases refused with unlisted | unsigned
      · simp [execGuestAttest, unlisted]
      · simp [execGuestAttest, unsigned]
    · show execGuestAttest identity measurement signature s = _
      simp [execGuestAttest, closed, listed, signed, modAnnex]

end Sys2Proof
end

section
/-! The ports of the module: headers, stubs, recalls, acknowledgements, resends and losses (R441 to R449). -/

namespace Sys2Proof.Machine

/-! ### What leaves a port (R442 to R446) -/

theorem egress_header {p : Packet} (lane : headerLane p = true) (s : State) (port : Nat) : egress s port p = emit s p := if_pos lane

theorem egress_data {s : State} {port : Nat} {p : Packet} (lane : headerLane p = false) (fits : mustTrim s port p = false) :
    egress s port p = modPort s port fun x => { x with dataQ := x.dataQ ++ [p] } := by
  rw [egress, lane, fits]
  rfl

theorem egress_trimmed {s : State} {port : Nat} {p : Packet} (lane : headerLane p = false) (trims : mustTrim s port p = true) :
    egress s port p = emit (countTrim s port p.cls) (stubOf p) := by
  rw [egress, lane, trims]
  rfl

/-- An acknowledgement leaves in the header lane. -/
theorem ack_emits (s : State) (port : Nat) (p : Packet) (status : Nat) : ack s port p status = emit s (answerTo s p 3 tyAck status) :=
  rfl

theorem portOf_emit (s : State) (p : Packet) (port : Nat) : portOf (emit s p) port = portOf s port := rfl

theorem kept_modPort (s : State) (port i : Nat) {f : Port → Port} (same : ∀ x, (f x).kept = x.kept) :
    (portOf (modPort s port f) i).kept = (portOf s i).kept := by
  rw [portOf_modPort]
  split
  · next at_ => rw [same, at_]
  · rfl

/-- What a port sends, it keeps already. -/
theorem kept_egress (s : State) (port : Nat) (p : Packet) (i : Nat) : (portOf (egress s port p) i).kept = (portOf s i).kept := by
  unfold egress
  split
  · rfl
  · split
    · show (portOf (countTrim s port p.cls) i).kept = _
      exact kept_modPort s port i fun _ => rfl
    · exact kept_modPort s port i fun _ => rfl

/-- A discarded packet changes its port alone. -/
theorem discard_frame (s : State) (port : Nat) : FabricOnly s (discard s port) ∧
    portOf (discard s port) port = { portOf s port with linkErrors := (portOf s port).linkErrors + 1 } :=
  ⟨rfl, by rw [discard, portOf_modPort_self]⟩

section Switch
variable {s : State} {port : Nat} {p : Packet} (real : port < 16) (good : badHeader p = false)
include real good

theorem execSwitchPacketArrival_good : execSwitchPacketArrival port p s = .next (egress s port p) := by
  simp [execSwitchPacketArrival, Nat.not_le.mpr real, good]

theorem execStubArrival_stub (stub : p.trimmed = true) (unordered : p.ord = false) :
    execStubArrival port p s = .next (addStub s port p) := by
  simp [execStubArrival, Nat.not_le.mpr real, good, stub, unordered]

theorem execRecallArrival_kept {k : Kept} (type : p.type = tyRecall) (kept : keptOf s port p.tag = some k) :
    execRecallArrival port p s = .next (resend s port { k with pkt := { k.pkt with trims := moreTrims k.pkt.trims } }) := by
  simp [execRecallArrival, Nat.not_le.mpr real, good, type, kept]

/-- An acknowledgement with status 0. -/
theorem execAckArrival_kept {k : Kept} (type : p.type = tyAck) (status : p.aux.toNat % 256 = 0)
    (kept : keptOf s port p.tag = some k) : execAckArrival port p s =
      .next (fillPieces (dropPosted (dropKept s port p.tag) port p.tag) port p.tag 0 0) := by
  simp [execAckArrival, Nat.not_le.mpr real, good, type, kept, status]

end Switch

/-! ### Kept packets (R446 to R449) -/

theorem keptOf_mem {s : State} {port : Nat} {tag : BitVec 16} {k : Kept} (found : keptOf s port tag = some k) :
    k ∈ (portOf s port).kept ∧ k.pkt.tag = tag :=
  ⟨List.mem_of_find?_eq_some found, beq_iff_eq.mp (List.find?_some (p := fun y : Kept => y.pkt.tag == tag) found)⟩

/-- A packet that is sent again is kept as sent at this time. -/
theorem mem_resend {s : State} {port : Nat} {tag : BitVec 16} {k y : Kept} (found : keptOf s port tag = some k)
    (same : y.pkt.tag = tag) : { y with since := s.clock } ∈ (portOf (resend s port y) port).kept := by
  obtain ⟨listed, tagged⟩ := keptOf_mem found
  rw [resend, kept_egress, setKept, portOf_modPort_self]
  exact List.mem_map.mpr ⟨k, listed, if_pos (beq_iff_eq.mpr (tagged.trans same.symm))⟩

theorem kept_dropKept (s : State) (port : Nat) (tag : BitVec 16) :
    (portOf (dropKept s port tag) port).kept = (portOf s port).kept.filter fun y => y.pkt.tag != tag := by
  rw [dropKept, portOf_modPort_self]

theorem tag_dropKept {s : State} {port : Nat} {tag : BitVec 16} {y : Kept} (listed : y ∈ (portOf (dropKept s port tag) port).kept) :
    y.pkt.tag ≠ tag := by
  rw [kept_dropKept, List.mem_filter] at listed
  exact bne_iff_ne.mp listed.2

theorem moreTrims_eq (t : BitVec 4) : moreTrims t = if t = 15 then 15 else t + 1 := by
  rw [moreTrims]
  by_cases top : t = 15
  · rw [if_pos (beq_iff_eq.mpr top), if_pos top, top]
  · rw [if_neg (by simpa using top), if_neg top]

/-! ### Recalls and lost packets (R447, R449) -/

theorem execRecallSend_next {s : State} {port : Nat} {k : Stub} (real : port < 16) (next : nextRecall s port = some k) :
    ∃ t, execRecallSend port s = .next t ∧ (portOf t port).stubs = (portOf s port).stubs.erase k ∧
      t.fabric.out.length = s.fabric.out.length + 1 := by
  refine ⟨emit (modPort s port fun x => { x with stubs := x.stubs.erase k
                                                 lastRecall := tset x.lastRecall (srcKey k.pkt) (fabricNow s) })
    (answerTo s k.pkt 4 tyRecall k.pkt.trims.toNat), ?_, ?_, ?_⟩
  · simp only [execRecallSend, Nat.not_le.mpr real, next, if_false]
    exact congrArg _ (egress_header rfl _ _)
  · rw [portOf_emit, portOf_modPort_self]
  · exact List.length_append

/-- Only memory and its poison differ. -/
def MemOnly (s t : State) : Prop := t = { s with mem := t.mem, poison := t.poison }

theorem MemOnly.trans {a b c : State} (h1 : MemOnly a b) (h2 : MemOnly b c) : MemOnly a c := by
  unfold MemOnly at *
  rw [h2, h1]

theorem MemOnly.writeWord (s : State) (l v : Nat) : MemOnly s (writeWord s l v) := rfl

/-- A report writes the context's ring. -/
theorem MemOnly.report (s : State) (ctx : Nat) (r : FaultRec) : MemOnly s (report s ctx r) := by
  unfold Machine.report
  split
  · rfl
  · dsimp only
    split
    · exact .writeWord ..
    · exact .trans (.trans (.trans (.trans (.writeWord s ..) (.writeWord ..)) (.writeWord ..)) (.writeWord ..)) (.writeWord ..)

theorem reportNote_frame (s : State) (ctx : Nat) (n : EngineNote) : reportNote s ctx n =
    { s with mem := (reportNote s ctx n).mem, poison := (reportNote s ctx n).poison, draws := (reportNote s ctx n).draws } := by
  unfold reportNote
  dsimp only
  rw [MemOnly.report]
  rfl

section Timeout
variable {s : State} {port : Nat} {tag : BitVec 16} {k : Kept} (real : port < 16) (kept : keptOf s port tag = some k)
include real kept

theorem execResendTimeout_early (early : s.clock < k.since + 450000) : execResendTimeout port tag s = .next s := by
  simp [execResendTimeout, Nat.not_le.mpr real, kept, answerBound, early]

theorem execResendTimeout_again (late : k.since + 450000 ≤ s.clock) (few : k.resends < 4) :
    execResendTimeout port tag s = .next (resend s port { k with resends := k.resends + 1 }) := by
  simp [execResendTimeout, Nat.not_le.mpr real, kept, answerBound, Nat.not_lt.mpr late, few]

theorem execResendTimeout_loses (late : k.since + 450000 ≤ s.clock) (many : 4 ≤ k.resends) :
    execResendTimeout port tag s = .next (loseKept s port k) := by
  simp [execResendTimeout, Nat.not_le.mpr real, kept, answerBound, Nat.not_lt.mpr late, Nat.not_lt.mpr many]

end Timeout

/-- A thread's write that is lost never completes. -/
theorem loseKept_thread {s : State} {port i : Nat} {k : Kept} (owner : k.owner = .thread i) :
    (∀ y ∈ (portOf (loseKept s port k) port).kept, y.pkt.tag ≠ k.pkt.tag) ∧
    ∀ e ∈ (loseKept s port k).threads, ∀ y ∈ e.2.posted, y.port = port → y.tag = k.pkt.tag → y.lost = true := by
  have reported : loseKept s port k =
      reportLost (loseOwner (dropKept s port k.pkt.tag) port k) k.context none k.pkt.addr.toNat := by
    simp only [loseKept, owner]
  have lost : loseOwner (dropKept s port k.pkt.tag) port k = { dropKept s port k.pkt.tag with
      threads := s.threads.map fun e => (e.1, { e.2 with posted := e.2.posted.map fun y =>
        if y.port == port && y.tag == k.pkt.tag then { y with lost := true } else y }) } := by
    rw [loseOwner, owner]
    rfl
  rw [reported, reportLost, reportNote_frame, lost]
  refine ⟨fun y listed => tag_dropKept listed, fun e known y listed there tagged => ?_⟩
  obtain ⟨e, -, rfl⟩ := List.mem_map.mp known
  obtain ⟨z, -, rfl⟩ := List.mem_map.mp listed
  split at there
  · next match_ => rw [if_pos match_]
  · next other =>
    rw [if_neg other] at tagged
    simp [there, tagged] at other

end Sys2Proof.Machine
end

section
/-! Writes and reads of other modules at their home, and their answers at the source (R438 to R449). -/

namespace Sys2Proof.Machine

/-! ### A posted write (R446, R449) -/

/-- A store's notice, without transactions, reaches the quads' named tasks at most. -/
theorem noteStore_frame {s : State} (noTxs : ∀ e ∈ s.wgs, e.2.txs = []) (l n : Nat) :
    noteStore s l n = { s with quads := (noteStore s l n).quads } := by
  rw [noteStore, logsMet_of_noTxs noTxs]
  exact foldl_sendDec_frame ..

theorem foldl_noteStore_frame {α : Type} {c : α → Prop} [DecidablePred c] {at_ : α → Nat} {n : Nat} (l : List α) :
    ∀ {s : State}, (∀ e ∈ s.wgs, e.2.txs = []) →
      l.foldl (fun st g => if c g then noteStore st (at_ g) n else st) s =
        { s with quads := (l.foldl (fun st g => if c g then noteStore st (at_ g) n else st) s).quads } := by
  induction l with
  | nil => exact fun _ => rfl
  | cons g rest ih =>
    intro s noTxs
    rw [List.foldl_cons]
    by_cases noted : c g
    · simp only [if_pos noted]
      rw [noteStore_frame noTxs]
      exact ih noTxs
    · simp only [if_neg noted]
      exact ih noTxs

/-- A flit whose bytes are all enabled. -/
theorem writeFlit_whole {s : State} (noTxs : ∀ e ∈ s.wgs, e.2.txs = []) (loc : Nat) {mask : Nat} (whole : mask = 2 ^ 32 - 1)
    (w : Wide) : (writeFlit s loc mask w).mem = Memory.setList s.mem loc (leBytes 32 w.toNat) := by
  have kept : ∀ e ∈ (writeBytes s loc (leBytes 32 w.toNat)).wgs, e.2.txs = [] := by
    rw [writeBytes_wgs]
    exact noTxs
  unfold writeFlit
  dsimp only
  rw [if_pos (beq_iff_eq.mpr whole)]
  generalize List.range 4 = groups
  rw [foldl_noteStore_frame groups kept, writeBytes]

theorem packetPlace_pa (s : State) (p : Packet) : (packetPlace s p).pa = p.addr.toNat := rfl
theorem packetPlace_loc (s : State) (p : Packet) : (packetPlace s p).loc = paLoc s p.addr.toNat := rfl
theorem packetPlace_range (s : State) (p : Packet) : (packetPlace s p).range = packetRange p := rfl

theorem mem_addPoison (s : State) (sec : Nat) : (addPoison s sec).mem = s.mem := by
  unfold addPoison
  split <;> rfl

/- A match on `windowOf` is unfolded as an equation of functions: the kernel, when it compares such a match with another term,
evaluates `windowOf`, whose bounds it would count up to. -/

section Posted
variable {s : State} {p : Packet} {w : Wide} (noWindow : windowOf s p.addr.toNat = none)
  (unreserved : reservedCells s (paLoc s p.addr.toNat) 32 = false) (one : p.payload = [w]) (first : p.fmask = 0xFFFFFFFF)
  (last : p.lmask = 0xFFFFFFFF) (noTxs : ∀ e ∈ s.wgs, e.2.txs = [])
  (admitted : ∃ u, engineLines s (packetPlace s p) 32 true = .ok u)
include noWindow unreserved one first last noTxs admitted

/-- A write of one whole sector stores its bytes. -/
theorem applyWrite_sector :
    ∃ v, applyWrite s p = .ok v ∧ v.mem = Memory.setList s.mem (paLoc s p.addr.toNat) (leBytes 32 w.toNat) := by
  obtain ⟨u, lines⟩ := admitted
  have frame : u = { s with coh := u.coh, dies := u.dies } := engineLines_lineOnly lines
  have whole : flitMask p 0 = 2 ^ 32 - 1 := by
    simp [flitMask, one, first, last]
  have kept : ∀ e ∈ u.wgs, e.2.txs = [] := by
    rw [frame]
    exact noTxs
  have cells : (writeFlit u (paLoc s p.addr.toNat) (flitMask p 0) w).mem =
      Memory.setList s.mem (paLoc s p.addr.toNat) (leBytes 32 w.toNat) := by
    rw [writeFlit_whole kept _ whole, frame]
  have enabled : flitMask p 0 ≠ 0 := by
    rw [whole]
    decide
  have run : ∀ f, f = applyWrite → f s p = .ok (if p.poisoned then addPoison (writeFlit u (paLoc s p.addr.toNat) (flitMask p 0) w)
      (paLoc s p.addr.toNat / 32) else writeFlit u (paLoc s p.addr.toNat) (flitMask p 0) w) := by
    intro f same
    delta applyWrite at same
    rw [same]
    have noWindow : windowOf s (packetPlace s p).pa = none := noWindow
    simp only [noWindow]
    rw [packetPlace_loc, one]
    simp [unreserved, lines, enabled]
  refine ⟨_, run _ rfl, ?_⟩
  split
  · rw [mem_addPoison, cells]
  · exact cells

end Posted

theorem execPostedWriteApply_unordered {s : State} {port : Nat} {p : Packet} (real : port < 16) (good : badHeader p = false)
    (posted : isPosted p = true) (unordered : p.ord = false) (whole : p.trimmed = false) (ours : forUs s p = true) :
    execPostedWriteApply port p s = .next (homeWrite s port p) := by
  simp [execPostedWriteApply, Nat.not_le.mpr real, good, posted, unordered, whole, ours]

/-- A duplicate is acknowledged alone. -/
theorem homeWrite_again {s : State} {p : Packet} (port : Nat) (again : wasApplied s p = true) :
    homeWrite s port p = emit s (answerTo s p 3 tyAck 0) := if_pos again

theorem homeWrite_fresh {s v : State} {p : Packet} (port : Nat) (fresh : wasApplied s p = false) (applied : applyPosted s p = .ok v) :
    homeWrite s port p = emit (noteApplied v p) (answerTo (noteApplied v p) p 3 tyAck 0) := by
  rw [homeWrite, fresh, applied]
  rfl

theorem wasApplied_noteApplied (s : State) (p q : Packet) : wasApplied (emit (noteApplied s p) q) p = true := by
  show (tgetD (tset s.fabric.applied (srcKey p) _) (srcKey p) []).contains p.tag = true
  rw [tgetD_tset_self, List.take_succ_cons]
  simp

/-! ### A read request (R439, R446) -/

section Read
variable {s u : State} {p : Packet} (noWindow : windowOf s p.addr.toNat = none)
  (unreserved : reservedCells s (paLoc s p.addr.toNat) 32 = false) (noTxs : ∀ e ∈ s.wgs, e.2.txs = [])
  (line : lineAccess s none p.addr.toNat (packetRange p) false = .ok u)
include noWindow unreserved noTxs line

/-- What a plain read of a sector is answered. -/
theorem serveSector_line : (serveSector s p).st = u ∧ (serveSector s p).status = 0 ∧
    (serveSector s p).flits = [BitVec.ofNat 256 (readNat s (paLoc s p.addr.toNat) 32)] := by
  have frame : u = { s with coh := u.coh, dies := u.dies } := lineAccess_lineOnly line
  have noLogs : logsMet u (paLoc s p.addr.toNat) 32 = [] := logsMet_of_noTxs (by rw [frame]; exact noTxs) ..
  have bytes : loadBytes u (paLoc s p.addr.toNat) 32 = readBytes s (paLoc s p.addr.toNat) 32 := by
    rw [loadBytes, noLogs, List.isEmpty_nil, if_pos rfl]
    exact readBytes_of_mem (by rw [frame]) ..
  have answer : ∀ f, f = serveSector → f s p =
      ⟨u, [BitVec.ofNat 256 (leNat (loadBytes u (paLoc s p.addr.toNat) 32))], 0, poisoned u (paLoc s p.addr.toNat) 32, []⟩ := by
    intro f same
    delta serveSector at same
    rw [same]
    simp only [packetPlace_pa, packetPlace_loc, packetPlace_range, noWindow, unreserved, line, Bool.false_eq_true, if_false]
  rw [answer _ rfl, bytes, readNat]
  exact ⟨rfl, rfl, rfl⟩

end Read

/-- The response to a sector's read. -/
def sectorResponse (p : Packet) (a : Answer) : Packet :=
  { Packet.blank with
    dmod := p.smod, ddie := p.sport.extractLsb' 2 2, cls := 1, ord := false, flow := 0
    operands := a.operands.map (BitVec.ofNat 64), len := BitVec.ofNat 4 a.flits.length, type := tyReadResp
    addr := p.addr, lmask := BitVec.ofNat 32 (2 ^ 32 - 1), fmask := BitVec.ofNat 32 (2 ^ 32 - 1)
    aux := BitVec.ofNat 40 (p.tag.toNat + p.sport.toNat * 2 ^ 16 + a.status % 256 * 2 ^ 24)
    payload := a.flits, poisoned := a.bad }

theorem respond_sector {p : Packet} (plain : p.aux.toNat % 2 ^ 33 = 0) (s : State) {a : Answer} (some : a.flits ≠ []) :
    respond s p tyReadResp a = (sendFrom s (leastPort s (homeDie p.addr.toNat)) (sectorResponse p a) .response 0).1 := by
  have small : engineRead p = false := by rw [engineRead, plain]; simp
  have flits : a.flits.isEmpty = false := by simpa using some
  unfold respond
  simp only [small, flits, Bool.false_eq_true, if_false]
  rfl

/-- A packet that expects an answer is kept as it was sent. -/
theorem sendFrom_keeps (s : State) (port : Nat) (p : Packet) (owner : Owner) (context : Nat) :
    ∃ k, k ∈ (portOf (sendFrom s port p owner context).1 port).kept ∧ k.owner = owner ∧
      k.pkt = { p with tag := k.pkt.tag, seq := k.pkt.seq, sport := k.pkt.sport, smod := k.pkt.smod } := by
  unfold sendFrom
  dsimp only
  rw [kept_egress, portOf_setPort_self]
  exact ⟨_, List.mem_append_right _ (List.mem_singleton.mpr rfl), rfl, rfl⟩

theorem execReadRequestArrival_sector {s : State} {port : Nat} {p : Packet} (real : port < 16) (good : badHeader p = false)
    (type : p.type = tyReadReq) (ours : forUs s p = true) (room : portsFull s (homeDie p.addr.toNat) = false)
    (plain : p.aux.toNat % 2 ^ 33 = 0) :
    execReadRequestArrival port p s = .next (respond (serveSector s p).st p tyReadResp (serveSector s p)) := by
  have served : serveRead s p = serveSector s p := by
    unfold serveRead
    dsimp only
    rw [plain]
    exact if_pos rfl
  simp [execReadRequestArrival, Nat.not_le.mpr real, good, type, ours, room, homeRequest, served]

/-! ### A response (R446) -/

theorem execReadResponseArrival_unordered {s : State} {port : Nat} {p : Packet} (real : port < 16) (good : badHeader p = false)
    (type : p.type = tyReadResp ∨ p.type = tyRmwResp) (unordered : p.ord = false) (whole : p.trimmed = false) :
    execReadResponseArrival port p s = .next (takeResponse s port p) := by
  have known : (p.type == tyReadResp || p.type == tyRmwResp || p.type == 8) = true := by
    rcases type with type | type <;> rw [type] <;> rfl
  simp only [execReadResponseArrival, Nat.not_le.mpr real, good, known, unordered, whole, if_false, Bool.false_eq_true,
    Bool.not_true, Bool.or_false]

/-- What the guest is fed changes the port to it, and drops its reads. -/
theorem feedGuest_frame (s : State) : (feedGuest s).mem = s.mem ∧ (feedGuest s).fabric.ports = s.fabric.ports := by
  refine List.foldlRecOn (motive := fun t : State => t.mem = s.mem ∧ t.fabric.ports = s.fabric.ports) _ _ ⟨rfl, rfl⟩
    fun st before r _ => ?_
  have closed : ∀ (u : State) (o : Owner), u.mem = st.mem → u.fabric.ports = st.fabric.ports →
      (dropAsks u o).mem = s.mem ∧ (dropAsks u o).fabric.ports = s.fabric.ports := fun u o mem ports => by
    refine ⟨(FabricOnly.dropAsks u o).mem.trans (mem.trans before.1), Eq.trans ?_ (ports.trans before.2)⟩
    unfold dropAsks
    dsimp only
    split <;> rfl
  dsimp only
  split
  · exact before
  · exact closed st _ rfl rfl
  · exact closed (modAnnex st _) _ rfl rfl

theorem feedGuest_none {s : State} (none : s.annex.reads = []) : feedGuest s = s := by
  rw [feedGuest, none]
  rfl

/-- A response without data that could not be sent (R446) ends its request. -/
theorem takeResponse_empty {s : State} {port : Nat} {p : Packet} {k : Kept} (empty : p.payload = [])
    (kept : keptOf s port (BitVec.ofNat 16 (p.aux.toNat % 2 ^ 16)) = some k) :
    (takeResponse s port p).mem = s.mem ∧
    ∀ y ∈ (portOf (takeResponse s port p) port).kept, y.pkt.tag ≠ BitVec.ofNat 16 (p.aux.toNat % 2 ^ 16) := by
  rw [takeResponse]
  simp only [empty, List.isEmpty_nil, if_true, kept]
  refine ⟨(feedGuest_frame _).1, fun y listed => ?_⟩
  rw [portOf, (feedGuest_frame _).2] at listed
  exact tag_dropKept listed

/-- A value in each entry of a map, changed. -/
theorem tget_map {α : Type} (m : FMap α) (k : Nat) (f : α → α) : tget (m.map fun e => (e.1, f e.2)) k = (tget m k).map f := by
  induction m with
  | nil => rfl
  | cons e rest ih =>
    simp only [List.map_cons, tget]
    split
    · rfl
    · exact ih

theorem tgetD_map {α : Type} (m : FMap α) (k : Nat) (d : α) (f : α → α) :
    tgetD (m.map fun e => (e.1, f e.2)) k (f d) = f (tgetD m k d) := by
  rw [tgetD, tget_map, tgetD]
  cases tget m k <;> rfl

/-- The pieces of a result of which one is answered. -/
def answeredPend (port : Nat) (tag : BitVec 16) (v : Nat) (fault : BitVec 8) (q : Pend) : Pend :=
  { q with pieces := q.pieces.map fun x => if x.val = none ∧ x.port = port ∧ x.tag = tag then { x with val := some v, fault } else x }

theorem pend_fillPieces (s : State) (port : Nat) (tag : BitVec 16) (v : Nat) (fault : BitVec 8) (i : Nat) :
    (thr (fillPieces s port tag v fault) i).pend = (thr s i).pend.map (answeredPend port tag v fault) := by
  have piece : ∀ x : PendPiece, (x.val.isNone && x.port == port && x.tag == tag) = true ↔
      x.val = none ∧ x.port = port ∧ x.tag = tag :=
    fun x => by simp [and_assoc]
  have value := tgetD_map s.threads i blankThread fun t => { t with pend := t.pend.map (answeredPend port tag v fault) }
  have filled : fillPieces s port tag v fault = { s with threads := s.threads.map fun e =>
      (e.1, { e.2 with pend := e.2.pend.map (answeredPend port tag v fault) }) } := by
    unfold answeredPend
    simp only [fillPieces, piece]
  rw [filled]
  exact congrArg Thread.pend value

/-- A read of an engine that is answered. -/
def answeredAsk (port : Nat) (tag : BitVec 16) (flits : List Wide) (x : Ask) : Ask :=
  if x.val = none ∧ x.port = port ∧ x.tag = tag then { x with val := some flits, poisoned := false, fault := 0 } else x

theorem asks_fillAsks (s : State) (port : Nat) (tag : BitVec 16) (flits : List Wide) :
    fillAsks s port tag flits false 0 =
      { s with fabric := { s.fabric with asks := s.fabric.asks.map (answeredAsk port tag flits) } } := by
  have ask : ∀ x : Ask, (x.val.isNone && x.port == port && x.tag == tag) = true ↔ x.val = none ∧ x.port = port ∧ x.tag = tag :=
    fun x => by simp [and_assoc]
  unfold answeredAsk
  simp only [fillAsks, ask]

/-- A response with its data. -/
theorem takeResponse_data {s : State} {port : Nat} {p : Packet} (some : p.payload ≠ []) (sound : p.poisoned = false)
    (status : p.aux.toNat / 2 ^ 24 % 256 = 0)
    (kept : (keptOf s port (BitVec.ofNat 16 (p.aux.toNat % 2 ^ 16))).isSome = true) (noReads : s.annex.reads = []) :
    takeResponse s port p =
      let tag : BitVec 16 := BitVec.ofNat 16 (p.aux.toNat % 2 ^ 16)
      fillAsks (fillPieces (dropKept (emit s (answerTo s p 3 tyAck 0)) port tag) port tag (answerNat p) 0) port tag p.payload false 0 := by
  obtain ⟨k, kept⟩ := Option.isSome_iff_exists.mp kept
  have kept : keptOf (emit s (answerTo s p 3 tyAck 0)) port (BitVec.ofNat 16 (p.aux.toNat % 2 ^ 16)) = k := kept
  have flits : p.payload.isEmpty = false := by simpa using some
  rw [takeResponse]
  simp only [flits, Bool.false_eq_true, if_false, ack_emits, kept, status, sound]
  exact feedGuest_none noReads

end Sys2Proof.Machine
end

section
/-! Ordered flows and the collective packets in them (R451, R467, R470). -/

namespace Sys2Proof.Machine

/-! ### Flows (R451) -/

theorem key_flowOf (s : State) (key : Nat) : (flowOf s key).key = key := by
  unfold flowOf
  cases found : s.fabric.flows.find? fun f => f.key == key with
  | none => rfl
  | some f => exact beq_iff_eq.mp (List.find?_some (p := fun f : Flow => f.key == key) found)

theorem flowOf_setFlow (s : State) (f : Flow) : flowOf (setFlow s f) f.key = f := by
  exact congrArg (fun x : Option Flow => x.getD { key := f.key, expect := 0, window := [] })
    (List.find?_cons_of_pos (beq_self_eq_true f.key))

/-- A flow whose next packet is not there waits. -/
theorem pumpFlow_waits {s : State} {port key fuel : Nat} (missing : tget (flowOf s key).window (flowOf s key).expect.toNat = none) :
    pumpFlow s port key fuel = s := by
  cases fuel with
  | zero => rfl
  | succ n =>
    rw [pumpFlow]
    simp only [missing]

/-- The flow of a packet with the packet in its window. -/
def heldFlow (s : State) (p : Packet) : Flow :=
  { flowOf s (flowKey p) with window := tset (flowOf s (flowKey p)).window p.seq.toNat p }

theorem flowOf_heldFlow (s : State) (p : Packet) : flowOf (setFlow s (heldFlow s p)) (flowKey p) = heldFlow s p := by
  have key : (heldFlow s p).key = flowKey p := key_flowOf s (flowKey p)
  rw [← key]
  exact flowOf_setFlow s (heldFlow s p)

/-- A whole packet within the window that has not been held. -/
theorem arriveOrdered_holds {s : State} {port : Nat} {p : Packet} (whole : p.trimmed = false)
    (near : (p.seq - (flowOf s (flowKey p)).expect).toNat ≤ 255)
    (free : tget (flowOf s (flowKey p)).window p.seq.toNat = none) :
    arriveOrdered s port p = pumpFlow (setFlow s (heldFlow s p)) port (flowKey p) 256 := by
  unfold arriveOrdered
  simp only [near, free, whole, if_true, Bool.false_eq_true, if_false]
  exact congrArg (fun k => pumpFlow (setFlow s (heldFlow s p)) port k 256) (key_flowOf ..)

/-- A packet ahead of its turn waits in the window. -/
theorem arriveOrdered_ahead {s : State} {port : Nat} {p : Packet} (whole : p.trimmed = false)
    (ahead : 0 < (p.seq - (flowOf s (flowKey p)).expect).toNat) (near : (p.seq - (flowOf s (flowKey p)).expect).toNat ≤ 255)
    (free : tget (flowOf s (flowKey p)).window p.seq.toNat = none)
    (missing : tget (flowOf s (flowKey p)).window (flowOf s (flowKey p)).expect.toNat = none) :
    arriveOrdered s port p = setFlow s (heldFlow s p) := by
  have apart : p.seq.toNat ≠ (flowOf s (flowKey p)).expect.toNat := fun same => by
    rw [BitVec.eq_of_toNat_eq same, BitVec.sub_self] at ahead
    exact absurd ahead (by decide)
  rw [arriveOrdered_holds whole near free]
  refine pumpFlow_waits ?_
  rw [flowOf_heldFlow]
  show tget (tset _ p.seq.toNat p) (flowOf s (flowKey p)).expect.toNat = none
  rw [tget_tset, if_neg apart]
  exact missing

/-- A packet behind its flow is acknowledged again. -/
theorem arriveOrdered_behind {s : State} {port : Nat} {p : Packet}
    (behind : 32767 < (p.seq - (flowOf s (flowKey p)).expect).toNat) :
    arriveOrdered s port p = emit s (answerTo s p 3 tyAck 0) := by
  unfold arriveOrdered
  dsimp only
  rw [if_neg (by omega), if_neg (by omega), ack_emits]

theorem execOrderedPacketArrival_ours {s : State} {port : Nat} {p : Packet} (real : port < 16) (good : badHeader p = false)
    (ordered : p.ord = true) (ours : forUs s p = true) : execOrderedPacketArrival port p s = .next (arriveOrdered s port p) := by
  simp [execOrderedPacketArrival, Nat.not_le.mpr real, good, ordered, ours]

/-! ### A collective packet in its turn (R467) -/

theorem execCollectivePacketArrival_ours {s : State} {port : Nat} {p : Packet} (real : port < 16) (good : badHeader p = false)
    (type : p.type = tyCollective) (ordered : p.ord = true) (ours : forUs s p = true) :
    execCollectivePacketArrival port p s = .next (arriveOrdered s port p) := by
  simp [execCollectivePacketArrival, Nat.not_le.mpr real, good, type, ordered, ours]

/-- The flow once its one packet has been delivered. -/
def deliveredFlow (s : State) (p : Packet) : Flow :=
  { flowOf s (flowKey p) with expect := (flowOf s (flowKey p)).expect + 1, window := [] }

theorem flowOf_deliveredFlow (s t : State) (p : Packet) : flowOf (setFlow t (deliveredFlow s p)) (flowKey p) = deliveredFlow s p := by
  have key : (deliveredFlow s p).key = flowKey p := key_flowOf s (flowKey p)
  rw [← key]
  exact flowOf_setFlow t (deliveredFlow s p)

/-- The packet whose turn it is, alone in its window, that its unit takes. -/
theorem arriveOrdered_collective {s : State} {port : Nat} {p : Packet} {v : State × Nat} (whole : p.trimmed = false)
    (type : p.type = tyCollective) (turn : (p.seq - (flowOf s (flowKey p)).expect).toNat = 0)
    (empty : (flowOf s (flowKey p)).window = []) (taken : unitTake (setFlow s (heldFlow s p)) p.ddie.toNat p = some v) :
    arriveOrdered s port p = setFlow (ack (pumpUnits v.1) port p v.2) (deliveredFlow s p) := by
  have seq : p.seq = (flowOf s (flowKey p)).expect := by bv_omega
  have window : (heldFlow s p).window = [(p.seq.toNat, p)] := by
    rw [heldFlow, empty]
    rfl
  have expect : (heldFlow s p).expect = p.seq := seq.symm
  have delivered : deliver (setFlow s (heldFlow s p)) port p = some (ack (pumpUnits v.1) port p v.2) := by
    rw [deliver, if_pos (beq_iff_eq.mpr type), taken]
  have head : tget (heldFlow s p).window (heldFlow s p).expect.toNat = some p := by
    rw [window, expect, tget, if_pos (beq_self_eq_true _)]
  have gone : tdel (heldFlow s p).window (heldFlow s p).expect.toNat = [] := by
    rw [window, expect, tdel, if_pos (beq_self_eq_true _)]
  rw [arriveOrdered_holds whole (by omega) (by rw [empty]; rfl), pumpFlow]
  simp only [flowOf_heldFlow, head, whole, delivered, gone, Bool.false_eq_true, if_false]
  refine pumpFlow_waits (s := setFlow (ack (pumpUnits v.1) port p v.2) (deliveredFlow s p)) ?_
  rw [flowOf_deliveredFlow]
  rfl

/-! ### An operand that waits at its node (R467) -/

theorem mem_of_tget {α : Type} {m : FMap α} {k : Nat} {a : α} (found : tget m k = some a) : (k, a) ∈ m := by
  induction m with
  | nil => cases found
  | cons e rest ih =>
    rw [tget] at found
    split at found
    · next here =>
      cases found
      rw [← beq_iff_eq.mp here]
      exact List.mem_cons_self
    · exact List.mem_cons_of_mem _ (ih found)

theorem mem_tset {α : Type} {m : FMap α} {k : Nat} {a : α} {e : Nat × α} (listed : e ∈ tset m k a) : e ∈ m ∨ e = (k, a) := by
  induction m with
  | nil => exact .inr (List.mem_singleton.mp listed)
  | cons x rest ih =>
    rw [tset] at listed
    split at listed
    · rcases List.mem_cons.mp listed with same | later
      · exact .inr same
      · exact .inl (List.mem_cons_of_mem _ later)
    · split at listed
      · rcases List.mem_cons.mp listed with same | later
        · exact .inr same
        · exact .inl later
      · rcases List.mem_cons.mp listed with same | later
        · exact .inl (same ▸ List.mem_cons_self)
        · exact (ih later).imp_left (List.mem_cons_of_mem _)

/-- No unit has a packet of its own module. -/
def NoInbox (s : State) : Prop := ∀ e ∈ s.dies, e.2.coll.inbox = []

theorem NoInbox.dieOf {s : State} (none : NoInbox s) (d : Nat) : (dieOf s d).coll.inbox = [] := by
  unfold Machine.dieOf tgetD
  cases found : tget s.dies d with
  | none => rfl
  | some x => exact none _ (mem_of_tget found)

theorem NoInbox.modColl {s : State} (none : NoInbox s) (d : Nat) {f : Collective → Collective} (same : ∀ c, (f c).inbox = c.inbox) :
    NoInbox (modColl s d f) := fun e listed => by
  rcases mem_tset listed with old | new
  · exact none e old
  · rw [new]
    exact (same _).trans (none.dieOf d)

theorem pumpUnits_idle {s : State} (none : NoInbox s) : pumpUnits s = s :=
  if_pos (List.all_eq_true.mpr fun e listed => by rw [none e listed]; rfl)

/-- The module's number does not depend on its units. -/
theorem moduleNumber_modColl (s : State) (d : Nat) (f : Collective → Collective) : moduleNumber (modColl s d f) = moduleNumber s := by
  rw [moduleNumber, modColl, dieOf_modDie]
  split
  · next here => rw [here]; rfl
  · rfl

/-- The right operand of a node, as it waits there. -/
def rightOperand (p : Packet) (route : List Nat) : Operand :=
  { plan := p.addr.toNat / 2 ^ 44, chunk := p.addr.toNat % 2 ^ 28, split := p.aux.toNat / 2 ^ 30, left := false,
    payload := p.payload, route }

/-- A packet for a node whose left operand has not come waits there. -/
theorem unitTake_waits {s : State} {p : Packet} {q : Plan} {e : Nat} {rest : List Nat}
    (plan : planIn s p.ddie.toNat (p.addr.toNat / 2 ^ 44) = some q) (check : q.pchk.toNat = p.addr.toNat / 2 ^ 28 % 2 ^ 16)
    (room : portsFull s p.ddie.toNat = false) (route : packetRoute p = e :: rest) (notResult : e / 2 ^ 13 ≠ 0)
    (notCopy : e / 2 ^ 13 ≠ opCopy)
    (node : nodeRoom s p.ddie.toNat (p.addr.toNat / 2 ^ 44) (p.addr.toNat % 2 ^ 28) (p.aux.toNat / 2 ^ 30) = true)
    (alone : ∀ y ∈ (dieOf s p.ddie.toNat).coll.operands, ¬ (y.plan = p.addr.toNat / 2 ^ 44 ∧ y.chunk = p.addr.toNat % 2 ^ 28 ∧
      y.split = p.aux.toNat / 2 ^ 30 ∧ y.left = true)) :
    unitTake s p.ddie.toNat p =
      some (modColl s p.ddie.toNat fun c => { c with operands := c.operands ++ [rightOperand p rest] }, 0) := by
  have single : (dieOf s p.ddie.toNat).coll.operands.find? (fun y => y.plan == (rightOperand p rest).plan &&
      y.chunk == (rightOperand p rest).chunk && y.split == (rightOperand p rest).split && y.left != (rightOperand p rest).left) = none := by
    refine List.find?_eq_none.mpr fun y listed pairs => alone y listed ?_
    simpa [rightOperand, and_assoc] using pairs
  have waits : pairUp s p.ddie.toNat q (rightOperand p rest) =
      (modColl s p.ddie.toNat fun c => { c with operands := c.operands ++ [rightOperand p rest] }, none) := by
    rw [pairUp]
    simp only [single]
  have result : (e / 2 ^ 13 == 0) = false := beq_eq_false_iff_ne.mpr notResult
  have copy : (e / 2 ^ 13 == opCopy) = false := beq_eq_false_iff_ne.mpr notCopy
  unfold rightOperand at waits ⊢
  simp only [unitTake, plan, check, bne_self_eq_false, room, route, result, copy, node, waits, Bool.not_true, Bool.false_eq_true,
    if_false]

theorem dieOf_emit (s : State) (p : Packet) (d : Nat) : dieOf (emit s p) d = dieOf s d := rfl

theorem dieOf_setFlow (s : State) (f : Flow) (d : Nat) : dieOf (setFlow s f) d = dieOf s d := rfl

/-- The right operand of a node waits there, and its packet is acknowledged. -/
theorem arriveOrdered_rightOperand {s : State} {port : Nat} {p : Packet} {rest : List Nat} (whole : p.trimmed = false)
    (type : p.type = tyCollective) (turn : (p.seq - (flowOf s (flowKey p)).expect).toNat = 0)
    (empty : (flowOf s (flowKey p)).window = []) (none : NoInbox s)
    (taken : unitTake (setFlow s (heldFlow s p)) p.ddie.toNat p = some (modColl (setFlow s (heldFlow s p)) p.ddie.toNat fun c =>
      { c with operands := c.operands ++ [rightOperand p rest] }, 0)) :
    let t := arriveOrdered s port p
    t.mem = s.mem ∧ (dieOf t p.ddie.toNat).coll.operands = (dieOf s p.ddie.toNat).coll.operands ++ [rightOperand p rest] ∧
      (flowOf t (flowKey p)).expect = (flowOf s (flowKey p)).expect + 1 ∧ t.fabric.out = s.fabric.out ++ [answerTo s p 3 tyAck 0] := by
  have idle : NoInbox (modColl (setFlow s (heldFlow s p)) p.ddie.toNat fun c =>
      { c with operands := c.operands ++ [rightOperand p rest] }) := NoInbox.modColl (s := setFlow s (heldFlow s p)) none _ fun _ => rfl
  dsimp only
  rw [arriveOrdered_collective whole type turn empty taken, flowOf_deliveredFlow, dieOf_setFlow]
  rw [pumpUnits_idle idle, ack_emits, dieOf_emit, modColl, dieOf_modDie_self, dieOf_setFlow]
  refine ⟨rfl, rfl, rfl, ?_⟩
  have number := moduleNumber_modColl (setFlow s (heldFlow s p)) p.ddie.toNat fun c =>
    { c with operands := c.operands ++ [rightOperand p rest] }
  rw [modColl] at number
  show s.fabric.out ++ [answerTo _ p 3 tyAck 0] = _
  unfold answerTo
  rw [number]
  rfl

/-- A whole sector written by another module. -/
theorem homeWrite_sector {s : State} {p : Packet} {w : Wide} (port : Nat) (type : p.type = tyPosted ∨ p.type = tyEngine)
    (fresh : wasApplied s p = false) (noWindow : windowOf s p.addr.toNat = none)
    (unreserved : reservedCells s (paLoc s p.addr.toNat) 32 = false) (one : p.payload = [w]) (first : p.fmask = 0xFFFFFFFF)
    (last : p.lmask = 0xFFFFFFFF) (canonical : Memory.wf s.mem = true)
    (admitted : ∃ u, engineLines s (packetPlace s p) 32 true = .ok u) (noTxs : ∀ e ∈ s.wgs, e.2.txs = []) :
    let t := homeWrite s port p
    readNat t (paLoc s p.addr.toNat) 32 = w.toNat ∧ wasApplied t p = true ∧
      ∀ l, l < paLoc s p.addr.toNat ∨ paLoc s p.addr.toNat + 32 ≤ l → Memory.get t.mem l = Memory.get s.mem l := by
  obtain ⟨v, applied, cells⟩ := applyWrite_sector noWindow unreserved one first last noTxs admitted
  have sketch : (p.type == tySketch) = false := by rcases type with type | type <;> rw [type] <;> rfl
  have rmw : (p.type == tyRmwReq) = false := by rcases type with type | type <;> rw [type] <;> rfl
  have plain : applyPosted s p = applyWrite s p := by rw [applyPosted, sketch, rmw, if_neg Bool.false_ne_true, if_neg Bool.false_ne_true]
  dsimp only
  rw [homeWrite_fresh port fresh (plain.trans applied)]
  have mem : (emit (noteApplied v p) (answerTo (noteApplied v p) p 3 tyAck 0)).mem =
      Memory.setList s.mem (paLoc s p.addr.toNat) (leBytes 32 w.toNat) := cells
  refine ⟨?_, wasApplied_noteApplied .., fun l out => ?_⟩
  · rw [readNat_setList_same canonical mem]
    exact Nat.mod_eq_of_lt w.isLt
  · rw [mem, Memory.get_setList_out _ _ (by rwa [length_leBytes])]

/-- A sector read by another module: the response is kept at the port that it leaves. -/
theorem respond_keeps {s u : State} {p : Packet} {a : Answer} {x : Wide} (plain : p.aux.toNat % 2 ^ 33 = 0)
    (same : LineOnly s u) (st : a.st = u) (flits : a.flits = [x]) :
    ∃ q k, (respond a.st p tyReadResp a).mem = s.mem ∧
      k ∈ (portOf (respond a.st p tyReadResp a) (leastPort s (homeDie p.addr.toNat))).kept ∧ k.owner = .response ∧ k.pkt = q ∧
      q.dmod = p.smod ∧ q.type = tyReadResp ∧ q.payload = [x] ∧ q.aux.toNat % 2 ^ 16 = p.tag.toNat := by
  have frame : u = { s with coh := u.coh, dies := u.dies } := same
  have data : a.flits ≠ [] := by
    rw [flits]
    exact List.cons_ne_nil _ _
  have sameMem : u.mem = s.mem := by rw [frame]
  have samePort : leastPort u (homeDie p.addr.toNat) = leastPort s (homeDie p.addr.toNat) := by
    rw [frame]
    rfl
  rw [st, respond_sector plain u data, samePort]
  obtain ⟨k, listed, owner, sent⟩ := sendFrom_keeps u (leastPort s (homeDie p.addr.toNat)) (sectorResponse p a) .response 0
  refine ⟨k.pkt, k, (FabricOnly.sendFrom ..).mem.trans sameMem, listed, owner, rfl, ?_⟩
  rw [sent]
  refine ⟨rfl, rfl, flits, ?_⟩
  have aux : (sectorResponse p a).aux = BitVec.ofNat 40 (p.tag.toNat + p.sport.toNat * 2 ^ 16 + a.status % 256 * 2 ^ 24) := rfl
  have tag := p.tag.isLt
  show (sectorResponse p a).aux.toNat % 2 ^ 16 = _
  rw [aux, BitVec.toNat_ofNat]
  omega

end Sys2Proof.Machine

namespace Sys2Proof

open Sys2Proof.Machine

/-- Settles O51, arrival by arrival: what a port keeps, queues and sends, and what a home or a source does. -/
theorem packetSteps : Obligations.PacketSteps := by
  unfold Obligations.PacketSteps
  intro s port p real
  dsimp only
  refine ⟨fun bad i listed => ?discarded, fun good => ⟨fun lane => ?header, fun lane fits => ?data, fun trims lane => ?trimmed,
    fun stub unordered => ?stub, fun k type kept => ?recalled, fun k type status kept => ?ack,
    fun posted unordered whole ours again => ?again,
    fun w type unordered whole ours fresh noWindow unreserved one first last canonical admitted noTxs => ?write,
    fun ordered ours whole => ?ordered, fun type ours room plain noWindow unreserved noTxs admitted => ?read,
    fun k type unordered whole empty kept => ?empty,
    fun type unordered whole some sound status kept noReads => ?response⟩, fun k next => execRecallSend_next real next,
    fun tag k kept => ?timeout⟩
  case discarded =>
    have run : exec i s = .next (discard s port) := by
      simp only [List.mem_cons, List.not_mem_nil, or_false] at listed
      rcases listed with rfl | rfl | rfl | rfl | rfl | rfl | rfl | rfl | rfl <;>
        exact (if_neg (Nat.not_le.mpr real)).trans (if_pos bad)
    exact ⟨_, run, discard_frame s port⟩
  case header =>
    refine ⟨_, execSwitchPacketArrival_good real good, ?_⟩
    rw [egress_header lane]
    exact ⟨rfl, rfl, rfl⟩
  case data =>
    refine ⟨_, execSwitchPacketArrival_good real good, ?_⟩
    rw [egress_data lane fits, portOf_modPort_self]
    exact ⟨rfl, rfl⟩
  case trimmed =>
    refine ⟨_, execSwitchPacketArrival_good real good, ?_⟩
    rw [egress_trimmed lane trims, portOf_emit, countTrim, portOf_modPort_self]
    exact ⟨rfl, tgetD_tset_self .., rfl⟩
  case stub =>
    refine ⟨_, execStubArrival_stub real good stub unordered, ?_⟩
    rw [addStub, portOf_modPort_self]
    rfl
  case recalled =>
    have tagged := (keptOf_mem kept).2
    exact ⟨_, _, execRecallArrival_kept real good type kept, mem_resend kept tagged, tagged, rfl, moreTrims_eq _⟩
  case ack =>
    refine ⟨_, execAckArrival_kept real good type status kept, fun y listed => tag_dropKept listed, fun e known y listed same => ?_, rfl⟩
    obtain ⟨e, earlier, rfl⟩ := List.mem_map.mp known
    obtain ⟨e, -, rfl⟩ := List.mem_map.mp earlier
    obtain ⟨-, other⟩ := List.mem_filter.mp listed
    simp [same.1, same.2] at other
  case again =>
    refine ⟨_, execPostedWriteApply_unordered real good posted unordered whole ours, ?_⟩
    rw [homeWrite_again port again]
    exact ⟨rfl, rfl⟩
  case write =>
    have posted : isPosted p = true := by rcases type with type | type <;> rw [isPosted, type] <;> rfl
    exact ⟨_, execPostedWriteApply_unordered real good posted unordered whole ours,
      homeWrite_sector port type fresh noWindow unreserved one first last canonical admitted noTxs⟩
  case ordered =>
    refine ⟨fun ahead near free missing => ?_, fun behind => ?_, fun type v turn empty taken => ?_,
      fun q e rest type turn empty plan check room route notResult notCopy node alone none => ?_⟩
    · refine ⟨_, execOrderedPacketArrival_ours real good ordered ours, ?_⟩
      rw [arriveOrdered_ahead whole ahead near free missing, flowOf_heldFlow]
      exact ⟨rfl, rfl, tget_tset_self ..⟩
    · refine ⟨_, execOrderedPacketArrival_ours real good ordered ours, ?_⟩
      rw [arriveOrdered_behind behind]
      exact ⟨rfl, rfl⟩
    · refine (execCollectivePacketArrival_ours real good type ordered ours).trans (congrArg _ ?_)
      refine arriveOrdered_collective whole type turn empty ?_
      rw [heldFlow, empty]
      exact taken
    · have taken := unitTake_waits (s := setFlow s (heldFlow s p)) plan check room route notResult notCopy node alone
      exact ⟨_, execCollectivePacketArrival_ours real good type ordered ours,
        arriveOrdered_rightOperand whole type turn empty none taken⟩
  case read =>
    obtain ⟨u, line⟩ := admitted
    obtain ⟨st, -, flits⟩ := serveSector_line noWindow unreserved noTxs line
    obtain ⟨q, k, answered⟩ := respond_keeps plain (lineAccess_lineOnly line) st flits
    exact ⟨_, q, k, execReadRequestArrival_sector real good type ours room plain, answered⟩
  case empty =>
    exact ⟨_, execReadResponseArrival_unordered real good (.inl type) unordered whole, takeResponse_empty empty kept⟩
  case response =>
    refine ⟨_, execReadResponseArrival_unordered real good type unordered whole, ?_⟩
    rw [takeResponse_data some sound status kept noReads]
    dsimp only
    rw [asks_fillAsks]
    refine ⟨rfl, rfl, kept_dropKept (emit s (answerTo s p 3 tyAck 0)) .., fun i => ?_, rfl⟩
    exact pend_fillPieces (dropKept (emit s (answerTo s p 3 tyAck 0)) ..) ..
  case timeout =>
    refine ⟨execResendTimeout_early real kept, fun late few => ?_, fun i late many owner => ?_⟩
    · have tagged := (keptOf_mem kept).2
      exact ⟨_, _, execResendTimeout_again real kept late few, mem_resend (y := { k with resends := k.resends + 1 }) kept tagged, rfl⟩
    · have tagged := (keptOf_mem kept).2
      obtain ⟨gone, lost⟩ := loseKept_thread (s := s) (port := port) owner
      rw [tagged] at gone lost
      exact ⟨_, execResendTimeout_loses real kept late many, gone, lost⟩

end Sys2Proof
end
